-- ==== Sys2Proof/Word.lean ====
section
/-! DEFINITION. Sys2Proof/Word.lean: the word types of the Krydel KX9 and their plainest arithmetic. -/

namespace Sys2Proof

/-- One byte of memory (R85, R116: everything is little-endian and byte-addressed). -/
abbrev Byte := BitVec 8

/-- One code parcel (R85). -/
abbrev Parcel := BitVec 16

/-- One syllable (R87). -/
abbrev Syl := BitVec 32

/-- The contents of a scalar register (R62). -/
abbrev Word := BitVec 64

/-- A device virtual address: 56 bits (R207). -/
abbrev Addr := BitVec 56

end Sys2Proof
end

