-- ==== Sys2Proof/Config.lean ====
section
/-! DEFINITION. Sys2Proof/Config.lean: what the manual fixes once for the part, and the free values that it leaves open.
An `opaque` constant has no body here: no proof can learn a value of it, and a claim holds whatever it is. -/

namespace Sys2Proof.Config

/-- Cores, clusters, cores per cluster, vaults, channels and moorings (R1, R2). -/
def nCores : Nat := 1024
def nClusters : Nat := 64
def coresPerCluster : Nat := 16
def nChannels : Nat := 256
def nMoorings : Nat := 12

/-- Core cycles and command clocks of one HBM frame, clocks of one window, windows of a frame (R214). -/
def frameCycles : Nat := 10368
def frameClocks : Nat := 6144
def windowClocks : Nat := 128
def nWindows : Nat := 48

/-- Sizes of a scratchpad, a pool and a vault in bytes (R195, R201, R204). -/
def spadBytes : Nat := 0x20000
def poolBytes : Nat := 0x200000
def vaultBytes : Nat := 0x400000

/-- Bases of the SRAM windows, of the translated range and of HBM4E (R207, R217). -/
def spadBase : Nat := 0x0000_0001_0000_0000
def poolBase : Nat := 0x0000_0002_0000_0000
def vaultBase : Nat := 0x0000_0003_0000_0000
def codeBase : Nat := 0x0000_0100_0000_0000
def hbmBase : Nat := 0x0000_1000_0000_0000
def hbmBytes : Nat := 0x80_0000_0000

/-- DESIGN CHOICE (log 7). The free values: the n-th value that the manual leaves open, of each kind.
State's counter `free` supplies n. -/
opaque freeWord : Nat → Word
opaque freeNat : Nat → Nat

/-- DESIGN CHOICE (log 7). A lane value times scales of which one is no finite number (R173, R188). -/
opaque freeScale : Nat → List Nat → BitVec 32

/-- DESIGN CHOICE (log 9). Where the lamp table of the kernel image at an address lies: R89 says only that the table is
part of the kernel image. -/
opaque lampTableOf : Addr → Addr

/-- DESIGN CHOICE (log 14). AES-GMAC of R284: key, nonce and data give the 128-bit tag. The manual names the standard and
gives no arithmetic for it. -/
opaque gmac : BitVec 256 → BitVec 96 → List Byte → BitVec 128

/-- DESIGN CHOICE (log 14). The digest of a firmware image and the checks of its two signatures (R340). -/
opaque sha384 : List Byte → BitVec 384
opaque ed25519Ok : BitVec 384 → List Byte → List Byte → Bool
opaque mlDsaOk : BitVec 384 → List Byte → List Byte → Bool
/-- DESIGN CHOICE (log 14). The two public-key digests fused at manufacture (R340): 0 Ed25519, 1 ML-DSA-65. -/
opaque fusedKey : Nat → BitVec 384
/-- DESIGN CHOICE (log 14). The two device signatures of an attestation report (R341). -/
opaque deviceSign : List Byte → List Byte
/-- DESIGN CHOICE (log 14). The 8-byte CRC of a Cloys flit (R338). -/
opaque flitCrc : List Byte → Word
/-- DESIGN CHOICE (log 11). Which of the pairs of dimensions that its two shape records allow a layout transform swaps, by its block (R255). -/
opaque swapDims : List Byte → Nat
/-- DESIGN CHOICE (log 11). The bytes that a copy routine of index 8 or above writes from its source bytes and its block. -/
opaque routineOut : Nat → List Byte → List Byte → List Byte
/-- DESIGN CHOICE (log 11). The bytes that a routine of index 8 or above takes from SRC, by its index and its block. -/
opaque routineIn : Nat → List Byte → Nat
/-- DESIGN CHOICE (log 7). The cycles that a walk adds to an open access of a cluster, by the address and the cycle (R209). -/
opaque walkCycles : Nat → Nat → Nat → Nat

/-- DESIGN CHOICE (log 16). The number of this device in its scale-up domain (R265, R338): set outside the package. -/
opaque ownDeviceId : BitVec 16
def ownDevice : Nat := ownDeviceId.toNat

/-- DESIGN CHOICE (log 13). The first row and the first store word that the Pilot chooses for a mooring on a channel
(R218, R333). -/
opaque pilotRow : Nat → Nat → Nat
opaque pilotWord : Nat → Nat → Nat

/-- PRESUMED (log 19). The link-layer address of an Ethernet port. -/
opaque portMac : Nat → BitVec 48

end Sys2Proof.Config
end

