-- ==== Sys2Proof/Syntax.lean ====
section
/-! DEFINITION. Sys2Proof/Syntax.lean: the steps of the Krydel KX9, one constructor per row of spec/opcode_table.json:
the syllables of R97 to R104, the timeline words of R222, the node records of R295, and the events of file 95. -/

namespace Sys2Proof

/-- The two sequencers of a core (R29). -/
inductive Seq where | primary | secondary
  deriving DecidableEq, Repr

/-- The eight slots, in presence order (R86). -/
inductive Slot where | a | b | m | v | w | f | e | c
  deriving DecidableEq, Repr

/-- Slot A or slot B: they share a map (R97). -/
inductive AB where | a | b
  deriving DecidableEq, Repr

/-- Slot V or slot W: they share a map (R100). -/
inductive VW where | v | w
  deriving DecidableEq, Repr

/-- A read port of H (R64). -/
inductive Port where | p0 | p1 | p2
  deriving DecidableEq, Repr

/-- The register files (R62, codes of R92). -/
inductive File where | a | b | m | v | w | f | h
  deriving DecidableEq, Repr

/-- An X-format source: a register of the slot's own file, or an H register through a port (R92). -/
inductive Src (n : Nat) where
  | own (r : Fin n)
  | h (p : Port) (r : Fin 32)
  deriving DecidableEq, Repr

/-- An X-format destination: own file, or H where DH is set (R92). -/
inductive Dst (n : Nat) where
  | own (r : Fin n)
  | h (r : Fin 32)
  deriving DecidableEq, Repr

/-- An H register and the port it is read through. -/
structure HRd where
  port : Port
  reg : Fin 32
  deriving DecidableEq, Repr

/-- The data register and second operand of an M-slot store (R99): an M register beside an operand that follows PT, or
an H register through a port beside an M register. -/
inductive SOpnd where
  | m (d : Fin 32) (b : Src 32)
  | h (d : HRd) (b : Fin 32)
  deriving DecidableEq, Repr

/-- The data register of `GAUGE`, `STM` (R99): M, or H through a port. -/
inductive SReg where
  | m (d : Fin 32)
  | h (d : HRd)
  deriving DecidableEq, Repr

/-- Access size (R93). -/
inductive Size where | b | h | w | d
  deriving DecidableEq, Repr

/-- Address space (R93). -/
inductive Space where | own | pool | near | any
  deriving DecidableEq, Repr

/-- Rounding mode (R93). -/
inductive RM where | rne | rtz | rdn | rup
  deriving DecidableEq, Repr

/-- Floating-point format of an FP syllable (R93). -/
inductive FS where | f32 | f64 | f16 | bf16
  deriving DecidableEq, Repr

/-- Comparison (R93). -/
inductive Cond where | eq | lt | le | un | ne
  deriving DecidableEq, Repr

/-- `FCVT` types, in code order (R98). -/
inductive CvtTy where | f32 | f64 | f16 | bf16 | i64 | u64 | i32 | u32
  deriving DecidableEq, Repr

/-- The element formats of `FMT`, in code order (R72). -/
inductive Form where | fp32 | fp16 | bf16 | int8 | int16 | int32 | sx4 | sx8 | sx16
  deriving DecidableEq, Repr

/-- `ATOM` operations, in code order (R99). -/
inductive AtomOp where | add | and | or | xor | min | max | umin | umax | swap | cas | fadd | ebb
  deriving DecidableEq, Repr

/-- Pass modes of the mesh (R102). -/
inductive PassMode where | p8 | p16 | p24
  deriving DecidableEq, Repr

/-- `COLL` operations and formats (R102). -/
inductive CollOp where | reduceScatter | allGather | allReduce
  deriving DecidableEq, Repr
inductive CollFmt where | fp32 | bf16 | ebb64
  deriving DecidableEq, Repr

/-- Engine classes, in code order (R102). -/
inductive EClass where | mesh | copy | six | coll | cloys | nm | pkg
  deriving DecidableEq, Repr

/-- `FENCE` scopes, in code order (R104). -/
inductive FScope where | ld | core | cluster | package | domain | nm
  deriving DecidableEq, Repr

/-- The condition of `BR` (R104). -/
inductive BrCond where
  | always
  | ifH (h : HRd)
  deriving DecidableEq, Repr

/-- The count of `LOOP` (R104). -/
inductive LCount where
  | imm (n : Fin 32)
  | reg (h : HRd)
  deriving DecidableEq, Repr

/-- The shift operand of `VSHL`, `VSHR` (R100). -/
inductive VSh where
  | imm (n : Fin 32)
  | op (b : Src 16)
  deriving DecidableEq, Repr

/-- The new sounding of `FSNDSET` (R97). -/
inductive SndArg where
  | imm (n : Fin 64)
  | reg (b : Src 32)
  deriving DecidableEq, Repr

/-- The fields PC, BANK, ROW, COL, LAND of a timeline command (R221), with its DELAY. -/
structure TlCol where
  delay : BitVec 10
  pc : BitVec 1
  bank : BitVec 4
  row : BitVec 18
  col : BitVec 6
  land : BitVec 19
  deriving DecidableEq, Repr

/-- The fields of a timeline row command that names a bank (R222). -/
structure TlBank where
  delay : BitVec 10
  pc : BitVec 1
  bank : BitVec 4
  deriving DecidableEq, Repr

/-- The head and payload of a submission entry (R332): its index, the bytes 1–15, its reserved tail and its payload. -/
structure SubEntry where
  seq : Nat
  mooring : BitVec 8
  rsv : BitVec 16
  len : BitVec 32
  arg : BitVec 64
  tail : List Byte
  payload : List Byte
  deriving DecidableEq, Repr

/-- One entry of a mooring load's channel list with the words it points to in host memory (R333). -/
structure ChanEntry where
  head : List Byte
  words : List (BitVec 64)
  deriving DecidableEq, Repr

/-- One entry of a mooring load's group list with the device numbers it points to in host memory (R333). -/
structure GrpEntry where
  head : List Byte
  devices : List (BitVec 16)
  deriving DecidableEq, Repr

/-- The control registers of R331 that have no row of their own, as a host write names them. -/
inductive HostReg where
  | udpPort
  | ipAddress (i : Nat)
  | checker (channel param : Nat)
  | disturbT (channel : Nat)
  | disturbRefw (channel : Nat)
  | clquota (plane : Nat)
  | exportSram
  | exportHbm
  | submissionRing
  | completionRing
  | submissionTail
  | completionHead
  | errorOverflow
  | tlrgn (channel mooring : Nat)
  | tlstore (channel mooring : Nat)
  | timelineWord (channel index : Nat)
  | eolpred
  | errorLog (word : Nat)
  | errorCounter (source : Nat)
  | ptroot (cluster : Nat)
  deriving DecidableEq, Repr

/-- The three mooring registers of R331: `CTXBASE` of a core, `EBBTAB` and `LENS` of a mooring. -/
inductive MoorReg where
  | ctxbase (core : Nat)
  | ebbtab (mooring : Nat)
  | lens (mooring : Nat)
  deriving DecidableEq, Repr

/-- Who sent a launch record (R282): over a port, its link address, its IPv6 address and UDP port, and the address it sent to; or the host,
with the mooring and the index of the submission entry. -/
inductive RecSrc where
  | ethernet (port : Nat) (mac addr : List Byte) (udp : Nat) (own : List Byte)
  | host (mooring seq : Nat)
  deriving DecidableEq, Repr

/-- A verified-or-not firmware image of R340. -/
inductive FwKind where | pilot | routines | management
  deriving DecidableEq, Repr
structure FwImage where
  kind : FwKind
  version : Nat
  digest : BitVec 384
  ed25519 : List Byte
  mldsa : List Byte
  body : List Byte
  deriving DecidableEq, Repr

/-- One step of the machine: a syllable, a timeline word, a node record or an event. -/
inductive Instr where
  -- Slots A and B, integer (R97)
  | add (sl : AB) (d : Dst 32) (a : Fin 32) (b : Src 32)
  | addImm (sl : AB) (d a : Fin 32) (i : BitVec 15)
  | addsat (sl : AB) (d : Dst 32) (a : Fin 32) (b : Src 32)
  | and (sl : AB) (d : Dst 32) (a : Fin 32) (b : Src 32)
  | andImm (sl : AB) (d a : Fin 32) (i : BitVec 15)
  | bfi (sl : AB) (d a : Fin 32) (pos w : Fin 64)
  | bfx (sl : AB) (d : Dst 32) (a : Fin 32) (pos w : Fin 64)
  | bnet (d : Dst 32) (a : Fin 32) (cfg : Fin 8)
  | bnetld (a : Fin 32) (stage cfg : Fin 8)
  | clz (sl : AB) (d : Dst 32) (a : Fin 32)
  | max (sl : AB) (d : Dst 32) (a : Fin 32) (b : Src 32) (u : Bool)
  | min (sl : AB) (d : Dst 32) (a : Fin 32) (b : Src 32) (u : Bool)
  | movhi (sl : AB) (d : Fin 32) (i : BitVec 20)
  | movi (sl : AB) (d : Fin 32) (i : BitVec 20)
  | mul (sl : AB) (d : Dst 32) (a : Fin 32) (b : Src 32)
  | mulh (sl : AB) (d : Dst 32) (a : Fin 32) (b : Src 32) (u : Bool)
  | or (sl : AB) (d : Dst 32) (a : Fin 32) (b : Src 32)
  | orImm (sl : AB) (d a : Fin 32) (i : BitVec 15)
  | popc (sl : AB) (d : Dst 32) (a : Fin 32)
  | sel (sl : AB) (d a : Fin 32) (b : Src 32)
  | seq (sl : AB) (d : Dst 32) (a : Fin 32) (b : Src 32)
  | shl (sl : AB) (d : Dst 32) (a : Fin 32) (b : Src 32)
  | shlImm (sl : AB) (d a : Fin 32) (c : Fin 64)
  | shr (sl : AB) (d : Dst 32) (a : Fin 32) (b : Src 32)
  | shrImm (sl : AB) (d a : Fin 32) (c : Fin 64)
  | slt (sl : AB) (d : Dst 32) (a : Fin 32) (b : Src 32) (u : Bool)
  | sltImm (sl : AB) (d a : Fin 32) (i : BitVec 15)
  | sra (sl : AB) (d : Dst 32) (a : Fin 32) (b : Src 32)
  | sraImm (sl : AB) (d a : Fin 32) (c : Fin 64)
  | sub (sl : AB) (d : Dst 32) (a : Fin 32) (b : Src 32)
  | xor (sl : AB) (d : Dst 32) (a : Fin 32) (b : Src 32)
  | xorImm (sl : AB) (d a : Fin 32) (i : BitVec 15)
  -- Slots A and B, floating point (R97)
  | fabs (sl : AB) (d : Dst 32) (a : Fin 32) (fs : FS)
  | fadd (sl : AB) (d : Dst 32) (a : Fin 32) (b : Src 32) (rm : RM) (fs : FS)
  | fclass (sl : AB) (d : Dst 32) (a : Fin 32) (fs : FS)
  | fcmp (sl : AB) (d : Dst 32) (a : Fin 32) (b : Src 32) (fs : FS) (c : Cond)
  | fcvt (sl : AB) (d : Dst 32) (a : Fin 32) (rm : RM) (dt st : CvtTy)
  | fma (sl : AB) (d a : Fin 32) (b : Src 32) (rm : RM) (fs : FS)
  | fmax (sl : AB) (d : Dst 32) (a : Fin 32) (b : Src 32) (fs : FS)
  | fmin (sl : AB) (d : Dst 32) (a : Fin 32) (b : Src 32) (fs : FS)
  | fmul (sl : AB) (d : Dst 32) (a : Fin 32) (b : Src 32) (rm : RM) (fs : FS)
  | fneg (sl : AB) (d : Dst 32) (a : Fin 32) (fs : FS)
  | fsnd (sl : AB) (d : Dst 32) (a : Fin 32) (fs : FS)
  | fsndset (sl : AB) (d : Dst 32) (a : Fin 32) (n : SndArg)
  | fsub (sl : AB) (d : Dst 32) (a : Fin 32) (b : Src 32) (rm : RM) (fs : FS)
  -- Slot M (R99)
  | atom (d : Dst 32) (a : Fin 32) (b : Src 32) (pool : Bool) (w64 : Bool) (op : AtomOp)
  | ebbadd (o : SOpnd) (a : Fin 32) (pool : Bool)
  | ebbld (d : Dst 32) (a : Fin 32) (b : Src 32) (sp : Space)
  | gauge (o : SReg) (a : Fin 32) (pool : Bool)
  | itset (it : Fin 8) (a : Fin 32) (b : Src 32) (level : Fin 8)
  | ld (d : Dst 32) (a : Fin 32) (b : Src 32) (sp : Space) (sz : Size) (sc sx : Bool)
  | ldOffset (d base : Fin 32) (sz : Size) (sp : Space) (off : BitVec 11)
  | ldm (d : Dst 32) (a : Fin 32) (n : Fin 32) (sp : Space)
  | lds (d : Dst 32) (a : Fin 32) (b : Src 32) (sp : Space) (sz : Size) (sc sx : Bool)
  | ldsOffset (d base : Fin 32) (sz : Size) (sp : Space) (off : BitVec 11)
  | madd (d : Dst 32) (a : Fin 32) (b : Src 32)
  | maddImm (d a : Fin 32) (i : BitVec 15)
  | recv (a : Fin 32) (k : Fin 128)
  | send (o : SOpnd) (a : Fin 32) (sz : Size)
  | st (o : SOpnd) (a : Fin 32) (sp : Space) (sz : Size) (sc : Bool)
  | stOffset (d base : Fin 32) (sz : Size) (sp : Space) (off : BitVec 11)
  | stm (o : SReg) (a : Fin 32) (n : Fin 32) (sp : Space)
  | sts (o : SOpnd) (a : Fin 32) (sp : Space) (sz : Size) (sc : Bool)
  | stsOffset (d base : Fin 32) (sz : Size) (sp : Space) (off : BitVec 11)
  -- Slots V and W (R100)
  | vabs (sl : VW) (d a : Fin 16)
  | vadd (sl : VW) (d a : Fin 16) (b : Src 16) (rm : RM)
  | vand (sl : VW) (d a : Fin 16) (b : Src 16)
  | vbcast (sl : VW) (d : Fin 16) (h : HRd)
  | vcmp (sl : VW) (d a : Fin 16) (b : Src 16) (c : Cond)
  | vcvt (sl : VW) (d a : Fin 16) (rm : RM) (sat : Bool) (src : Form)
  | vexp2 (sl : VW) (d a : Fin 16) (rm : RM)
  | vfma (sl : VW) (d a : Fin 16) (b : Src 16) (rm : RM)
  | viadd (sl : VW) (d a : Fin 16) (b : Src 16) (sat : Bool)
  | vimac (sl : VW) (d a : Fin 16) (b : Src 16) (sat : Bool)
  | vimul (sl : VW) (d a : Fin 16) (b : Src 16) (sat : Bool)
  | visub (sl : VW) (d a : Fin 16) (b : Src 16) (sat : Bool)
  | vld (sl : VW) (d : Fin 16) (h : HRd) (off : BitVec 7)
  | vlds (sl : VW) (d : Fin 16) (h : HRd) (off : BitVec 7)
  | vldx (sl : VW) (d : Fin 16) (h : HRd) (n : Fin 32)
  | vldz (sl : VW) (d : Fin 16) (h : HRd)
  | vmax (sl : VW) (d a : Fin 16) (b : Src 16)
  | vmaxr (sl : VW) (d a : Fin 16) (cols : Bool)
  | vmin (sl : VW) (d a : Fin 16) (b : Src 16)
  | vmovi (sl : VW) (d : Fin 16) (i : BitVec 16)
  | vmul (sl : VW) (d a : Fin 16) (b : Src 16) (rm : RM)
  | vneg (sl : VW) (d a : Fin 16)
  | vor (sl : VW) (d a : Fin 16) (b : Src 16)
  | vrcp (sl : VW) (d a : Fin 16) (rm : RM)
  | vrsq (sl : VW) (d a : Fin 16) (rm : RM)
  | vsat (sl : VW) (d a : Fin 16) (u : Bool) (range : Fin 4)
  | vsel (sl : VW) (d a : Fin 16) (b : Src 16)
  | vshl (sl : VW) (d a : Fin 16) (c : VSh)
  | vshr (sl : VW) (d a : Fin 16) (c : VSh) (arith : Bool)
  | vslide (sl : VW) (d a : Fin 16) (b : Src 16) (up : Bool) (k : Fin 64)
  | vsnd (sl : VW) (d a : Fin 16) (set : Bool) (n : Fin 64)
  | vst (sl : VW) (d : Fin 16) (h : HRd) (off : BitVec 7)
  | vsts (sl : VW) (d : Fin 16) (h : HRd) (off : BitVec 7)
  | vstx (sl : VW) (d : Fin 16) (h : HRd) (n : Fin 32)
  | vstz (sl : VW) (d : Fin 16) (h : HRd) (cap : Fin 128)
  | vsub (sl : VW) (d a : Fin 16) (b : Src 16) (rm : RM)
  | vsum (sl : VW) (d a : Fin 16) (cols : Bool)
  | vtrn (sl : VW) (d a : Fin 16)
  | vxor (sl : VW) (d a : Fin 16) (b : Src 16)
  | vzmap (sl : VW) (d : Fin 32) (a : Fin 16) (g : Fin 8)
  -- Slot F (R101)
  | fatan2 (d : Dst 16) (a : Fin 16) (b : Src 16) (rm : RM) (fs : FS)
  | fdecay (d : Dst 16) (a : Fin 16) (b : Src 16)
  | fdiv (d : Dst 16) (a : Fin 16) (b : Src 16) (rm : RM) (fs : FS)
  | fexp2 (d : Dst 16) (a : Fin 16) (rm : RM) (fs : FS)
  | flog2 (d : Dst 16) (a : Fin 16) (rm : RM) (fs : FS)
  | frcp (d : Dst 16) (a : Fin 16) (rm : RM) (fs : FS)
  | frsq (d : Dst 16) (a : Fin 16) (rm : RM) (fs : FS)
  | fsincos (d a : Fin 16) (rm : RM) (fs : FS)
  | fsqrt (d : Dst 16) (a : Fin 16) (rm : RM) (fs : FS)
  -- Slot E (R102)
  | arrgang (h : HRd)
  | arrld (h : HRd)
  | arrpass (h : HRd) (mode : PassMode) (rev dcorr : Bool)
  | arrrest (h : HRd)
  | arrsave (h : HRd)
  | arrscl (h : HRd)
  | arrsweep (h : HRd) (resume : Bool)
  | chkpt (h : HRd)
  | coll (h : HRd) (inst : Fin 4) (op : CollOp) (fmt : CollFmt)
  | cpy (h : HRd) (inst : Fin 2) (routine : Fin 64)
  | cpymc (h : HRd) (inst : Fin 2) (routine : Fin 64)
  | ebbsweep (h : HRd) (region : Fin 16)
  | engq (h : HRd) (cls : EClass) (inst : Fin 32)
  | nmc (h : HRd)
  | publish (h : HRd)
  | rld (h : HRd) (plane : Fin 16)
  | rst (h : HRd) (plane : Fin 16)
  | scrub (h : HRd) (inst : Fin 2)
  | sixrun (h : HRd) (rate : Fin 4) (rle : Bool)
  | stepadv (h : HRd) (inc : BitVec 8)
  -- Slot C (R104)
  | br (c : BrCond) (off : BitVec 18)
  | brk (tag : BitVec 16)
  | bsnd (h : HRd) (s : Fin 64) (ge : Bool) (off : BitVec 11)
  | call (off : BitVec 18)
  | fence (scope : FScope)
  | fmtset (form : Form)
  | loop (n : LCount) (rev pre : Bool) (endOff : BitVec 16)
  | shape (file : VW) (rows : Fin 32) (cols : Fin 64)
  | sync (mask : BitVec 16)
  | sysrd (d : Fin 32) (n : Fin 128)
  | syswr (h : HRd) (n : Fin 128)
  | trap (code : BitVec 8)
  | waitg (h : HRd) (limit : BitVec 17)
  | xmov (df : File) (d : Fin 32) (sf : File) (s : Fin 32)
  -- Events of a core and its memory
  | bundleFetch (core : Nat)
  | secondaryBundleIssue (core : Nat)
  | resultLanding (core : Nat) (q : Seq)
  | accessPerform (id : Nat)
  | secondaryAccessDeferred (id : Nat)
  | openPoolService (id : Nat)
  | sendLanding (id : Nat)
  | watchItemLanding (core : Nat)
  | syncBarrierComplete (cluster : Nat)
  | syncTimeout (cluster : Nat)
  | waitgRelease (core : Nat) (q : Seq)
  | waitgDeadline (core : Nat) (q : Seq)
  | fenceRelease (core : Nat) (q : Seq)
  | tfenceRelease (core : Nat) (q : Seq)
  | secondaryWatchdog (core : Nat)
  -- Events of the engines
  | engineStart (id : Nat)
  | sweepElimination (core : Nat)
  | copyBudgetExpiry (id : Nat)
  | cpymcDeliveryCheck (id : Nat)
  | cpymcChunkLanding (id j : Nat)
  | sixrunOffsetPush (core : Nat)
  | ebbSweepGranule (id : Nat)
  | nmBlockPerform (channel id : Nat)
  | chkptDrainPage (m : Nat)
  | chkptDrainEnd (m : Nat)
  | collComplete (id : Nat)
  | remoteCompletion (id : Nat) (status : BitVec 8) (data : List Byte)
  | remoteTimeout (id : Nat)
  | linkLoss (plane : Nat)
  | cloysFlitReceive (plane : Nat) (flit : List Byte)
  -- Events of the Pilot
  | launchRecord (port : Nat) (frame : List Byte)
  | icmpv6NeighbourDiscovery (port : Nat) (frame : List Byte)
  | icmpv6Echo (port : Nat) (frame : List Byte)
  | unsupportedFrame (port : Nat)
  | taskSeal (m : Nat)
  | taskStart (m : Nat)
  | taskComplete (m : Nat)
  | launchCycleLimit (m core : Nat)
  -- Node records (R295)
  | launch (delay cmask ltab cycles : BitVec 64)
  | timeline (delay : BitVec 64) (chmask : BitVec 256) (word : BitVec 16) (soff : BitVec 64)
  | publishn (delay : BitVec 64) (count : BitVec 16) (list : BitVec 64)
  | waitn (delay : BitVec 64) (mode : BitVec 8) (gen : BitVec 32) (gaddr limit : BitVec 64)
  | chkptn (delay : BitVec 64) (nr : BitVec 8) (ranges : Vector (BitVec 96) 3) (dest : BitVec 64)
  | stepn (delay : BitVec 64) (inc : BitVec 8)
  | goto (delay : BitVec 64) (target count : BitVec 32)
  | nodeEnd (delay : BitVec 64)
  | waitnRelease (m : Nat)
  | waitnLimit (m : Nat)
  | nodePreemption (m : Nat)
  | forcedPreemptionLanding (m : Nat)
  | preemptedTaskResume (m : Nat)
  | parkedRequestDeadlineCheck (m : Nat)
  | contextStreamerWrite (core : Nat)
  | taskDiscard (m : Nat)
  -- Commands of the host (R331 to R334)
  | hostLaunchRecord (e : SubEntry)
  | resumeParkedTask (e : SubEntry)
  | stepTask (e : SubEntry)
  | discardParkedTask (e : SubEntry)
  | clearErrorLog (e : SubEntry)
  | clearErrorCounters (e : SubEntry)
  | loadMooring (e : SubEntry) (pins : List (List Byte)) (chans : List ChanEntry) (grps : List GrpEntry)
  | startSecondaryStream (e : SubEntry)
  | stopSecondaryStream (e : SubEntry)
  | setLooseMode (e : SubEntry)
  | requestForcedPreemption (e : SubEntry)
  | hostSramAccess (addr : Nat) (write : Bool) (bytes : List Byte)
  | hostHbmAccess (addr : Nat) (write : Bool) (bytes : List Byte)
  | openShareService (channel : Nat)
  | hostMooringRegisterWrite (r : MoorReg) (v : BitVec 64)
  | shareMapWrite (channel : Nat) (map : Vector (BitVec 64) 3)
  | powerCapWrite (watts : Nat)
  | routineTableLoad (image : FwImage) (entries : List (Nat × Nat × Nat))
  | hostRegisterWrite (r : HostReg) (v : BitVec 64)
  -- Events and words of the HBM channels (R214 to R240)
  | windowEnd (channel : Nat)
  | act (f : TlBank) (row : BitVec 18)
  | pre (f : TlBank)
  | prea (delay : BitVec 10) (pc : BitVec 1)
  | rd (f : TlCol)
  | rda (f : TlCol)
  | wr (f : TlCol)
  | wra (f : TlCol)
  | crd (f : TlCol)
  | ref (delay : BitVec 10) (pc : BitVec 1)
  | refsb (f : TlBank)
  | rfm (f : TlBank)
  | scrb (f : TlBank)
  | nmx (delay : BitVec 10) (len : BitVec 18) (index : BitVec 6)
  | waitc (delay : BitVec 10) (count : BitVec 18)
  | timelineLoop (delay : BitVec 10) (count : BitVec 18)
  | endl (delay : BitVec 10)
  | mark (delay : BitVec 10) (n : BitVec 6) (core : BitVec 10) (pool : Bool) (gauge : BitVec 17)
  | timelineEnd (delay : BitVec 10)
  | timelineLanding (channel id : Nat)
  | autoPrecharge (channel pc bank : Nat)
  | cleanupPrecharge (channel pc bank : Nat)
  -- Firmware and health
  | attestationRequest (nonce : List Byte)
  | eolpredUpdate (v : BitVec 64)
  -- The steps without a field stand last: the runtime numbers at most 244 constructors that hold data.
  | ret
  | tfence
  | watch
  | doneI
  | cloysQuotaInterval
  | frameBoundary
  | powerOnReset
  | thermalLimit
  | thermalConditionClear
  deriving DecidableEq, Repr

end Sys2Proof
end

