-- ==== Sys2Proof/WellFormed.lean ====
section
/-! DEFINITION. Sys2Proof/WellFormed.lean: which instructions the encoding tables admit (R91, R94, R97 to R105, R221 to R224). -/

namespace Sys2Proof

/-- The bound of R62 and R91 on a register code of a file. -/
def File.regOk : File → Fin 32 → Bool
  | .v, r | .w, r | .f, r => r.val < 16
  | _, _ => true

/-- Instances of an engine class (R102). -/
def EClass.instances : EClass → Nat
  | .copy => 2
  | .coll => 4
  | .cloys => 16
  | _ => 1

/-- `FCVT` types that are integers (R98). -/
def CvtTy.isInt : CvtTy → Bool
  | .i64 | .u64 | .i32 | .u32 => true
  | _ => false

/-- `LDS` and `STS` require SIZE 10 or 11 (R99). -/
def Size.wide : Size → Bool
  | .w | .d => true
  | _ => false

/-- The register number of a destination. -/
def Dst.reg32 : Dst 32 → Nat
  | .own r => r.val
  | .h r => r.val

/-- The register number of a data register. -/
def SReg.num : SReg → Nat
  | .m d => d.val
  | .h d => d.reg.val

/-- Whether a destination is H. -/
def Dst.isH {n : Nat} : Dst n → Bool
  | .own _ => false
  | .h _ => true

/-- Conditions of R99 on `ATOM`. -/
def AtomOp.ok (op : AtomOp) (w64 : Bool) (d : Dst 32) : Bool :=
  match op with
  | .fadd => !w64
  | .ebb => w64
  | .cas => !d.isH
  | _ => true

/-- The instruction lies within the tables: fields that no type excludes are in range. -/
def Instr.wf : Instr → Bool
  | .bfi _ _ _ pos w | .bfx _ _ _ pos w => pos.val + w.val + 1 ≤ 64
  | .bnetld _ k _ => k.val < 6
  | .fcvt _ _ _ _ x y => x != y && !(x.isInt && y.isInt)
  | .atom d _ _ _ w op => op.ok w d
  | .itset _ _ _ l => l.val < 6
  | .lds _ _ _ _ sz _ _ | .ldsOffset _ _ sz _ _ | .sts _ _ _ sz _ | .stsOffset _ _ sz _ _ => sz.wide
  | .ldm d _ n _ => d.reg32 + n.val ≤ 31
  | .stm o _ n _ => o.num + n.val ≤ 31
  | .recv _ k => k.val != 0
  | .vsat _ _ _ _ r => r.val != 3
  | .vsnd _ _ _ set n => set || n.val == 0
  | .vstz _ _ _ cap => cap.val != 0
  | .fsincos d _ _ _ => d.val % 2 == 0
  | .arrpass _ _ rev dcorr => rev || !dcorr
  | .engq _ cls i => i.val < cls.instances
  | .sixrun _ r _ => r.val != 3
  | .stepadv _ i => i != 0
  | .loop _ _ _ e => e != 0
  | .sysrd _ n | .syswr _ n => n.val < 0x1F
  | .waitg _ l => l != 0
  | .xmov df d sf s => df != sf && df.regOk d && sf.regOk s
  | .bundleFetch c | .secondaryBundleIssue c | .resultLanding c _ | .watchItemLanding c | .waitgRelease c _
  | .waitgDeadline c _ | .fenceRelease c _ | .tfenceRelease c _ | .secondaryWatchdog c | .sweepElimination c
  | .sixrunOffsetPush c | .contextStreamerWrite c => c < Config.nCores
  | .launchCycleLimit m c => m < Config.nMoorings && c < Config.nCores
  | .syncBarrierComplete g | .syncTimeout g => g < Config.nClusters
  | .chkptDrainPage m | .chkptDrainEnd m | .taskSeal m | .taskStart m | .taskComplete m | .waitnRelease m | .waitnLimit m
  | .nodePreemption m | .forcedPreemptionLanding m | .preemptedTaskResume m | .parkedRequestDeadlineCheck m
  | .taskDiscard m => m < Config.nMoorings
  | .nmBlockPerform ch _ | .openShareService ch | .shareMapWrite ch _ | .windowEnd ch | .timelineLanding ch _ =>
    ch < Config.nChannels
  | .autoPrecharge ch pc b | .cleanupPrecharge ch pc b => ch < Config.nChannels && pc < 2 && b < 16
  | .linkLoss p | .cloysFlitReceive p _ => p < 16
  | .nmx _ len _ => 32 ≤ len.toNat && len.toNat ≤ 1023
  | .timelineLoop _ n => n != 0
  | .mark _ _ _ pool g => pool || g.toNat < 0x2000
  | .publishn _ n l => 1 ≤ n.toNat && n.toNat ≤ 32 && l.toNat % 2 == 0
  | .waitn _ mode _ _ _ => mode.toNat ≤ 1
  | .chkptn _ nr _ _ => 1 ≤ nr.toNat && nr.toNat ≤ 3
  | .stepn _ i => i != 0
  | _ => true

end Sys2Proof
end

