-- ==== Sys2Proof/Decode.lean ====
section
/-! DEFINITION. Sys2Proof/Decode.lean: the decoder of the slot maps (R92 to R106), of timeline words (R221 to R224) and
of node records (R294, R295), and the encoder written from the same tables. A word that a map does not list is refused
by `none`, which the fetch turns into the illegal-encoding trap (R91). -/

namespace Sys2Proof

/-! ### Fields -/

/-- Bits [lo + n − 1 : lo] of a word. -/
def bits (w lo n : Nat) : Nat := w / 2 ^ lo % 2 ^ n

/-- A field as a register number of 32. -/
def reg32 (w lo : Nat) : Fin 32 := ⟨bits w lo 5, Nat.mod_lt _ (by decide)⟩
/-- A field as a 4-bit register number: bit 4 is tested by `r16ok`. -/
def reg16 (w lo : Nat) : Fin 16 := ⟨bits w lo 4, Nat.mod_lt _ (by decide)⟩
/-- Bit 4 of a register field is clear (R91, R367). -/
def r16ok (w lo : Nat) : Bool := bits w (lo + 4) 1 == 0
/-- One bit. -/
def bit (w lo : Nat) : Bool := bits w lo 1 == 1

def fin64 (w lo : Nat) : Fin 64 := ⟨bits w lo 6, Nat.mod_lt _ (by decide)⟩
def fin8 (w lo : Nat) : Fin 8 := ⟨bits w lo 3, Nat.mod_lt _ (by decide)⟩
def fin4 (w lo : Nat) : Fin 4 := ⟨bits w lo 2, Nat.mod_lt _ (by decide)⟩
def fin2 (w lo : Nat) : Fin 2 := ⟨bits w lo 1, Nat.mod_lt _ (by decide)⟩
def fin128 (w lo : Nat) : Fin 128 := ⟨bits w lo 7, Nat.mod_lt _ (by decide)⟩

/-- The port codes of PT and of a port field: 01, 10, 11 (R92). -/
def Port.ofCode (c : Nat) : Port := if c = 1 then .p0 else if c = 2 then .p1 else .p2
def Port.code : Port → Nat
  | .p0 => 1
  | .p1 => 2
  | .p2 => 3

def Size.ofCode (c : Nat) : Size := if c = 0 then .b else if c = 1 then .h else if c = 2 then .w else .d
def Size.code : Size → Nat
  | .b => 0
  | .h => 1
  | .w => 2
  | .d => 3

def Space.ofCode (c : Nat) : Space := if c = 0 then .own else if c = 1 then .pool else if c = 2 then .near else .any
def Space.code : Space → Nat
  | .own => 0
  | .pool => 1
  | .near => 2
  | .any => 3

def RM.ofCode (c : Nat) : RM := if c = 0 then .rne else if c = 1 then .rtz else if c = 2 then .rdn else .rup
def RM.code : RM → Nat
  | .rne => 0
  | .rtz => 1
  | .rdn => 2
  | .rup => 3

def FS.ofCode (c : Nat) : FS := if c = 0 then .f32 else if c = 1 then .f64 else if c = 2 then .f16 else .bf16
def FS.code : FS → Nat
  | .f32 => 0
  | .f64 => 1
  | .f16 => 2
  | .bf16 => 3

def Cond.ofCode : Nat → Option Cond
  | 0 => some .eq
  | 1 => some .lt
  | 2 => some .le
  | 3 => some .un
  | 4 => some .ne
  | _ => none
def Cond.code : Cond → Nat
  | .eq => 0
  | .lt => 1
  | .le => 2
  | .un => 3
  | .ne => 4

def CvtTy.ofCode : Nat → Option CvtTy
  | 0 => some .f32
  | 1 => some .f64
  | 2 => some .f16
  | 3 => some .bf16
  | 4 => some .i64
  | 5 => some .u64
  | 6 => some .i32
  | 7 => some .u32
  | _ => none
def CvtTy.code : CvtTy → Nat
  | .f32 => 0
  | .f64 => 1
  | .f16 => 2
  | .bf16 => 3
  | .i64 => 4
  | .u64 => 5
  | .i32 => 6
  | .u32 => 7

def Form.ofCode : Nat → Option Form
  | 0 => some .fp32
  | 1 => some .fp16
  | 2 => some .bf16
  | 3 => some .int8
  | 4 => some .int16
  | 5 => some .int32
  | 6 => some .sx4
  | 7 => some .sx8
  | 8 => some .sx16
  | _ => none
def Form.code : Form → Nat
  | .fp32 => 0
  | .fp16 => 1
  | .bf16 => 2
  | .int8 => 3
  | .int16 => 4
  | .int32 => 5
  | .sx4 => 6
  | .sx8 => 7
  | .sx16 => 8

def AtomOp.ofCode : Nat → Option AtomOp
  | 0 => some .add
  | 1 => some .and
  | 2 => some .or
  | 3 => some .xor
  | 4 => some .min
  | 5 => some .max
  | 6 => some .umin
  | 7 => some .umax
  | 8 => some .swap
  | 9 => some .cas
  | 10 => some .fadd
  | 11 => some .ebb
  | _ => none
def AtomOp.code : AtomOp → Nat
  | .add => 0
  | .and => 1
  | .or => 2
  | .xor => 3
  | .min => 4
  | .max => 5
  | .umin => 6
  | .umax => 7
  | .swap => 8
  | .cas => 9
  | .fadd => 10
  | .ebb => 11

def PassMode.ofCode : Nat → Option PassMode
  | 0 => some .p8
  | 1 => some .p16
  | 2 => some .p24
  | _ => none
def PassMode.code : PassMode → Nat
  | .p8 => 0
  | .p16 => 1
  | .p24 => 2

def CollOp.ofCode : Nat → Option CollOp
  | 0 => some .reduceScatter
  | 1 => some .allGather
  | 2 => some .allReduce
  | _ => none
def CollOp.code : CollOp → Nat
  | .reduceScatter => 0
  | .allGather => 1
  | .allReduce => 2
def CollFmt.ofCode : Nat → Option CollFmt
  | 0 => some .fp32
  | 1 => some .bf16
  | 2 => some .ebb64
  | _ => none
def CollFmt.code : CollFmt → Nat
  | .fp32 => 0
  | .bf16 => 1
  | .ebb64 => 2

def EClass.ofCode : Nat → Option EClass
  | 0 => some .mesh
  | 1 => some .copy
  | 2 => some .six
  | 3 => some .coll
  | 4 => some .cloys
  | 5 => some .nm
  | 6 => some .pkg
  | _ => none
def EClass.code : EClass → Nat
  | .mesh => 0
  | .copy => 1
  | .six => 2
  | .coll => 3
  | .cloys => 4
  | .nm => 5
  | .pkg => 6

def FScope.ofCode : Nat → Option FScope
  | 0 => some .ld
  | 1 => some .core
  | 2 => some .cluster
  | 3 => some .package
  | 4 => some .domain
  | 5 => some .nm
  | _ => none
def FScope.code : FScope → Nat
  | .ld => 0
  | .core => 1
  | .cluster => 2
  | .package => 3
  | .domain => 4
  | .nm => 5

/-- The file codes of format XM; 111 is illegal (R92). -/
def File.ofCode : Nat → Option File
  | 0 => some .a
  | 1 => some .b
  | 2 => some .m
  | 3 => some .v
  | 4 => some .w
  | 5 => some .f
  | 6 => some .h
  | _ => none
def File.code : File → Nat
  | .a => 0
  | .b => 1
  | .m => 2
  | .v => 3
  | .w => 4
  | .f => 5
  | .h => 6

/-! ### Operand fields of format X -/

/-- d, with DH (R92). -/
def dst32 (w : Nat) : Dst 32 := if bit w 7 then .h (reg32 w 20) else .own (reg32 w 20)
/-- sb, with PT (R92). -/
def src32 (w : Nat) : Src 32 :=
  if bits w 8 2 = 0 then .own (reg32 w 10) else .h (Port.ofCode (bits w 8 2)) (reg32 w 10)
def dst16 (w : Nat) : Dst 16 := if bit w 7 then .h (reg32 w 20) else .own (reg16 w 20)
def dst16ok (w : Nat) : Bool := bit w 7 || r16ok w 20
def src16 (w : Nat) : Src 16 :=
  if bits w 8 2 = 0 then .own (reg16 w 10) else .h (Port.ofCode (bits w 8 2)) (reg32 w 10)
def src16ok (w : Nat) : Bool := bits w 8 2 != 0 || r16ok w 10
/-- The H register of the sb field, through PT. -/
def hrdX (w : Nat) : HRd := ⟨Port.ofCode (bits w 8 2), reg32 w 10⟩
/-- The H register of formats B and E. -/
def hrdB (w : Nat) : HRd := ⟨Port.ofCode (bits w 18 2), reg32 w 20⟩
/-- The store operands of R99. -/
def sopnd (w : Nat) : SOpnd :=
  if bit w 7 then .h ⟨Port.ofCode (bits w 8 2), reg32 w 20⟩ (reg32 w 10) else .m (reg32 w 20) (src32 w)
/-- A store whose data register is H needs a port (R99). -/
def sopndOk (w : Nat) : Bool := !(bit w 7) || bits w 8 2 != 0
/-- A unary X instruction requires sb = 0 and PT = 00 (R94). -/
def unary (w : Nat) : Bool := bits w 8 7 == 0
/-- MOD is zero. -/
def mod0 (w : Nat) : Bool := bits w 0 7 == 0

/-- `some i` where the fields pass. -/
def okIf (c : Bool) (i : Instr) : Option Instr := if c then some i else none

/-! ### The slot maps -/

/-- Slots A and B (R97, R98). -/
def decodeAB (sl : AB) (w : Nat) : Option Instr :=
  let d := dst32 w
  let dr := reg32 w 20
  let a := reg32 w 15
  let b := src32 w
  let noDH := !(bit w 7)
  let imm := BitVec.ofNat 15 (bits w 0 15)
  let rm := RM.ofCode (bits w 5 2)
  let fs := FS.ofCode (bits w 3 2)
  let u := bit w 6
  match bits w 25 7 with
  | 0x01 => okIf (mod0 w) (.add sl d a b)
  | 0x02 => okIf (mod0 w) (.sub sl d a b)
  | 0x03 => okIf (mod0 w) (.addsat sl d a b)
  | 0x04 => okIf (mod0 w) (.mul sl d a b)
  | 0x05 => okIf (bits w 0 6 == 0) (.mulh sl d a b u)
  | 0x06 => okIf (mod0 w) (.and sl d a b)
  | 0x07 => okIf (mod0 w) (.or sl d a b)
  | 0x08 => okIf (mod0 w) (.xor sl d a b)
  | 0x09 => okIf (mod0 w) (.shl sl d a b)
  | 0x0A => okIf (mod0 w) (.shr sl d a b)
  | 0x0B => okIf (mod0 w) (.sra sl d a b)
  | 0x0C => okIf (bits w 0 6 == 0) (.min sl d a b u)
  | 0x0D => okIf (bits w 0 6 == 0) (.max sl d a b u)
  | 0x0E => okIf (bits w 0 6 == 0) (.slt sl d a b u)
  | 0x0F => okIf (mod0 w) (.seq sl d a b)
  | 0x10 => okIf (mod0 w && noDH) (.sel sl dr a b)
  | 0x11 => okIf (mod0 w && unary w) (.clz sl d a)
  | 0x12 => okIf (mod0 w && unary w) (.popc sl d a)
  | 0x13 =>
    let wd : Fin 64 := ⟨(2 * bits w 10 5 + bits w 6 1) % 64, Nat.mod_lt _ (by decide)⟩
    okIf (bits w 8 2 == 0 && (bits w 0 6 + wd.val + 1 ≤ 64)) (.bfx sl d a (fin64 w 0) wd)
  | 0x14 =>
    let wd : Fin 64 := ⟨(2 * bits w 10 5 + bits w 6 1) % 64, Nat.mod_lt _ (by decide)⟩
    okIf (bits w 8 2 == 0 && noDH && (bits w 0 6 + wd.val + 1 ≤ 64)) (.bfi sl dr a (fin64 w 0) wd)
  | 0x21 => some (.addImm sl dr a imm)
  | 0x26 => some (.andImm sl dr a imm)
  | 0x27 => some (.orImm sl dr a imm)
  | 0x28 => some (.xorImm sl dr a imm)
  | 0x29 => okIf (bits w 6 9 == 0) (.shlImm sl dr a (fin64 w 0))
  | 0x2A => okIf (bits w 6 9 == 0) (.shrImm sl dr a (fin64 w 0))
  | 0x2B => okIf (bits w 6 9 == 0) (.sraImm sl dr a (fin64 w 0))
  | 0x2E => some (.sltImm sl dr a imm)
  | 0x30 => some (.movi sl dr (BitVec.ofNat 20 (bits w 0 20)))
  | 0x31 => some (.movhi sl dr (BitVec.ofNat 20 (bits w 0 20)))
  | 0x40 => okIf (bits w 0 3 == 0) (.fadd sl d a b rm fs)
  | 0x41 => okIf (bits w 0 3 == 0) (.fsub sl d a b rm fs)
  | 0x42 => okIf (bits w 0 3 == 0) (.fmul sl d a b rm fs)
  | 0x43 => okIf (bits w 0 3 == 0 && noDH) (.fma sl dr a b rm fs)
  | 0x44 => okIf (bits w 0 3 == 0 && bits w 5 2 == 0) (.fmin sl d a b fs)
  | 0x45 => okIf (bits w 0 3 == 0 && bits w 5 2 == 0) (.fmax sl d a b fs)
  | 0x46 =>
    match Cond.ofCode (bits w 0 3) with
    | some c => okIf (bits w 5 2 == 0) (.fcmp sl d a b fs c)
    | none => none
  | 0x47 => okIf (bits w 0 3 == 0 && bits w 5 2 == 0 && unary w) (.fneg sl d a fs)
  | 0x48 => okIf (bits w 0 3 == 0 && bits w 5 2 == 0 && unary w) (.fabs sl d a fs)
  | 0x49 =>
    match CvtTy.ofCode (bits w 0 3), CvtTy.ofCode (bits w 10 5) with
    | some dt, some st =>
      okIf (bits w 3 2 == 0 && bits w 8 2 == 0 && dt != st && !(dt.isInt && st.isInt)) (.fcvt sl d a rm dt st)
    | _, _ => none
  | 0x4A => okIf (bits w 0 3 == 0 && bits w 5 2 == 0 && unary w) (.fclass sl d a fs)
  | 0x4B => okIf (bits w 0 3 == 0 && bits w 5 2 == 0 && unary w) (.fsnd sl d a fs)
  | 0x4C =>
    if u then okIf (unary w) (.fsndset sl d a (.imm (fin64 w 0)))
    else okIf (bits w 0 6 == 0) (.fsndset sl d a (.reg b))
  | 0x60 =>
    match sl with
    | .a => none
    | .b => okIf (bits w 3 4 == 0 && unary w) (.bnet d a (fin8 w 0))
  | 0x61 =>
    match sl with
    | .a => none
    | .b => okIf (bits w 20 5 == 0 && bits w 6 9 == 0 && (bits w 3 3 < 6)) (.bnetld a (fin8 w 3) (fin8 w 0))
  | _ => none

/-- Slot M (R99). -/
def decodeM (w : Nat) : Option Instr :=
  let d := dst32 w
  let dr := reg32 w 20
  let a := reg32 w 15
  let b := src32 w
  let sp := Space.ofCode (bits w 5 2)
  let sz := Size.ofCode (bits w 3 2)
  let spI := Space.ofCode (bits w 11 2)
  let szI := Size.ofCode (bits w 13 2)
  let off := BitVec.ofNat 11 (bits w 0 11)
  match bits w 25 7 with
  | 0x01 => okIf (!(bit w 0)) (.ld d a b sp sz (bit w 2) (bit w 1))
  | 0x03 => okIf (!(bit w 0) && sz.wide) (.lds d a b sp sz (bit w 2) (bit w 1))
  | 0x21 => some (.ldOffset dr a szI spI off)
  | 0x23 => okIf szI.wide (.ldsOffset dr a szI spI off)
  | 0x02 => okIf (bits w 0 2 == 0 && sopndOk w) (.st (sopnd w) a sp sz (bit w 2))
  | 0x04 => okIf (bits w 0 2 == 0 && sopndOk w && sz.wide) (.sts (sopnd w) a sp sz (bit w 2))
  | 0x22 => some (.stOffset dr a szI spI off)
  | 0x24 => okIf szI.wide (.stsOffset dr a szI spI off)
  | 0x05 => okIf (bits w 8 2 == 0 && bits w 0 5 == 0 && (bits w 20 5 + bits w 10 5 ≤ 31)) (.ldm d a (reg32 w 10) sp)
  | 0x06 =>
    okIf (bits w 8 2 == 0 && bits w 2 3 == 0 && (bits w 20 5 + bits w 10 5 ≤ 31) && (bit w 7 == (bits w 0 2 != 0)))
      (.stm (if bit w 7 then .h ⟨Port.ofCode (bits w 0 2), dr⟩ else .m dr) a (reg32 w 10) sp)
  | 0x07 =>
    match AtomOp.ofCode (bits w 0 4) with
    | some op => okIf (!(bit w 6) && op.ok (bit w 4) d) (.atom d a b (bit w 5) (bit w 4) op)
    | none => none
  | 0x08 => okIf (bits w 0 5 == 0) (.ebbld d a b sp)
  | 0x09 => okIf (bits w 0 5 == 0 && !(bit w 6) && sopndOk w) (.ebbadd (sopnd w) a (bit w 5))
  | 0x0A =>
    okIf (bits w 0 5 == 0 && !(bit w 6) && bits w 10 5 == 0 && (bit w 7 == (bits w 8 2 != 0)))
      (.gauge (if bit w 7 then .h ⟨Port.ofCode (bits w 8 2), dr⟩ else .m dr) a (bit w 5))
  | 0x0B => okIf (bits w 0 3 == 0 && bits w 5 2 == 0 && sopndOk w) (.send (sopnd w) a sz)
  | 0x0C => okIf (bits w 20 5 == 0 && bits w 7 8 == 0 && bits w 0 7 != 0) (.recv a (fin128 w 0))
  | 0x0D =>
    okIf (bits w 23 2 == 0 && bits w 3 5 == 0 && (bits w 0 3 < 6)) (.itset (fin8 w 20) a b (fin8 w 0))
  | 0x0E => okIf (mod0 w) (.madd d a b)
  | 0x2E => some (.maddImm dr a (BitVec.ofNat 15 (bits w 0 15)))
  | _ => none

/-- Slots V and W (R100). -/
def decodeVW (sl : VW) (w : Nat) : Option Instr :=
  let d := reg16 w 20
  let a := reg16 w 15
  let b := src16 w
  let rm := RM.ofCode (bits w 5 2)
  let dOk := r16ok w 20 && !(bit w 7)
  let aOk := r16ok w 15
  let un := dOk && aOk && unary w
  let bin := dOk && aOk && src16ok w
  let mem := dOk && bits w 15 5 == 0 && bits w 8 2 != 0
  let h := hrdX w
  let off := BitVec.ofNat 7 (bits w 0 7)
  match bits w 25 7 with
  | 0x01 => okIf (bin && bits w 0 5 == 0) (.vadd sl d a b rm)
  | 0x02 => okIf (bin && bits w 0 5 == 0) (.vsub sl d a b rm)
  | 0x03 => okIf (bin && bits w 0 5 == 0) (.vmul sl d a b rm)
  | 0x04 => okIf (bin && bits w 0 5 == 0) (.vfma sl d a b rm)
  | 0x05 => okIf (bin && mod0 w) (.vmin sl d a b)
  | 0x06 => okIf (bin && mod0 w) (.vmax sl d a b)
  | 0x07 => okIf (un && mod0 w) (.vabs sl d a)
  | 0x08 => okIf (un && mod0 w) (.vneg sl d a)
  | 0x09 =>
    match Cond.ofCode (bits w 0 3) with
    | some c => okIf (bin && bits w 3 4 == 0) (.vcmp sl d a b c)
    | none => none
  | 0x0A => okIf (bin && mod0 w) (.vsel sl d a b)
  | 0x0B =>
    match Form.ofCode (bits w 0 4) with
    | some f => okIf un (.vcvt sl d a rm (bit w 4) f)
    | none => none
  | 0x0C => okIf (un && bits w 3 4 == 0 && bits w 0 2 != 3) (.vsat sl d a (bit w 2) (fin4 w 0))
  | 0x10 => okIf (bin && bits w 5 2 == 0 && bits w 0 4 == 0) (.viadd sl d a b (bit w 4))
  | 0x11 => okIf (bin && bits w 5 2 == 0 && bits w 0 4 == 0) (.visub sl d a b (bit w 4))
  | 0x12 => okIf (bin && bits w 5 2 == 0 && bits w 0 4 == 0) (.vimul sl d a b (bit w 4))
  | 0x13 => okIf (bin && bits w 5 2 == 0 && bits w 0 4 == 0) (.vimac sl d a b (bit w 4))
  | 0x14 => okIf (bin && mod0 w) (.vand sl d a b)
  | 0x15 => okIf (bin && mod0 w) (.vor sl d a b)
  | 0x16 => okIf (bin && mod0 w) (.vxor sl d a b)
  | 0x17 =>
    if bit w 6 then okIf (un && !(bit w 5)) (.vshl sl d a (.imm (reg32 w 0)))
    else okIf (bin && mod0 w) (.vshl sl d a (.op b))
  | 0x18 =>
    if bit w 6 then okIf un (.vshr sl d a (.imm (reg32 w 0)) (bit w 5))
    else okIf (bin && bits w 0 5 == 0) (.vshr sl d a (.op b) (bit w 5))
  | 0x20 => okIf (un && bits w 1 6 == 0) (.vsum sl d a (bit w 0))
  | 0x21 => okIf (un && bits w 1 6 == 0) (.vmaxr sl d a (bit w 0))
  | 0x22 => okIf (mem && mod0 w) (.vbcast sl d h)
  | 0x23 => okIf (un && mod0 w) (.vtrn sl d a)
  | 0x24 => okIf bin (.vslide sl d a b (bit w 6) (fin64 w 0))
  | 0x25 =>
    okIf (dOk && !(bit w 6) && bits w 8 2 == 0) (.vmovi sl d (BitVec.ofNat 16 (64 * bits w 10 10 + bits w 0 6)))
  | 0x28 => okIf (un && bits w 0 5 == 0) (.vrcp sl d a rm)
  | 0x29 => okIf (un && bits w 0 5 == 0) (.vrsq sl d a rm)
  | 0x2A => okIf (un && bits w 0 5 == 0) (.vexp2 sl d a rm)
  | 0x30 => okIf mem (.vld sl d h off)
  | 0x31 => okIf mem (.vst sl d h off)
  | 0x32 => okIf mem (.vlds sl d h off)
  | 0x33 => okIf mem (.vsts sl d h off)
  | 0x34 => okIf (mem && bits w 5 2 == 0) (.vldx sl d h (reg32 w 0))
  | 0x35 => okIf (mem && bits w 5 2 == 0) (.vstx sl d h (reg32 w 0))
  | 0x36 => okIf (mem && mod0 w) (.vldz sl d h)
  | 0x37 => okIf (mem && bits w 0 7 != 0) (.vstz sl d h (fin128 w 0))
  | 0x38 => okIf (un && (bit w 6 || bits w 0 6 == 0)) (.vsnd sl d a (bit w 6) (fin64 w 0))
  | 0x39 => okIf (aOk && unary w && bit w 7 && bits w 3 4 == 0) (.vzmap sl (reg32 w 20) a (fin8 w 0))
  | _ => none

/-- Slot F (R101, R367). -/
def decodeF (w : Nat) : Option Instr :=
  let d := dst16 w
  let a := reg16 w 15
  let b := src16 w
  let rm := RM.ofCode (bits w 5 2)
  let fs := FS.ofCode (bits w 3 2)
  let un := dst16ok w && r16ok w 15 && unary w && bits w 0 3 == 0
  let bin := dst16ok w && r16ok w 15 && src16ok w && bits w 0 3 == 0
  match bits w 25 7 with
  | 0x01 => okIf bin (.fdiv d a b rm fs)
  | 0x02 => okIf un (.fsqrt d a rm fs)
  | 0x03 => okIf un (.frcp d a rm fs)
  | 0x04 => okIf un (.frsq d a rm fs)
  | 0x05 => okIf un (.fexp2 d a rm fs)
  | 0x06 => okIf un (.flog2 d a rm fs)
  | 0x07 => okIf bin (.fatan2 d a b rm fs)
  | 0x08 => okIf (un && !(bit w 7) && bits w 20 1 == 0) (.fsincos (reg16 w 20) a rm fs)
  | 0x09 => okIf (bin && mod0 w) (.fdecay d a b)
  | _ => none

/-- Slot E (R102). -/
def decodeE (w : Nat) : Option Instr :=
  let h := hrdB w
  let port := bits w 18 2 != 0
  let unit (cls n : Nat) : Bool := port && bits w 15 3 == cls && decide (bits w 10 5 < n)
  let m0 := bits w 0 10 == 0
  match bits w 25 7 with
  | 0x01 => okIf (unit 0 1 && m0) (.arrld h)
  | 0x02 => okIf (unit 0 1 && m0) (.arrscl h)
  | 0x03 =>
    match PassMode.ofCode (bits w 0 2) with
    | some m => okIf (unit 0 1 && bits w 4 6 == 0 && (bit w 2 || !(bit w 3))) (.arrpass h m (bit w 2) (bit w 3))
    | none => none
  | 0x04 => okIf (unit 0 1 && bits w 1 9 == 0) (.arrsweep h (bit w 0))
  | 0x05 => okIf (unit 0 1 && m0) (.arrsave h)
  | 0x06 => okIf (unit 0 1 && m0) (.arrrest h)
  | 0x07 => okIf (unit 0 1 && m0) (.arrgang h)
  | 0x10 => okIf (unit 1 2 && bits w 6 4 == 0) (.cpy h (fin2 w 10) (fin64 w 0))
  | 0x11 => okIf (unit 1 2 && bits w 6 4 == 0) (.cpymc h (fin2 w 10) (fin64 w 0))
  | 0x13 => okIf (unit 1 2 && m0) (.scrub h (fin2 w 10))
  | 0x12 => okIf (unit 2 1 && bits w 3 7 == 0 && bits w 0 2 != 3) (.sixrun h (fin4 w 0) (bit w 2))
  | 0x18 =>
    match CollOp.ofCode (bits w 0 2), CollFmt.ofCode (bits w 2 2) with
    | some op, some f => okIf (unit 3 4 && bits w 4 6 == 0) (.coll h (fin4 w 10) op f)
    | _, _ => none
  | 0x19 => okIf (unit 4 16 && m0) (.rld h (reg16 w 10))
  | 0x1A => okIf (unit 4 16 && m0) (.rst h (reg16 w 10))
  | 0x20 => okIf (unit 5 1 && m0) (.nmc h)
  | 0x21 => okIf (unit 6 1 && m0) (.publish h)
  | 0x28 => okIf (unit 6 1 && m0) (.chkpt h)
  | 0x29 => okIf (unit 6 1 && bits w 8 2 == 0 && bits w 0 8 != 0) (.stepadv h (BitVec.ofNat 8 (bits w 0 8)))
  | 0x2A => okIf (unit 6 1 && bits w 4 6 == 0) (.ebbsweep h (reg16 w 0))
  | 0x30 =>
    match EClass.ofCode (bits w 15 3) with
    | some c => okIf (port && m0 && (bits w 10 5 < c.instances)) (.engq h c (reg32 w 10))
    | none => none
  | _ => none

/-- Slot C (R104, R105). -/
def decodeC (w : Nat) : Option Instr :=
  let h := hrdB w
  let port := bits w 18 2 != 0
  let d0 := bits w 20 5 == 0
  match bits w 25 7 with
  | 0x01 =>
    okIf (port || d0) (.br (if port then .ifH h else .always) (BitVec.ofNat 18 (bits w 0 18)))
  | 0x02 => okIf port (.bsnd h (fin64 w 12) (bit w 11) (BitVec.ofNat 11 (bits w 0 11)))
  | 0x03 => okIf (bits w 18 7 == 0) (.call (BitVec.ofNat 18 (bits w 0 18)))
  | 0x04 => okIf (bits w 0 25 == 0) .ret
  | 0x05 =>
    okIf (bits w 0 16 != 0)
      (.loop (if port then .reg h else .imm (reg32 w 20)) (bit w 17) (bit w 16) (BitVec.ofNat 16 (bits w 0 16)))
  | 0x08 =>
    match File.ofCode (bits w 17 3), File.ofCode (bits w 9 3) with
    | some df, some sf =>
      okIf (bits w 0 9 == 0 && df != sf && df.regOk (reg32 w 20) && sf.regOk (reg32 w 12))
        (.xmov df (reg32 w 20) sf (reg32 w 12))
    | _, _ => none
  | 0x09 =>
    match Form.ofCode (bits w 0 4) with
    | some f => okIf (d0 && bits w 4 16 == 0) (.fmtset f)
    | none => none
  | 0x0A =>
    okIf (bits w 21 4 == 0 && bits w 11 9 == 0) (.shape (if bit w 20 then .w else .v) (reg32 w 6) (fin64 w 0))
  | 0x0C => okIf (d0 && bits w 16 4 == 0) (.sync (BitVec.ofNat 16 (bits w 0 16)))
  | 0x0D =>
    let lim := 4096 * bits w 20 5 + 128 * bits w 15 5 + bits w 0 7
    okIf (bits w 8 2 != 0 && !(bit w 7) && lim != 0) (.waitg (hrdX w) (BitVec.ofNat 17 lim))
  | 0x0E =>
    match FScope.ofCode (bits w 0 3) with
    | some s => okIf (bits w 3 22 == 0) (.fence s)
    | none => none
  | 0x0F => okIf (bits w 0 25 == 0) .tfence
  | 0x10 => okIf (bits w 0 25 == 0) .watch
  | 0x1F => okIf (bits w 0 25 == 0) .doneI
  | 0x18 => okIf (bits w 8 12 == 0 && bit w 7 && (bits w 0 7 < 0x1F)) (.sysrd (reg32 w 20) (fin128 w 0))
  | 0x19 =>
    okIf (bits w 15 10 == 0 && bits w 8 2 != 0 && !(bit w 7) && (bits w 0 7 < 0x1F)) (.syswr (hrdX w) (fin128 w 0))
  | 0x1C => okIf (bits w 8 17 == 0) (.trap (BitVec.ofNat 8 (bits w 0 8)))
  | 0x1D => okIf (bits w 16 9 == 0) (.brk (BitVec.ofNat 16 (bits w 0 16)))
  | _ => none

/-- A syllable in a slot (R91): `none` is an illegal encoding. The all-zero syllable has opcode 0, which no map lists. -/
def decodeSyl (sl : Slot) (w : Nat) : Option Instr :=
  match sl with
  | .a => decodeAB .a w
  | .b => decodeAB .b w
  | .m => decodeM w
  | .v => decodeVW .v w
  | .w => decodeVW .w w
  | .f => decodeF w
  | .e => decodeE w
  | .c => decodeC w

/-! ### The encoder -/

/-- Packs a list of (field, least significant bit). -/
def pack : List (Nat × Nat) → Nat
  | [] => 0
  | (v, lo) :: l => v * 2 ^ lo + pack l

def Dst.enc {n : Nat} : Dst n → Nat
  | .own r => r.val * 2 ^ 20
  | .h r => r.val * 2 ^ 20 + 2 ^ 7
def Src.enc {n : Nat} : Src n → Nat
  | .own r => r.val * 2 ^ 10
  | .h p r => r.val * 2 ^ 10 + p.code * 2 ^ 8
def HRd.encX (h : HRd) : Nat := h.reg.val * 2 ^ 10 + h.port.code * 2 ^ 8
def HRd.encB (h : HRd) : Nat := h.reg.val * 2 ^ 20 + h.port.code * 2 ^ 18
def SOpnd.enc : SOpnd → Nat
  | .m d b => d.val * 2 ^ 20 + b.enc
  | .h d b => d.reg.val * 2 ^ 20 + b.val * 2 ^ 10 + d.port.code * 2 ^ 8 + 2 ^ 7
def AB.slot : AB → Slot
  | .a => .a
  | .b => .b
def VW.slot : VW → Slot
  | .v => .v
  | .w => .w

/-- Opcode, d, sa, sb, with the rest. -/
def encX (op : Nat) {n : Nat} (d : Dst n) (a : Nat) {k : Nat} (b : Src k) (md : Nat) : Nat :=
  op * 2 ^ 25 + d.enc + a * 2 ^ 15 + b.enc + md
def encU (op : Nat) {n : Nat} (d : Dst n) (a md : Nat) : Nat := op * 2 ^ 25 + d.enc + a * 2 ^ 15 + md
def encI (op d a i : Nat) : Nat := op * 2 ^ 25 + d * 2 ^ 20 + a * 2 ^ 15 + i
def encMI (op d a : Nat) (sz : Size) (sp : Space) (off : BitVec 11) : Nat :=
  op * 2 ^ 25 + d * 2 ^ 20 + a * 2 ^ 15 + sz.code * 2 ^ 13 + sp.code * 2 ^ 11 + off.toNat
/-- V and W: d, sa in the slot's file, sb following PT. -/
def encV (op d a : Nat) (b : Src 16) (md : Nat) : Nat := op * 2 ^ 25 + d * 2 ^ 20 + a * 2 ^ 15 + b.enc + md
def encVM (op d : Nat) (h : HRd) (md : Nat) : Nat := op * 2 ^ 25 + d * 2 ^ 20 + h.encX + md
def encE (op : Nat) (h : HRd) (cls inst md : Nat) : Nat := op * 2 ^ 25 + h.encB + cls * 2 ^ 15 + inst * 2 ^ 10 + md
def encC (op md : Nat) : Nat := op * 2 ^ 25 + md
def encBF (w pos : Nat) : Nat := w / 2 * 2 ^ 10 + w % 2 * 2 ^ 6 + pos
def fpMod (rm : RM) (fs : FS) : Nat := rm.code * 2 ^ 5 + fs.code * 2 ^ 3

/-- The slot and the 32-bit word of a syllable; `none` for every other step. -/
def encodeSyl : Instr → Option (Slot × Nat)
  | .add sl d a b => some (sl.slot, encX 0x01 d a b 0)
  | .sub sl d a b => some (sl.slot, encX 0x02 d a b 0)
  | .addsat sl d a b => some (sl.slot, encX 0x03 d a b 0)
  | .mul sl d a b => some (sl.slot, encX 0x04 d a b 0)
  | .mulh sl d a b u => some (sl.slot, encX 0x05 d a b (u.toNat * 2 ^ 6))
  | .and sl d a b => some (sl.slot, encX 0x06 d a b 0)
  | .or sl d a b => some (sl.slot, encX 0x07 d a b 0)
  | .xor sl d a b => some (sl.slot, encX 0x08 d a b 0)
  | .shl sl d a b => some (sl.slot, encX 0x09 d a b 0)
  | .shr sl d a b => some (sl.slot, encX 0x0A d a b 0)
  | .sra sl d a b => some (sl.slot, encX 0x0B d a b 0)
  | .min sl d a b u => some (sl.slot, encX 0x0C d a b (u.toNat * 2 ^ 6))
  | .max sl d a b u => some (sl.slot, encX 0x0D d a b (u.toNat * 2 ^ 6))
  | .slt sl d a b u => some (sl.slot, encX 0x0E d a b (u.toNat * 2 ^ 6))
  | .seq sl d a b => some (sl.slot, encX 0x0F d a b 0)
  | .sel sl d a b => some (sl.slot, encX 0x10 (Dst.own d) a b 0)
  | .clz sl d a => some (sl.slot, encU 0x11 d a 0)
  | .popc sl d a => some (sl.slot, encU 0x12 d a 0)
  | .bfx sl d a pos w => some (sl.slot, encU 0x13 d a (encBF w pos))
  | .bfi sl d a pos w => some (sl.slot, encU 0x14 (Dst.own d) a (encBF w pos))
  | .addImm sl d a i => some (sl.slot, encI 0x21 d a i.toNat)
  | .andImm sl d a i => some (sl.slot, encI 0x26 d a i.toNat)
  | .orImm sl d a i => some (sl.slot, encI 0x27 d a i.toNat)
  | .xorImm sl d a i => some (sl.slot, encI 0x28 d a i.toNat)
  | .shlImm sl d a c => some (sl.slot, encI 0x29 d a c)
  | .shrImm sl d a c => some (sl.slot, encI 0x2A d a c)
  | .sraImm sl d a c => some (sl.slot, encI 0x2B d a c)
  | .sltImm sl d a i => some (sl.slot, encI 0x2E d a i.toNat)
  | .movi sl d i => some (sl.slot, 0x30 * 2 ^ 25 + d * 2 ^ 20 + i.toNat)
  | .movhi sl d i => some (sl.slot, 0x31 * 2 ^ 25 + d * 2 ^ 20 + i.toNat)
  | .fadd sl d a b rm fs => some (sl.slot, encX 0x40 d a b (fpMod rm fs))
  | .fsub sl d a b rm fs => some (sl.slot, encX 0x41 d a b (fpMod rm fs))
  | .fmul sl d a b rm fs => some (sl.slot, encX 0x42 d a b (fpMod rm fs))
  | .fma sl d a b rm fs => some (sl.slot, encX 0x43 (Dst.own d) a b (fpMod rm fs))
  | .fmin sl d a b fs => some (sl.slot, encX 0x44 d a b (fs.code * 2 ^ 3))
  | .fmax sl d a b fs => some (sl.slot, encX 0x45 d a b (fs.code * 2 ^ 3))
  | .fcmp sl d a b fs c => some (sl.slot, encX 0x46 d a b (fs.code * 2 ^ 3 + c.code))
  | .fneg sl d a fs => some (sl.slot, encU 0x47 d a (fs.code * 2 ^ 3))
  | .fabs sl d a fs => some (sl.slot, encU 0x48 d a (fs.code * 2 ^ 3))
  | .fcvt sl d a rm dt st => some (sl.slot, encU 0x49 d a (st.code * 2 ^ 10 + rm.code * 2 ^ 5 + dt.code))
  | .fclass sl d a fs => some (sl.slot, encU 0x4A d a (fs.code * 2 ^ 3))
  | .fsnd sl d a fs => some (sl.slot, encU 0x4B d a (fs.code * 2 ^ 3))
  | .fsndset sl d a (.imm n) => some (sl.slot, encU 0x4C d a (2 ^ 6 + n))
  | .fsndset sl d a (.reg b) => some (sl.slot, encX 0x4C d a b 0)
  | .bnet d a cfg => some (.b, encU 0x60 d a cfg)
  | .bnetld a st cfg => some (.b, encU 0x61 (Dst.own (0 : Fin 32)) a (st * 2 ^ 3 + cfg))
  | .atom d a b pool w op => some (.m, encX 0x07 d a b (pool.toNat * 2 ^ 5 + w.toNat * 2 ^ 4 + op.code))
  | .ebbadd o a pool => some (.m, 0x09 * 2 ^ 25 + o.enc + a * 2 ^ 15 + pool.toNat * 2 ^ 5)
  | .ebbld d a b sp => some (.m, encX 0x08 d a b (sp.code * 2 ^ 5))
  | .gauge (.m d) a pool => some (.m, 0x0A * 2 ^ 25 + d * 2 ^ 20 + a * 2 ^ 15 + pool.toNat * 2 ^ 5)
  | .gauge (.h h) a pool =>
    some (.m, 0x0A * 2 ^ 25 + h.reg * 2 ^ 20 + a * 2 ^ 15 + h.port.code * 2 ^ 8 + 2 ^ 7 + pool.toNat * 2 ^ 5)
  | .itset it a b l => some (.m, 0x0D * 2 ^ 25 + it * 2 ^ 20 + a * 2 ^ 15 + b.enc + l)
  | .ld d a b sp sz sc sx =>
    some (.m, encX 0x01 d a b (sp.code * 2 ^ 5 + sz.code * 2 ^ 3 + sc.toNat * 2 ^ 2 + sx.toNat * 2))
  | .lds d a b sp sz sc sx =>
    some (.m, encX 0x03 d a b (sp.code * 2 ^ 5 + sz.code * 2 ^ 3 + sc.toNat * 2 ^ 2 + sx.toNat * 2))
  | .ldOffset d a sz sp off => some (.m, encMI 0x21 d a sz sp off)
  | .ldsOffset d a sz sp off => some (.m, encMI 0x23 d a sz sp off)
  | .ldm d a n sp => some (.m, encU 0x05 d a (n * 2 ^ 10 + sp.code * 2 ^ 5))
  | .madd d a b => some (.m, encX 0x0E d a b 0)
  | .maddImm d a i => some (.m, encI 0x2E d a i.toNat)
  | .recv a k => some (.m, 0x0C * 2 ^ 25 + a * 2 ^ 15 + k)
  | .send o a sz => some (.m, 0x0B * 2 ^ 25 + o.enc + a * 2 ^ 15 + sz.code * 2 ^ 3)
  | .st o a sp sz sc =>
    some (.m, 0x02 * 2 ^ 25 + o.enc + a * 2 ^ 15 + sp.code * 2 ^ 5 + sz.code * 2 ^ 3 + sc.toNat * 2 ^ 2)
  | .sts o a sp sz sc =>
    some (.m, 0x04 * 2 ^ 25 + o.enc + a * 2 ^ 15 + sp.code * 2 ^ 5 + sz.code * 2 ^ 3 + sc.toNat * 2 ^ 2)
  | .stOffset d a sz sp off => some (.m, encMI 0x22 d a sz sp off)
  | .stsOffset d a sz sp off => some (.m, encMI 0x24 d a sz sp off)
  | .stm (.m d) a n sp => some (.m, 0x06 * 2 ^ 25 + d * 2 ^ 20 + a * 2 ^ 15 + n * 2 ^ 10 + sp.code * 2 ^ 5)
  | .stm (.h h) a n sp =>
    some (.m, 0x06 * 2 ^ 25 + h.reg * 2 ^ 20 + a * 2 ^ 15 + n * 2 ^ 10 + 2 ^ 7 + sp.code * 2 ^ 5 + h.port.code)
  | .vadd sl d a b rm => some (sl.slot, encV 0x01 d a b (rm.code * 2 ^ 5))
  | .vsub sl d a b rm => some (sl.slot, encV 0x02 d a b (rm.code * 2 ^ 5))
  | .vmul sl d a b rm => some (sl.slot, encV 0x03 d a b (rm.code * 2 ^ 5))
  | .vfma sl d a b rm => some (sl.slot, encV 0x04 d a b (rm.code * 2 ^ 5))
  | .vmin sl d a b => some (sl.slot, encV 0x05 d a b 0)
  | .vmax sl d a b => some (sl.slot, encV 0x06 d a b 0)
  | .vabs sl d a => some (sl.slot, encI 0x07 d a 0)
  | .vneg sl d a => some (sl.slot, encI 0x08 d a 0)
  | .vcmp sl d a b c => some (sl.slot, encV 0x09 d a b c.code)
  | .vsel sl d a b => some (sl.slot, encV 0x0A d a b 0)
  | .vcvt sl d a rm sat f => some (sl.slot, encI 0x0B d a (rm.code * 2 ^ 5 + sat.toNat * 2 ^ 4 + f.code))
  | .vsat sl d a u g => some (sl.slot, encI 0x0C d a (u.toNat * 2 ^ 2 + g))
  | .viadd sl d a b s => some (sl.slot, encV 0x10 d a b (s.toNat * 2 ^ 4))
  | .visub sl d a b s => some (sl.slot, encV 0x11 d a b (s.toNat * 2 ^ 4))
  | .vimul sl d a b s => some (sl.slot, encV 0x12 d a b (s.toNat * 2 ^ 4))
  | .vimac sl d a b s => some (sl.slot, encV 0x13 d a b (s.toNat * 2 ^ 4))
  | .vand sl d a b => some (sl.slot, encV 0x14 d a b 0)
  | .vor sl d a b => some (sl.slot, encV 0x15 d a b 0)
  | .vxor sl d a b => some (sl.slot, encV 0x16 d a b 0)
  | .vshl sl d a (.imm n) => some (sl.slot, encI 0x17 d a (2 ^ 6 + n))
  | .vshl sl d a (.op b) => some (sl.slot, encV 0x17 d a b 0)
  | .vshr sl d a (.imm n) ar => some (sl.slot, encI 0x18 d a (2 ^ 6 + ar.toNat * 2 ^ 5 + n))
  | .vshr sl d a (.op b) ar => some (sl.slot, encV 0x18 d a b (ar.toNat * 2 ^ 5))
  | .vsum sl d a x => some (sl.slot, encI 0x20 d a x.toNat)
  | .vmaxr sl d a x => some (sl.slot, encI 0x21 d a x.toNat)
  | .vbcast sl d h => some (sl.slot, encVM 0x22 d h 0)
  | .vtrn sl d a => some (sl.slot, encI 0x23 d a 0)
  | .vslide sl d a b up k => some (sl.slot, encV 0x24 d a b (up.toNat * 2 ^ 6 + k))
  | .vmovi sl d i => some (sl.slot, 0x25 * 2 ^ 25 + d * 2 ^ 20 + i.toNat / 64 * 2 ^ 10 + i.toNat % 64)
  | .vrcp sl d a rm => some (sl.slot, encI 0x28 d a (rm.code * 2 ^ 5))
  | .vrsq sl d a rm => some (sl.slot, encI 0x29 d a (rm.code * 2 ^ 5))
  | .vexp2 sl d a rm => some (sl.slot, encI 0x2A d a (rm.code * 2 ^ 5))
  | .vld sl d h off => some (sl.slot, encVM 0x30 d h off.toNat)
  | .vst sl d h off => some (sl.slot, encVM 0x31 d h off.toNat)
  | .vlds sl d h off => some (sl.slot, encVM 0x32 d h off.toNat)
  | .vsts sl d h off => some (sl.slot, encVM 0x33 d h off.toNat)
  | .vldx sl d h n => some (sl.slot, encVM 0x34 d h n)
  | .vstx sl d h n => some (sl.slot, encVM 0x35 d h n)
  | .vldz sl d h => some (sl.slot, encVM 0x36 d h 0)
  | .vstz sl d h c => some (sl.slot, encVM 0x37 d h c)
  | .vsnd sl d a set n => some (sl.slot, encI 0x38 d a (set.toNat * 2 ^ 6 + n))
  | .vzmap sl d a g => some (sl.slot, encI 0x39 d a (2 ^ 7 + g))
  | .fdiv d a b rm fs => some (.f, encX 0x01 d a b (fpMod rm fs))
  | .fsqrt d a rm fs => some (.f, encU 0x02 d a (fpMod rm fs))
  | .frcp d a rm fs => some (.f, encU 0x03 d a (fpMod rm fs))
  | .frsq d a rm fs => some (.f, encU 0x04 d a (fpMod rm fs))
  | .fexp2 d a rm fs => some (.f, encU 0x05 d a (fpMod rm fs))
  | .flog2 d a rm fs => some (.f, encU 0x06 d a (fpMod rm fs))
  | .fatan2 d a b rm fs => some (.f, encX 0x07 d a b (fpMod rm fs))
  | .fsincos d a rm fs => some (.f, encU 0x08 (Dst.own d) a (fpMod rm fs))
  | .fdecay d a b => some (.f, encX 0x09 d a b 0)
  | .arrld h => some (.e, encE 0x01 h 0 0 0)
  | .arrscl h => some (.e, encE 0x02 h 0 0 0)
  | .arrpass h m rev dc => some (.e, encE 0x03 h 0 0 (dc.toNat * 2 ^ 3 + rev.toNat * 2 ^ 2 + m.code))
  | .arrsweep h r => some (.e, encE 0x04 h 0 0 r.toNat)
  | .arrsave h => some (.e, encE 0x05 h 0 0 0)
  | .arrrest h => some (.e, encE 0x06 h 0 0 0)
  | .arrgang h => some (.e, encE 0x07 h 0 0 0)
  | .cpy h i r => some (.e, encE 0x10 h 1 i r)
  | .cpymc h i r => some (.e, encE 0x11 h 1 i r)
  | .sixrun h r l => some (.e, encE 0x12 h 2 0 (l.toNat * 2 ^ 2 + r))
  | .scrub h i => some (.e, encE 0x13 h 1 i 0)
  | .coll h i op f => some (.e, encE 0x18 h 3 i (f.code * 2 ^ 2 + op.code))
  | .rld h p => some (.e, encE 0x19 h 4 p 0)
  | .rst h p => some (.e, encE 0x1A h 4 p 0)
  | .nmc h => some (.e, encE 0x20 h 5 0 0)
  | .publish h => some (.e, encE 0x21 h 6 0 0)
  | .chkpt h => some (.e, encE 0x28 h 6 0 0)
  | .stepadv h i => some (.e, encE 0x29 h 6 0 i.toNat)
  | .ebbsweep h r => some (.e, encE 0x2A h 6 0 r)
  | .engq h c i => some (.e, encE 0x30 h c.code i 0)
  | .br .always off => some (.c, encC 0x01 off.toNat)
  | .br (.ifH h) off => some (.c, encC 0x01 (h.encB + off.toNat))
  | .bsnd h s ge off => some (.c, encC 0x02 (h.encB + s * 2 ^ 12 + ge.toNat * 2 ^ 11 + off.toNat))
  | .call off => some (.c, encC 0x03 off.toNat)
  | .ret => some (.c, encC 0x04 0)
  | .loop (.imm n) rev pre e =>
    some (.c, encC 0x05 (n * 2 ^ 20 + rev.toNat * 2 ^ 17 + pre.toNat * 2 ^ 16 + e.toNat))
  | .loop (.reg h) rev pre e =>
    some (.c, encC 0x05 (h.encB + rev.toNat * 2 ^ 17 + pre.toNat * 2 ^ 16 + e.toNat))
  | .xmov df d sf s => some (.c, encC 0x08 (d * 2 ^ 20 + df.code * 2 ^ 17 + s * 2 ^ 12 + sf.code * 2 ^ 9))
  | .fmtset f => some (.c, encC 0x09 f.code)
  | .shape .v r c => some (.c, encC 0x0A (r * 2 ^ 6 + c))
  | .shape .w r c => some (.c, encC 0x0A (2 ^ 20 + r * 2 ^ 6 + c))
  | .sync m => some (.c, encC 0x0C m.toNat)
  | .waitg h l =>
    some (.c, encC 0x0D (l.toNat / 4096 * 2 ^ 20 + l.toNat / 128 % 32 * 2 ^ 15 + h.encX + l.toNat % 128))
  | .fence s => some (.c, encC 0x0E s.code)
  | .tfence => some (.c, encC 0x0F 0)
  | .watch => some (.c, encC 0x10 0)
  | .doneI => some (.c, encC 0x1F 0)
  | .sysrd d n => some (.c, encC 0x18 (d * 2 ^ 20 + 2 ^ 7 + n))
  | .syswr h n => some (.c, encC 0x19 (h.encX + n))
  | .trap c => some (.c, encC 0x1C c.toNat)
  | .brk t => some (.c, encC 0x1D t.toNat)
  | _ => none

/-! ### Timeline words (R221 to R224) -/

def tlBank (w : Nat) : TlBank := ⟨BitVec.ofNat 10 (bits w 48 10), BitVec.ofNat 1 (bits w 47 1), BitVec.ofNat 4 (bits w 43 4)⟩
def tlCol (w : Nat) : TlCol :=
  ⟨BitVec.ofNat 10 (bits w 48 10), BitVec.ofNat 1 (bits w 47 1), BitVec.ofNat 4 (bits w 43 4),
    BitVec.ofNat 18 (bits w 25 18), BitVec.ofNat 6 (bits w 19 6), BitVec.ofNat 19 (bits w 0 19)⟩

/-- A timeline word; `none` is a word that raises a timeline fault when it is reached (R222). -/
def decodeTimeline (w : Nat) : Option Instr :=
  let dl := BitVec.ofNat 10 (bits w 48 10)
  let pc := BitVec.ofNat 1 (bits w 47 1)
  let cnt := BitVec.ofNat 18 (bits w 25 18)
  match bits w 58 6 with
  | 0x01 => okIf (bits w 0 25 == 0) (.act (tlBank w) cnt)
  | 0x02 => okIf (bits w 0 43 == 0) (.pre (tlBank w))
  | 0x03 => okIf (bits w 0 47 == 0) (.prea dl pc)
  | 0x04 => some (.rd (tlCol w))
  | 0x05 => some (.rda (tlCol w))
  | 0x06 => some (.wr (tlCol w))
  | 0x07 => some (.wra (tlCol w))
  | 0x08 => some (.crd (tlCol w))
  | 0x10 => okIf (bits w 0 47 == 0) (.ref dl pc)
  | 0x11 => okIf (bits w 0 43 == 0) (.refsb (tlBank w))
  | 0x12 => okIf (bits w 0 43 == 0) (.rfm (tlBank w))
  | 0x13 => okIf (bits w 0 43 == 0) (.scrb (tlBank w))
  | 0x18 =>
    okIf (bits w 43 5 == 0 && bits w 0 19 == 0 && (32 ≤ bits w 25 18) && (bits w 25 18 ≤ 1023))
      (.nmx dl cnt (BitVec.ofNat 6 (bits w 19 6)))
  | 0x20 => okIf (bits w 43 5 == 0 && bits w 0 25 == 0) (.waitc dl cnt)
  | 0x21 => okIf (bits w 43 5 == 0 && bits w 0 25 == 0 && bits w 25 18 != 0) (.timelineLoop dl cnt)
  | 0x22 => okIf (bits w 0 48 == 0) (.endl dl)
  | 0x28 =>
    okIf (bits w 21 10 == 0 && bits w 0 4 == 0 && (bit w 31 || bits w 4 17 < 0x2000))
      (.mark dl (BitVec.ofNat 6 (bits w 42 6)) (BitVec.ofNat 10 (bits w 32 10)) (bit w 31) (BitVec.ofNat 17 (bits w 4 17)))
  | 0x3F => okIf (bits w 0 48 == 0) (.timelineEnd dl)
  | _ => none

def TlBank.enc (op : Nat) (f : TlBank) : Nat :=
  op * 2 ^ 58 + f.delay.toNat * 2 ^ 48 + f.pc.toNat * 2 ^ 47 + f.bank.toNat * 2 ^ 43
def TlCol.enc (op : Nat) (f : TlCol) : Nat :=
  op * 2 ^ 58 + f.delay.toNat * 2 ^ 48 + f.pc.toNat * 2 ^ 47 + f.bank.toNat * 2 ^ 43 + f.row.toNat * 2 ^ 25 +
    f.col.toNat * 2 ^ 19 + f.land.toNat
def encTl (op : Nat) (dl : BitVec 10) (rest : Nat) : Nat := op * 2 ^ 58 + dl.toNat * 2 ^ 48 + rest

/-- The 64-bit word of a timeline command. -/
def encodeTimeline : Instr → Option Nat
  | .act f row => some (f.enc 0x01 + row.toNat * 2 ^ 25)
  | .pre f => some (f.enc 0x02)
  | .prea dl pc => some (encTl 0x03 dl (pc.toNat * 2 ^ 47))
  | .rd f => some (f.enc 0x04)
  | .rda f => some (f.enc 0x05)
  | .wr f => some (f.enc 0x06)
  | .wra f => some (f.enc 0x07)
  | .crd f => some (f.enc 0x08)
  | .ref dl pc => some (encTl 0x10 dl (pc.toNat * 2 ^ 47))
  | .refsb f => some (f.enc 0x11)
  | .rfm f => some (f.enc 0x12)
  | .scrb f => some (f.enc 0x13)
  | .nmx dl len ix => some (encTl 0x18 dl (len.toNat * 2 ^ 25 + ix.toNat * 2 ^ 19))
  | .waitc dl n => some (encTl 0x20 dl (n.toNat * 2 ^ 25))
  | .timelineLoop dl n => some (encTl 0x21 dl (n.toNat * 2 ^ 25))
  | .endl dl => some (encTl 0x22 dl 0)
  | .mark dl n core pool g =>
    some (encTl 0x28 dl (n.toNat * 2 ^ 42 + core.toNat * 2 ^ 32 + pool.toNat * 2 ^ 31 + g.toNat * 2 ^ 4))
  | .timelineEnd dl => some (encTl 0x3F dl 0)
  | _ => none

/-! ### Node records (R294, R295) -/

/-- Bytes [lo, lo + n) of a 64-byte record held as a little-endian number. -/
def bytesOf (w lo n : Nat) : Nat := bits w (8 * lo) (8 * n)

/-- A node record; `none` is a node fault: an unlisted TYPE, a non-zero reserved byte, or a field beyond its limit (R297). -/
def decodeNode (w : Nat) : Option Instr :=
  let dl := BitVec.ofNat 64 (bytesOf w 8 8)
  if bytesOf w 1 7 != 0 then none else
  match bytesOf w 0 1 with
  | 0x01 =>
    okIf (bytesOf w 40 24 == 0)
      (.launch dl (BitVec.ofNat 64 (bytesOf w 16 8)) (BitVec.ofNat 64 (bytesOf w 24 8)) (BitVec.ofNat 64 (bytesOf w 32 8)))
  | 0x02 =>
    okIf (bytesOf w 50 6 == 0)
      (.timeline dl (BitVec.ofNat 256 (bytesOf w 16 32)) (BitVec.ofNat 16 (bytesOf w 48 2)) (BitVec.ofNat 64 (bytesOf w 56 8)))
  | 0x03 =>
    okIf (bytesOf w 18 6 == 0 && bytesOf w 32 32 == 0 && (1 ≤ bytesOf w 16 2) && (bytesOf w 16 2 ≤ 32) && bytesOf w 24 1 % 2 == 0)
      (.publishn dl (BitVec.ofNat 16 (bytesOf w 16 2)) (BitVec.ofNat 64 (bytesOf w 24 8)))
  | 0x04 =>
    okIf (bytesOf w 17 3 == 0 && bytesOf w 40 24 == 0 && (bytesOf w 16 1 ≤ 1))
      (.waitn dl (BitVec.ofNat 8 (bytesOf w 16 1)) (BitVec.ofNat 32 (bytesOf w 20 4)) (BitVec.ofNat 64 (bytesOf w 24 8))
        (BitVec.ofNat 64 (bytesOf w 32 8)))
  | 0x05 =>
    okIf (bytesOf w 17 3 == 0 && (1 ≤ bytesOf w 16 1) && (bytesOf w 16 1 ≤ 3))
      (.chkptn dl (BitVec.ofNat 8 (bytesOf w 16 1))
        #v[BitVec.ofNat 96 (bytesOf w 20 12), BitVec.ofNat 96 (bytesOf w 32 12), BitVec.ofNat 96 (bytesOf w 44 12)]
        (BitVec.ofNat 64 (bytesOf w 56 8)))
  | 0x06 =>
    okIf (bytesOf w 17 47 == 0 && bytesOf w 16 1 != 0) (.stepn dl (BitVec.ofNat 8 (bytesOf w 16 1)))
  | 0x07 =>
    okIf (bytesOf w 24 40 == 0)
      (.goto dl (BitVec.ofNat 32 (bytesOf w 16 4)) (BitVec.ofNat 32 (bytesOf w 20 4)))
  | 0x0F => okIf (bytesOf w 16 48 == 0) (.nodeEnd dl)
  | _ => none

/-- The 64-byte record of a node, as a little-endian number. -/
def encodeNode : Instr → Option Nat
  | .launch dl cm lt cy => some (0x01 + dl.toNat * 2 ^ 64 + cm.toNat * 2 ^ 128 + lt.toNat * 2 ^ 192 + cy.toNat * 2 ^ 256)
  | .timeline dl ch wd so =>
    some (0x02 + dl.toNat * 2 ^ 64 + ch.toNat * 2 ^ 128 + wd.toNat * 2 ^ 384 + so.toNat * 2 ^ 448)
  | .publishn dl n l => some (0x03 + dl.toNat * 2 ^ 64 + n.toNat * 2 ^ 128 + l.toNat * 2 ^ 192)
  | .waitn dl m g ga li =>
    some (0x04 + dl.toNat * 2 ^ 64 + m.toNat * 2 ^ 128 + g.toNat * 2 ^ 160 + ga.toNat * 2 ^ 192 + li.toNat * 2 ^ 256)
  | .chkptn dl nr r dest =>
    some (0x05 + dl.toNat * 2 ^ 64 + nr.toNat * 2 ^ 128 + r[0].toNat * 2 ^ 160 + r[1].toNat * 2 ^ 256 +
      r[2].toNat * 2 ^ 352 + dest.toNat * 2 ^ 448)
  | .stepn dl i => some (0x06 + dl.toNat * 2 ^ 64 + i.toNat * 2 ^ 128)
  | .goto dl t n => some (0x07 + dl.toNat * 2 ^ 64 + t.toNat * 2 ^ 128 + n.toNat * 2 ^ 160)
  | .nodeEnd dl => some (0x0F + dl.toNat * 2 ^ 64)
  | _ => none

/-! ### The host's question about the opcode table -/

/-- The slots in the order in which `decodeTableWord` tries their maps (log 3). -/
def tableSlots : List Slot := [.e, .v, .b, .m, .f, .c]

/-- The first slot of the list whose map decodes the word, with the instruction. -/
def firstSlot (w : Nat) : List Slot → Option (Slot × Instr)
  | [] => none
  | sl :: l =>
    match decodeSyl sl w with
    | some i => some (sl, i)
    | none => firstSlot w l

/-- DESIGN CHOICE (log 3). What the decoder reads from the syllable w: the table does not name the slot, and one word has
a meaning in each slot's map, so the maps are tried in one fixed order. -/
def decodeTableWord (nbits w : Nat) : Option Instr :=
  if nbits = 32 then (firstSlot w tableSlots).map (·.2) else none

end Sys2Proof
end

