-- ==== Sys2Proof/Machine/State.lean ====
section
/-! DEFINITION. Sys2Proof/Machine/State.lean: the whole state of the package as plain data (INVENTORY.md lists each piece
with its rule), the faults and refusals, and the state right after power-on reset. -/

namespace Sys2Proof.Machine

/-- Why the machine stops. -/
inductive Fault where
  /-- Raised by an event that names a core, mooring, channel, access or command that does not exist: no step of the
  machine makes such an event. Safe: the part has no such unit. -/
  | noSuchUnit
  deriving DecidableEq, Repr

/-- Why an instruction has no meaning. -/
inductive Refusal where
  /-- Raised by exec for an instruction whose meaning is not written yet. Safe: nothing runs. -/
  | notModelled (mnemonic : String)
  deriving DecidableEq, Repr

/-- The outcome of one step of this machine. -/
abbrev Out (σ : Type) := Host.Outcome σ Fault Refusal

/-! ### Sparse maps: key and value pairs with rising keys, no value equal to the default -/

/-- The value under a key. -/
def sget {α : Type} (d : α) : List (Nat × α) → Nat → α
  | [], _ => d
  | (k, v) :: l, n => if n < k then d else if n = k then v else sget d l n

/-- Puts a value under a key, keeping the canonical form. -/
def sset {α : Type} [DecidableEq α] (d : α) : List (Nat × α) → Nat → α → List (Nat × α)
  | [], n, x => if x = d then [] else [(n, x)]
  | (k, v) :: l, n, x =>
    if n < k then (if x = d then (k, v) :: l else (n, x) :: (k, v) :: l)
    else if n = k then (if x = d then l else (n, x) :: l)
    else (k, v) :: sset d l n x

/-- The canonical form: keys strictly rising above a bound, and no default value. -/
def swf {α : Type} [DecidableEq α] (d : α) : Nat → List (Nat × α) → Bool
  | _, [] => true
  | b, (k, v) :: l => decide (b ≤ k) && decide (v ≠ d) && swf d (k + 1) l

/-! ### Memory -/

/-- The bytes of SRAM and HBM at package physical addresses (R195, R201, R204, R207, R217). -/
abbrev Memory := List Host.Cell

/-- DESIGN CHOICE (log 1). What an address that the memory does not list reads as. -/
def Memory.unlisted : Byte := 0

/-- The canonical form of memory. -/
def Memory.wf (m : Memory) : Bool := swf Memory.unlisted 0 m

/-! ### Registers -/

/-- A scalar register with the state carried with its value (R62, R75, R76). -/
structure Reg where
  val : Word
  snd : BitVec 6
  poi : Bool
  deriving DecidableEq, Repr

/-- R67: value 0, sounding 63, poison 0. -/
def Reg.zero : Reg := ⟨0, 63, false⟩

/-- A vector register (R62): 2,048 bytes, a sounding and a poison bit per 16-bit position, a zero flag per 32-bit word. -/
structure VReg where
  data : BitVec 16384
  snd : BitVec 6144
  poi : BitVec 1024
  zf : BitVec 512
  deriving DecidableEq, Repr

/-- R67: every word reads 0 with its zero flag set (soundings 63). -/
def VReg.zero : VReg := ⟨0, BitVec.allOnes 6144, 0, BitVec.allOnes 512⟩

/-- A register by file and number. -/
structure RRef where
  file : File
  num : Nat
  deriving DecidableEq, Repr

/-- One entry of a loop stack (R30, R44, R311). -/
structure LoopEnt where
  start : Addr
  stop : Addr
  count : Nat
  index : Nat
  rev : Bool
  pre : Bool
  deriving DecidableEq, Repr

/-- An iterator binding (R47). -/
structure IterB where
  base : Word
  stride : BitVec 32
  level : Nat
  wait : Bool
  poi : Bool
  deriving DecidableEq, Repr

/-! ### Results in flight (R78) -/

/-- What a queue entry does when it lands. -/
inductive QEff where
  /-- A value for an A, B, M, F or H register. -/
  | reg (r : RRef) (v : Reg)
  /-- A tile for the bytes [lo, lo + n) of a V or W register. -/
  | vec (f : VW) (r : Nat) (lo n : Nat) (v : VReg)
  /-- A `SYSWR`, `FMTSET` or `SHAPE` that takes effect (R73, R80). -/
  | sys (n : Nat) (v : Word)
  /-- A `BNETLD` stage (R350). -/
  | bnet (cfg stage : Nat) (ctl : BitVec 32)
  /-- An `ITSET` binding (R47). -/
  | iter (it : Nat) (b : IterB)
  /-- The item of a `WATCH` (R59) for watch register n. -/
  | watch (n : Nat) (item : Word)
  /-- The push of a loop level, which sets the iterators bound to it (R47). -/
  | push (level : Nat)
  /-- The status word of `ENGQ` for a unit and a block address: what stands at the end of the cycle before it lands (R366). -/
  | engq (r : RRef) (cls inst block : Nat)
  /-- The record that `VLDZ` has read, for n elements of eb bytes of a V or W register (R280). -/
  | vz (f : VW) (r n eb : Nat) (raw : VReg)
  deriving DecidableEq, Repr

/-- One result in flight: its landing cycle, its effect, the flags and the loss event that come with it, and the access
that it still waits for (HELD, R312). A variable-latency result lands no earlier than `notBefore`, which its access sets when
it is served (R37, R203, R326). `space` names the space that a load reads. -/
structure QEntry where
  due : Nat
  eff : QEff
  flags : BitVec 10
  loss : Option (Nat × Addr)
  held : Option Nat
  varLat : Bool
  notBefore : Nat
  space : Option Space
  issued : Nat
  deriving DecidableEq, Repr

/-- What holds a sequencer's next bundle. -/
inductive Hold where
  | none
  /-- `SYNC`: member mask and issue cycle (R49). -/
  | sync (mask : BitVec 16) (t : Nat)
  /-- `WAITG`: gauge address, generation, issue cycle, deadline, IDLE (R249). -/
  | waitg (ga : BitVec 32) (gen : BitVec 32) (t limit idle : Nat)
  /-- `FENCE`: scope, issue cycle, IDLE (R273). -/
  | fence (sc : FScope) (t idle : Nat)
  /-- `TFENCE`: issue cycle and IDLE (R317). -/
  | tfence (t idle : Nat)
  /-- A fault at its `SYNC`: nothing more issues (R319, R412). -/
  | stopped
  deriving DecidableEq, Repr

/-- Whether a sequencer runs (R29, R310). -/
inductive Run where
  | idle
  | running
  | ended
  | parked
  deriving DecidableEq, Repr

/-- The state of one sequencer (R30, R83, R311). -/
structure SeqState where
  run : Run
  pc : Addr
  nextAt : Nat
  loops : List LoopEnt
  iters : Vector (Option IterB) 8
  a : Vector Reg 32
  b : Vector Reg 32
  m : Vector Reg 32
  f : Vector Reg 16
  queue : List QEntry
  flags : BitVec 10
  trapen : BitVec 9
  sndthr : BitVec 6
  sndloss : Word
  sndbase : Word
  lnk : Word
  xpc : Word
  xcause : Word
  xinfo : Word
  wt : Vector Word 4
  wcnt : BitVec 32
  /-- The bundle after the one now issuing, where a `LOOP` of count 0 skips its body (R44). -/
  skipTo : Option Addr
  /-- A taken branch: the delay bundles still to issue, and its target (R82). -/
  branch : Option (Nat × Addr)
  /-- Bundles that still lie in the delay of a branch, taken or not (R352). -/
  delay : Nat
  /-- The bundle last issued, at `lastPc`, still has its loop step or branch to apply (R45, R82). -/
  pend : Bool
  /-- The branch was taken by the bundle at `pc` itself, which issues again (R309). -/
  ownBr : Bool
  hold : Hold
  bnet : Vector (BitVec 192) 8
  lamps : List (Nat × BitVec 256)
  lampSrc : Addr
  tbase : Nat
  frozen : Option Nat
  restK : Option Nat
  stepping : Bool
  lastIssue : Nat
  lastPc : Addr
  watchdog : Bool
  /-- A fault without a faulting bundle has ended the task (R318, R330): the core goes on until the discard cycle, and then writes its
  record. -/
  faulted : Bool
  /-- A trap has ended the primary of a task in normal mode, and its record is written (R310). -/
  recorded : Bool
  deriving DecidableEq, Repr

/-! ### The mesh (R162 to R190) -/

structure Rotor where
  front : BitVec 16
  shadow : BitVec 16
  acc : BitVec 64
  poi : Bool
  nan : Bool
  deriving DecidableEq, Repr

structure ScaleCell where
  front : BitVec 32
  frontR : BitVec 32
  shadow : BitVec 32
  shadowR : BitVec 32
  acc : BitVec 64
  poi : Bool
  deriving DecidableEq, Repr

def Rotor.init : Rotor := ⟨0, 0, 0, false, false⟩
/-- σ and reciprocal 1.0 in both banks (R165). -/
def ScaleCell.init : ScaleCell := ⟨0x3F800000, 0x3F800000, 0x3F800000, 0x3F800000, 0, false⟩

/-- A lane word of the mesh, of any p ≤ 24, as the P24 word of its value (R119), with its poison mark and its sounding. -/
structure Lane where
  bits : BitVec 32
  poi : Bool
  snd : BitVec 6
  deriving DecidableEq, Repr

/-- An `ARRSWEEP` in progress (R179 to R184, R192, R193): its fields, the tile as it stands, the soundings that its elements
came with, the next elimination and the cycle in which that one ends, the codes derived, and the flags to be set at the end. -/
structure Sweep where
  cmd : Nat
  m : Nat
  n : Nat
  tileAt : Nat
  stride : Nat
  codesAt : Nat
  ogauge : Nat
  plane : Bool
  tile : List Lane
  base : List (BitVec 6)
  next : Nat
  due : Nat
  codes : List (BitVec 16 × Bool)
  flags : BitVec 10
  /-- A forced pre-emption has landed: the phase in progress is the last (R183, R192). -/
  stopping : Bool
  deriving DecidableEq, Repr

/-- The ends of the occupancies of a mesh's resources, and the cycles from which its shadow banks are ready (R168 to R170, R185). -/
structure MeshTimes where
  dataEnd : Nat
  loadEnd : Nat
  readyA : Nat
  readyS : Nat
  deriving DecidableEq, Repr

def MeshTimes.init : MeshTimes := ⟨0, 0, 0, 0⟩

/-- The mesh of a core: its cells, the drift products of the last reverse pass, the cycles from which the shadow banks are ready
(R170), the ends of the two resources' intervals (R185), the gang that is formed and the one that the commands issued so far
leave (R186), the sweep, and what a pass carries: its flags, and the activations that a reverse pass has read. -/
structure Mesh where
  rot : List (Nat × Rotor)
  scl : List (Nat × ScaleCell)
  dprod : List (Nat × BitVec 32)
  /-- What the hazard monitor knows of the commands whose blocks it has read, in the task's clock (R167, R185). -/
  plan : MeshTimes
  /-- The same of the commands of loose mode that have begun, in real time (R326). -/
  live : MeshTimes
  lastStart : Nat
  gang : BitVec 16
  gangPlan : BitVec 16
  sweep : Option Sweep
  fl : BitVec 10
  acts : List Lane
  deriving DecidableEq, Repr

def one32 : BitVec 32 := 0x3F800000

def Mesh.init : Mesh := ⟨[], [], [], MeshTimes.init, MeshTimes.init, 0, 0, 0, none, 0, []⟩

/-! ### Cores -/

/-- A reception armed by `RECV`: sender and cycle (R200). -/
structure Recv where
  sender : Nat
  cycle : Nat
  deriving DecidableEq, Repr

structure Core where
  prim : SeqState
  sec : SeqState
  h : Vector Reg 32
  v : Vector VReg 16
  w : Vector VReg 16
  fmt : Word
  shv : Word
  shw : Word
  /-- DESIGN CHOICE (log 8). Its value at reset, which the manual does not give, is that of the manual's programs. -/
  ctxbase : Addr
  engst : Word
  driftv : Word
  sweepst : Word
  q0 : List (BitVec 16)
  recv : List Recv
  /-- The cycle from which each slot's unit is free of primary and of secondary work (R81). -/
  busy : Vector Nat 8
  busy2 : Vector Nat 8
  /-- The cycle of the last primary bundle, its slots and the H ports it names (R41). -/
  primAt : Nat
  primSlots : BitVec 8
  primPorts : BitVec 3
  mesh : Mesh
  /-- Registers whose value, and registers whose state byte, differs from the record (R324). -/
  dirty : BitVec 224
  /-- What a forced pre-emption still writes of the record: cycle, place, bytes (R325). -/
  recwr : List (Nat × Nat × List Byte)
  deriving DecidableEq, Repr

/-! ### Accesses (R79, R266) and bank holds (R197) -/

/-- The places that serve one access in a cycle. -/
inductive Res where
  | spad (core bank : Nat)
  | pool (cluster bank : Nat)
  | vault (v bank : Nat)
  | lateral (cluster : Nat)
  /-- The scratchpad port of a slot, M, V or W (R196). -/
  | port (core slot : Nat)
  deriving DecidableEq, Repr

/-- Who holds a bank-cycle: a primary access, a secondary access (which holds nothing against the primary stream or an
engine), an engine command, or the `MARK` at a word of a mooring's timeline on a channel. -/
inductive HOwn where
  | prim
  | sec (acc : Nat)
  | eng (cmd : Nat)
  | mark (ch own word : Nat)
  deriving DecidableEq, Repr

/-- A bank-cycle held, or a granule locked from `t` to `t2` (R199), and the cycle in which it became known. -/
structure HoldRec where
  t : Nat
  t2 : Nat
  res : Res
  gran : Option Nat
  own : HOwn
  known : Nat
  /-- The granule that the access touches. -/
  touch : Nat
  deriving DecidableEq, Repr

/-- Whose access it is. -/
inductive AOwner where
  | seq (core : Nat) (q : Seq)
  | cmd (id : Nat)
  /-- An access of an engine or a channel that outlives its command, and the mooring that it works for. -/
  | late (m : Option Nat)
  | host
  /-- A remote device, over a Cloys plane (R276, R339). -/
  | remote (plane : Nat)
  deriving DecidableEq, Repr

/-- Where an access goes: a full virtual address (R447) with its mooring and the physical address that it had when its cycles
became known, which a lens entry overrides in the perform cycle (R211); or a physical address. -/
inductive Place where
  | virt (va : Nat) (m : Option Nat) (pa : Nat)
  | phys (pa : Nat)
  deriving DecidableEq, Repr

/-- What an access does when it performs. -/
inductive AKind where
  /-- A load of n bytes for the queue entries that hold its number, sign-extended or not, with its plane byte; its result lands
  `more` cycles later than that of `LD` (R80). -/
  | load (n : Nat) (sx : Bool) (plane : Option Place) (more : Nat)
  /-- A load for bytes [lo, lo + n) of a vector, with plane bytes for the words; `ph` is the place of the first byte in its
  word. -/
  | vload (lo n ph : Nat) (plane : Option Place)
  /-- A store of bytes with a poison mark per byte and plane bytes. -/
  | store (data : List Byte) (poi : List Bool) (plane : Option (Place × List Byte))
  /-- `ATOM`: operation, width, operand, compare value, and their poison (R199). -/
  | atom (op : AtomOp) (w64 : Bool) (x y : Reg)
  /-- `EBBLD` (R364). -/
  | ebbld
  /-- The read of a merge-add, which locks the granule, and its write 24 cycles later (R199). -/
  | ebbRead (x : Reg) (ret : Bool)
  | ebbWrite (x : Reg) (old : BitVec 64) (oldPoi ret : Bool)
  /-- `GAUGE` (R248). -/
  | gauge (target : BitVec 32)
  /-- A gauge raise, or a close with a status (R247). -/
  | raise (n : Nat)
  | close (status : Nat)
  /-- A numbered step of an engine command, which touches n bytes at its place. -/
  | eng (step n : Nat)
  /-- A `SEND` on its way (R200). -/
  | send (data : List Byte) (poi : Bool) (sender target : Nat)
  /-- A host access to SRAM (R331). -/
  | hostRead (n : Nat)
  | hostWrite (data : List Byte)
  deriving DecidableEq, Repr

structure Access where
  id : Nat
  t : Nat
  owner : AOwner
  place : Place
  kind : AKind
  write : Bool
  /-- An open pool access waits in FIFO order until it is served (R203). -/
  wait : Bool
  /-- The space and slot it was issued with (R204). -/
  space : Space
  slot : Nat
  issued : Nat
  /-- The number that the queue entries waiting for this access hold (HELD, R312). -/
  link : Nat
  deriving DecidableEq, Repr

/-! ### Engine commands (R103, R250) -/

inductive CmdSt where
  | none
  | waiting
  | running
  | done
  | faulted
  | part
  deriving DecidableEq, Repr

structure Cmd where
  id : Nat
  core : Nat
  q : Seq
  mooring : Option Nat
  cls : EClass
  inst : Nat
  opc : Nat
  instr : Instr
  issued : Nat
  pc : Addr
  block : Nat
  fmt : Word
  sndbase : Word
  blk : List Byte
  blkPoi : List Bool
  start : Nat
  st : CmdSt
  fl : BitVec 8
  code : Nat
  doneBytes : Nat
  budgetEnd : Nat
  work : List Nat
  data : List Byte
  poi : List Bool
  ended : Bool
  deriving DecidableEq, Repr

/-! ### HBM channels (R214 to R240) -/

/-- One open repeat of a timeline (R223). -/
structure Rep where
  body : Nat
  left : Nat
  rs : Int
  cs : Int
  ls : Int
  dr : Int
  dc : Int
  dl : Int
  deriving DecidableEq, Repr

/-- A running timeline of a mooring (R219): the index of its next word from BASE, the cycle in which its node executed, the first window
that may hold owner clock 0, the owner clock and the command clock at which its next word is due, its open repeats (innermost
first), the clock at which an `NMX` ends, and whether a malformed sector has been read since its last `MARK` (R213). -/
structure Tl where
  owner : Nat
  pos : Nat
  started : Nat
  w0 : Nat
  oclk : Nat
  due : Nat
  reps : List Rep
  nmxEnd : Nat
  bad : Bool
  deriving DecidableEq, Repr

/-- One bank: its open row, the clock of an automatic close to come, whether the controller is to close it after a fault (R228), the
clocks of its last commands, its disturb tracker and queue (R232, R233), its patrol pointer (R235), and the word and the owner of the
`ACT` that opened it. -/
structure Bank where
  row : Option Nat
  closeAt : Option Nat
  cleanup : Bool
  act : Option Nat
  pre : Option Nat
  rdc : Option Nat
  wrc : Option Nat
  sb : Option Nat
  tracker : List (Nat × Nat)
  dq : List Nat
  patrol : Nat
  actWord : Nat
  actOwner : Nat
  refreshed : Nat
  /-- The clock of its last `RFM` slot (R230), and the passes of its patrol pointer (R236). -/
  rfm : Nat
  passes : Nat
  deriving DecidableEq, Repr

/-- Activates, column commands and refresh of one pseudo-channel. -/
structure Pc where
  acts : List (Nat × Nat)
  cols : List (Nat × Nat)
  wr : Option Nat
  crd : Option Nat
  ref : Option Nat
  scrub : Option Nat
  deriving DecidableEq, Repr

/-- Read data on its way to a landing unit (R225): the cycle in which it lands, the unit's key, its granule, and the kind of the error
event that it brings (0 none). -/
structure Landing where
  id : Nat
  t : Nat
  key : Nat
  data : List Byte
  poi : Bool
  addr : Nat
  err : Nat
  deriving DecidableEq, Repr

/-- A near-memory block in its channel's queue (R238). -/
structure NmBlk where
  cmd : Nat
  mooring : Nat
  index : Nat
  entered : Nat
  clocks : Nat
  runAt : Option Nat
  deriving DecidableEq, Repr

/-- A request in the open share (R229): host accesses, `SCRUB` sectors and open `CPY` granules. -/
structure OpenReq where
  addr : Nat
  write : Bool
  data : List Byte
  poi : Bool
  n : Nat
  who : AOwner
  tag : Nat
  deriving DecidableEq, Repr

structure Channel where
  map : Vector (BitVec 64) 3
  newMap : Option (Vector (BitVec 64) 3)
  tlrgn : Vector (BitVec 64) 12
  tlstore : Vector (BitVec 64) 12
  store : List (Nat × BitVec 64)
  tls : List Tl
  banks : List (Nat × Bank)
  pcs : Vector Pc 2
  params : Vector Nat 15
  thr : Nat
  refw : Nat
  nmq : List NmBlk
  openq : List OpenReq
  openEnd : Nat
  landings : List Landing
  rowClk : Option Nat
  colClk : Option Nat
  houseNow : Bool
  backlog : Bool
  backlogFrom : Nat
  deriving DecidableEq, Repr

def Bank.init : Bank := ⟨none, none, false, none, none, none, none, none, [], [], 0, 0, 0, 0, 0, 0⟩
def Pc.init : Pc := ⟨[], [], none, none, none, none⟩

/-- The default map of R216. -/
def defaultOwner (w : Nat) : Nat :=
  let q := w / 12
  let i := w % 12
  if i = 0 then 0xC else if i = 10 ∨ i = 11 then 0xD else (9 * q + i - 1) % 12

/-- `SHMAP`k of a map of owners. -/
def packOwners (own : Nat → Nat) (k : Nat) : BitVec 64 :=
  BitVec.ofNat 64 ((List.range 16).foldl (fun acc j => acc + own (16 * k + j) * 2 ^ (4 * j)) 0)

def defaultMap : Vector (BitVec 64) 3 := #v[packOwners defaultOwner 0, packOwners defaultOwner 1, packOwners defaultOwner 2]

/-- The Default column of R226. -/
def defaultParams : Vector Nat 15 := #v[22, 22, 45, 67, 4, 6, 24, 2, 4, 26, 10, 6, 200, 96, 6240]

def Channel.init : Channel where
  map := defaultMap
  newMap := none
  tlrgn := Vector.replicate 12 0
  tlstore := Vector.replicate 12 0
  store := []
  tls := []
  banks := []
  pcs := Vector.replicate 2 Pc.init
  params := defaultParams
  thr := 2048
  refw := 8334
  nmq := []
  openq := []
  openEnd := 0
  landings := []
  rowClk := none
  colClk := none
  houseNow := false
  backlog := false
  backlogFrom := 0

/-! ### Moorings (R282 to R305) -/

/-- An ebb region as the package-services unit keeps it (R300). -/
structure Region where
  vbase : Nat
  words : Nat
  active : Bool
  kind1 : Bool
  sw : Bool
  last : Nat
  fact : Vector (BitVec 32) 16
  deriving DecidableEq, Repr

/-- A pinned mapping (R208, R333): virtual base, leaf entry, page size code. -/
structure Pin where
  vbase : Nat
  entry : BitVec 64
  psize : Nat
  deriving DecidableEq, Repr

/-- An authenticated request (R283, R289). -/
structure Req where
  reqid : Nat
  bulk : Bool
  inaddr : Bool
  input : List Byte
  addr : BitVec 64
  arrival : Nat
  deadline : Nat
  reply : BitVec 64
  src : RecSrc
  answered : Bool
  deriving DecidableEq, Repr

/-- A request placed in a slot of a task (R288). -/
structure Placed where
  task : Nat
  slot : Nat
  req : Req
  deriving DecidableEq, Repr

inductive TaskSt where
  | idle
  | running
  /-- A trap of loose mode parks the task at the end of this cycle (R310). -/
  | parking
  | parked
  /-- Discarded, and still to stop at the end of cycle d (R319). -/
  | ending (d : Nat)
  /-- A node pre-emption between two nodes (R55). -/
  | nodeStopped
  deriving DecidableEq, Repr

/-- A checkpoint drain (R304). -/
structure Drain where
  /-- The 64 KiB pieces of the ranges in order, by physical address. -/
  pieces : List Nat
  /-- The first piece of DEST, and those that follow DEST + 2 MiB. -/
  head : Nat
  dest : List Nat
  gstep : Nat
  pages : Nat
  f0 : Nat
  nextPage : Nat
  deriving DecidableEq, Repr

/-- A core that the running task has launched (R295, R296): the cycle by which it must be DONE, the cycle of its first issue, its
kernel image and arguments, and whether it has begun. -/
structure Launched where
  core : Nat
  limit : Nat
  due : Nat
  image : Addr
  /-- The address of its ARGS. -/
  argAt : Nat
  begun : Bool
  /-- The task has run a program on the core before. -/
  again : Bool
  deriving DecidableEq, Repr

/-- The task has run a program on the core. -/
def Launched.used (l : Launched) : Bool := l.begun || l.again

/-- A resumption that the Pilot has taken (R57, R314, R327): the submission entry that asked for it, the core to step, and its cycle. -/
structure Resuming where
  seq : Nat
  step : Option Nat
  when_ : Nat
  deriving DecidableEq, Repr

structure WaitNode where
  mode : Nat
  gaddr : Nat
  gen : BitVec 32
  limit : Nat
  deriving DecidableEq, Repr

structure Mooring where
  loaded : Bool
  stream : Nat
  entry : Nat
  period : Nat
  phase : Nat
  k : Nat
  bcap : Nat
  lead : Nat
  replyb : Nat
  inarea : Nat
  istride : Nat
  outarea : Nat
  ostride : Nat
  worktab : Nat
  workn : Nat
  energy : Nat
  cmask : BitVec 64
  poolpg : Nat
  key : BitVec 256
  gstep : BitVec 64
  ebbtab : Word
  lens : Word
  regions : List Region
  pins : List Pin
  groups : List (Nat × List (BitVec 16))
  chans : List Nat
  t0 : Nat
  task : Nat
  st : TaskSt
  started : Nat
  frozen : Option Nat
  node : Nat
  nodeAt : Nat
  /-- Nodes that the task has executed. -/
  nodesRun : Nat
  /-- Increments of the `STEPN` nodes of this cycle, with their nodes (R302). -/
  stepns : List (Nat × Nat)
  atEnd : Bool
  gotos : List (Nat × Nat)
  launched : List Launched
  waiting : Option WaitNode
  slots : List Placed
  bulk : List Req
  hiReq : Option Nat
  bitmap : BitVec 4096
  malformed : Nat
  tagFail : Nat
  loose : Bool
  looseNext : Bool
  /-- Submission entries whose pre-emption requests wait (R334). -/
  preempt : List Nat
  watchq : List (BitVec 64)
  drain : Option Drain
  savedH : List (Nat × List Reg)
  /-- The cycle in which VALID of the records is written (R325), and the cycle before which no resumption may come (R192). -/
  vwrite : Option Nat
  ready : Nat
  /-- A forced pre-emption has parked the task (R57). -/
  forced : Bool
  resuming : Option Resuming
  /-- Banks that held timelines left open: channel, bank, its state (R57). -/
  heldRows : List (Nat × Nat × Bank)
  /-- `ENGST`.CODE of the fault that ends the task (R286). -/
  faultCode : Nat
  /-- The cycle of the last `PUBLISHN` and the entries that those of that cycle list (R261). -/
  pubAt : Nat
  pubn : List Nat
  deriving DecidableEq, Repr

def Mooring.init : Mooring where
  loaded := false
  stream := 0
  entry := 0
  period := 0
  phase := 0
  k := 0
  bcap := 0
  lead := 0
  replyb := 0
  inarea := 0
  istride := 0
  outarea := 0
  ostride := 0
  worktab := 0
  workn := 0
  energy := 0
  cmask := 0
  poolpg := 0
  key := 0
  gstep := 0
  ebbtab := 0
  lens := 0
  regions := []
  pins := []
  groups := []
  chans := []
  t0 := 0
  task := 0
  st := .idle
  started := 0
  frozen := none
  node := 0
  nodeAt := 0
  nodesRun := 0
  stepns := []
  atEnd := false
  gotos := []
  launched := []
  waiting := none
  slots := []
  bulk := []
  hiReq := none
  bitmap := 0
  malformed := 0
  tagFail := 0
  loose := false
  looseNext := false
  preempt := []
  watchq := []
  drain := none
  savedH := []
  vwrite := none
  ready := 0
  forced := false
  resuming := none
  heldRows := []
  faultCode := 0
  pubAt := 0
  pubn := []

/-! ### The package -/

/-- One completion entry (R335). -/
structure Compl where
  kind : Nat
  mooring : Nat
  seq : Nat
  payload : List Byte
  deriving DecidableEq, Repr

/-- What a granule of a landing unit held before a write of cycle t (R225: a timeline write takes its bytes earlier than it performs). -/
structure BufOld where
  t : Nat
  key : Nat
  val : BitVec 512
  poi : Bool
  deriving DecidableEq, Repr

/-- One entry of the error log (R323). -/
structure LogEnt where
  ccnt : BitVec 64
  source : Nat
  kind : Nat
  addr : Nat
  deriving DecidableEq, Repr

/-- A frame or flit that leaves the package. -/
structure Frame where
  port : Nat
  bytes : List Byte
  deriving DecidableEq, Repr

/-- A piece of a remote access that has arrived over a plane: load or store, the device that asks, physical address, length, the bytes of a
store with their poison, and whether it has been set going (R276). -/
structure InReq where
  load : Bool
  src : Nat
  addr : Nat
  n : Nat
  data : List Byte
  poi : List Bool
  sent : Bool
  deriving DecidableEq, Repr

/-- A flit that a port holds back: the mooring and the `RLD` or `RST` that it leaves for, its destination, its kind, its payload (R265, R339). -/
structure Held where
  mooring : Option Nat
  cmd : Option Nat
  dest : Nat
  kind : Nat
  payload : List Byte
  deriving DecidableEq, Repr

/-- One Cloys plane (R338, R339). A flit held back stands with the mooring that it was sent for. -/
structure Plane where
  lastCarry : Nat
  lost : Bool
  txSeq : Nat
  rxSeq : Nat
  retry : List (List Byte)
  quota : Nat
  used : List (Nat × Nat)
  heldBack : List Held
  inq : List InReq
  deriving DecidableEq, Repr

/-- A copy engine of a cluster (R252, R253). -/
structure CopyEng where
  runEnd : Nat
  cmd : Option Nat
  openq : List Nat
  deriving DecidableEq, Repr

/-- A routine-table entry (R252). -/
structure Routine where
  valid : Bool
  budget : Nat
  entry : Nat
  deriving DecidableEq, Repr

inductive BootSt where
  | boot (failing : Nat)
  | up
  deriving DecidableEq, Repr

/-- What an event of the agenda is about. -/
inductive EvCtx where
  | plain
  | tl (channel owner : Nat)
  | node (m : Nat)
  /-- The end of the cycle of a `STEPN`: mooring and node. -/
  | stepEnd (m node : Nat)
  deriving DecidableEq, Repr

structure Ev where
  ctx : EvCtx
  instr : Instr
  deriving DecidableEq, Repr

/-- The context in which a syllable issues. -/
structure Ctx where
  core : Nat
  q : Seq
  pc : Addr
  idle : Nat
  len : Nat
  next : Addr
  lamp : Bool
  presence : Nat
  /-- The bundle stands in a delay of an earlier branch (R352). -/
  delayed : Bool
  /-- The element from which a resumed `LDM` or `STM` goes on (R309). -/
  restK : Nat
  deriving DecidableEq, Repr

/-- A trap that the bundle now issuing meets (R306). -/
structure Trap where
  cause : Nat
  slot : Option Nat
  info : Word
  /-- The bundle is not nullified: a stop trap, a timing fault, or `LDM` and `STM` from element 1 on (R309). -/
  kept : Bool
  deriving DecidableEq, Repr

/-- The whole package. -/
structure State where
  now : Nat
  phase : Nat
  agenda : List Ev
  /-- What the event now running is about. -/
  ev : EvCtx
  inputs : List (Nat × Ev)
  free : Nat
  nextId : Nat
  mem : Memory
  /-- The memory as the reads of the last cycle saw it. -/
  memWas : Memory
  poison : List (Nat × Bool)
  /-- Units of memory with an ECC error that no read has met yet: the unit, and whether the error is uncorrectable (R225, R235). -/
  errs : List (Nat × Bool)
  cores : List (Nat × Core)
  moorings : Vector Mooring 12
  channels : List (Nat × Channel)
  copies : List (Nat × CopyEng)
  bufs : List (Nat × BitVec 512)
  bufPoi : List (Nat × Bool)
  bufWhole : List (Nat × Bool)
  bufLog : List BufOld
  routines : List (Nat × Routine)
  accesses : List Access
  holds : List HoldRec
  cmds : List Cmd
  ctx : Ctx
  issuing : List Instr
  trapped : Option Trap
  /-- Cores whose due bundle sends a vault access that meets one of another core of its cluster in this cycle, with the kind of the
  schedule fault (R205). -/
  latFail : List (Nat × Nat)
  /-- Cores of loose mode whose bundle waited in this cycle for entries of `Q0` (R326). -/
  waited : List Nat
  ptroots : List (Nat × Nat)
  /-- Requests of this cycle that have passed authentication, with their moorings (R291). -/
  arrivals : List (Nat × Req)
  compl : List Compl
  complCap : Nat
  complHead : Nat
  /-- The ring registers of R332: base and size of each ring as written, the submission tail, the entries taken. -/
  subRing : BitVec 64
  compRing : BitVec 64
  subTail : Nat
  subHead : Nat
  /-- Secondary streams that the host has stopped, with the submission entry and the cycle of the stop (R334). -/
  secStops : List (Nat × Nat × Nat)
  overflow : Nat
  counters : List (Nat × (Nat × Nat))
  log : List LogEnt
  logOver : Bool
  frames : List Frame
  drops : List (Nat × Nat)
  portMal : List (Nat × Nat)
  udpPort : Nat
  ipAddrs : List (Nat × Nat)
  powerCap : Nat
  fixedDraw : Nat
  eolpred : BitVec 64
  thermalHold : Bool
  planes : List (Nat × Plane)
  /-- The two exported windows of R339, as the host wrote them: 0 SRAM, 1 HBM. -/
  exports : List (Nat × Nat)
  boot : BootSt
  flash : List FwImage
  images : List FwImage
  fuses : List (Nat × Nat)
  /-- The parameter blocks of the HBM stacks (R226). -/
  stackPar : List (Nat × Vector Nat 15)
  lastReport : List Byte
  hostData : List (Nat × List Byte)
  deriving DecidableEq, Repr

/-! ### Reset values -/

/-- A sequencer that runs nothing: the values of R67 and R68, and log 2 where the manual gives no power-on value. -/
def SeqState.init : SeqState where
  run := .idle
  pc := 0
  nextAt := 0
  loops := []
  iters := Vector.replicate 8 none
  a := Vector.replicate 32 Reg.zero
  b := Vector.replicate 32 Reg.zero
  m := Vector.replicate 32 Reg.zero
  f := Vector.replicate 16 Reg.zero
  queue := []
  flags := 0
  trapen := 0
  sndthr := 0
  sndloss := 0
  sndbase := 0
  lnk := 0
  xpc := 0
  xcause := 0
  xinfo := 0
  wt := Vector.replicate 4 0x8000000000000000
  wcnt := 0
  skipTo := none
  branch := none
  delay := 0
  pend := false
  ownBr := false
  hold := .none
  bnet := Vector.replicate 8 0
  lamps := []
  lampSrc := 0
  tbase := 0
  frozen := none
  restK := none
  stepping := false
  lastIssue := 0
  lastPc := 0
  watchdog := false
  faulted := false
  recorded := false

/-- The reset values of `SHV` and `SHW`: ROWS 31, COLS 15 (R71). -/
def shapeReset : Word := 0x7CF

def Core.init : Core where
  prim := SeqState.init
  sec := SeqState.init
  h := Vector.replicate 32 Reg.zero
  v := Vector.replicate 16 VReg.zero
  w := Vector.replicate 16 VReg.zero
  fmt := 0
  shv := shapeReset
  shw := shapeReset
  ctxbase := 0x10000
  engst := 0
  driftv := 0
  sweepst := 0
  q0 := []
  recv := []
  busy := Vector.replicate 8 0
  busy2 := Vector.replicate 8 0
  primAt := 0
  primSlots := 0
  primPorts := 0
  mesh := Mesh.init
  dirty := 0
  recwr := []

def Plane.init : Plane := ⟨0, false, 0, 0, [], 240, [], [], []⟩
def CopyEng.init : CopyEng := ⟨0, none, []⟩

/-- The machine right after power-on reset: `CCNT` 0 (R52), the default share maps (R216), the mesh of R165, `EOLPRED`
at the reset column of R342, no mooring loaded, no stream running; memory lists nothing. -/
def State.reset : State where
  now := 0
  phase := 0
  agenda := []
  ev := .plain
  inputs := []
  free := 0
  nextId := 0
  mem := []
  memWas := []
  poison := []
  errs := []
  cores := []
  moorings := Vector.replicate 12 Mooring.init
  channels := []
  copies := []
  bufs := []
  bufPoi := []
  bufWhole := []
  bufLog := []
  routines := []
  accesses := []
  holds := []
  cmds := []
  ctx := ⟨0, .primary, 0, 0, 1, 0, false, 0, false, 0⟩
  issuing := []
  trapped := none
  latFail := []
  waited := []
  ptroots := []
  arrivals := []
  compl := []
  complCap := 4096
  complHead := 0
  subRing := 0
  compRing := 0
  subTail := 0
  subHead := 0
  secStops := []
  overflow := 0
  counters := []
  log := []
  logOver := false
  frames := []
  drops := []
  portMal := []
  udpPort := 0
  ipAddrs := []
  powerCap := 1600
  fixedDraw := 0
  eolpred := 0x0000FFFFFFFFFFFF
  thermalHold := false
  planes := []
  exports := []
  boot := .boot 0
  flash := []
  images := []
  fuses := []
  stackPar := []
  lastReport := []
  hostData := []

end Sys2Proof.Machine
end

