-- ==== Sys2Proof/Machine/Num.lean ====
section
/-! DEFINITION. Sys2Proof/Machine/Num.lean: the number formats and the one rounding of each operation (R107 to R118), the
lane words and their rounding (R119 to R121). Every operation is computed exactly on integers and rounded once. -/

namespace Sys2Proof.Machine

/-- The exception flags of one operation, in the bit order of `FLAGS` (R315). -/
abbrev Flg := BitVec 10
def fNV : Flg := 1
def fDZ : Flg := 2
def fOF : Flg := 4
def fUF : Flg := 8
def fNX : Flg := 16
def fST : Flg := 32
def fSL : Flg := 64
def fND : Flg := 128
def fPZ : Flg := 256
def fTF : Flg := 512
/-- The flag where a condition holds. -/
def flagIf (c : Bool) (f : Flg) : Flg := if c then f else 0

/-- A binary format of R107: significand width p, exponent bits, bias. -/
structure Fmt where
  p : Nat
  eb : Nat
  bias : Nat
  deriving DecidableEq, Repr

def fmt64 : Fmt := ⟨53, 11, 1023⟩
def fmt32 : Fmt := ⟨24, 8, 127⟩
def fmt16 : Fmt := ⟨11, 5, 15⟩
def fmtB16 : Fmt := ⟨8, 8, 127⟩

end Sys2Proof.Machine

namespace Sys2Proof
open Sys2Proof.Machine

/-- The format that an FS code selects (R93). -/
def FS.fmt : FS → Fmt
  | .f32 => fmt32
  | .f64 => fmt64
  | .f16 => fmt16
  | .bf16 => fmtB16

end Sys2Proof

namespace Sys2Proof.Machine

/-- Width of a value in bits. -/
def Fmt.width (f : Fmt) : Nat := f.p + f.eb
/-- The exponent code of infinities and NaNs. -/
def Fmt.eMax (f : Fmt) : Nat := 2 ^ f.eb - 1
/-- The smallest normal exponent. -/
def Fmt.emin (f : Fmt) : Int := 1 - (f.bias : Int)
/-- The canonical quiet NaN (R107). -/
def Fmt.qnan (f : Fmt) : Nat := f.eMax * 2 ^ (f.p - 1) + 2 ^ (f.p - 2)
def Fmt.signBit (f : Fmt) (neg : Bool) : Nat := if neg then 2 ^ (f.width - 1) else 0
def Fmt.inf (f : Fmt) (neg : Bool) : Nat := f.signBit neg + f.eMax * 2 ^ (f.p - 1)
/-- The largest finite value of a sign. -/
def Fmt.maxFin (f : Fmt) (neg : Bool) : Nat := f.signBit neg + f.eMax * 2 ^ (f.p - 1) - 1

/-- A decoded value: a NaN (signalling or quiet), an infinity, or (−1)^neg × m × 2^e. -/
inductive Fp where
  | nan (sig : Bool)
  | inf (neg : Bool)
  | fin (neg : Bool) (m : Nat) (e : Int)
  deriving DecidableEq, Repr

/-- The value of an encoding (R107). -/
def Fmt.dec (f : Fmt) (w : Nat) : Fp :=
  let neg := w / 2 ^ (f.width - 1) % 2 == 1
  let ex := w / 2 ^ (f.p - 1) % 2 ^ f.eb
  let fr := w % 2 ^ (f.p - 1)
  if ex = f.eMax then
    if fr = 0 then .inf neg else .nan (fr / 2 ^ (f.p - 2) % 2 == 0)
  else if ex = 0 then .fin neg fr (f.emin - ((f.p : Int) - 1))
  else .fin neg (2 ^ (f.p - 1) + fr) ((ex : Int) - f.bias - ((f.p : Int) - 1))

def Fp.isNan : Fp → Bool
  | .nan _ => true
  | _ => false
def Fp.isSig : Fp → Bool
  | .nan s => s
  | _ => false
def Fp.isZero : Fp → Bool
  | .fin _ 0 _ => true
  | _ => false
def Fp.sign : Fp → Bool
  | .nan _ => false
  | .inf n => n
  | .fin n _ _ => n

/-- Bits of a non-zero natural number. -/
def bitLen (m : Nat) : Nat := if m = 0 then 0 else Nat.log2 m + 1

/-- m × 2^e as a multiple of 2^u: the quotient, and how the discarded part compares with one half: 0 none, 1 below,
2 equal, 3 above. `st` says that the true magnitude lies strictly above m × 2^e and below (m + 1) × 2^e. -/
def splitAt (m : Nat) (e u : Int) (st : Bool) : Nat × Nat :=
  if u ≤ e then (m * 2 ^ (e - u).toNat, if st then 1 else 0)
  else
    let k := (u - e).toNat
    let q := m / 2 ^ k
    let r := m % 2 ^ k
    let h := 2 ^ (k - 1)
    (q, if r = 0 then (if st then 1 else 0) else if r < h then 1 else if r = h then (if st then 3 else 2) else 3)

/-- Whether a magnitude rounds away from zero (R109). -/
def roundUp (rm : RM) (neg : Bool) (q part : Nat) : Bool :=
  match rm with
  | .rne => part == 3 || (part == 2 && q % 2 == 1)
  | .rtz => false
  | .rdn => neg && part != 0
  | .rup => !neg && part != 0

/-- Packs a finite magnitude q × 2^u that fits the format. -/
def Fmt.pack (f : Fmt) (neg : Bool) (q : Nat) (u : Int) : Nat :=
  if q = 0 then f.signBit neg
  else if q < 2 ^ (f.p - 1) then f.signBit neg + q
  else
    let q' := if q = 2 ^ f.p then 2 ^ (f.p - 1) else q
    let u' := if q = 2 ^ f.p then u + 1 else u
    f.signBit neg + (u' + f.bias + f.p - 1).toNat * 2 ^ (f.p - 1) + (q' - 2 ^ (f.p - 1))

/-- One rounding of an exact non-zero magnitude into a format, with the flags OF, UF and NX (R109, R110). -/
def Fmt.round (f : Fmt) (rm : RM) (neg : Bool) (m : Nat) (e : Int) (st : Bool) : Nat × Flg :=
  let E : Int := e + bitLen m - 1
  let uu : Int := E - f.p + 1
  -- with unbounded exponent
  let su := splitAt m e uu st
  let qu := if roundUp rm neg su.1 su.2 then su.1 + 1 else su.1
  let Eu : Int := if qu = 2 ^ f.p then E + 1 else E
  if Eu > (f.bias : Int) then
    let r :=
      match rm with
      | .rne => f.inf neg
      | .rtz => f.maxFin neg
      | .rup => if neg then f.maxFin neg else f.inf neg
      | .rdn => if neg then f.inf neg else f.maxFin neg
    (r, fOF ||| fNX)
  else
    let ub : Int := f.emin - f.p + 1
    let u := if uu < ub then ub else uu
    let sb := splitAt m e u st
    let q := if roundUp rm neg sb.1 sb.2 then sb.1 + 1 else sb.1
    let nx := sb.2 != 0
    (f.pack neg q u, flagIf nx fNX ||| flagIf (nx && Eu < f.emin) fUF)

/-- A dyadic number: (−1)^neg × m × 2^e. -/
structure Dy where
  neg : Bool
  m : Nat
  e : Int
  deriving DecidableEq, Repr

/-- The exact sum of two dyadic numbers; the sign of an exact zero is left to the caller. -/
def Dy.add (a b : Dy) : Dy :=
  let e := if a.e ≤ b.e then a.e else b.e
  let x : Int := (if a.neg then -1 else 1) * (a.m * 2 ^ (a.e - e).toNat : Nat)
  let y : Int := (if b.neg then -1 else 1) * (b.m * 2 ^ (b.e - e).toNat : Nat)
  ⟨decide (x + y < 0), (x + y).natAbs, e⟩
def Dy.mul (a b : Dy) : Dy := ⟨a.neg != b.neg, a.m * b.m, a.e + b.e⟩
def Dy.negate (a : Dy) : Dy := ⟨!a.neg, a.m, a.e⟩
def Dy.ofInt (x : Int) (e : Int) : Dy := ⟨decide (x < 0), x.natAbs, e⟩
/-- Compares magnitudes and signs: −1, 0, 1. -/
def Dy.cmp (a b : Dy) : Int :=
  let d := Dy.add a b.negate
  if d.m = 0 then 0 else if d.neg then -1 else 1

/-- The sign of an exact zero sum (R111). -/
def zeroSign (rm : RM) (a b : Bool) : Bool :=
  if a = b then a else match rm with
    | .rdn => true
    | _ => false

/-- Rounds an exact dyadic sum whose zero takes the sign given. -/
def Fmt.roundDy (f : Fmt) (rm : RM) (d : Dy) (zneg : Bool) : Nat × Flg :=
  if d.m = 0 then (f.signBit zneg, 0) else f.round rm d.neg d.m d.e false

def sigFlag (a b : Fp) : Flg := flagIf (a.isSig || b.isSig) fNV

/-- Addition (R109 to R112). -/
def Fmt.add (f : Fmt) (rm : RM) (a b : Nat) : Nat × Flg :=
  match f.dec a, f.dec b with
  | .nan s, y => (f.qnan, flagIf (s || y.isSig) fNV)
  | _, .nan s => (f.qnan, flagIf s fNV)
  | .inf x, .inf y => if x = y then (f.inf x, 0) else (f.qnan, fNV)
  | .inf x, _ => (f.inf x, 0)
  | _, .inf y => (f.inf y, 0)
  | .fin na ma ea, .fin nb mb eb => f.roundDy rm (Dy.add ⟨na, ma, ea⟩ ⟨nb, mb, eb⟩) (zeroSign rm na nb)

/-- The encoding with its sign flipped. -/
def Fmt.flip (f : Fmt) (a : Nat) : Nat :=
  if a / 2 ^ (f.width - 1) % 2 = 1 then a - 2 ^ (f.width - 1) else a + 2 ^ (f.width - 1)
/-- The encoding with its sign cleared. -/
def Fmt.abs (f : Fmt) (a : Nat) : Nat := a % 2 ^ (f.width - 1)

/-- Subtraction. A NaN operand counts as it stands, so the flip acts on b's sign alone. An exact difference of zero is +0, and −0 under
RDN (R111; DEDUCED where both operands are zeros of one sign, log 29). -/
def Fmt.sub (f : Fmt) (rm : RM) (a b : Nat) : Nat × Flg :=
  match f.dec a, f.dec b with
  | .fin na ma ea, .fin nb mb eb => f.roundDy rm (Dy.add ⟨na, ma, ea⟩ ⟨!nb, mb, eb⟩) (rm == .rdn)
  | _, _ => f.add rm a (f.flip b)

def Fmt.mul (f : Fmt) (rm : RM) (a b : Nat) : Nat × Flg :=
  match f.dec a, f.dec b with
  | .nan s, y => (f.qnan, flagIf (s || y.isSig) fNV)
  | _, .nan s => (f.qnan, flagIf s fNV)
  | .inf x, .inf y => (f.inf (x != y), 0)
  | .inf x, .fin y m _ => if m = 0 then (f.qnan, fNV) else (f.inf (x != y), 0)
  | .fin x m _, .inf y => if m = 0 then (f.qnan, fNV) else (f.inf (x != y), 0)
  | .fin na ma ea, .fin nb mb eb => f.roundDy rm (Dy.mul ⟨na, ma, ea⟩ ⟨nb, mb, eb⟩) (na != nb)

/-- Fused multiply-add a × b + c, rounded once (R109). -/
def Fmt.fma (f : Fmt) (rm : RM) (a b c : Nat) : Nat × Flg :=
  let x := f.dec a
  let y := f.dec b
  let z := f.dec c
  let sig := flagIf (x.isSig || y.isSig || z.isSig) fNV
  match x, y, z with
  | .inf n, .fin k m _, w | .fin k m _, .inf n, w =>
    if m = 0 then (f.qnan, fNV)
    else match w with
      | .nan _ => (f.qnan, sig)
      | .inf q => if (n != k) = q then (f.inf q, 0) else (f.qnan, fNV)
      | .fin _ _ _ => (f.inf (n != k), 0)
  | .inf n, .inf k, w =>
    match w with
    | .nan _ => (f.qnan, sig)
    | .inf q => if (n != k) = q then (f.inf q, 0) else (f.qnan, fNV)
    | .fin _ _ _ => (f.inf (n != k), 0)
  | .fin na ma ea, .fin nb mb eb, .fin nc mc ec =>
    f.roundDy rm (Dy.add (Dy.mul ⟨na, ma, ea⟩ ⟨nb, mb, eb⟩) ⟨nc, mc, ec⟩) (zeroSign rm (na != nb) nc)
  | .fin _ _ _, .fin _ _ _, .inf q => (f.inf q, 0)
  | _, _, _ => (f.qnan, sig)

/-- Quotient of two magnitudes to at least `k` bits: mantissa, exponent and sticky bit. -/
def divBits (ma : Nat) (ea : Int) (mb : Nat) (eb : Int) (k : Nat) : Nat × Int × Bool :=
  let sh := k + bitLen mb
  let n := ma * 2 ^ sh
  (n / mb, ea - eb - sh, n % mb != 0)

def Fmt.div (f : Fmt) (rm : RM) (a b : Nat) : Nat × Flg :=
  match f.dec a, f.dec b with
  | .nan s, y => (f.qnan, flagIf (s || y.isSig) fNV)
  | _, .nan s => (f.qnan, flagIf s fNV)
  | .inf _, .inf _ => (f.qnan, fNV)
  | .inf x, .fin y _ _ => (f.inf (x != y), 0)
  | .fin x _ _, .inf y => (f.signBit (x != y), 0)
  | .fin na ma ea, .fin nb mb eb =>
    if mb = 0 then (if ma = 0 then (f.qnan, fNV) else (f.inf (na != nb), fDZ))
    else if ma = 0 then (f.signBit (na != nb), 0)
    else
      let q := divBits ma ea mb eb (f.p + 3)
      f.round rm (na != nb) q.1 q.2.1 q.2.2

/-- Integer square root by bisection on bits, from bit `k` down. -/
def isqrtGo (n : Nat) : Nat → Nat → Nat
  | 0, r => r
  | k + 1, r =>
    let c := r + 2 ^ k
    isqrtGo n k (if c * c ≤ n then c else r)
def isqrt (n : Nat) : Nat := isqrtGo n (bitLen n / 2 + 1) 0

/-- Square root of m × 2^e to at least k bits: mantissa, exponent, sticky. -/
def sqrtBits (m : Nat) (e : Int) (k : Nat) : Nat × Int × Bool :=
  let s0 := 2 * k
  let sh := if (e - s0) % 2 = 0 then s0 else s0 + 1
  let n := m * 2 ^ sh
  let r := isqrt n
  (r, (e - sh) / 2, r * r != n)

def Fmt.sqrt (f : Fmt) (rm : RM) (a : Nat) : Nat × Flg :=
  match f.dec a with
  | .nan s => (f.qnan, flagIf s fNV)
  | .inf true => (f.qnan, fNV)
  | .inf false => (f.inf false, 0)
  | .fin n m e =>
    if m = 0 then (f.signBit n, 0)
    else if n then (f.qnan, fNV)
    else
      let q := sqrtBits m e (f.p + 3)
      f.round rm false q.1 q.2.1 q.2.2

/-- The order of R113 on non-NaN encodings: −0 below +0. -/
def Fmt.key (f : Fmt) (a : Nat) : Int :=
  if a / 2 ^ (f.width - 1) % 2 = 1 then -((f.abs a : Nat) : Int) - 1 else (f.abs a : Nat)

/-- Minimum or maximum (R113): the delivered encoding, whether it is the first operand (for its sounding), and flags.
`none` for the canonical NaN. -/
def Fmt.minmax (f : Fmt) (isMax : Bool) (a b : Nat) : Option Bool × Flg :=
  let x := f.dec a
  let y := f.dec b
  if x.isSig || y.isSig then (none, fNV)
  else if x.isNan && y.isNan then (none, 0)
  else if x.isNan then (some false, 0)
  else if y.isNan then (some true, 0)
  else
    let first := if isMax then decide (f.key b ≤ f.key a) else decide (f.key a ≤ f.key b)
    (some first, 0)

/-- Numeric comparison (R114): the truth value and the flags. -/
def Fmt.compare (f : Fmt) (c : Cond) (a b : Nat) : Bool × Flg :=
  let x := f.dec a
  let y := f.dec b
  let un := x.isNan || y.isNan
  let ka := if x.isZero then 0 else if f.key a < 0 then f.key a + 1 else f.key a
  let kb := if y.isZero then 0 else if f.key b < 0 then f.key b + 1 else f.key b
  let sig := flagIf (x.isSig || y.isSig) fNV
  match c with
  | .eq => (!un && ka == kb, sig)
  | .lt => (!un && decide (ka < kb), flagIf un fNV)
  | .le => (!un && decide (ka ≤ kb), flagIf un fNV)
  | .un => (un, sig)
  | .ne => (un || ka != kb, sig)

/-- Conversion between FP formats (R115). -/
def Fmt.cvt (f g : Fmt) (rm : RM) (a : Nat) : Nat × Flg :=
  match f.dec a with
  | .nan s => (g.qnan, flagIf s fNV)
  | .inf n => (g.inf n, 0)
  | .fin n m e => if m = 0 then (g.signBit n, 0) else g.round rm n m e false

/-- An integer type: width and signedness (R116). -/
structure IntTy where
  w : Nat
  signed : Bool
  deriving DecidableEq, Repr

def IntTy.lo (t : IntTy) : Int := if t.signed then -((2 ^ (t.w - 1) : Nat) : Int) else 0
def IntTy.hi (t : IntTy) : Int := if t.signed then ((2 ^ (t.w - 1) : Nat) : Int) - 1 else ((2 ^ t.w : Nat) : Int) - 1
/-- The bits of an integer, modulo 2^w. -/
def IntTy.enc (t : IntTy) (x : Int) : Nat := (x % ((2 ^ t.w : Nat) : Int)).toNat
/-- The integer of an encoding. -/
def IntTy.dec (t : IntTy) (a : Nat) : Int :=
  let v := a % 2 ^ t.w
  if t.signed && 2 ^ (t.w - 1) ≤ v then (v : Int) - ((2 ^ t.w : Nat) : Int) else v
/-- Saturation (R117). -/
def IntTy.sat (t : IntTy) (x : Int) : Int := if x < t.lo then t.lo else if t.hi < x then t.hi else x

/-- Conversion from FP to an integer type (R118). -/
def Fmt.toInt (f : Fmt) (t : IntTy) (rm : RM) (a : Nat) : Nat × Flg :=
  match f.dec a with
  | .nan _ => (0, fNV)
  | .inf n => (t.enc (if n then t.lo else t.hi), fNV)
  | .fin n m e =>
    let s := splitAt m e 0 false
    let q := if roundUp rm n s.1 s.2 then s.1 + 1 else s.1
    let x : Int := if n then -(q : Int) else q
    if x < t.lo ∨ t.hi < x then (t.enc (t.sat x), fNV ||| flagIf (s.2 != 0) fNX)
    else (t.enc x, flagIf (s.2 != 0) fNX)

/-- Conversion from an integer to FP (R118). -/
def Fmt.ofInt (f : Fmt) (rm : RM) (x : Int) : Nat × Flg :=
  if x = 0 then (0, 0) else f.round rm (decide (x < 0)) x.natAbs 0 false

/-! ### Lane words (R119 to R121) -/

/-- The NaN marker: fraction 1 and sign 0 (R119). -/
def laneNaN : Nat := 1
def laneMaxE : Nat := 255

/-- The value of a P24 word; `none` is the NaN marker. -/
def laneDec (w : Nat) : Option Dy :=
  let neg := w / 2 ^ 31 % 2 == 1
  let e : Nat := w / 2 ^ 23 % 256
  let fr : Nat := w % 2 ^ 23
  if e = 0 then (if fr = 0 then some ⟨neg, 0, 0⟩ else none) else some ⟨neg, 2 ^ 23 + fr, (e : Int) - 150⟩

/-- `RoundNE_p` of an exact value into a lane word of p bits held as P24 (R120). A zero takes the sign of `d`. -/
def laneRound (p : Nat) (d : Dy) : Nat × Flg :=
  let sg := if d.neg then 2 ^ 31 else 0
  if d.m = 0 then (sg, 0)
  else
    let E : Int := d.e + bitLen d.m - 1
    let u : Int := E - p + 1
    let s := splitAt d.m d.e u false
    let q := if roundUp .rne d.neg s.1 s.2 then s.1 + 1 else s.1
    let q' := if q = 2 ^ p then 2 ^ (p - 1) else q
    let E' : Int := if q = 2 ^ p then E + 1 else E
    if E' > 128 then (sg + 255 * 2 ^ 23 + (2 ^ (p - 1) - 1) * 2 ^ (24 - p), fOF ||| fNX)
    else if E' < -126 then (sg, fUF ||| fNX)
    else (sg + (E' + 127).toNat * 2 ^ 23 + (q' - 2 ^ (p - 1)) * 2 ^ (24 - p), flagIf (s.2 != 0) fNX)

/-- Conversion of an FP element to a lane word at the mesh edge (R121): the word, its flags, and whether its sounding is
0: the edge changed the value, or it is a NaN (R145). -/
def laneOfFp (f : Fmt) (a : Nat) : Nat × Flg × Bool :=
  match f.dec a with
  | .nan _ => (laneNaN, 0, true)
  | .inf n => ((if n then 2 ^ 31 else 0) + 255 * 2 ^ 23 + (2 ^ (f.p - 1) - 1) * 2 ^ (24 - f.p), fOF ||| fNX, true)
  | .fin n m e =>
    if m = 0 then (if n then 2 ^ 31 else 0, 0, false)
    else if e + bitLen m - 1 < -126 then (if n then 2 ^ 31 else 0, fUF ||| fNX, true)
    else ((laneRound 24 ⟨n, m, e⟩).1, 0, false)

/-- Conversion of a lane word to an FP format at the output edge (R121). -/
def fpOfLane (f : Fmt) (w : Nat) : Nat × Flg :=
  match laneDec w with
  | none => (f.qnan, 0)
  | some d => f.roundDy .rne d d.neg

end Sys2Proof.Machine
end

