-- ==== Sys2Proof/Machine/Trans.lean ====
section
/-! DEFINITION. Sys2Proof/Machine/Trans.lean: the functions that R371 to R374 deliver as exact real values rounded once,
and the cosine and sine ROM of R122. A value is computed in fixed point with W fraction bits, far beyond the format, and
then rounded with a sticky bit. UNVERIFIED (log 15): W is wide enough to round every operand as the exact value rounds. -/

namespace Sys2Proof.Machine

/-- Guard bits dropped from a fixed-point result before it is rounded. -/
def guardBits : Nat := 64

/-- Σ (−1)^k × x^(2k+1) / (2k+1) or the same without the sign, in fixed point: `pw` is the current power times 2^W. -/
def oddSeries (alt : Bool) (x2 W : Nat) : Nat → Nat → Nat → Bool → Int → Int
  | 0, _, _, _, acc => acc
  | fuel + 1, pw, k, neg, acc =>
    if pw = 0 then acc
    else oddSeries alt x2 W fuel (pw * x2 / 2 ^ W) (k + 2) (alt && !neg) (acc + (if neg then -1 else 1) * ((pw / k : Nat) : Int))

/-- atan(1/n) with W fraction bits. -/
def atanInv (n W : Nat) : Int := oddSeries true (2 ^ W / (n * n)) W W (2 ^ W / n) 1 false 0
/-- π with W fraction bits (Machin's formula, computed with guard bits). -/
def piFix (W : Nat) : Nat :=
  let G := W + guardBits
  ((16 * atanInv 5 G - 4 * atanInv 239 G) / ((2 ^ guardBits : Nat) : Int)).toNat
/-- The natural logarithm of 2 with W fraction bits: 2 × artanh(1/3). -/
def ln2Fix (W : Nat) : Nat :=
  let G := W + guardBits
  ((2 * oddSeries false (2 ^ G / 9) G G (2 ^ G / 3) 1 false 0) / ((2 ^ guardBits : Nat) : Int)).toNat

/-- Taylor series of the exponential: `term` is the current term. -/
def expSeries (x W : Nat) : Nat → Nat → Nat → Nat → Nat
  | 0, _, _, acc => acc
  | fuel + 1, k, term, acc => if term = 0 then acc else expSeries x W fuel (k + 1) (term * x / 2 ^ W / k) (acc + term)
def expFix (x W : Nat) : Nat := expSeries x W W 1 (2 ^ W) 0

/-- Taylor series of sine (k = 2 from x) or cosine (k = 1 from 1) with alternating signs. -/
def trigSeries (x2 W : Nat) : Nat → Nat → Nat → Bool → Int → Int
  | 0, _, _, _, acc => acc
  | fuel + 1, k, term, neg, acc =>
    if term = 0 then acc
    else trigSeries x2 W fuel (k + 2) (term * x2 / 2 ^ W / (k * (k + 1))) (!neg)
      (acc + (if neg then -1 else 1) * (term : Int))
def sinFix (x W : Nat) : Int := trigSeries (x * x / 2 ^ W) W W 2 x false 0
def cosFix (x W : Nat) : Int := trigSeries (x * x / 2 ^ W) W W 1 (2 ^ W) false 0

/-- The angle halved on the tangent: r / (1 + √(1 + r²)), in fixed point. -/
def halfTan (r W : Nat) : Nat := r * 2 ^ W / (2 ^ W + isqrt (2 ^ (2 * W) + r * r))
/-- atan of a fixed-point r in [0, 1]. -/
def atanUnit (r W : Nat) : Nat :=
  if r < 2 ^ (W - 6) then (oddSeries true (r * r / 2 ^ W) W W r 1 false 0).toNat
  else
    let q := halfTan (halfTan (halfTan (halfTan r W) W) W) W
    16 * (oddSeries true (q * q / 2 ^ W) W W q 1 false 0).toNat
/-- atan of the quotient n/d of two naturals, d or n non-zero, with W fraction bits. -/
def atanQuot (n d W : Nat) : Nat :=
  if n ≤ d then atanUnit (n * 2 ^ W / d) W else piFix W / 2 - atanUnit (d * 2 ^ W / n) W

/-- A fixed-point magnitude as a mantissa, exponent and sticky bit for `Fmt.round`. -/
def Fmt.roundFix (f : Fmt) (rm : RM) (neg : Bool) (v W : Nat) : Nat × Flg :=
  f.round rm neg (v / 2 ^ guardBits) ((guardBits : Int) - W) true

/-- Is m a power of two? -/
def isPow2 (m : Nat) : Bool := m != 0 && m == 2 ^ (bitLen m - 1)

def Fmt.one (f : Fmt) : Nat := f.bias * 2 ^ (f.p - 1)

/-- Reciprocal (R372). -/
def Fmt.rcp (f : Fmt) (rm : RM) (a : Nat) : Nat × Flg := f.div rm f.one a

/-- Reciprocal square root (R372). -/
def Fmt.rsq (f : Fmt) (rm : RM) (a : Nat) : Nat × Flg :=
  match f.dec a with
  | .nan s => (f.qnan, flagIf s fNV)
  | .inf true => (f.qnan, fNV)
  | .inf false => (f.signBit false, 0)
  | .fin n m e =>
    if m = 0 then (f.inf n, fDZ)
    else if n then (f.qnan, fNV)
    else
      let k := 2 * (f.p + 3) + bitLen m
      let s := if ((k : Int) + e) % 2 = 0 then k else k + 1
      let r := isqrt (2 ^ (2 * s) / (if e % 2 = 0 then m else 2 * m))
      let e' := if e % 2 = 0 then e / 2 else (e - 1) / 2
      let m' := if e % 2 = 0 then m else 2 * m
      f.round rm false r (-(s : Int) - e') (r * r * m' != 2 ^ (2 * s))

/-- 2^x (R372). -/
def Fmt.exp2 (f : Fmt) (rm : RM) (a : Nat) : Nat × Flg :=
  match f.dec a with
  | .nan s => (f.qnan, flagIf s fNV)
  | .inf true => (f.signBit false, 0)
  | .inf false => (f.inf false, 0)
  | .fin n m e =>
    if m = 0 then (f.one, 0)
    else
      let E : Int := e + bitLen m - 1
      if E ≥ 14 then
        -- |x| ≥ 2^14: beyond every format
        if n then f.round rm false 1 (-(2 ^ 14)) (decide (f.p = 0)) else f.round rm false 1 (2 ^ 14) false
      else
        let W := 256 + 2 * e.natAbs
        -- x × 2^W, exact
        let xf : Int := (if n then -1 else 1) * ((m * 2 ^ ((W : Int) + e).toNat : Nat) : Int)
        let i := xf / ((2 ^ W : Nat) : Int)
        let fr := (xf % ((2 ^ W : Nat) : Int)).toNat
        if fr = 0 then f.round rm false 1 i false
        else
          let v := expFix (fr * ln2Fix W / 2 ^ W) W
          f.round rm false (v / 2 ^ guardBits) ((guardBits : Int) - W + i) true

/-- log2 x (R372). -/
def Fmt.log2 (f : Fmt) (rm : RM) (a : Nat) : Nat × Flg :=
  match f.dec a with
  | .nan s => (f.qnan, flagIf s fNV)
  | .inf true => (f.qnan, fNV)
  | .inf false => (f.inf false, 0)
  | .fin n m e =>
    if m = 0 then (f.inf true, fDZ)
    else if n then (f.qnan, fNV)
    else
      let E : Int := e + bitLen m - 1
      if isPow2 m then f.ofInt rm E
      else
        let W := 320
        -- x / 2^E in [1, 2) with W fraction bits, exact
        let g := m * 2 ^ (W + 1 - bitLen m)
        let z := (g - 2 ^ W) * 2 ^ W / (g + 2 ^ W)
        let ln := 2 * (oddSeries false (z * z / 2 ^ W) W W z 1 false 0)
        let l2 := ln * ((2 ^ W : Nat) : Int) / (ln2Fix W : Int)
        let v := E * ((2 ^ W : Nat) : Int) + l2
        if v < 0 then f.roundFix rm true v.natAbs W else f.roundFix rm false v.natAbs W

/-- Sine and cosine of a magnitude m × 2^e in fixed point: the two values, reduced by π exactly (R372). -/
def sincosFix (m : Nat) (e : Int) : Int × Int × Nat :=
  let W := 320 + 3 * e.natAbs
  -- π with enough bits for the quotient
  let big := e.toNat + bitLen m
  let P := piFix (W + big + 8)
  let hp := P / 2
  let S := W + big + 8
  let x := m * 2 ^ ((S : Int) + e).toNat
  let n := x / hp
  let r := (x % hp) / 2 ^ (big + 8)
  let s := sinFix r W
  let c := cosFix r W
  if n % 4 = 0 then (s, c, W) else if n % 4 = 1 then (c, -s, W) else if n % 4 = 2 then (-s, -c, W) else (-c, s, W)

def Fmt.roundSigned (f : Fmt) (rm : RM) (neg : Bool) (v : Int) (W : Nat) : Nat × Flg :=
  f.roundFix rm (if v < 0 then !neg else neg) v.natAbs W

/-- sin and cos (R372, R374): the two results and their flags. -/
def Fmt.sincos (f : Fmt) (rm : RM) (a : Nat) : (Nat × Flg) × (Nat × Flg) :=
  match f.dec a with
  | .nan s => ((f.qnan, flagIf s fNV), (f.qnan, flagIf s fNV))
  | .inf _ => ((f.qnan, fNV), (f.qnan, fNV))
  | .fin n m e =>
    if m = 0 then ((f.signBit n, 0), (f.one, 0))
    else
      let t := sincosFix m e
      (f.roundSigned rm n t.1 t.2.2, f.roundSigned rm false t.2.1 t.2.2)

/-- num × π / 4, rounded. -/
def Fmt.piQuarters (f : Fmt) (rm : RM) (neg : Bool) (num : Nat) : Nat × Flg :=
  f.roundFix rm neg (num * piFix 320 / 4) 320

/-- atan2(y, x) (R373). -/
def Fmt.atan2 (f : Fmt) (rm : RM) (ya xa : Nat) : Nat × Flg :=
  match f.dec ya, f.dec xa with
  | .nan s, y => (f.qnan, flagIf (s || y.isSig) fNV)
  | _, .nan s => (f.qnan, flagIf s fNV)
  | .inf ny, .inf nx => f.piQuarters rm ny (if nx then 3 else 1)
  | .inf ny, .fin _ _ _ => f.piQuarters rm ny 2
  | .fin ny _ _, .inf nx => if nx then f.piQuarters rm ny 4 else (f.signBit ny, 0)
  | .fin ny my ey, .fin nx mx ex =>
    if my = 0 then (if nx then f.piQuarters rm ny 4 else (f.signBit ny, 0))
    else if mx = 0 then f.piQuarters rm ny 2
    else
      let lo := if ey ≤ ex then ey else ex
      let n := my * 2 ^ (ey - lo).toNat
      let d := mx * 2 ^ (ex - lo).toNat
      let W := 320 + 3 * ((bitLen d : Int) - bitLen n).toNat
      let t := atanQuot n d W
      f.roundFix rm ny (if nx then piFix W - t else t) W

/-! ### Angle codes (R122) -/

/-- Rounds a signed fixed-point value with W fraction bits to an integer, ties to even. -/
def roundInt (v : Int) (W : Nat) : Int :=
  let s := splitAt v.natAbs (-(W : Int)) 0 false
  let q := if roundUp .rne (decide (v < 0)) s.1 s.2 then s.1 + 1 else s.1
  if v < 0 then -(q : Int) else q

/-- The ROM entry of an angle code: c and s (R122). -/
def rom (k : Nat) : Int × Int :=
  let W := 128
  let q := k % 65536 / 16384
  let r := k % 16384
  let x := 2 * piFix W * r / 65536
  let s := if r = 0 then 0 else sinFix x W
  let c := if r = 0 then ((2 ^ W : Nat) : Int) else cosFix x W
  let t : Int × Int := if q = 0 then (c, s) else if q = 1 then (-s, c) else if q = 2 then (-c, -s) else (s, -c)
  (roundInt (t.1 * 131072) W, roundInt (t.2 * 131072) W)

/-- The angle code that `ARRSWEEP` derives from a and b (R181): RoundNE(Atan2(−b, a) × 65536 / 2π) mod 65536, signs of
zeros ignored, not both zero. -/
def sweepCode (a b : Dy) : Nat :=
  if b.m = 0 then (if a.neg then 32768 else 0)
  else if a.m = 0 then (if b.neg then 16384 else 49152)
  else
    let lo := if a.e ≤ b.e then a.e else b.e
    let n := b.m * 2 ^ (b.e - lo).toNat
    let d := a.m * 2 ^ (a.e - lo).toNat
    let W := 256
    let t := atanQuot n d W
    let th : Int := if a.neg then ((piFix W : Nat) : Int) - t else t
    let v : Int := (if b.neg then 1 else -1) * th
    (roundInt (v * 32768 * ((2 ^ W : Nat) : Int) / (piFix W : Int)) W % 65536).toNat

end Sys2Proof.Machine
end

