-- ==== Sys2Proof/Machine/Formats.lean ====
section
/-! DEFINITION. Sys2Proof/Machine/Formats.lean: soundings of results (R141 to R144), split-exponent blocks (R123 to R126),
the Hadamard stage (R128) and ebb words (R129 to R134). -/

namespace Sys2Proof.Machine

/-! ### Soundings -/

/-- What a sounding rule reads of an operand: whether it is zero, E(x), and S(x) (R141). -/
structure SOp where
  zero : Bool
  E : Int
  s : Nat
  deriving DecidableEq, Repr

/-- S(x): the stored field read under a format (R75, R141). -/
def Fmt.readSnd (f : Fmt) (snd : BitVec 6) : Nat := Nat.min snd.toNat f.p

/-- E(x) of a decoded value. -/
def Fp.expo : Fp → Int
  | .fin _ m e => e + bitLen m - 1
  | _ => 0

def Fmt.sop (f : Fmt) (w s : Nat) : SOp := ⟨(f.dec w).isZero, (f.dec w).expo, s⟩

/-- UlpPos(x) of an encoding (R141). -/
def Fmt.ulpPos (f : Fmt) (w : Nat) : Int :=
  let E := (f.dec w).expo
  if E < f.emin then f.emin - f.p + 1 else E - f.p + 1

/-- Bits(x) of a finite encoding (R141). -/
def Fmt.sigBits (f : Fmt) (w : Nat) : Nat :=
  match f.dec w with
  | .fin _ m e => if m = 0 then f.p else ((e + bitLen m - 1) - f.ulpPos w + 1).toNat
  | _ => f.p

def Fp.isFin : Fp → Bool
  | .fin _ _ _ => true
  | _ => false

def clampInt (x : Int) (hi : Nat) : Nat := Nat.min x.toNat hi

/-- `SoundAdd` of R142 for a result r. -/
def Fmt.soundAdd (f : Fmt) (a b : SOp) (r : Nat) : Nat :=
  let d := f.dec r
  if !d.isFin then 0
  else if d.isZero then (if !a.zero || !b.zero then 0 else Nat.min a.s b.s)
  else
    let lim0 := if a.zero then Nat.min f.p a.s else f.p
    let lim := if b.zero then Nat.min lim0 b.s else lim0
    let phi0 := if a.zero then f.ulpPos r else max (f.ulpPos r) (a.E - a.s + 1)
    let phi := if b.zero then phi0 else max phi0 (b.E - b.s + 1)
    clampInt (d.expo - phi + 1) (Nat.min lim (f.sigBits r))

/-- The body of `SoundMul` for non-zero operands, before its clamp. -/
def Fmt.mulSnd (f : Fmt) (a b : Nat) : Nat :=
  let s := Nat.min a b
  if a < f.p && b < f.p then s - 1 else s

/-- `SoundMul` of R142: multiply, and divide with b the divisor. -/
def Fmt.soundMul (f : Fmt) (a b : SOp) (r : Nat) : Nat :=
  let d := f.dec r
  if !d.isFin then 0
  else if a.zero || b.zero then
    (if a.zero && b.zero then Nat.min a.s b.s else if a.zero then a.s else b.s)
  else if d.isZero then 0
  else Nat.min (f.mulSnd a.s b.s) (f.sigBits r)

/-- The combined rule of R142 for `FMA`: a × b + c. -/
def Fmt.soundFma (f : Fmt) (a b c : Nat) (sa sb sc : Nat) (r : Nat) : Nat :=
  let x := f.sop a sa
  let y := f.sop b sb
  let pr : SOp :=
    if x.zero || y.zero then
      ⟨true, 0, if x.zero && y.zero then Nat.min x.s y.s else if x.zero then x.s else y.s⟩
    else
      let E := match f.dec a, f.dec b with
        | .fin _ ma ea, .fin _ mb eb => ea + eb + bitLen (ma * mb) - 1
        | _, _ => 0
      ⟨false, E, Nat.min (f.mulSnd x.s y.s) f.p⟩
  f.soundAdd pr (f.sop c sc) r

/-- A sounding clamped to the result: 0 for an infinity or a NaN, else at most Bits(r) (R143). -/
def Fmt.soundClamp (f : Fmt) (s : Int) (r : Nat) : Nat :=
  if (f.dec r).isFin then clampInt s (f.sigBits r) else 0

/-! ### Split-exponent blocks -/

/-- An SX format: m and the element width (R123). -/
structure Sx where
  m : Nat
  w : Nat
  deriving DecidableEq, Repr

def sxOf : Form → Option Sx
  | .sx4 => some ⟨2, 4⟩
  | .sx8 => some ⟨6, 8⟩
  | .sx16 => some ⟨14, 16⟩
  | _ => none

/-- Bytes of a block (R123). -/
def Sx.bytes (x : Sx) : Nat := 2 + 4 * x.w

/-- The little-endian number of a list of bytes. -/
def leNat : List Byte → Nat
  | [] => 0
  | b :: l => b.toNat + 256 * leNat l
/-- n bytes of a number, little-endian. -/
def natBytes : Nat → Nat → List Byte
  | 0, _ => []
  | n + 1, v => BitVec.ofNat 8 v :: natBytes n (v / 256)

/-- Element i of a block decodes to FP32 (R124). -/
def Sx.decode (x : Sx) (e0 e1 area i : Nat) : Nat :=
  if e0 = 0 ∨ e1 = 0 then 0
  else if e0 = 255 ∨ e1 = 255 then fmt32.qnan
  else
    let el := area / 2 ^ (i * x.w) % 2 ^ x.w
    let q := el % 2 ^ x.m
    let sel := el / 2 ^ x.m % 2
    let neg := el / 2 ^ (x.m + 1) % 2 == 1
    let e : Int := (if sel = 1 then e1 else e0 : Nat)
    if q = 0 then fmt32.signBit neg else (fmt32.round .rne neg q (e - 127 - x.m + 1) false).1

/-- A block's 32 FP32 values and its flags (R124). -/
def Sx.decodeBlock (x : Sx) (b : List Byte) : List Nat × Flg :=
  let e0 := (b.getD 0 0).toNat
  let e1 := (b.getD 1 0).toNat
  let area := leNat (b.drop 2)
  ((List.range 32).map (x.decode e0 e1 area),
    flagIf (!(e0 == 0 || e1 == 0) && (e0 == 255 || e1 == 255)) fNV)

/-- Subnormal inputs become zeros of their sign, with UF (R125). -/
def flush32 (y : Nat) : Nat × Flg :=
  if y / 2 ^ 23 % 256 = 0 ∧ y % 2 ^ 23 ≠ 0 then (y / 2 ^ 31 * 2 ^ 31, fUF) else (y, 0)

/-- RoundNE(|y| / 2^k), and whether it is exact. -/
def quantStep (y : Nat) (k : Int) : Nat × Bool :=
  match fmt32.dec y with
  | .fin _ m e =>
    let s := splitAt m e k false
    (if roundUp .rne false s.1 s.2 then s.1 + 1 else s.1, s.2 == 0)
  | _ => (0, true)

/-- One element of R125: its code and flags. -/
def Sx.quantElem (x : Sx) (e0 e1 : Nat) (y : Nat) : Nat × Flg :=
  let lo : Int := (e0 : Int) - 127 - x.m + 1
  let hi : Int := (e1 : Int) - 127 - x.m + 1
  let ql := quantStep y lo
  let zero := (fmt32.dec y).isZero
  let sg := if y / 2 ^ 31 % 2 = 1 then 2 ^ (x.m + 1) else 0
  if ql.1 < 2 ^ x.m then
    (if ql.1 = 0 then 0 else sg + ql.1, flagIf (!ql.2) fNX ||| flagIf (ql.1 == 0 && !zero) fUF)
  else
    let qh := quantStep y hi
    if 2 ^ x.m ≤ qh.1 then (sg + 2 ^ x.m + (2 ^ x.m - 1), fOF ||| fNX)
    else (if qh.1 = 0 then 0 else sg + 2 ^ x.m + qh.1, flagIf (!qh.2) fNX ||| flagIf (qh.1 == 0 && !zero) fUF)

/-- Clamp to 1–254. -/
def clampE (x : Int) : Nat := if x < 1 then 1 else if 254 < x then 254 else x.toNat

/-- `Quantise` of R125: the block's bytes and its flags, from 32 FP32 values. -/
def Sx.quantise (x : Sx) (ys : List Nat) : List Byte × Flg :=
  let fl := ys.map flush32
  let f0 := fl.foldl (fun a p => a ||| p.2) 0
  let y := fl.map (·.1)
  let bad := y.any fun w => !((fmt32.dec w).isFin)
  let n := x.bytes - 2
  if bad then (255 :: 255 :: List.replicate n 0, f0 ||| fNV)
  else
    let mx := y.foldl (fun a w => Nat.max a (fmt32.abs w)) 0
    if mx = 0 then (List.replicate x.bytes 0, f0)
    else
      let ehi := (fmt32.dec mx).expo
      let e1 := clampE (ehi + 127)
      let e0 := clampE (ehi - x.m + 127)
      let els := y.map (x.quantElem e0 e1)
      let area := (els.foldr (fun p a => p.1 + 2 ^ x.w * a) 0)
      (BitVec.ofNat 8 e0 :: BitVec.ofNat 8 e1 :: natBytes n area, els.foldl (fun a p => a ||| p.2) f0)

/-! ### The Hadamard stage (R128) -/

/-- One stage at distance h: pairs (j, j + h) of every group of 2h. -/
def hadStage (h : Nat) (xs : List Nat) : List Nat × Flg :=
  let one (i : Nat) : Nat × Flg :=
    let a := xs.getD i 0
    if i / h % 2 = 0 then fmt32.add .rne a (xs.getD (i + h) 0) else fmt32.sub .rne (xs.getD (i - h) 0) a
  let ys := (List.range xs.length).map one
  (ys.map (·.1), ys.foldl (fun a p => a ||| p.2) 0)

def hadGo : Nat → Nat → Nat → List Nat → Flg → List Nat × Flg
  | 0, _, _, xs, fl => (xs, fl)
  | fuel + 1, h, n, xs, fl =>
    if h < n then
      let s := hadStage h xs
      hadGo fuel (2 * h) n s.1 (fl ||| s.2)
    else (xs, fl)

/-- `Hadamard(x, n)` for n of 16, 32 or 64. -/
def hadamard (xs : List Nat) (n : Nat) : List Nat × Flg := hadGo 7 1 n xs 0

/-! ### Ebb words (R129 to R134) -/

/-- An FP32 value with its sounding and flags. -/
structure FV where
  w : Nat
  s : Nat
  fl : Flg
  deriving DecidableEq, Repr

/-- RoundNE(a × b) with `SoundMul`. -/
def mul32 (a b : FV) : FV :=
  let r := fmt32.mul .rne a.w b.w
  ⟨r.1, fmt32.soundMul (fmt32.sop a.w a.s) (fmt32.sop b.w b.s) r.1, a.fl ||| r.2⟩
/-- RoundNE(a + b) with `SoundAdd`. -/
def add32 (a b : FV) : FV :=
  let r := fmt32.add .rne a.w b.w
  ⟨r.1, fmt32.soundAdd (fmt32.sop a.w a.s) (fmt32.sop b.w b.s) r.1, a.fl ||| r.2⟩

/-- The squarings of `Decay` (R131) from bit j − 1 of d down. -/
def decayGo (f : FV) (d : Nat) : Nat → FV → FV
  | 0, r => r
  | j + 1, r =>
    let q := mul32 r ⟨r.w, r.s, 0⟩
    decayGo f d j (if d / 2 ^ j % 2 = 1 then mul32 q ⟨f.w, f.s, 0⟩ else q)

def one32v : Nat := 0x3F800000

/-- `Decay(f, d)` (R131). -/
def decay (f : FV) (d : Nat) : FV :=
  if d = 0 then ⟨one32v, 24, 0⟩ else decayGo f d (bitLen d - 1) ⟨f.w, f.s, 0⟩

/-- The delivered result of `FDECAY` (R375). -/
def fdecay (f : FV) (n : Nat) : FV :=
  if n = 1 then
    match fmt32.dec f.w with
    | .nan s => ⟨fmt32.qnan, 0, flagIf s fNV⟩
    | _ => ⟨f.w, fmt32.soundClamp f.s f.w, 0⟩
  else decay f n

/-- The range of a factor entry (R130). -/
def factorOk (fi f : Nat) : Bool :=
  if fi = 0 then f == one32v
  else f / 2 ^ 31 == 0 && f != 0 && decide (f ≤ one32v)

/-- The distance of a stamp from `GSTEP`. -/
def ebbDist (g st : Nat) : Nat := (g + 2 ^ 24 - st) % 2 ^ 24

/-- `EbbRead(w)` under a `GSTEP` and a factor table (R131, R134). -/
def ebbRead (w g : Nat) (fact : Nat → Nat) : FV :=
  if w / 2 ^ 60 ≠ 0 then ⟨fmt32.qnan, 0, fNV⟩
  else
    let fi := w / 2 ^ 56 % 16
    let d := ebbDist g (w / 2 ^ 32 % 2 ^ 24)
    let st := flagIf (decide (2 ^ 23 ≤ d)) fST
    let f := fact fi
    if !factorOk fi f then ⟨fmt32.qnan, 0, st ||| fNV⟩
    else
      let dv := decay ⟨f, 24, 0⟩ d
      let r := mul32 ⟨w % 2 ^ 32, 24, 0⟩ dv
      ⟨r.w, r.s, st ||| dv.fl ||| r.fl⟩

/-- The merge-add of R132: the new word and the flags. -/
def ebbMergeAdd (w x g : Nat) (fact : Nat → Nat) : Nat × Flg :=
  let a := ebbRead w g fact
  let v := fmt32.add .rne a.w x
  (w / 2 ^ 56 % 16 * 2 ^ 56 + g % 2 ^ 24 * 2 ^ 32 + v.1, a.fl ||| v.2)

/-- The merge of two ebb words (R133). -/
def ebbMerge (u w : Nat) (fact : Nat → Nat) : Nat × Flg :=
  let fu := u / 2 ^ 56 % 16
  let su := u / 2 ^ 32 % 2 ^ 24
  let sw := w / 2 ^ 32 % 2 ^ 24
  if u / 2 ^ 60 ≠ 0 ∨ w / 2 ^ 60 ≠ 0 ∨ fu ≠ w / 2 ^ 56 % 16 then
    (fu * 2 ^ 56 + sw * 2 ^ 32 + fmt32.qnan, fNV)
  else
    let d0 := ebbDist sw su
    let first := decide (d0 < 2 ^ 23)
    let older := if first then u else w
    let newer := if first then w else u
    let d := if first then d0 else ebbDist su sw
    let st := flagIf (d == 2 ^ 23) fST
    let f := fact fu
    if !factorOk fu f then (fu * 2 ^ 56 + newer / 2 ^ 32 % 2 ^ 24 * 2 ^ 32 + fmt32.qnan, st ||| fNV)
    else
      let dv := decay ⟨f, 24, 0⟩ d
      let a := mul32 ⟨older % 2 ^ 32, 24, 0⟩ dv
      let r := fmt32.add .rne a.w (newer % 2 ^ 32)
      (fu * 2 ^ 56 + newer / 2 ^ 32 % 2 ^ 24 * 2 ^ 32 + r.1, st ||| dv.fl ||| a.fl ||| r.2)

end Sys2Proof.Machine
end

