-- ==== Sys2Proof/Machine/Mem.lean ====
section
/-! DEFINITION. Sys2Proof/Machine/Mem.lean: bytes and poison marks of memory (R321), the address space and its translation
(R207 to R210, R447), the lens table (R211), and the banks that serve an address (R195, R197, R201, R204). -/

namespace Sys2Proof.Machine
open Config

/-! ### Bytes -/

/-- One byte of memory at a package physical address. -/
def Memory.get (m : Memory) (a : Nat) : Byte := sget Memory.unlisted m a
/-- Writes one byte, keeping the canonical form. -/
def Memory.set (m : Memory) (a : Nat) (b : Byte) : Memory := sset Memory.unlisted m a b
/-- n bytes from an address upwards. -/
def Memory.read (m : Memory) (a : Nat) : Nat → List Byte
  | 0 => []
  | n + 1 => m.get a :: Memory.read m (a + 1) n
/-- Writes a list of bytes from an address upwards. -/
def Memory.write (m : Memory) (a : Nat) : List Byte → Memory
  | [] => m
  | b :: l => Memory.write (m.set a b) (a + 1) l

/-- The unit of the poison code that holds an address: a 32-bit word of SRAM, a 64-byte granule of HBM4E (R321). -/
def poisonUnit (a : Nat) : Nat := if a < hbmBase then a / 4 * 4 else a / 64 * 64
def poisonSize (a : Nat) : Nat := if a < hbmBase then 4 else 64

/-- Whether the byte at an address is delivered with poison. -/
def poisonAt (p : List (Nat × Bool)) (a : Nat) : Bool := sget false p (poisonUnit a)

/-- Whether the unit that starts at u lies wholly in [a, a + n). -/
def unitCovered (a n u : Nat) : Bool := decide (a ≤ u) && decide (u + poisonSize u ≤ a + n)

/-- The units that [a, a + n) touches, each with whether a poisoned byte is written into it: `ps` marks each byte. -/
def poisonGo (a0 n : Nat) (p : List (Nat × Bool)) (a : Nat) : List Bool → List (Nat × Bool)
  | [] => p
  | b :: l =>
    let u := poisonUnit a
    let p' :=
      if b then sset false p u true
      else if a = u ∧ unitCovered a0 n u then sset false p u false
      else p
    poisonGo a0 n p' (a + 1) l

/-- The poison marks after a write of bytes with a mark each (R321): a poisoned byte poisons its unit, a clean write of
the whole unit clears it, a clean write of part of it leaves it. -/
def poisonWrite (p : List (Nat × Bool)) (a : Nat) (ps : List Bool) : List (Nat × Bool) := poisonGo a ps.length p a ps

def State.byte (s : State) (a : Nat) : Byte := s.mem.get a
/-- n bytes at a physical address. -/
def State.bytes (s : State) (a n : Nat) : List Byte := s.mem.read a n
/-- Poison marks of n bytes at a physical address. -/
def State.poisons (s : State) (a n : Nat) : List Bool := (List.range n).map fun i => poisonAt s.poison (a + i)
/-- Whether any of n bytes carries poison. -/
def State.anyPoison (s : State) (a n : Nat) : Bool := (s.poisons a n).any id
/-- The unit at u meets [a, a + n). -/
def unitMeets (a n u : Nat) : Bool := decide (u < a + n) && decide (a < u + poisonSize u)
/-- Writes bytes with their poison marks. An ECC error of a unit goes with a write of the whole unit, a correctable one with any write. -/
def State.putBytes (s : State) (a : Nat) (bs : List Byte) (ps : List Bool) : State :=
  { s with
    mem := s.mem.write a bs
    poison := poisonWrite s.poison a ps
    errs := s.errs.filter fun e => !(if e.2 then unitCovered a bs.length e.1 else unitMeets a bs.length e.1) }
/-- Writes clean bytes. -/
def State.putClean (s : State) (a : Nat) (bs : List Byte) : State := s.putBytes a bs (bs.map fun _ => false)

/-- A little-endian number of n bytes at a physical address. -/
def State.num (s : State) (a n : Nat) : Nat := leNat (s.bytes a n)

/-! ### Moorings and cores -/

def State.core (s : State) (c : Nat) : Core := sget Core.init s.cores c
def State.setCore (s : State) (c : Nat) (k : Core) : State := { s with cores := sset Core.init s.cores c k }
def State.chan (s : State) (c : Nat) : Channel := sget Channel.init s.channels c
def State.setChan (s : State) (c : Nat) (k : Channel) : State := { s with channels := sset Channel.init s.channels c k }
def State.updChan (s : State) (ch : Nat) (f : Channel → Channel) : State := s.setChan ch (f (s.chan ch))
/-- The channel of an HBM address (R217). -/
def hbmChan (pa : Nat) : Nat := bits pa 13 8
def State.moor (s : State) (m : Nat) : Mooring := s.moorings.getD m Mooring.init
def State.setMoor (s : State) (m : Nat) (k : Mooring) : State := { s with moorings := s.moorings.setIfInBounds m k }

/-- The first mooring from m on whose clusters include g. -/
def ownerGo (ms : Vector Mooring 12) (g : Nat) : Nat → Nat → Option Nat
  | 0, _ => none
  | fuel + 1, m =>
    let k := ms.getD m Mooring.init
    if k.loaded && k.cmask.getLsbD g then some m else ownerGo ms g fuel (m + 1)
/-- The mooring that owns a core's cluster (R333). -/
def State.moorOf (s : State) (core : Nat) : Option Nat := ownerGo s.moorings (core / coresPerCluster) 12 0

/-! ### Translation -/

/-- What an access needs of a page (R210). -/
inductive Perm where | r | w | x
  deriving DecidableEq, Repr

/-- The result of a translation: a physical address, or the fault. -/
inductive Tr where
  | ok (pa : Nat)
  | transl
  | prot
  deriving DecidableEq, Repr

/-- Bytes of a page by its size code (R211). -/
def pageBytes (psize : Nat) : Nat := if psize = 0 then 0x10000 else if psize = 1 then 0x200000 else 0x40000000

/-- The layout of a table entry (R210). -/
def entV (e : Nat) : Bool := bit e 63
def entLeaf (e : Nat) : Bool := bit e 62
def entPerm (e : Nat) : Perm → Bool
  | .r => bit e 61
  | .w => bit e 60
  | .x => bit e 59
/-- PA[55:8], as an address. -/
def entPA (e : Nat) : Nat := bits e 8 48 * 256
/-- No reserved bit set. -/
def entClean (e : Nat) : Bool := bits e 56 3 == 0 && bits e 0 8 == 0

/-- A leaf that maps pages of `size` bytes, for an address. -/
def leafTr (e va size : Nat) (p : Perm) : Tr :=
  if !(entV e) || !(entClean e) || entPA e % size != 0 then .transl
  else if entPerm e p then .ok (entPA e + va % size) else .prot

/-- A timed access translates through its mooring's pinned mappings (R208). -/
def pinTr : List Pin → Nat → Perm → Tr
  | [], _, _ => .transl
  | k :: l, va, p =>
    let sz := pageBytes k.psize
    if k.vbase ≤ va ∧ va < k.vbase + sz then leafTr k.entry.toNat va sz p else pinTr l va p

/-- The four levels of R209: index bits low, index width, and the page that a leaf maps. -/
def walkLevels : List (Nat × Nat × Nat) := [(43, 13, 0), (30, 13, 0x40000000), (21, 9, 0x200000), (16, 5, 0x10000)]

/-- The walker of R209 from a table at a physical address. -/
def walkGo (m : Memory) (va : Nat) (p : Perm) : List (Nat × Nat × Nat) → Nat → Tr
  | [], _ => .transl
  | (lo, n, page) :: l, tab =>
    let e := leNat (m.read (tab + 8 * bits va lo n) 8)
    if !(entV e) || !(entClean e) then .transl
    else if entLeaf e then (if page = 0 then .transl else leafTr e va page p)
    else
      match l with
      | [] => .transl
      | (_, k, _) :: _ => if entPA e % (8 * 2 ^ k) = 0 then walkGo m va p l (entPA e) else .transl

/-- An open access walks the cluster's table (R209). -/
def State.walkTr (s : State) (cluster va : Nat) (p : Perm) : Tr :=
  match sget 0 s.ptroots cluster with
  | 0 => .transl
  | root => walkGo s.mem va p walkLevels root

/-- The virtual address of an own-scratchpad offset in the window of R207 that names its core (R447). -/
def spadVa (core off : Nat) : Nat := spadBase + core * spadBytes + off
/-- The full address of R447: an own-scratchpad offset is taken in its core's window. -/
def fullVa (core va : Nat) : Nat := if va < spadBytes then spadVa core va else va

/-- How an access translates: by a mooring's pins (timed code, engines, the Pilot), or by the walker (open code). -/
inductive Via where
  | pins (m : Nat)
  | walk (cluster : Nat)
  | nothing
  deriving DecidableEq, Repr

def State.pageTr (s : State) (via : Via) (va : Nat) (p : Perm) : Tr :=
  match via with
  | .pins m => pinTr (s.moor m).pins va p
  | .walk g => s.walkTr g va p
  | .nothing => .transl

/-- One byte's translation without the lens table: the own-scratchpad window is untranslated (R207). -/
def State.plainTr (s : State) (via : Via) (core va : Nat) (p : Perm) : Tr :=
  if va < spadBytes then .ok (spadVa core va)
  else if 2 ^ 56 ≤ va then .transl
  else s.pageTr via va p

/-! ### The lens table (R211) -/

/-- A lens entry that is valid. -/
structure Lens where
  index : Nat
  vbase : Nat
  size : Nat
  lit : Bool
  p0 : Nat
  p1 : Nat
  deriving DecidableEq, Repr

/-- The physical address of a byte of a mooring's own structures (R447), if it is mapped. -/
def State.moorPa (s : State) (m va : Nat) : Option Nat :=
  if va < spadBytes then none
  else match pinTr (s.moor m).pins va .r with
    | .ok pa => some pa
    | _ => none

/-- The address of byte k of a lens entry. -/
def State.lensPa (s : State) (m i : Nat) : Option Nat :=
  let t := (s.moor m).lens.toNat
  if t = 0 then none else s.moorPa m (t + 32 * i)

/-- Entry i of a mooring's lens table, where it is valid: V set and PSIZE listed (R211). DESIGN CHOICE (log 39): its reserved bits, the
range of PAGES and the alignment of VBASE are not looked at, and the entry is used as it stands. -/
def State.lens (s : State) (m i : Nat) : Option Lens :=
  match s.lensPa m i with
  | none => none
  | some pa =>
    let fl := s.num (pa + 13) 1
    if fl / 2 % 2 = 0 then none
    else
      let ps := s.num (pa + 12) 1
      if 2 < ps then none
      else some ⟨i, s.num pa 8, s.num (pa + 8) 4 * pageBytes ps, fl % 2 = 1, s.num (pa + 16) 8, s.num (pa + 24) 8⟩

/-- The valid entries of a mooring: none where `LENS` is 0. -/
def State.lenses (s : State) (m : Nat) : List Lens :=
  if (s.moor m).lens = 0 then [] else (List.range 1024).filterMap (s.lens m)

def Lens.has (l : Lens) (va : Nat) : Bool := decide (l.vbase ≤ va) && decide (va < l.vbase + l.size)
def Lens.hasAny (l : Lens) (va n : Nat) : Bool := decide (l.vbase < va + n) && decide (va < l.vbase + l.size)
def Lens.hasAll (l : Lens) (va n : Nat) : Bool := decide (l.vbase ≤ va) && decide (va + n ≤ l.vbase + l.size)
/-- The lit or the dark copy's address (R211). -/
def Lens.pa (l : Lens) (dark : Bool) (va : Nat) : Nat := (if l.lit != dark then l.p1 else l.p0) + (va - l.vbase)

/-- A range of bytes resolved: where it lies now, and where its other copy lies under a lens entry. -/
structure Spot where
  pa : Nat
  other : Option Nat
  deriving DecidableEq, Repr

inductive Res2 where
  | ok (sp : Spot)
  | transl (va : Nat)
  | prot (va : Nat)
  deriving DecidableEq, Repr

/-- Resolves the n bytes at a virtual address (R207 to R211, R447): through a lens entry that holds them all, else through
the page of their first and last byte. `dark` selects the dark copy (engine writes). -/
def State.resolve (s : State) (via : Via) (m : Option Nat) (core va n : Nat) (p : Perm) (dark : Bool) : Res2 :=
  let f := fullVa core va
  let all : List Lens := match m with
    | some k => s.lenses k
    | none => []
  match all.filter (fun l : Lens => l.hasAny f n) with
  | [l] => if l.hasAll f n then .ok ⟨l.pa dark f, some (l.pa (!dark) f)⟩ else .prot va
  | _ :: _ => .prot va
  | [] =>
    match s.plainTr via core va p with
    | .transl => .transl va
    | .prot => .prot va
    | .ok pa =>
      if n ≤ 1 then .ok ⟨pa, none⟩
      else
        match s.plainTr via core (va + n - 1) p with
        | .ok _ => .ok ⟨pa, none⟩
        | .transl => .transl (va + n - 1)
        | .prot => .prot (va + n - 1)

/-! ### Banks -/

/-- The bank that serves a physical address of SRAM (R195, R201, R204). -/
def resOf (pa : Nat) : Option Res :=
  if spadBase ≤ pa ∧ pa < spadBase + nCores * spadBytes then
    some (.spad ((pa - spadBase) / spadBytes) ((pa - spadBase) / 16 % 32))
  else if poolBase ≤ pa ∧ pa < poolBase + nClusters * poolBytes then
    some (.pool ((pa - poolBase) / poolBytes) ((pa - poolBase) / 16 % 32))
  else if vaultBase ≤ pa ∧ pa < vaultBase + nClusters * vaultBytes then
    some (.vault ((pa - vaultBase) / vaultBytes) ((pa - vaultBase) / 16 % 16))
  else none

/-! ### Error counters and the log (R323) -/

/-- The error source of a physical address. -/
def errSource (pa : Nat) : Nat :=
  match resOf pa with
  | some (.spad c _) => 0x100 + c / coresPerCluster
  | some (.pool g _) => 0x100 + g
  | some (.vault v _) => 0x140 + v
  | _ => if hbmBase ≤ pa then bits pa 13 8 else 0x180

/-- The entry goes before one of the same cycle with a higher source, or with the same source and a higher address. -/
def logInsert (e : LogEnt) : List LogEnt → List LogEnt
  | [] => [e]
  | x :: l =>
    if x.ccnt = e.ccnt ∧ (e.source < x.source ∨ (e.source = x.source ∧ e.addr < x.addr)) then e :: x :: l else x :: logInsert e l

/-- An error event is counted, and appended to the log (R323). Kinds above 2 count as uncorrectable. -/
def State.logError (s : State) (source kind addr : Nat) : State :=
  let c := sget (0, 0) s.counters source
  let up (n : Nat) : Nat := Nat.min (n + 1) (2 ^ 32 - 1)
  let l := logInsert ⟨BitVec.ofNat 64 s.now, source, kind, addr⟩ s.log
  { s with
    counters := sset (0, 0) s.counters source (if kind = 1 then (up c.1, c.2) else (c.1, up c.2))
    log := l.take 16
    logOver := s.logOver || decide (16 < l.length) }

/-- A read of [pa, pa + n) checks its units: a correctable error is counted; an uncorrectable one is counted and leaves the poison code in
place (DESIGN CHOICE, log 17). -/
def State.eccRead (s : State) (pa n : Nat) : State :=
  (s.errs.filter fun e => unitMeets pa n e.1).foldl (fun t e =>
    let u := t.logError (errSource e.1) (if e.2 then 2 else 1) e.1
    if e.2 then { u with poison := sset false u.poison e.1 true, errs := u.errs.filter fun x => x != e } else u) s

/-- The 16-byte granules that n bytes at a physical address touch. -/
def granules (pa n : Nat) : List Nat :=
  if n = 0 then [] else (List.range ((pa + n - 1) / 16 - pa / 16 + 1)).map fun i => (pa / 16 + i) * 16

/-- A physical address that exists: SRAM, or HBM4E (R217). -/
def paExists (pa : Nat) : Bool := (resOf pa).isSome || (decide (hbmBase ≤ pa) && decide (pa < hbmBase + hbmBytes))

/-- The core of a cluster that owns a pool bank in a cycle (R202). -/
def wheelCore (bank t : Nat) : Nat := (bank + t) % 16
/-- The cluster that a vault's lateral port serves in a cycle (R205). -/
def lateralCluster (v t : Nat) : Nat := (v + t) % 64

/-- The first cycle from t on that the wheel gives core i of its cluster for a pool bank (R202). -/
def wheelNext (i bank t : Nat) : Nat := t + (i + 16 - wheelCore bank t) % 16

end Sys2Proof.Machine
end

