-- ==== Sys2Proof/Machine/Ops.lean ====
section
/-! DEFINITION. Sys2Proof/Machine/Ops.lean: the named operations over registers, the pending-write queue, loops, completions,
and the one operation that takes a trap, with the context record and the return from it (R306 to R319). -/

namespace Sys2Proof.Machine
open Config

/-- The cores that are not in their reset state. -/
def State.coreIds (s : State) : List Nat := s.cores.map (·.1)

/-- An event without a context. -/
def plainEv (i : Instr) : Ev := ⟨.plain, i⟩

/-! ### Sequencers and registers -/

def Core.seq (k : Core) : Seq → SeqState
  | .primary => k.prim
  | .secondary => k.sec
def Core.setSeq (k : Core) (q : Seq) (x : SeqState) : Core :=
  match q with
  | .primary => { k with prim := x }
  | .secondary => { k with sec := x }
def State.seq (s : State) (c : Nat) (q : Seq) : SeqState := (s.core c).seq q
def State.setSeq (s : State) (c : Nat) (q : Seq) (x : SeqState) : State := s.setCore c ((s.core c).setSeq q x)
def State.updSeq (s : State) (c : Nat) (q : Seq) (f : SeqState → SeqState) : State := s.setSeq c q (f (s.seq c q))
def State.updCore (s : State) (c : Nat) (f : Core → Core) : State := s.setCore c (f (s.core c))
def State.updMoor (s : State) (m : Nat) (f : Mooring → Mooring) : State := s.setMoor m (f (s.moor m))

/-- The issuing sequencer. -/
def State.cur (s : State) : SeqState := s.seq s.ctx.core s.ctx.q
def State.updCur (s : State) (f : SeqState → SeqState) : State := s.updSeq s.ctx.core s.ctx.q f
/-- The issuing core. -/
def State.kore (s : State) : Core := s.core s.ctx.core

/-- A register of a sequencer's own files. V, W and H are the core's. -/
def SeqState.reg (x : SeqState) : File → Nat → Reg
  | .a, n => x.a.getD n Reg.zero
  | .b, n => x.b.getD n Reg.zero
  | .m, n => x.m.getD n Reg.zero
  | .f, n => x.f.getD n Reg.zero
  | _, _ => Reg.zero

/-- Writes a register of a sequencer's own files; an M register keeps no sounding (R62). -/
def SeqState.setReg (x : SeqState) (fl : File) (n : Nat) (v : Reg) : SeqState :=
  match fl with
  | .a => { x with a := x.a.setIfInBounds n v }
  | .b => { x with b := x.b.setIfInBounds n v }
  | .m => { x with m := x.m.setIfInBounds n { v with snd := 63 } }
  | .f => { x with f := x.f.setIfInBounds n v }
  | _ => x

/-- A scalar register of a core, as a sequencer names it. -/
def Core.reg (k : Core) (q : Seq) (r : RRef) : Reg :=
  match r.file with
  | .h => k.h.getD r.num Reg.zero
  | fl => (k.seq q).reg fl r.num

/-- Writes a scalar register of a core. -/
def Core.setReg (k : Core) (q : Seq) (r : RRef) (v : Reg) : Core :=
  match r.file with
  | .h => { k with h := k.h.setIfInBounds r.num v }
  | fl => k.setSeq q ((k.seq q).setReg fl r.num v)

/-- A vector register. -/
def Core.vreg (k : Core) : VW → Nat → VReg
  | .v, n => k.v.getD n VReg.zero
  | .w, n => k.w.getD n VReg.zero
def Core.setVreg (k : Core) (f : VW) (n : Nat) (x : VReg) : Core :=
  match f with
  | .v => { k with v := k.v.setIfInBounds n x }
  | .w => { k with w := k.w.setIfInBounds n x }

/-- What the issuing syllable reads of a scalar register. -/
def State.rd (s : State) (r : RRef) : Reg := s.kore.reg s.ctx.q r

/-- The sequencer's `TCLK` in a cycle (R53). -/
def SeqState.tclk (x : SeqState) (now : Nat) : Nat :=
  match x.frozen with
  | some f => f - x.tbase
  | none => now - x.tbase

/-! ### Loops and iterators (R44 to R48) -/

def modReg (v : Int) : Word := BitVec.ofInt 64 v

/-- Iterator i holds base + index × stride after its level is pushed (R47). -/
def IterB.first (b : IterB) (index : Nat) : Reg := ⟨b.base + BitVec.ofNat 64 index * b.stride.signExtend 64, 63, b.poi⟩

/-- Sets the iterators bound to a level that is pushed, and clears their WAIT. -/
def SeqState.pushIters (x : SeqState) (level index : Nat) : SeqState :=
  (List.range 8).foldl (fun y i =>
    match y.iters.getD i none with
    | some b =>
      if b.level = level then
        ({ y with iters := y.iters.setIfInBounds i (some { b with wait := false }) }).setReg .m i (b.first index)
      else y
    | none => y) x

/-- Steps the iterators bound to a level (R47). -/
def SeqState.stepIters (x : SeqState) (level : Nat) (rev : Bool) : SeqState :=
  (List.range 8).foldl (fun y i =>
    match y.iters.getD i none with
    | some b =>
      if b.level = level then
        let r := y.reg .m i
        let d := b.stride.signExtend 64
        y.setReg .m i ⟨if rev then r.val - d else r.val + d, 63, r.poi || b.poi⟩
      else y
    | none => y) x

/-- After the bundle at p: the innermost entry that ends there steps, or it is popped and the next one is resolved (R45).
The stack stands innermost first. -/
def SeqState.resolveLoops (x : SeqState) (p : Addr) : List LoopEnt → SeqState
  | [] => { x with loops := [] }
  | e :: l =>
    if e.stop ≠ p then { x with loops := e :: l }
    else if e.rev then
      (if 0 < e.index then
        ({ x with loops := { e with index := e.index - 1 } :: l, pc := e.start }).stepIters l.length true
      else x.resolveLoops p l)
    else
      (if e.index + 1 < e.count then
        ({ x with loops := { e with index := e.index + 1 } :: l, pc := e.start }).stepIters l.length false
      else x.resolveLoops p l)

/-- Pops the entries whose body does not hold a branch target (R48). -/
def popOutside (t : Addr) : List LoopEnt → List LoopEnt
  | [] => []
  | e :: l => if e.start ≤ t ∧ t ≤ e.stop then e :: l else popOutside t l

/-- The step from the bundle last issued to the next one in issue order: a branch after its delay bundles, or the loops. -/
def SeqState.resolve (x : SeqState) : SeqState :=
  if x.pend then
    let y := { x with pend := false }
    match y.branch with
    | some (0, t) => { y with pc := t, branch := none, loops := popOutside t y.loops }
    | _ => y.resolveLoops y.lastPc y.loops
  else x

/-- The index of a loop level; 0 where it is not on the stack (R46). -/
def SeqState.loopIndex (x : SeqState) (level : Nat) : Nat := (x.loops.reverse[level]?.map (·.index)).getD 0

/-- The bundle in `ctx` has issued: the next one stands after it, one cycle and its IDLE cycles later (R32, R87), and a
branch in whose delay it stood counts it (R82). -/
def State.advance (s : State) : State :=
  let d := s.ctx.delayed
  let s1 := s.updCur fun x => { x with
    lastPc := s.ctx.pc, lastIssue := s.now, pc := x.skipTo.getD s.ctx.next, skipTo := none, nextAt := s.now + 1 + s.ctx.idle, pend := true, restK := none, watchdog := false, ownBr := false,
    branch := if d then x.branch.map fun b => (b.1 - 1, b.2) else x.branch,
    delay := if d then x.delay - 1 else x.delay }
  { s1 with ctx := { s1.ctx with delayed := false } }

/-! ### The pending-write queue (R66, R78) -/

/-- Adds an entry to the issuing sequencer's queue. -/
def State.push (s : State) (e : QEntry) : State := s.updCur fun x => { x with queue := x.queue ++ [e] }

/-- A result for a scalar register, `lat` cycles after issue, with its flags and a loss event of a slot. -/
def State.result (s : State) (r : RRef) (lat : Nat) (v : Reg) (fl : Flg) (loss : Option Nat) : State :=
  s.push ⟨s.now + lat, .reg r v, fl, loss.map fun k => (k, s.ctx.pc), none, false, 0, none, s.now⟩

/-- An effect without flags, `lat` cycles after issue. -/
def State.effect (s : State) (lat : Nat) (e : QEff) : State := s.push ⟨s.now + lat, e, 0, none, none, false, 0, none, s.now⟩

/-- The register that an entry writes. -/
def QEff.dest : QEff → Option RRef
  | .reg r _ => some r
  | .vec .v r _ _ _ => some ⟨.v, r⟩
  | .vec .w r _ _ _ => some ⟨.w, r⟩
  | .vz .v r _ _ _ => some ⟨.v, r⟩
  | .vz .w r _ _ _ => some ⟨.w, r⟩
  | .engq r _ _ _ => some r
  | _ => none

def QEntry.isH (e : QEntry) : Bool :=
  match e.eff.dest with
  | some r => r.file == .h
  | none => false

/-- The system registers that each sequencer has of its own, and that a program may write (R83). -/
def seqSys (n : Nat) : Bool := [0x05, 0x06, 0x07, 0x08, 0x09, 0x0E, 0x0F, 0x11].contains n

/-- The entry writes what the record holds: a register of its sequencer's own files, a system register of its own, an iterator
(R311). -/
def QEntry.isLocal (e : QEntry) : Bool :=
  match e.eff with
  | .reg r _ => r.file != .h
  | .sys n _ => seqSys n
  | .iter _ _ | .push _ => true
  | _ => false

/-- The entry lands in or before a cycle. -/
def QEntry.ready (e : QEntry) (t : Nat) : Bool := e.held.isNone && decide (e.due ≤ t) && decide (e.notBefore ≤ t)

/-- Primary H writes that land in a cycle (R65). -/
def Core.hWrites (k : Core) (t : Nat) : Nat := (k.prim.queue.filter fun e => e.isH && e.due == t).length

/-- The bytes [lo, lo + n) of new, the rest of old; the state of each 16-bit position and 32-bit word follows its bytes. -/
def maskBits (w n lo : Nat) (total : Nat) : BitVec total := BitVec.ofNat total ((2 ^ (w * n) - 1) * 2 ^ (w * lo))

/-- The positions of p bytes each that [lo, lo + n) touches: the first and how many. -/
def cover (p lo n : Nat) : Nat × Nat := (lo / p, if n = 0 then 0 else (lo + n - 1) / p - lo / p + 1)

def mergeBits {w : Nat} (old new m : BitVec w) : BitVec w := (old &&& ~~~m) ||| (new &&& m)

/-- A zero-flagged word holds sounding 63 in both its positions (R77). -/
def VReg.flagged (x : VReg) (k : Nat) : BitVec 6144 := if x.zf.getLsbD k then maskBits 12 1 k 6144 else 0

/-- Lands the bytes [lo, lo + n) of a tile over a register (R70, R77, R320): the state of an untouched byte stays; a position
of which only one byte is written keeps its old poison as well; a written word that becomes flagged holds sounding 63. -/
def VReg.land (old new : VReg) (lo n : Nat) : VReg :=
  let pos := cover 2 lo n
  let wrd := cover 4 lo n
  let data := mergeBits old.data new.data (maskBits 8 n lo 16384)
  let part : BitVec 1024 :=
    (if lo % 2 = 1 then maskBits 1 1 (lo / 2) 1024 else 0) |||
      (if (lo + n) % 2 = 1 then maskBits 1 1 ((lo + n) / 2) 1024 else 0)
  let poi := mergeBits old.poi new.poi (maskBits 1 pos.2 pos.1 1024) ||| (old.poi &&& part)
  let zf := (List.range wrd.2).foldl (fun (z : BitVec 512) i =>
      let k := wrd.1 + i
      let b : Bool := data.extractLsb' (32 * k) 32 == 0#32 && poi.extractLsb' (2 * k) 2 == 0#2
      mergeBits z (BitVec.ofNat 512 ((if b then 1 else 0) * 2 ^ k)) (BitVec.ofNat 512 (2 ^ k))) old.zf
  let x : VReg := ⟨data, mergeBits old.snd new.snd (maskBits 6 pos.2 pos.1 6144), poi, zf⟩
  ⟨data, (List.range wrd.2).foldl (fun sn i => sn ||| x.flagged (wrd.1 + i)) x.snd, poi, zf⟩

/-- Whether a landing writes a poisoned result (PZ, R315). -/
def QEff.poisons : QEff → Bool
  | .reg _ v => v.poi
  | .vec _ _ lo n v =>
    let pos := cover 2 lo n
    v.poi &&& maskBits 1 pos.2 pos.1 1024 != 0
  | _ => false

/-- The bits of `SNDLOSS`: V, SLOT and ADDR (R154). -/
def sndlossMask : Word := 0x87FFFFFFFFFFFFFF

/-- A loss event: SL, and `SNDLOSS` where it holds none (R153, R154). -/
def SeqState.lose (x : SeqState) : Option (Nat × Addr) → SeqState
  | none => x
  | some (slot, a) =>
    { x with
      flags := x.flags ||| fSL
      sndloss := if x.sndloss.getLsbD 63 then x.sndloss
        else BitVec.ofNat 64 (2 ^ 63 + slot % 8 * 2 ^ 56 + a.toNat) }

/-- A write of a sequencer's own system register takes effect (R83, R414). -/
def SeqState.sysWrite (x : SeqState) (n : Nat) (v : Word) : SeqState :=
  let low (m : Nat) : Word := BitVec.ofNat 64 (v.toNat % 2 ^ m)
  if n = 0x05 then { x with flags := v.setWidth 10 }
  else if n = 0x06 then { x with trapen := v.setWidth 9 }
  else if n = 0x07 then { x with sndthr := v.setWidth 6 }
  else if n = 0x08 then { x with sndloss := v &&& sndlossMask }
  else if n = 0x09 then { x with sndbase := v }
  else if n = 0x0E then { x with lnk := low 56 }
  else if n = 0x0F then { x with xpc := low 56 }
  else if n = 0x11 then { x with xinfo := v }
  else x

/-- A write of a system register takes effect (R83, R414). -/
def Core.sysWrite (k : Core) (q : Seq) (n : Nat) (v : Word) : Core :=
  if n = 0x02 then { k with fmt := v }
  else if n = 0x03 then { k with shv := v }
  else if n = 0x04 then { k with shw := v }
  else if n = 0x0D then { k with ctxbase := v.setWidth 56 }
  else k.setSeq q ((k.seq q).sysWrite n v)

/-- What an entry does to its sequencer's own registers. -/
def SeqState.landEff (x : SeqState) : QEff → SeqState
  | .reg r v => x.setReg r.file r.num v
  | .sys n v => x.sysWrite n v
  | .iter i b =>
    let on := decide (b.level < x.loops.length)
    let y := { x with iters := x.iters.setIfInBounds i (some { b with wait := !on }) }
    if on then y.setReg .m i (b.first (y.loopIndex b.level)) else y
  | .push level => x.pushIters level (x.loopIndex level)
  | _ => x

/-- An entry takes effect in its core. Landing.lean turns `ENGQ` and `VLDZ` entries into results first, and writes `EBBTAB`
and `LENS`. -/
def Core.landEff (k : Core) (q : Seq) : QEff → Core
  | .reg r v => k.setReg q r v
  | .vec f r lo n v => k.setVreg f r ((k.vreg f r).land v lo n)
  | .sys n v => k.sysWrite q n v
  | .bnet cfg st ctl =>
    let x := k.seq q
    let old := x.bnet.getD cfg 0
    let new := mergeBits old (BitVec.ofNat 192 (ctl.toNat * 2 ^ (32 * st))) (maskBits 32 1 st 192)
    k.setSeq q { x with bnet := x.bnet.setIfInBounds cfg new }
  | .iter i b => k.setSeq q ((k.seq q).landEff (.iter i b))
  | .watch n item => k.setSeq q { k.seq q with wt := (k.seq q).wt.setIfInBounds (n % 4) item }
  | .push level => k.setSeq q ((k.seq q).landEff (.push level))
  | .engq _ _ _ _ | .vz _ _ _ _ _ => k

/-- The order of the effects of one cycle: system registers first (R155, R315), then results, then bindings and pushes
(R386). -/
def QEff.rank : QEff → Nat
  | .sys _ _ => 0
  | .reg _ _ | .vec _ _ _ _ _ | .bnet _ _ _ | .watch _ _ | .engq _ _ _ _ | .vz _ _ _ _ _ => 1
  | .iter _ _ => 2
  | .push _ => 3

/-! ### Completions (R335, R336) -/

/-- Writes a completion entry. -/
def State.complete (s : State) (kind mooring seq : Nat) (payload : List Byte) : State :=
  { s with compl := s.compl ++ [⟨kind, mooring, seq, payload⟩] }

/-- The payload of a fault record (R336). -/
def faultPayload (task core cause : Nat) (parked : Bool) (xinfo xpc engst : Word) (ccnt : Nat) : List Byte :=
  natBytes 8 task ++ natBytes 2 core ++ [BitVec.ofNat 8 cause, if parked then 1 else 0] ++ natBytes 4 0
    ++ natBytes 8 xinfo.toNat ++ natBytes 8 xpc.toNat ++ natBytes 8 engst.toNat ++ natBytes 8 ccnt ++ natBytes 16 0

/-- A fault record of the same task and cycle with a higher core number. -/
def Compl.after (c : Compl) (mooring core now : Nat) : Bool :=
  c.kind == 0x82 && c.mooring == mooring && decide (core < leNat ((c.payload.drop 8).take 2)) && leNat ((c.payload.drop 40).take 8) == now % 2 ^ 64

/-- Writes a fault record: sixteen entries are held back for them, and one beyond that only counts (R335). Faults of one task and one
cycle stand in ascending core number (R319): the record goes before the first of its task and cycle with a higher core. -/
def State.faultRecord (s : State) (mooring task core cause : Nat) (parked : Bool) (xinfo xpc engst : Word) : State :=
  if (s.compl.filter fun c => c.kind == 0x82).length < 16 then
    let r : Compl := ⟨0x82, mooring, 0, faultPayload task core cause parked xinfo xpc engst (s.now % 2 ^ 64)⟩
    let n := (s.compl.takeWhile fun c => !c.after mooring core s.now).length
    { s with compl := s.compl.take n ++ r :: s.compl.drop n }
  else { s with overflow := s.overflow + 1 }

/-! ### The context record (R311, R312) -/

/-- The cycle in which an entry lands. -/
def QEntry.lands (e : QEntry) : Nat := Nat.max e.due e.notBefore
/-- An entry takes effect before another: in an earlier cycle, or earlier in the order of one cycle. -/
def QEntry.first (e f : QEntry) : Bool := decide (e.lands < f.lands) || (e.lands == f.lands && decide (e.eff.rank < f.eff.rank))
def insertEntry (e : QEntry) : List QEntry → List QEntry
  | [] => [e]
  | f :: l => if e.first f then e :: f :: l else f :: insertEntry e l
/-- Entries in the order in which they take effect; those of one place in it keep theirs. -/
def landOrder (es : List QEntry) : List QEntry := es.foldl (fun l e => insertEntry e l) []

/-- An entry lands in its sequencer's own registers: its effect, its flags, its loss event. -/
def SeqState.landEntry (x : SeqState) (e : QEntry) : SeqState :=
  let y := x.landEff e.eff
  ({ y with flags := y.flags ||| e.flags ||| flagIf e.eff.poisons fPZ } : SeqState).lose e.loss

/-- What an entry leaves in a record: a result elsewhere stays in the core, and its loss event counts in its place in the order (R153). -/
def SeqState.landPart (x : SeqState) (e : QEntry) : SeqState := if e.isLocal then x.landEntry e else x.lose e.loss

/-- Lands what is due in a sequencer's own registers by a cycle: what a record written for that cycle holds. -/
def SeqState.landLocal (x : SeqState) (t : Nat) : SeqState :=
  (landOrder (x.queue.filter fun e => e.ready t)).foldl SeqState.landPart x

/-- A state byte (R311). -/
def Reg.stateByte (r : Reg) : Nat := r.snd.toNat + (if r.poi then 64 else 0)

def fileRegs (x : SeqState) : List Reg := x.a.toList ++ x.b.toList ++ x.m.toList ++ x.f.toList

/-- A number whose digits in base 2^w are the given ones, lowest first. -/
def digits (w : Nat) : List Nat → Nat
  | [] => 0
  | d :: l => d % 2 ^ w + digits w l * 2 ^ w

/-- The dirty bits of the registers that differ between two states of a primary sequencer (R324). -/
def dirtyBits (x y : SeqState) : BitVec 224 :=
  let ps := (fileRegs x).zip (fileRegs y)
  let v := digits 1 (ps.map fun p => if p.1.val = p.2.val then 0 else 1)
  let st := digits 1 (ps.map fun p => if p.1.snd = p.2.snd ∧ p.1.poi = p.2.poi then 0 else 1)
  BitVec.ofNat 224 (v + st * 2 ^ 112)

def loopBytes (e : LoopEnt) : List Byte :=
  natBytes 8 e.start.toNat ++ natBytes 8 e.stop.toNat ++ natBytes 4 e.count ++ natBytes 4 e.index
    ++ [BitVec.ofNat 8 (1 + (if e.rev then 2 else 0) + (if e.pre then 4 else 0))] ++ natBytes 7 0

def iterBytes : Option IterB → List Byte
  | none => natBytes 24 0
  | some b => natBytes 8 b.base.toNat ++ natBytes 4 b.stride.toNat
      ++ [BitVec.ofNat 8 (b.level + (if b.wait then 64 else 0) + 128)] ++ natBytes 11 0

def fileCode : File → Nat
  | .a => 0
  | .b => 1
  | .m => 2
  | .v => 3
  | .w => 4
  | .f => 5
  | .h => 6

/-- Pads a list of bytes with zeros to n bytes. -/
def padTo (n : Nat) (l : List Byte) : List Byte := l ++ List.replicate (n - l.length) 0

/-- A queue entry of the record, for a record whose bundle is due in cycle t. -/
def QEntry.recBytes (e : QEntry) (t : Nat) : List Byte :=
  match e.eff with
  | .reg r v =>
    let held := e.held.isSome
    [BitVec.ofNat 8 (fileCode r.file), BitVec.ofNat 8 r.num, BitVec.ofNat 8 (e.due - t), if held then 1 else 0]
      ++ natBytes 2 e.flags.toNat ++ [BitVec.ofNat 8 v.stateByte]
      ++ [BitVec.ofNat 8 (match e.loss with | some (k, _) => 128 + k | none => 0)]
      ++ natBytes 8 (if held then 0 else v.val.toNat)
      ++ natBytes 8 (match e.loss with | some (_, a) => a.toNat | none => 0) ++ natBytes 8 0
  | _ => []

/-- A record for cycle t lists the entry: a result to A, B, M or F that lands after t (R312). -/
def QEntry.inRec (e : QEntry) (t : Nat) : Bool :=
  match e.eff with
  | .reg r _ => r.file != .h && decide (t < e.due)
  | _ => false
def SeqState.recQueue (x : SeqState) (t : Nat) : List QEntry := x.queue.filter fun e => e.inRec t

/-- The bytes of the record: what a sequencer holds, settled to the cycle in which its next bundle is due. -/
def SeqState.recBytes (x : SeqState) (stop : Nat) (withQueue : Bool) : List Byte :=
  let due := max x.nextAt stop
  let y := (x.landLocal due).resolve
  let q := if withQueue then x.recQueue due else []
  natBytes 8 y.pc.toNat
    ++ [BitVec.ofNat 8 (match y.branch with | some (n, _) => n | none => 0), BitVec.ofNat 8 (due - stop),
        BitVec.ofNat 8 (match x.restK with | some k => 128 + k | none => 0), if x.stepping then 3 else 1]
    ++ natBytes 4 y.wcnt.toNat ++ natBytes 8 (match y.branch with | some (_, t) => t.toNat | none => 0)
    ++ natBytes 8 (due - y.tbase)
    ++ natBytes 8 y.flags.toNat ++ natBytes 8 y.trapen.toNat ++ natBytes 8 y.sndthr.toNat ++ natBytes 8 y.sndloss.toNat
    ++ natBytes 8 y.sndbase.toNat ++ natBytes 8 y.lnk.toNat ++ natBytes 8 y.xcause.toNat ++ natBytes 8 y.xinfo.toNat
    ++ natBytes 8 y.xpc.toNat ++ natBytes 8 y.lampSrc.toNat ++ natBytes 16 0
    ++ padTo 192 (y.loops.reverse.flatMap loopBytes)
    ++ y.iters.toList.flatMap iterBytes
    ++ (fileRegs y).flatMap (fun r => natBytes 8 r.val.toNat)
    ++ (fileRegs y).map (fun r => BitVec.ofNat 8 r.stateByte) ++ natBytes 16 0
    ++ natBytes 4 q.length ++ natBytes 508 0
    ++ q.flatMap (fun e => e.recBytes due)

def recOff : Seq → Nat
  | .primary => 0
  | .secondary => 0x2000

/-- The physical address of a core's record. -/
def State.recAt (s : State) (c : Nat) (q : Seq) : Nat := spadBase + c * spadBytes + (s.core c).ctxbase.toNat + recOff q

/-- Writes a record for a sequencer that issues nothing from cycle `stop` on. -/
def State.writeRecord (s : State) (c : Nat) (q : Seq) (stop : Nat) : State :=
  s.putClean (s.recAt c q) ((s.seq c q).recBytes stop (q == .primary))

/-- A stopped secondary writes its record once every result of its earlier bundles has landed (R313). -/
def State.settleSecondary (s : State) (c : Nat) : State :=
  let x := s.seq c .secondary
  if x.run = .parked ∧ x.frozen = none ∧ x.queue = [] then
    (s.writeRecord c .secondary x.nextAt).updSeq c .secondary fun y => { y with frozen := some x.nextAt }
  else s

/-! ### Taking a trap (R306 to R310) -/

def causeStop (cause : Nat) : Bool := decide (0x10 ≤ cause) && decide (cause < 0x20)

/-- The contents of `XCAUSE` (R307). -/
def xcauseWord (t : Trap) : Word :=
  BitVec.ofNat 64 (t.cause % 256 + (match t.slot with | some k => 2048 + k % 8 * 256 | none => 0))

/-- A discard begins in this cycle: its discard cycle is the eighth after it (R319). `code` is `ENGST`.CODE of the fault, or 0. -/
def State.beginDiscard (s : State) (m code : Nat) : State :=
  match (s.moor m).st with
  | .running | .parking | .parked | .nodeStopped => s.updMoor m fun k => { k with st := .ending (s.now + 8), faultCode := code }
  | _ => s

/-- What a trap writes: `XPC`, `XCAUSE` and `XINFO` (R306). -/
def SeqState.cause (x : SeqState) (t : Trap) (xpc : Addr) : SeqState :=
  { x with xpc := xpc.setWidth 64, xcause := xcauseWord t, xinfo := t.info }

/-- The first cycle in which nothing more issues: that of the release for the flag trap, whose next bundle is due in it (R317). -/
def Trap.stop (t : Trap) (now : Nat) : Nat := if t.cause = 0x10 then now else now + 1

/-- The record for diagnosis, as it stands, is among the writes of this cycle (R268, R310). -/
def State.recordNow (s : State) (c stop : Nat) : State :=
  s.updCore c fun k => { k with recwr := [(s.now, s.recAt c .primary, k.prim.recBytes stop true)] }

/-- Takes a trap of a sequencer: its registers, then the fate of R310. A secondary stops and its record is written; a task
in loose mode, or one that steps (R327), parks at the end of the cycle; another is discarded, with a record for diagnosis. -/
def State.takeTrapAt (s : State) (c : Nat) (q : Seq) (t : Trap) (xpc : Addr) (restK : Option Nat) : State :=
  let s1 := s.updSeq c q fun x => x.cause t xpc
  let s2 := { s1 with trapped := some t }
  match q with
  | .secondary =>
    let s3 := s2.updSeq c q fun x => { x with run := .parked, restK := restK }
    s3.faultRecord ((s.moorOf c).getD 0) 0 c t.cause false t.info (xpc.setWidth 64) (s.core c).engst
  | .primary =>
    match s.moorOf c with
    | none => s2.updSeq c q fun x => { x with run := .ended }
    | some m =>
      let k := s.moor m
      if k.loose || t.cause == 0x13 then
        ((s2.updSeq c q fun x => { x with restK := restK, frozen := if t.cause = 0x10 then some s.now else x.frozen }).updMoor m
          fun k => { k with st := .parking }).faultRecord
          m k.task c t.cause true t.info (xpc.setWidth 64) (s.core c).engst
      else
        let s3 := s2.updSeq c q fun x => { x with run := .ended, restK := restK, recorded := true }
        ((s3.recordNow c ((s.seq c q).frozen.getD (t.stop s.now))).faultRecord m k.task c t.cause false t.info (xpc.setWidth 64)
          (s.core c).engst).beginDiscard m (if t.cause = 0x20 then t.info.toNat % 256 else 0)

/-- Takes a trap of the bundle now issuing. -/
def State.takeTrap (s : State) (t : Trap) (restK : Option Nat) : State := s.takeTrapAt s.ctx.core s.ctx.q t s.ctx.pc restK

/-- Takes a precise trap: the bundle is the resume point, in the next cycle (R306, R308). -/
def State.raise (s : State) (t : Trap) : State :=
  (s.updCur fun x => { x with pc := s.ctx.pc, nextAt := s.now + 1, pend := false }).takeTrap t s.cur.restK

/-- Takes a stop trap: the bundle issues whole, and the next one is the resume point. -/
def State.stopTrap (s : State) (t : Trap) : State := s.advance.takeTrap { t with kept := true } none

/-- A timing fault that a sequencer meets: it ends a task in normal mode, parks one in loose mode, and sets TF in open code
(R318, R326). -/
def State.timingFault (s : State) (c : Nat) (q : Seq) (code : Nat) (xpc : Addr) : State :=
  match q with
  | .secondary => s.updSeq c q fun x => { x with flags := x.flags ||| fTF }
  | .primary => s.takeTrapAt c q ⟨0x20, none, BitVec.ofNat 64 code, true⟩ xpc none

/-- A task that runs, or that stops within the eight cycles of R319. -/
def TaskSt.active : TaskSt → Bool
  | .running | .parking | .ending _ => true
  | _ => false

/-- Bytes that stand at a place take the place of what a piece writes there. -/
def patch (at_ : Nat) (bs : List Byte) (p : Nat × Nat × List Byte) : Nat × Nat × List Byte :=
  (p.1, p.2.1, (List.range p.2.2.length).map fun i =>
    if at_ ≤ p.2.1 + i ∧ p.2.1 + i < at_ + bs.length then bs.getD (p.2.1 + i - at_) 0 else p.2.2.getD i 0)

/-- The causes of a core that stands still go into its record, also into what of it is still to be written. -/
def State.recordCause (s : State) (c : Nat) : State :=
  let x := (s.core c).prim
  if x.run ≠ .running then s
  else
    let at_ := s.recAt c .primary + 0x50
    let bs := natBytes 8 x.xcause.toNat ++ natBytes 8 x.xinfo.toNat ++ natBytes 8 x.xpc.toNat
    (s.putClean at_ bs).updCore c fun k => { k with recwr := k.recwr.map (patch at_ bs) }

/-- A fault in a core of a loose task: a task that runs parks (R326); one that stands still parks, or stays so, with its cause. -/
def State.looseFault (s : State) (m c : Nat) (t : Trap) (xpc : Addr) : State :=
  let k := s.moor m
  let s1 := (s.updSeq c .primary fun x => x.cause t xpc).faultRecord m k.task c t.cause true t.info (xpc.setWidth 64) (s.core c).engst
  match k.st with
  | .nodeStopped => s1.updMoor m fun k => { k with st := .parking }
  | .parked => s1.recordCause c
  | _ => s.takeTrapAt c .primary t xpc none

/-- The same for a core whose bundle is not at fault, as long as its task is there: in normal mode the core goes on until the discard cycle,
and writes its record then (R318, R330). -/
def State.coreFault (s : State) (c code : Nat) : State :=
  match s.moorOf c with
  | some m =>
    let k := s.moor m
    let t : Trap := ⟨0x20, none, BitVec.ofNat 64 code, true⟩
    if k.st = .idle then s
    else if k.loose then s.looseFault m c t 0
    else
      let s1 := s.updSeq c .primary fun x => if x.faulted || x.recorded then x else { x.cause t 0 with faulted := true }
      (s1.faultRecord m k.task c 0x20 false t.info 0 (s.core c).engst).beginDiscard m code
  | none => s

/-- A fault that no core raises (R448). -/
def State.taskFault (s : State) (m : Nat) (xinfo : Word) : State :=
  ((s.faultRecord m (s.moor m).task 0xFFFF 0x20 false xinfo 0 0).beginDiscard m 0)

/-- The contents of `ENGST` (R251). -/
def engstWord (cls inst opc code block : Nat) : Word :=
  BitVec.ofNat 64 (2 ^ 63 + cls * 2 ^ 60 + inst * 2 ^ 55 + opc * 2 ^ 48 + code * 2 ^ 40 + block % 2 ^ 32)

/-! ### The return: resuming from a record (R314) -/

/-- A parsed record. -/
structure Rec where
  bytes : List Byte
  deriving DecidableEq, Repr

def Rec.num (r : Rec) (off n : Nat) : Nat := leNat ((r.bytes.drop off).take n)

def Rec.entry (r : Rec) (i off n : Nat) : Nat := r.num (0x800 + 32 * i + off) n

/-- A loop-stack entry i of the record is absent or keeps R44: an index below its count. -/
def Rec.loopOk (r : Rec) (i : Nat) : Bool :=
  let o := 0x80 + 32 * i
  let v := r.num (o + 24) 1
  if v % 2 = 0 then true
  else decide (r.num (o + 20) 4 < r.num (o + 16) 4) && decide (v < 8) && (i == 0 || r.num (o - 8) 1 % 2 == 1)

/-- An iterator entry keeps R47: a level below 6. -/
def Rec.iterOk (r : Rec) (i : Nat) : Bool :=
  let v := r.num (0x140 + 24 * i + 12) 1
  if v < 128 then true else decide (v % 8 < 6)

/-- Whether a resume command accepts a record. -/
def Rec.ok (r : Rec) : Bool :=
  let q := r.num 0x600 4
  r.num 0xB 1 % 2 == 1 && decide (r.num 0x8 1 ≤ 2) && decide (q ≤ 192)
    && (List.range q).all (fun i => decide (1 ≤ r.entry i 2 1) && decide (r.entry i 2 1 ≤ 127))
    && (List.range 6).all r.loopOk && (List.range 8).all r.iterOk

def fileOfCode : Nat → File
  | 0 => .a
  | 1 => .b
  | 2 => .m
  | 5 => .f
  | _ => .h

def Rec.reg (r : Rec) (i : Nat) : Reg :=
  let st := r.num (0x580 + i) 1
  ⟨BitVec.ofNat 64 (r.num (0x200 + 8 * i) 8), BitVec.ofNat 6 st, st / 64 % 2 == 1⟩

def Rec.regs (r : Rec) (n lo : Nat) : Vector Reg n := Vector.ofFn fun i => r.reg (lo + i.val)

def Rec.loops (r : Rec) : List LoopEnt :=
  ((List.range 6).filterMap fun i =>
    let o := 0x80 + 32 * i
    let v := r.num (o + 24) 1
    if v % 2 = 1 then
      some ⟨BitVec.ofNat 56 (r.num o 8), BitVec.ofNat 56 (r.num (o + 8) 8), r.num (o + 16) 4, r.num (o + 20) 4,
        v / 2 % 2 == 1, v / 4 % 2 == 1⟩
    else none).reverse

/-- A restored binding keeps the poison of the one that the core still holds, where it is the same. -/
def Rec.iter (r : Rec) (old : Vector (Option IterB) 8) (i : Nat) : Option IterB :=
  let o := 0x140 + 24 * i
  let v := r.num (o + 12) 1
  if 128 ≤ v then
    let b := BitVec.ofNat 64 (r.num o 8)
    let st := BitVec.ofNat 32 (r.num (o + 8) 4)
    let p := match old.getD i none with
      | some x => x.base == b && x.stride == st && x.poi
      | none => false
    some ⟨b, st, v % 8, v / 64 % 2 == 1, p⟩
  else none

/-- Queue entry i of a record is restored to land REMAIN cycles after cycle `due`. A HELD one takes its value, and the access it waits
for, from the entry of the core that it describes: `was`, which stood in its place, or else one of the same destination. -/
def Rec.qentry (r : Rec) (old : List QEntry) (was : Option QEntry) (due : Nat) (i : Nat) : QEntry :=
  let ref : RRef := ⟨fileOfCode (r.entry i 0 1), r.entry i 1 1⟩
  let st := r.entry i 6 1
  let ls := r.entry i 7 1
  let e : QEntry := ⟨due + r.entry i 2 1, .reg ref ⟨BitVec.ofNat 64 (r.entry i 8 8), BitVec.ofNat 6 st, st / 64 % 2 == 1⟩,
    BitVec.ofNat 10 (r.entry i 4 2), if ls < 128 then none else some (ls % 8, BitVec.ofNat 56 (r.entry i 16 8)), none, false, 0, none, due⟩
  if r.entry i 3 1 % 2 = 0 then e
  else match (was.filter fun x => x.eff.dest == some ref).orElse fun _ => old.find? fun x => x.held.isSome && x.eff.dest == some ref with
    | none => e
    | some o => { e with
        eff := if o.held.isNone then o.eff else e.eff
        flags := e.flags ||| o.flags, held := o.held, varLat := o.varLat, notBefore := o.notBefore, space := o.space }

/-- The queue that resumption rebuilds (R313, R314). The entries of the record, which was written for cycle `was`, take the places of those
that they describe; what lies in the record already goes; the rest stays as it stood. -/
def Rec.requeue (r : Rec) (old : List QEntry) (was due : Nat) : List QEntry → Nat → List QEntry
  | [], i => (List.range (r.num 0x600 4 - i)).map fun j => r.qentry old none due (i + j)
  | e :: l, i =>
    if e.inRec was then (if i < r.num 0x600 4 then [r.qentry old (some e) due i] else []) ++ r.requeue old was due l (i + 1)
    else if e.ready was then (if e.isLocal then [] else [{ e with loss := none }]) ++ r.requeue old was due l i
    else e :: r.requeue old was due l i

/-- The state that resumption rebuilds, for a sequencer that goes on in cycle r0; `keep` holds what stays in the core. -/
def Rec.restore (r : Rec) (keep : SeqState) (r0 : Nat) : SeqState :=
  let due := r0 + r.num 9 1
  let rk := r.num 0xA 1
  { keep with
    run := .running
    pc := BitVec.ofNat 56 (r.num 0 8)
    nextAt := due
    pend := false
    branch := if r.num 8 1 = 0 then none else some (r.num 8 1, BitVec.ofNat 56 (r.num 0x10 8))
    restK := if 128 ≤ rk then some (rk % 32) else none
    stepping := r.num 0xB 1 / 2 % 2 == 1
    wcnt := BitVec.ofNat 32 (r.num 0xC 4)
    tbase := due - r.num 0x18 8
    flags := BitVec.ofNat 10 (r.num 0x20 8) ||| keep.flags
    trapen := BitVec.ofNat 9 (r.num 0x28 8)
    sndthr := BitVec.ofNat 6 (r.num 0x30 8)
    sndloss := BitVec.ofNat 64 (r.num 0x38 8) &&& sndlossMask
    sndbase := BitVec.ofNat 64 (r.num 0x40 8)
    lnk := BitVec.ofNat 64 (r.num 0x48 7)
    xcause := BitVec.ofNat 64 (r.num 0x50 8)
    xinfo := BitVec.ofNat 64 (r.num 0x58 8)
    xpc := BitVec.ofNat 64 (r.num 0x60 7)
    lampSrc := BitVec.ofNat 56 (r.num 0x68 8)
    loops := r.loops
    iters := Vector.ofFn fun i => r.iter keep.iters i.val
    a := r.regs 32 0
    b := r.regs 32 32
    m := (r.regs 32 64).map fun x => { x with snd := 63 }
    f := r.regs 16 96
    queue := r.requeue keep.queue (Nat.max keep.nextAt r0) due keep.queue 0
    frozen := none }

/-- The record of a sequencer as it stands in memory. -/
def State.readRecord (s : State) (c : Nat) (q : Seq) : Rec := ⟨s.bytes (s.recAt c q) 0x2000⟩

/-- Clears VALID and STEP of a record. -/
def State.clearValid (s : State) (c : Nat) (q : Seq) : State :=
  s.putClean (s.recAt c q + 0xB) [0]

/-- Times of pending work move d cycles later: a task that stood still (R53, R57, R313). -/
def QEntry.shift (d : Nat) (e : QEntry) : QEntry := { e with due := e.due + d, issued := e.issued + d }

def Hold.shift (d : Nat) : Hold → Hold
  | .sync m t => .sync m (t + d)
  | .waitg a g t l i => .waitg a g (t + d) (l + d) i
  | .fence sc t i => .fence sc (t + d) i
  | .tfence t i => .tfence (t + d) i
  | .stopped => .stopped
  | .none => .none

def SeqState.shift (d : Nat) (x : SeqState) : SeqState :=
  { x with nextAt := x.nextAt + d, tbase := x.tbase + d, queue := x.queue.map (QEntry.shift d), hold := x.hold.shift d,
           lastIssue := x.lastIssue + d }

end Sys2Proof.Machine
end

