-- ==== Sys2Proof/Machine/Access.lean ====
section
/-! DEFINITION. Sys2Proof/Machine/Access.lean: the check that a syllable passes at issue (R37, R41, R43, R65, R66, R81, R308),
and the accesses that it makes: addresses, translation, banks, the wheel and the lateral network (R195 to R211). -/

namespace Sys2Proof.Machine
open Config

/-! ### Issue (R41, R43, R65, R66, R81, R308) -/

def slotIx : Slot → Nat
  | .a => 0
  | .b => 1
  | .m => 2
  | .v => 3
  | .w => 4
  | .f => 5
  | .e => 6
  | .c => 7

/-- A destination and the cycle offset at which its result lands. -/
structure WriteAt where
  ref : RRef
  lat : Nat
  deriving DecidableEq, Repr

/-- What a syllable brings to its issue: its slot, the cycles for which it holds its unit, the registers it reads, the
results it makes, the precise causes that it meets by itself, and whether it would have to wait (secondary only). -/
structure Req0 where
  slot : Slot
  busy : Nat
  reads : List RRef
  writes : List WriteAt
  traps : List Trap
  waits : Bool
  deriving DecidableEq, Repr

/-- The cause that marks a secondary bundle that waits for a later cycle (R41): no trap of R306. -/
def causeWait : Nat := 0xFFF

def Trap.at (cause : Nat) (sl : Slot) (info : Nat) : Trap := ⟨cause, some (slotIx sl), BitVec.ofNat 64 info, false⟩
/-- A schedule fault of a kind of R306. -/
def Trap.sched (sl : Slot) (kind : Nat) : Trap := Trap.at 0x05 sl kind
def Trap.illegal (sl : Slot) : Trap := Trap.at 0x04 sl (2 ^ slotIx sl)
/-- Poison consumption (R322). -/
def Trap.poison (sl : Slot) : Trap := Trap.at 0x09 sl (slotIx sl)
def Trap.prot (sl : Slot) (va : Nat) : Trap := Trap.at 0x07 sl (va % 2 ^ 56)
def Trap.transl (sl : Slot) (va : Nat) : Trap := Trap.at 0x06 sl (va % 2 ^ 56)
def Trap.misal (sl : Slot) (va : Nat) : Trap := Trap.at 0x08 sl (va % 2 ^ 56)
def Trap.shadow (sl : Slot) (r : RRef) : Trap := Trap.at 0x0A sl (fileCode r.file * 256 + r.num)

/-- A trap where a condition holds. -/
def trapIf (c : Bool) (t : Trap) : List Trap := if c then [t] else []

/-- The register has a result in flight that an earlier bundle than that of cycle `now` has set going (R37). -/
def SeqState.pending (x : SeqState) (now : Nat) (r : RRef) : Bool := x.queue.any fun e => e.eff.dest == some r && decide (e.issued < now)

/-- A result that lands in a register in the cycle in which another lands there (R66). In the secondary stream only results of the bundle
itself can meet (R37), and those of a known cycle. -/
def State.landTraps (s : State) (r : Req0) : List Trap :=
  trapIf (r.writes.any fun w => s.cur.queue.any fun e =>
      e.eff.dest == some w.ref && e.due == s.now + w.lat && !(e.varLat && s.ctx.q == .secondary))
    (.sched r.slot 3)

/-- The schedule faults of a primary syllable (R65, R66, R81). -/
def State.schedTraps (s : State) (r : Req0) : List Trap :=
  trapIf (decide (s.now < s.kore.busy.getD (slotIx r.slot) 0)) (.sched r.slot 1)
    ++ trapIf (r.writes.any fun w => w.ref.file == .h && decide (2 ≤ s.kore.hWrites (s.now + w.lat))) (.sched r.slot 2)

/-- The shadow-read fault of a secondary syllable (R37): the first register it names that has a result in flight. -/
def State.shadowTraps (s : State) (r : Req0) : List Trap :=
  match (r.reads ++ r.writes.map (·.ref)).find? (s.cur.pending s.now) with
  | some x => [.shadow r.slot x]
  | none => []

/-- Every precise cause that a syllable meets. -/
def State.reqTraps (s : State) (r : Req0) : List Trap :=
  (match s.ctx.q with
    | .primary => s.schedTraps r
    | .secondary => s.shadowTraps r) ++ s.landTraps r ++ r.traps

/-- A task runs on the core's primary. -/
def Core.primRuns (k : Core) : Bool := k.prim.run == .running

/-- A primary program stands on the core, be it stopped by a trap: it has not issued `DONE` (R405). -/
def Core.hasProgram (k : Core) : Bool := k.prim.run == .running || k.prim.recorded

/-- A secondary syllable waits: its unit is busy, or it would hold its unit for more than one cycle beside a task (R41, R43),
or a bank is held. -/
def State.mustWait (s : State) (r : Req0) : Bool :=
  match s.ctx.q with
  | .primary => false
  | .secondary =>
    let b := max (s.kore.busy.getD (slotIx r.slot) 0) (s.kore.busy2.getD (slotIx r.slot) 0)
    decide (s.now < b) || (decide (1 < r.busy) && s.kore.primRuns) || r.waits

/-- The trap of the lowest CAUSE (R308). -/
def lowest : List Trap → Option Trap
  | [] => none
  | t :: l => match lowest l with
    | none => some t
    | some u => if u.cause < t.cause then some u else some t

/-- The unit is held from this cycle on. -/
def State.hold (s : State) (r : Req0) : State :=
  s.updCore s.ctx.core fun k => match s.ctx.q with
    | .primary => { k with busy := k.busy.setIfInBounds (slotIx r.slot) (s.now + r.busy) }
    | .secondary => { k with busy2 := k.busy2.setIfInBounds (slotIx r.slot) (s.now + r.busy) }

/-- An engine access that becomes known in the cycle of a primary access that it meets faults too (R197). Engine files raise
it; here the command is marked with CODE 0x05. -/
def State.markCmd (s : State) (id code : Nat) : State :=
  { s with cmds := s.cmds.map fun c => if c.id = id then { c with st := .faulted, code := code } else c }

/-- A syllable issues: a secondary one may wait; else the lowest of its causes is taken, precise; else it takes effect. -/
def State.issue (s : State) (r : Req0) (go : State → State) : Out State :=
  if s.mustWait r then .next { s with trapped := some ⟨causeWait, none, 0, false⟩ }
  else match lowest (s.reqTraps r) with
    | some t => .next (s.raise t)
    | none => .next (go (s.hold r))

/-- A protection fault where the secondary stream may not issue (R35, R39). -/
def State.secondaryProt (s : State) (sl : Slot) : List Trap :=
  match s.ctx.q with
  | .primary => []
  | .secondary => [.prot sl 0]

/-! ### Bank-cycles -/

/-- One use of a bank in a cycle, by its granule. -/
structure Use where
  t : Nat
  res : Res
  gran : Nat
  deriving DecidableEq, Repr

/-- The bank-cycles of n bytes at a physical address. -/
def usesAt (pa n t : Nat) : List Use := (granules pa n).filterMap fun g => (resOf g).map fun r => ⟨t, r, g⟩

/-- The bank-cycles of an access in both of its places (R211). -/
def Spot.uses (sp : Spot) (n t : Nat) : List Use :=
  usesAt sp.pa n t ++ (match sp.other with
    | some o => usesAt o n t
    | none => [])

/-- Both places of an access lie in SRAM: no sequencer reaches HBM (R206), in either copy of a lens range (R211). -/
def Spot.inSram (sp : Spot) : Bool := (resOf sp.pa).isSome && (match sp.other with
  | some o => (resOf o).isSome
  | none => true)

/-- The slots that reach the scratchpad through a port of their own (R196). -/
def portSlots : List Nat := [2, 3, 4]
/-- The use of its port by one access of a slot to the scratchpad (R196). DESIGN CHOICE (log 39): a second access of the port in a cycle meets it
as it would meet a held bank. -/
def portUse (core slot : Nat) (sp : Space) (t : Nat) : List Use := if sp = .own ∧ slot ∈ portSlots then [⟨t, .port core slot, 0⟩] else []

def Res.isPort : Res → Bool
  | .port _ _ => true
  | _ => false

/-- A vault bank. -/
def Res.isVault : Res → Bool
  | .vault _ _ => true
  | _ => false

def HOwn.isSec : HOwn → Bool
  | .sec _ => true
  | _ => false

/-- A hold that a use meets. -/
def HoldRec.hits (h : HoldRec) (u : Use) : Bool :=
  h.res == u.res && decide (h.t ≤ u.t) && decide (u.t ≤ h.t2) && (match h.gran with
    | none => true
    | some g => g == u.gran)

/-- The primary and engine holds that a use meets. -/
def State.meets (s : State) (u : Use) : List HoldRec := s.holds.filter fun h => h.hits u && !h.own.isSec

def State.addHold (s : State) (own : HOwn) (us : List Use) : State :=
  { s with holds := s.holds ++ us.map fun u => ⟨u.t, u.t, u.res, none, own, s.now, u.gran⟩ }
/-- Locks a granule between the read and the write of a merge-add (R199). -/
def State.lockGran (s : State) (own : HOwn) (us : List Use) (t2 : Nat) : State :=
  { s with holds := s.holds ++ (us.filter fun u => !u.res.isPort).map fun u => ⟨u.t + 1, t2, u.res, some u.gran, own, s.now, u.gran⟩ }

/-- The wheel of R202 gives the cycle to another core of the cluster. -/
def Use.offWheel (u : Use) (core : Nat) : Bool :=
  match u.res with
  | .pool _ b => wheelCore b u.t != core % coresPerCluster
  | _ => false
/-! ### M-slot addresses (R207) -/

/-- The lateral port of R205 serves another cluster: every vault is reached through it but the cluster's own by `.near`. -/
def Use.offLateral (u : Use) (sp : Space) (cluster : Nat) : Bool :=
  match u.res with
  | .vault v _ => !(sp == .near && v == cluster) && lateralCluster v u.t != cluster
  | _ => false

/-- Bytes of a space's window. -/
def spaceBytes : Space → Nat
  | .own => spadBytes
  | .pool => poolBytes
  | .near | .any => nClusters * vaultBytes

/-- Cycles from issue to the bank (R204). -/
def spaceReach : Space → Nat
  | .own => 2
  | .pool => 10
  | .near => 20
  | .any => 48
/-- `LD` latency (R80). -/
def spaceLd : Space → Nat
  | .own => 4
  | .pool => 20
  | .near => 40
  | .any => 96

/-- The virtual address of an offset in a space (R207). -/
def spaceVa (core : Nat) : Space → Nat → Nat
  | .own, o => o
  | .pool, o => poolBase + core / coresPerCluster * poolBytes + o
  | .near, o | .any, o => vaultBase + o

/-- The result of an address check: a place, or the trap. -/
inductive Chk where
  | ok (sp : Spot)
  | bad (t : Trap)
  deriving DecidableEq, Repr

/-- How the issuing sequencer translates (R208, R209). -/
def State.via (s : State) : Via :=
  match s.ctx.q with
  | .primary => match s.moorOf s.ctx.core with
    | some m => .pins m
    | none => .nothing
  | .secondary => .walk (s.ctx.core / coresPerCluster)

/-- The range of the primary record of a core (R311). -/
def Core.inRecord (k : Core) (off n : Nat) : Bool :=
  decide (k.ctxbase.toNat < off + n) && decide (off < k.ctxbase.toNat + 0x2000)

/-- Checks n bytes at an offset of a space: the window, the cluster of `.near`, the mapping and its permission, and the
record's range for a primary write. The element number goes to XINFO (R306). -/
def State.mcheck (s : State) (sl : Slot) (sp : Space) (off n : Nat) (p : Perm) (elem : Nat) : Chk :=
  let core := s.ctx.core
  let va := spaceVa core sp off
  let info := va % 2 ^ 56 + elem * 2 ^ 59
  let tr := Trap.at 0x06 sl info
  let pr := Trap.at 0x07 sl info
  if spaceBytes sp < off + n then .bad tr
  else if sp = .near ∧ off / vaultBytes ≠ core / coresPerCluster then .bad tr
  else if sp = .own ∧ p = .w ∧ s.ctx.q = .primary ∧ s.kore.inRecord off n then .bad pr
  else match s.resolve s.via (s.moorOf core) core va n p false with
    | .ok spt => if spt.inSram then .ok spt else .bad tr
    | .transl _ => .bad tr
    | .prot _ => .bad pr

/-- The task's pool and vault accesses are served as open traffic (R36, R326). -/
def State.openPool (s : State) : Bool :=
  match s.ctx.q with
  | .secondary => true
  | .primary => match s.moorOf s.ctx.core with
    | some m => (s.moor m).loose
    | none => false

/-- Whether an access of the issuing sequencer to a space waits in FIFO order (R203, R326). -/
def State.waitsIn (s : State) (sp : Space) : Bool := s.openPool && (sp == .pool || sp == .any)

/-- The schedule faults of a primary access: wheel, lateral network, banks (R197, R202, R205). -/
def State.useTraps (s : State) (sl : Slot) (sp : Space) (us : List Use) : List Trap :=
  match s.ctx.q with
  | .secondary => []
  | .primary =>
    let core := s.ctx.core
    if s.waitsIn sp then []
    else
      trapIf (us.any fun u => !(s.meets u).isEmpty || (u.res.isVault && s.latFail.contains (core, 4))) (.sched sl 4)
        ++ trapIf (us.any fun u => u.offWheel core) (.sched sl 5)
        ++ trapIf (us.any fun u => u.offLateral sp (core / coresPerCluster)) (.sched sl 6)

/-- A secondary access to the scratchpad waits for its banks (R41). -/
def State.useWaits (s : State) (sp : Space) (us : List Use) : Bool :=
  match s.ctx.q with
  | .primary => false
  | .secondary => sp == .own && us.any fun u => !(s.meets u).isEmpty

/-- The one `.any` access that a cluster sends in a cycle (R205). -/
def State.anyTraps (s : State) (sl : Slot) (sp : Space) (t : Nat) : List Trap :=
  match s.ctx.q with
  | .secondary => []
  | .primary =>
    if sp = .any ∧ s.openPool = false then
      trapIf (!(s.meets ⟨t, .lateral (s.ctx.core / coresPerCluster), 0⟩).isEmpty || s.latFail.contains (s.ctx.core, 6)) (.sched sl 6)
    else []

/-- Open accesses to the vaults are refused to the secondary stream (R35). -/
def State.vaultProt (s : State) (sl : Slot) (sp : Space) (va : Nat) : List Trap :=
  match s.ctx.q, sp with
  | .secondary, .near | .secondary, .any => [.prot sl (spaceVa s.ctx.core sp va)]
  | _, _ => []

/-- The owner of a new access. -/
def State.owner (s : State) : AOwner := .seq s.ctx.core s.ctx.q

/-- The place of an access to a virtual address of a core. -/
def State.placeAt (s : State) (via : Via) (core va : Nat) (p : Perm) : Place :=
  .virt (fullVa core va) (s.moorOf core) (match s.resolve via (s.moorOf core) core va 1 p false with
    | .ok sp => sp.pa
    | _ => fullVa core va)
/-- The place of an access of the issuing sequencer. -/
def State.vplace (s : State) (va : Nat) (p : Perm) : Place := s.placeAt s.via s.ctx.core va p

/-- The cycles that a walk adds to an open access (R209; log 7): timed code never walks, and the own scratchpad is untranslated. -/
def State.walkTime (s : State) (sp : Space) (va : Nat) : Nat :=
  match s.ctx.q, sp with
  | .primary, _ | .secondary, .own => 0
  | .secondary, _ => walkCycles (s.ctx.core / coresPerCluster) va s.now

/-- Adds an access that performs in cycle t. Its number is returned as `nextId` stood. -/
def State.addAccess (s : State) (t : Nat) (va : Nat) (kind : AKind) (write wait : Bool) (sp : Space) (sl : Slot)
    (link : Nat) : State :=
  { s with
    accesses := s.accesses ++ [⟨s.nextId, t + s.walkTime sp va, s.owner, s.vplace va (if write then .w else .r), kind, write, wait, sp, slotIx sl, s.now, link⟩]
    nextId := s.nextId + 1 }

/-- The bank-cycles of a primary access that its cluster sends i cycles from now are recorded; open traffic and secondary accesses hold none
(R197, R203, R205). -/
def State.holdSent (s : State) (sp : Space) (us : List Use) (i : Nat) : State :=
  match s.ctx.q with
  | .secondary => s
  | .primary =>
    if s.waitsIn sp then s
    else
      let s1 := s.addHold .prim us
      if sp = .any then
        { s1 with holds := s1.holds ++ [⟨s.now + i, s.now + i, .lateral (s.ctx.core / coresPerCluster), none, .prim, s.now, 0⟩] }
      else s1
/-- The same for an access that is sent now. -/
def State.holdUses (s : State) (sp : Space) (us : List Use) : State := s.holdSent sp us 0

/-- The bank-cycles of an access of a slot at its place, and its port's cycle. -/
def State.spotUses (s : State) (sl : Slot) (sp : Space) (spt : Spot) (n t : Nat) : List Use :=
  spt.uses n t ++ portUse s.ctx.core (slotIx sl) sp t

/-- The traps of one access of n bytes at an offset: alignment to `al`, the address, the schedule. Of a misaligned access only the
address itself is checked, not the bytes after it (R198, R388). -/
def State.accTraps (s : State) (sl : Slot) (sp : Space) (off n al : Nat) (p : Perm) (t elem : Nat) : List Trap :=
  trapIf (off % al != 0) (Trap.at 0x08 sl (spaceVa s.ctx.core sp off % 2 ^ 56 + elem * 2 ^ 59))
    ++ (match s.mcheck sl sp off (if off % al = 0 then n else 1) p elem with
      | .bad tr => [tr]
      | .ok spt => s.useTraps sl sp (s.spotUses sl sp spt n t))

/-- The bank-cycles of one access that passed its check. -/
def State.accUses (s : State) (sl : Slot) (sp : Space) (off n : Nat) (p : Perm) (t : Nat) : List Use :=
  match s.mcheck sl sp off n p 0 with
  | .bad _ => []
  | .ok spt => s.spotUses sl sp spt n t

/-! ### Places in the perform cycle -/

/-- The physical address of a place now: the lit or the dark copy of a valid lens entry that holds it, else where it was. -/
def State.placePa (s : State) (p : Place) (n : Nat) (dark : Bool) : Nat :=
  match p with
  | .phys pa => pa
  | .virt va m pa =>
    let all : List Lens := match m with
      | some k => s.lenses k
      | none => []
    match all.filter (fun l : Lens => l.hasAll va n) with
    | [l] => l.pa dark va
    | _ => pa

/-- Both copies of a lens range, for the bank-cycles that the access holds. -/
def State.placeSpot (s : State) (p : Place) (n : Nat) : Spot :=
  let a := s.placePa p n false
  let b := s.placePa p n true
  ⟨a, if a = b then none else some b⟩

def AOwner.isEng : AOwner → Bool
  | .cmd _ | .late _ => true
  | _ => false

/-- A raise of the gauge word at a physical address, of its dark copy in a lens range, performs in a cycle: others of that cycle count with
it (R247). -/
def State.raisedAt (s : State) (pa t : Nat) : Bool :=
  s.accesses.any fun a => a.t == t && !a.wait && (match a.kind with
    | .raise _ => s.placePa a.place 16 true == pa
    | _ => false)
/-- A `GAUGE` of timed code performs on that word in a cycle: it applies before the raises (R248). -/
def State.armedAt (s : State) (pa t : Nat) : Bool :=
  s.accesses.any fun a => a.t == t && !a.wait && (match a.kind, a.owner with
    | .gauge _, .seq _ .primary => s.placePa a.place 16 true == pa
    | _, _ => false)

/-! ### Sounding-plane bytes (R148, R149) -/

/-- The offset of the plane byte of an offset. -/
def State.planeOff (s : State) (off : Nat) : Nat := (s.cur.sndbase.toNat + off / 4) % 2 ^ 64

end Sys2Proof.Machine
end

