-- ==== Sys2Proof/Machine/Operands.lean ====
section
/-! DEFINITION. Sys2Proof/Machine/Operands.lean: every operand form of the syllables (R63, R92, R94, R99): which registers it
names and what it reads. -/

namespace Sys2Proof
open Sys2Proof.Machine

def AB.file : AB → File
  | .a => .a
  | .b => .b
def VW.file : VW → File
  | .v => .v
  | .w => .w

/-- The register of an X-format source (R92). -/
def Src.ref {n : Nat} (own : File) : Src n → RRef
  | .own r => ⟨own, r.val⟩
  | .h _ r => ⟨.h, r.val⟩
/-- The register of an X-format destination (R92). -/
def Dst.ref {n : Nat} (own : File) : Dst n → RRef
  | .own r => ⟨own, r.val⟩
  | .h r => ⟨.h, r.val⟩
/-- An H register read through a port. -/
def HRd.ref (h : HRd) : RRef := ⟨.h, h.reg.val⟩
/-- The data register and the second operand of an M-slot store (R99). -/
def SOpnd.data : SOpnd → RRef
  | .m d _ => ⟨.m, d.val⟩
  | .h d _ => d.ref
def SOpnd.opnd : SOpnd → RRef
  | .m _ b => Src.ref .m b
  | .h _ b => ⟨.m, b.val⟩
def SReg.ref : SReg → RRef
  | .m d => ⟨.m, d.val⟩
  | .h d => d.ref

/-- A register of a slot's own file. -/
def own (fl : File) {n : Nat} (r : Fin n) : RRef := ⟨fl, r.val⟩

/-- Sign-extension of an IMM15 or an IMM20 (R92). -/
def imm15 (i : BitVec 15) : Word := i.signExtend 64
def imm20 (i : BitVec 20) : Word := i.signExtend 64

/-- The ports that an operand names. -/
def Src.port {n : Nat} : Src n → Option Port
  | .own _ => none
  | .h p _ => some p
def SOpnd.port : SOpnd → Option Port
  | .m _ b => Src.port b
  | .h d _ => some d.port
def SReg.port : SReg → Option Port
  | .m _ => none
  | .h d => some d.port

/-- The destination, if it is H (R65). -/
def Dst.hDest {n : Nat} : Dst n → Nat
  | .own _ => 0
  | .h _ => 1

/-- The H read port that a syllable uses (R96). -/
def portOf : Instr → Option Port
  | .add _ _ _ b | .addsat _ _ _ b | .and _ _ _ b | .max _ _ _ b _ | .min _ _ _ b _ | .mul _ _ _ b | .mulh _ _ _ b _
  | .or _ _ _ b | .sel _ _ _ b | .seq _ _ _ b | .shl _ _ _ b | .shr _ _ _ b | .slt _ _ _ b _ | .sra _ _ _ b
  | .sub _ _ _ b | .xor _ _ _ b | .fadd _ _ _ b _ _ | .fcmp _ _ _ b _ _ | .fma _ _ _ b _ _ | .fmax _ _ _ b _
  | .fmin _ _ _ b _ | .fmul _ _ _ b _ _ | .fsub _ _ _ b _ _ => Src.port b
  | .fsndset _ _ _ (.reg b) => Src.port b
  | .atom _ _ b _ _ _ | .ebbld _ _ b _ | .itset _ _ b _ | .ld _ _ b _ _ _ _ | .lds _ _ b _ _ _ _ | .madd _ _ b => Src.port b
  | .ebbadd o _ _ | .send o _ _ | .st o _ _ _ _ | .sts o _ _ _ _ => o.port
  | .gauge o _ _ | .stm o _ _ _ => o.port
  | .vadd _ _ _ b _ | .vand _ _ _ b | .vcmp _ _ _ b _ | .vfma _ _ _ b _ | .viadd _ _ _ b _ | .vimac _ _ _ b _
  | .vimul _ _ _ b _ | .visub _ _ _ b _ | .vmax _ _ _ b | .vmin _ _ _ b | .vmul _ _ _ b _ | .vor _ _ _ b | .vsel _ _ _ b
  | .vshl _ _ _ (.op b) | .vshr _ _ _ (.op b) _ | .vslide _ _ _ b _ _ | .vsub _ _ _ b _ | .vxor _ _ _ b => Src.port b
  | .vbcast _ _ h | .vld _ _ h _ | .vlds _ _ h _ | .vldx _ _ h _ | .vldz _ _ h | .vst _ _ h _ | .vsts _ _ h _
  | .vstx _ _ h _ | .vstz _ _ h _ => some h.port
  | .fatan2 _ _ b _ _ | .fdecay _ _ b | .fdiv _ _ b _ _ => Src.port b
  | .arrgang h | .arrld h | .arrpass h _ _ _ | .arrrest h | .arrsave h | .arrscl h | .arrsweep h _ | .chkpt h
  | .coll h _ _ _ | .cpy h _ _ | .cpymc h _ _ | .ebbsweep h _ | .engq h _ _ | .nmc h | .publish h | .rld h _ | .rst h _
  | .scrub h _ | .sixrun h _ _ | .stepadv h _ => some h.port
  | .br (.ifH h) _ | .bsnd h _ _ _ | .loop (.reg h) _ _ _ | .syswr h _ | .waitg h _ => some h.port
  | .xmov _ _ .h _ => some .p2
  | _ => none

/-- The H destinations that a syllable names by a DH bit (R65). `XMOV` to H and `ENGQ` have none: their writes count in the cycle in
which they land (R366, R445). -/
def hDests : Instr → Nat
  | .add _ d _ _ | .addsat _ d _ _ | .and _ d _ _ | .bfx _ d _ _ _ | .bnet d _ _ | .clz _ d _ | .max _ d _ _ _ | .min _ d _ _ _
  | .mul _ d _ _ | .mulh _ d _ _ _ | .or _ d _ _ | .popc _ d _ | .seq _ d _ _ | .shl _ d _ _ | .shr _ d _ _
  | .slt _ d _ _ _ | .sra _ d _ _ | .sub _ d _ _ | .xor _ d _ _ | .fabs _ d _ _ | .fadd _ d _ _ _ _ | .fclass _ d _ _
  | .fcmp _ d _ _ _ _ | .fcvt _ d _ _ _ _ | .fmax _ d _ _ _ | .fmin _ d _ _ _ | .fmul _ d _ _ _ _ | .fneg _ d _ _
  | .fsnd _ d _ _ | .fsndset _ d _ _ | .fsub _ d _ _ _ _ | .atom d _ _ _ _ _ | .ebbld d _ _ _ | .ld d _ _ _ _ _ _
  | .ldm d _ _ _ | .lds d _ _ _ _ _ _ | .madd d _ _ => Dst.hDest d
  | .fatan2 d _ _ _ _ | .fdecay d _ _ | .fdiv d _ _ _ _ | .fexp2 d _ _ _ | .flog2 d _ _ _ | .frcp d _ _ _ | .frsq d _ _ _
  | .fsqrt d _ _ _ => Dst.hDest d
  | .vzmap _ _ _ _ | .sysrd _ _ => 1
  | _ => 0

end Sys2Proof
end

