-- ==== Sys2Proof/Machine/Fetch.lean ====
section
/-! DEFINITION. Sys2Proof/Machine/Fetch.lean: fetching a bundle and checking its header and its syllables (R85 to R96, R209), the
two events that issue bundles, and the way to their syllables. -/

namespace Sys2Proof.Machine
open Config

/-- The fields of a header parcel (R86). -/
structure Hdr where
  sig : Nat
  rsv : Bool
  lamp : Bool
  idle : Nat
  le : Bool
  pres : Nat
  deriving DecidableEq, Repr

def hdrOf (p : Nat) : Hdr :=
  ⟨bits p 14 2, bit p 13, bit p 12, bits p 9 3, bit p 8, bits p 0 8⟩

/-- The slots of a presence mask, in slot order. -/
def allSlots : List Slot := [.a, .b, .m, .v, .w, .f, .e, .c]
def slotsOf (pres : Nat) : List Slot := allSlots.filter fun sl => bit pres (slotIx sl)

/-- The length of a bundle in parcels (R87, R88). -/
def Hdr.len (h : Hdr) : Nat := if h.lamp then 2 else 1 + 2 * (slotsOf h.pres).length

/-- The header of the bundle after the one at an address (R87). -/
def Hdr.next (h : Hdr) (pc : Nat) : Nat := if h.le then (pc / 64 + 1) * 64 else pc + 2 * h.len

/-- Code fetch translates as its stream does, with fetch permission; the own-scratchpad window is no place of code (R207). -/
def State.fetchTr (s : State) (c : Nat) (q : Seq) (va : Nat) : Res2 :=
  let via : Via := match q with
    | .primary => match s.moorOf c with
      | some m => .pins m
      | none => .nothing
    | .secondary => .walk (c / coresPerCluster)
  if va < spadBytes then .transl va else s.resolve via (s.moorOf c) c va 2 .x false

/-- The header at an address, where it passes the checks of R90. -/
def State.hdrAt (s : State) (c : Nat) (q : Seq) (va : Nat) : Option Hdr :=
  match s.fetchTr c q va with
  | .ok sp =>
    let h := hdrOf (s.num sp.pa 2)
    if h.sig ≠ 2 ∨ 32 < va % 64 / 2 + h.len ∨ h.rsv ∨ h.pres = 0 then none else some h
  | _ => none

/-- The address of the bundle that follows the one at an address in straight-line order (R352). A parcel that is no header
stands for itself: the fetch there raises its fault. -/
def State.after (s : State) (c : Nat) (q : Seq) (va : Nat) : Nat :=
  match s.hdrAt c q va with
  | some h => h.next va
  | none => va

/-- A fetch that succeeded: the header, its place, its syllables with the slots that hold none of their own. -/
structure Fetched where
  hdr : Hdr
  syls : List (Slot × Nat)
  lampBad : Bool
  deriving DecidableEq, Repr

/-- The syllables of a bundle whose header stands at a physical address: from the stream, or from the lamp entry. -/
def State.sylsAt (s : State) (x : SeqState) (pa : Nat) (h : Hdr) : Fetched :=
  let sl := slotsOf h.pres
  if h.lamp then
    let p := s.num (pa + 2) 2
    let e : BitVec 256 := sget 0 x.lamps (bits p 0 9)
    ⟨h, sl.map fun k => (k, (e.extractLsb' (32 * slotIx k) 32).toNat), bits p 9 7 != 0⟩
  else
    ⟨h, (List.range sl.length).map fun i => (sl.getD i .a, s.num (pa + 2 + 4 * i) 4), false⟩

/-- Slots whose syllable does not decode. -/
def Fetched.bad (f : Fetched) : List Slot := (f.syls.filter fun p => p.2 == 0 || (decodeSyl p.1 p.2).isNone).map (·.1)

/-- The syllables of a fetched bundle. -/
def Fetched.instrs (f : Fetched) : List (Slot × Instr) := f.syls.filterMap fun p => (decodeSyl p.1 p.2).map fun i => (p.1, i)

/-- Slots that name a read port which another slot of the bundle names too (R64). -/
def portClash (is : List (Slot × Instr)) : List Slot :=
  (is.filter fun p => match portOf p.2 with
    | none => false
    | some k => decide (2 ≤ (is.filter fun r => portOf r.2 == some k).length)).map (·.1)

/-- Slots that name an H destination, where more than two do (R65). -/
def hClash (is : List (Slot × Instr)) : List Slot :=
  let hs := is.filter fun p => hDests p.2 != 0
  if 2 < hs.length then hs.map (·.1) else []

/-- The illegal slots of a bundle as bits, bit 8 for the lamp parcel (R91, R306). -/
def Fetched.illegal (f : Fetched) : Nat :=
  let is := f.instrs
  let bad := f.bad ++ portClash is ++ hClash is
  (allSlots.foldl (fun n sl => if bad.contains sl then n + 2 ^ slotIx sl else n) 0) + (if f.lampBad then 256 else 0)

/-- The lowest slot of a mask. -/
def lowSlot (n : Nat) : Option Nat := (List.range 8).find? fun k => bit n k

/-- The ports that a bundle names, as bits. -/
def portMask (is : List (Slot × Instr)) : BitVec 3 :=
  is.foldl (fun (m : BitVec 3) p => match portOf p.2 with
    | some .p0 => m ||| 1
    | some .p1 => m ||| 2
    | some .p2 => m ||| 4
    | none => m) 0

/-- Whether a syllable is the one that a resumed bundle issues again (R309). -/
def isMulti : Instr → Bool
  | .ldm _ _ _ _ | .stm _ _ _ _ => true
  | _ => false

/-- A sequencer's next bundle: the step to it is resolved (R45, R82), its header is checked in the order of R90, its syllables
under R91, R64 and R65; then its syllables stand in `issuing`, its place in `ctx`. A failed check is taken as its trap. -/
def State.fetchBundle (s : State) (c : Nat) (q : Seq) : State :=
  let x := (s.seq c q).resolve
  let pc := x.pc.toNat
  let s0 := { s.setSeq c q x with ctx := ⟨c, q, x.pc, 0, 1, x.pc, false, 0, false, x.restK.getD 0⟩, issuing := [], trapped := none }
  match s.fetchTr c q pc with
  | .transl va => s0.raise ⟨0x01, none, BitVec.ofNat 64 va, false⟩
  | .prot va => s0.raise ⟨0x02, none, BitVec.ofNat 64 va, false⟩
  | .ok sp =>
    let p := s.num sp.pa 2
    let h := hdrOf p
    if h.sig ≠ 2 ∨ 32 < pc % 64 / 2 + h.len then s0.raise ⟨0x03, none, BitVec.ofNat 64 p, false⟩
    else if h.rsv || h.pres == 0 then s0.raise ⟨0x04, none, 0, false⟩
    else
      let f := s.sylsAt x sp.pa h
      if f.illegal ≠ 0 then s0.raise ⟨0x04, lowSlot f.illegal, BitVec.ofNat 64 f.illegal, false⟩
      else
        let is := f.instrs
        let run := if x.restK.isSome then is.filter fun p => isMulti p.2 else is
        let d := decide (0 < x.delay) && !x.ownBr
        let s1 := { s0 with
          ctx := ⟨c, q, x.pc, h.idle, h.len, BitVec.ofNat 56 (h.next pc), h.lamp, h.pres, d, x.restK.getD 0⟩
          issuing := run.map (·.2) }
        match q with
        | .primary => s1.updCore c fun k =>
          { k with
            primAt := s.now, primSlots := BitVec.ofNat 8 h.pres, primPorts := portMask is
            dirty := k.dirty ||| dirtyBits (s.core c).prim k.prim }
        | .secondary => s1

/-- `BUNDLE_FETCH`: the primary of a core fetches and checks its due bundle. Step then issues its syllables. -/
def execBundleFetch (core : Nat) (s : State) : Out State :=
  if core < nCores then .next (s.fetchBundle core .primary) else .fault .noSuchUnit

/-- The slots and ports of the secondary's bundle are free of the primary's of this cycle (R41). -/
def State.secondaryFits (s t : State) (core : Nat) : Bool :=
  let k := s.core core
  if k.primAt = s.now ∧ k.primSlots ≠ 0 then
    k.primSlots &&& BitVec.ofNat 8 t.ctx.presence == 0
      && k.primPorts &&& portMask (t.issuing.map fun i => (.a, i)) == 0
  else true

/-- `SECONDARY_BUNDLE_ISSUE`: the secondary's next bundle is fetched; it waits, whole, where a slot or a port is taken. -/
def execSecondaryBundleIssue (core : Nat) (s : State) : Out State :=
  if core < nCores then
    let t := s.fetchBundle core .secondary
    if t.trapped.isSome || s.secondaryFits t core then .next t
    else .next { s with trapped := some ⟨causeWait, none, 0, false⟩ }
  else .fault .noSuchUnit

end Sys2Proof.Machine
end

