-- ==== Sys2Proof/Machine/Flags.lean ====
section
/-! DEFINITION. Sys2Proof/Machine/Flags.lean: results with their flags (R110, R315), soundings (R142 to R144), poison (R320) and
loss events (R152, R153). -/

namespace Sys2Proof
open Sys2Proof.Machine

/-- The FP format or the integer type of a conversion code (R98). -/
def CvtTy.fp : CvtTy → Option Fmt
  | .f32 => some fmt32
  | .f64 => some fmt64
  | .f16 => some fmt16
  | .bf16 => some fmtB16
  | _ => none
def CvtTy.int : CvtTy → IntTy
  | .i64 => ⟨64, true⟩
  | .u64 => ⟨64, false⟩
  | .i32 => ⟨32, true⟩
  | _ => ⟨32, false⟩

end Sys2Proof

namespace Sys2Proof.Machine

/-- A poison bit from the registers that a syllable reads (R320). -/
def State.poisonOf (s : State) (rs : List RRef) : Bool := rs.any fun r => (s.rd r).poi

/-- The loss event of a result (R152): its sounding is below the threshold and every FP source was at or above it. -/
def lossEvent (thr : Nat) (srcs : List Nat) (snd : Nat) : Bool :=
  decide (snd < thr) && !srcs.isEmpty && srcs.all fun x => decide (thr ≤ x)

/-- A scalar FP value to deliver: its bits, its sounding, its flags, and the soundings of the FP sources it was computed
from. -/
structure FpOut where
  w : Nat
  snd : Nat
  fl : Flg
  srcs : List Nat
  deriving DecidableEq, Repr

/-- An integer result (R344): sounding 63, poisoned if a source is, no flag. -/
def State.alu (s : State) (sl : Slot) (reads : List RRef) (d : RRef) (lat : Nat) (v : Word) : Out State :=
  s.issue ⟨sl, 1, reads, [⟨d, lat⟩], [], false⟩ fun t => t.result d lat ⟨v, 63, s.poisonOf reads⟩ 0 none

/-- A floating-point result (R367): its flags and its loss event are set in the landing cycle. -/
def State.fpu (s : State) (sl : Slot) (reads : List RRef) (d : RRef) (lat : Nat) (o : FpOut) : Out State :=
  s.issue ⟨sl, 1, reads, [⟨d, lat⟩], [], false⟩ fun t =>
    t.result d lat ⟨BitVec.ofNat 64 o.w, BitVec.ofNat 6 o.snd, s.poisonOf reads⟩ o.fl
      (if lossEvent s.cur.sndthr.toNat o.srcs o.snd then some (slotIx sl) else none)

/-- The source bits of a format in a register (R69). -/
def Reg.fpBits (r : Reg) (f : Fmt) : Nat := r.val.toNat % 2 ^ f.width
/-- S(x) of a register read under a format (R75). -/
def Reg.fpSnd (r : Reg) (f : Fmt) : Nat := f.readSnd r.snd
def Reg.sop (r : Reg) (f : Fmt) : SOp := f.sop (r.fpBits f) (r.fpSnd f)

/-! ### What each scalar operation delivers -/

def fpAdd (f : Fmt) (rm : RM) (a b : Reg) : FpOut :=
  let r := f.add rm (a.fpBits f) (b.fpBits f)
  ⟨r.1, f.soundAdd (a.sop f) (b.sop f) r.1, r.2, [a.fpSnd f, b.fpSnd f]⟩
def fpSub (f : Fmt) (rm : RM) (a b : Reg) : FpOut :=
  let r := f.sub rm (a.fpBits f) (b.fpBits f)
  ⟨r.1, f.soundAdd (a.sop f) (b.sop f) r.1, r.2, [a.fpSnd f, b.fpSnd f]⟩
def fpMul (f : Fmt) (rm : RM) (a b : Reg) : FpOut :=
  let r := f.mul rm (a.fpBits f) (b.fpBits f)
  ⟨r.1, f.soundMul (a.sop f) (b.sop f) r.1, r.2, [a.fpSnd f, b.fpSnd f]⟩
def fpFma (f : Fmt) (rm : RM) (a b c : Reg) : FpOut :=
  let r := f.fma rm (a.fpBits f) (b.fpBits f) (c.fpBits f)
  ⟨r.1, f.soundFma (a.fpBits f) (b.fpBits f) (c.fpBits f) (a.fpSnd f) (b.fpSnd f) (c.fpSnd f) r.1, r.2,
    [a.fpSnd f, b.fpSnd f, c.fpSnd f]⟩
def fpDiv (f : Fmt) (rm : RM) (a b : Reg) : FpOut :=
  let r := f.div rm (a.fpBits f) (b.fpBits f)
  ⟨r.1, f.soundMul (a.sop f) (b.sop f) r.1, r.2, [a.fpSnd f, b.fpSnd f]⟩

/-- The sounding of a delivered operand: 0 for an infinity or a NaN, else at most Bits (R143). -/
def Fmt.carry (f : Fmt) (w s : Nat) : Nat := f.soundClamp s w

/-- `FMIN` and `FMAX` (R380). -/
def fpMinmax (f : Fmt) (isMax : Bool) (a b : Reg) : FpOut :=
  let r := f.minmax isMax (a.fpBits f) (b.fpBits f)
  let ss := [a.fpSnd f, b.fpSnd f]
  match r.1 with
  | none => ⟨f.qnan, 0, r.2, ss⟩
  | some true => ⟨a.fpBits f, f.carry (a.fpBits f) (a.fpSnd f), r.2, ss⟩
  | some false => ⟨b.fpBits f, f.carry (b.fpBits f) (b.fpSnd f), r.2, ss⟩

/-- `FABS` and `FNEG` (R368). -/
def fpSign (f : Fmt) (neg : Bool) (a : Reg) : FpOut :=
  let w := if neg then f.flip (a.fpBits f) else f.abs (a.fpBits f)
  ⟨w, f.carry w (a.fpSnd f), 0, [a.fpSnd f]⟩

/-- A one-operand function whose sounding is S(a) + k (R143). The root of a zero keeps S(a). -/
def fpUnary (f : Fmt) (op : Nat → Nat × Flg) (k : Int) (a : Reg) : FpOut :=
  let r := op (a.fpBits f)
  let k' := if k = 1 ∧ (f.dec (a.fpBits f)).isZero then 0 else k
  ⟨r.1, f.soundClamp ((a.fpSnd f : Int) + k') r.1, r.2, [a.fpSnd f]⟩

/-- `FATAN2` (R373). -/
def fpAtan2 (f : Fmt) (rm : RM) (y x : Reg) : FpOut :=
  let r := f.atan2 rm (y.fpBits f) (x.fpBits f)
  let both := (f.dec (y.fpBits f)).isZero && (f.dec (x.fpBits f)).isZero
  let s : Int := if both then 0 else (Nat.min (y.fpSnd f) (x.fpSnd f) : Int) - 1
  ⟨r.1, f.soundClamp s r.1, r.2, [y.fpSnd f, x.fpSnd f]⟩

/-- `FDECAY` (R375). -/
def fpDecay (a b : Reg) : FpOut :=
  let r := fdecay ⟨a.fpBits fmt32, a.fpSnd fmt32, 0⟩ (b.val.toNat % 2 ^ 24)
  ⟨r.w, r.s, r.fl, [a.fpSnd fmt32]⟩

/-- The class bit of `FCLASS` (R376). -/
def fpClass (f : Fmt) (a : Nat) : Nat :=
  let neg := a / 2 ^ (f.width - 1) % 2 == 1
  match f.dec a with
  | .nan s => if s then 2 ^ 8 else 2 ^ 9
  | .inf n => if n then 2 ^ 0 else 2 ^ 7
  | .fin _ m e =>
    if m = 0 then (if neg then 2 ^ 3 else 2 ^ 4)
    else if e + bitLen m - 1 < f.emin then (if neg then 2 ^ 2 else 2 ^ 5)
    else (if neg then 2 ^ 1 else 2 ^ 6)

/-- `FCVT` (R378). An INT32 result is sign-extended. -/
def fpCvt (rm : RM) (dt st : CvtTy) (a : Reg) : FpOut :=
  match st.fp, dt.fp with
  | some f, some g =>
    let r := f.cvt g rm (a.fpBits f)
    ⟨r.1, g.soundClamp (Nat.min (a.fpSnd f) g.p) r.1, r.2, [a.fpSnd f]⟩
  | some f, none =>
    let r := f.toInt dt.int rm (a.fpBits f)
    ⟨if dt.int.signed && dt.int.w == 32 && r.1 / 2 ^ 31 % 2 == 1 then r.1 + (2 ^ 64 - 2 ^ 32) else r.1, 63, r.2, []⟩
  | none, some g =>
    let r := g.ofInt rm (st.int.dec a.val.toNat)
    ⟨r.1, g.soundClamp g.p r.1, r.2, []⟩
  | none, none => ⟨0, 63, 0, []⟩

end Sys2Proof.Machine
end

