-- ==== Sys2Proof/Machine/MemSlot.lean ====
section
/-! DEFINITION. Sys2Proof/Machine/MemSlot.lean: the instructions of slot M that reach memory (R198 to R205, R348, R363, R364, R384 to
R389, R401, R405, R408, R409, R411). Each schedules its accesses; Perform.lean performs them. -/

namespace Sys2Proof.Machine
open Config

/-- Bytes of a size (R93). -/
def sizeBytes : Size → Nat
  | .b => 1
  | .h => 2
  | .w => 4
  | .d => 8

/-- A two-part address (R387): sa + sb, or sa + sb × size. -/
def State.addrX (s : State) (a : Fin 32) (b : RRef) (sc : Bool) (n : Nat) : Nat :=
  ((s.rd (own .m a)).val.toNat + (s.rd b).val.toNat * (if sc then n else 1)) % 2 ^ 64
/-- A base and an offset scaled by the size (R92). -/
def State.addrI (s : State) (base : Fin 32) (off : BitVec 11) (n : Nat) : Nat :=
  ((s.rd (own .m base)).val + BitVec.ofInt 64 (off.toInt * n)).toNat

/-- Poison consumption where an address register is poisoned (R322). -/
def State.poisonTraps (s : State) (sl : Slot) (rs : List RRef) : List Trap := trapIf (s.poisonOf rs) (.poison sl)

/-- The register entry of a load from a space that waits for access `link`. -/
def State.pushHeld (s : State) (sp : Space) (d : RRef) (due link : Nat) : State :=
  s.push ⟨due, .reg d Reg.zero, 0, none, some link, s.waitsIn sp, 0, some sp, s.now⟩

/-! ### Loads -/

/-- One load element i cycles after the first: its traps. -/
def State.loadTraps (s : State) (sp : Space) (off n : Nat) (plane : Bool) (i elem : Nat) : List Trap :=
  let t := s.now + spaceReach sp + i
  s.vaultProt .m sp off ++ s.accTraps .m sp off n n .r t elem ++ s.anyTraps .m sp (s.now + i)
    ++ (if plane then s.accTraps .m sp (s.planeOff off) 1 1 .r t elem else [])

def State.loadUses (s : State) (sp : Space) (off n : Nat) (plane : Bool) (i : Nat) : List Use :=
  let t := s.now + spaceReach sp + i
  s.accUses .m sp off n .r t ++ (if plane then s.accUses .m sp (s.planeOff off) 1 .r t else [])

/-- Schedules one load element: its bank-cycles, its access and its queue entry. -/
def State.loadGo (s : State) (sp : Space) (off n : Nat) (sx plane : Bool) (d : RRef) (i lat : Nat) : State :=
  let us := s.loadUses sp off n plane i
  let core := s.ctx.core
  let pl := if plane then some (s.vplace (spaceVa core sp (s.planeOff off)) .r) else none
  ((s.holdSent sp us i).addAccess (s.now + spaceReach sp + i) (spaceVa core sp off) (.load n sx pl (lat - (spaceLd sp + i))) false (s.waitsIn sp)
    sp .m s.nextId).pushHeld sp d (s.now + lat) s.nextId

/-- `LD` and `LDS` (R388). -/
def State.load (s : State) (addr : List RRef) (d : RRef) (sp : Space) (off n : Nat) (sx plane : Bool) : Out State :=
  let lat := spaceLd sp + (if plane then 1 else 0)
  s.issue ⟨.m, 1, addr, [⟨d, lat⟩], s.loadTraps sp off n plane 0 0 ++ s.poisonTraps .m addr,
      s.useWaits sp (s.loadUses sp off n plane 0)⟩
    fun t => t.loadGo sp off n sx plane d 0 lat

def execLd (d : Dst 32) (a : Fin 32) (b : Src 32) (sp : Space) (sz : Size) (sc sx : Bool) (s : State) : Out State :=
  s.load [own .m a, Src.ref .m b] (Dst.ref .m d) sp (s.addrX a (Src.ref .m b) sc (sizeBytes sz)) (sizeBytes sz) sx false
def execLdOffset (d base : Fin 32) (sz : Size) (sp : Space) (off : BitVec 11) (s : State) : Out State :=
  s.load [own .m base] (own .m d) sp (s.addrI base off (sizeBytes sz)) (sizeBytes sz) false false
def execLds (d : Dst 32) (a : Fin 32) (b : Src 32) (sp : Space) (sz : Size) (sc sx : Bool) (s : State) : Out State :=
  s.load [own .m a, Src.ref .m b] (Dst.ref .m d) sp (s.addrX a (Src.ref .m b) sc (sizeBytes sz)) (sizeBytes sz) sx true
def execLdsOffset (d base : Fin 32) (sz : Size) (sp : Space) (off : BitVec 11) (s : State) : Out State :=
  s.load [own .m base] (own .m d) sp (s.addrI base off (sizeBytes sz)) (sizeBytes sz) false true

/-! ### Multi-element transfers (R309) -/

/-- The first element from k0 on that meets a trap, with its lowest cause. -/
def firstBad (f : Nat → List Trap) : Nat → Nat → Option (Nat × Trap)
  | 0, _ => none
  | n + 1, k => match lowest (f k) with
    | some t => some (k, t)
    | none => firstBad f n (k + 1)

/-- The elements k0 to count − 1 issue; where a later one faults, those before it perform and the trap is taken after them
(R309). -/
def State.multi (s : State) (r : Req0) (count : Nat) (traps : Nat → List Trap) (go : State → Nat → State) : Out State :=
  let k0 := s.ctx.restK
  match firstBad traps (count - k0) k0 with
  | none => s.issue r fun t => (List.range (count - k0)).foldl (fun u i => go u (k0 + i)) t
  | some (k, tr) =>
    if k = k0 then s.issue { r with traps := tr :: r.traps } id
    else s.issue r fun t =>
      let u := (List.range (k - k0)).foldl (fun u i => go u (k0 + i)) t
      (u.updCur fun x => { x with pc := s.ctx.pc, nextAt := s.now + 1, pend := false }).takeTrap { tr with kept := true } (some k)

/-- Register j of a multi-element transfer. -/
def RRef.plus (r : RRef) (j : Nat) : RRef := ⟨r.file, r.num + j⟩

def execLdm (d : Dst 32) (a : Fin 32) (n : Fin 32) (sp : Space) (s : State) : Out State :=
  let count := n.val + 1
  let k0 := s.ctx.restK
  let base := (s.rd (own .m a)).val.toNat
  let off (j : Nat) := (base + 8 * j) % 2 ^ 64
  let r := Dst.ref .m d
  let ws := (List.range (count - k0)).map fun i => (⟨r.plus (k0 + i), spaceLd sp + i⟩ : WriteAt)
  let waits := (List.range (count - k0)).any fun i => s.useWaits sp (s.loadUses sp (off (k0 + i)) 8 true i)
  s.multi ⟨.m, count - k0, [own .m a], ws, s.poisonTraps .m [own .m a], waits⟩ count
    (fun j => s.loadTraps sp (off j) 8 true (j - k0) j)
    (fun t j => t.loadGo sp (off j) 8 false true (r.plus j) (j - k0) (spaceLd sp + (j - k0)))

/-! ### Stores -/

/-- The plane bytes that a store of n bytes writes (R149): one, or two for 64 bits. -/
def planeBytes (n : Nat) : Nat := if n = 8 then 2 else 1

/-- The plane byte of a register (R148). -/
def Reg.plane (r : Reg) : Byte := BitVec.ofNat 8 (r.snd.toNat + (if r.poi then 64 else 0))

def State.storeTraps (s : State) (sp : Space) (off n : Nat) (plane : Bool) (i elem : Nat) : List Trap :=
  let t := s.now + spaceReach sp + i
  s.vaultProt .m sp off ++ s.accTraps .m sp off n n .w t elem ++ s.anyTraps .m sp (s.now + i)
    ++ (if plane then s.accTraps .m sp (s.planeOff off) (planeBytes n) 1 .w t elem else [])

def State.storeUses (s : State) (sp : Space) (off n : Nat) (plane : Bool) (i : Nat) : List Use :=
  let t := s.now + spaceReach sp + i
  s.accUses .m sp off n .w t ++ (if plane then s.accUses .m sp (s.planeOff off) (planeBytes n) .w t else [])

/-- Schedules one store element. -/
def State.storeGo (s : State) (sp : Space) (off n : Nat) (plane : Bool) (v : Reg) (i : Nat) : State :=
  let us := s.storeUses sp off n plane i
  let core := s.ctx.core
  let pl := if plane then
      some (s.vplace (spaceVa core sp (s.planeOff off)) .w, List.replicate (planeBytes n) v.plane)
    else none
  (s.holdSent sp us i).addAccess (s.now + spaceReach sp + i) (spaceVa core sp off)
    (.store (natBytes n v.val.toNat) (List.replicate n v.poi) pl) true (s.waitsIn sp) sp .m s.nextId

/-- `ST` and `STS` (R409). -/
def State.store (s : State) (addr : List RRef) (data : RRef) (sp : Space) (off n : Nat) (plane : Bool) : Out State :=
  s.issue ⟨.m, 1, data :: addr, [], s.storeTraps sp off n plane 0 0 ++ s.poisonTraps .m addr,
      s.useWaits sp (s.storeUses sp off n plane 0)⟩
    fun t => t.storeGo sp off n plane (s.rd data) 0

def execSt (o : SOpnd) (a : Fin 32) (sp : Space) (sz : Size) (sc : Bool) (s : State) : Out State :=
  s.store [own .m a, o.opnd] o.data sp (s.addrX a o.opnd sc (sizeBytes sz)) (sizeBytes sz) false
def execStOffset (d base : Fin 32) (sz : Size) (sp : Space) (off : BitVec 11) (s : State) : Out State :=
  s.store [own .m base] (own .m d) sp (s.addrI base off (sizeBytes sz)) (sizeBytes sz) false
def execSts (o : SOpnd) (a : Fin 32) (sp : Space) (sz : Size) (sc : Bool) (s : State) : Out State :=
  s.store [own .m a, o.opnd] o.data sp (s.addrX a o.opnd sc (sizeBytes sz)) (sizeBytes sz) true
def execStsOffset (d base : Fin 32) (sz : Size) (sp : Space) (off : BitVec 11) (s : State) : Out State :=
  s.store [own .m base] (own .m d) sp (s.addrI base off (sizeBytes sz)) (sizeBytes sz) true

def execStm (o : SReg) (a : Fin 32) (n : Fin 32) (sp : Space) (s : State) : Out State :=
  let count := n.val + 1
  let k0 := s.ctx.restK
  let base := (s.rd (own .m a)).val.toNat
  let off (j : Nat) := (base + 8 * j) % 2 ^ 64
  let r := o.ref
  let rs := (List.range count).map r.plus
  let waits := (List.range (count - k0)).any fun i => s.useWaits sp (s.storeUses sp (off (k0 + i)) 8 true i)
  s.multi ⟨.m, count - k0, own .m a :: rs, [], s.poisonTraps .m [own .m a], waits⟩ count
    (fun j => s.storeTraps sp (off j) 8 true (j - k0) j)
    (fun t j => t.storeGo sp (off j) 8 true (s.rd (r.plus j)) (j - k0))

/-! ### Bank ALU operations (R199) -/

/-- The active ebb region of a mooring that holds an address (R130, R300). -/
def State.regionOf (s : State) (m : Option Nat) (va : Nat) : Option Region :=
  match m with
  | none => none
  | some k => (s.moor k).regions.find? fun r => r.active && decide (r.vbase ≤ va) && decide (va < r.vbase + 8 * r.words)

/-- An ebb access to an address in no active region (R130). -/
def State.ebbTraps (s : State) (sl : Slot) (sp : Space) (off : Nat) : List Trap :=
  let va := spaceVa s.ctx.core sp off
  trapIf ((s.regionOf (s.moorOf s.ctx.core) (fullVa s.ctx.core va)).isNone) (.prot sl va)

/-- Cycles from issue to the bank of `ATOM` and `EBBADD` (R199, R201). -/
def atomReach : Space → Nat
  | .own => 3
  | _ => 11

def poolSpace (pool : Bool) : Space := if pool then .pool else .own

/-- A read-modify-write of n bytes reaches its bank at t: both permissions, and the lock of a merge-add up to t + 24. -/
def State.rmwTraps (s : State) (sp : Space) (off n : Nat) : List Trap :=
  let t := s.now + atomReach sp
  s.accTraps .m sp off n n .r t 0 ++ (match s.mcheck .m sp off (if off % n = 0 then n else 1) .w 0 with
    | .bad tr => [tr]
    | .ok _ => [])

def State.rmwUses (s : State) (sp : Space) (off n : Nat) : List Use := s.accUses .m sp off n .w (s.now + atomReach sp)

/-- The locked granules would meet an access already known (R197, R199). -/
def State.lockTraps (s : State) (sp : Space) (us : List Use) : List Trap :=
  match s.ctx.q with
  | .secondary => []
  | .primary =>
    if s.waitsIn sp then []
    else trapIf (us.any fun u => s.holds.any fun h => h.res == u.res && !u.res.isPort && !h.own.isSec && decide (u.t < h.t) && decide (h.t ≤ u.t + 24)
        && h.touch == u.gran) (.sched .m 4)

/-- Schedules a merge-add: its read now, its write 24 cycles later, and the lock between them. -/
def State.mergeGo (s : State) (sp : Space) (off : Nat) (x : Reg) (ret : Bool) (link : Nat) : State :=
  let us := s.rmwUses sp off 8
  let s1 := s.holdUses sp us
  let s2 := match s.ctx.q with
    | .secondary => s1
    | .primary => if s.waitsIn sp then s1 else s1.lockGran .prim us (s.now + atomReach sp + 24)
  s2.addAccess (s.now + atomReach sp) (spaceVa s.ctx.core sp off) (.ebbRead x ret) true (s.waitsIn sp) sp .m link

/-- `ATOM` (R199, R348). The result lands 3 cycles after the perform cycle in the scratchpad, 10 in the pool. -/
def execAtom (d : Dst 32) (a : Fin 32) (b : Src 32) (pool w64 : Bool) (op : AtomOp) (s : State) : Out State :=
  let sp := poolSpace pool
  let n := if w64 then 8 else 4
  let off := (s.rd (own .m a)).val.toNat
  let x := Src.ref .m b
  let dr := Dst.ref .m d
  let isEbb := op == .ebb
  let isCas := op == .cas
  let p := atomReach sp + (if isEbb then 24 else 0)
  let lat := p + (if pool then 10 else 3)
  let us := s.rmwUses sp off n
  let reads := own .m a :: x :: (if isCas then [dr] else [])
  s.issue ⟨.m, 1, reads, [⟨dr, lat⟩],
      s.rmwTraps sp off n ++ (if isEbb then s.ebbTraps .m sp off ++ s.lockTraps sp us else []) ++ s.poisonTraps .m [own .m a],
      s.useWaits sp us⟩ fun t =>
    let u := if isEbb then t.mergeGo sp off (s.rd x) true t.nextId
      else (t.holdUses sp us).addAccess (t.now + atomReach sp) (spaceVa t.ctx.core sp off)
        (.atom op w64 (s.rd x) (s.rd dr)) true (t.waitsIn sp) sp .m t.nextId
    u.pushHeld sp dr (t.now + lat) t.nextId

/-- `EBBADD` (R363). -/
def execEbbadd (o : SOpnd) (a : Fin 32) (pool : Bool) (s : State) : Out State :=
  let sp := poolSpace pool
  let off := s.addrX a o.opnd true 8
  let us := s.rmwUses sp off 8
  s.issue ⟨.m, 1, [o.data, own .m a, o.opnd], [],
      s.rmwTraps sp off 8 ++ s.ebbTraps .m sp off ++ s.lockTraps sp us ++ s.poisonTraps .m [own .m a, o.opnd],
      s.useWaits sp us⟩ fun t => t.mergeGo sp off (s.rd o.data) false t.nextId

/-- `EBBLD` (R364). -/
def execEbbld (d : Dst 32) (a : Fin 32) (b : Src 32) (sp : Space) (s : State) : Out State :=
  let x := Src.ref .m b
  let off := s.addrX a x true 8
  let lat := spaceLd sp + 24
  let us := s.loadUses sp off 8 false 0
  s.issue ⟨.m, 1, [own .m a, x], [⟨Dst.ref .m d, lat⟩],
      s.loadTraps sp off 8 false 0 0 ++ s.ebbTraps .m sp off ++ s.poisonTraps .m [own .m a, x], s.useWaits sp us⟩ fun t =>
    ((t.holdUses sp us).addAccess (t.now + spaceReach sp) (spaceVa t.ctx.core sp off) .ebbld false (t.waitsIn sp) sp .m
      t.nextId).pushHeld sp (Dst.ref .m d) (t.now + lat) t.nextId

/-- The traps of a `GAUGE` that reaches its word in cycle t: it shares the bank-cycle with raises of the word (R248). -/
def State.armTraps (s : State) (sp : Space) (off t : Nat) : List Trap :=
  let shared := match s.mcheck .m sp off 16 .w 0 with
    | .ok spt => s.raisedAt (spt.other.getD spt.pa) t
    | .bad _ => false
  (s.accTraps .m sp off 16 16 .w t 0).filter (fun tr => !(shared && tr == .sched .m 4)) ++ s.useTraps .m sp (portUse s.ctx.core 2 sp t)

/-- `GAUGE` (R248, R384): a poisoned data register is consumption too. -/
def execGauge (o : SReg) (a : Fin 32) (pool : Bool) (s : State) : Out State :=
  let sp := poolSpace pool
  let off := (s.rd (own .m a)).val.toNat
  let t0 := s.now + spaceReach sp
  let us := s.accUses .m sp off 16 .w t0
  s.issue ⟨.m, 1, [o.ref, own .m a], [],
      s.armTraps sp off t0 ++ s.poisonTraps .m [o.ref, own .m a], s.useWaits sp us⟩ fun t =>
    (t.holdUses sp us).addAccess t0 (spaceVa t.ctx.core sp off) (.gauge ((s.rd o.ref).val.setWidth 32)) true (t.waitsIn sp)
      sp .m t.nextId

/-! ### Exchange between cores (R50, R200) -/

/-- A core of the issuing core's cluster. -/
def State.peer (s : State) (i : Nat) : Nat := s.ctx.core / coresPerCluster * coresPerCluster + i

/-- `SEND`: the landing holds the target's bank in t + 12 from now on (R405). -/
def execSend (o : SOpnd) (a : Fin 32) (sz : Size) (s : State) : Out State :=
  let n := sizeBytes sz
  let tgt := s.peer ((s.rd (own .m a)).val.toNat % 16)
  let off := (s.rd o.opnd).val.toNat
  let t0 := s.now + 12
  let m := s.moorOf s.ctx.core
  let k := if off % n = 0 then n else 1
  let spot : Chk :=
    if spadBytes < off + k then .bad (.transl .m off)
    else match s.resolve s.via m tgt off k .w false with
      | .ok sp => if sp.inSram then .ok sp else .bad (.transl .m off)
      | .transl _ => .bad (.transl .m off)
      | .prot _ => .bad (.prot .m off)
  let us := match spot with
    | .ok sp => sp.uses n t0
    | .bad _ => []
  s.issue ⟨.m, 1, [o.data, own .m a, o.opnd], [],
      s.secondaryProt .m ++ (match spot with
        | .bad tr => [tr]
        | .ok _ => []) ++ trapIf (off % n != 0) (.misal .m off) ++ s.poisonTraps .m [own .m a, o.opnd]
        ++ s.useTraps .m .own us, false⟩ fun t =>
    let v := s.rd o.data
    let u := t.addHold .prim us
    { u with
      accesses := u.accesses ++ [⟨u.nextId, t0, u.owner, .virt (spadVa tgt off) m (spadVa tgt off),
        .send (natBytes n v.val.toNat) v.poi u.ctx.core tgt, true, false, .own, 2, u.now, u.nextId⟩]
      nextId := u.nextId + 1 }

/-- `RECV` arms the core for one landing (R401). -/
def execRecv (a : Fin 32) (k : Fin 128) (s : State) : Out State :=
  let c := s.now + k.val
  s.issue ⟨.m, 1, [own .m a], [],
      s.secondaryProt .m ++ trapIf (s.kore.recv.any fun r => r.cycle == c) (.sched .m 1) ++ s.poisonTraps .m [own .m a], false⟩
    fun t => t.updCore t.ctx.core fun x => { x with recv := x.recv ++ [⟨s.peer ((s.rd (own .m a)).val.toNat % 16), c⟩] }

/-- `ITSET` (R385): the binding is in force from t + 1. -/
def execItset (it : Fin 8) (a : Fin 32) (b : Src 32) (level : Fin 8) (s : State) : Out State :=
  let x := Src.ref .m b
  s.issue ⟨.m, 1, [own .m a, x], [], [], false⟩ fun t =>
    t.effect 1 (.iter it.val ⟨(s.rd (own .m a)).val, (s.rd x).val.setWidth 32, level.val, false, s.poisonOf [own .m a, x]⟩)

end Sys2Proof.Machine
end

