-- ==== Sys2Proof/Machine/Bank.lean ====
section
/-! DEFINITION. Sys2Proof/Machine/Bank.lean: what an access finds in its perform cycle: its place (R211), the bank ALU (R129 to
R132, R199, R348), gauge words (R246 to R248), and what gives way to whom (R42, R197, R203). -/

namespace Sys2Proof.Machine
open Config

/-- A little-endian word with whether any of its bytes carries poison. -/
def State.word (s : State) (pa n : Nat) : Nat × Bool := (s.num pa n, s.anyPoison pa n)

/-! ### Ebb words -/

/-- The decay factors of the active region that holds a full address. -/
def State.factAt (s : State) (m : Option Nat) (va : Nat) (fi : Nat) : Nat :=
  match s.regionOf m va with
  | some r => (r.fact.getD fi 0).toNat
  | none => 0

/-- `GSTEP` of a mooring as a read of this cycle sees it (R131). -/
def State.gstepOf (s : State) (m : Option Nat) : Nat :=
  match m with
  | some k => (s.moor k).gstep.toNat % 2 ^ 24
  | none => 0

/-- The mooring and the full address of a place. -/
def Place.moor : Place → Option Nat
  | .virt _ m _ => m
  | .phys _ => none
def Place.va : Place → Nat
  | .virt va _ _ => va
  | .phys pa => pa

/-- `EbbRead` of the word at a place (R131, R134). -/
def State.ebbAt (s : State) (p : Place) (w : Nat) : FV := ebbRead w (s.gstepOf p.moor) (s.factAt p.moor p.va)

/-- `MergeAdd` into the word at a place (R132). -/
def State.mergeAt (s : State) (p : Place) (w x : Nat) : Nat × Flg :=
  ebbMergeAdd w x (s.gstepOf p.moor) (s.factAt p.moor p.va)

/-! ### `ATOM` (R199, R348) -/

/-- What the bank ALU does to a word: its new value with its poison, if it writes, and the flags. -/
structure AtomOut where
  new : Option (Nat × Bool)
  ret : Nat × Bool
  fl : Flg
  deriving DecidableEq, Repr

/-- The new value of codes 0x0 to 0x8 and 0xA, on words of w bits. -/
def atomNew (op : AtomOp) (w : Nat) (old x : Nat) : Nat × Flg :=
  let sg (n : Nat) : Int := (⟨w, true⟩ : IntTy).dec n
  match op with
  | .add => ((old + x) % 2 ^ w, 0)
  | .and => (old &&& x, 0)
  | .or => (old ||| x, 0)
  | .xor => (old ^^^ x, 0)
  | .min => (if sg x < sg old then x else old, 0)
  | .max => (if sg old < sg x then x else old, 0)
  | .umin => (Nat.min old x, 0)
  | .umax => (Nat.max old x, 0)
  | .swap | .cas | .ebb => (x, 0)
  | .fadd => fmt32.add .rne old x

/-- One read-modify-write of codes 0x0 to 0xA: the operand x, the compare value y. A poisoned word stays poisoned, but for
swap, which writes a whole clean word; a compare-and-swap of a poisoned word or with a poisoned compare value writes
nothing. -/
def atomRmw (op : AtomOp) (w64 : Bool) (old : Nat) (oldPoi : Bool) (x y : Reg) : AtomOut :=
  let w := if w64 then 64 else 32
  let xv := x.val.toNat % 2 ^ w
  match op with
  | .cas =>
    if oldPoi || y.poi then ⟨none, (old, true), 0⟩
    else if old = y.val.toNat % 2 ^ w then ⟨some (xv, x.poi), (old, false), 0⟩
    else ⟨none, (old, false), 0⟩
  | .swap => ⟨some (xv, x.poi), (old, oldPoi), 0⟩
  | op =>
    let r := atomNew op w old xv
    let p := oldPoi || x.poi
    ⟨some (r.1, p), (old, oldPoi), r.2 ||| (if op = .fadd then flagIf p fPZ else 0)⟩

/-! ### Gauge words (R244 to R248) -/

/-- A raise by n bytes, on the 16 bytes of a gauge word. -/
def gaugeRaise (g : List Byte) (n : Nat) : List Byte :=
  let tgt := leNat (g.take 4)
  let cnt := leNat ((g.drop 4).take 4)
  let gen := leNat ((g.drop 8).take 4)
  let st := (g.getD 12 0).toNat
  let out (c e t : Nat) : List Byte := natBytes 4 tgt ++ natBytes 4 c ++ natBytes 4 e ++ [BitVec.ofNat 8 t] ++ g.drop 13
  if st ≠ 0 then g
  else if tgt = 0 then out cnt (gen + 1) 2
  else
    let c := cnt + n
    if c = tgt then out 0 (gen + 1) 0
    else if tgt < c then out c (gen + 1) 2
    else out c gen 0

/-- A close with a status: STATUS is set, GEN advances, COUNT stays. -/
def gaugeClose (g : List Byte) (status : Nat) : List Byte :=
  g.take 8 ++ natBytes 4 (leNat ((g.drop 8).take 4) + 1) ++ [BitVec.ofNat 8 status] ++ g.drop 13

/-- The word after `GAUGE`. -/
def gaugeArm (g : List Byte) (tgt : BitVec 32) : List Byte :=
  natBytes 4 tgt.toNat ++ natBytes 4 0 ++ (g.drop 8).take 4 ++ natBytes 4 0

/-- The offset that a gauge address names, and whether it names the pool; none where it breaks R244. -/
def gaugeOff (ga : Nat) : Option (Bool × Nat) :=
  let pool := bit ga 31
  let off := ga % 2 ^ 21
  if bits ga 21 10 ≠ 0 ∨ ga % 16 ≠ 0 ∨ (pool = false ∧ spadBytes ≤ off) then none else some (pool, off)

/-- The virtual address of a gauge word, for a core. -/
def gaugeVa (core : Nat) : Bool × Nat → Nat
  | (pool, off) => spaceVa core (if pool then .pool else .own) off

/-- A generation has reached another (R245). -/
def genReached (have_ want : Nat) : Bool := decide ((have_ + 2 ^ 32 - want % 2 ^ 32) % 2 ^ 32 < 2 ^ 31)

/-! ### Giving way (R42, R197, R203) -/

def AOwner.isSec : AOwner → Bool
  | .seq _ .secondary => true
  | _ => false

/-- The bytes that an access touches at its place, and at its plane. -/
def AKind.size : AKind → Nat
  | .load n _ _ _ | .hostRead n => n
  | .vload _ n _ _ => n
  | .store d _ _ => d.length
  | .atom _ w64 _ _ => if w64 then 8 else 4
  | .ebbld | .ebbRead _ _ | .ebbWrite _ _ _ _ => 8
  | .gauge _ | .raise _ | .close _ => 16
  | .eng _ n => n
  | .send d _ _ _ => d.length
  | .hostWrite d => d.length

/-- Where an access performs: the writes of an engine in the dark copy of a lens range, all else in the lit one (R211). -/
def State.accPa (s : State) (a : Access) : Nat := s.placePa a.place a.kind.size (a.owner.isEng && a.write)

/-- The plane bytes that an access touches. -/
def AKind.plane : AKind → Option (Place × Nat)
  | .load _ _ (some p) _ => some (p, 1)
  | .vload _ n ph (some p) => some (p, (ph + n + 3) / 4)
  | .store _ _ (some (p, l)) => some (p, l.length)
  | _ => none

/-- The use of its port by an access of a sequencer; the bank ALU's write of a merge-add uses none (R199). -/
def Access.ported (a : Access) (t : Nat) : List Use :=
  match a.owner, a.kind with
  | _, .ebbWrite _ _ _ _ | _, .send _ _ _ _ => []
  | .seq c _, _ => portUse c a.slot a.space t
  | _, _ => []

/-- A raise or close that waits for its bank needs none in a cycle in which the bank ALU serves its word already, for a raise or a `GAUGE` of
timed code (R247, R248). -/
def State.shares (s : State) (a : Access) (t : Nat) : Bool :=
  a.wait && (match a.kind with
    | .raise _ | .close _ =>
      let pa := s.placePa a.place 16 true
      s.raisedAt pa t || s.armedAt pa t
    | _ => false)

/-- The bank-cycles of an access in a cycle. -/
def State.accessUses (s : State) (a : Access) (t : Nat) : List Use :=
  if s.shares a t then []
  else (s.placeSpot a.place a.kind.size).uses a.kind.size t ++ (match a.kind.plane with
    | some (p, n) => (s.placeSpot p n).uses n t
    | none => []) ++ a.ported t

/-- A locked granule of the access itself does not stand in its way. -/
def HoldRec.ownLock (h : HoldRec) (a : Access) : Bool :=
  h.gran.isSome && (match a.kind, h.own with
    | .ebbWrite _ _ _ _, .sec k => k == a.link
    | .ebbWrite _ _ _ _, .prim => !a.owner.isSec
    | _, _ => false)

/-- A bank that an open or secondary access needs in a cycle is held. -/
def State.blocked (s : State) (a : Access) (t : Nat) : Bool :=
  (s.accessUses a t).any fun u => (s.meets u).any fun h => !h.ownLock a

/-- The core of an access stands still: its task is parked. -/
def State.stands (s : State) (a : Access) : Bool :=
  match a.owner with
  | .seq c .primary => (s.seq c .primary).frozen.isSome && (match s.moorOf c with
    | some m => (s.moor m).st != .parking
    | none => true)
  | _ => false

/-- Two accesses touch a common bank in a cycle. -/
def State.sameBank (s : State) (a b : Access) : Bool :=
  let ub := s.accessUses b s.now
  (s.accessUses a s.now).any fun u => ub.any fun w => u.res == w.res

/-- The bytes that an access touches, as places and lengths. -/
def State.touched (s : State) (a : Access) : List (Nat × Nat) :=
  (s.placePa a.place a.kind.size false, a.kind.size) :: (match a.kind.plane with
    | some (p, n) => [(s.placePa p n false, n)]
    | none => [])
/-- Two accesses of which one writes touch a common location. -/
def State.sameBytes (s : State) (a b : Access) : Bool :=
  (a.write || b.write) && (s.touched a).any fun x => (s.touched b).any fun y => decide (x.1 < y.1 + y.2) && decide (y.1 < x.1 + x.2)

/-- A secondary access waits for its bank: a primary or engine access holds it, or an older access of the stream is still to
perform there (R42), or one that is to perform later touches the same location (R272). -/
def State.secWaits (s : State) (a : Access) : Bool :=
  a.owner.isSec && (match a.kind with
    | .ebbWrite _ _ _ _ => false
    | _ =>
      s.blocked a s.now || s.accesses.any (fun b => b.owner == a.owner && !b.wait && decide (b.id < a.id)
          && ((decide (b.t ≤ s.now) && s.sameBank a b) || s.sameBytes a b))
        || (s.accessUses a s.now).any fun u => s.holds.any fun h => h.own.isSec && h.hits u)

/-- An access that performs in this cycle, not one that must wait for its bank. -/
def State.performs (s : State) (a : Access) : Bool := a.t == s.now && !a.wait && !s.stands a && !s.secWaits a

/-- The flags that an access sets in `FLAGS` of its sequencer in its perform cycle (R199, R315). -/
def State.accessFlags (s : State) (a : Access) : Flg :=
  match a.kind with
  | .store _ ps _ => flagIf (ps.any id) fPZ
  | .atom op w64 x y =>
    let pa := s.placePa a.place a.kind.size false
    let w := s.word pa a.kind.size
    (atomRmw op w64 w.1 w.2 x y).fl
  | .ebbWrite x old poi _ => (s.mergeAt a.place old.toNat (x.val.toNat % 2 ^ 32)).2 ||| flagIf (poi || x.poi) fPZ
  | _ => 0

/-- `FLAGS` as it stands in this cycle, with what the accesses of the sequencer that perform in it set (R413). -/
def State.flagsNow (s : State) (c : Nat) (q : Seq) : BitVec 10 :=
  s.accesses.foldl (fun fl a => if a.owner == .seq c q && s.performs a then fl ||| s.accessFlags a else fl) (s.seq c q).flags

end Sys2Proof.Machine
end

