-- ==== Sys2Proof/Machine/Tile.lean ====
section
/-! DEFINITION. Sys2Proof/Machine/Tile.lean: the elements of V and W registers under a shape and a format (R70 to R77). -/

namespace Sys2Proof.Machine

/-- The format of a value of `FMT` (R72). -/
def formOf (w : Word) : Form := (Form.ofCode (w.toNat % 16)).getD .fp32
/-- Bytes of an element in V and W (R72). -/
def formBytes : Form → Nat
  | .int8 => 1
  | .fp16 | .bf16 | .int16 => 2
  | _ => 4

/-- Rows and columns of a shape register (R71). -/
def shapeRows (w : Word) : Nat := bits w.toNat 6 5 + 1
def shapeCols (w : Word) : Nat := bits w.toNat 0 6 + 1
def Core.shapeReg (k : Core) : VW → Word
  | .v => k.shv
  | .w => k.shw
def Core.rows (k : Core) (f : VW) : Nat := shapeRows (k.shapeReg f)
def Core.cols (k : Core) (f : VW) : Nat := shapeCols (k.shapeReg f)
/-- The elements of a tile. -/
def Core.elems (k : Core) (f : VW) : Nat := k.rows f * k.cols f
def Core.form (k : Core) : Form := formOf k.fmt
def Core.eb (k : Core) : Nat := formBytes k.form
def Core.tileBytes (k : Core) (f : VW) : Nat := k.elems f * k.eb

/-- rows × cols × eb fits a register for a format and the two shapes (R74). -/
def shapesFit (fmt shv shw : Word) : Bool :=
  let eb := formBytes (formOf fmt)
  decide (shapeRows shv * shapeCols shv * eb ≤ 2048) && decide (shapeRows shw * shapeCols shw * eb ≤ 2048)

/-- Element i of eb bytes: a flagged word supplies +0 with sounding 63 (R75, R77). -/
def VReg.elem (x : VReg) (eb i : Nat) : Reg :=
  if x.zf.getLsbD (eb * i / 4) then Reg.zero
  else ⟨(x.data.extractLsb' (8 * eb * i) (8 * eb)).setWidth 64, x.snd.extractLsb' (6 * (eb * i / 2)) 6, x.poi.getLsbD (eb * i / 2)⟩

def VReg.list (x : VReg) (eb n : Nat) : List Reg := (List.range n).map (x.elem eb)

/-- The state of the 16-bit positions under a list of elements of eb bytes. Two 8-bit elements give their position both their poison (R417).
DESIGN CHOICE (log 39): and the lesser of their soundings, which no rule gives (R137). -/
def posStates (eb : Nat) : List Reg → List (Nat × Bool)
  | [] => []
  | [e] => if eb = 4 then [(e.snd.toNat, e.poi), (e.snd.toNat, e.poi)] else [(e.snd.toNat, e.poi)]
  | e :: g :: l =>
    if eb = 4 then (e.snd.toNat, e.poi) :: (e.snd.toNat, e.poi) :: posStates eb (g :: l)
    else if eb = 2 then (e.snd.toNat, e.poi) :: posStates eb (g :: l)
    else (Nat.min e.snd.toNat g.snd.toNat, e.poi || g.poi) :: posStates eb l

/-- A register that holds a list of elements of eb bytes from element 0 on. -/
def VReg.ofElems (eb : Nat) (es : List Reg) : VReg :=
  let ps := posStates eb es
  ⟨BitVec.ofNat 16384 (digits (8 * eb) (es.map fun e => e.val.toNat)), BitVec.ofNat 6144 (digits 6 (ps.map (·.1))),
    BitVec.ofNat 1024 (digits 1 (ps.map fun p => if p.2 then 1 else 0)), 0⟩

/-- The same, moved up by a number of 4-byte words. -/
def VReg.up (x : VReg) (words : Nat) : VReg :=
  ⟨x.data <<< (32 * words), x.snd <<< (12 * words), x.poi <<< (2 * words), x.zf <<< words⟩

/-- The bytes of a register. -/
def VReg.bytes (x : VReg) (n : Nat) : List Byte := (List.range n).map fun i => x.data.extractLsb' (8 * i) 8

/-! ### Bytes that a load brings in (R75, R76, R149, R150, R161) -/

/-- Poison of the 16-bit positions that bytes from lo on touch, from the poison of each byte. -/
def posPoison (lo : Nat) (ps : List Bool) (i : Nat) : Bool :=
  let p := lo / 2 + i
  (decide (lo ≤ 2 * p) && ps.getD (2 * p - lo) false) || ps.getD (2 * p + 1 - lo) false

/-- The plane byte of byte k of a load whose first byte stands at place `ph` of its word. -/
def planeAt (l : List Byte) (ph k : Nat) : Nat := (l.getD ((ph + k) / 4) 0).toNat

/-- The sounding and poison that plane bytes give the 16-bit position p of a load of n bytes at [lo, …). DESIGN CHOICE (log 39): where the two
8-bit elements of a position lie in words of different soundings, it takes the lesser (R150). -/
def planeState (l : List Byte) (ph lo n p : Nat) : Nat :=
  let a := planeAt l ph (2 * p - lo)
  let b := planeAt l ph (2 * p + 1 - lo)
  if 2 * p < lo then b
  else if lo + n ≤ 2 * p + 1 then a
  else Nat.min (a % 64) (b % 64) + 64 * (if 64 ≤ a % 128 ∨ 64 ≤ b % 128 then 1 else 0)

/-- Puts loaded bytes at [lo, …) of a tile: sounding 63, or the sounding and poison of each 32-bit word's plane byte. -/
def VReg.fill (x : VReg) (lo : Nat) (bs : List Byte) (ps : List Bool) (ph : Nat) (plane : Option (List Byte)) : VReg :=
  let n := bs.length
  let pos := cover 2 lo n
  let idx := List.range pos.2
  let pl (i : Nat) : Nat := match plane with
    | none => 63
    | some l => planeState l ph lo n (pos.1 + i)
  let data := BitVec.ofNat 16384 (leNat bs * 2 ^ (8 * lo))
  let snd := BitVec.ofNat 6144 (digits 6 (idx.map fun i => pl i % 64) * 2 ^ (6 * pos.1))
  let poi := BitVec.ofNat 1024
    (digits 1 (idx.map fun i => if posPoison lo ps i || decide (64 ≤ pl i % 128) then 1 else 0) * 2 ^ pos.1)
  ⟨mergeBits x.data data (maskBits 8 n lo 16384), mergeBits x.snd snd (maskBits 6 pos.2 pos.1 6144),
    mergeBits x.poi (poi ||| (x.poi &&& (if lo % 2 = 1 then maskBits 1 1 pos.1 1024 else 0))) (maskBits 1 pos.2 pos.1 1024), x.zf⟩

/-! ### Sparse records (R277 to R280) -/

/-- MB of a record of n elements, and its length for a count of elements of eb bytes (R278). -/
def recMaskBytes (n : Nat) : Nat := 8 * ((n + 63) / 64)
def recLen (n eb count : Nat) : Nat := (8 + recMaskBytes n + count * eb + 15) / 16 * 16

/-- The values of the elements from i on, from k values before. -/
def recElems (x : VReg) (n eb i k : Nat) : Nat → List Reg
  | 0 => []
  | m + 1 =>
    if x.data.getLsbD (64 + i) then
      let o := 8 + recMaskBytes n + k * eb
      ⟨(x.data.extractLsb' (8 * o) (8 * eb)).setWidth 64, 63, x.poi.getLsbD (o / 4 * 2) || x.poi.getLsbD (o / 4 * 2 + 1)⟩
        :: recElems x n eb (i + 1) (k + 1) m
    else Reg.zero :: recElems x n eb (i + 1) k m

/-- The tile that a record gives (R280): a malformed one gives poisoned zeros. -/
def recTile (x : VReg) (n eb : Nat) : VReg :=
  let mb := recMaskBytes n
  let count := (x.data.extractLsb' 0 32).toNat
  let mask := x.data.extractLsb' 64 (8 * mb)
  let ones := ((List.range (8 * mb)).filter fun i => mask.getLsbD i).length
  let bad := (x.data.extractLsb' 32 32).toNat != n || (List.range (8 * mb)).any (fun i => decide (n ≤ i) && mask.getLsbD i)
    || count != ones || decide (128 * ((n * eb + 127) / 128) < recLen n eb count)
    || (List.range (4 + mb / 2)).any fun i => x.poi.getLsbD i
  VReg.ofElems eb (if bad then List.replicate n ⟨0, 63, true⟩ else recElems x n eb 0 0 n)

end Sys2Proof.Machine
end

