-- ==== Sys2Proof/Machine/Control.lean ====
section
/-! DEFINITION. Sys2Proof/Machine/Control.lean: the instructions of slot C (R44 to R49, R59, R73, R74, R84, R158, R159, R249, R273,
R317, R352 to R356, R362, R379, R381, R382, R390, R391, R402, R406, R412 to R416, R442, R443, R445). -/

namespace Sys2Proof.Machine
open Config

/-- A syllable of slot C that holds its unit for one cycle. -/
def State.ctl (s : State) (reads : List RRef) (traps : List Trap) (go : State → State) : Out State :=
  s.issue ⟨.c, 1, reads, [], traps, false⟩ go

/-! ### Branches (R48, R82, R352) -/

/-- The headers of the two delay bundles and of the bundle after them. -/
def State.delayAddrs (s : State) : Nat × Nat × Nat :=
  let d1 := s.ctx.next.toNat
  let d2 := s.after s.ctx.core s.ctx.q d1
  (d1, d2, s.after s.ctx.core s.ctx.q d2)

/-- A branch in a delay bundle, or one whose delay bundles hold the end of a loop. -/
def State.branchTraps (s : State) : List Trap :=
  let d := s.delayAddrs
  trapIf (s.ctx.delayed || s.cur.loops.any fun e => e.stop.toNat == d.1 || e.stop.toNat == d.2.1) (.sched .c 7)

/-- A branch issues: its two delay bundles follow, whether or not it is taken. -/
def SeqState.branchTo (x : SeqState) (taken : Bool) (target : Addr) : SeqState :=
  { x with branch := if taken then some (2, target) else none, delay := 2, ownBr := true }

/-- The target of a B-format offset (R95). -/
def State.target (s : State) (off : Int) : Addr := s.ctx.pc + BitVec.ofInt 56 (2 * off)

/-- `BR` (R353). -/
def execBr (c : BrCond) (off : BitVec 18) (s : State) : Out State :=
  match c with
  | .always => s.ctl [] s.branchTraps fun t => t.updCur fun x => x.branchTo true (s.target off.toInt)
  | .ifH h => s.ctl [h.ref] (s.branchTraps ++ s.poisonTraps .c [h.ref]) fun t =>
      t.updCur fun x => x.branchTo ((s.rd h.ref).val != 0) (s.target off.toInt)

/-- `BSND` (R158, R355): the raw 6-bit sounding against S. -/
def execBsnd (h : HRd) (n : Fin 64) (ge : Bool) (off : BitVec 11) (s : State) : Out State :=
  s.ctl [h.ref] (s.branchTraps ++ s.poisonTraps .c [h.ref]) fun t =>
    let below := decide ((s.rd h.ref).snd.toNat < n.val)
    t.updCur fun x => x.branchTo (below != ge) (s.target off.toInt)

/-- `CALL` (R356): `LNK` takes the header after the second delay bundle. -/
def execCall (off : BitVec 18) (s : State) : Out State :=
  s.ctl [] s.branchTraps fun t =>
    (t.effect 1 (.sys 0x0E (BitVec.ofNat 64 s.delayAddrs.2.2))).updCur fun x => x.branchTo true (s.target off.toInt)

/-- `RET` (R402). -/
def execRet (s : State) : Out State :=
  s.ctl [] s.branchTraps fun t => t.updCur fun x => x.branchTo true (s.cur.lnk.setWidth 56)

/-! ### `LOOP` (R44, R390, R391) -/

def execLoop (n : LCount) (rev pre : Bool) (endOff : BitVec 16) (s : State) : Out State :=
  let rs : List RRef := match n with
    | .imm _ => []
    | .reg h => [h.ref]
  let count : Nat := match n with
    | .imm k => k.val
    | .reg h => (s.rd h.ref).val.toNat % 2 ^ 32
  let stop := s.ctx.pc + BitVec.ofNat 56 (2 * endOff.toNat)
  let traps := trapIf (decide (endOff.toNat < s.ctx.len)) (.illegal .c)
    ++ trapIf (decide (6 ≤ s.cur.loops.length) || s.cur.loops.any fun e => e.stop == s.ctx.pc) (.sched .c 7)
    ++ s.poisonTraps .c rs
  s.ctl rs traps fun t =>
    if count = 0 then
      t.updCur fun x => { x with skipTo := some (BitVec.ofNat 56 (t.after t.ctx.core t.ctx.q stop.toNat)) }
    else
      (t.updCur fun x => { x with
        loops := ⟨s.ctx.next, stop, count, if rev then count - 1 else 0, rev, pre && s.ctx.q == .primary⟩ :: x.loops }).effect 1
          (.push s.cur.loops.length)

/-! ### Shapes, formats and system registers (R73, R74, R83, R84, R382, R413, R414) -/

/-- The writes of a system register in flight in one queue. -/
def SeqState.sysWrites (x : SeqState) (n : Nat) : List (Nat × Word) :=
  x.queue.filterMap fun e => match e.eff with
    | .sys k v => if k = n then some (e.due, v) else none
    | _ => none

/-- The last write by cycle t, over a value. -/
def lastWrite (t : Nat) : List (Nat × Word) → Nat × Word → Nat × Word
  | [], b => b
  | (d, v) :: l, b => lastWrite t l (if d ≤ t ∧ b.1 ≤ d then (d, v) else b)

/-- What `FMT`, `SHV` or `SHW` will hold in cycle t: the writes in flight of both streams, where a secondary write that meets a
primary one takes effect a cycle later (R74, R382). -/
def Core.sysAt (k : Core) (n : Nat) (old : Word) (t : Nat) : Word :=
  let ps := k.prim.sysWrites n
  let ss := (k.sec.sysWrites n).map fun p => if ps.any fun r => r.1 == p.1 then (p.1 + 1, p.2) else p
  (lastWrite t ss (lastWrite t ps (0, old))).2

/-- Whether writing v to register n of `FMT`, `SHV`, `SHW` in cycle t keeps R74. -/
def Core.fitsAt (k : Core) (n : Nat) (v : Word) (t : Nat) : Bool :=
  let fmt := if n = 2 then v else k.sysAt 2 k.fmt t
  let shv := if n = 3 then v else k.sysAt 3 k.shv t
  let shw := if n = 4 then v else k.sysAt 4 k.shw t
  (if n = 2 then v.toNat < 9 else v.toNat < 2 ^ 11) && shapesFit fmt shv shw

/-- A write of `FMT`, `SHV` or `SHW`, five cycles after issue. -/
def State.setShape (s : State) (reads : List RRef) (n : Nat) (v : Word) (traps : List Trap) : Out State :=
  s.ctl reads (traps ++ trapIf (!(s.kore.fitsAt n v (s.now + 5))) (.illegal .c)) fun t => t.effect 5 (.sys n v)

def execFmtset (form : Form) (s : State) : Out State := s.setShape [] 2 (BitVec.ofNat 64 form.code) []

def execShape (f : VW) (rows : Fin 32) (cols : Fin 64) (s : State) : Out State :=
  s.setShape [] (match f with
    | .v => 3
    | .w => 4) (BitVec.ofNat 64 (rows.val * 64 + cols.val)) []

/-- The value of a system register in this cycle (R83, R413). DESIGN CHOICE (log 39): on a core that no loaded mooring owns, `GSTEP`, `EBBTAB` and
`LENS`, the registers of a mooring, read as 0. -/
def State.sysValue (s : State) (c : Nat) (q : Seq) (n : Nat) : Word :=
  let k := s.core c
  let x := k.seq q
  let m := (s.moorOf c).map s.moor
  if n = 0x00 then BitVec.ofNat 64 s.now
  else if n = 0x01 then BitVec.ofNat 64 (x.tclk s.now)
  else if n = 0x02 then k.fmt
  else if n = 0x03 then k.shv
  else if n = 0x04 then k.shw
  else if n = 0x05 then (s.flagsNow c q).setWidth 64
  else if n = 0x06 then x.trapen.setWidth 64
  else if n = 0x07 then x.sndthr.setWidth 64
  else if n = 0x08 then x.sndloss
  else if n = 0x09 then x.sndbase
  else if n = 0x0A then (match m with
    | some y => y.gstep
    | none => 0)
  else if n = 0x0B then (match m with
    | some y => y.ebbtab
    | none => 0)
  else if n = 0x0C then (match m with
    | some y => y.lens
    | none => 0)
  else if n = 0x0D then k.ctxbase.setWidth 64
  else if n = 0x0E then x.lnk
  else if n = 0x0F then x.xpc
  else if n = 0x10 then x.xcause
  else if n = 0x11 then x.xinfo
  else if n ≤ 0x17 then BitVec.ofNat 64 (x.loopIndex (n - 0x12))
  else if n ≤ 0x1B then x.wt.getD (n - 0x18) 0
  else if n = 0x1C then k.engst
  else if n = 0x1D then k.driftv
  else k.sweepst

/-- `SYSRD` (R413). -/
def execSysrd (d : Fin 32) (n : Fin 128) (s : State) : Out State :=
  s.issue ⟨.c, 1, [], [⟨⟨.h, d.val⟩, 2⟩], [], false⟩ fun t =>
    t.result ⟨.h, d.val⟩ 2 ⟨s.sysValue s.ctx.core s.ctx.q n.val, 63, false⟩ 0 none

/-- The registers that a `SYSWR` may write (R83). -/
def sysWritable (q : Seq) (n : Nat) : Bool :=
  [0x02, 0x03, 0x04, 0x05, 0x06, 0x07, 0x08, 0x09, 0x0E, 0x0F, 0x11].contains n
    || ([0x0B, 0x0C, 0x0D].contains n && q == .secondary)

/-- A value that `EBBTAB`, `LENS` and `CTXBASE` may hold (R311, R414, R447). -/
def sysValueOk (n : Nat) (v : Word) : Bool :=
  if n = 0x0B then v.toNat % 128 == 0 && decide (spadBytes ≤ v.toNat)
  else if n = 0x0C then v.toNat % 32 == 0 && decide (spadBytes ≤ v.toNat)
  else if n = 0x0D then v.toNat % 4096 == 0 && decide (v.toNat + 0xAC1F < spadBytes)
  else true

/-- `SYSWR` (R414). -/
def execSyswr (h : HRd) (n : Fin 128) (s : State) : Out State :=
  let v := (s.rd h.ref).val
  let ps := s.poisonTraps .c [h.ref]
  if n.val = 2 ∨ n.val = 3 ∨ n.val = 4 then s.setShape [h.ref] n.val v ps
  else
    s.ctl [h.ref] (trapIf (!(sysWritable s.ctx.q n.val) || !(sysValueOk n.val v)) (.prot .c 0) ++ ps) fun t =>
      t.effect 1 (.sys n.val v)

/-! ### Holds: `SYNC`, `WAITG`, `FENCE`, `TFENCE` -/

/-- The members of a mask in a core's cluster. -/
def maskCores (core : Nat) (mask : BitVec 16) : List Nat :=
  ((List.range 16).filter fun i => mask.getLsbD i).map fun i => core / coresPerCluster * coresPerCluster + i

/-- The masks of the `SYNC`s held in the cluster that a core breaks by issuing one of another mask: it is a member of theirs, or, of two
`SYNC`s of one cycle, the other core is a member of its own (R412). -/
def State.otherMasks (s : State) (core : Nat) (mask : BitVec 16) : List (BitVec 16) :=
  (maskCores core 0xFFFF).filterMap fun c => match (s.core c).prim.hold with
    | .sync m t =>
      if m ≠ mask ∧ (m.getLsbD (core % coresPerCluster) || (t == s.now && mask.getLsbD (c % coresPerCluster))) = true then some m else none
    | _ => none

/-- A timing fault in every core of a list (R49, R412), also in one that has issued `DONE` or was never launched. A core that holds at its
`SYNC` issues nothing after it (R319); in loose mode, where the task parks, it holds there no longer. -/
def State.faultAll (s : State) (cs : List Nat) : State :=
  cs.foldl (fun t c =>
    let loose := match t.moorOf c with
      | some m => (t.moor m).loose
      | none => true
    if (t.core c).prim.faulted then t
    else (t.updSeq c .primary fun x => match x.hold with
      | .sync _ _ => if loose then { x with nextAt := t.now + 1, hold := .none } else { x with hold := .stopped }
      | _ => x).coreFault c 0) s

/-- `SYNC` (R49, R412). -/
def execSync (mask : BitVec 16) (s : State) : Out State :=
  let core := s.ctx.core
  s.ctl [] (s.secondaryProt .c ++ trapIf (!(mask.getLsbD (core % coresPerCluster))) (.sched .c 8)) fun t =>
    match s.otherMasks core mask with
    | [] => t.updCur fun x => { x with hold := .sync mask s.now }
    | ms => (t.updCur fun x => { x with hold := .sync mask s.now }).faultAll (maskCores core (ms.foldl (fun a b => a ||| b) mask))

/-- The virtual address that a gauge address of `WAITG` names. -/
def gaugeInfo (core ga : Nat) : Nat := spaceVa core (if bit ga 31 then .pool else .own) (ga % 2 ^ 21)

/-- `WAITG` (R249, R442). -/
def execWaitg (h : HRd) (limit : BitVec 17) (s : State) : Out State :=
  let v := (s.rd h.ref).val.toNat
  let ga := v % 2 ^ 32
  let info := gaugeInfo s.ctx.core ga
  let bad := ga == 0xFFFFFFFF || bits ga 21 10 != 0 || (!(bit ga 31) && decide (spadBytes ≤ ga % 2 ^ 21))
  s.ctl [h.ref] (s.poisonTraps .c [h.ref] ++ trapIf bad (.transl .c info) ++ trapIf (ga % 16 != 0) (.misal .c info)) fun t =>
    t.updCur fun x => { x with
      hold := .waitg (BitVec.ofNat 32 ga) (BitVec.ofNat 32 (v / 2 ^ 32)) s.now (s.now + limit.toNat) s.ctx.idle }

/-- `FENCE` (R273, R379). -/
def execFence (sc : FScope) (s : State) : Out State :=
  s.ctl [] [] fun t => t.updCur fun x => { x with hold := .fence sc s.now s.ctx.idle }

/-- `TFENCE` (R317): the test is made in the release cycle. -/
def execTfence (s : State) : Out State :=
  s.ctl [] [] fun t => t.updCur fun x => { x with hold := .tfence s.now s.ctx.idle }

/-! ### Ends and stops -/

/-- `DONE` (R34, R362). -/
def execDoneI (s : State) : Out State :=
  s.ctl [] [] fun t =>
    let u := t.updCur fun x => { x with
      run := .ended, loops := [], iters := Vector.replicate 8 none, branch := none, delay := 0 }
    match s.ctx.q with
    | .primary => u
    | .secondary => u.complete 0x83 0 0 (natBytes 2 s.ctx.core ++ natBytes 62 0)

/-- `TRAP` (R317, R416). -/
def execTrap (code : BitVec 8) (s : State) : Out State :=
  s.ctl [] [] fun t => t.stopTrap ⟨0x11, some 7, code.setWidth 64, true⟩

/-- `BRK` (R317, R354): nothing in timed code of normal mode. -/
def execBrk (tag : BitVec 16) (s : State) : Out State :=
  let stops := match s.ctx.q with
    | .secondary => true
    | .primary => match s.moorOf s.ctx.core with
      | some m => (s.moor m).loose
      | none => false
  s.ctl [] [] fun t => if stops then t.stopTrap ⟨0x12, some 7, tag.setWidth 64, true⟩ else t

/-! ### `WATCH` (R59, R60, R298, R443) -/

/-- A null item. -/
def nullItem : Word := 0x8000000000000000

def QEff.isWatch : QEff → Bool
  | .watch _ _ => true
  | _ => false

/-- The next item of a mooring's watch queue. -/
def State.takeItem (s : State) (c : Nat) : Word × State :=
  match s.moorOf c with
  | none => (nullItem, s)
  | some m => match (s.moor m).watchq with
    | [] => (nullItem, s)
    | i :: l => (i, s.updMoor m fun k => { k with watchq := l })

def execWatch (s : State) : Out State :=
  s.ctl [] (s.secondaryProt .c ++ trapIf (decide (4 ≤ (s.cur.queue.filter fun e => e.eff.isWatch).length)) (.sched .c 9))
    fun t =>
      let p := t.takeItem s.ctx.core
      (p.2.effect 24 (.watch s.cur.wcnt.toNat p.1)).updCur fun x => { x with wcnt := x.wcnt + 1 }

/-! ### `XMOV` (R63, R159, R445) -/

def File.vw : File → Option VW
  | .v => some .v
  | .w => some .w
  | _ => none

def execXmov (df : File) (d : Fin 32) (sf : File) (r : Fin 32) (s : State) : Out State :=
  let src : RRef := ⟨sf, r.val⟩
  let dst : RRef := ⟨df, d.val⟩
  let k := s.kore
  let eb := k.eb
  match File.vw sf, File.vw df with
  | none, none => s.issue ⟨.c, 1, [src], [⟨dst, 2⟩], [], false⟩ fun t => t.result dst 2 (s.rd src) 0 none
  | some f, none =>
    let n := k.rows f
    s.issue ⟨.c, n, [src], [⟨dst, n + 1⟩], [], false⟩ fun t => t.result dst (n + 1) ((k.vreg f r.val).elem eb 0) 0 none
  | none, some g =>
    let n := k.rows g
    s.issue ⟨.c, n, [src], [⟨dst, n + 1⟩], [], false⟩ fun t =>
      t.effect (n + 1) (.vec g d.val 0 eb (VReg.ofElems eb [s.rd src]))
  | some f, some g =>
    let n := k.rows f
    s.issue ⟨.c, n, [src], [⟨dst, n + 1⟩], [], false⟩ fun t =>
      t.effect (n + 1) (.vec g d.val 0 (k.tileBytes f) (VReg.ofElems eb ((k.vreg f r.val).list eb (k.elems f))))

end Sys2Proof.Machine
end

