-- ==== Sys2Proof/Machine/Region.lean ====
section
/-! DEFINITION. Sys2Proof/Machine/Region.lean: the ebb region table that the package-services unit keeps (R300), and status words
of engine commands (R250). -/

namespace Sys2Proof.Machine
open Config

/-! ### Frozen ranges (R304, R305) -/

def pieceSize : Nat := 0x10000

/-- A physical address lies in a frozen range (R305). -/
def State.frozenAt (s : State) (pa : Nat) : Bool :=
  s.moorings.toList.any fun k => match k.drain with
    | some d => d.pieces.contains (pa / pieceSize * pieceSize)
    | none => false

def State.frozenIn (s : State) (pa n : Nat) : Bool := s.frozenAt pa || s.frozenAt (pa + n - 1)

/-- A write of the Pilot's or of a unit's own tables; into a frozen range it does not perform (R305; log 37). -/
def State.putOwn (s : State) (pa : Nat) (bs : List Byte) : State := if s.frozenIn pa bs.length then s else s.putClean pa bs

/-! ### The region table (R300) -/

/-- The physical address of byte k of entry i of a mooring's region table, if it is mapped. -/
def State.regionPa (s : State) (m i k : Nat) : Option Nat := s.moorPa m ((s.moor m).ebbtab.toNat + 128 * i + k)

/-- An entry that counts as inactive. -/
def Region.off : Region := ⟨0, 0, false, false, false, 0, Vector.replicate 16 0⟩

/-- Entry i as it stands in memory. A VBASE in the own-scratchpad window counts as inactive (R447). -/
def State.readRegion (s : State) (m i : Nat) : Region :=
  match s.regionPa m i 0 with
  | none => Region.off
  | some pa =>
    let fl := s.num (pa + 12) 1
    let vb := s.num pa 8
    let words := s.num (pa + 8) 4
    ⟨vb, words, fl % 2 == 1 && decide (spadBytes ≤ vb) && decide (0 < words), fl / 2 % 2 == 1, fl / 4 % 2 == 1,
      s.num (pa + 13) 3, Vector.ofFn fun (j : Fin 16) => BitVec.ofNat 32 (s.num (pa + 64 + 4 * j.val) 4)⟩

/-- The bytes of a table write: among the writes of this cycle (R268), or now where these have performed. -/
def State.tableWrite (s : State) (m pa : Nat) (bs : List Byte) : State :=
  if s.frozenIn pa bs.length then s
  else if s.phase < 7 then
    { s with
      accesses := s.accesses ++ [⟨s.nextId, s.now, .late (some m), .phys pa, .store bs (bs.map fun _ => false) none, true, false, .any, 6, s.now, s.nextId⟩]
      nextId := s.nextId + 1 }
  else s.putClean pa bs

/-- The unit writes SW and LAST of an entry back to the table. -/
def State.writeRegion (s : State) (m i : Nat) : State :=
  match (s.moor m).regions[i]?, s.regionPa m i 0 with
  | some r, some pa =>
    let fl := s.num (pa + 12) 1
    let fl' := fl - fl / 4 % 2 * 4 + (if r.sw then 4 else 0)
    s.tableWrite m (pa + 12) (BitVec.ofNat 8 fl' :: natBytes 3 r.last)
  | _, _ => s

/-- Changes an entry that the unit keeps, and writes it back. -/
def State.updRegion (s : State) (m i : Nat) (f : Region → Region) : State :=
  (s.updMoor m fun k => { k with regions := k.regions.modify i f }).writeRegion m i

/-- The unit reads the table: LAST becomes `GSTEP`, in its copy and in the table. -/
def State.readRegions (s : State) (m : Nat) : State :=
  let g := (s.moor m).gstep.toNat % 2 ^ 24
  let rs := (List.range 16).map fun i => { s.readRegion m i with last := g }
  let s1 := s.updMoor m fun k => { k with regions := rs }
  (List.range 16).foldl (fun t i => t.writeRegion m i) s1

/-! ### Status of commands (R250) -/

def EClass.code : EClass → Nat
  | .mesh => 0
  | .copy => 1
  | .six => 2
  | .coll => 3
  | .cloys => 4
  | .nm => 5
  | .pkg => 6

def CmdSt.code : CmdSt → Nat
  | .none => 0
  | .waiting => 1
  | .running => 2
  | .done => 3
  | .faulted => 4
  | .part => 5

/-- The commands that a core issued to a unit, oldest first. -/
def State.unitCmds (s : State) (core cls inst : Nat) : List Cmd :=
  s.cmds.filter fun c => c.core == core && c.cls.code == cls && c.inst == inst

/-- The last 8 of them. -/
def lastEight {α : Type} (l : List α) : List α := l.drop (l.length - 8)

/-- The status word of the most recent of the last 8 commands of a unit with a block address. -/
def State.statusWord (s : State) (core cls inst block : Nat) : Word :=
  match (lastEight (s.unitCmds core cls inst)).reverse.find? fun c => c.block == block with
  | none => 0
  | some c => BitVec.ofNat 64 (2 ^ 63 + c.st.code * 2 ^ 60 + c.fl.toNat % 64 * 2 ^ 40 + c.code % 256 * 2 ^ 32 + c.doneBytes % 2 ^ 32)

end Sys2Proof.Machine
end

