-- ==== Sys2Proof/Machine/Landing.lean ====
section
/-! DEFINITION. Sys2Proof/Machine/Landing.lean: results that land at the start of a cycle (R42, R66, R78, R155, R315, R382). -/

namespace Sys2Proof.Machine
open Config

/-- A `VLDZ` entry that is ready turns into a result: the tile of the record (R280). -/
def settleEntry (now : Nat) (e : QEntry) : QEntry :=
  if e.ready now then
    match e.eff with
    | .vz f r n eb raw => { e with eff := .vec f r 0 (n * eb) (recTile raw n eb) }
    | _ => e
  else e

/-- An `ENGQ` entry that lands in the next cycle turns into a result: the status word as it stands at the end of this one (R366). -/
def State.snapEntry (s : State) (core : Nat) (e : QEntry) : QEntry :=
  match e.eff with
  | .engq r cls inst block => if e.due ≤ s.now + 1 then { e with eff := .reg r ⟨s.statusWord core cls inst block, 63, false⟩ } else e
  | _ => e
def State.snapSeq (s : State) (core : Nat) (q : Seq) (x : SeqState) : SeqState :=
  if x.frozen.isSome && q == .primary then x else { x with queue := x.queue.map (s.snapEntry core) }
/-- The `ENGQ` snapshots of a cycle, at its end. -/
def State.snapshots (s : State) (core : Nat) : State :=
  s.updCore core fun k => { k with prim := s.snapSeq core .primary k.prim, sec := s.snapSeq core .secondary k.sec }

/-- The primary's H entries that land in this cycle (R65). -/
def State.primH (s : State) (core : Nat) : List QEntry :=
  let x := s.seq core .primary
  if x.frozen.isSome then [] else x.queue.filter fun e => e.isH && e.ready s.now

/-- The entries that land now, and those that stay, in queue order. A secondary H write gives way while primary writes take both
ports or write the same register (R42). -/
def splitLand (now free : Nat) (taken : List RRef) : List QEntry → List QEntry × List QEntry
  | [] => ([], [])
  | e :: l =>
    if !e.ready now then
      let r := splitLand now free taken l
      (r.1, e :: r.2)
    else if e.isH then
      (if free == 0 || (match e.eff.dest with
          | some d => taken.contains d
          | none => false) then
        let r := splitLand now free taken l
        (r.1, e :: r.2)
      else
        let r := splitLand now (free - 1) taken l
        (e :: r.1, r.2))
    else
      let r := splitLand now free taken l
      (e :: r.1, r.2)

/-- The system registers of a core that the primary writes in this cycle (R382). -/
def State.primSys (s : State) (core : Nat) : List Nat :=
  let x := s.seq core .primary
  if x.frozen.isSome then []
  else x.queue.filterMap fun e => match e.eff with
    | .sys n _ => if e.ready s.now && (n == 2 || n == 3 || n == 4) then some n else none
    | _ => none

/-- A secondary write of `FMT`, `SHV` or `SHW` that meets a primary one takes effect a cycle later. -/
def deferSys (now : Nat) (ns : List Nat) (e : QEntry) : QEntry :=
  match e.eff with
  | .sys n _ => if ns.contains n && e.ready now then { e with notBefore := now + 1 } else e
  | _ => e

/-- Whether a deferred write still keeps R74 (R382). -/
def State.lateSysBad (s : State) (core : Nat) (e : QEntry) : Bool :=
  match e.eff with
  | .sys n v => decide (e.due < s.now) && (n == 2 || n == 3 || n == 4) && !((s.core core).fitsAt n v s.now)
  | _ => false

/-- One entry lands: its effect, its flags, its loss event. DESIGN CHOICE (log 39): a write of a mooring's register on a core that no loaded
mooring owns writes nothing. -/
def State.landOne (s : State) (core : Nat) (q : Seq) (e : QEntry) : State :=
  if s.lateSysBad core e then s.updSeq core q fun x => { x with flags := x.flags ||| fTF }
  else
    let s1 := s.updCore core fun k =>
      let k1 := k.landEff q e.eff
      k1.setSeq q (({ k1.seq q with flags := (k1.seq q).flags ||| e.flags ||| flagIf e.eff.poisons fPZ } : SeqState).lose e.loss)
    match e.eff, s.moorOf core with
    | .sys 0x0B v, some m => (s1.updMoor m fun k => { k with ebbtab := v }).readRegions m
    | .sys 0x0C v, some m => s1.updMoor m fun k => { k with lens := v }
    | _, _ => s1

/-- The entries in the order of their effects in one cycle. -/
def byRank (es : List QEntry) : List QEntry :=
  (List.range 4).flatMap fun r => es.filter fun e => e.eff.rank == r

/-- The results of a sequencer that land in this cycle. -/
def State.land (s : State) (core : Nat) (q : Seq) : State :=
  let x := s.seq core q
  if x.frozen.isSome && q == .primary then s
  else
    let hs := match q with
      | .primary => []
      | .secondary => s.primH core
    let free := match q with
      | .primary => x.queue.length
      | .secondary => 2 - hs.length
    let defer : QEntry → QEntry := match q with
      | .primary => id
      | .secondary => deferSys s.now (s.primSys core)
    let p := splitLand s.now free (hs.filterMap fun e => e.eff.dest) (x.queue.map fun e => settleEntry s.now (defer e))
    let s1 := s.updSeq core q fun y => { y with queue := p.2 }
    let s2 := (byRank p.1).foldl (fun t e => t.landOne core q e) s1
    match q with
    | .primary => s2.updCore core fun k => { k with dirty := k.dirty ||| dirtyBits x k.prim }
    | .secondary => s2

/-- `RESULT_LANDING`. -/
def execResultLanding (core : Nat) (q : Seq) (s : State) : Out State :=
  if core < nCores then .next (s.land core q) else .fault .noSuchUnit

/-- `WATCH_ITEM_LANDING`: the item lands with the other results of its cycle (R59); its own event lands those of watch
registers. -/
def execWatchItemLanding (core : Nat) (s : State) : Out State :=
  if core < nCores then
    let x := s.seq core .primary
    if x.frozen.isSome then .next s
    else
      let now := x.queue.filter fun e => e.eff.isWatch && e.ready s.now
      let s1 := s.updSeq core .primary fun y => { y with queue := y.queue.filter fun e => !(e.eff.isWatch && e.ready s.now) }
      .next (now.foldl (fun t e => t.landOne core .primary e) s1)
  else .fault .noSuchUnit

end Sys2Proof.Machine
end

