-- ==== Sys2Proof/Machine/Perform.lean ====
section
/-! DEFINITION. Sys2Proof/Machine/Perform.lean: accesses of the sequencers perform (R42, R79, R199, R200, R203, R247, R248, R266 to
R270). -/

namespace Sys2Proof.Machine
open Config

def State.findAccess (s : State) (id : Nat) : Option Access := s.accesses.find? fun a => a.id == id
def State.dropAccess (s : State) (id : Nat) : State := { s with accesses := s.accesses.filter fun a => a.id != id }

/-- Changes the queue entries that wait for an access. -/
def State.deliver (s : State) (a : Access) (f : QEntry → QEntry) : State :=
  match a.owner with
  | .seq c q => s.updSeq c q fun x => { x with queue := x.queue.map fun e => if e.held = some a.link then f e else e }
  | _ => s

/-- The access has performed: the entries that wait for no other access any more are complete. -/
def State.finish (s : State) (a : Access) : State :=
  let s1 := s.dropAccess a.id
  if s1.accesses.any fun b => b.link == a.link && b.owner == a.owner then s1 else s1.deliver a fun e => { e with held := none }

/-- The value of a scalar load of n bytes. -/
def loadValue (n : Nat) (sx : Bool) (bs : List Byte) : Word :=
  let w := BitVec.ofNat (8 * n) (leNat bs)
  if sx then w.signExtend 64 else w.setWidth 64

/-- Puts a scalar value into an entry. -/
def QEntry.put (v : Reg) (fl : Flg) (e : QEntry) : QEntry :=
  match e.eff with
  | .reg r _ => { e with eff := .reg r v, flags := e.flags ||| fl }
  | _ => e

/-- Puts loaded bytes into a vector entry. -/
def QEntry.putVec (lo : Nat) (bs : List Byte) (ps : List Bool) (ph : Nat) (plane : Option (List Byte)) (e : QEntry) : QEntry :=
  match e.eff with
  | .vec f r l n v => { e with eff := .vec f r l n (v.fill lo bs ps ph plane) }
  | .vz f r n eb v => { e with eff := .vz f r n eb (v.fill lo bs ps ph plane) }
  | _ => e

/-- Writes bytes at a place's lit copy. -/
def State.putPlace (s : State) (p : Place) (bs : List Byte) (ps : List Bool) : State :=
  s.putBytes (s.placePa p bs.length false) bs ps

/-- Sets flags of the sequencer of an access. -/
def State.flagAccess (s : State) (a : Access) (fl : Flg) : State :=
  match a.owner with
  | .seq c q => s.updSeq c q fun x => { x with flags := x.flags ||| fl }
  | _ => s

/-- A gauge word changes, its poison marks standing. -/
def State.putGauge (s : State) (pa : Nat) (g : List Byte) : State := s.putBytes pa g (s.poisons pa 16)

/-- A `SEND` lands at its target if that runs its program still, and has armed a reception from the sender for this cycle (R50, R200,
R405). -/
def State.landSend (s : State) (a : Access) (data : List Byte) (poi : Bool) (sender target : Nat) : State :=
  if (s.core target).recv.contains ⟨sender, s.now⟩ && (s.core target).hasProgram then
    (s.updCore target fun k => { k with recv := k.recv.filter fun r => r.cycle != s.now }).putPlace a.place data
      (data.map fun _ => poi)
  else s.coreFault target 0

/-- All raises of one word that perform in a cycle count as one raise by their sum (R247). -/
def State.raiseSum (s : State) (pa : Nat) : Nat :=
  s.accesses.foldl (fun n a => match a.kind with
    | .raise k => if a.t = s.now ∧ a.wait = false ∧ s.placePa a.place 16 true = pa then n + k else n
    | _ => n) 0

def State.dropRaises (s : State) (pa : Nat) : State :=
  { s with accesses := s.accesses.filter fun a => match a.kind with
    | .raise _ => !(a.t == s.now && !a.wait && s.placePa a.place 16 true == pa)
    | _ => true }

/-- What an access does. Engine steps are performed by EngineStep.lean. -/
def State.performOne (s : State) (a : Access) : State :=
  let n := a.kind.size
  let pa := s.accPa a
  match a.kind with
  | .load k sx plane _ =>
    let pl : Nat × Bool := match plane with
      | none => (63, false)
      | some p =>
        let b := s.word (s.placePa p 1 false) 1
        (b.1, b.2 || decide (64 ≤ b.1 % 128))
    let v : Reg := ⟨loadValue k sx (s.bytes pa k), BitVec.ofNat 6 pl.1, s.anyPoison pa k || pl.2⟩
    (s.deliver a (QEntry.put v 0)).finish a
  | .vload lo k ph plane =>
    let pn := (ph + k + 3) / 4
    let pl : Option (List Byte × List Bool) := plane.map fun p =>
      let q := s.placePa p pn false
      (s.bytes q pn, s.poisons q pn)
    let ps := (List.range k).map fun i => poisonAt s.poison (pa + i) || (match pl with
      | some l => l.2.getD ((ph + i) / 4) false
      | none => false)
    (s.deliver a (QEntry.putVec lo (s.bytes pa k) ps ph (pl.map (·.1)))).finish a
  | .store d ps plane =>
    let s1 := s.flagAccess a (s.accessFlags a)
    let s2 := s1.putBytes pa d ps
    let s3 := match plane with
      | some (p, l) => s2.putPlace p l (l.map fun _ => false)
      | none => s2
    s3.finish a
  | .atom op w64 x y =>
    let w := s.word pa n
    let o := atomRmw op w64 w.1 w.2 x y
    let s1 := s.flagAccess a o.fl
    let s2 := match o.new with
      | some (v, p) => s1.putBytes pa (natBytes n v) (List.replicate n p)
      | none => s1
    (s2.deliver a (QEntry.put ⟨BitVec.ofNat 64 o.ret.1, 63, o.ret.2⟩ 0)).finish a
  | .ebbld =>
    let w := s.word pa n
    let r := s.ebbAt a.place w.1
    (s.deliver a (QEntry.put ⟨BitVec.ofNat 64 r.w, BitVec.ofNat 6 r.s, w.2⟩ r.fl)).finish a
  | .ebbRead x ret =>
    let w := s.word pa n
    let lock : List HoldRec := if a.wait || a.owner.isSec then
        ((s.accessUses a s.now).filter fun u => !u.res.isPort).map fun u => ⟨s.now + 1, s.now + 24, u.res, some u.gran, .sec a.link, s.now, u.gran⟩
      else []
    ({ s with
      accesses := s.accesses ++ [{ a with id := s.nextId, t := s.now + 24, kind := .ebbWrite x (BitVec.ofNat 64 w.1) w.2 ret, wait := false }]
      nextId := s.nextId + 1, holds := s.holds ++ lock }).dropAccess a.id
  | .ebbWrite x old oldPoi ret =>
    let w : Nat × Bool := if a.owner.isSec then s.word pa n else (old.toNat, oldPoi)
    let r := s.mergeAt a.place w.1 (x.val.toNat % 2 ^ 32)
    let p := w.2 || x.poi
    let s1 := (s.flagAccess a (r.2 ||| flagIf p fPZ)).putBytes pa (natBytes 8 r.1) (List.replicate 8 p)
    ((if ret then s1.deliver a (QEntry.put ⟨BitVec.ofNat 64 w.1, 63, w.2⟩ 0) else s1).finish a)
  | .gauge tgt =>
    let g := gaugeArm (s.bytes pa 16) tgt
    ((s.putClean pa (g.take 8)).putClean (pa + 12) (g.drop 12)).finish a
  | .raise _ => ((s.putGauge pa (gaugeRaise (s.bytes pa 16) (s.raiseSum pa))).dropRaises pa).finish a
  | .close st => (s.putGauge pa (gaugeClose (s.bytes pa 16) st)).finish a
  | .send d poi sender target => (s.landSend a d poi sender target).finish a
  | .hostRead k => { s with hostData := s.hostData ++ [(a.id, s.bytes pa k)] }.finish a
  | .hostWrite d => (s.putBytes pa d (d.map fun _ => false)).finish a
  | .eng _ _ => s.finish a

/-! ### Giving way and open service (R42, R203) -/

/-- An access performs in phase 4 if it only reads, else in phase 5. -/
def AKind.reads : AKind → Bool
  | .load _ _ _ _ | .vload _ _ _ _ | .ebbld | .ebbRead _ _ | .hostRead _ => true
  | _ => false

/-- A bank-cycle is used by a secondary or open access. -/
def State.useSec (s : State) (a : Access) : State :=
  if a.owner.isSec || a.wait then s.addHold (.sec a.link) (s.accessUses a s.now) else s

/-- `SECONDARY_ACCESS_DEFERRED`: the access moves to the next cycle, and its result with it (R42). -/
def execSecondaryAccessDeferred (id : Nat) (s : State) : Out State :=
  match s.findAccess id with
  | none => .next s
  | some a =>
    if a.t = s.now ∧ s.secWaits a then
      .next { (s.deliver a fun e => { e with due := e.due + 1 }) with
        accesses := s.accesses.map fun b => if b.id = id then { b with t := s.now + 1 } else b }
    else .next s

/-- `SEND_LANDING`. -/
def execSendLanding (id : Nat) (s : State) : Out State :=
  match s.findAccess id with
  | none => .next s
  | some a => if a.t = s.now then .next (s.performOne a) else .next s

end Sys2Proof.Machine
end

