-- ==== Sys2Proof/Machine/Engine.lean ====
section
/-! DEFINITION. Sys2Proof/Machine/Engine.lean: what all engine commands share: the issue of an E-slot syllable (R102, R103, R346),
the block read, the head check (R244, R245), bank-cycles (R197), gauges (R247), faults and ends (R251, R318). -/

namespace Sys2Proof.Machine
open Config

def State.cmd (s : State) (id : Nat) : Option Cmd := s.cmds.find? fun c => c.id == id
def State.updCmd (s : State) (id : Nat) (f : Cmd → Cmd) : State :=
  { s with cmds := s.cmds.map fun c => if c.id = id then f c else c }

/-! ### Fields of a block -/

/-- A little-endian field of n bytes of a command block. -/
def Cmd.num (c : Cmd) (off n : Nat) : Nat := leNat ((c.blk.drop off).take n)
/-- All n bytes from off on are 0. -/
def Cmd.zero (c : Cmd) (off n : Nat) : Bool := ((c.blk.drop off).take n).all fun b => b == 0
def Cmd.startField (c : Cmd) : Nat := c.num 0 8
def Cmd.gaddr (c : Cmd) : Nat := c.num 8 4
def Cmd.gen (c : Cmd) : Nat := c.num 12 4
def noGauge : Nat := 0xFFFFFFFF
/-- A gauge address of a block keeps R244. -/
def gaugeOk (ga : Nat) : Bool := ga == noGauge || (gaugeOff ga).isSome

/-! ### Issue (R346) -/

/-- The bank-cycles of the block read: granule j in cycle t + 1 + j. -/
def State.blockUses (s : State) (a : Nat) : List Use :=
  (List.range 4).flatMap fun j => s.accUses .e .own (a + 16 * j) 16 .r (s.now + 1 + j)

/-- The traps of a block read, which is checked as accesses of its bundle (R211, R346). -/
def State.blockTraps (s : State) (a : Nat) : List Trap :=
  if a % 64 = 0 ∧ a ≤ 0x1FFC0 then (List.range 4).flatMap fun j => s.accTraps .e .own (a + 16 * j) 16 16 .r (s.now + 1 + j) 0 else []

/-- Commands that are kept for `ENGQ`: those that have not ended, and the last seven of the unit beside the new one. -/
def keepCmds (core : Nat) (cls : EClass) (inst : Nat) (l : List Cmd) : List Cmd :=
  let mine := l.filter fun c => c.core == core && c.cls == cls && c.inst == inst
  let old := (mine.take (mine.length - 7)).map (·.id)
  l.filter fun c => !(c.ended && old.contains c.id)

/-- A new command, with the four accesses that read its block. -/
def State.addCmd (s : State) (cls : EClass) (inst opc : Nat) (i : Instr) (a : Nat) : State :=
  let id := s.nextId
  let core := s.ctx.core
  let c : Cmd := ⟨id, core, s.ctx.q, s.moorOf core, cls, inst, opc, i, s.now, s.ctx.pc, a, s.kore.fmt, s.cur.sndbase,
    [], [], 0, .waiting, 0, 0, 0, 0, [], [], [], false⟩
  let rd (j : Nat) : Access := ⟨id + 1 + j, s.now + 1 + j, .cmd id, s.vplace (a + 16 * j) .r, .eng j 16, false, false, .own, 6, s.now, id⟩
  { s with
    cmds := keepCmds core cls inst s.cmds ++ [c]
    accesses := s.accesses ++ (List.range 4).map rd
    nextId := id + 5 }

/-- An E-slot command other than `ENGQ`. -/
def State.engine (s : State) (h : HRd) (cls : EClass) (inst opc : Nat) (i : Instr) (open_ : Bool) : Out State :=
  let a := (s.rd h.ref).val.toNat
  let us := if a % 64 = 0 ∧ a ≤ 0x1FFC0 then s.blockUses a else []
  s.issue ⟨.e, 1, [h.ref], [],
      (if open_ then [] else s.secondaryProt .e) ++ trapIf (decide (0x1FFC0 < a)) (.transl .e a) ++ trapIf (a % 64 != 0) (.misal .e a)
        ++ s.poisonTraps .e [h.ref] ++ s.blockTraps a, s.useWaits .own us⟩
    fun t => (t.holdUses .own us).addCmd cls inst opc i a

/-- `ENGQ` (R366): the status word lands in H four cycles after issue. -/
def execEngq (h : HRd) (cls : EClass) (inst : Fin 32) (s : State) : Out State :=
  s.issue ⟨.e, 1, [h.ref], [⟨h.ref, 4⟩], s.poisonTraps .e [h.ref], false⟩ fun t =>
    t.effect 4 (.engq h.ref cls.code inst.val ((s.rd h.ref).val.toNat % 2 ^ 32))

/-- Steps of a command at the start of a cycle: the block read, and steps that only set or check state; the others are numbered from
here on. -/
def firstLate : Nat := 8

/-! ### Ends and faults (R251, R318, R319) -/

/-- The number of a copy engine's buffer. -/
def copyUnit (cluster e : Nat) : Nat := 2 * cluster + e
def Cmd.cluster (c : Cmd) : Nat := c.core / coresPerCluster
def Cmd.unit (c : Cmd) : Nat := copyUnit c.cluster c.inst
def State.copyEng (s : State) (c : Cmd) : CopyEng := sget CopyEng.init s.copies c.unit
def State.updCopy (s : State) (c : Cmd) (f : CopyEng → CopyEng) : State :=
  { s with copies := sset CopyEng.init s.copies c.unit (f (s.copyEng c)) }

/-- A command that has ended leaves its copy engine's queue, and the open shares (R253, R360). -/
def State.leaveOpen (s : State) (c : Cmd) : State :=
  let s1 := if (s.copyEng c).openq.contains c.id then s.updCopy c fun e => { e with openq := e.openq.filter fun i => i != c.id } else s
  (s1.channels.filter fun k => k.2.openq.any fun r => r.who == .cmd c.id).foldl
    (fun t k => t.updChan k.1 fun x => { x with openq := x.openq.filter fun r => r.who != .cmd c.id }) s1

/-- The command makes no access any more, and holds nothing. -/
def State.dropWork (s : State) (id : Nat) : State :=
  { s with
    accesses := s.accesses.filter fun a => a.owner != .cmd id
    holds := s.holds.filter fun h => h.own != .eng id }

/-- The command ends with a state. -/
def State.endCmd (s : State) (id : Nat) (st : CmdSt) : State := s.updCmd id fun c => { c with st := st, ended := true }

/-- A timing fault of a command: its status, `ENGST`, and the fate of R318. Bytes already written stay. -/
def State.engineFault (s : State) (id code : Nat) : State :=
  match s.cmd id with
  | none => s
  | some c =>
    if c.ended then s
    else
      let s0 := if c.cls = .copy then s.leaveOpen c else s
      let s1 := ((s0.dropWork id).endCmd id .faulted).updCmd id fun x => { x with code := code }
      let s2 := s1.updCore c.core fun k => { k with engst := engstWord c.cls.code c.inst c.opc code c.block }
      match c.q with
      | .primary => s2.coreFault c.core code
      | .secondary => s2.timingFault c.core .secondary code 0

/-- The cycle of the fault that ends a mooring's task lies behind (R319). -/
def State.pubBarred (s : State) (m : Nat) : Bool :=
  match (s.moor m).st with
  | .ending d => decide (d < s.now + 8)
  | _ => false

/-- The task of a command runs in loose mode (R326). -/
def State.looseCmd (s : State) (c : Cmd) : Bool :=
  match c.mooring with
  | some m => (s.moor m).loose
  | none => false

/-! ### Addresses and bank-cycles -/

/-- How a command translates. -/
def Cmd.via (c : Cmd) : Via :=
  match c.q, c.mooring with
  | .primary, some m => .pins m
  | .primary, none => .nothing
  | .secondary, _ => .walk (c.core / coresPerCluster)

/-- The bytes of an engine access: an own-scratchpad address, or a full one (R207). Reads go to the lit copy, writes to the dark
copy (R211). None where it does not translate or leaves its range. -/
def State.engSpot (s : State) (c : Cmd) (va n : Nat) (p : Perm) : Option Spot :=
  if va < spadBytes ∧ spadBytes < va + n then none
  else match s.resolve (c.via) c.mooring c.core va n p (p == .w) with
    | .ok sp => some sp
    | _ => none

/-- The place of an engine access. -/
def State.engPlace (s : State) (c : Cmd) (va : Nat) (p : Perm) : Place := s.placeAt (c.via) c.core va p

/-- A use meets a hold of a primary access or of another command. -/
def State.engMeets (s : State) (id : Nat) (us : List Use) : Bool := us.any fun u => (s.meets u).any fun h => h.own != .eng id

/-- Bank-cycles of a pool or a vault that the wheel or the lateral network gives to others: where an access to the scratchpad has its other copy
there (R211). DESIGN CHOICE (log 39): the command's fault has CODE 0x05. -/
def Cmd.offBeat (c : Cmd) (us : List Use) : Bool := us.any fun u => u.offWheel c.core || u.offLateral .any c.cluster

/-- Records bank-cycles of a command. -/
def State.engHold (s : State) (id : Nat) (us : List Use) : State := s.addHold (.eng id) us

/-- The first cycle from t on that the wheel gives a core for the granule at a physical address (R202); t outside pools. -/
def wheelAt (core pa t : Nat) : Nat :=
  match resOf pa with
  | some (.pool _ b) => wheelNext (core % coresPerCluster) b t
  | _ => t

/-- An access of a command in a cycle. -/
def State.addEng (s : State) (id t : Nat) (p : Place) (k : AKind) (write : Bool) : State :=
  { s with
    accesses := s.accesses ++ [⟨s.nextId, t, .cmd id, p, k, write, false, .own, 6, s.now, id⟩]
    nextId := s.nextId + 1 }

/-- A numbered step that reads n bytes at a place. -/
def State.addRead (s : State) (id t step : Nat) (p : Place) (n : Nat) : State := s.addEng id t p (.eng step n) false
/-- A numbered step of the cycle's start or end, without an access of its own. -/
def State.addStep (s : State) (id t step : Nat) : State := s.addEng id t (.phys 0) (.eng step 0) false
/-- A numbered step among the writes of the cycle. -/
def State.addLate (s : State) (id t step : Nat) : State := s.addEng id t (.phys 0) (.eng step 0) true
/-- A write of bytes, with their poison and their plane bytes. -/
def State.addWrite (s : State) (id t : Nat) (p : Place) (bs : List Byte) (ps : List Bool) (plane : Option (Place × List Byte)) : State :=
  s.addEng id t p (.store bs ps plane) true

/-! ### Gauges (R244, R245, R247) -/

/-- The place of a gauge word that a command names. -/
def State.gaugePlace (s : State) (c : Cmd) (ga : Nat) (p : Perm) : Place :=
  match gaugeOff ga with
  | some g => s.engPlace c (gaugeVa c.core g) p
  | none => .phys 0

/-- The bank-cycles of a raise at a place in a cycle: none beyond those of another raise, or of a `GAUGE`, of the word. -/
def State.raiseUses (s : State) (p : Place) (t : Nat) : List Use :=
  let pa := s.placePa p 16 true
  if s.raisedAt pa t || s.armedAt pa t then [] else (s.placeSpot p 16).uses 16 t
/-- The bank-cycles of a raise or close of a gauge word that a command names. -/
def State.gaugeUses (s : State) (c : Cmd) (ga t : Nat) : List Use :=
  if ga = noGauge then [] else s.raiseUses (s.gaugePlace c ga .w) t

/-- The cycle of a raise that goes with a write of cycle t: in a pool, the first that the wheel gives (R202). -/
def State.gaugeCycle (s : State) (c : Cmd) (ga t : Nat) : Nat :=
  if ga = noGauge then t else wheelAt c.core (s.placePa (s.gaugePlace c ga .w) 16 true) t

/-- Schedules a raise by n bytes, or a close with a status, for cycle t. -/
def State.addGauge (s : State) (c : Cmd) (ga t : Nat) (k : AKind) : State :=
  if ga = noGauge then s
  else { s with
    accesses := s.accesses ++ [⟨s.nextId, t, .cmd c.id, s.gaugePlace c ga .w, k, true, false, .own, 6, s.now, c.id⟩]
    nextId := s.nextId + 1 }

/-- A raise in cycle t whose bank-cycle is held already, which performs whatever becomes of its command. -/
def State.raiseLate (s : State) (c : Cmd) (ga n t : Nat) : State :=
  if ga = noGauge then s
  else
    let s1 := { s with
      accesses := s.accesses ++ [⟨s.nextId, t, .late c.mooring, s.gaugePlace c ga .w, .raise n, true, false, .own, 6, s.now, s.nextId⟩]
      nextId := s.nextId + 1 }
    if t = s.now then { s1 with agenda := s1.agenda ++ [⟨.plain, .accessPerform s.nextId⟩] } else s1

/-- The part of a cycle in which accesses write. -/
def writePart : Nat := 7

/-- A write that performs whatever becomes of its command, in the first cycle from t on in which its banks are free (DESIGN CHOICE, log 39): with
the writes of this cycle, if it can. -/
def State.addFree (s : State) (c : Cmd) (t : Nat) (p : Place) (k : AKind) : State :=
  { s with
    accesses := s.accesses ++ [⟨s.nextId, t, .late c.mooring, p, k, true, true, .own, 6, s.now, c.id⟩]
    nextId := s.nextId + 1
    agenda := if s.phase = writePart then ⟨.plain, .openPoolService s.nextId⟩ :: s.agenda else s.agenda }

/-- Closes a gauge where a command ends early: in this cycle, or in a pool that timed code reaches in the first that the wheel gives (R202,
R247). -/
def State.closeNow (s : State) (c : Cmd) (ga status : Nat) : State :=
  if ga = noGauge then s
  else s.addFree c (if c.q = .primary then s.gaugeCycle c ga s.now else s.now) (s.gaugePlace c ga .w) (.close status)
/-- The raise that goes with a write of an open command (R203, R247). -/
def State.raiseOpen (s : State) (c : Cmd) (ga n : Nat) : State :=
  if ga = noGauge then s else s.addFree c s.now (s.gaugePlace c ga .w) (.raise n)

/-- The check of the head at START (R245): 0, or the code of the fault. -/
def State.headCode (s : State) (c : Cmd) : Nat :=
  if c.gaddr = noGauge then 0
  else
    let pa := s.placePa (s.gaugePlace c c.gaddr .r) 16 false
    if !genReached (s.num (pa + 8) 4) c.gen then 1
    else if s.num (pa + 12) 1 ≠ 0 then 2
    else 0

/-- Adds to the bytes written and to the flags of a command. -/
def State.tally (s : State) (id n : Nat) (fl : Flg) : State :=
  s.updCmd id fun c => { c with doneBytes := c.doneBytes + n, fl := c.fl ||| (fl.setWidth 6).setWidth 8 }

/-- The writes of an engine go to the dark copy of a lens range. -/
def State.engWrite (s : State) (p : Place) (bs : List Byte) (ps : List Bool) : State :=
  s.putBytes (s.placePa p bs.length true) bs ps

end Sys2Proof.Machine
end

