-- ==== Sys2Proof/Machine/Vector.lean ====
section
/-! DEFINITION. Sys2Proof/Machine/Vector.lean: the instructions of slots V and W on tiles (R135 to R140, R157, R160, R281, R417 to
R427, R432 to R441). VecMem.lean holds those that reach memory. -/

namespace Sys2Proof
open Sys2Proof.Machine

/-- The FP format of the elements of a code of `FMT`: FP32 under an SX code (R72). -/
def Form.fp : Form → Option Fmt
  | .fp32 | .sx4 | .sx8 | .sx16 => some fmt32
  | .fp16 => some fmt16
  | .bf16 => some fmtB16
  | _ => none
/-- The signed integers of an integer code. -/
def Form.int : Form → IntTy
  | .int8 => ⟨8, true⟩
  | .int16 => ⟨16, true⟩
  | _ => ⟨32, true⟩
def Form.isFp (f : Form) : Bool := f.fp.isSome
def Form.isSx (f : Form) : Bool := (sxOf f).isSome

end Sys2Proof

namespace Sys2Proof.Machine

/-! ### Tiles in and out (R417) -/

/-- One result element with its flags and whether it is a loss event (R152). -/
structure EOut where
  reg : Reg
  fl : Flg
  loss : Bool
  deriving DecidableEq, Repr

/-- An integer, logical or moved element: no flag, no loss event. -/
def EOut.plain (r : Reg) : EOut := ⟨r, 0, false⟩
/-- A raw result with sounding 63. -/
def EOut.raw (w : Nat) (poi : Bool) : EOut := .plain ⟨BitVec.ofNat 64 w, 63, poi⟩
/-- An FP result (R110, R143, R152). -/
def EOut.fp (thr : Nat) (o : FpOut) (poi : Bool) : EOut :=
  ⟨⟨BitVec.ofNat 64 o.w, BitVec.ofNat 6 o.snd, poi⟩, o.fl, lossEvent thr o.srcs o.snd⟩

/-- ⌈a/b⌉. -/
def ceilDiv (a b : Nat) : Nat := (a + b - 1) / b

/-- The classes of R80: cycles from issue to landing for n elements. -/
def latInt (n : Nat) : Nat := 2 + ceilDiv n 32 - 1
def latFp (n : Nat) : Nat := 4 + ceilDiv n 32 - 1
def latRed (n : Nat) : Nat := 9 + ceilDiv n 32 - 1
def latFun (n : Nat) : Nat := 8 + ceilDiv n 32 - 1

/-- A register of a vector file. -/
def vref (f : VW) (n : Nat) : RRef := ⟨f.file, n⟩

/-- The elements of a tile of the slot's file, under the format of the core. -/
def State.tile (s : State) (f : VW) (r : Nat) : List Reg := (s.kore.vreg f r).list s.kore.eb (s.kore.elems f)

/-- The element that an H register broadcasts: its low 8 × eb bits (R135). -/
def Reg.low (r : Reg) (eb : Nat) : Reg := ⟨BitVec.ofNat 64 (r.val.toNat % 2 ^ (8 * eb)), r.snd, r.poi⟩

/-- The elements of an operand: a tile, or an H value in every element. -/
def State.opnd (s : State) (f : VW) : Src 16 → List Reg
  | .own r => s.tile f r.val
  | .h _ r => List.replicate (s.kore.elems f) ((s.rd ⟨.h, r.val⟩).low s.kore.eb)

/-- Elements of eb bytes land in a register from its first byte on. -/
def State.vland (s : State) (f : VW) (d lat eb : Nat) (es : List EOut) : State :=
  let fl := es.foldl (fun a e => a ||| e.fl) 0
  s.push ⟨s.now + lat, .vec f d 0 (es.length * eb) (VReg.ofElems eb (es.map (·.reg))), fl,
    if es.any (·.loss) then some (slotIx f.slot, s.ctx.pc) else none, none, false, 0, none, s.now⟩

/-- A syllable of the V and W map: the formats that it admits (R418), the registers that it reads, its latency, its elements. -/
def State.vop (s : State) (f : VW) (ok : Bool) (reads : List RRef) (d : Fin 16) (lat eb : Nat) (es : List EOut) : Out State :=
  s.issue ⟨f.slot, ceilDiv (s.kore.elems f) 32, reads, [⟨vref f d.val, lat⟩], trapIf (!ok) (.illegal f.slot), false⟩
    fun t => t.vland f d.val lat eb es

def zipWith3 {α β γ δ : Type} (g : α → β → γ → δ) : List α → List β → List γ → List δ
  | a :: l, b :: m, c :: n => g a b c :: zipWith3 g l m n
  | _, _, _ => []

/-! ### Floating point (R160, R420, R426) -/

/-- The format of FP elements now: FP32 where the code is an integer one, which R418 refuses. -/
def State.vfmt (s : State) : Fmt := (s.kore.form.fp).getD fmt32

/-- A binary FP instruction. -/
def State.vfp2 (s : State) (f : VW) (d a : Fin 16) (b : Src 16) (op : Fmt → Reg → Reg → FpOut) : Out State :=
  let thr := s.cur.sndthr.toNat
  s.vop f s.kore.form.isFp [vref f a.val, Src.ref f.file b] d (latFp (s.kore.elems f)) s.kore.eb
    (List.zipWith (fun x y => EOut.fp thr (op s.vfmt x y) (x.poi || y.poi)) (s.tile f a.val) (s.opnd f b))

def execVadd (sl : VW) (d a : Fin 16) (b : Src 16) (rm : RM) (s : State) : Out State := s.vfp2 sl d a b fun f => fpAdd f rm
def execVsub (sl : VW) (d a : Fin 16) (b : Src 16) (rm : RM) (s : State) : Out State := s.vfp2 sl d a b fun f => fpSub f rm
def execVmul (sl : VW) (d a : Fin 16) (b : Src 16) (rm : RM) (s : State) : Out State := s.vfp2 sl d a b fun f => fpMul f rm
/-- `VFMA` reads d (R420). -/
def execVfma (sl : VW) (d a : Fin 16) (b : Src 16) (rm : RM) (s : State) : Out State :=
  let thr := s.cur.sndthr.toNat
  s.vop sl s.kore.form.isFp [vref sl a.val, Src.ref sl.file b, vref sl d.val] d (latFp (s.kore.elems sl)) s.kore.eb
    (zipWith3 (fun x y z => EOut.fp thr (fpFma s.vfmt rm x y z) (x.poi || y.poi || z.poi)) (s.tile sl a.val) (s.opnd sl b)
      (s.tile sl d.val))

/-- A one-operand function on FP elements. -/
def State.vfun (s : State) (f : VW) (d a : Fin 16) (op : Fmt → Reg → FpOut) : Out State :=
  let thr := s.cur.sndthr.toNat
  s.vop f s.kore.form.isFp [vref f a.val] d (latFun (s.kore.elems f)) s.kore.eb
    ((s.tile f a.val).map fun x => EOut.fp thr (op s.vfmt x) x.poi)

def execVexp2 (sl : VW) (d a : Fin 16) (rm : RM) (s : State) : Out State := s.vfun sl d a fun f => fpUnary f (f.exp2 rm) (-1)
def execVrcp (sl : VW) (d a : Fin 16) (rm : RM) (s : State) : Out State := s.vfun sl d a fun f => fpUnary f (f.rcp rm) (-1)
def execVrsq (sl : VW) (d a : Fin 16) (rm : RM) (s : State) : Out State := s.vfun sl d a fun f => fpUnary f (f.rsq rm) (-1)

/-! ### Either kind of element (R419, R423, R432, R433) -/

/-- The signed integer of an element. -/
def Reg.sint (r : Reg) (t : IntTy) : Int := t.dec r.val.toNat

/-- `VABS` and `VNEG`: the integer latency whatever the format. -/
def State.vsign (s : State) (f : VW) (d a : Fin 16) (neg : Bool) : Out State :=
  let thr := s.cur.sndthr.toNat
  let one (x : Reg) : EOut :=
    match s.kore.form.fp with
    | some g => EOut.fp thr (fpSign g neg x) x.poi
    | none =>
      let t := s.kore.form.int
      let v := x.sint t
      EOut.raw (t.enc (if neg then -v else if v < 0 then -v else v)) x.poi
  s.vop f true [vref f a.val] d (latInt (s.kore.elems f)) s.kore.eb ((s.tile f a.val).map one)

def execVabs (sl : VW) (d a : Fin 16) (s : State) : Out State := s.vsign sl d a false
def execVneg (sl : VW) (d a : Fin 16) (s : State) : Out State := s.vsign sl d a true

/-- The signed comparison of integer elements; `.un` is false (R423). -/
def intCmp (c : Cond) (x y : Int) : Bool :=
  match c with
  | .eq => x == y
  | .lt => decide (x < y)
  | .le => decide (x ≤ y)
  | .un => false
  | .ne => x != y

def execVcmp (sl : VW) (d a : Fin 16) (b : Src 16) (c : Cond) (s : State) : Out State :=
  let w := 8 * s.kore.eb
  let one (x y : Reg) : EOut :=
    let r : Bool × Flg := match s.kore.form.fp with
      | some f => f.compare c (x.fpBits f) (y.fpBits f)
      | none => (intCmp c (x.sint s.kore.form.int) (y.sint s.kore.form.int), 0)
    ⟨⟨BitVec.ofNat 64 (if r.1 then 2 ^ w - 1 else 0), 63, x.poi || y.poi⟩, r.2, false⟩
  s.vop sl true [vref sl a.val, Src.ref sl.file b] d (latFp (s.kore.elems sl)) s.kore.eb
    (List.zipWith one (s.tile sl a.val) (s.opnd sl b))

/-- The greater or lesser element; of two equal ones, the first (R113, R432). -/
def State.pick (s : State) (isMax : Bool) (x y : Reg) : FpOut :=
  match s.kore.form.fp with
  | some f => fpMinmax f isMax x y
  | none =>
    let t := s.kore.form.int
    let first := if isMax then decide (y.sint t ≤ x.sint t) else decide (x.sint t ≤ y.sint t)
    ⟨(if first then x else y).val.toNat, 63, 0, []⟩

def State.vminmax (s : State) (f : VW) (d a : Fin 16) (b : Src 16) (isMax : Bool) : Out State :=
  let thr := s.cur.sndthr.toNat
  s.vop f true [vref f a.val, Src.ref f.file b] d (latFp (s.kore.elems f)) s.kore.eb
    (List.zipWith (fun x y => EOut.fp thr (s.pick isMax x y) (x.poi || y.poi)) (s.tile f a.val) (s.opnd f b))

def execVmax (sl : VW) (d a : Fin 16) (b : Src 16) (s : State) : Out State := s.vminmax sl d a b true
def execVmin (sl : VW) (d a : Fin 16) (b : Src 16) (s : State) : Out State := s.vminmax sl d a b false

/-- `VSUM` of the elements of one line (R433). -/
def sumLine (form : Form) : List Reg → FpOut
  | [] => ⟨0, 63, 0, []⟩
  | x :: l =>
    match form.fp with
    | none =>
      let t := form.int
      ⟨t.enc (l.foldl (fun n y => n + y.sint t) (x.sint t)), 63, 0, []⟩
    | some f =>
      let up (y : Reg) : FV :=
        let r := f.cvt fmt32 .rne (y.fpBits f)
        ⟨if f = fmt32 then y.fpBits f else r.1, y.fpSnd f, if f = fmt32 then 0 else r.2⟩
      let acc := l.foldl (fun a y => add32 a (up y)) (up x)
      let z := fmt32.cvt f .rne acc.w
      ⟨z.1, f.soundClamp acc.s z.1, acc.fl ||| (up x).fl ||| l.foldl (fun a y => a ||| (up y).fl) 0 ||| z.2,
        (x :: l).map (fun y => y.fpSnd f)⟩

/-- The greatest of a line of one element: the element itself, and of a NaN the canonical NaN (R112), with NV where it signals (R110). -/
def Fmt.maxOne (f : Fmt) (x : Reg) : FpOut :=
  match f.dec (x.fpBits f) with
  | .nan sg => ⟨f.qnan, 0, flagIf sg fNV, [x.fpSnd f]⟩
  | _ => ⟨x.fpBits f, f.carry (x.fpBits f) (x.fpSnd f), 0, [x.fpSnd f]⟩

/-- `VMAXR` of the elements of one line. -/
def State.maxLine (s : State) : List Reg → FpOut
  | [] => ⟨0, 63, 0, []⟩
  | [x] => match s.kore.form.fp with
    | some g => g.maxOne x
    | none => ⟨x.val.toNat, 63, 0, []⟩
  | x :: l =>
    let f := s.vfmt
    let start : FpOut := match s.kore.form.fp with
      | some g => ⟨x.fpBits g, g.carry (x.fpBits g) (x.fpSnd g), 0, [x.fpSnd g]⟩
      | none => ⟨x.val.toNat, 63, 0, []⟩
    l.foldl (fun a y =>
      let r := s.pick true ⟨BitVec.ofNat 64 a.w, BitVec.ofNat 6 a.snd, false⟩ y
      ⟨r.w, r.snd, a.fl ||| r.fl, if s.kore.form.isFp then a.srcs ++ [y.fpSnd f] else []⟩) start

/-- A reduction along an axis: line i gives the first element of its row or column; the rest of the shape lands as +0. -/
def State.reduce (s : State) (f : VW) (d a : Fin 16) (cols : Bool) (line : List Reg → FpOut) : Out State :=
  let thr := s.cur.sndthr.toNat
  let C := s.kore.cols f
  let R := s.kore.rows f
  let xs := s.tile f a.val
  let one (i : Nat) : EOut :=
    let l : Option (List Reg) :=
      if cols then (if i < C then some ((List.range R).map fun r => xs.getD (r * C + i) Reg.zero) else none)
      else if i % C = 0 then some ((xs.drop i).take C) else none
    match l with
    | none => EOut.plain Reg.zero
    | some l => EOut.fp thr (line l) (l.any (·.poi))
  s.vop f true [vref f a.val] d (latRed (s.kore.elems f)) s.kore.eb ((List.range (s.kore.elems f)).map one)

def execVsum (sl : VW) (d a : Fin 16) (cols : Bool) (s : State) : Out State := s.reduce sl d a cols (sumLine s.kore.form)
def execVmaxr (sl : VW) (d a : Fin 16) (cols : Bool) (s : State) : Out State := s.reduce sl d a cols s.maxLine

/-! ### Integers and raw bits (R136 to R139, R421, R427, R434 to R437) -/

/-- A binary operation on raw elements, at the integer latency. -/
def State.vraw2 (s : State) (f : VW) (ok : Bool) (d a : Fin 16) (b : Src 16) (op : Nat → Nat → Nat) : Out State :=
  s.vop f ok [vref f a.val, Src.ref f.file b] d (latInt (s.kore.elems f)) s.kore.eb
    (List.zipWith (fun x y => EOut.raw (op x.val.toNat y.val.toNat) (x.poi || y.poi)) (s.tile f a.val) (s.opnd f b))

/-- The same on signed integers, wrapped or saturated (R117). -/
def State.vint2 (s : State) (f : VW) (d a : Fin 16) (b : Src 16) (sat : Bool) (op : Int → Int → Int) : Out State :=
  let t := s.kore.form.int
  s.vraw2 f (!s.kore.form.isFp) d a b fun x y =>
    let r := op (t.dec x) (t.dec y)
    t.enc (if sat then t.sat r else r)

def execViadd (sl : VW) (d a : Fin 16) (b : Src 16) (sat : Bool) (s : State) : Out State := s.vint2 sl d a b sat fun x y => x + y
def execVisub (sl : VW) (d a : Fin 16) (b : Src 16) (sat : Bool) (s : State) : Out State := s.vint2 sl d a b sat fun x y => x - y
def execVimul (sl : VW) (d a : Fin 16) (b : Src 16) (sat : Bool) (s : State) : Out State := s.vint2 sl d a b sat fun x y => x * y
/-- `VIMAC` adds INT16 products into INT32 elements of d (R136). -/
def execVimac (sl : VW) (d a : Fin 16) (b : Src 16) (sat : Bool) (s : State) : Out State :=
  let n := s.kore.elems sl
  let h : IntTy := ⟨16, true⟩
  let t : IntTy := ⟨32, true⟩
  let one (z x y : Reg) : EOut :=
    let r := z.sint t + x.sint h * y.sint h
    EOut.raw (t.enc (if sat then t.sat r else r)) (x.poi || y.poi || z.poi)
  s.vop sl (s.kore.form == .int16 && decide (n * 4 ≤ 2048)) [vref sl a.val, Src.ref sl.file b, vref sl d.val] d (latInt n) 4
    (zipWith3 one ((s.kore.vreg sl d.val).list 4 n) (s.tile sl a.val) (s.opnd sl b))

def execVand (sl : VW) (d a : Fin 16) (b : Src 16) (s : State) : Out State := s.vraw2 sl true d a b fun x y => x &&& y
def execVor (sl : VW) (d a : Fin 16) (b : Src 16) (s : State) : Out State := s.vraw2 sl true d a b fun x y => x ||| y
def execVxor (sl : VW) (d a : Fin 16) (b : Src 16) (s : State) : Out State := s.vraw2 sl true d a b fun x y => x ^^^ y

/-- A shift of an element of w bits (R139). -/
def shlElem (w x c : Nat) : Nat := if w ≤ c then 0 else x * 2 ^ c % 2 ^ w
def shrElem (w : Nat) (arith : Bool) (x c : Nat) : Nat :=
  if arith then (⟨w, true⟩ : IntTy).enc ((⟨w, true⟩ : IntTy).dec x / (2 ^ c : Nat)) else if w ≤ c then 0 else x / 2 ^ c

def State.vshift (s : State) (f : VW) (d a : Fin 16) (c : VSh) (op : Nat → Nat → Nat) : Out State :=
  match c with
  | .imm n =>
    s.vop f true [vref f a.val] d (latInt (s.kore.elems f)) s.kore.eb
      ((s.tile f a.val).map fun x => EOut.raw (op x.val.toNat n.val) x.poi)
  | .op b => s.vraw2 f true d a b fun x y => op x (y % 32)

def execVshl (sl : VW) (d a : Fin 16) (c : VSh) (s : State) : Out State := s.vshift sl d a c (shlElem (8 * s.kore.eb))
def execVshr (sl : VW) (d a : Fin 16) (c : VSh) (arith : Bool) (s : State) : Out State :=
  s.vshift sl d a c (shrElem (8 * s.kore.eb) arith)

/-- The limits of `VSAT` (R435). -/
def satRange (u : Bool) (range : Nat) : Int × Int :=
  let k := 8 * 2 ^ range
  if u then (0, 2 ^ k - 1) else (-(2 ^ (k - 1)), 2 ^ (k - 1) - 1)

def execVsat (sl : VW) (d a : Fin 16) (u : Bool) (range : Fin 4) (s : State) : Out State :=
  let t := s.kore.form.int
  let lim := satRange u range.val
  let one (x : Reg) : EOut :=
    let v := x.sint t
    EOut.raw (t.enc (if v < lim.1 then lim.1 else if lim.2 < v then lim.2 else v)) x.poi
  s.vop sl (!s.kore.form.isFp) [vref sl a.val] d (latInt (s.kore.elems sl)) s.kore.eb ((s.tile sl a.val).map one)

/-- The element of `VMOVI` (R138). -/
def moviElem (form : Form) (i : BitVec 16) : Nat :=
  match form with
  | .int8 | .int16 | .int32 => form.int.enc i.toInt
  | .fp16 | .bf16 => i.toNat
  | _ => (fmt16.cvt fmt32 .rne i.toNat).1

/-- DESIGN CHOICE (log 39): a signalling NaN of `FP16` becomes the canonical NaN of `FP32` and sets no flag, since R138 and R434 name none. -/
def execVmovi (sl : VW) (d : Fin 16) (i : BitVec 16) (s : State) : Out State :=
  s.vop sl true [] d (latInt (s.kore.elems sl)) s.kore.eb
    (List.replicate (s.kore.elems sl) (EOut.raw (moviElem s.kore.form i) false))

/-! ### Movement (R137, R422, R436, R438, R440) -/

def execVbcast (sl : VW) (d : Fin 16) (h : HRd) (s : State) : Out State :=
  s.vop sl true [h.ref] d (latInt (s.kore.elems sl)) s.kore.eb
    (List.replicate (s.kore.elems sl) (EOut.plain ((s.rd h.ref).low s.kore.eb)))

/-- `VSEL` tests d on its raw bits, and its poison joins that of the operand chosen (R436). -/
def execVsel (sl : VW) (d a : Fin 16) (b : Src 16) (s : State) : Out State :=
  let one (z x y : Reg) : EOut :=
    let c := if z.val = 0 then y else x
    EOut.plain { c with poi := c.poi || z.poi }
  s.vop sl true [vref sl a.val, Src.ref sl.file b, vref sl d.val] d (latInt (s.kore.elems sl)) s.kore.eb
    (zipWith3 one (s.tile sl d.val) (s.tile sl a.val) (s.opnd sl b))

/-- Element i of `VSLIDE` (R137). -/
def slideElem (xs ys : List Reg) (n : Nat) (up : Bool) (k i : Nat) : Reg :=
  if up then (if k ≤ i then xs.getD (i - k) Reg.zero else if k ≤ n + i then ys.getD (n + i - k) Reg.zero else Reg.zero)
  else if i + k < n then xs.getD (i + k) Reg.zero
  else ys.getD (i + k - n) Reg.zero

def execVslide (sl : VW) (d a : Fin 16) (b : Src 16) (up : Bool) (k : Fin 64) (s : State) : Out State :=
  let n := s.kore.elems sl
  let xs := s.tile sl a.val
  let ys := s.opnd sl b
  s.vop sl true [vref sl a.val, Src.ref sl.file b] d (latInt n) s.kore.eb
    ((List.range n).map fun i => EOut.plain (slideElem xs ys n up k.val i))

/-- `VTRN`: element c × rows + r of d is element (r, c) of the source (R440). -/
def execVtrn (sl : VW) (d a : Fin 16) (s : State) : Out State :=
  let R := s.kore.rows sl
  let C := s.kore.cols sl
  let xs := s.tile sl a.val
  s.vop sl true [vref sl a.val] d (latInt (s.kore.elems sl)) s.kore.eb
    ((List.range (s.kore.elems sl)).map fun i => EOut.plain (xs.getD (i % R * C + i / R) Reg.zero))

/-- `VSND` and `VSND.set` (R157, R439). -/
def execVsnd (sl : VW) (d a : Fin 16) (set : Bool) (n : Fin 64) (s : State) : Out State :=
  let f := s.vfmt
  let one (x : Reg) : EOut :=
    if set then EOut.plain { x with snd := BitVec.ofNat 6 n.val } else EOut.raw (f.ofInt .rne (x.fpSnd f)).1 x.poi
  s.vop sl s.kore.form.isFp [vref sl a.val] d (latInt (s.kore.elems sl)) s.kore.eb ((s.tile sl a.val).map one)

/-- `VZMAP`: the zero flags of 64 words, whatever the shape (R281). -/
def execVzmap (sl : VW) (d : Fin 32) (a : Fin 16) (g : Fin 8) (s : State) : Out State :=
  let dr : RRef := ⟨.h, d.val⟩
  s.issue ⟨sl.slot, 1, [vref sl a.val], [⟨dr, 2⟩], [], false⟩ fun t =>
    t.result dr 2 ⟨(s.kore.vreg sl a.val).zf.extractLsb' (64 * g.val) 64, 63, false⟩ 0 none

/-! ### Conversion (R140, R424, R425) -/

/-- Whether `VCVT` from S to D is admitted (R424). -/
def cvtOk (src dst : Form) (rm : RM) (sat : Bool) (n : Nat) : Bool :=
  let same := match src.fp, dst.fp with
    | some f, some g => f == g && !dst.isSx
    | none, none => src == dst
    | _, _ => false
  !same && !(sat && (src.isFp || dst.isFp)) && (rm == .rne || !((!src.isFp && !dst.isFp) || dst.isSx))
    && !(dst.isSx && !src.isFp) && decide (n * Nat.max (formBytes src) (formBytes dst) ≤ 2048)

/-- One element of `VCVT`, but for the quantising form (R425). -/
def cvtElem (src dst : Form) (rm : RM) (sat : Bool) (x : Reg) : FpOut :=
  match src.fp, dst.fp with
  | some f, some g =>
    let r := f.cvt g rm (x.fpBits f)
    ⟨r.1, g.soundClamp (Nat.min (x.fpSnd f) g.p) r.1, r.2, [x.fpSnd f]⟩
  | some f, none =>
    let r := f.toInt dst.int rm (x.fpBits f)
    ⟨r.1, 63, r.2, []⟩
  | none, some g =>
    let r := g.ofInt rm (x.sint src.int)
    ⟨r.1, g.soundClamp g.p r.1, r.2, []⟩
  | none, none =>
    let v := x.sint src.int
    ⟨dst.int.enc (if sat then dst.int.sat v else v), 63, 0, []⟩

/-- One block of 32 elements quantised and decoded back (R124 to R126). -/
def quantBlock (x : Sx) (es : List Reg) : List FpOut :=
  let q := x.quantise ((es.map fun e => e.val.toNat) ++ List.replicate (32 - es.length) 0)
  let d := x.decodeBlock q.1
  let fl := q.2 ||| d.2
  List.zipWith (fun e w =>
    let s := e.fpSnd fmt32
    let sn := if (fmt32.dec w).isZero then (if (fmt32.dec e.val.toNat).isZero then s else 0) else fmt32.soundClamp (Nat.min s x.m) w
    ⟨w, sn, fl, [s]⟩) es d.1

/-- The elements in blocks of 32. -/
def quantAll (x : Sx) : Nat → List Reg → List FpOut
  | 0, _ => []
  | k + 1, es => quantBlock x (es.take 32) ++ quantAll x k (es.drop 32)

def execVcvt (sl : VW) (d a : Fin 16) (rm : RM) (sat : Bool) (src : Form) (s : State) : Out State :=
  let n := s.kore.elems sl
  let dst := s.kore.form
  let thr := s.cur.sndthr.toNat
  let xs := (s.kore.vreg sl a.val).list (formBytes src) n
  let quant : Option Sx := match src.fp with
    | some f => if f = fmt32 then sxOf dst else none
    | none => none
  let os : List FpOut := match quant with
    | some x => quantAll x (ceilDiv n 32) xs
    | none => xs.map (cvtElem src dst rm sat)
  s.vop sl (cvtOk src dst rm sat n) [vref sl a.val] d (latFp n) s.kore.eb
    (List.zipWith (fun o x => EOut.fp thr o x.poi) os xs)

end Sys2Proof.Machine
end

