-- ==== Sys2Proof/Machine/Mesh.lean ====
section
/-! DEFINITION. Sys2Proof/Machine/Mesh.lean: the arithmetic of the rotation mesh: its geometry, its cells, forward and reverse
flow, drift, eliminations and the raw image (R119 to R122, R145 to R147, R162 to R164, R172, R173, R175 to R178, R180, R181, R188). -/

namespace Sys2Proof.Machine
open Config

/-! ### Cells -/

def Mesh.rotor (k : Mesh) (j : Nat) : Rotor := sget Rotor.init k.rot j
def Mesh.setRotor (k : Mesh) (j : Nat) (r : Rotor) : Mesh := { k with rot := sset Rotor.init k.rot j r }
def Mesh.scale (k : Mesh) (l : Nat) : ScaleCell := sget ScaleCell.init k.scl l
def Mesh.setScale (k : Mesh) (l : Nat) (c : ScaleCell) : Mesh := { k with scl := sset ScaleCell.init k.scl l c }
/-- D of a lane (R178). -/
def Mesh.drift (k : Mesh) (l : Nat) : BitVec 32 := sget one32 k.dprod l
def Mesh.setDrift (k : Mesh) (l : Nat) (d : BitVec 32) : Mesh := { k with dprod := sset one32 k.dprod l d }

def nRotors : Nat := 992
def nLanes : Nat := 32
def nStages : Nat := 64

/-- A scale is ±0 (R164). -/
def zeroScale (w : BitVec 32) : Bool := w.toNat % 2 ^ 31 == 0

/-! ### Lane arithmetic (R120, R173) -/

/-- The zero lane word. -/
def Lane.zero (snd : Nat) : Lane := ⟨0, false, BitVec.ofNat 6 snd⟩
def Lane.val (l : Lane) : Nat := l.bits.toNat
def Lane.isNan (l : Lane) : Bool := (laneDec l.val).isNone

/-- A factor of the ROM times a lane value, over 2^17: exact, its sign the exclusive-or of its factors' signs. -/
def romMul (k : Int) (a : Dy) : Dy := ⟨decide (k < 0) != a.neg, k.natAbs * a.m, a.e - 17⟩

/-- An exact sum whose zero takes its sign under R111. -/
def Dy.addSigned (a b : Dy) : Dy :=
  let d := Dy.add a b
  if d.m = 0 then ⟨zeroSign .rne a.neg b.neg, 0, 0⟩ else d

/-- RoundNE_p((k1 × x + k2 × y) / 2^17). -/
def laneLin (p : Nat) (k1 : Int) (x : Nat) (k2 : Int) (neg2 : Bool) (y : Nat) : Nat × Flg :=
  match laneDec x, laneDec y with
  | some a, some b =>
    let t := romMul k2 b
    laneRound p ((romMul k1 a).addSigned (if neg2 then t.negate else t))
  | _, _ => (laneNaN, 0)

/-- A lane value times FP32 factors, rounded once. A factor that is no finite number comes only from an image that no `ARRSAVE`
wrote: the manual gives no result, and it is a free value. -/
def laneScale (p : Nat) (x : Nat) (fs : List Nat) : Nat × Flg :=
  match laneDec x with
  | none => (laneNaN, 0)
  | some a =>
    let r := fs.foldl (fun (d : Option Dy) f =>
      match d, fmt32.dec f with
      | some d, .fin n m e => some (Dy.mul d ⟨n, m, e⟩)
      | _, _ => none) (some a)
    match r with
    | some d => laneRound p d
    | none => ((freeScale x fs).toNat, 0)

/-- `ApplyCell` (R173): the new lower and upper lane, and the flags. -/
def applyCell (p : Nat) (code : Nat) (poi : Bool) (x y : Lane) : (Lane × Lane) × Flg :=
  let r := rom code
  let u := laneLin p r.1 x.val r.2 true y.val
  let v := laneLin p r.2 x.val r.1 false y.val
  let q := poi || x.poi || y.poi
  ((⟨BitVec.ofNat 32 u.1, q, x.snd⟩, ⟨BitVec.ofNat 32 v.1, q, y.snd⟩), u.2 ||| v.2)

/-! ### Stages (R162, R163) -/

/-- Cells in pairs of lanes, from a cell index on; a last lane alone passes. -/
def stagePairs {σ : Type} (cell : σ → Nat → Lane → Lane → σ × (Lane × Lane)) : Nat → List Lane → σ → σ × List Lane
  | i, x :: y :: l, st =>
    let r := cell st i x y
    let t := stagePairs cell (i + 1) l r.1
    (t.1, r.2.1 :: r.2.2 :: t.2)
  | _, l, st => (st, l)

/-- One stage: on odd stages the first and the last lane pass through. -/
def stage {σ : Type} (cell : σ → Nat → Lane → Lane → σ × (Lane × Lane)) (n : Nat) (ls : List Lane) (st : σ) : σ × List Lane :=
  if n % 2 = 0 then stagePairs cell (31 * (n / 2)) ls st
  else match ls with
    | [] => (st, [])
    | x :: l =>
      let r := stagePairs cell (31 * (n / 2) + 16) l st
      (r.1, x :: r.2)

/-- Active stages from `lo`, `n` of them, upwards. -/
def fwdStages (k : Mesh) (p : Nat) : Nat → Nat → List Lane → Flg → List Lane × Flg
  | 0, _, ls, fl => (ls, fl)
  | n + 1, s, ls, fl =>
    let r := stage (fun (f : Flg) j x y =>
      let c := k.rotor j
      let o := applyCell p c.front.toNat c.poi x y
      (f ||| o.2, o.1)) s ls fl
    fwdStages k p n (s + 1) r.2 r.1

/-- The number of active stages of [first, last] within [lo, hi]. -/
def active (first last lo hi : Nat) : Nat × Nat :=
  let a := Nat.max first lo
  let b := Nat.min last hi
  (a, if a ≤ b then b - a + 1 else 0)

/-- The scale column forward. -/
def fwdScale (k : Mesh) (p : Nat) (ls : List Lane) : List Lane × Flg :=
  let rs := ls.zipIdx.map fun x =>
    let c := k.scale x.2
    let r := laneScale p x.1.val [c.front.toNat]
    ((⟨BitVec.ofNat 32 r.1, x.1.poi || c.poi, x.1.snd⟩ : Lane), r.2)
  (rs.map (·.1), rs.foldl (fun f r => f ||| r.2) 0)

/-- Stages up to the scale column, and the column. -/
def fwdLow (k : Mesh) (p first last : Nat) (scl : Bool) (ls : List Lane) : List Lane × Flg :=
  let a := active first last 0 31
  let r := fwdStages k p a.2 a.1 ls 0
  if scl then
    let q := fwdScale k p r.1
    (q.1, r.2 ||| q.2)
  else r

/-- Stages behind the scale column. -/
def fwdHigh (k : Mesh) (p first last : Nat) (ls : List Lane) : List Lane × Flg :=
  let a := active first last 32 63
  fwdStages k p a.2 a.1 ls 0

/-! ### Reverse (R175 to R178) -/

/-- RoundNE of a dyadic number to an integer. -/
def Dy.toInt (d : Dy) : Int :=
  let s := splitAt d.m d.e 0 false
  let q := if roundUp .rne d.neg s.1 s.2 then s.1 + 1 else s.1
  if d.neg then -(q : Int) else q

/-- An accumulator after an increment of q × 2^40, and OF where bits [63:55] are not all equal (R177). -/
def accumulate (acc : BitVec 64) (q : Dy) : BitVec 64 × Flg :=
  let a := acc + BitVec.ofInt 64 (Dy.toInt { q with e := q.e + 40 })
  let top := a.toNat / 2 ^ 55
  (a, flagIf (top != 0 && top != 511) fOF)

/-- One value of the reverse flow on the lower and the upper lane: c × x + s × y and c × y − s × x. -/
def backPair (p : Nat) (r : Int × Int) (poi : Bool) (x y : Lane) : (Lane × Lane) × Flg :=
  let u := laneLin p r.1 x.val r.2 false y.val
  let v := laneLin p r.1 y.val r.2 true x.val
  ((⟨BitVec.ofNat 32 u.1, poi, x.snd⟩, ⟨BitVec.ofNat 32 v.1, poi, y.snd⟩), u.2 ||| v.2)

/-- `ReverseCell` on a pair of activations and a pair of gradients (R175, R176). -/
def backCell (p : Nat) (c : Rotor) (x y gx gy : Lane) : Rotor × ((Lane × Lane) × (Lane × Lane)) × Flg :=
  let r := rom c.front.toNat
  let q := c.poi || x.poi || y.poi || gx.poi || gy.poi
  let a : Rotor × Flg :=
    match laneDec x.val, laneDec y.val, laneDec gx.val, laneDec gy.val with
    | some xo, some yo, some gxo, some gyo =>
      let t := accumulate c.acc (Dy.add (Dy.mul gyo xo) (Dy.mul gxo yo).negate)
      ({ c with acc := t.1, poi := q }, t.2)
    | _, _, _, _ => ({ c with nan := true, poi := q }, fNV)
  let u := backPair p r q x y
  let v := backPair p r q gx gy
  (a.1, (u.1, v.1), a.2 ||| u.2 ||| v.2)

/-- One reverse stage: lanes of activations and of gradients side by side. -/
def backPairs (p : Nat) : Nat → List Lane → List Lane → Mesh → Flg → (Mesh × Flg) × (List Lane × List Lane)
  | i, x :: y :: l, gx :: gy :: m, k, fl =>
    let r := backCell p (k.rotor i) x y gx gy
    let t := backPairs p (i + 1) l m (k.setRotor i r.1) (fl ||| r.2.2)
    (t.1, (r.2.1.1.1 :: r.2.1.1.2 :: t.2.1, r.2.1.2.1 :: r.2.1.2.2 :: t.2.2))
  | _, l, m, k, fl => ((k, fl), (l, m))

def backStage (p n : Nat) (ls gs : List Lane) (k : Mesh) (fl : Flg) : (Mesh × Flg) × (List Lane × List Lane) :=
  if n % 2 = 0 then backPairs p (31 * (n / 2)) ls gs k fl
  else match ls, gs with
    | x :: l, g :: m =>
      let r := backPairs p (31 * (n / 2) + 16) l m k fl
      (r.1, (x :: r.2.1, g :: r.2.2))
    | l, m => ((k, fl), (l, m))

/-- Stages from s downwards, n of them. -/
def backStages (p : Nat) : Nat → Nat → List Lane → List Lane → Mesh → Flg → (Mesh × Flg) × (List Lane × List Lane)
  | 0, _, ls, gs, k, fl => ((k, fl), (ls, gs))
  | n + 1, s, ls, gs, k, fl =>
    let r := backStage p s ls gs k fl
    backStages p n (s - 1) r.2.1 r.2.2 r.1.1 r.1.2

/-- The scale column in reverse, for one lane: its cell, its activation and its gradient (R175). `corr` is the drift factor, and whether it
comes from a poisoned code. A poisoned scale poisons both values (R190). DESIGN CHOICE (log 40): where the activation or the gradient is a
NaN marker, Acc_σ keeps its value and no flag is set, since the manual gives a fate only for rotor cells. -/
def backScaleLane (p : Nat) (scl : Bool) (corr : Option (BitVec 32 × Bool)) (c : ScaleCell) (x g : Lane) :
    (ScaleCell × Flg) × (Lane × Lane) :=
  let fs := (if scl then [c.frontR.toNat] else []) ++ (match corr with
    | some d => [d.1.toNat]
    | none => [])
  let x1 : Nat × Flg :=
    if scl && zeroScale c.front then (0, fNV) else if fs = [] then (x.val, 0) else laneScale p x.val fs
  let xp := x.poi || (scl && c.poi) || (corr.map (·.2)).getD false
  let xl : Lane := { x with bits := BitVec.ofNat 32 x1.1, poi := xp }
  if scl then
    let a : ScaleCell × Flg :=
      match laneDec x1.1, laneDec g.val with
      | some u, some v =>
        let t := accumulate c.acc (Dy.mul v u)
        ({ c with acc := t.1, poi := xp || g.poi }, t.2)
      | _, _ => ({ c with poi := xp || g.poi }, 0)
    let g1 := laneScale p g.val [c.front.toNat]
    ((a.1, x1.2 ||| a.2 ||| g1.2), (xl, { g with bits := BitVec.ofNat 32 g1.1, poi := g.poi || c.poi }))
  else ((c, x1.2), (xl, g))

def backScale (p : Nat) (scl : Bool) (corr : Nat → Option (BitVec 32 × Bool)) :
    Nat → List Lane → List Lane → Mesh → Flg → (Mesh × Flg) × (List Lane × List Lane)
  | l, x :: xs, g :: gs, k, fl =>
    let r := backScaleLane p scl (corr l) (k.scale l) x g
    let t := backScale p scl corr (l + 1) xs gs (if scl then k.setScale l r.1.1 else k) (fl ||| r.1.2)
    (t.1, (r.2.1 :: t.2.1, r.2.2 :: t.2.2))
  | _, xs, gs, k, fl => ((k, fl), (xs, gs))

/-- The reverse flow down to the scale column's far side. -/
def backHigh (p first last : Nat) (ls gs : List Lane) (k : Mesh) : (Mesh × Flg) × (List Lane × List Lane) :=
  let a := active first last 32 63
  backStages p a.2 (a.1 + a.2 - 1) ls gs k 0

/-- The scale column and the stages before it. -/
def backLow (p first last : Nat) (scl : Bool) (corr : Nat → Option (BitVec 32 × Bool)) (ls gs : List Lane) (k : Mesh) :
    (Mesh × Flg) × (List Lane × List Lane) :=
  let r := backScale p scl corr 0 ls gs k 0
  let a := active first last 0 31
  backStages p a.2 (a.1 + a.2 - 1) r.2.1 r.2.2 r.1.1 r.1.2

/-! ### Drift (R178) -/

/-- RoundNE((c² + s²) / 2^34). -/
def rho (code : Nat) : Nat :=
  let r := rom code
  (fmt32.round .rne false (r.1.natAbs * r.1.natAbs + r.2.natAbs * r.2.natAbs) (-34) false).1

/-- One stage of the drift products. -/
def driftPairs (k : Mesh) : Nat → List Nat → List Nat
  | i, x :: y :: l =>
    let q := rho (k.rotor i).front.toNat
    (fmt32.mul .rne x q).1 :: (fmt32.mul .rne y q).1 :: driftPairs k (i + 1) l
  | _, l => l

def driftStage (k : Mesh) (n : Nat) (ds : List Nat) : List Nat :=
  if n % 2 = 0 then driftPairs k (31 * (n / 2)) ds
  else match ds with
    | [] => []
    | x :: l => x :: driftPairs k (31 * (n / 2) + 16) l

/-- D of every lane, from stage LAST down to FIRST. -/
def driftAll (k : Mesh) (first last : Nat) : List Nat :=
  (List.range (last - first + 1)).foldl (fun ds i => driftStage k (last - i) ds) (List.replicate nLanes one32v)

/-- The cell of a stage that a lane passes through (R162, R163). -/
def cellOn (n l : Nat) : Option Nat :=
  if n % 2 = 0 then some (31 * (n / 2) + l / 2) else if 1 ≤ l ∧ l ≤ 30 then some (31 * (n / 2) + 16 + (l - 1) / 2) else none

/-- A lane's drift product is computed from a poisoned code (R190). -/
def Mesh.driftPoi (k : Mesh) (first last l : Nat) : Bool :=
  (List.range (last - first + 1)).any fun i => match cellOn (first + i) l with
    | some j => (k.rotor j).poi
    | none => false

/-- |D − 1| as a dyadic number. -/
def driftDist (d : Nat) : Dy :=
  match fmt32.dec d with
  | .fin n m e => { Dy.add ⟨n, m, e⟩ ⟨true, 1, 0⟩ with neg := false }
  | _ => ⟨false, 0, 0⟩

/-- The lowest lane with the largest |D − 1|. -/
def driftWorst (ds : List Nat) : Nat :=
  (List.range ds.length).foldl (fun b l =>
    if (driftDist (ds.getD b 0)).cmp (driftDist (ds.getD l 0)) < 0 then l else b) 0

/-- A drift above the limit. -/
def driftOver (ds : List Nat) (lim : Nat) : Bool :=
  ds.any fun d => decide (0 < (driftDist d).cmp (match fmt32.dec lim with
    | .fin n m e => ⟨n, m, e⟩
    | _ => ⟨false, 0, 0⟩))

/-! ### The mesh edge (R121, R145, R147, R172, R449) -/

/-- ⌈log2 n⌉. -/
def clog2 (n : Nat) : Nat := if n ≤ 1 then 0 else bitLen (n - 1)

/-- p of the lane word of an input format (R121). -/
def laneBits (f : Form) : Nat :=
  match f with
  | .fp32 => 24
  | .sx16 => 16
  | _ => 8

/-- Bytes of a vector of n lanes in a format: one block under an SX code. -/
def vecBytes (f : Form) (n : Nat) : Nat :=
  match sxOf f with
  | some x => x.bytes
  | none => n * formBytes f

/-- A value that enters: its lane word, its poison, and its sounding, which is 0 where the edge changed the value and for a NaN. -/
def laneIn (g : Fmt) (p w : Nat) (poi : Bool) (snd : Nat) : Lane × Flg :=
  let r := laneOfFp g w
  (⟨BitVec.ofNat 32 r.1, poi, BitVec.ofNat 6 (if r.2.2 then 0 else Nat.min snd p)⟩, r.2.1)

/-- The words that hold bytes lo to hi of a block whose first byte stands at place `ph` of its word carry poison. -/
def wordsPoison (ps : List Bool) (lo hi : Nat) : Bool := (List.range (hi - lo + 1)).any fun i => ps.getD (lo + i) false

/-- The poison of element i of a stored block (R449), from the poison of the bytes' words. -/
def Sx.elemPoison (x : Sx) (ps : List Bool) (i : Nat) : Bool :=
  wordsPoison ps 0 1 || wordsPoison ps (2 + i * x.w / 8) (2 + ((i + 1) * x.w - 1) / 8)

/-- The lanes of one input vector: the first n from memory, the others +0. `ps` marks each byte of poison; `plane` gives each
element's plane byte where the pass takes soundings from it. -/
def lanesIn (f : Form) (n : Nat) (bs : List Byte) (ps : List Bool) (plane : Option (List Nat)) : List Lane × Flg :=
  let p := laneBits f
  let pad := List.replicate (nLanes - n) (Lane.zero p)
  match sxOf f with
  | some x =>
    let d := x.decodeBlock bs
    let ls := (d.1.take n).zipIdx.map fun e => laneIn fmt32 p e.1 (x.elemPoison ps e.2) p
    (ls.map (·.1) ++ pad, ls.foldl (fun a l => a ||| l.2) d.2)
  | none =>
    let eb := formBytes f
    let g := f.fp.getD fmt32
    let ls := (List.range n).map fun i =>
      let w := leNat ((bs.drop (i * eb)).take eb)
      let b : Nat := match plane with
        | some l => l.getD i 0
        | none => 63
      laneIn g p w ((List.range eb).any (fun j => ps.getD (i * eb + j) false) || decide (64 ≤ b % 128)) (b % 64)
    (ls.map (·.1) ++ pad, ls.foldl (fun a l => a ||| l.2) 0)

/-- The least input sounding of a vector, each read as at most p (R145). -/
def leastSnd (p : Nat) (ls : List Lane) : Nat := ls.foldl (fun m l => Nat.min m l.snd.toNat) p

/-- An output vector: its bytes, the poison of each byte, the plane byte of each element's value, and the flags. -/
structure VecOut where
  bytes : List Byte
  poi : List Bool
  plane : List (Nat × Bool)
  fl : Flg
  deriving DecidableEq, Repr

/-- Lanes 0 to n − 1 leave in a format with a sounding; a NaN marker has sounding 0. -/
def lanesOut (f : Form) (n : Nat) (snd : Nat) (ls : List Lane) : VecOut :=
  let out := ls.take n
  match sxOf f with
  | some x =>
    let vs := out.map fun l => fpOfLane fmt32 l.val
    let q := x.quantise (vs.map (·.1) ++ List.replicate (32 - n) 0)
    let bad := out.any (·.poi)
    ⟨q.1, q.1.map fun _ => bad, [], vs.foldl (fun a v => a ||| v.2) q.2⟩
  | none =>
    let eb := formBytes f
    let g := f.fp.getD fmt32
    let vs := out.map fun l => fpOfLane g l.val
    ⟨vs.flatMap fun v => natBytes eb v.1, out.flatMap fun l => List.replicate eb l.poi,
      out.map (fun l => (if l.isNan then 0 else Nat.min snd g.p, l.poi)), vs.foldl (fun a v => a ||| v.2) 0⟩

/-! ### Eliminations (R180, R181, R193) -/

/-- The row pair and column of each elimination, in order. -/
def elimOrder (m n : Nat) : List (Nat × Nat) :=
  (List.range (Nat.min n (m - 1))).flatMap fun c => (List.range (m - 1 - c)).map fun i => (m - 2 - i, c)

/-- The rotations among the first e + 1 eliminations that touch element (i, j). -/
def touches (m n e i j : Nat) : Nat :=
  (((elimOrder m n).take (e + 1)).filter fun p => (p.1 == i || p.1 + 1 == i) && decide (p.2 ≤ j)).length

/-- The result of one elimination on a tile. -/
structure Elim where
  tile : List Lane
  code : Nat
  codePoi : Bool
  residual : Option Nat
  fl : Flg
  deriving DecidableEq, Repr

/-- Elimination number e on rows (r, r + 1) of column c. -/
def eliminate (m n e : Nat) (base : List (BitVec 6)) (t : List Lane) : Elim :=
  match (elimOrder m n)[e]? with
  | none => ⟨t, 0, false, none, 0⟩
  | some (r, c) =>
    let at_ (i j : Nat) : Lane := t.getD (i * n + j) (Lane.zero 24)
    let a := at_ r c
    let b := at_ (r + 1) c
    let code : Nat := match laneDec a.val, laneDec b.val with
      | some x, some y => if x.m = 0 ∧ y.m = 0 then 0 else sweepCode x y
      | _, _ => 0
    let nan := a.isNan || b.isNan
    let cp := a.poi || b.poi
    let snd (i j : Nat) : BitVec 6 :=
      BitVec.ofNat 6 (Nat.min (24 - clog2 (touches m n e i j)) (base.getD (i * n + j) 24).toNat)
    let cells := (List.range (n - c)).map fun k =>
      let j := c + k
      let o := applyCell 24 code cp (at_ r j) (at_ (r + 1) j)
      (({ o.1.1 with snd := snd r j } : Lane), ({ o.1.2 with snd := snd (r + 1) j } : Lane), o.2)
    let res := (cells.map (·.2.1)).getD 0 (Lane.zero 24)
    let low := cells.map (·.2.1)
    let low' := if nan then low else Lane.zero 24 :: low.drop 1
    let head := t.take (r * n + c)
    let mid := (t.drop ((r + 1) * n)).take c
    ⟨head ++ cells.map (·.1) ++ mid ++ low' ++ t.drop ((r + 2) * n), code, cp, if nan then none else some (res.val % 2 ^ 31),
      cells.foldl (fun f x => f ||| x.2.2) (flagIf nan fNV)⟩

/-! ### The raw image (R188) -/

def imageBytes : Nat := 17088
def imageChunks : Nat := 534

def Rotor.bytes (c : Rotor) : List Byte :=
  natBytes 2 c.front.toNat ++ natBytes 2 c.shadow.toNat ++ [BitVec.ofNat 8 ((if c.poi then 1 else 0) + (if c.nan then 2 else 0)), 0, 0, 0]
    ++ natBytes 8 c.acc.toNat
def ScaleCell.bytes (c : ScaleCell) : List Byte :=
  natBytes 4 c.front.toNat ++ natBytes 4 c.frontR.toNat ++ natBytes 4 c.shadow.toNat ++ natBytes 4 c.shadowR.toNat
    ++ [if c.poi then 1 else 0] ++ natBytes 7 0 ++ natBytes 8 c.acc.toNat

/-- Chunk j of 32 bytes. -/
def Mesh.chunk (k : Mesh) (j : Nat) : List Byte :=
  if j = 0 then natBytes 32 1
  else if j = 1 then natBytes 32 0
  else if j < 498 then (k.rotor (2 * (j - 2))).bytes ++ (k.rotor (2 * (j - 2) + 1)).bytes
  else if j < 530 then (k.scale (j - 498)).bytes
  else (List.range 8).flatMap fun i => natBytes 4 (k.drift (8 * (j - 530) + i)).toNat

/-- A rotor cell from its 16 image bytes, poisoned where a word is. -/
def rotorOf (b : List Byte) (poi : Bool) : Rotor :=
  let n (off len : Nat) : Nat := leNat ((b.drop off).take len)
  ⟨BitVec.ofNat 16 (n 0 2), BitVec.ofNat 16 (n 2 2), BitVec.ofNat 64 (n 8 8), poi || n 4 1 % 2 == 1, n 4 1 / 2 % 2 == 1⟩
def scaleOf (b : List Byte) (poi : Bool) : ScaleCell :=
  let n (off len : Nat) : Nat := leNat ((b.drop off).take len)
  ⟨BitVec.ofNat 32 (n 0 4), BitVec.ofNat 32 (n 4 4), BitVec.ofNat 32 (n 8 4), BitVec.ofNat 32 (n 12 4), BitVec.ofNat 64 (n 24 8),
    poi || n 16 1 % 2 == 1⟩

/-- The mesh after chunk j of an image has been read, with the poison of its bytes. -/
def Mesh.load (k : Mesh) (j : Nat) (b : List Byte) (ps : List Bool) : Mesh :=
  let bad (off n : Nat) : Bool := ((ps.drop off).take n).any id
  if j < 2 then k
  else if j < 498 then
    (k.setRotor (2 * (j - 2)) (rotorOf (b.take 16) (bad 0 16))).setRotor (2 * (j - 2) + 1) (rotorOf (b.drop 16) (bad 16 16))
  else if j < 530 then k.setScale (j - 498) (scaleOf b (bad 0 32))
  else (List.range 8).foldl (fun m i => m.setDrift (8 * (j - 530) + i) (BitVec.ofNat 32 (leNat ((b.drop (4 * i)).take 4)))) k

end Sys2Proof.Machine
end

