-- ==== Sys2Proof/Machine/MeshCmd.lean ====
section
/-! DEFINITION. Sys2Proof/Machine/MeshCmd.lean: the seven mesh commands: their blocks, the hazard monitor, their work cycle by cycle
(R166 to R193, R347). -/

namespace Sys2Proof.Machine
open Config

/-! ### Issue (R166, R347) -/

def execArrgang (h : HRd) (s : State) : Out State := s.engine h .mesh 0 0x07 (.arrgang h) false
def execArrld (h : HRd) (s : State) : Out State := s.engine h .mesh 0 0x01 (.arrld h) false
def execArrpass (h : HRd) (mode : PassMode) (rev dcorr : Bool) (s : State) : Out State :=
  s.engine h .mesh 0 0x03 (.arrpass h mode rev dcorr) false
def execArrrest (h : HRd) (s : State) : Out State := s.engine h .mesh 0 0x06 (.arrrest h) false
def execArrsave (h : HRd) (s : State) : Out State := s.engine h .mesh 0 0x05 (.arrsave h) false
def execArrscl (h : HRd) (s : State) : Out State := s.engine h .mesh 0 0x02 (.arrscl h) false
def execArrsweep (h : HRd) (resume : Bool) (s : State) : Out State := s.engine h .mesh 0 0x04 (.arrsweep h resume) false

/-! ### Bank-cycles known in advance (R167, R197) -/

/-- n bytes at an own-scratchpad address in a cycle, read or written. -/
structure Span where
  t : Nat
  a : Nat
  n : Nat
  p : Perm
  deriving DecidableEq, Repr

/-- The bank-cycles of a span; none where it leaves the scratchpad or does not resolve. -/
def State.spanUses (s : State) (c : Cmd) (x : Span) : Option (List Use) :=
  if spadBytes < x.a + x.n then none else (s.engSpot c x.a x.n x.p).map fun sp => sp.uses x.n x.t

/-- The plane address of a data address. -/
def Cmd.planeOff (c : Cmd) (a : Nat) : Nat := (c.sndbase.toNat + a / 4) % 2 ^ 64
/-- The plane bytes of n bytes at a. -/
def planeLen (a n : Nat) : Nat := (a % 4 + n + 3) / 4
/-- Spans with those of their plane bytes. -/
def Cmd.withPlane (c : Cmd) (snd : Bool) (xs : List Span) : List Span :=
  if snd then xs.flatMap fun x => [x, ⟨x.t, c.planeOff x.a, planeLen x.a x.n, x.p⟩] else xs

/-- Holds the bank-cycles of spans for a command: a span outside its limits gives CODE 0x03, a held bank CODE 0x05. In loose mode
an engine access gives way instead (R326), and holds nothing. -/
def State.reserve (s : State) (c : Cmd) (xs : List Span) : State :=
  let us := xs.map (s.spanUses c)
  if us.any (·.isNone) then s.engineFault c.id 3
  else if s.looseCmd c then s
  else
    let all := us.flatMap fun u => u.getD []
    if s.engMeets c.id all || c.offBeat all then s.engineFault c.id 5 else s.engHold c.id all

/-- A gauge raise by n bytes that goes with a write of the next cycle: scheduled now, one cycle before (R197, R247), and before the bundles
of this cycle issue, so that a primary access that meets it faults too. -/
def State.planRaise (s : State) (c : Cmd) (og n : Nat) : State :=
  if og = noGauge then s
  else
    let t := s.gaugeCycle c og (s.now + 1)
    let us := s.gaugeUses c og t
    if s.looseCmd c then s.addGauge c og t (.raise n)
    else if s.engMeets c.id us then s.engineFault c.id 5
    else (s.engHold c.id us).addGauge c og t (.raise n)

/-- The place of an own-scratchpad address for a command. -/
def State.spadPlace (s : State) (c : Cmd) (a : Nat) (p : Perm) : Place := s.engPlace c a p

/-- Bytes that a command reads now at an own-scratchpad address, with their poison. -/
def State.engBytes (s : State) (c : Cmd) (a n : Nat) : List Byte × List Bool :=
  let pa := s.placePa (s.spadPlace c a .r) n false
  (s.bytes pa n, s.poisons pa n)

/-- The ECC check of what a command reads now at own-scratchpad addresses (R190, R323). -/
def State.eccSpans (s : State) (c : Cmd) (xs : List Span) : State :=
  xs.foldl (fun t x => t.eccRead (t.placePa (t.spadPlace c x.a .r) x.n false) x.n) s

/-- Bit i of a byte. -/
def byteBit (b i : Nat) : Bool := b / 2 ^ i % 2 == 1

/-! ### ARRPASS blocks (R171, R172) -/

structure PassB where
  inA : Nat
  outA : Nat
  istr : Nat
  ostr : Nat
  rows : Nat
  first : Nat
  last : Nat
  oform : Nat
  olanes : Nat
  ctl : Nat
  og : Nat
  gin : Nat
  gout : Nat
  ndlim : Nat
  mode : PassMode
  rev : Bool
  dcorr : Bool
  deriving DecidableEq, Repr

def Cmd.pass (c : Cmd) : PassB :=
  let m : PassMode × Bool × Bool := match c.instr with
    | .arrpass _ mode rev dc => (mode, rev, dc)
    | _ => (.p8, false, false)
  ⟨c.num 16 4, c.num 20 4, c.num 24 2, c.num 26 2, c.num 28 2, c.num 30 1, c.num 31 1, c.num 32 1, c.num 33 1, c.num 34 1,
    c.num 36 4, c.num 40 4, c.num 44 4, c.num 48 4, m.1, m.2.1, m.2.2⟩

end Sys2Proof.Machine

namespace Sys2Proof

/-- p and the mode factor F (R173). -/
def PassMode.p : PassMode → Nat
  | .p8 => 8
  | .p16 => 16
  | .p24 => 24
def PassMode.f : PassMode → Nat
  | .p8 => 1
  | .p16 => 2
  | .p24 => 3

end Sys2Proof

namespace Sys2Proof.Machine
open Config

def PassB.scl (b : PassB) : Bool := byteBit b.ctl 0
def PassB.swapA (b : PassB) : Bool := byteBit b.ctl 1
def PassB.swapS (b : PassB) : Bool := byteBit b.ctl 2
def PassB.snd (b : PassB) : Bool := byteBit b.ctl 3
def PassB.clr (b : PassB) : Bool := byteBit b.ctl 4
def PassB.stages (b : PassB) : Nat := b.last - b.first + 1
def PassB.form (b : PassB) : Form := (Form.ofCode b.oform).getD .fp32
/-- The lanes of an input vector, and those of an output vector. -/
def PassB.inLanes (b : PassB) : Nat := if b.rev then b.olanes else nLanes
def PassB.outLanes (b : PassB) : Nat := if b.rev then nLanes else b.olanes
def PassB.inBytes (b : PassB) (f : Form) : Nat := vecBytes f b.inLanes
def PassB.outBytes (b : PassB) : Nat := vecBytes b.form b.outLanes

/-- Bits set in a mask of the cores of a cluster. -/
def maskCount (m : BitVec 16) : Nat := ((List.range 16).filter fun i => m.getLsbD i).length
def maskRank (m : BitVec 16) (i : Nat) : Nat := ((List.range i).filter fun j => m.getLsbD j).length
/-- The core of a cluster with a rank. -/
def maskNth (m : BitVec 16) (r : Nat) : Nat := (((List.range 16).filter fun i => m.getLsbD i).drop r).headD 0

/-- A pass of a gang crosses the exchange (R187). -/
def PassB.crosses (b : PassB) (gang : BitVec 16) : Bool := gang != 0 && decide (b.first ≤ 31) && decide (32 ≤ b.last)
def PassB.extra (b : PassB) (gang : BitVec 16) : Nat := if b.crosses gang then 6 else 0

/-- The cycle in which vector v is read, and in which its output is written. -/
def PassB.readAt (b : PassB) (t v : Nat) : Nat := t + (if b.rev then 2 else 1) * b.mode.f * v
def PassB.writeAt (b : PassB) (gang : BitVec 16) (t v : Nat) : Nat :=
  t + (if b.rev then 2 * b.mode.f * (v + 1) + b.stages + 2 else b.mode.f * (v + 1) + b.stages + 3) + b.extra gang
/-- Cycles of occupancy (R174, R175, R187). -/
def PassB.occupied (b : PassB) (gang : BitVec 16) : Nat :=
  (if b.rev then 2 else 1) * b.mode.f * b.rows + b.stages + 4 + b.extra gang

def PassB.spans (b : PassB) (f : Form) (gang : BitVec 16) (t : Nat) : List Span :=
  (List.range b.rows).flatMap fun v =>
    let r := b.readAt t v
    let w := b.writeAt gang t v
    let i := b.inBytes f
    let o := b.outBytes
    if b.rev then
      [⟨r, b.inA + v * b.istr, i, .r⟩, ⟨r + 1, b.gin + v * b.istr, i, .r⟩, ⟨w, b.outA + v * b.ostr, o, .w⟩,
        ⟨w + 1, b.gout + v * b.ostr, o, .w⟩]
    else [⟨r, b.inA + v * b.istr, i, .r⟩, ⟨w, b.outA + v * b.ostr, o, .w⟩]

/-- The limits of an `ARRPASS` block. -/
def Cmd.passOk (c : Cmd) (gang : BitVec 16) : Bool :=
  let b := c.pass
  let f := formOf c.fmt
  let inSx := f.isSx
  let outSx := b.form.isSx
  let ieb := if inSx then 2 else formBytes f
  (f == .fp32 || f == .bf16 || f == .sx8 || f == .sx16) && [0, 1, 2, 6, 7, 8].contains b.oform
    && !(b.snd && (inSx || outSx)) && decide (1 ≤ b.rows) && decide (b.first ≤ b.last) && decide (b.last ≤ 63)
    && decide (1 ≤ b.olanes) && decide (b.olanes ≤ (if gang = 0 then 32 else 16)) && decide (b.ctl < 32) && c.zero 35 1 && c.zero 52 12
    && (b.rev || !b.clr) && b.inA % ieb == 0 && decide (b.inBytes f ≤ b.istr) && decide (b.outBytes ≤ b.ostr) && gaugeOk b.og
    && (if b.rev then (match fmt32.dec b.ndlim with
        | .fin n m _ => !n && m != 0
        | _ => false)
      else b.gin == 0 && b.gout == 0 && b.ndlim == 0)

/-! ### ARRSWEEP blocks (R179, R182 to R184) -/

structure SweepB where
  tileAt : Nat
  stride : Nat
  m : Nat
  n : Nat
  codesAt : Nat
  og : Nat
  snd : Bool
  next : Nat
  resume : Bool
  deriving DecidableEq, Repr

def sweepRec : Nat := 0x8000

/-- The offset of a core's sweep record in its scratchpad. -/
def State.sweepRecAt (s : State) (core : Nat) : Nat := (s.core core).ctxbase.toNat + sweepRec

/-- The fields of a sweep: from its block, or, resumed, from the record as it stands. None where the record is not valid. -/
def State.sweepB (s : State) (c : Cmd) : Option SweepB :=
  match c.instr with
  | .arrsweep _ true =>
    let r := (s.engBytes c (s.sweepRecAt c.core) 32).1
    let n (off len : Nat) : Nat := leNat ((r.drop off).take len)
    if n 24 1 % 2 = 1 then some ⟨n 8 4, n 12 2, n 2 1, n 3 1, n 16 4, n 20 4, byteBit (n 24 1) 1, n 0 2, true⟩ else none
  | _ => if c.zero 33 31 && decide (c.num 32 1 < 2) then
      some ⟨c.num 16 4, c.num 20 2, c.num 22 1, c.num 23 1, c.num 24 4, c.num 28 4, byteBit (c.num 32 1) 0, 0, false⟩
    else none

def SweepB.elims (b : SweepB) : Nat := (elimOrder b.m b.n).length
/-- LT, and the cycles of the code list. -/
def SweepB.lt (b : SweepB) : Nat := ceilDiv (4 * b.m * b.n) 32
def SweepB.lc (b : SweepB) : Nat := ceilDiv (2 * b.elims) 32
def SweepB.recBytes (b : SweepB) : Nat := 32 + 5 * b.m * b.n + 2 * b.next
/-- Cycles of the first phase: the tile, or the record. -/
def SweepB.head (b : SweepB) : Nat := if b.resume then ceilDiv b.recBytes 32 else b.lt
/-- Cycles of elimination e. -/
def SweepB.elimLen (b : SweepB) (e : Nat) : Nat := 8 + 3 * (b.n - ((elimOrder b.m b.n).getD e (0, 0)).2)
/-- Cycles from the end of the first phase to the first tile write. -/
def SweepB.elimTotal (b : SweepB) : Nat := (List.range (b.elims - b.next)).foldl (fun t i => t + b.elimLen (b.next + i)) 0
def SweepB.tileW (b : SweepB) (t : Nat) : Nat := t + b.head + b.elimTotal
def SweepB.occupied (b : SweepB) : Nat := b.head + b.elimTotal + b.lt + b.lc + 4

def SweepB.ok (b : SweepB) : Bool :=
  b.tileAt % 4 == 0 && b.stride % 4 == 0 && decide (4 * b.n ≤ b.stride) && decide (2 ≤ b.m) && decide (b.m ≤ 32) && decide (1 ≤ b.n)
    && decide (b.n ≤ 64) && b.codesAt % 2 == 0 && gaugeOk b.og && decide (b.next ≤ b.elims)

/-- Elements [i, i + k) of the tile in row order, as runs of one row: first element, count. -/
def tileRuns (n : Nat) : Nat → Nat → Nat → List (Nat × Nat)
  | 0, _, _ => []
  | fuel + 1, i, k =>
    if k = 0 ∨ n = 0 then []
    else
      let len := Nat.min k (n - i % n)
      (i, len) :: tileRuns n fuel (i + len) (k - len)

/-- The address of an element. -/
def SweepB.elemAt (b : SweepB) (i : Nat) : Nat := b.tileAt + i / b.n * b.stride + 4 * (i % b.n)
/-- The runs of chunk j: eight elements. -/
def SweepB.runs (b : SweepB) (j : Nat) : List (Nat × Nat) := tileRuns b.n 9 (8 * j) (Nat.min 8 (b.m * b.n - 8 * j))
/-- The bytes of the first run of chunk j. -/
def SweepB.firstLen (b : SweepB) (j : Nat) : Nat := 4 * ((b.runs j).headD (0, 0)).2
def SweepB.tileSpans (b : SweepB) (j t : Nat) (p : Perm) : List Span := (b.runs j).map fun r => ⟨t, b.elemAt r.1, 4 * r.2, p⟩
def SweepB.codeLen (b : SweepB) (j : Nat) : Nat := Nat.min 32 (2 * b.elims - 32 * j)

def SweepB.spans (b : SweepB) (c : Cmd) (rec_ t : Nat) : List Span :=
  let w := b.tileW t
  (if b.resume then
      (List.range b.head).map (fun j => (⟨t + j, rec_ + 32 * j, Nat.min 32 (b.recBytes - 32 * j), .r⟩ : Span))
        ++ [⟨t + b.occupied - 1, rec_ + 24, 1, .w⟩]
    else c.withPlane b.snd ((List.range b.lt).flatMap fun j => b.tileSpans j (t + j) .r))
    ++ c.withPlane b.snd ((List.range b.lt).flatMap fun j => b.tileSpans j (w + j) .w)
    ++ (List.range b.lc).map fun j => ⟨w + b.lt + j, b.codesAt + 32 * j, b.codeLen j, .w⟩

/-! ### The hazard monitor (R167, R185) -/

/-- The resources of a command, datapath and load path, and the cycles for which it holds them. -/
structure MeshUse where
  data : Bool
  load : Bool
  cycles : Nat
  deriving DecidableEq, Repr

def State.meshUse (s : State) (c : Cmd) (gang : BitVec 16) : MeshUse :=
  match c.instr with
  | .arrld _ => ⟨false, true, 70⟩
  | .arrscl _ => ⟨false, true, 6⟩
  | .arrsave _ => ⟨true, true, 538⟩
  | .arrrest _ => ⟨true, true, 546⟩
  | .arrgang _ => ⟨true, false, 8⟩
  | .arrpass _ _ _ _ => ⟨true, false, c.pass.occupied gang⟩
  | _ => ⟨true, false, match s.sweepB c with
    | some b => b.occupied
    | none => 0⟩

/-- A resource that a command needs is occupied in a cycle. -/
def MeshTimes.busy (k : MeshTimes) (u : MeshUse) (t : Nat) : Bool := (u.data && decide (t < k.dataEnd)) || (u.load && decide (t < k.loadEnd))

/-- The interval of a command is recorded; a load makes its bank ready at its end (R168 to R170). -/
def MeshTimes.occupy (k : MeshTimes) (u : MeshUse) (start : Nat) (i : Instr) : MeshTimes :=
  let e := start + u.cycles
  let k1 := { k with
    dataEnd := if u.data then e else k.dataEnd
    loadEnd := if u.load then e else k.loadEnd }
  match i with
  | .arrld _ => { k1 with readyA := Nat.max k.readyA e }
  | .arrscl _ => { k1 with readyS := Nat.max k.readyS e }
  | _ => k1

/-- The START of a command meets an earlier command of the mesh. -/
def Mesh.hazard (k : Mesh) (u : MeshUse) (start : Nat) : Bool := decide (start < k.lastStart) || k.plan.busy u start

/-- A command whose block has been read is planned. -/
def Mesh.occupy (k : Mesh) (u : MeshUse) (c : Cmd) : Mesh :=
  { k with
    lastStart := c.start
    plan := k.plan.occupy u c.start c.instr
    gangPlan := match c.instr with
      | .arrgang _ =>
        let m := BitVec.ofNat 16 (c.num 16 2)
        if maskCount m ≤ 1 then 0 else m
      | _ => k.gangPlan }

/-- The limits of a mesh block. -/
def State.meshOk (s : State) (c : Cmd) : Bool :=
  match c.instr with
  | .arrld _ => c.zero 20 44 && c.num 16 4 % 32 == 0
  | .arrscl _ => c.zero 20 44 && c.num 16 4 % 4 == 0
  | .arrsave _ | .arrrest _ => c.zero 20 44 && c.num 16 4 % 64 == 0
  | .arrgang _ => c.zero 18 46
  | .arrpass _ _ _ _ => c.passOk (s.core c.core).mesh.gangPlan
  | _ => match s.sweepB c with
    | some b => b.ok
    | none => false

/-- The bank-cycles that a mesh command holds. -/
def State.meshSpans (s : State) (c : Cmd) : List Span :=
  let t := c.start
  let a := c.num 16 4
  match c.instr with
  | .arrld _ => (List.range 62).map fun j => ⟨t + j, a + 32 * j, 32, .r⟩
  | .arrscl _ => (List.range 4).map fun j => ⟨t + j, a + 32 * j, 32, .r⟩
  | .arrsave _ => (List.range imageChunks).map fun j => ⟨t + j, a + 32 * j, 32, .w⟩
  | .arrrest _ => (List.range imageChunks).map fun j => ⟨t + j, a + 32 * j, 32, .r⟩
  | .arrgang _ => []
  | .arrpass _ _ _ _ =>
    let b := c.pass
    c.withPlane b.snd (b.spans (formOf c.fmt) (s.core c.core).mesh.gangPlan t)
  | _ => match s.sweepB c with
    | some b => b.spans c (s.sweepRecAt c.core) t
    | none => []

def State.updMesh (s : State) (core : Nat) (f : Mesh → Mesh) : State := s.updCore core fun k => { k with mesh := f k.mesh }
def State.mesh (s : State) (core : Nat) : Mesh := (s.core core).mesh

/-- The hazard names the issuing bundle, and ends the task (R185, R306). -/
def State.hazardFault (s : State) (c : Cmd) : State :=
  let s1 := (s.dropWork c.id).endCmd c.id .faulted
  match s1.moorOf c.core with
  | some m =>
    let t : Trap := ⟨0x05, some (slotIx .e), 10, true⟩
    if (s1.moor m).st = .idle then s1
    else if (s1.moor m).loose then s1.looseFault m c.core t c.pc
    else s1.takeTrapAt c.core .primary t c.pc none
  | none => s1

/-- A mesh block has been read: the hazard monitor judges the STARTs as they were compiled, in either mode. The command keeps the cycles
from which the banks are ready by then, and its own START. -/
def State.meshBlock (s : State) (c : Cmd) : State :=
  let k := s.mesh c.core
  if !s.meshOk c then s.engineFault c.id 3
  else
    let u := s.meshUse c k.gangPlan
    if k.hazard u c.start then s.hazardFault c
    else
      let s1 := s.reserve c (s.meshSpans c)
      match s1.cmd c.id with
      | some d =>
        if d.ended then s1
        else (s1.updCmd c.id fun x => { x with work := [k.plan.readyA, k.plan.readyS, c.start] }).updMesh c.core fun k => k.occupy u c
      | none => s1

/-! ### START (R170, R175, R178, R181, R186, R187) -/

/-- Two mesh commands of one kind have one START in their task's clock. -/
def Cmd.meets (c d : Cmd) : Bool := d.blk.length == 64 && d.startField == c.startField && d.opc == c.opc && d.cls == .mesh && d.q == .primary

/-- The commands of one kind that start together in the cores of a mask. -/
def State.gangCmds (s : State) (c : Cmd) (m : BitVec 16) : List Cmd :=
  s.cmds.filter fun d => !d.ended && c.meets d && d.core / coresPerCluster == c.core / coresPerCluster && m.getLsbD (d.core % coresPerCluster)

/-- The timing fault of a gang in one core: on its command of that kind, of this START first, or on the core where it has issued none. -/
def State.memberFault (s : State) (c : Cmd) (core : Nat) : State :=
  let ds := s.cmds.filter fun d => !d.ended && d.core == core && d.opc == c.opc && d.cls == .mesh && d.q == .primary
  match ds.find? c.meets with
  | some d => s.engineFault d.id 3
  | none => match ds with
    | d :: _ => s.engineFault d.id 3
    | [] => s.coreFault core 3

/-- A timing fault in every member, once in each (R186, R187). -/
def State.gangFault (s : State) (c : Cmd) (m : BitVec 16) : State :=
  ((List.range coresPerCluster).filter fun i => m.getLsbD i && i != c.core % coresPerCluster).foldl
    (fun t i => t.memberFault c (c.core / coresPerCluster * coresPerCluster + i)) (s.engineFault c.id 3)

/-- Every core of the mask issued the same `ARRGANG`. -/
def State.gangAgrees (s : State) (c : Cmd) : Bool :=
  let m := BitVec.ofNat 16 (c.num 16 2)
  let me := c.core % coresPerCluster
  let old := (s.mesh c.core).gang
  if maskCount m ≤ 1 then
    let need := if old = 0 then BitVec.ofNat 16 (2 ^ me) else old
    (s.gangCmds c need).length == maskCount need && (s.gangCmds c need).all fun d => decide (maskCount (BitVec.ofNat 16 (d.num 16 2)) ≤ 1)
  else m.getLsbD me && decide (maskCount m ≤ 12) && (s.gangCmds c m).length == maskCount m
    && (s.gangCmds c m).all fun d => d.num 16 2 == c.num 16 2

/-- The mask of the cores that an `ARRGANG` concerns. -/
def State.gangScope (s : State) (c : Cmd) : BitVec 16 :=
  let m := BitVec.ofNat 16 (c.num 16 2)
  if maskCount m ≤ 1 then (s.mesh c.core).gang else m

/-- The members of a gang issued passes that agree (R187). -/
def State.passAgrees (s : State) (c : Cmd) : Bool :=
  let g := (s.mesh c.core).gang
  if g = 0 then true
  else
    let b := c.pass
    let ds := s.gangCmds c g
    ds.length == maskCount g && ds.all fun d =>
      let x := d.pass
      x.mode == b.mode && x.rev == b.rev && x.dcorr == b.dcorr && x.rows == b.rows && x.first == b.first && x.last == b.last
        && x.oform == b.oform && x.olanes == b.olanes && x.ctl == b.ctl

/-- The two banks change places. -/
def Mesh.swapA (k : Mesh) : Mesh :=
  (List.range nRotors).foldl (fun m j =>
    let r := m.rotor j
    if r.front = r.shadow then m else m.setRotor j { r with front := r.shadow, shadow := r.front }) k
def Mesh.swapS (k : Mesh) : Mesh :=
  (List.range nLanes).foldl (fun m l =>
    let c := m.scale l
    m.setScale l { c with front := c.shadow, shadow := c.front, frontR := c.shadowR, shadowR := c.frontR }) k
/-- Every accumulator is 0. -/
def Mesh.clearAcc (k : Mesh) : Mesh :=
  let m := k.rot.foldl (fun m r => m.setRotor r.1 { m.rotor r.1 with acc := 0 }) k
  k.scl.foldl (fun m c => m.setScale c.1 { m.scale c.1 with acc := 0 }) m

/-- The mesh as a pass begins: swaps, cleared accumulators, drift products. -/
def PassB.begin (b : PassB) (k : Mesh) : Mesh :=
  let k1 := if b.swapA then k.swapA else k
  let k2 := if b.swapS then k1.swapS else k1
  let k3 := if b.clr then k2.clearAcc else k2
  let k4 := if b.rev then (driftAll k3 b.first b.last).zipIdx.foldl (fun m d => m.setDrift d.2 (BitVec.ofNat 32 d.1)) k3 else k3
  { k4 with fl := 0, acts := [] }

/-- Steps of a command: 4 forms or dissolves a gang, 5 is the last cycle of a command, 6 is a step that takes effect after the
accesses of its cycle, 7 clears VALID of a sweep record; from 8 on, four numbers for each vector or chunk, of which 2 and 3 plan raises. -/
def stepGang : Nat := 4
def stepEnd : Nat := 5
def stepAfter : Nat := 6
def stepValid : Nat := 7
/-- A step after all others of a cycle: an `EBBSWEEP` ends. -/
def stepTail : Nat := 7
def stepOf (v j : Nat) : Nat := firstLate + 4 * v + j
def firstStep : Nat := firstLate

/-- A swap of a pass comes before a load of that bank is ready: a load issued before the pass, so that the ready cycles are those that
stood when the pass's block was read (R167, R170). -/
def Cmd.swapEarly (c : Cmd) : Bool :=
  (c.pass.swapA && decide (c.work.getD 2 0 < c.work.getD 0 0)) || (c.pass.swapS && decide (c.work.getD 2 0 < c.work.getD 1 0))

/-- The command begins its work. -/
def State.meshStart (s : State) (c : Cmd) : State :=
  let t := c.start
  let a := c.num 16 4
  let k := s.mesh c.core
  match c.instr with
  | .arrld _ | .arrscl _ | .arrrest _ => s.addRead c.id t (stepOf 0 0) (s.spadPlace c a .r) 32
  | .arrsave _ => s.addLate c.id t (stepOf 0 0)
  | .arrgang _ => if s.gangAgrees c then s.addStep c.id (t + 8) stepGang else s.gangFault c (s.gangScope c)
  | .arrpass _ _ _ _ =>
    let b := c.pass
    if c.swapEarly then s.engineFault c.id 0x0F
    else if !s.passAgrees c then s.gangFault c k.gang
    else
      let s1 := s.updMesh c.core b.begin
      (s1.addRead c.id t (stepOf 0 0) (s.spadPlace c b.inA .r) (b.inBytes (formOf c.fmt))).addStep c.id (t + b.occupied k.gang - 1) stepEnd
  | _ => match s.sweepB c with
    | some b =>
      let sw : Sweep := ⟨c.id, b.m, b.n, b.tileAt, b.stride, b.codesAt, b.og, b.snd, [], [], b.next, 0, [], 0, false⟩
      let s1 := s.updCore c.core fun x => { x with
        mesh := { x.mesh with sweep := some sw }, sweepst := if b.resume then x.sweepst else 0 }
      s1.addRead c.id t (stepOf 0 0) (s.spadPlace c (if b.resume then s1.sweepRecAt c.core else b.tileAt) .r) (if b.resume then 32 else b.firstLen 0)
    | none => s.engineFault c.id 3

/-! ### ARRPASS, vector by vector (R172 to R178, R187) -/

/-- A plane byte of each element of a vector that is read now. -/
def State.planeIn (s : State) (c : Cmd) (a n eb : Nat) : List Nat :=
  (List.range n).map fun i =>
    let p := s.engBytes c (c.planeOff (a + i * eb)) 1
    leNat p.1 % 128 ||| (if p.2.any id then 64 else 0)

/-- The lanes that a pass reads now at an address. -/
def State.vecIn (s : State) (c : Cmd) (b : PassB) (a : Nat) : List Lane × Flg :=
  let f := formOf c.fmt
  let m := s.engBytes c a (b.inBytes f)
  lanesIn f b.inLanes m.1 m.2 (if b.snd then some (s.planeIn c a b.inLanes (formBytes f)) else none)

/-- The pass that a core of the gang runs. -/
def State.passOf (s : State) (c : Cmd) (core : Nat) : Option Cmd :=
  s.cmds.find? fun d => !d.ended && d.core == core && c.meets d

/-- The core that the value of a lane comes from at the exchange (R187). -/
def exchFrom (gang : BitVec 16) (core lane : Nat) (rev : Bool) : Nat :=
  let g := maskCount gang
  let h := maskRank gang (core % coresPerCluster)
  let r := if rev then (h + lane) % g else (h + g * nLanes - lane) % g
  core / coresPerCluster * coresPerCluster + maskNth gang r

/-- Each lane from the core that the exchange names, or its own. -/
def exchange (gang : BitVec 16) (crosses : Bool) (core : Nat) (rev : Bool) (own_ : List Lane) (f : Nat → List Lane) : List Lane :=
  if crosses then
    let all := (List.range 16).map fun i => if gang.getLsbD i then f (core / coresPerCluster * coresPerCluster + i) else []
    (List.range own_.length).map fun l => (all.getD (exchFrom gang core l rev % coresPerCluster) []).getD l (Lane.zero 24)
  else own_

/-- The cores whose inputs a member's vector draws on. -/
def gangCores (gang : BitVec 16) (crosses : Bool) (core : Nat) : List Nat :=
  if crosses then ((List.range 16).filter fun i => gang.getLsbD i).map fun i => core / coresPerCluster * coresPerCluster + i else [core]

/-- The ECC check of the vectors, with their plane bytes, that the cores of a gang read now at addresses of their passes (R190, R323). -/
def State.eccVecs (s : State) (c : Cmd) (cores : List Nat) (at_ : PassB → Nat) : State :=
  cores.foldl (fun t core => match t.passOf c core with
    | some d => t.eccSpans d (d.withPlane d.pass.snd [⟨s.now, at_ d.pass, d.pass.inBytes (formOf d.fmt), .r⟩])
    | none => t) s

/-- Vector v of a core's forward pass, up to the exchange. -/
def State.fwdPart (s : State) (c : Cmd) (v core : Nat) : (List Lane × Flg) × Nat :=
  match s.passOf c core with
  | none => (([], 0), 0)
  | some d =>
    let b := d.pass
    let i := s.vecIn d b (b.inA + v * b.istr)
    let r := fwdLow (s.mesh core) b.mode.p b.first b.last b.scl i.1
    ((r.1, i.2 ||| r.2), leastSnd b.mode.p i.1)

/-- The sounding of a pass's results (R145). -/
def PassB.outSnd (b : PassB) (m : Nat) : Nat := Nat.min (b.mode.p - clog2 b.stages) m

/-- The plane bytes of an output vector at an address: one for each word that it touches. DESIGN CHOICE (log 40): two 16-bit elements of one word
give it the least sounding and both their poison, as R150 says of `VSTS`; R171 does not say. -/
def planeOut (a eb : Nat) (ps : List (Nat × Bool)) : List Byte :=
  (List.range (planeLen a (ps.length * eb))).map fun w =>
    let mine := (ps.zipIdx.filter fun p => (a + p.2 * eb) / 4 == a / 4 + w).map (·.1)
    BitVec.ofNat 8 (mine.foldl (fun x p => Nat.min x p.1) 63 + (if mine.any (·.2) then 64 else 0))

/-- Schedules the write of an output vector, with its raise. -/
def State.vecOut (s : State) (c : Cmd) (b : PassB) (a t step : Nat) (o : VecOut) : State :=
  let pl := if b.snd then some (s.spadPlace c (c.planeOff a) .w, planeOut a (formBytes b.form) o.plane) else none
  let s1 := (s.updMesh c.core fun k => { k with fl := k.fl ||| o.fl }).addWrite c.id t (s.spadPlace c a .w) o.bytes o.poi pl
  if b.og = noGauge then s1 else s1.addStep c.id (t - 1) step

/-- The read of the next vector. -/
def State.nextVec (s : State) (c : Cmd) (b : PassB) (v : Nat) : State :=
  if v + 1 < b.rows then
    s.addRead c.id (b.readAt c.start (v + 1)) (stepOf (v + 1) 0) (s.spadPlace c (b.inA + (v + 1) * b.istr) .r) (b.inBytes (formOf c.fmt))
  else s

/-- Vector v of a forward pass is read. -/
def State.passFwd (s0 : State) (c : Cmd) (v : Nat) : State :=
  let b := c.pass
  let g := (s0.mesh c.core).gang
  let x := b.crosses g
  let s := s0.eccVecs c (gangCores g x c.core) fun p => p.inA + v * p.istr
  let me := s.fwdPart c v c.core
  let ls := exchange g x c.core false me.1.1 fun core => (s.fwdPart c v core).1.1
  let r := fwdHigh (s.mesh c.core) b.mode.p b.first b.last ls
  let m := (gangCores g x c.core).foldl (fun n core => Nat.min n (s.fwdPart c v core).2) b.mode.p
  let o := lanesOut b.form b.outLanes (b.outSnd m) r.1
  let s1 := s.updMesh c.core fun k => { k with fl := k.fl ||| me.1.2 ||| r.2 }
  (s1.vecOut c b (b.outA + v * b.ostr) (b.writeAt g c.start v) (stepOf v 2) o).nextVec c b v

/-- The activations of vector v of a reverse pass are read. -/
def State.passActs (s0 : State) (c : Cmd) (v : Nat) : State :=
  let b := c.pass
  let s := s0.eccVecs c [c.core] fun p => p.inA + v * p.istr
  let i := s.vecIn c b (b.inA + v * b.istr)
  (s.updMesh c.core fun k => { k with acts := i.1, fl := k.fl ||| i.2 }).addRead c.id (s.now + 1) (stepOf v 1)
    (s.spadPlace c (b.gin + v * b.istr) .r) (b.inBytes (formOf c.fmt))

/-- What a core's reverse pass delivers before the exchange: its mesh and flags, activations and gradients, and the least sounding
that came in. -/
structure BackPart where
  mesh : Mesh
  fl : Flg
  xs : List Lane
  gs : List Lane
  snd : Nat
  deriving DecidableEq, Repr

def State.backPart (s : State) (c : Cmd) (v core : Nat) : BackPart :=
  let k := s.mesh core
  match s.passOf c core with
  | none => ⟨k, 0, [], [], 0⟩
  | some d =>
    let b := d.pass
    let i := s.vecIn d b (b.gin + v * b.istr)
    let r := backHigh b.mode.p b.first b.last k.acts i.1 k
    ⟨r.1.1, r.1.2 ||| i.2, r.2.1, r.2.2, Nat.min (leastSnd b.mode.p k.acts) (leastSnd b.mode.p i.1)⟩

/-- The correction factor of a lane under `.dcorr`, and whether it is poisoned (R178, R190). DESIGN CHOICE (log 40): its rounding, like
those of the drift products, sets no flag. -/
def PassB.corr (b : PassB) (k : Mesh) (l : Nat) : Option (BitVec 32 × Bool) :=
  if b.dcorr then some (BitVec.ofNat 32 (fmt32.rcp .rne (k.drift l).toNat).1, k.driftPoi b.first b.last l) else none

/-- The gradients of vector v of a reverse pass are read. DESIGN CHOICE (log 40): all that the vector does in the cells, to accumulators and
`POI`, is done in this cycle; R175 gives no cycle to a single cell. -/
def State.passGrads (s0 : State) (c : Cmd) (v : Nat) : State :=
  let b := c.pass
  let g := (s0.mesh c.core).gang
  let x := b.crosses g
  let s := s0.eccVecs c (gangCores g x c.core) fun p => p.gin + v * p.istr
  let me := s.backPart c v c.core
  let xs := exchange g x c.core true me.xs fun core => (s.backPart c v core).xs
  let gs := exchange g x c.core true me.gs fun core => (s.backPart c v core).gs
  let r := if b.scl || b.dcorr then backLow b.mode.p b.first b.last b.scl (b.corr me.mesh) xs gs me.mesh
    else
      let a := active b.first b.last 0 31
      backStages b.mode.p a.2 (a.1 + a.2 - 1) xs gs me.mesh 0
  let m := (gangCores g x c.core).foldl (fun n core => Nat.min n (s.backPart c v core).snd) b.mode.p
  let snd := b.outSnd m
  let w := b.writeAt g c.start v
  let s1 := s.updMesh c.core fun k => { r.1.1 with fl := k.fl ||| me.fl ||| r.1.2 }
  let s2 := s1.vecOut c b (b.outA + v * b.ostr) w (stepOf v 2) (lanesOut b.form b.outLanes snd r.2.1)
  (s2.vecOut c b (b.gout + v * b.ostr) (w + 1) (stepOf v 3) (lanesOut b.form b.outLanes snd r.2.2)).nextVec c b v

/-- The command's state ends after the accesses of this cycle. -/
def State.meshDone (s : State) (c : Cmd) : State := s.addStep c.id s.now stepAfter

/-- Sets flags of the primary sequencer of a core. -/
def State.meshFlags (s : State) (core : Nat) (fl : Flg) : State :=
  s.updSeq core .primary fun x => { x with flags := x.flags ||| fl }

/-- The last cycle of a pass: its flags, and the drift that it reports (R167, R178). -/
def State.passEnd (s : State) (c : Cmd) : State :=
  let b := c.pass
  let k := s.mesh c.core
  let ds := (List.range nLanes).map fun l => (k.drift l).toNat
  let w := driftWorst ds
  let s1 := s.meshFlags c.core (k.fl ||| flagIf (b.rev && driftOver ds b.ndlim) fND)
  let s2 := if b.rev then s1.updCore c.core fun x => { x with driftv := BitVec.ofNat 64 (w * 2 ^ 32 + ds.getD w 0) } else s1
  s2.meshDone c

/-! ### Loads and images (R168, R169, R189) -/

/-- Sixteen codes go into the shadow bank; each sets or clears its cell's POI. -/
def Mesh.loadCodes (k : Mesh) (j : Nat) (b : List Byte) (ps : List Bool) : Mesh :=
  (List.range 16).foldl (fun m i =>
    let n := 16 * j + i
    m.setRotor n { m.rotor n with shadow := BitVec.ofNat 16 (leNat ((b.drop (2 * i)).take 2)), poi := ps.getD (2 * i) false }) k

/-- A scale that a block may hold: a normal number or ±0. -/
def scaleOk (w : Nat) : Bool :=
  match fmt32.dec w with
  | .fin _ m _ => m == 0 || decide (2 ^ 23 ≤ m)
  | _ => false

/-- The 32 scales go into the shadow bank (R169). DESIGN CHOICE (log 40): the rounding of a reciprocal sets no flag. -/
def Mesh.loadScales (k : Mesh) (b : List Byte) (ps : List Bool) : Mesh :=
  (List.range nLanes).foldl (fun m l =>
    let w := leNat ((b.drop (4 * l)).take 4)
    m.setScale l { m.scale l with
      shadow := BitVec.ofNat 32 w
      shadowR := BitVec.ofNat 32 (if w % 2 ^ 31 = 0 then 0 else (fmt32.rcp .rne w).1)
      poi := ps.getD (4 * l) false }) k

/-- The next chunk of a load is read in the next cycle; the last one leaves the command to its end. -/
def State.nextChunk (s : State) (c : Cmd) (j n tail : Nat) : State :=
  if j + 1 < n then s.addRead c.id (s.now + 1) (stepOf (j + 1) 0) (s.spadPlace c (c.num 16 4 + 32 * (j + 1)) .r) 32
  else s.addStep c.id (c.start + tail) stepEnd

/-- Chunk j of `ARRLD`, `ARRSCL` or `ARRREST`. -/
def State.loadChunk (s : State) (c : Cmd) (j : Nat) : State :=
  let m := s.engBytes c (c.num 16 4 + 32 * j) 32
  match c.instr with
  | .arrld _ => (s.updMesh c.core fun k => k.loadCodes j m.1 m.2).nextChunk c j 62 69
  | .arrscl _ =>
    let d := c.data ++ m.1
    let p := c.poi ++ m.2
    if j < 3 then (s.updCmd c.id fun x => { x with data := d, poi := p }).nextChunk c j 4 5
    else if (List.range nLanes).all fun l => scaleOk (leNat ((d.drop (4 * l)).take 4)) then
      (s.updMesh c.core fun k => k.loadScales d p).nextChunk c j 4 5
    else s.engineFault c.id 3
  | _ =>
    if j = 0 ∧ leNat (m.1.take 2) ≠ 1 then s.engineFault c.id 3
    else (s.updMesh c.core fun k => k.load j m.1 m.2).nextChunk c j imageChunks 545

/-- Chunk j of `ARRSAVE` is written. -/
def State.saveChunk (s : State) (c : Cmd) (j : Nat) : State :=
  let b := (s.mesh c.core).chunk j
  let s1 := (s.engWrite (s.spadPlace c (c.num 16 4 + 32 * j) .w) b (b.map fun _ => false)).tally c.id 32 0
  if j + 1 < imageChunks then s1.addLate c.id (s.now + 1) (stepOf (j + 1) 0) else s1.addStep c.id (c.start + 537) stepEnd

/-! ### ARRSWEEP (R179 to R184, R192, R193) -/

def Sweep.b (w : Sweep) : SweepB := ⟨w.tileAt, w.stride, w.m, w.n, w.codesAt, w.ogauge, w.plane, w.next, false⟩

/-- The lanes of one run of the tile. -/
def State.runIn (s : State) (c : Cmd) (b : SweepB) (r : Nat × Nat) : List Lane × Flg :=
  let a := b.elemAt r.1
  let m := s.engBytes c a (4 * r.2)
  let pl := s.planeIn c a r.2 4
  let ls := (List.range r.2).map fun i =>
    let y := if b.snd then pl.getD i 0 else 63
    laneIn fmt32 24 (leNat ((m.1.drop (4 * i)).take 4)) (m.2.getD (4 * i) false || decide (64 ≤ y % 128)) (y % 64)
  (ls.map (·.1), ls.foldl (fun f l => f ||| l.2) 0)

def State.updSweep (s : State) (core : Nat) (f : Sweep → Sweep) : State :=
  s.updMesh core fun k => { k with sweep := k.sweep.map f }

/-- The bytes of a sweep record (R183), with their poison. -/
def sweepBytes (w : Sweep) (residual : Nat) : List Byte × List Bool :=
  let head := natBytes 2 w.next ++ [BitVec.ofNat 8 w.m, BitVec.ofNat 8 w.n] ++ natBytes 4 residual ++ natBytes 4 w.tileAt
    ++ natBytes 2 w.stride ++ natBytes 2 0 ++ natBytes 4 w.codesAt ++ natBytes 4 w.ogauge
    ++ [BitVec.ofNat 8 (1 + (if w.plane then 2 else 0))] ++ natBytes 7 0
  (head ++ w.tile.flatMap (fun l => natBytes 4 l.val)
      ++ w.tile.map (fun l => BitVec.ofNat 8 (l.snd.toNat + (if l.poi then 64 else 0)))
      ++ w.codes.flatMap (fun c => natBytes 2 c.1.toNat),
    head.map (fun _ => false) ++ w.tile.flatMap (fun l => List.replicate 4 l.poi) ++ w.tile.map (fun _ => false)
      ++ w.codes.flatMap (fun c => [c.2, c.2]))

/-- A sweep's occupancy ends with its record: in a cycle of real time, at the cycle at which the task's clock stands. -/
def Mesh.cut (k : Mesh) (stop real : Nat) : Mesh := { k with plan := { k.plan with dataEnd := stop }, live := { k.live with dataEnd := real } }

/-- The mesh stops: it writes the record from the next cycle on, and the command's occupancy ends with it. -/
def State.writeSweep (s : State) (c : Cmd) (w : Sweep) : State :=
  let a := s.sweepRecAt c.core
  let d := sweepBytes w ((s.core c.core).sweepst.toNat % 2 ^ 32)
  let n := ceilDiv d.1.length 32
  let s0 := { s with holds := s.holds.filter fun h => h.own != HOwn.eng c.id }
  let s1 := (List.range n).foldl (fun u j =>
    u.addWrite c.id (s.now + 1 + j) (s.spadPlace c (a + 32 * j) .w) ((d.1.drop (32 * j)).take 32) ((d.2.drop (32 * j)).take 32) none) s0
  let spans := (List.range n).map fun j => (⟨s.now + 1 + j, a + 32 * j, Nat.min 32 (d.1.length - 32 * j), .w⟩ : Span)
  ((s1.reserve c spans).addStep c.id (s.now + n) stepEnd).updMesh c.core fun k =>
    k.cut ((c.mooring.bind fun m => (s.moor m).frozen).getD (s.now + 1 + n)) (s.now + 1 + n)

/-- The last elimination has ended: the tile and the code list are written from the next cycle on (R182). -/
def State.sweepOut (s : State) (c : Cmd) (w : Sweep) (resume : Bool) : State :=
  let b := w.b
  let t0 := s.now + 1
  let s1 := (List.range b.lt).foldl (fun u j =>
    let u1 := (b.runs j).foldl (fun u r =>
      let ls := (w.tile.drop r.1).take r.2
      let a := b.elemAt r.1
      let vs := ls.map fun l => fpOfLane fmt32 l.val
      let pl := if w.plane then some (u.spadPlace c (c.planeOff a) .w, ls.map fun l => BitVec.ofNat 8 (l.snd.toNat + (if l.poi then 64 else 0)))
        else none
      (u.addWrite c.id (t0 + j) (u.spadPlace c a .w) (vs.flatMap fun v => natBytes 4 v.1) (ls.flatMap fun l => List.replicate 4 l.poi)
        pl).updSweep c.core fun x => { x with flags := vs.foldl (fun f v => f ||| v.2) x.flags }) u
    if w.ogauge = noGauge then u1
    else if j = 0 then u1.planRaise c w.ogauge (4 * Nat.min 8 (w.m * w.n))
    else u1.addStep c.id (t0 + j - 1) (stepOf j 2)) s
  let t1 := t0 + b.lt
  let s2 := (List.range b.lc).foldl (fun u j =>
    let cs := (w.codes.drop (16 * j)).take 16
    let u1 := u.addWrite c.id (t1 + j) (u.spadPlace c (b.codesAt + 32 * j) .w) (cs.flatMap fun x => natBytes 2 x.1.toNat)
      (cs.flatMap fun x => [x.2, x.2]) none
    if w.ogauge = noGauge then u1 else u1.addStep c.id (t1 + j - 1) (stepOf j 3)) s1
  let e := t1 + b.lc + 3
  let s3 := s2.addStep c.id e stepEnd
  if resume then s3.addLate c.id e stepValid else s3

/-- A phase of a sweep has ended: the next elimination, the results, or the record of an interrupted sweep. -/
def State.sweepNext (s : State) (c : Cmd) : State :=
  match (s.mesh c.core).sweep with
  | none => s
  | some w =>
    let resume := match c.instr with
      | .arrsweep _ r => r
      | _ => false
    if w.stopping then s.writeSweep c w
    else if w.b.elims ≤ w.next then s.sweepOut c w resume
    else s.updSweep c.core fun x => { x with due := s.now + x.b.elimLen x.next }

/-- Chunk j of the tile is read (R182). -/
def State.sweepTile (s : State) (c : Cmd) (j : Nat) : State :=
  match (s.mesh c.core).sweep with
  | none => s
  | some w =>
    let b := w.b
    let s0 := s.eccSpans c (c.withPlane b.snd (b.tileSpans j s.now .r))
    let rs := (b.runs j).map (s0.runIn c b)
    let ls := rs.flatMap (·.1)
    let s1 := s0.updSweep c.core fun x => { x with
      tile := x.tile ++ ls, base := x.base ++ ls.map (·.snd), flags := rs.foldl (fun f r => f ||| r.2) x.flags }
    if j + 1 < b.lt then s1.addRead c.id (s.now + 1) (stepOf (j + 1) 0) (s.spadPlace c (b.elemAt (8 * (j + 1))) .r) (b.firstLen (j + 1))
    else s1.sweepNext c

/-- The tile, the soundings and the codes of a record. -/
def Sweep.restore (w : Sweep) (d : List Byte) (ps : List Bool) : Sweep :=
  let n (off len : Nat) : Nat := leNat ((d.drop off).take len)
  let mn := w.m * w.n
  let ls := (List.range mn).map fun i =>
    let y := n (32 + 4 * mn + i) 1
    (⟨BitVec.ofNat 32 (n (32 + 4 * i) 4), ps.getD (32 + 4 * i) false || decide (64 ≤ y % 128), BitVec.ofNat 6 y⟩ : Lane)
  { w with
    tile := ls
    base := ls.map (·.snd)
    codes := (List.range w.next).map fun e => (BitVec.ofNat 16 (n (32 + 5 * mn + 2 * e) 2), ps.getD (32 + 5 * mn + 2 * e) false) }

/-- Chunk j of the record is read (R184). -/
def State.sweepRecord (s : State) (c : Cmd) (j : Nat) : State :=
  match (s.mesh c.core).sweep with
  | some w =>
    let a := s.sweepRecAt c.core
    let len := { w.b with next := w.next }.recBytes
    let m := s.engBytes c (a + 32 * j) (Nat.min 32 (len - 32 * j))
    let d := c.data ++ m.1
    let p := c.poi ++ m.2
    let s0 := if j = 0 then s.updCore c.core fun x => { x with
        sweepst := BitVec.ofNat 64 (leNat (m.1.take 2) * 2 ^ 32 + leNat ((m.1.drop 4).take 4)) } else s
    if 32 * (j + 1) < len then
      (s0.updCmd c.id fun x => { x with data := d, poi := p }).addRead c.id (s.now + 1) (stepOf (j + 1) 0) (s.spadPlace c (a + 32 * (j + 1)) .r)
        (Nat.min 32 (len - 32 * (j + 1)))
    else (s0.updSweep c.core fun x => x.restore d p).sweepNext c
  | none => s

/-- `SWEEP_ELIMINATION`: the elimination in progress ends in this cycle (R181). -/
def State.elimEnd (s : State) (core : Nat) : State :=
  match (s.mesh core).sweep with
  | none => s
  | some w =>
    if w.due ≠ s.now then s
    else match s.cmd w.cmd with
      | none => s
      | some c =>
        let r := eliminate w.m w.n w.next w.base w.tile
        let old := (s.core core).sweepst.toNat % 2 ^ 32
        let res := match r.residual with
          | some x => Nat.max old x
          | none => old
        let s1 := s.updCore core fun k => { k with
          sweepst := BitVec.ofNat 64 ((w.next + 1) % 2 ^ 16 * 2 ^ 32 + res)
          mesh := { k.mesh with sweep := some { w with
            tile := r.tile, next := w.next + 1, codes := w.codes ++ [(BitVec.ofNat 16 r.code, r.codePoi)] } } }
        (s1.meshFlags core r.fl).sweepNext c

def execSweepElimination (core : Nat) (s : State) : Out State :=
  if core < nCores then .next (s.elimEnd core) else .fault .noSuchUnit

/-- The last cycle of a sweep: the flags of its edges. -/
def State.sweepEnd (s : State) (c : Cmd) : State :=
  let fl : Flg := match (s.mesh c.core).sweep with
    | some w => w.flags
    | none => 0
  ((s.meshFlags c.core fl).updMesh c.core fun k => { k with sweep := none }).meshDone c

/-! ### Steps -/

/-- A numbered step of a mesh command. -/
def State.meshStep (s : State) (c : Cmd) (k : Nat) : State :=
  let v := (k - firstStep) / 4
  let j := (k - firstStep) % 4
  if k = stepAfter then s.endCmd c.id .done
  else match c.instr with
  | .arrpass _ _ rev _ =>
    let b := c.pass
    if k = stepEnd then s.passEnd c
    else if 2 ≤ j then s.planRaise c b.og b.outBytes
    else if rev then (if j = 0 then s.passActs c v else s.passGrads c v)
    else s.passFwd c v
  | .arrsweep _ resume =>
    if k = stepEnd then s.sweepEnd c
    else if k = stepValid then
      let a := s.sweepRecAt c.core
      let x := s.engBytes c (a + 24) 1
      s.engWrite (s.spadPlace c (a + 24) .w) (x.1.map fun y => y &&& 0xFE) x.2
    else if j = 2 then
      match (s.mesh c.core).sweep with
      | some w => s.planRaise c w.ogauge (4 * Nat.min 8 (w.m * w.n - 8 * v))
      | none => s
    else if j = 3 then
      match (s.mesh c.core).sweep with
      | some w => s.planRaise c w.ogauge (w.b.codeLen v)
      | none => s
    else if resume then s.sweepRecord c v
    else s.sweepTile c v
  | .arrsave _ => if k = stepEnd then s.meshDone c else s.saveChunk c v
  | .arrgang _ =>
    let m := BitVec.ofNat 16 (c.num 16 2)
    (s.updMesh c.core fun x => { x with gang := if maskCount m ≤ 1 then 0 else m }).endCmd c.id .done
  | _ => if k = stepEnd then s.meshDone c else s.loadChunk c v

end Sys2Proof.Machine
end

