-- ==== Sys2Proof/Machine/VecMem.lean ====
section
/-! DEFINITION. Sys2Proof/Machine/VecMem.lean: tiles to and from the scratchpad: whole tiles, gathers and scatters, records (R148, R150,
R161, R277 to R280, R428 to R431). -/

namespace Sys2Proof.Machine
open Config

/-! ### Whole tiles (R150, R161, R428) -/

/-- Chunks of 128 bytes. -/
def nChunks (bytes : Nat) : Nat := ceilDiv bytes 128
def chunkLen (bytes j : Nat) : Nat := Nat.min 128 (bytes - 128 * j)

/-- The plane bytes of n bytes from a on. -/
def planeCount (a n : Nat) : Nat := (a % 4 + n + 3) / 4

/-- a = (Hn + 64 × off) mod 2^64. -/
def State.tileAddr (s : State) (h : HRd) (off : BitVec 7) : Nat := ((s.rd h.ref).val + BitVec.ofInt 64 (off.toInt * 64)).toNat

/-- The traps of a range of the own scratchpad: its end, its alignment to al, a poisoned H address. -/
def State.rangeTraps (s : State) (sl : Slot) (h : HRd) (a n al : Nat) : List Trap :=
  trapIf (decide (spadBytes < a + n)) (.transl sl a) ++ trapIf (a % al != 0) (.misal sl a) ++ s.poisonTraps sl [h.ref]

/-- Chunk j of a transfer: its traps. -/
def State.chunkTraps (s : State) (sl : Slot) (a bytes j t : Nat) (p : Perm) (plane : Bool) : List Trap :=
  let c := a + 128 * j
  let n := chunkLen bytes j
  s.accTraps sl .own c n 1 p t 0 ++ (if plane then s.accTraps sl .own (s.planeOff c) (planeCount c n) 1 p t 0 else [])

def State.chunkUses (s : State) (sl : Slot) (a bytes j t : Nat) (p : Perm) (plane : Bool) : List Use :=
  let c := a + 128 * j
  let n := chunkLen bytes j
  s.accUses sl .own c n p t ++ (if plane then s.accUses sl .own (s.planeOff c) (planeCount c n) p t else [])

/-- Schedules the read of chunk j for the entry that waits for access `link`. -/
def State.chunkRead (s : State) (sl : Slot) (a bytes j t : Nat) (plane : Bool) (link : Nat) : State :=
  let c := a + 128 * j
  let n := chunkLen bytes j
  let pl := if plane then some (s.vplace (s.planeOff c) .r) else none
  (s.holdUses .own (s.chunkUses sl a bytes j t .r plane)).addAccess t c (.vload (128 * j) n (c % 4) pl) false false .own sl link

/-- A tile that lands once its chunks, read from `t0` on, are in. -/
def State.tileRead (s : State) (f : VW) (a bytes lat t0 : Nat) (plane : Bool) (eff : QEff) : State :=
  let link := s.nextId
  let u := (List.range (nChunks bytes)).foldl (fun u j => u.chunkRead f.slot a bytes j (t0 + j) plane link) s
  u.push ⟨s.now + lat, eff, 0, none, some link, false, 0, some .own, s.now⟩

/-- `VLD` and `VLDS`. -/
def State.vload (s : State) (f : VW) (d : Fin 16) (h : HRd) (off : BitVec 7) (plane : Bool) : Out State :=
  let a := s.tileAddr h off
  let bytes := s.kore.tileBytes f
  let nc := nChunks bytes
  let lat := 4 + nc - 1 + (if plane then 1 else 0)
  s.issue ⟨f.slot, nc, [h.ref], [⟨vref f d.val, lat⟩],
      trapIf (plane && s.kore.form.isSx) (.illegal f.slot) ++ s.rangeTraps f.slot h a bytes s.kore.eb
        ++ (List.range nc).flatMap (fun j => s.chunkTraps f.slot a bytes j (s.now + 2 + j) .r plane),
      (List.range nc).any fun j => s.useWaits .own (s.chunkUses f.slot a bytes j (s.now + 2 + j) .r plane)⟩
    fun t => t.tileRead f a bytes lat (t.now + 2) plane (.vec f d.val 0 bytes VReg.zero)

def execVld (sl : VW) (d : Fin 16) (h : HRd) (off : BitVec 7) (s : State) : Out State := s.vload sl d h off false
def execVlds (sl : VW) (d : Fin 16) (h : HRd) (off : BitVec 7) (s : State) : Out State := s.vload sl d h off true

/-- The bytes of elements, and the poison of each byte. -/
def elemBytes (eb : Nat) (es : List Reg) : List Byte := es.flatMap fun e => natBytes eb e.val.toNat
def elemPoison (eb : Nat) (es : List Reg) : List Bool := es.flatMap fun e => List.replicate eb e.poi

/-- The plane byte of the word of address w: the least sounding and the joint poison of the elements in it (R150). DESIGN CHOICE (log 39):
the least is that of the stored soundings, so that elements of sounding 63 give 63, not p. -/
def planeOf (a eb : Nat) (es : List Reg) (w : Nat) : Byte :=
  let mine := ((List.range es.length).filter fun i => (a + i * eb) / 4 == w).map fun i => es.getD i Reg.zero
  BitVec.ofNat 8 (mine.foldl (fun m e => Nat.min m e.snd.toNat) 63 + (if mine.any (·.poi) then 64 else 0))

/-- Schedules the write of chunk j. -/
def State.chunkWrite (s : State) (sl : Slot) (a j t eb : Nat) (es : List Reg) (plane : Bool) : State :=
  let bytes := es.length * eb
  let c := a + 128 * j
  let n := chunkLen bytes j
  let pl := if plane then
      some (s.vplace (s.planeOff c) .w, (List.range (planeCount c n)).map fun i => planeOf a eb es (c / 4 + i))
    else none
  (s.holdUses .own (s.chunkUses sl a bytes j t .w plane)).addAccess t c
    (.store (((elemBytes eb es).drop (128 * j)).take n) (((elemPoison eb es).drop (128 * j)).take n) pl) true false .own sl s.nextId

/-- `VST` and `VSTS`. -/
def State.vstore (s : State) (f : VW) (d : Fin 16) (h : HRd) (off : BitVec 7) (plane : Bool) : Out State :=
  let a := s.tileAddr h off
  let bytes := s.kore.tileBytes f
  let nc := nChunks bytes
  s.issue ⟨f.slot, nc, [vref f d.val, h.ref], [],
      trapIf (plane && s.kore.form.isSx) (.illegal f.slot) ++ s.rangeTraps f.slot h a bytes s.kore.eb
        ++ (List.range nc).flatMap (fun j => s.chunkTraps f.slot a bytes j (s.now + 2 + j) .w plane),
      (List.range nc).any fun j => s.useWaits .own (s.chunkUses f.slot a bytes j (s.now + 2 + j) .w plane)⟩
    fun t => (List.range nc).foldl
      (fun u j => u.chunkWrite f.slot a j (t.now + 2 + j) s.kore.eb (s.tile f d.val) plane) t

def execVst (sl : VW) (d : Fin 16) (h : HRd) (off : BitVec 7) (s : State) : Out State := s.vstore sl d h off false
def execVsts (sl : VW) (d : Fin 16) (h : HRd) (off : BitVec 7) (s : State) : Out State := s.vstore sl d h off true

/-! ### Gathers and scatters (R429, R430) -/

/-- The addresses of the first count offsets of `Q0`. -/
def State.gatherAddrs (s : State) (h : HRd) (count : Nat) : List Nat :=
  (s.kore.q0.take count).map fun o => ((s.rd h.ref).val.toNat + o.toNat * s.kore.eb) % 2 ^ 64

/-- Two bank-cycles in one bank but in different granules. -/
def gatherConflict (us : List Use) : Bool := us.any fun u => us.any fun w => u.res == w.res && u.gran != w.gran

/-- The timing fault of a pop that finds too few entries (R260): in loose mode it waits (R326). -/
def State.popTraps (s : State) (count : Nat) : List Trap :=
  trapIf (decide (s.kore.q0.length < count)) (if s.openPool then ⟨causeWait, none, 0, false⟩ else ⟨0x20, none, 0, true⟩)

/-- What `VLDX` and `VSTX` check at issue. -/
def State.gatherTraps (s : State) (f : VW) (h : HRd) (count t : Nat) (p : Perm) : List Trap :=
  let sl := f.slot
  let eb := s.kore.eb
  let as := s.gatherAddrs h count
  let hv := (s.rd h.ref).val.toNat
  let us := as.flatMap fun a => s.accUses sl .own a eb p t
  trapIf (decide (s.kore.elems f < count)) (.illegal sl) ++ s.secondaryProt sl
    ++ as.flatMap (fun a => trapIf (decide (spadBytes < a + eb)) (.transl sl a)) ++ trapIf (hv % eb != 0) (.misal sl hv)
    ++ s.poisonTraps sl [h.ref] ++ trapIf (gatherConflict us) (.sched sl 4) ++ as.flatMap (fun a => s.accTraps sl .own a eb 1 p t 0)
    ++ s.popTraps count

/-- The offsets leave `Q0`. -/
def State.pop (s : State) (count : Nat) : State := s.updCore s.ctx.core fun k => { k with q0 := k.q0.drop count }

/-- Schedules the read of element j at an address. -/
def State.gatherRead (s : State) (f : VW) (t link : Nat) (x : Nat × Nat) : State :=
  let eb := s.kore.eb
  s.addAccess t x.2 (.vload (x.1 * eb) eb (x.2 % 4) none) false false .own f.slot link

def execVldx (sl : VW) (d : Fin 16) (h : HRd) (n : Fin 32) (s : State) : Out State :=
  let count := n.val + 1
  let bytes := s.kore.tileBytes sl
  let nc := nChunks bytes
  let lat := 4 + nc - 1 + 2
  let as := s.gatherAddrs h count
  s.issue ⟨sl.slot, nc, [h.ref], [⟨vref sl d.val, lat⟩], s.gatherTraps sl h count (s.now + 2) .r, false⟩ fun t =>
    let link := t.nextId
    let u := (t.pop count).holdUses .own (as.flatMap fun a => s.accUses sl.slot .own a s.kore.eb .r (s.now + 2))
    ((as.zipIdx.map fun p => (p.2, p.1)).foldl (fun u x => u.gatherRead sl (s.now + 2) link x) u).push
      ⟨s.now + lat, .vec sl d.val 0 bytes VReg.zero, 0, none, some link, false, 0, some .own, s.now⟩

/-- Schedules the write of one element at an address. -/
def State.scatterWrite (s : State) (f : VW) (t : Nat) (x : Nat × Reg) : State :=
  let eb := s.kore.eb
  s.addAccess t x.1 (.store (natBytes eb x.2.val.toNat) (List.replicate eb x.2.poi) none) true false .own f.slot s.nextId

/-- Of two elements at one address, the later is the one written (R429). -/
def lastAt : List (Nat × Reg) → List (Nat × Reg)
  | [] => []
  | x :: l => if l.any fun y => y.1 == x.1 then lastAt l else x :: lastAt l

def execVstx (sl : VW) (d : Fin 16) (h : HRd) (n : Fin 32) (s : State) : Out State :=
  let count := n.val + 1
  let nc := nChunks (s.kore.tileBytes sl)
  let as := s.gatherAddrs h count
  s.issue ⟨sl.slot, nc, [vref sl d.val, h.ref], [], s.gatherTraps sl h count (s.now + 4) .w, false⟩ fun t =>
    let u := (t.pop count).holdUses .own (as.flatMap fun a => s.accUses sl.slot .own a s.kore.eb .w (s.now + 4))
    (lastAt (as.zip (s.tile sl d.val))).foldl (fun u x => u.scatterWrite sl (s.now + 4) x) u

/-! ### Records (R277 to R280) -/

/-- The formats of records (R277). -/
def recForm : Form → Bool
  | .fp32 | .fp16 | .bf16 | .int16 | .int32 => true
  | _ => false

/-- An element is zero (R277). -/
def recZero (form : Form) (e : Reg) : Bool :=
  !e.poi && (if form.isFp then e.val.toNat % 2 ^ (8 * formBytes form - 1) == 0 else e.val == 0)

/-- The record of a tile, with the poison of each byte: a VALUES word that holds a poisoned element is poisoned. -/
def recBytesOf (form : Form) (es : List Reg) : List Byte × List Bool :=
  let eb := formBytes form
  let n := es.length
  let vs := es.filter fun e => !recZero form e
  let mask := digits 1 (es.map fun e => if recZero form e then 0 else 1)
  let head := natBytes 4 vs.length ++ natBytes 4 n ++ natBytes (recMaskBytes n) mask
  let len := recLen n eb vs.length
  (padTo len (head ++ elemBytes eb vs),
    let ps := List.replicate head.length false ++ elemPoison eb vs
    ps ++ List.replicate (len - ps.length) false)

def execVldz (sl : VW) (d : Fin 16) (h : HRd) (s : State) : Out State :=
  let a := (s.rd h.ref).val.toNat
  let n := s.kore.elems sl
  let bytes := 128 * nChunks (s.kore.tileBytes sl)
  let nc := nChunks bytes
  let lat := 5 + nc
  s.issue ⟨sl.slot, nc, [h.ref], [⟨vref sl d.val, lat⟩],
      trapIf (!recForm s.kore.form) (.illegal sl.slot) ++ s.rangeTraps sl.slot h a bytes 16
        ++ (List.range nc).flatMap (fun j => s.chunkTraps sl.slot a bytes j (s.now + 2 + j) .r false),
      (List.range nc).any fun j => s.useWaits .own (s.chunkUses sl.slot a bytes j (s.now + 2 + j) .r false)⟩
    fun t => t.tileRead sl a bytes lat (t.now + 2) false (.vz sl d.val n s.kore.eb VReg.zero)

/-- The bank-cycles of chunk j of a record: all of its 128 bytes, whatever its length turns out to be (R279). -/
def State.recUses (s : State) (sl : Slot) (a j t : Nat) : List Use :=
  s.accUses sl .own (a + 128 * j) (Nat.min 128 (spadBytes - (a + 128 * j))) .r t

/-- Schedules the write of chunk j of a record. -/
def State.recWrite (s : State) (sl : Slot) (a j t : Nat) (r : List Byte × List Bool) : State :=
  s.addAccess t (a + 128 * j) (.store ((r.1.drop (128 * j)).take 128) ((r.2.drop (128 * j)).take 128) none) true false .own sl s.nextId

def execVstz (sl : VW) (d : Fin 16) (h : HRd) (cap : Fin 128) (s : State) : Out State :=
  let a := (s.rd h.ref).val.toNat
  let bytes := s.kore.tileBytes sl
  let W := Nat.min (16 * cap.val) (128 * nChunks bytes)
  let r := recBytesOf s.kore.form (s.tile sl d.val)
  let len := r.1.length
  let wc := nChunks W
  let us (j : Nat) : List Use := s.recUses sl.slot a j (s.now + 4 + j)
  s.issue ⟨sl.slot, nChunks bytes + 1, [vref sl d.val, h.ref], [],
      trapIf (!recForm s.kore.form) (.illegal sl.slot) ++ s.rangeTraps sl.slot h a W 16
        ++ trapIf (decide (W < len)) (.at 0x0B sl.slot (len / 16))
        ++ (List.range wc).flatMap (fun j => s.chunkTraps sl.slot a W j (s.now + 4 + j) .w false ++ s.useTraps sl.slot .own (us j)),
      (List.range wc).any fun j => s.useWaits .own (us j)⟩
    fun t =>
      let u := t.holdUses .own ((List.range wc).flatMap us)
      (List.range (nChunks len)).foldl (fun u j => u.recWrite sl.slot a j (t.now + 4 + j) r) u

end Sys2Proof.Machine
end

