-- ==== Sys2Proof/Machine/Copy.lean ====
section
/-! DEFINITION. Sys2Proof/Machine/Copy.lean: the copy engines: `CPY`, `CPYMC`, their routines and shape records, and the budget
(R252 to R257, R328, R329, R360, R361). -/

namespace Sys2Proof.Machine
open Config

/-! ### Issue -/

/-- A `CPY` of the secondary stream that has issued enters its engine's open queue (R253, R360). -/
def State.enterOpen (s : State) (id : Nat) : State :=
  match s.cmd id with
  | some c => if c.q = .secondary then s.updCopy c fun e => { e with openq := e.openq ++ [id] } else s
  | none => s

def execCpy (h : HRd) (inst : Fin 2) (routine : Fin 64) (s : State) : Out State :=
  match s.engine h .copy inst.val 0x10 (.cpy h inst routine) true with
  | .next t => .next (t.enterOpen s.nextId)
  | o => o
def execCpymc (h : HRd) (inst : Fin 2) (routine : Fin 64) (s : State) : Out State :=
  s.engine h .copy inst.val 0x11 (.cpymc h inst routine) false

/-! ### Stream buffers (R225) -/

/-- The number of a collective engine's buffer, and of a Cloys plane's. -/
def collUnit (e : Nat) : Nat := 128 + e
def planeUnit (p : Nat) : Nat := 144 + p
def bufKey (unit off : Nat) : Nat := unit * 2048 + off
def State.bufGet (s : State) (k : Nat) : BitVec 512 := sget 0 s.bufs k
def State.bufBad (s : State) (k : Nat) : Bool := sget false s.bufPoi k

/-- Cycles for which the bytes before a write are kept: a timeline write takes its bytes at most 32 command clocks before it
performs. -/
def bufKeep : Nat := 64

/-- Writes a granule of a buffer. -/
def State.bufPut (s : State) (k : Nat) (v : BitVec 512) (p : Bool) : State :=
  { s with
    bufs := sset 0 s.bufs k v
    bufPoi := sset false s.bufPoi k p
    bufLog := (s.bufLog.filter fun o => decide (s.now < o.t + bufKeep)) ++ [⟨s.now, k, s.bufGet k, s.bufBad k⟩] }

/-- A granule as it stood before the writes of a cycle. -/
def State.bufAt (s : State) (k t : Nat) : BitVec 512 × Bool :=
  match s.bufLog.find? fun o => o.key == k && decide (t ≤ o.t) with
  | some o => (o.val, o.poi)
  | none => (s.bufGet k, s.bufBad k)

/-- n bytes of a copy engine's buffer from a byte offset on, which wraps at 64 KiB. -/
def State.bufBytes (s : State) (unit off n : Nat) : List Byte × List Bool :=
  let one (i : Nat) : Byte × Bool :=
    let o := (off + i) % 65536
    let k := bufKey unit (o / 64)
    ((s.bufGet k).extractLsb' (8 * (o % 64)) 8, s.bufBad k)
  let l := (List.range n).map one
  (l.map (·.1), l.map (·.2))

/-- Writes bytes from a byte offset on. -/
def State.bufWrite (s : State) (unit off : Nat) (bs : List Byte) (ps : List Bool) : State :=
  (bs.zip ps).zipIdx.foldl (fun t x =>
    let o := (off + x.2) % 65536
    let k := bufKey unit (o / 64)
    let v := mergeBits (t.bufGet k) (BitVec.ofNat 512 (x.1.1.toNat * 2 ^ (8 * (o % 64)))) (maskBits 8 1 (o % 64) 512)
    t.bufPut k v (x.1.2 || (t.bufBad k && o % 64 != 0))) s

/-! ### The engine -/

/-- A scrub runs on the engine (R404). -/
def State.scrubBusy (s : State) (c : Cmd) : Bool :=
  match (s.copyEng c).cmd with
  | some id => (match s.cmd id with
    | some d => !d.ended
    | none => false)
  | none => false
def State.routine (s : State) (i : Nat) : Routine := sget ⟨false, 0, 0⟩ s.routines i

def Cmd.routineIx (c : Cmd) : Nat :=
  match c.instr with
  | .cpy _ _ r | .cpymc _ _ r => r.val
  | _ => 7
def Cmd.src (c : Cmd) : Nat := c.num 16 8
def Cmd.dst (c : Cmd) : Nat := c.num 24 8
def Cmd.copyGauge (c : Cmd) : Nat := c.num 40 4
def Cmd.argBytes (c : Cmd) : Nat := c.num 44 4
def Cmd.argBoff (c : Cmd) : Nat := c.num 48 2
/-- DESIGN CHOICE (log 11): L and BOFF stand in the ARGS of routines 1 to 6 where R328 places them for routine 0; R255 gives L no place there. -/
def Cmd.argL (c : Cmd) : Nat := c.num 52 4

/-- A virtual address lies in HBM4E for a command. -/
def State.inHbm (s : State) (c : Cmd) (va : Nat) (p : Perm) : Option Bool := (s.engSpot c va 1 p).map fun sp => decide (hbmBase ≤ sp.pa)

/-! ### Shape records (R257) -/

structure Dim where
  ext : Nat
  stride : Int
  deriving DecidableEq, Repr

structure Shape where
  dims : List Dim
  form : Form
  had : Nat
  sparse : Nat
  extent : Nat
  deriving DecidableEq, Repr

/-- A shape record, if it keeps its limits and carries no poison. -/
def shapeOf (r : List Byte × List Bool) : Option Shape :=
  let n (o k : Nat) : Nat := leNat ((r.1.drop o).take k)
  let ds := (List.range 4).map fun i => (⟨n (8 * i) 4, (BitVec.ofNat 32 (n (8 * i + 4) 4)).toInt⟩ : Dim)
  let prod := ds.foldl (fun p d => p * d.ext) 1
  let lens := n 36 4
  match Form.ofCode (n 32 1) with
  | none => none
  | some f =>
    let sx := f.isSx
    if r.2.any id || ds.any (fun d => d.ext == 0) || n 33 1 != (if sx then 32 else 0) || decide (3 < n 34 1) || (n 34 1 != 0 && !sx)
        || decide (2 < n 35 1) || (lens != 0xFFFFFFFF && decide (1024 ≤ lens)) || decide (prod < n 40 8) || n 48 16 != 0 then none
    else some ⟨ds, f, n 34 1, n 35 1, n 40 8⟩

/-- n of a Hadamard code; 0 for none. -/
def hadLen (code : Nat) : Nat := if code = 0 then 0 else 8 * 2 ^ code

def Shape.dim (x : Shape) (i : Nat) : Dim := x.dims.getD i ⟨1, 0⟩
def Shape.rows (x : Shape) : Nat := (x.dim 1).ext * (x.dim 2).ext * (x.dim 3).ext
def Shape.cols (x : Shape) : Nat := (x.dim 0).ext

/-- The offset of row r. -/
def Shape.rowOff (x : Shape) (r : Nat) : Int :=
  let d1 := x.dim 1
  let d2 := x.dim 2
  let d3 := x.dim 3
  (r % d1.ext : Nat) * d1.stride + (r / d1.ext % d2.ext : Nat) * d2.stride + (r / d1.ext / d2.ext : Nat) * d3.stride

/-- The offset of element i of a dense tensor, and of block b of row r of an SX one. -/
def Shape.elemOff (x : Shape) (i : Nat) : Int := x.rowOff (i / x.cols) + (i % x.cols : Nat) * (x.dim 0).stride
def Shape.blockOff (x : Shape) (r b : Nat) : Int :=
  match sxOf x.form with
  | some sx => x.rowOff r + (b * sx.bytes : Nat)
  | none => x.rowOff r

/-- The coordinates of element i, innermost first, and the offset of an element at coordinates. -/
def Shape.coords (x : Shape) (i : Nat) : List Nat :=
  let r := i / x.cols
  [i % x.cols, r % (x.dim 1).ext, r / (x.dim 1).ext % (x.dim 2).ext, r / (x.dim 1).ext / (x.dim 2).ext]
def Shape.linear (x : Shape) (cs : List Nat) : Nat :=
  cs.getD 0 0 + x.cols * (cs.getD 1 0 + (x.dim 1).ext * (cs.getD 2 0 + (x.dim 2).ext * cs.getD 3 0))
/-- All elements that the extents allow. -/
def Shape.count (x : Shape) : Nat := x.rows * x.cols

/-- The blocks of a row: with the Hadamard stage, groups are stored whole. -/
def Shape.rowBlocks (x : Shape) : Nat :=
  let n := hadLen x.had
  if n = 0 then ceilDiv x.cols 32 else ceilDiv (ceilDiv x.cols n * n) 32

/-! ### The units of a routine's work (R255; DESIGN CHOICE, log 11, for their cycles) -/

/-- One unit: the runs of source bytes that it takes in order, and the runs of destination bytes, as offsets and lengths. -/
structure CUnit where
  ins : List (Int × Nat)
  outs : List (Int × Nat)
  deriving DecidableEq, Repr

/-- Joins runs that follow each other. -/
def joinRuns : List (Int × Nat) → List (Int × Nat)
  | [] => []
  | (o, n) :: l => match joinRuns l with
    | [] => [(o, n)]
    | (o2, n2) :: r => if o + n = o2 then (o, n + n2) :: r else (o, n) :: (o2, n2) :: r

/-- The routine's work under its two shape records; none where the records are metadata that it cannot decode. -/
def copyUnits (idx : Nat) (x y : Shape) : Option (List CUnit) :=
  if x.sparse ≠ 0 ∨ y.sparse ≠ 0 then none
  else if idx = 1 then
    if x.form ≠ y.form ∨ x.extent ≠ y.extent then none
    else match sxOf x.form with
      | some sx =>
        if x.rows ≠ y.rows ∨ x.cols ≠ y.cols then none
        else some ((List.range x.rows).flatMap fun r => (List.range x.rowBlocks).map fun b =>
          ⟨[(x.blockOff r b, sx.bytes)], [(y.blockOff r b, sx.bytes)]⟩)
      | none =>
        let eb := formBytes x.form
        let k := 64 / eb
        some ((List.range (ceilDiv x.extent k)).map fun u =>
          let es := (List.range (Nat.min k (x.extent - k * u))).map fun i => k * u + i
          ⟨joinRuns (es.map fun i => (x.elemOff i, eb)), joinRuns (es.map fun i => (y.elemOff i, eb))⟩)
  else if x.rows ≠ y.rows ∨ x.cols ≠ y.cols then none
  else if idx = 2 then
    match sxOf y.form with
    | none => none
    | some sx =>
      if x.form.isFp then
        let eb := formBytes x.form
        let g := if y.had = 3 then 2 else 1
        some ((List.range x.rows).flatMap fun r => (List.range (ceilDiv y.rowBlocks g)).map fun u =>
          let es := (List.range (Nat.min (32 * g) (x.cols - 32 * g * u))).map fun i => r * x.cols + 32 * g * u + i
          ⟨joinRuns (es.map fun i => (x.elemOff i, eb)), (List.range g).map fun b => (y.blockOff r (g * u + b), sx.bytes)⟩)
      else none
  else
    match sxOf x.form with
    | none => none
    | some sx =>
      if y.form.isFp then
        let eb := formBytes y.form
        some ((List.range x.rows).flatMap fun r => (List.range (ceilDiv x.cols 32)).map fun b =>
          let es := (List.range (Nat.min 32 (x.cols - 32 * b))).map fun i => r * x.cols + 32 * b + i
          ⟨[(x.blockOff r b, sx.bytes)], joinRuns (es.map fun i => (y.elemOff i, eb))⟩)
      else none

/-- A list with two of its entries exchanged. -/
def swapAt (p : Nat × Nat) (l : List Nat) : List Nat :=
  (l.set p.1 (l.getD p.2 0)).set p.2 (l.getD p.1 0)

/-- The pairs of dimensions whose exchange makes the extents of the source those of the destination: those that move no element only where no
other fits. Blocks of an SX form stay whole, so that dimension 0 stays (R255, R257). -/
def swapPairs (x y : Shape) : List (Nat × Nat) :=
  let es (z : Shape) : List Nat := (List.range 4).map fun k => (z.dim k).ext
  let all : List (Nat × Nat) := [(0, 1), (0, 2), (0, 3), (1, 2), (1, 3), (2, 3)]
  let fit := all.filter fun p => (!x.form.isSx || p.1 != 0) && swapAt p (es x) == es y
  let moving := fit.filter fun p => (x.dim p.1).ext != 1 || (x.dim p.2).ext != 1
  if moving.isEmpty then fit else moving

/-- Routine 6, a swap of two dimensions (R255): the element at coordinates of the destination is that of the source at the exchanged ones. -/
def swapUnits (n : Nat) (x y : Shape) : Option (List CUnit) :=
  let l := swapPairs x y
  if x.sparse ≠ 0 ∨ y.sparse ≠ 0 ∨ x.form ≠ y.form ∨ x.had ≠ y.had ∨ x.extent ≠ y.extent then none
  else match l[n % l.length]? with
    | none => none
    | some p => match sxOf x.form with
      | some sx =>
        some ((List.range y.rows).flatMap fun r =>
          let q := x.linear (swapAt p (y.coords (r * y.cols))) / x.cols
          (List.range x.rowBlocks).map fun b => ⟨[(x.blockOff q b, sx.bytes)], [(y.blockOff r b, sx.bytes)]⟩)
      | none =>
        let eb := formBytes x.form
        let k := 64 / eb
        let es := ((List.range y.count).map fun j => (x.linear (swapAt p (y.coords j)), j)).filter fun e => decide (e.1 < x.extent)
        some ((List.range (ceilDiv es.length k)).map fun u =>
          let g := (es.drop (k * u)).take k
          ⟨joinRuns (g.map fun e => (x.elemOff e.1, eb)), joinRuns (g.map fun e => (y.elemOff e.2, eb))⟩)

/-- The units of a command of index 1, 2, 3 or 6. -/
def Cmd.units (c : Cmd) (x y : Shape) : Option (List CUnit) :=
  if c.routineIx = 6 then swapUnits (swapDims c.blk) x y else copyUnits c.routineIx x y

def runLen (l : List (Int × Nat)) : Nat := l.foldl (fun n r => n + r.2) 0

/-- What a unit writes, from its source bytes with their poison: bytes, poison, flags. -/
def unitOut (idx : Nat) (x y : Shape) (bs : List Byte) (ps : List Bool) : (List Byte × List Bool) × Flg :=
  if idx = 2 then
    match sxOf y.form, x.form.fp with
    | some sx, some f =>
      let eb := formBytes x.form
      let vs := (List.range (bs.length / eb)).map fun i => f.cvt fmt32 .rne (leNat ((bs.drop (i * eb)).take eb))
      let g := if y.had = 3 then 64 else 32
      let ws := vs.map (·.1) ++ List.replicate (g - vs.length) 0
      let h : List Nat × Flg := if y.had = 0 then (ws, 0)
        else
          let n := hadLen y.had
          let gs := (List.range (g / n)).map fun i => hadamard ((ws.drop (i * n)).take n) n
          (gs.flatMap (·.1), gs.foldl (fun a p => a ||| p.2) 0)
      let qs := (List.range (g / 32)).map fun b => sx.quantise ((h.1.drop (32 * b)).take 32)
      let out := qs.flatMap (·.1)
      ((out, out.map fun _ => ps.any id), qs.foldl (fun a q => a ||| q.2) (vs.foldl (fun a v => a ||| v.2) h.2))
    | _, _ => ((bs, ps), 0)
  else if idx = 3 then
    match sxOf x.form, y.form.fp with
    | some sx, some f =>
      let d := sx.decodeBlock bs
      let vs := d.1.map fun v => fmt32.cvt f .rne v
      let eb := formBytes y.form
      ((vs.flatMap fun v => natBytes eb v.1, (List.range 32).flatMap fun i => List.replicate eb (sx.elemPoison ps i)),
        vs.foldl (fun a p => a ||| p.2) d.2)
    | _, _ => ((bs, ps), 0)
  else ((bs, ps), 0)

/-! ### Moves -/

/-- One access of a copy: its cycle, the byte of the unit's data that it begins with, its address (or its byte offset in the stream
buffer), its length. -/
structure Move where
  t : Nat
  rel : Nat
  va : Nat
  n : Nat
  buf : Bool
  write : Bool
  deriving DecidableEq, Repr

/-- Pieces of n bytes at an address that do not cross a 64-byte granule: offsets and lengths. -/
def hbmPieces (va n : Nat) : List (Nat × Nat) :=
  if n = 0 then [] else (List.range ((va + n - 1) / 64 - va / 64 + 1)).map fun i =>
    let lo := Nat.max va ((va / 64 + i) * 64)
    (lo - va, Nat.min ((va / 64 + i + 1) * 64) (va + n) - lo)

/-- The accesses for n bytes at an address from cycle t on: one, but in a pool one for each granule, in the first cycle that the
wheel gives the issuing core (R202, R328, R329). None where it does not translate, or lies partly in a lens range (R211). -/
def State.moveAt (s : State) (c : Cmd) (t rel va n : Nat) (buf write : Bool) : Option (List Move) :=
  if buf then some (if c.q = .secondary then (hbmPieces va n).map fun p => ⟨t, rel + p.1, va + p.1, p.2, true, write⟩
    else [⟨t, rel, va, n, true, write⟩])
  else (s.engSpot c va n (if write then .w else .r)).map fun sp =>
    match resOf sp.pa with
    | some (.pool _ _) =>
      (granules sp.pa n).map fun g =>
        let lo := Nat.max g sp.pa
        ⟨wheelAt c.core g t, rel + (lo - sp.pa), va + (lo - sp.pa), Nat.min (g + 16) (sp.pa + n) - lo, false, write⟩
    | _ => [⟨t, rel, va, n, false, write⟩]

/-- All of a list of options, or none. -/
def allSome {α : Type} : List (Option α) → Option (List α)
  | [] => some []
  | none :: _ => none
  | some x :: l => (allSome l).map (x :: ·)

/-- The last cycle of some moves, at least t. -/
def lastMove (t : Nat) (l : List Move) : Nat := l.foldl (fun n m => Nat.max n m.t) t

/-- The moves of runs of bytes from cycle t on. -/
def State.runMoves (s : State) (c : Cmd) (t base : Nat) (side : Nat × Bool) (write : Bool) : List (Int × Nat) → Nat → Option (List Move)
  | [], _ => some []
  | (o, n) :: l, rel =>
    let va := (((if side.2 then (side.1 : Int) else (base : Int)) + o) % (2 ^ 64 : Nat)).toNat
    match s.moveAt c t rel va n side.2 write, State.runMoves s c t base side write l (rel + n) with
    | some x, some y => some (x ++ y)
    | _, _ => none

/-- The moves of one unit that is read in cycle t or later and written in the cycle after its last read or later. -/
def State.unitMoves (s : State) (c : Cmd) (t inRel outRel : Nat) (si so : Nat × Bool) (u : CUnit) : Option (List Move) :=
  match s.runMoves c t c.src si false u.ins inRel with
  | none => none
  | some r => (s.runMoves c (lastMove t r + 1) c.dst so true u.outs outRel).map fun w => r ++ w

/-- The bank-cycles of a move. -/
def State.moveUses (s : State) (c : Cmd) (m : Move) : List Use :=
  if m.buf then [] else match s.engSpot c m.va m.n (if m.write then .w else .r) with
    | some sp => sp.uses m.n m.t
    | none => []

/-- A move in a lens range whose other copy would stand in a cycle of others (R211). -/
def State.moveOff (s : State) (c : Cmd) (m : Move) : Bool :=
  !m.buf && (match s.engSpot c m.va m.n (if m.write then .w else .r) with
    | some sp => sp.other.isSome && c.offBeat (sp.uses m.n m.t)
    | none => false)

/-- The cycle of the raise that goes with a write. -/
def State.moveRaise (s : State) (c : Cmd) (m : Move) : Nat := s.gaugeCycle c c.copyGauge m.t

/-- A move becomes an access of its cycle; a write raises the gauge with it. -/
def State.addMove (s : State) (c : Cmd) (open_ raises : Bool) (m : Move) : State :=
  let p := if m.buf && !open_ then .phys m.va else s.engPlace c m.va (if m.write then .w else .r)
  let s1 := { s with
    accesses := s.accesses ++ [⟨s.nextId, m.t, .cmd c.id, p, .eng (firstLate + m.rel) m.n, m.write, open_, .own, 6, s.now, c.id⟩]
    nextId := s.nextId + 1 }
  if m.write && !open_ && raises then s1.addGauge c c.copyGauge (s.moveRaise c m) (.raise m.n) else s1

/-- The cycle in which a move is done: a write with its raise. -/
def State.moveEnd (s : State) (c : Cmd) (m : Move) : Nat := if m.write then Nat.max m.t (s.moveRaise c m) else m.t

/-- Timed moves: their bank-cycles are held from now on (R197). Those that would come after the budget do not perform, nor does a raise
(R253, R328, R329); the command is done after the last move where all fall within it, and `last` says that no others follow. -/
def State.launchMoves (s : State) (c : Cmd) (ms : List Move) (last : Bool) : State :=
  let inTime (t : Nat) : Bool := decide (c.budgetEnd = 0) || decide (t < c.budgetEnd)
  let run := ms.filter fun m => inTime m.t
  let us := run.flatMap fun m => s.moveUses c m ++ (if m.write && inTime (s.moveRaise c m) then s.gaugeUses c c.copyGauge (s.moveRaise c m) else [])
  let loose := s.looseCmd c
  if !loose && (s.engMeets c.id us || run.any (s.moveOff c)) then s.engineFault c.id 5
  else
    let s1 := if loose then s else s.engHold c.id us
    let s2 := run.foldl (fun t m => t.addMove c false (inTime (s.moveRaise c m)) m) s1
    if last && ms.all (fun m => inTime (s.moveEnd c m)) then s2.addStep c.id (ms.foldl (fun n m => Nat.max n (s.moveEnd c m)) c.start) stepAfter
    else s2

/-! ### `CPY` (R254, R255, R328, R329, R360) -/

/-- ⌈B/64⌉ cycles scaled, and the constant, of each standard routine's budget. -/
def routineBudget (idx b l : Nat) : Nat :=
  let w := ceilDiv b 64
  if idx = 0 then 24 + w + l
  else if idx = 1 then 32 + 2 * w + l
  else if idx = 2 then 48 + 4 * w + l
  else if idx = 3 then 40 + 2 * w + l
  else if idx = 6 then 64 + 4 * w + l
  else 48 + 3 * w + l

/-- The limits of a `CPY` block that are checked when it is read. -/
def State.copyOk (s : State) (c : Cmd) : Bool :=
  let i := c.routineIx
  let zs := c.zero 32 8
  gaugeOk c.copyGauge && (match s.inHbm c c.src .r, s.inHbm c c.dst .w with
    | some a, some b => !(a && b)
    | _, _ => false) &&
    (if i = 0 then zs && decide (64 ≤ c.argBytes) && decide (c.argBytes ≤ 65536) && c.argBytes % 64 == 0 && decide (c.argBoff < 1024)
        && c.zero 50 2 && decide (c.argL < 65536) && c.zero 56 8
      else c.num 32 4 % 64 == 0 && c.num 36 4 % 64 == 0 && decide (c.num 32 4 + 64 ≤ spadBytes) && decide (c.num 36 4 + 64 ≤ spadBytes)
        && (decide (7 < i) || (decide (c.argL < 65536) && decide (c.argBoff < 1024)))
        && (decide (3 < i) || (c.zero 44 4 && c.zero 50 2 && c.zero 56 8)))

/-- A `CPY` block has been read. -/
def State.copyBlock (s : State) (c : Cmd) : State :=
  let i := c.routineIx
  if i = 7 ∨ (s.routine i).valid = false then s.engineFault c.id 6
  else if !s.copyOk c then s.engineFault c.id 3
  else s

/-- The source and the destination of a command, and whether they lie in HBM: a timed command then works on the stream buffer, which
timelines fill and take (R328, R329); an open one goes through the open share (R229). -/
def State.sides (s : State) (c : Cmd) : (Nat × Bool) × (Nat × Bool) :=
  let at_ (va : Nat) : Nat := if c.q = .secondary then va else 64 * c.argBoff
  ((at_ c.src, (s.inHbm c c.src .r).getD false), (at_ c.dst, (s.inHbm c c.dst .w).getD false))

/-- The units of routine 0: 64 bytes each. -/
def copyZero (n : Nat) : List CUnit := (List.range (n / 64)).map fun j => ⟨[((64 * j : Nat), 64)], [((64 * j : Nat), 64)]⟩

/-- The moves of units from cycle t0 on: unit u is read in cycle t0 + ⌊u × W / U⌋, for U units and W 64-byte pieces. -/
def State.unitsMoves (s : State) (c : Cmd) (t0 inLen outLen w : Nat) (us : List CUnit) : Option (List Move) :=
  let sd := s.sides c
  (allSome (us.zipIdx.map fun x => s.unitMoves c (t0 + x.2 * w / us.length) (x.2 * inLen) (x.2 * outLen) sd.1 sd.2 x.1)).map fun l => l.flatten

/-- Sets the length of a unit's source and destination data. -/
def State.setUnits (s : State) (c : Cmd) (inLen outLen units : Nat) : State :=
  s.updCmd c.id fun d => { d with
    work := [inLen, outLen]
    data := List.replicate (inLen * units) 0
    poi := List.replicate (inLen * units) false }

/-- The two shape records as they stand. -/
def State.shapes (s : State) (c : Cmd) : Option (Shape × Shape) :=
  match shapeOf (s.engBytes c (c.num 32 4) 64), shapeOf (s.engBytes c (c.num 36 4) 64) with
  | some x, some y => some (x, y)
  | _, _ => none

/-- A routine meets metadata that it cannot decode. -/
def State.badMeta (s : State) (c : Cmd) : State := (s.closeNow c c.copyGauge 1).engineFault c.id 0x0A

/-- The work of a command from cycle t on: its units with their data lengths and destination bytes, or its fault. -/
def State.copyPlan (s : State) (c : Cmd) : Except (State) (List CUnit × Nat × Nat × Nat) :=
  let i := c.routineIx
  if i = 0 then .ok (copyZero c.argBytes, 64, 64, c.argBytes)
  else match s.shapes c with
    | none => .error (s.engineFault c.id 3)
    | some (x, y) => match c.units x y with
      | none => .error (s.badMeta c)
      | some us =>
        .ok (us, us.foldl (fun n u => Nat.max n (runLen u.ins)) 1, us.foldl (fun n u => Nat.max n (runLen u.outs)) 1,
          us.foldl (fun n u => n + runLen u.outs) 0)

/-- The cycles before the first read of a routine: routines with shape records read these first. -/
def copyHead (idx : Nat) : Nat := if idx = 0 then 0 else 2

/-- 64-byte pieces of n bytes at a side of the command, one in each cycle from t on. -/
def State.pieceMoves (s : State) (c : Cmd) (t n : Nat) (side : Nat × Bool) (base : Nat) (write : Bool) : Option (List Move) :=
  (allSome ((List.range (ceilDiv n 64)).map fun j =>
    s.moveAt c (t + j) (64 * j) ((if side.2 then side.1 else base) + 64 * j) (Nat.min 64 (n - 64 * j)) side.2 write)).map fun l => l.flatten

/-- The two shape records of a packing or unpacking routine are metadata that it can decode (R255, R257): dense into a bitmask, or a bitmask
into dense, of one form and one extent. -/
def packShapes (idx : Nat) (x y : Shape) : Bool :=
  x.form == y.form && x.extent == y.extent && !x.form.isSx && x.sparse == (if idx = 5 then 1 else 0) && y.sparse == (if idx = 4 then 1 else 0)

/-- The elements of a dense tensor in groups of at most 64 bytes, each as the runs of bytes that it takes. -/
def Shape.groups (x : Shape) : List (List (Int × Nat)) :=
  let eb := formBytes x.form
  let k := 64 / eb
  (List.range (ceilDiv x.extent k)).map fun u =>
    joinRuns ((List.range (Nat.min k (x.extent - k * u))).map fun i => (x.elemOff (k * u + i), eb))
/-- n bytes that follow each other from offset o on, in 64-byte groups. -/
def flatGroups (o n : Nat) : List (List (Int × Nat)) := (List.range (ceilDiv n 64)).map fun j => [((o + 64 * j : Nat), Nat.min 64 (n - 64 * j))]

/-- The head of a record of n elements: COUNT, NLOG and the mask (R278). -/
def recHead (n : Nat) : Nat := 8 + recMaskBytes n
/-- The mask bit of an element. -/
def maskBit (d : List Byte) (i : Nat) : Bool := (d.getD (8 + i / 8) 0).getLsbD (i % 8)
/-- COUNT of a record's head, if the routine can decode it: NLOG is n, no mask bit stands beyond n, COUNT is the number of mask bits, and no
byte is poisoned (R255, R278, R280). -/
def recCount (n : Nat) (d : List Byte) (ps : List Bool) : Option Nat :=
  let k := leNat (d.take 4)
  let m := 8 * recMaskBytes n
  if leNat ((d.drop 4).take 4) = n ∧ ((List.range m).all fun i => decide (i < n) || !maskBit d i) ∧ ((List.range n).filter (maskBit d)).length = k
      ∧ (ps.take (recHead n)).all (fun p => !p) then some k
  else none

/-- The elements of a record in order: +0, or the next of the values, with its poison. -/
def unpackFrom (eb : Nat) (d : List Byte) (ps : List Bool) (at_ : Nat) : Nat → Nat → List Byte × List Bool
  | _, 0 => ([], [])
  | i, n + 1 =>
    if maskBit d i then
      let r := unpackFrom eb d ps (at_ + eb) (i + 1) n
      ((d.drop at_).take eb ++ r.1, (ps.drop at_).take eb ++ r.2)
    else
      let r := unpackFrom eb d ps at_ (i + 1) n
      (List.replicate eb 0 ++ r.1, List.replicate eb false ++ r.2)

/-- The elements of eb bytes in a list of bytes, poisoned where one of their bytes is. -/
def elemsOf (eb : Nat) (d : List Byte) (ps : List Bool) : List Reg :=
  (List.range (d.length / eb)).map fun i => ⟨BitVec.ofNat 64 (leNat ((d.drop (i * eb)).take eb)), 63, ((ps.drop (i * eb)).take eb).any id⟩

/-- The moves of groups of runs at a side of the command, from byte `rel` of its data on: group j in cycle t + ⌊j × w / m⌋ of m groups. -/
def State.groupMoves (s : State) (c : Cmd) (t base : Nat) (side : Nat × Bool) (write : Bool) (rel w : Nat) (gs : List (List (Int × Nat))) :
    Option (List Move) :=
  let at_ (j : Nat) : Nat := (gs.take j).foldl (fun n g => n + runLen g) rel
  (allSome (gs.zipIdx.map fun g => s.runMoves c (t + g.2 * w / gs.length) base side write g.1 (at_ g.2))).map fun l => l.flatten

/-- The step of a routine of index 4, 5 or above 7 that turns what it has read into what it reads or writes next, at the start of a cycle. -/
def stepPack : Nat := 4

/-- A routine reads groups of its source from cycle t on, within w cycles, behind the bytes that it has; in the cycle after the last read it goes
on. -/
def State.packRead (s : State) (c : Cmd) (t w : Nat) (gs : List (List (Int × Nat))) (open_ : Bool) : State :=
  let n := gs.foldl (fun n g => n + runLen g) 0
  match s.groupMoves c t c.src (s.sides c).1 false c.data.length w gs with
  | none => s.engineFault c.id 3
  | some ms =>
    let t1 := lastMove t ms + 1
    let c1 := { c with data := c.data ++ List.replicate n 0, poi := c.poi ++ List.replicate n false }
    let s1 := s.updCmd c.id fun _ => c1
    if open_ then (if n = 0 then s1.addStep c.id t1 stepPack else ms.foldl (fun u m => u.addMove c1 true false m) s1)
    else (((s1.updCopy c fun e => { e with runEnd := Nat.max c.budgetEnd (t1 + 1) }).launchMoves c1 ms false).addStep c.id t1 stepPack)

/-- The output of a routine, at its runs, from the next cycle on. -/
def State.packWrite (s : State) (c : Cmd) (out : List Byte × List Bool) (gs : List (List (Int × Nat))) (bud : Nat) (open_ : Bool) : State :=
  let c1 := { c with budgetEnd := if open_ then 0 else bud, data := out.1, poi := out.2, work := [64, 64, c.work.getD 2 0, 2] }
  let s1 := s.updCmd c.id fun _ => c1
  match s.groupMoves c (s.now + 1) c.dst (s.sides c).2 true 0 gs.length gs with
  | none => s1.engineFault c.id 3
  | some l =>
    if open_ then (if l.isEmpty then (s1.endCmd c.id .done).leaveOpen c else l.foldl (fun u m => u.addMove c1 true false m) s1)
    else (s1.updCopy c fun e => { e with runEnd := bud }).launchMoves c1 l true

/-- Routine 4: the record of a dense tensor (R255, R277, R278), which its source's groups are read for within the cycles of the shortest
record. Its budget is that of the longest up to the cycle in which the record is known. Routine 5: the head of the record first. -/
def State.packRun (s : State) (c : Cmd) (x : Shape) (t0 : Nat) (open_ : Bool) : State :=
  let i := c.routineIx
  let n := x.extent
  let eb := formBytes x.form
  let bud := c.start + routineBudget i (if i = 4 then recLen n eb n else n * eb) c.argL
  let c1 := { c with data := [], poi := [], work := [64, 64, 0, 0], budgetEnd := if open_ then 0 else bud }
  if i = 4 then s.packRead c1 t0 (Nat.min x.groups.length (40 + 2 * ceilDiv (recLen n eb 0) 64)) x.groups open_
  else let gs := flatGroups 0 (recHead n)
    s.packRead c1 t0 gs.length gs open_

/-- The engine runs a command from cycle c.start on; an open one makes its accesses as the banks allow (R203, R253). DESIGN CHOICE (log 11): the
cycles in which an open command of index 0 to 6 is run are those of its units, as in timed code, which lie within its budget. -/
def State.copyRun (s : State) (c : Cmd) (open_ : Bool) : State :=
  let i := c.routineIx
  let t0 := c.start + copyHead i + c.argL
  if 7 < i then
    let gs := flatGroups 0 (routineIn i c.blk)
    s.packRead { c with data := [], poi := [], work := [64, 64, 0, 0], budgetEnd := if open_ then 0 else c.start + (s.routine i).budget } c.start
      gs.length gs open_
  else if i = 4 ∨ i = 5 then
    match s.shapes c with
    | none => s.engineFault c.id 3
    | some (x, y) => if packShapes i x y then s.packRun c x t0 open_ else s.badMeta c
  else match s.copyPlan c with
    | .error t => t
    | .ok (us, inLen, outLen, b) =>
      let bud := if open_ then 0 else c.start + routineBudget i b c.argL
      match s.unitsMoves c t0 inLen outLen (ceilDiv b 64) us with
      | none => s.engineFault c.id 3
      | some ms =>
        let s1 := (s.setUnits c inLen outLen us.length).updCmd c.id fun d => { d with budgetEnd := bud }
        if open_ then ms.foldl (fun t m => t.addMove c true false m) s1
        else (s1.updCopy c fun e => { e with runEnd := bud }).launchMoves { c with budgetEnd := bud } ms true

/-- START of a timed command: the engine must be free (R253, R404). -/
def State.copyStart (s : State) (c : Cmd) : State :=
  if decide (s.now < (s.copyEng c).runEnd) || s.scrubBusy c then s.engineFault c.id 7 else s.copyRun c false

/-- A routine that turns what it has read into its output as a whole. -/
def Cmd.packs (c : Cmd) : Bool := c.routineIx == 4 || c.routineIx == 5 || decide (7 < c.routineIx)

/-- Replaces part of a list. -/
def splice {α : Type} (l : List α) (at_ : Nat) (x : List α) : List α := l.take at_ ++ x ++ l.drop (at_ + x.length)

/-- A routine has read what it asked for: the record that routine 4 writes; the head of the record that routine 5 reads, then its values; the
output of an index above 7 (DESIGN CHOICE, log 11). -/
def State.packOut (s : State) (c : Cmd) (open_ : Bool) : State :=
  let i := c.routineIx
  if 7 < i then
    let out := routineOut i c.data c.blk
    let p := c.poi.any id
    s.packWrite c (out, out.map fun _ => p) (flatGroups 0 out.length) (c.start + (s.routine i).budget) open_
  else match s.shapes c with
    | none => s.engineFault c.id 3
    | some (x, y) =>
      let eb := formBytes x.form
      let n := x.extent
      if i = 4 then
        let r := recBytesOf x.form (elemsOf eb c.data c.poi)
        s.packWrite c r (flatGroups 0 r.1.length) (c.start + routineBudget i r.1.length c.argL) open_
      else match recCount n c.data c.poi with
        | none => s.badMeta c
        | some k =>
          if c.work.getD 3 0 = 0 then
            let gs := flatGroups (recHead n) (k * eb)
            s.packRead { c with work := [64, 64, c.work.getD 2 0, 1] } (s.now + 1) gs.length gs open_
          else s.packWrite c (unpackFrom eb c.data c.poi (recHead n) 0 n) y.groups (c.start + routineBudget i (n * eb) c.argL) open_

/-- The bytes that a command's access reads now. -/
def State.moveBytes (s : State) (c : Cmd) (a : Access) (n : Nat) : List Byte × List Bool :=
  match a.place with
  | .phys off => s.bufBytes c.unit off n
  | p =>
    let pa := s.placePa p n false
    (s.bytes pa n, s.poisons pa n)

/-- What stands at byte rel of the output of a command: bytes, poison, and the flags of the unit whose first byte it is. -/
def State.copyOut (s : State) (c : Cmd) (rel n : Nat) : (List Byte × List Bool) × Flg :=
  let inLen := c.work.getD 0 64
  let outLen := c.work.getD 1 64
  let i := c.routineIx
  if i = 0 ∨ 3 < i then (((c.data.drop rel).take n, (c.poi.drop rel).take n), 0)
  else match s.shapes c with
    | none => (([], []), 0)
    | some (x, y) =>
      let u := rel / outLen
      let len := match c.units x y with
        | some us => (us[u]?.map fun w => runLen w.ins).getD 0
        | none => 0
      let o := unitOut i x y ((c.data.drop (u * inLen)).take len) ((c.poi.drop (u * inLen)).take len)
      (((o.1.1.drop (rel % outLen)).take n, (o.1.2.drop (rel % outLen)).take n), o.2)

/-- An open command still has reads to come. -/
def State.readsLeft (s : State) (c : Cmd) : Bool :=
  s.accesses.any (fun a => a.owner == .cmd c.id && !a.write) || s.channels.any fun k => k.2.openq.any fun r => r.who == .cmd c.id && !r.write

/-- The cycles in which the engine has run an open command of index 8 or above exceed its budget: DESIGN CHOICE (log 11), one for each piece
that it has read (R253). -/
def State.openOver (s : State) (c : Cmd) : Bool :=
  c.q == .secondary && decide (7 < c.routineIx) && decide ((s.routine c.routineIx).budget < c.work.getD 2 0)

/-- Bytes of a command's source have arrived. The last piece of an open command of index 4 or above is followed by its output. -/
def State.copyGot (s : State) (c : Cmd) (rel : Nat) (b : List Byte × List Bool) : State :=
  let c1 := { c with
    data := splice c.data rel b.1, poi := splice c.poi rel b.2
    work := if c.packs then c.work.modify 2 (· + 1) else c.work }
  let s1 := s.updCmd c.id fun _ => c1
  match c.instr, c.q with
  | .cpy _ _ _, .secondary =>
    if s1.openOver c1 then s1.engineFault c.id 4 else if c.packs ∧ s1.readsLeft c = false then s1.packOut c1 true else s1
  | _, _ => s1

/-- An access of a `CPY` or `CPYMC` reads. -/
def State.copyRead (s : State) (c : Cmd) (a : Access) (rel n : Nat) : State := s.copyGot c rel (s.moveBytes c a n)

/-- Writes bytes where an access goes: the stream buffer, or the dark copy. -/
def State.moveWrite (s : State) (c : Cmd) (a : Access) (bs : List Byte) (ps : List Bool) : State :=
  match a.place with
  | .phys off => s.bufWrite c.unit off bs ps
  | p => s.engWrite p bs ps

/-- An access of a `CPY` writes. -/
def State.copyWrite (s : State) (c : Cmd) (a : Access) (rel n : Nat) : State :=
  let o := s.copyOut c rel n
  (s.moveWrite c a o.1.1 o.1.2).tally c.id n o.2

/-- `COPY_BUDGET_EXPIRY`: a command still running at the end of its budget is stopped (R253). -/
def execCopyBudgetExpiry (id : Nat) (s : State) : Out State :=
  match s.cmd id with
  | some c => if c.st = .running ∧ c.ended = false ∧ 0 < c.budgetEnd ∧ c.budgetEnd ≤ s.now then .next (s.engineFault id 4) else .next s
  | none => .fault .noSuchUnit

/-! ### Open `CPY` (R203, R253) -/

/-- The open command at the head of its engine's queue may begin: no timed command is running, nor a scrub. -/
def State.copyIdle (s : State) (c : Cmd) : Bool := decide ((s.copyEng c).runEnd ≤ s.now) && !s.scrubBusy c

/-- The open command begins. -/
def State.openStart (s : State) (c : Cmd) : State :=
  (s.updCmd c.id fun d => { d with st := .running, start := s.now }).copyRun { c with start := s.now } true

/-- The unit of a command's data that byte rel belongs to. -/
def Cmd.unitOf (c : Cmd) (write : Bool) (rel : Nat) : Nat := rel / (if write then c.work.getD 1 64 else c.work.getD 0 64)

/-- A unit's write follows its reads. -/
def State.openReady (s : State) (c : Cmd) (a : Access) : Bool :=
  let rel (x : Access) : Nat := match x.kind with
    | .eng k _ => k - firstLate
    | _ => 0
  let u := c.unitOf true (rel a)
  !a.write || (!(s.accesses.any fun b => b.owner == a.owner && !b.write && b.wait && c.unitOf false (rel b) == u)
    && !(s.channels.any fun k => k.2.openq.any fun r => r.who == a.owner && !r.write && c.unitOf false r.tag == u))

/-- The last access of an open command has performed: it ends, and leaves the queue. -/
def State.openEnd (s : State) (c : Cmd) : State :=
  if (s.cmd c.id).any (fun d => d.ended) || s.accesses.any (fun a => a.owner == .cmd c.id) || s.channels.any fun k => k.2.openq.any fun r => r.who == .cmd c.id then s
  else (s.endCmd c.id .done).leaveOpen c

/-! ### `CPYMC` (R256, R361) -/

structure McB where
  src : Nat
  doff : Nat
  bytes : Nat
  mask : Nat
  gauge : Nat
  d : Nat
  deriving DecidableEq, Repr

def Cmd.mc (c : Cmd) : McB := ⟨c.num 16 8, c.num 24 4, c.num 28 4, c.num 32 2, c.num 36 4, c.num 40 4⟩
def McB.chunks (b : McB) : Nat := ceilDiv b.bytes 128
def McB.len (b : McB) (j : Nat) : Nat := Nat.min 128 (b.bytes - 128 * j)
def McB.targets (b : McB) (c : Cmd) : List Nat :=
  ((List.range 16).filter fun i => b.mask / 2 ^ i % 2 == 1).map fun i => c.cluster * coresPerCluster + i

def State.mcOk (s : State) (c : Cmd) : Bool :=
  let b := c.mc
  b.doff % 16 == 0 && decide (16 ≤ b.bytes) && decide (b.bytes ≤ 4096) && b.bytes % 16 == 0 && b.mask != 0 && c.zero 34 2
    && (b.gauge == noGauge || (gaugeOk b.gauge && decide (b.gauge < 2 ^ 31))) && decide (32 ≤ b.d) && c.zero 44 20
    && decide (b.doff + b.bytes ≤ spadBytes) && (s.inHbm c b.src .r).isSome
    && ((b.targets c).all fun t => match c.mooring with
      | some m => (s.moor m).launched.any fun l => l.core == t
      | none => false)

def State.mcBlock (s : State) (c : Cmd) : State :=
  let i := c.routineIx
  if i = 7 ∨ (s.routine i).valid = false then s.engineFault c.id 6 else if !s.mcOk c then s.engineFault c.id 3 else s

/-- Steps of a `CPYMC`: the check in X, and from 6 on none. -/
def State.mcStart (s : State) (c : Cmd) : State :=
  let b := c.mc
  if decide (s.now < (s.copyEng c).runEnd) || s.scrubBusy c then s.engineFault c.id 7
  else
    let bud := c.start + b.d + b.chunks
    let s1 := (s.updCopy c fun e => { e with runEnd := bud }).updCmd c.id fun d => { d with
      data := List.replicate b.bytes 0, poi := List.replicate b.bytes false }
    if (s.inHbm c b.src .r).getD false || c.routineIx != 0 then s1
    else match allSome ((List.range b.chunks).map fun j => s.moveAt c (c.start + j) (128 * j) (b.src + 128 * j) (b.len j) false false) with
      | none => s1.engineFault c.id 3
      | some l =>
        let us := l.flatten.flatMap (s.moveUses c)
        if !s.looseCmd c && s.engMeets c.id us then s1.engineFault c.id 5
        else l.flatten.foldl (fun t m => t.addMove c false false m) (if s.looseCmd c then s1 else s1.engHold c.id us)

/-- The place of a target's scratchpad. -/
def Cmd.targetPlace (c : Cmd) (t off : Nat) : Place := .virt (spadVa t off) c.mooring (spadVa t off)
/-- The bank-cycles of every chunk in every target, and of the raises. -/
def State.mcUses (s : State) (c : Cmd) (b : McB) (t0 : Nat) : List Use :=
  (b.targets c).flatMap fun t =>
    ((List.range b.chunks).flatMap fun j => (s.placeSpot (c.targetPlace t (b.doff + 128 * j)) (b.len j)).uses (b.len j) (t0 + j))
      ++ (if b.gauge = noGauge then [] else s.raiseUses (c.targetPlace t (b.gauge % 2 ^ 21)) (t0 + b.chunks - 1))
/-- A chunk lies partly in the range of a valid lens entry (R211). -/
def State.mcSplit (s : State) (c : Cmd) (b : McB) : Bool :=
  match c.mooring with
  | none => false
  | some m => (b.targets c).any fun t => (List.range b.chunks).any fun j =>
      (s.lenses m).any fun l => l.hasAny (spadVa t (b.doff + 128 * j)) (b.len j) && !l.hasAll (spadVa t (b.doff + 128 * j)) (b.len j)

/-- The tile stands whole in the stream buffer: every granule has landed (DESIGN CHOICE, log 11: from offset 0 on, since the last
delivery). -/
def State.tileWhole (s : State) (c : Cmd) (n : Nat) : Bool := (List.range (ceilDiv n 64)).all fun i => sget false s.bufWhole (bufKey c.unit i)

/-- Closes the gauge of every target. -/
def State.mcClose (s : State) (c : Cmd) : State :=
  let b := c.mc
  if b.gauge = noGauge then s
  else (b.targets c).foldl (fun t k => t.addFree c t.now (c.targetPlace k (b.gauge % 2 ^ 21)) (.close 2)) s

/-- `CPYMC_DELIVERY_CHECK`, in cycle X = START + D − 1: all chunks in all targets, or none. The manual gives no code for a tile that
is absent: a free value (log 7). -/
def execCpymcDeliveryCheck (id : Nat) (s : State) : Out State :=
  match s.cmd id with
  | none => .fault .noSuchUnit
  | some c =>
    let b := c.mc
    let x := c.start + b.d
    if c.ended || c.st != .running || s.now + 1 != x then .next s
    else
      let hbm := (s.inHbm c b.src .r).getD false
      let us := s.mcUses c b x
      let absent := c.routineIx != 0 || (hbm && !s.tileWhole c b.bytes)
      if s.mcSplit c b then .next ((s.mcClose c).engineFault id 3)
      else if absent || (!s.looseCmd c && s.engMeets id us) then
        .next (if absent then { ((s.mcClose c).engineFault id (freeNat s.free % 256)) with free := s.free + 1 }
          else (s.mcClose c).engineFault id 5)
      else
        let s1 := if hbm then
            let d := s.bufBytes c.unit 0 b.bytes
            { (s.updCmd id fun k => { k with data := d.1, poi := d.2 }) with
              bufWhole := (List.range (ceilDiv b.bytes 64)).foldl (fun w i => sset false w (bufKey c.unit i) false) s.bufWhole }
          else s
        let s2 := if s.looseCmd c then s1 else s1.engHold id us
        .next (if b.gauge = noGauge then s2
          else (b.targets c).foldl (fun t k =>
            t.addEng id (x + b.chunks - 1) (c.targetPlace k (b.gauge % 2 ^ 21)) (.raise b.bytes) true) s2)

/-- `CPYMC_CHUNK_LANDING`: chunk j lands in every target in one cycle. -/
def execCpymcChunkLanding (id j : Nat) (s : State) : Out State :=
  match s.cmd id with
  | none => .fault .noSuchUnit
  | some c =>
    let b := c.mc
    if c.ended || c.st != .running || s.now != c.start + b.d + j || decide (b.chunks ≤ j) then .next s
    else
      let n := b.len j
      let bs := (c.data.drop (128 * j)).take n
      let ps := (c.poi.drop (128 * j)).take n
      let s1 := ((b.targets c).foldl (fun t k => t.engWrite (c.targetPlace k (b.doff + 128 * j)) bs ps) s).tally id n 0
      .next (if j + 1 = b.chunks then s1.addStep id s.now stepAfter else s1)

end Sys2Proof.Machine
end

