-- ==== Sys2Proof/Machine/Cloys.lean ====
section
/-! DEFINITION. Sys2Proof/Machine/Cloys.lean: scale-up: `COLL`, `RLD`, `RST` and the events of the Cloys planes (R262 to R265, R338,
R339, R359, R403). What other devices send is input (R54). -/

namespace Sys2Proof.Machine
open Config

def execColl (h : HRd) (inst : Fin 4) (op : CollOp) (fmt : CollFmt) (s : State) : Out State :=
  s.engine h .coll inst.val 0x18 (.coll h inst op fmt) false
def execRld (h : HRd) (plane : Fin 16) (s : State) : Out State := s.engine h .cloys plane.val 0x19 (.rld h plane) false
def execRst (h : HRd) (plane : Fin 16) (s : State) : Out State := s.engine h .cloys plane.val 0x1A (.rst h plane) false

/-! ### Planes (R338, R339) -/

def State.plane (s : State) (p : Nat) : Plane := sget Plane.init s.planes p
def State.updPlane (s : State) (p : Nat) (f : Plane → Plane) : State := { s with planes := sset Plane.init s.planes p (f (s.plane p)) }

/-- Payload bytes of a flit; cycles of 1 µs and of 20 µs. -/
def flitPayload : Nat := 240
def microCycles : Nat := 2700
def silentCycles : Nat := 20 * microCycles

/-- A flit: header, payload, CRC. DESIGN CHOICE (log 16): each header field takes 16 bits, in the order of R338. -/
def flitBytes (dest seq kind : Nat) (payload : List Byte) : List Byte :=
  let body := natBytes 2 dest ++ natBytes 2 ownDevice ++ natBytes 2 seq ++ natBytes 2 kind ++ padTo flitPayload payload
  body ++ natBytes 8 (flitCrc body).toNat

/-- The frame ports: 0 and 1 Ethernet, 16 + p Cloys. -/
def cloysPort (p : Nat) : Nat := 16 + p

/-- A flit leaves again from the retry buffer, where it stays (DESIGN CHOICE, log 16: for good). -/
def State.emitFlit (s : State) (p : Nat) (f : List Byte) : State :=
  { (s.updPlane p fun k => { k with lastCarry := s.now, lost := false }) with frames := s.frames ++ [⟨cloysPort p, f⟩] }

structure RemB where
  loc : Nat
  rem : Nat
  device : Nat
  bytes : Nat
  gauge : Nat
  load : Bool
  deriving DecidableEq, Repr

def Cmd.rem (c : Cmd) : RemB := ⟨c.num 16 8, c.num 24 8, c.num 32 2, c.num 36 4, c.num 40 4, c.opc == 0x19⟩

/-- Accesses of a command that have still to read. -/
def State.reading (s : State) (id : Nat) : Bool := s.accesses.any fun a => a.owner == .cmd id && !a.write && decide (0 < a.kind.size)

/-- An `RLD` or `RST` with something that has still to leave, for the plane and the device of another. -/
def State.unsent (s : State) (c d : Cmd) : Bool :=
  d.id != c.id && d.cls == .cloys && d.inst == c.inst && !d.ended && d.blk.length == 64 && d.rem.device == c.rem.device
    && (d.st == .waiting || s.reading d.id || (s.plane d.inst).heldBack.any fun f => f.cmd == some d.id)
/-- All that its core issued before a command, for its plane and its device, has left. -/
def State.ownTurn (s : State) (c : Cmd) : Bool := !(s.cmds.any fun d => s.unsent c d && d.core == c.core && decide (d.id < c.id))
/-- The flits of a command may leave: commands on one plane to one device perform there in issue order (R265, R276). DESIGN CHOICE (log 16): the
commands of different cores, which no rule orders at issue, go in the order in which they began. -/
def State.turn (s : State) (c : Cmd) : Bool :=
  s.ownTurn c && !(s.cmds.any fun d => s.unsent c d && d.core != c.core && d.st == .running && s.ownTurn d
    && (decide (d.start < c.start) || (d.start == c.start && decide (d.id < c.id))))

/-- A flit may leave in this interval: within the quota towards its destination, and in its command's turn. -/
def State.mayLeave (s : State) (p : Nat) (f : Held) : Bool :=
  decide (sget 0 (s.plane p).used f.dest + flitPayload ≤ (s.plane p).quota) && (match f.cmd.bind s.cmd with
    | some c => s.turn c
    | none => true)

/-- A flit leaves with the next number of its plane. -/
def State.leave (s : State) (p : Nat) (f : Held) : State :=
  let k := s.plane p
  let b := flitBytes f.dest k.txSeq f.kind f.payload
  (s.updPlane p fun k => { k with
    txSeq := k.txSeq + 1, used := sset 0 k.used f.dest (sget 0 k.used f.dest + flitPayload), retry := k.retry ++ [b] }).emitFlit p b

/-- A flit leaves, or is held back while it would exceed the quota of its interval or come before its turn. -/
def State.sendHeld (s : State) (p : Nat) (f : Held) : State :=
  if s.mayLeave p f then s.leave p f else s.updPlane p fun k => { k with heldBack := k.heldBack ++ [f] }
/-- A flit for a mooring. -/
def State.sendFlit (s : State) (p dest kind : Nat) (payload : List Byte) (m : Option Nat) : State := s.sendHeld p ⟨m, none, dest, kind, payload⟩
/-- A flit of an `RLD` or `RST`. -/
def State.sendRem (s : State) (c : Cmd) (kind : Nat) (payload : List Byte) : State :=
  s.sendHeld c.inst ⟨c.mooring, some c.id, c.rem.device, kind, payload⟩

/-- The flits that a plane holds back are tried again in order, each against its own destination's quota; those of a command that has ended
are dropped. -/
def State.passHeld (s : State) (p : Nat) : State :=
  let l := (s.plane p).heldBack.filter fun f => (f.cmd.bind s.cmd).all fun c => !c.ended
  l.foldl (fun t f => t.sendHeld p f) (s.updPlane p fun k => { k with heldBack := [] })

/-- At the end of a cycle, flits whose turn has come leave. -/
def State.passTurns (s : State) : State :=
  (s.planes.filter fun p => p.2.heldBack.any fun f => f.cmd.isSome).foldl (fun t p => t.passHeld p.1) s

/-- `CLOYS_QUOTA_INTERVAL`: a new interval of 1 µs begins on every plane; in the boot state the planes do nothing (R340). -/
def execCloysQuotaInterval (s : State) : Out State :=
  if s.boot ≠ .up then .next s
  else .next ((List.range 16).foldl (fun t p => (t.updPlane p fun k => { k with used := [] }).passHeld p) s)

/-- Flits of a mooring whose task is discarded that are still held back do not leave (R4). -/
def State.dropFlits (s : State) (m : Nat) : State :=
  (s.planes.filter fun p => p.2.heldBack.any fun f => f.mooring == some m).foldl
    (fun t p => t.updPlane p.1 fun k => { k with heldBack := k.heldBack.filter fun f => f.mooring != some m }) s

/-! ### Remote accesses that arrive (R265, R276, R339) -/

/-- The kinds of flits and their payloads (DESIGN CHOICE, log 16): a load, a store, the bytes that a load asked for, an acknowledged store, a
refusal, a request to send again from a sequence number on, and a contribution to a collective. -/
def kindLoad : Nat := 1
def kindStore : Nat := 2
def kindData : Nat := 3
def kindAck : Nat := 4
def kindRefuse : Nat := 5
def kindRetry : Nat := 6
def kindColl : Nat := 7

/-- Address and length of a request or of its answer. -/
def reqPayload (addr n : Nat) : List Byte := natBytes 8 addr ++ natBytes 4 n
/-- Bytes on their way, with a poison bit for each. -/
def dataPayload (addr : Nat) (bs : List Byte) (ps : List Bool) : List Byte :=
  reqPayload addr bs.length ++ natBytes 8 (ps.zipIdx.foldl (fun n p => n + (if p.1 then 2 ^ p.2 else 0)) 0) ++ bs

/-- The bytes lie in an exported window: a base with the code k of its size, 2^k bytes, in its low six bits; 0 for none (DESIGN CHOICE,
log 16). -/
def State.exported (s : State) (addr n : Nat) : Bool :=
  [0, 1].any fun i =>
    let v := sget 0 s.exports i
    let k := v % 64
    k != 0 && decide (v - k ≤ addr) && decide (addr + n ≤ v - k + 2 ^ k)
      && (if i = 0 then (resOf addr).isSome && (resOf (addr + n - 1)).isSome else decide (hbmBase ≤ addr) && decide (addr + n ≤ hbmBase + hbmBytes))

/-- The first access of a plane's queue is set going: an open access to SRAM, or a request of the open share. -/
def State.inNext (s : State) (p : Nat) : State :=
  match (s.plane p).inq with
  | [] => s
  | r :: l =>
    if r.sent then s
    else
      let s1 := s.updPlane p fun k => { k with inq := { r with sent := true } :: l }
      if hbmBase ≤ r.addr then
        s1.updChan (hbmChan r.addr) fun k => { k with openq := k.openq ++ [⟨r.addr, !r.load, r.data, r.poi.any id, r.n, .remote p, 0⟩] }
      else
        { s1 with
          accesses := s1.accesses ++ [⟨s1.nextId, s.now, .remote p, .phys r.addr, if r.load then .hostRead r.n else .store r.data r.poi none, !r.load, true,
            .any, 0, s.now, s1.nextId⟩]
          nextId := s1.nextId + 1 }

/-- A piece of a remote access has performed: its answer leaves, and the next one of the plane is set going. -/
def State.inDone (s : State) (p : Nat) (bs : List Byte) (ps : List Bool) : State :=
  match (s.plane p).inq with
  | [] => s
  | r :: l =>
    let s1 := s.updPlane p fun k => { k with inq := l }
    (if r.load then s1.sendFlit p r.src kindData (dataPayload r.addr bs ps) none
      else s1.sendFlit p r.src kindAck (reqPayload r.addr r.n) none).inNext p

/-- The part of a list from the last element on that fits: of the flits of a number, which 16 bits hold, the latest is the one to send again. -/
def fromLast {α : Type} (f : α → Bool) (l : List α) : List α :=
  match l.reverse.findIdx? f with
  | some i => l.drop (l.length - 1 - i)
  | none => []

/-- A flit that has arrived in plane order is taken. -/
def State.takeFlit (s : State) (p : Nat) (f : List Byte) : State :=
  let num (o n : Nat) : Nat := leNat ((f.drop o).take n)
  let src := num 2 2
  let kind := num 6 2
  let addr := num 8 8
  let n := num 16 4
  if kind = kindLoad ∨ kind = kindStore then
    if s.exported addr n then
      let bs := (f.drop 28).take n
      let qs := (hbmPieces addr n).map fun q => (⟨kind == kindLoad, src, addr + q.1, q.2, if kind = kindLoad then [] else (bs.drop q.1).take q.2,
        if kind = kindLoad then [] else (List.range q.2).map fun i => num 20 8 / 2 ^ (q.1 + i) % 2 == 1, false⟩ : InReq)
      (s.updPlane p fun k => { k with inq := k.inq ++ qs }).inNext p
    else s.sendFlit p src kindRefuse (reqPayload addr n) none
  else if kind = kindRetry then
    (fromLast (fun g => leNat ((g.drop 4).take 2) == num 8 2) (s.plane p).retry).foldl (fun t g => t.emitFlit p g) s
  else s

/-- `CLOYS_FLIT_RECEIVE`: a flit whose CRC holds is taken in plane order; of another one, its sender is asked to send again from its retry
buffer (R338). What the answers to this device's own `RLD` and `RST` bring comes as an event of its own (log 16). -/
def execCloysFlitReceive (plane : Nat) (flit : List Byte) (s : State) : Out State :=
  if plane < 16 then
    if s.boot ≠ .up then .next s
    else
      let body := flit.take 248
      let whole := flit.length == 256 && leNat (flit.drop 248) == (flitCrc body).toNat
      let good := whole && leNat ((flit.drop 4).take 2) == (s.plane plane).rxSeq % 2 ^ 16
      let s1 := s.updPlane plane fun k => { k with lastCarry := s.now, lost := false, rxSeq := if good then k.rxSeq + 1 else k.rxSeq }
      .next (if good then s1.takeFlit plane flit
        else if whole then s1
        else s1.sendFlit plane (leNat ((flit.drop 2).take 2)) kindRetry (natBytes 2 (s.plane plane).rxSeq) none)
  else .fault .noSuchUnit

/-! ### `COLL` (R262 to R264, R359) -/

structure CollB where
  group : Nat
  count : Nat
  src : Nat
  dst : Nat
  gauge : Nat
  lens : Nat
  mmap : Nat
  op : CollOp
  fmt : CollFmt
  deriving DecidableEq, Repr

def Cmd.coll (c : Cmd) : CollB :=
  let m : CollOp × CollFmt := match c.instr with
    | .coll _ _ op f => (op, f)
    | _ => (.allReduce, .fp32)
  ⟨c.num 16 2, c.num 20 4, c.num 24 8, c.num 32 8, c.num 40 4, c.num 44 2, c.num 48 4, m.1, m.2⟩

def CollB.size (b : CollB) : Nat :=
  match b.fmt with
  | .fp32 => 4
  | .bf16 => 2
  | .ebb64 => 8

/-- The members of a mooring's group in rank order, and this device's rank. -/
def State.members (s : State) (m g : Nat) : List Nat := (((s.moor m).groups.find? fun x => x.1 == g).map fun x => x.2.map (·.toNat)).getD []
def rankOf (l : List Nat) : Option Nat := l.idxOf? ownDevice

/-- Elements of a chunk among n members; elements at SRC, and elements of the result. -/
def CollB.chunk (b : CollB) (n : Nat) : Nat := if b.op = .allReduce then b.count else b.count / n
def CollB.inN (b : CollB) (n : Nat) : Nat := if b.op = .allGather then b.chunk n else b.count
def CollB.outN (b : CollB) (n : Nat) : Nat := if b.op = .reduceScatter then b.chunk n else b.count

/-- The bytes of the missing-member map. -/
def CollB.mapLen (b : CollB) (n : Nat) : Nat := 8 * ((if b.op = .allReduce then 1 else n) * ceilDiv n 64)

def State.collOk (s : State) (c : Cmd) : Bool :=
  let b := c.coll
  match c.mooring with
  | none => false
  | some m =>
    let l := s.members m b.group
    let n := l.length
    decide (2 ≤ n) && decide (n ≤ 512) && (rankOf l).isSome && decide (1 ≤ b.count) && decide (b.count ≤ 2 ^ 28)
      && (b.op == .allReduce || b.count % n == 0) && b.src % b.size == 0 && b.dst % b.size == 0 && gaugeOk b.gauge && c.zero 18 2 && c.zero 46 2
      && c.zero 52 12 && (b.mmap == 0 || decide (b.mmap + b.mapLen n ≤ spadBytes))
      && (s.engSpot c b.src (b.inN n * b.size) .r).isSome && (match s.engSpot c b.dst (b.outN n * b.size) .w with
        | some sp => if b.lens = 0xFFFF then sp.other.isNone
            else (s.lens m b.lens).any fun l => l.hasAll (fullVa c.core b.dst) (b.outN n * b.size)
        | none => false)

def State.collBlock (s : State) (c : Cmd) : State := if s.collOk c then s else s.engineFault c.id 3

/-- Steps of a `COLL`: the flip of LENSIX, in the cycle after the raise, and a loss. -/
def stepLens : Nat := 4
def stepLoss : Nat := 5

/-- The merges of an ebb collective all go to words of active regions (R130). -/
def State.collRegions (s : State) (c : Cmd) (n : Nat) : Bool :=
  let b := c.coll
  b.fmt != .ebb64 || b.op == .allGather || (List.range (b.outN n)).all fun i => (s.regionOf c.mooring (fullVa c.core (b.dst + 8 * i))).isSome

/-- START: the engine reads the local contribution, 64 bytes a cycle from now on (DESIGN CHOICE, log 16). A member that disagrees about GROUP,
COUNT, OP or format is lost (R359): which one does, and when that is seen, comes from outside, and is a free value. -/
def State.collStart (s : State) (c : Cmd) : State :=
  let b := c.coll
  if s.cmds.any fun d => d.cls == .coll && d.inst == c.inst && d.id != c.id && d.st == .running then s.engineFault c.id 7
  else match c.mooring with
    | none => s.engineFault c.id 3
    | some m =>
      let n := (s.members m b.group).length
      let k := b.inN n * b.size
      if !s.collRegions c n then s.engineFault c.id 3
      else
        let lost := freeNat s.free
        let s0 := { s.updCmd c.id fun d => { d with data := List.replicate k 0, poi := List.replicate k false } with free := s.free + 1 }
        let s1 := if lost = 0 then s0 else s0.addStep c.id (s.now + lost) stepLoss
        match s.pieceMoves c c.start k (c.src, false) b.src false with
        | none => s1.engineFault c.id 3
        | some l =>
          let us := l.flatMap (s.moveUses c)
          if !s.looseCmd c && s.engMeets c.id us then s1.engineFault c.id 5
          else l.foldl (fun t m => t.addMove c false false m) (if s.looseCmd c then s1 else s1.engHold c.id us)

/-- A piece of the contribution is read, and sent to every other member. Over which plane it goes the manual leaves open (log 16): a free
value. -/
def State.collRead (s : State) (c : Cmd) (a : Access) (rel n : Nat) : State :=
  let x := s.moveBytes c a n
  let s1 := s.updCmd c.id fun d => { d with data := splice d.data rel x.1, poi := splice d.poi rel x.2 }
  match c.mooring with
  | none => s1
  | some m =>
    ((s.members m c.coll.group).filter fun d => d != ownDevice).foldl
      (fun t d => { t.sendFlit (freeNat t.free % 16) d kindColl (dataPayload rel x.1 x.2) c.mooring with free := t.free + 1 }) s1

/-- Element i of rank r's contribution: this device's own, or a free value (log 7). -/
def collElem (free size : Nat) (own : Nat) (own_ : List Byte) (r i : Nat) : Nat :=
  if r = own then leNat ((own_.drop (i * size)).take size) else (freeWord (free + 2 ^ 28 * r + i)).toNat % 2 ^ (8 * size)

/-- A reduced element, from the contributions in rank order (R263). -/
def collReduce (f : CollFmt) (fact : Nat → Nat) : List Nat → Nat × Flg
  | [] => (0, 0)
  | x :: l =>
    match f with
    | .fp32 => l.foldl (fun a y =>
        let r := fmt32.add .rne a.1 y
        (r.1, a.2 ||| r.2)) (x, 0)
    | .bf16 =>
      let a := l.foldl (fun a y =>
        let z := fmtB16.cvt fmt32 .rne y
        let r := fmt32.add .rne a.1 z.1
        (r.1, a.2 ||| z.2 ||| r.2)) (fmtB16.cvt fmt32 .rne x)
      let o := fmt32.cvt fmtB16 .rne a.1
      (o.1, a.2 ||| o.2)
    | .ebb64 => l.foldl (fun a y =>
        let r := ebbMerge a.1 y fact
        (r.1, a.2 ||| r.2)) (x, 0)

/-- Element i of the result. -/
def State.collOut (s : State) (c : Cmd) (b : CollB) (l : List Nat) (own i : Nat) : Nat × Flg :=
  let n := l.length
  let ch := b.chunk n
  let el := collElem s.free b.size own c.data
  match b.op with
  | .allGather => (el (i / ch) (i % ch), 0)
  | .allReduce => collReduce b.fmt (s.factAt c.mooring (fullVa c.core (b.dst + 8 * i))) ((List.range n).map fun r => el r i)
  | .reduceScatter => collReduce b.fmt (s.factAt c.mooring (fullVa c.core (b.dst + 8 * i))) ((List.range n).map fun r => el r (own * ch + i))

/-- A contribution to element i of the result carries poison: this device's own as it was read, and another's as a free value. -/
def State.collPoi (s : State) (c : Cmd) (b : CollB) (l : List Nat) (own i : Nat) : Bool :=
  let n := l.length
  let ch := b.chunk n
  let one (r j : Nat) : Bool := if r = own then ((c.poi.drop (j * b.size)).take b.size).any id else freeNat (s.free + 2 ^ 28 * r + j) % 2 == 1
  match b.op with
  | .allGather => one (i / ch) (i % ch)
  | .allReduce => (List.range n).any fun r => one r i
  | .reduceScatter => (List.range n).any fun r => one r (own * ch + i)

/-- Any byte of a range of HBM is frozen (R305). -/
def State.frozenRange (s : State) (pa n : Nat) : Bool :=
  s.moorings.toList.any fun k => match k.drain with
    | some d => d.pieces.any fun p => decide (p < pa + n) && decide (pa < p + 0x10000)
    | none => false

/-- The results are written from the next cycle on, 64 bytes a cycle (DESIGN CHOICE, log 16); OGAUGE is raised with the last of them, and
LENSIX flips a cycle later. -/
def State.collWrite (s : State) (c : Cmd) (l : List Nat) : State :=
  let b := c.coll
  let k := b.outN l.length
  let own := (rankOf l).getD 0
  let rs := (List.range k).map fun i => s.collOut c b l own i
  let bs := rs.flatMap fun r => natBytes b.size r.1
  let ps := (List.range k).flatMap fun i => List.replicate b.size (s.collPoi c b l own i)
  let s1 := { s.tally c.id 0 (rs.foldl (fun f r => f ||| r.2) 0) with free := s.free + 2 ^ 28 * l.length }
  match s.pieceMoves c (s.now + 1) (k * b.size) (b.dst, false) b.dst true with
  | none => s1.engineFault c.id 3
  | some ms =>
    let e := s.gaugeCycle c b.gauge (lastMove (s.now + 1) ms)
    let us := ms.flatMap (s.moveUses c) ++ s.gaugeUses c b.gauge e
    if !s.looseCmd c && s.engMeets c.id us then s1.engineFault c.id 5
    else
      let s2 := ms.foldl (fun t m => t.addWrite c.id m.t (s.engPlace c m.va .w) ((bs.drop m.rel).take m.n) ((ps.drop m.rel).take m.n) none)
        (if s.looseCmd c then s1 else s1.engHold c.id us)
      (s2.addGauge c b.gauge e (.raise (k * b.size))).addStep c.id (e + 1) stepLens

/-- `COLL_COMPLETE`: every chunk is complete, or will be when the own contribution has been read. -/
def execCollComplete (id : Nat) (s : State) : Out State :=
  match s.cmd id with
  | none => .fault .noSuchUnit
  | some c =>
    match c.mooring with
    | none => .next s
    | some m =>
      if c.st != .running || c.ended || c.cls != .coll || (s.accesses.any fun a => a.owner == .cmd id && (a.write || a.kind == .eng stepLens 0)) then .next s
      else if s.reading id then .next { s with inputs := s.inputs ++ [(s.now + 1, ⟨.plain, .collComplete id⟩)] }
      else
        let b := c.coll
        let l := s.members m b.group
        let k := b.outN l.length * b.size
        if !s.collRegions c l.length then .next (s.engineFault id 3)
        else if s.frozenRange (s.placePa (s.engPlace c b.dst .w) k true) k then .next (s.engineFault id 0x0D)
        else .next (s.collWrite c l)

/-- The flip of LENSIX, and the end of the command. It flips nothing after the cycle of a fault that ends its task (R4, R319). -/
def State.collFlip (s : State) (c : Cmd) : State :=
  match c.mooring with
  | some m =>
    if s.pubBarred m then s.endCmd c.id .none
    else if c.coll.lens = 0xFFFF then s.endCmd c.id .done
    else match s.lensPa m c.coll.lens with
      | some pa => if s.frozenAt (pa + 13) then s.engineFault c.id 0x0D else (s.putBytes (pa + 13) [BitVec.ofNat 8 (s.num (pa + 13) 1) ^^^ 1] (s.poisons (pa + 13) 1)).endCmd c.id .done
      | none => s.endCmd c.id .done
  | none => s

/-- The missing-member map: for each chunk, the members whose contribution never arrived. Which these are is input: free values. -/
def State.memberMap (s : State) (c : Cmd) (l : List Nat) : List Byte :=
  let n := l.length
  let ks := if c.coll.op = .allReduce then 1 else n
  let w := ceilDiv n 64
  let own := (rankOf l).getD 0
  (List.range (ks * w)).flatMap fun i =>
    let lo := 64 * (i % w)
    let m := BitVec.ofNat 64 (2 ^ Nat.min 64 (n - lo) - 1)
    let mine := if lo ≤ own ∧ own < lo + 64 then BitVec.ofNat 64 (2 ^ (own - lo)) else 0
    natBytes 8 ((freeWord (s.free + i)) &&& m &&& ~~~mine).toNat

/-- A collective with a lost member stops (R264). -/
def State.memberLoss (s : State) (c : Cmd) : State :=
  let b := c.coll
  match c.mooring with
  | none => s
  | some m =>
    let l := s.members m b.group
    let s1 := s.closeNow c b.gauge 2
    let s2 := if b.mmap = 0 then s1
      else
        let d := s.memberMap c l
        { s1.addFree c s.now (s.engPlace c b.mmap .w) (.store d (d.map fun _ => false) none) with free := s1.free + d.length }
    (s2.engineFault c.id 8).updCmd c.id fun d => { d with st := .part }

/-- A step of a `COLL`. -/
def State.collStep (s : State) (c : Cmd) (a : Access) (k n : Nat) : State :=
  if k = stepLens then s.collFlip c else if k = stepLoss then s.memberLoss c else s.collRead c a (k - firstLate) n

/-- A plane that carries a running collective has been silent for 20 µs: one that has carried something since its START, or any where none
has. -/
def State.linkSilent (s : State) (p : Nat) : Bool :=
  !(s.plane p).lost && decide ((s.plane p).lastCarry + silentCycles ≤ s.now) && s.cmds.any fun c => c.cls == .coll && c.st == .running && !c.ended
    && (decide (c.start ≤ (s.plane p).lastCarry) || (decide (c.start + silentCycles ≤ s.now)
      && (List.range 16).all fun q => decide ((s.plane q).lastCarry < c.start)))

/-- `LINK_LOSS`: a link has carried nothing for 20 µs. -/
def execLinkLoss (plane : Nat) (s : State) : Out State :=
  if plane < 16 then
    let k := s.plane plane
    if s.boot != .up || k.lost || decide (s.now < k.lastCarry + silentCycles) then .next s
    else
      .next ((s.cmds.filter fun c => c.cls == .coll && c.st == .running && !c.ended).foldl (fun t c => t.memberLoss c)
        (s.updPlane plane fun k => { k with lost := true }))
  else .fault .noSuchUnit

/-! ### `RLD` and `RST` (R265, R403) -/

def RemB.perm (b : RemB) : Perm := if b.load then .w else .r

/-- The SRAM window of R207 that holds an address: the kind of window and its number. -/
def sramWindow (va : Nat) : Option (Nat × Nat) :=
  if va < spadBytes then some (0, 0)
  else match resOf va with
    | some (.spad c _) => some (1, c)
    | some (.pool g _) => some (2, g)
    | some (.vault v _) => some (3, v)
    | _ => none

def State.remOk (s : State) (c : Cmd) : Bool :=
  let b := c.rem
  (match c.mooring with
    | some m => (s.moor m).groups.any fun g => g.2.any fun d => d.toNat == b.device
    | none => false) && b.device != ownDevice && decide (b.device < 512) && decide (1 ≤ b.bytes) && decide (b.bytes ≤ 4096) && gaugeOk b.gauge
    && c.zero 34 2 && c.zero 44 20 && (sramWindow b.loc).isSome && sramWindow b.loc == sramWindow (b.loc + b.bytes - 1)
    && (s.engSpot c b.loc b.bytes b.perm).isSome

def State.remBlock (s : State) (c : Cmd) : State := if s.remOk c then s else s.engineFault c.id 3

def State.remStart (s : State) (c : Cmd) : State :=
  let b := c.rem
  if 16 ≤ (s.cmds.filter fun d => d.cls == .cloys && d.core == c.core && d.inst == c.inst && d.id != c.id && d.st == .running).length then
    s.engineFault c.id 7
  else if b.load then
    (s.sendRem c kindLoad (reqPayload b.rem b.bytes)).updCmd c.id fun d => { d with
      budgetEnd := c.start + silentCycles, work := [0] }
  else
    let s1 := s.updCmd c.id fun d => { d with
      data := List.replicate b.bytes 0, poi := List.replicate b.bytes false, budgetEnd := c.start + silentCycles }
    match allSome ((List.range (ceilDiv b.bytes 64)).map fun j =>
      s.moveAt c (c.start + j) (64 * j) (b.loc + 64 * j) (Nat.min 64 (b.bytes - 64 * j)) false false) with
    | none => s1.engineFault c.id 3
    | some l =>
      let us := l.flatten.flatMap (s.moveUses c)
      if !s.looseCmd c && s.engMeets c.id us then s1.engineFault c.id 5
      else l.flatten.foldl (fun t m => t.addMove c false false m) (if s.looseCmd c then s1 else s1.engHold c.id us)

/-- A piece of an `RST` is read, and sent. -/
def State.remRead (s : State) (c : Cmd) (a : Access) (rel n : Nat) : State :=
  let b := s.moveBytes c a n
  (s.updCmd c.id fun d => { d with data := splice d.data rel b.1, poi := splice d.poi rel b.2 }).sendRem c kindStore
    (dataPayload (c.rem.rem + rel) b.1 b.2)

/-- The command fails: its gauge closes with status 2. -/
def State.remFail (s : State) (c : Cmd) : State := (s.closeNow c c.rem.gauge 2).engineFault c.id 9

/-- The completion of a command: its gauge is raised in cycle t or, in a pool, the first that the wheel gives (R202), and it ends then. -/
def State.remEnd (s : State) (c : Cmd) (t : Nat) : State :=
  let b := c.rem
  let e := s.gaugeCycle c b.gauge t
  let us := s.gaugeUses c b.gauge e
  if !s.looseCmd c && s.engMeets c.id us then s.engineFault c.id 5
  else ((if s.looseCmd c then s else s.engHold c.id us).addGauge c b.gauge e (.raise b.bytes)).addStep c.id e stepAfter

/-- Bytes of an `RLD` arrive at its place number `at_` and are written in this cycle; `work` counts those that have arrived. -/
def State.remArrive (s : State) (c : Cmd) (bs : List Byte) (poi : Bool) : State :=
  let b := c.rem
  let at_ := c.work.headD 0
  match s.moveAt c s.now 0 (b.loc + at_) bs.length false true with
  | none => s.engineFault c.id 3
  | some l =>
    let us := l.flatMap (s.moveUses c)
    if !s.looseCmd c && s.engMeets c.id us then s.engineFault c.id 5
    else
      let s0 := (if s.looseCmd c then s else s.engHold c.id us).updCmd c.id fun d => { d with work := [at_ + bs.length] }
      let s1 := l.foldl (fun t m =>
        let x := (bs.drop m.rel).take m.n
        t.addWrite c.id m.t (s.engPlace c m.va .w) x (x.map fun _ => poi) none) s0
      if at_ + bs.length = b.bytes then
        s1.remEnd c (s1.accesses.foldl (fun n a => if a.owner = .cmd c.id ∧ a.write = true then Nat.max n a.t else n) s.now)
      else s1

/-- `REMOTE_COMPLETION`: bytes of an `RLD` arrive, or a remote device acknowledges an `RST`, or refuses (status 1); status 2 marks bytes with
the poison code. -/
def execRemoteCompletion (id : Nat) (status : BitVec 8) (data : List Byte) (s : State) : Out State :=
  match s.cmd id with
  | none => .fault .noSuchUnit
  | some c =>
    let b := c.rem
    if c.st != .running || c.ended || c.cls != .cloys then .next s
    else if status = 1 then .next (s.remFail c)
    else if b.load then .next (s.remArrive c (data.take (b.bytes - c.work.headD 0)) (status == 2))
    else .next ((s.updCmd id fun d => { d with doneBytes := b.bytes }).remEnd c s.now)

/-- `REMOTE_TIMEOUT`: no completion within 20 µs. -/
def execRemoteTimeout (id : Nat) (s : State) : Out State :=
  match s.cmd id with
  | none => .fault .noSuchUnit
  | some c => if c.st = .running ∧ c.ended = false ∧ c.cls = .cloys ∧ c.budgetEnd ≤ s.now then .next (s.remFail c) else .next s

end Sys2Proof.Machine
end

