-- ==== Sys2Proof/Machine/Release.lean ====
section
/-! DEFINITION. Sys2Proof/Machine/Release.lean: what ends a hold of a sequencer (R38, R49, R61, R241, R249, R273, R317, R412,
R442). -/

namespace Sys2Proof.Machine
open Config

/-- A sequencer runs and is not standing still. -/
def SeqState.live (x : SeqState) : Bool := x.run == .running && x.frozen.isNone

/-- A hold ends: the next bundle is due in cycle t. -/
def State.releaseAt (s : State) (c : Nat) (q : Seq) (t : Nat) : State :=
  s.updSeq c q fun x => { x with hold := .none, nextAt := t }

/-- The task of a core's primary runs in loose mode (R326). -/
def State.looseCore (s : State) (c : Nat) : Bool :=
  match s.moorOf c with
  | some m => (s.moor m).loose
  | none => false

/-! ### `SYNC` (R49, R412) -/

/-- The arrival of a core at a barrier of a mask. -/
def State.arrival (s : State) (mask : BitVec 16) (c : Nat) : Option Nat :=
  match (s.core c).prim.hold with
  | .sync m t => if m = mask ∧ (s.core c).prim.live then some t else none
  | _ => none

/-- The masks of the barriers held in a cluster. -/
def State.masksOf (s : State) (g : Nat) : List (BitVec 16) :=
  ((maskCores (g * coresPerCluster) 0xFFFF).filterMap fun c => match (s.core c).prim.hold with
    | .sync m _ => some m
    | _ => none).eraseDups

/-- Every member has arrived; the last of them in this cycle. -/
def State.lastArrival (s : State) (g : Nat) (mask : BitVec 16) : Option Nat :=
  let ts := (maskCores (g * coresPerCluster) mask).map (s.arrival mask)
  if ts.all Option.isSome then some (ts.foldl (fun n o => Nat.max n (o.getD 0)) 0) else none

def State.firstArrival (s : State) (g : Nat) (mask : BitVec 16) : Option Nat :=
  ((maskCores (g * coresPerCluster) mask).filterMap (s.arrival mask)).min?

/-- A barrier completes six cycles after its last arrival. -/
def State.syncDone (s : State) (g : Nat) (mask : BitVec 16) : Bool :=
  match s.lastArrival g mask with
  | some t => decide (t + 6 ≤ s.now)
  | none => false

/-- `SYNC_BARRIER_COMPLETE`. -/
def execSyncBarrierComplete (cluster : Nat) (s : State) : Out State :=
  if cluster < nClusters then
    .next ((s.masksOf cluster).foldl (fun t m =>
      if t.syncDone cluster m then
        (maskCores (cluster * coresPerCluster) m).foldl (fun u c => u.releaseAt c .primary u.now) t
      else t) s)
  else .fault .noSuchUnit

/-- A member of a barrier is still absent 65,536 cycles after the first arrival. -/
def State.syncLate (s : State) (g : Nat) (mask : BitVec 16) : Bool :=
  (s.lastArrival g mask).isNone && (match s.firstArrival g mask with
    | some t => decide (t + 65536 ≤ s.now)
    | none => false) && !s.looseCore (g * coresPerCluster)

/-- `SYNC_TIMEOUT`: every member raises a timing fault. -/
def execSyncTimeout (cluster : Nat) (s : State) : Out State :=
  if cluster < nClusters then
    .next ((s.masksOf cluster).foldl (fun t m =>
      if t.syncLate cluster m then t.faultAll (maskCores (cluster * coresPerCluster) m) else t) s)
  else .fault .noSuchUnit

/-! ### `WAITG` (R249, R442) -/

def State.viaOf (s : State) (c : Nat) (q : Seq) : Via :=
  match q with
  | .primary => match s.moorOf c with
    | some m => .pins m
    | none => .nothing
  | .secondary => .walk (c / coresPerCluster)

/-- The physical address of the gauge word that a held `WAITG` polls. -/
def State.pollPa (s : State) (c : Nat) (q : Seq) (ga : Nat) : Nat :=
  match gaugeOff ga with
  | some g => s.placePa (s.placeAt (s.viaOf c q) c (gaugeVa c g) .r) 16 false
  | none => 0

/-- The held gauge has reached its generation, as this cycle's reads see it. -/
def State.waitgReached (s : State) (c : Nat) (q : Seq) : Bool :=
  match (s.seq c q).hold with
  | .waitg ga gen t _ _ => decide (t < s.now) && genReached (s.num (s.pollPa c q ga.toNat + 8) 4) gen.toNat
  | _ => false

/-- The deadline is checked: not in loose mode. -/
def State.deadlines (s : State) (c : Nat) (q : Seq) : Bool :=
  match q with
  | .secondary => true
  | .primary => !s.looseCore c

/-- `WAITG_RELEASE`. -/
def execWaitgRelease (core : Nat) (q : Seq) (s : State) : Out State :=
  if core < nCores then
    match (s.seq core q).hold with
    | .waitg _ _ t limit idle =>
      if s.waitgReached core q && (decide (s.now ≤ limit) || !s.deadlines core q) then
        .next (s.releaseAt core q (Nat.max s.now (t + 1 + idle)))
      else .next s
    | _ => .next s
  else .fault .noSuchUnit

/-- `WAITG_DEADLINE`: a timing fault at the `WAITG` bundle; an open stream goes on with TF set. -/
def execWaitgDeadline (core : Nat) (q : Seq) (s : State) : Out State :=
  if core < nCores then
    match (s.seq core q).hold with
    | .waitg _ _ t limit idle =>
      if limit < s.now ∧ s.deadlines core q then
        .next ((s.releaseAt core q (Nat.max s.now (t + 1 + idle))).timingFault core q 0 (s.seq core q).lastPc)
      else .next s
    | _ => .next s
  else .fault .noSuchUnit

/-! ### `FENCE` (R38, R241, R273) -/

/-- The spaces of a scope. -/
def scopeCovers (sc : FScope) (q : Seq) : Space → Bool
  | .own => sc == .core || sc == .cluster || sc == .package || sc == .domain
  | .pool => sc == .cluster || sc == .package || sc == .domain
  | .near | .any => q == .primary && (sc == .package || sc == .domain)

/-- A queue entry that a fence waits for. -/
def scopeEntry (sc : FScope) (q : Seq) (t : Nat) (e : QEntry) : Bool :=
  decide (e.issued < t) && ((match e.space with
    | some sp => scopeCovers sc q sp
    | none => false) || (sc == .ld && q == .secondary && e.varLat))

/-- A command that a fence waits for. -/
def scopeCmd (sc : FScope) (c : Nat) (q : Seq) (m : Option Nat) (t : Nat) (k : Cmd) : Bool :=
  !k.ended && (match q with
    | .secondary => (sc == .package || sc == .domain) && k.core == c && k.q == .secondary && k.cls == .copy && decide (k.issued < t)
    | .primary => (sc == .domain && k.core == c && k.q == .primary && k.cls == .cloys && decide (k.issued < t))
        || (sc == .nm && k.cls == .nm && k.mooring == m))

/-- A `SEND` goes to the scratchpad of its target. -/
def AKind.isSend : AKind → Bool
  | .send _ _ _ _ => true
  | _ => false

/-- Everything that a fence waits for has performed and landed. -/
def State.fenceFree (s : State) (c : Nat) (q : Seq) (sc : FScope) (t : Nat) : Bool :=
  !(s.accesses.any fun a => a.owner == .seq c q && decide (a.issued < t) && !a.kind.isSend && scopeCovers sc q a.space)
    && !((s.seq c q).queue.any (scopeEntry sc q t)) && !(s.cmds.any (scopeCmd sc c q (s.moorOf c) t))

/-- `FENCE_RELEASE`. -/
def execFenceRelease (core : Nat) (q : Seq) (s : State) : Out State :=
  if core < nCores then
    match (s.seq core q).hold with
    | .fence sc t idle =>
      if t + 1 + idle ≤ s.now ∧ s.fenceFree core q sc t then .next (s.releaseAt core q s.now) else .next s
    | _ => .next s
  else .fault .noSuchUnit

/-! ### `TFENCE` (R317) -/

/-- The flags that trap. -/
def trapBits (flags : BitVec 10) (en : BitVec 9) : BitVec 10 := flags &&& (en.setWidth 10 ||| fTF)

/-- Every result of a sequencer has landed. Effects that are no results, of `SYSWR` or `WATCH` for one, are none of its entries (R78,
R312, R313). -/
def SeqState.allLanded (x : SeqState) : Bool := !(x.queue.any fun e => e.eff.dest.isSome)

/-- `TFENCE_RELEASE`: the test of `FLAGS`, and the flag trap or the next bundle. A resumed stream issues the next bundle in the
`TCLK` cycle of the test. -/
def execTfenceRelease (core : Nat) (q : Seq) (s : State) : Out State :=
  if core < nCores then
    let x := s.seq core q
    match x.hold with
    | .tfence t idle =>
      if t + 1 + idle ≤ s.now ∧ x.allLanded then
        let b := trapBits (s.flagsNow core q) x.trapen
        if b = 0 then .next (s.releaseAt core q s.now)
        else
          .next ((s.releaseAt core q s.now).takeTrapAt core q
            ⟨0x10, some 7, b.setWidth 64, true⟩ x.lastPc none)
      else .next s
    | _ => .next s
  else .fault .noSuchUnit

/-! ### The watchdog (R61) -/

def watchdogLimit : Nat := 2 ^ 20

/-- A secondary stream has issued no bundle for 2^20 cycles. -/
def State.stalled (s : State) (c : Nat) : Bool :=
  let x := s.seq c .secondary
  x.run == .running && !x.watchdog && decide (x.lastIssue + watchdogLimit ≤ s.now)

/-- `SECONDARY_WATCHDOG`: the Pilot reports the stream, without a fault; the stream waits on. -/
def execSecondaryWatchdog (core : Nat) (s : State) : Out State :=
  if core < nCores then
    if s.stalled core then .next (s.updSeq core .secondary fun x => { x with watchdog := true }) else .next s
  else .fault .noSuchUnit

end Sys2Proof.Machine
end

