-- ==== Sys2Proof/Machine/Pkg.lean ====
section
/-! DEFINITION. Sys2Proof/Machine/Pkg.lean: package services: `PUBLISH`, `STEPADV`, `EBBSWEEP`, `CHKPT` and its drain (R261, R299 to
R305, R357, R365, R400, R410). -/

namespace Sys2Proof.Machine
open Config

def execPublish (h : HRd) (s : State) : Out State := s.engine h .pkg 0 0x21 (.publish h) false
def execChkpt (h : HRd) (s : State) : Out State := s.engine h .pkg 0 0x28 (.chkpt h) false
def execStepadv (h : HRd) (inc : BitVec 8) (s : State) : Out State := s.engine h .pkg 0 0x29 (.stepadv h inc) false
def execEbbsweep (h : HRd) (region : Fin 16) (s : State) : Out State := s.engine h .pkg 0 0x2A (.ebbsweep h region) false

/-! ### `PUBLISH` (R261, R400) -/

def Cmd.pubCount (c : Cmd) : Nat := c.num 16 2
def Cmd.pubList (c : Cmd) : Nat := c.num 20 4
/-- Bytes of granule g of the list. -/
def Cmd.pubLen (c : Cmd) (g : Nat) : Nat := Nat.min 16 (2 * c.pubCount - 16 * g)

/-- The 16-bit indices of a list. -/
def listIndices : List Byte → List Nat
  | a :: b :: l => (a.toNat + 256 * b.toNat) :: listIndices l
  | _ => []

/-- Each index is below 1,024, valid, and listed once. -/
def State.pubOk (s : State) (m : Nat) (l : List Nat) : Bool :=
  l.all (fun i => decide (i < 1024) && (s.lens m i).isSome) && decide l.Nodup

/-- A listed entry lies in a frozen range, which its flip may not write (R305). -/
def State.pubFrozen (s : State) (m : Nat) (l : List Nat) : Bool := l.any fun i => match s.lensPa m i with
  | some pa => s.frozenAt (pa + 13)
  | none => false

/-- LIT of the listed entries is inverted. -/
def State.flip (s : State) (m : Nat) (l : List Nat) : State :=
  l.foldl (fun t i => match t.lensPa m i with
    | some pa => t.putBytes (pa + 13) [BitVec.ofNat 8 (t.num (pa + 13) 1) ^^^ 1] (t.poisons (pa + 13) 1)
    | none => t) s

def State.pubBlock (s : State) (c : Cmd) : State :=
  let n := c.pubCount
  let g := ceilDiv n 8
  if n < 1 ∨ 32 < n ∨ !c.zero 18 2 ∨ !c.zero 24 40 ∨ c.mooring.isNone ∨ spadBytes < c.pubList + 2 * n
      ∨ (!s.looseCmd c && decide (c.start < c.issued + 5 + g)) then s.engineFault c.id 3
  else
    let s1 := s.reserve c ((List.range g).map fun j => ⟨c.issued + 5 + j, c.pubList + 16 * j, c.pubLen j, .r⟩)
    match s1.cmd c.id with
    | some d => if d.ended then s1 else (List.range g).foldl (fun t j =>
        t.addRead c.id (c.issued + 5 + j) (firstLate + j) (s.spadPlace c (c.pubList + 16 * j) .r) (c.pubLen j)) s1
    | none => s1

/-- A granule of the list is read. -/
def State.pubRead (s : State) (c : Cmd) (g : Nat) : State :=
  s.updCmd c.id fun d => { d with data := c.data ++ (s.engBytes c (c.pubList + 16 * g) (c.pubLen g)).1 }

/-- The whole list has been read. -/
def Cmd.pubReady (c : Cmd) : Bool := decide (2 * c.pubCount ≤ c.data.length)

/-- The entries that `PUBLISHN` nodes of this cycle list. -/
def State.nodeList (s : State) (m : Nat) : List Nat := if (s.moor m).pubAt = s.now then (s.moor m).pubn else []
/-- A `PUBLISHN` node of this cycle lists entries. -/
def State.listNode (s : State) (m : Nat) (l : List Nat) : State :=
  let old := s.nodeList m
  s.updMoor m fun k => { k with pubAt := s.now, pubn := old ++ l }

/-- Another `PUBLISH` of this cycle, judged or still to be judged. -/
def State.pubNow (s : State) (m : Nat) (d : Cmd) : Bool :=
  d.opc == 0x21 && d.mooring == some m && d.pubReady
    && (d.budgetEnd == s.now || (d.st == .waiting && d.start == s.now && !d.ended && s.headCode d == 0))

/-- A list of entries meets another `PUBLISH` of this cycle. -/
def State.pubMeets (s : State) (m : Nat) (id : Option Nat) (l : List Nat) : Bool :=
  s.cmds.any fun d => some d.id != id && s.pubNow m d && (listIndices d.data).any l.contains

/-- A node meets `PUBLISH` commands of its cycle that have flipped before it: they fault too, and nothing of them has flipped (R400). -/
def State.unpublish (s : State) (m : Nat) (l : List Nat) : State :=
  (s.cmds.filter fun d => d.opc == 0x21 && d.mooring == some m && d.budgetEnd == s.now && d.st == .done && (listIndices d.data).any l.contains).foldl
    (fun t d => ((t.flip m (listIndices d.data)).updCmd d.id fun x => { x with ended := false }).engineFault d.id 3) s

def State.pubStart (s : State) (c : Cmd) : State :=
  match c.mooring with
  | none => s.engineFault c.id 3
  | some m =>
    let l := listIndices c.data
    let s1 := s.updCmd c.id fun d => { d with budgetEnd := s.now }
    if s.pubBarred m then s1.endCmd c.id .none
    else if !s.pubOk m l || s.pubMeets m (some c.id) l || (s.nodeList m).any l.contains then s1.engineFault c.id 3
    else if s.pubFrozen m l then s1.engineFault c.id 0x0D
    else (s1.flip m l).endCmd c.id .done

/-! ### `STEPADV` (R302, R410) -/

/-- `GSTEP` after an increment, where no active region's window is exceeded. -/
def State.advanced (s : State) (m inc : Nat) : Option Nat :=
  let k := s.moor m
  let n := (k.gstep.toNat + inc) % 2 ^ 24
  if k.regions.any fun r => r.active && decide (2 ^ 23 - 2 ^ 20 < ebbDist n r.last) then none else some n

/-- `GSTEP` changes. -/
def State.setGstep (s : State) (m n : Nat) : State := s.updMoor m fun k => { k with gstep := BitVec.ofNat 64 n }

def State.stepBlock (s : State) (c : Cmd) : State := if c.zero 16 48 && c.mooring.isSome then s else s.engineFault c.id 3

def State.stepApply (s : State) (c : Cmd) : State :=
  match c.instr, c.mooring with
  | .stepadv _ inc, some m => match s.advanced m inc.toNat with
    | some n => (s.setGstep m n).endCmd c.id .done
    | none => s.engineFault c.id 0x0C
  | _, _ => s

/-! ### `EBBSWEEP` (R303, R365) -/

def Cmd.region (c : Cmd) : Nat :=
  match c.instr with
  | .ebbsweep _ r => r.val
  | _ => 0

/-- The granules of a region. -/
def Region.granules (r : Region) : Nat := ceilDiv (r.vbase % 16 + 8 * r.words) 16
/-- The words of the region in granule j: first address and count. -/
def Region.wordsIn (r : Region) (j : Nat) : Nat × Nat :=
  let g := r.vbase / 16 * 16 + 16 * j
  let lo := Nat.max g r.vbase
  (lo, (Nat.min (g + 16) (r.vbase + 8 * r.words) - lo) / 8)

/-- The cycle of granule j, from cycle t on. -/
def State.sweepAt (s : State) (c : Cmd) (r : Region) (j t : Nat) : Nat :=
  match s.engSpot c (r.wordsIn j).1 1 .w with
  | some sp => wheelAt c.core sp.pa t
  | none => t

/-- The cycles of n granules from number j on. -/
def State.sweepCycles (s : State) (c : Cmd) (r : Region) : Nat → Nat → Nat → List Nat
  | 0, _, _ => []
  | n + 1, j, t =>
    let u := s.sweepAt c r j t
    u :: State.sweepCycles s c r n (j + 1) (u + 1)

def State.ebbStart (s : State) (c : Cmd) : State :=
  match c.mooring with
  | none => s.engineFault c.id 3
  | some m =>
    let k := s.moor m
    match k.regions[c.region]? with
    | none => s.engineFault c.id 7
    | some r =>
      if !r.active || r.sw then s.engineFault c.id 7
      else if !c.zero 19 45 || (!r.kind1 && !c.zero 16 3) then s.engineFault c.id 3
      else if r.kind1 then (s.updCmd c.id fun d => { d with work := [0, c.num 16 3] }).addStep c.id c.start stepTail
      else
        let ts := s.sweepCycles c r r.granules 0 c.start
        let sp := (List.range r.granules).map fun j => s.engSpot c (r.wordsIn j).1 (8 * (r.wordsIn j).2) .w
        let us := (sp.zip ts).flatMap fun x => match x.1 with
          | some q => q.uses 1 x.2
          | none => []
        if sp.any (·.isNone) then s.engineFault c.id 3
        else if !s.looseCmd c && s.engMeets c.id us then s.engineFault c.id 5
        else
          let s1 := if s.looseCmd c then s else s.engHold c.id us
          (s1.updRegion m c.region fun x => { x with sw := true }).updCmd c.id fun d => { d with work := [0, k.gstep.toNat % 2 ^ 24] ++ ts }

/-- The sweep ends: LAST becomes the `GSTEP` of its START, or SSTAMP, and SW is cleared, after the `STEPADV` and `STEPN` of this cycle
(R303). -/
def State.sweepTail (s : State) (c : Cmd) : State :=
  match c.mooring with
  | some m => (s.updRegion m c.region fun x => { x with last := c.work.getD 1 0, sw := false }).endCmd c.id .done
  | none => s

/-- The sweep has a granule in this cycle. -/
def State.sweepDue (s : State) (c : Cmd) : Bool :=
  c.opc == 0x2A && c.st == .running && (match (c.work.drop (2 + c.work.headD 0)).head? with
    | some t => t == s.now
    | none => false)

/-- A merge-add of +0 at a word, in the lit copy. -/
def State.sweepWord (s : State) (c : Cmd) (va : Nat) : State :=
  let p := s.engPlace c va .w
  let pa := s.placePa p 8 false
  let w := s.word pa 8
  let r := s.mergeAt p w.1 0
  (s.putBytes pa (natBytes 8 r.1) (List.replicate 8 w.2)).tally c.id 8 r.2

/-- `EBB_SWEEP_GRANULE`. -/
def execEbbSweepGranule (id : Nat) (s : State) : Out State :=
  match s.cmd id with
  | none => .fault .noSuchUnit
  | some c =>
    if s.sweepDue c then
      match c.mooring with
      | none => .next s
      | some m =>
        let j := c.work.headD 0
        let r := (s.moor m).regions.getD c.region Region.off
        let w := r.wordsIn j
        let s1 := ((List.range w.2).foldl (fun t i => t.sweepWord c (w.1 + 8 * i)) s).updCmd id fun d => { d with work := (j + 1) :: d.work.drop 1 }
        .next (if j + 1 = r.granules then s1.addStep id s.now stepTail else s1)
    else .next s

/-! ### `CHKPT` (R304, R305, R357) -/

/-- The fields of a checkpoint, from bytes 16 on of its block or record. -/
structure ChkB where
  nr : Nat
  ranges : List (Nat × Nat)
  rest : Bool
  dest : Nat
  deriving DecidableEq, Repr

def pageSize : Nat := 0x200000

def ChkB.pages (b : ChkB) : Nat := b.ranges.foldl (fun n r => n + r.2) 0
def ChkB.ok (b : ChkB) : Bool :=
  decide (1 ≤ b.nr) && decide (b.nr ≤ 3) && b.rest && b.dest % pageSize == 0
    && b.ranges.all fun r => r.1 % pageSize == 0 && decide (1 ≤ r.2)
      && (decide (b.dest + pageSize * (b.pages + 1) ≤ r.1) || decide (r.1 + pageSize * r.2 ≤ b.dest))

def Cmd.chk (c : Cmd) : ChkB :=
  let n := c.num 16 1
  ⟨n, (List.range n).map fun i => (c.num (20 + 12 * i) 8, c.num (28 + 12 * i) 4), c.zero 17 3 && c.zero (20 + 12 * n) (36 - 12 * n), c.num 56 8⟩

/-- The physical address in HBM4E of a mooring's address. -/
def State.hbmPa (s : State) (m va : Nat) : Option Nat := (s.moorPa m va).bind fun pa => if hbmBase ≤ pa then some pa else none

/-- The physical pieces of n pages at an address; none where one is not mapped to HBM. -/
def State.pieces (s : State) (m va n : Nat) : Option (List Nat) :=
  let l := (List.range (n * (pageSize / pieceSize))).map fun i => s.hbmPa m (va + pieceSize * i)
  if l.any (·.isNone) then none else some (l.filterMap id)

/-- The ranges freeze; the code of the fault, where the checkpoint may not start. -/
def State.freeze (s : State) (m : Nat) (b : ChkB) : Except Nat State :=
  if (s.moor m).drain.isSome then .error 7
  else if !b.ok then .error 3
  else
    let src := b.ranges.map fun r => s.pieces m r.1 r.2
    match s.hbmPa m b.dest, s.pieces m (b.dest + pageSize) b.pages with
    | some h, some d =>
      if src.any (·.isNone) then .error 3
      else .ok (s.updMoor m fun k => { k with
        drain := some ⟨(src.filterMap id).flatten, h, d, k.gstep.toNat % 2 ^ 24, b.pages, s.now / frameCycles + 1, 0⟩ })
    | _, _ => .error 3

def State.chkStart (s : State) (c : Cmd) : State :=
  match c.mooring with
  | none => s.engineFault c.id 3
  | some m => match s.freeze m c.chk with
    | .ok t => t.endCmd c.id .done
    | .error k => s.engineFault c.id k

def State.chkBlock (s : State) (c : Cmd) : State := if c.chk.ok then s else s.engineFault c.id 3

/-- Copies one piece. -/
def State.copyPiece (s : State) (src dst : Nat) : State :=
  let inside (a base : Nat) : Bool := decide (base ≤ a) && decide (a < base + pieceSize)
  { s with
    mem := (s.mem.filter fun c => inside c.1 src).foldl (fun m c => m.set (dst + (c.1 - src)) c.2) (s.mem.filter fun c => !inside c.1 dst)
    poison := (s.poison.filter fun c => inside c.1 src).foldl (fun p c => sset false p (dst + (c.1 - src)) c.2)
      (s.poison.filter fun c => !inside c.1 dst) }

/-- The last cycle of the eight frames in which the drain moves page n. -/
def Drain.pageAt (d : Drain) (n : Nat) : Nat := (d.f0 + 8 * (n + 1)) * frameCycles - 1

/-- `CHKPT_DRAIN_PAGE`: one page in each eight frames. -/
def execChkptDrainPage (m : Nat) (s : State) : Out State :=
  if m < nMoorings then
    match (s.moor m).drain with
    | some d =>
      if d.nextPage < d.pages ∧ d.pageAt d.nextPage = s.now then
        let k := pageSize / pieceSize
        let s1 := (List.range k).foldl (fun t i => t.copyPiece (d.pieces.getD (k * d.nextPage + i) 0) (d.dest.getD (k * d.nextPage + i) 0)) s
        .next (s1.updMoor m fun x => { x with drain := some { d with nextPage := d.nextPage + 1 } })
      else .next s
    | none => .next s
  else .fault .noSuchUnit

/-- `CHKPT_DRAIN_END`: the header, and the ranges thaw. -/
def execChkptDrainEnd (m : Nat) (s : State) : Out State :=
  if m < nMoorings then
    match (s.moor m).drain with
    | some d =>
      if d.nextPage = d.pages then
        .next (((s.putClean d.head (natBytes 3 d.gstep)).putClean (d.head + 4) (natBytes 4 d.pages)).updMoor m fun x => { x with drain := none })
      else .next s
    | none => .next s
  else .fault .noSuchUnit

/-! ### Blocks, STARTs and steps of package services -/

def State.pkgBlock (s : State) (c : Cmd) : State :=
  match c.instr with
  | .publish _ => s.pubBlock c
  | .stepadv _ _ => s.stepBlock c
  | .chkpt _ => s.chkBlock c
  | _ => s

def State.pkgStart (s : State) (c : Cmd) : State :=
  match c.instr with
  | .publish _ => s.pubStart c
  | .stepadv _ _ => s.addStep c.id c.start stepAfter
  | .chkpt _ => s.chkStart c
  | _ => s.ebbStart c

def State.pkgStep (s : State) (c : Cmd) (k : Nat) : State :=
  if k = stepAfter then s.stepApply c else if k = stepTail then s.sweepTail c else s.pubRead c (k - firstLate)

end Sys2Proof.Machine
end

