-- ==== Sys2Proof/Machine/NearMem.lean ====
section
/-! DEFINITION. Sys2Proof/Machine/NearMem.lean: near-memory blocks (R238 to R242, R330, R397). -/

namespace Sys2Proof.Machine
open Config

def execNmc (h : HRd) (s : State) : Out State := s.engine h .nm 0 0x20 (.nmc h) false

/-! ### Fields of an HBM address (R217) -/

def hbmRow (pa : Nat) : Nat := bits pa 25 14
def hbmBank (pa : Nat) : Nat := bits pa 21 4
def hbmPc (pa : Nat) : Nat := bits pa 12 1
def hbmCol (pa : Nat) : Nat := bits pa 6 6
/-- The physical address of a granule of a channel. -/
def hbmAddr (ch pc bank row col : Nat) : Nat := hbmBase + row * 2 ^ 25 + bank * 2 ^ 21 + ch * 2 ^ 13 + pc * 2 ^ 12 + col * 64

def Channel.rbase (k : Channel) (m : Nat) : Nat := bits (k.tlrgn.getD m 0).toNat 0 16
def Channel.rcount (k : Channel) (m : Nat) : Nat := bits (k.tlrgn.getD m 0).toNat 16 16

/-! ### The block (R238) -/

structure NmB where
  op : Nat
  form : Nat
  index : Nat
  count : Nat
  base : Nat
  src : Nat
  alpha : Nat
  gauge : Nat
  deriving DecidableEq, Repr

def Cmd.nm (c : Cmd) : NmB := ⟨c.num 16 1, c.num 17 1, c.num 18 1, c.num 20 4, c.num 24 8, c.num 32 8, c.num 40 4, c.num 44 4⟩

/-- Bytes of a target element, and of a source element. -/
def NmB.size (b : NmB) : Nat := if b.form = 0 then 4 else if b.form = 1 then 2 else 8
def NmB.srcSize (b : NmB) : Nat := if b.op = 0 then b.size else 4
def NmB.hasSrc (b : NmB) : Bool := decide (b.op < 2)
def NmB.bytes (b : NmB) : Nat := b.count * b.size
/-- The bursts that n bytes at pa touch. -/
def bursts (pa n : Nat) : Nat := (pa + n - 1) / 64 - pa / 64 + 1
/-- Clocks of a block whose base range touches g bursts (R240). -/
def NmB.clocks (b : NmB) (g : Nat) : Nat := 48 + (if b.op < 2 then 6 else if b.op = 3 then 2 else 4) * g
def NmB.legal (b : NmB) : Bool :=
  if b.op = 1 ∨ b.op = 4 then b.form == 2 else decide (b.op < 4) && decide (b.form < 2)

/-- A range lies within one 8 KiB granule, on a channel, in the mooring's region there. -/
def State.nmRange (s : State) (m pa n ch : Nat) : Bool :=
  let k := s.chan ch
  pa / 8192 == (pa + n - 1) / 8192 && hbmChan pa == ch && decide (k.rbase m ≤ hbmRow pa) && decide (hbmRow pa < k.rbase m + k.rcount m)

/-- The physical address of a target or source in HBM, with its permission. -/
def State.nmPa (s : State) (c : Cmd) (va : Nat) (p : Perm) : Option Nat :=
  (s.engSpot c va 1 p).bind fun sp => if hbmBase ≤ sp.pa then some sp.pa else none

/-- A block's targets: channel, physical base and source; none where a limit is broken. -/
def State.nmPlaces (s : State) (c : Cmd) : Option (Nat × Nat × Nat) :=
  let b := c.nm
  match c.mooring, s.nmPa c b.base .w with
  | some m, some pa =>
    let ch := hbmChan pa
    let sp : Option Nat := if b.hasSrc then s.nmPa c b.src .r else if b.src = 0 then some 0 else none
    match sp with
    | none => none
    | some q =>
      if b.legal && decide (b.index < 64) && c.zero 19 1 && c.zero 48 16 && decide (1 ≤ b.count) && b.base % b.size == 0 && gaugeOk b.gauge
          && s.nmRange m pa b.bytes ch && (!b.hasSrc || s.nmRange m q (b.count * b.srcSize) ch)
          && decide (b.clocks (bursts pa b.bytes) ≤ windowClocks)
          && (b.form != 2 || (List.range b.count).all fun i => (s.regionOf c.mooring (b.base + 8 * i)).isSome)
      then some (ch, pa, q) else none
  | _, _ => none

/-- All checks are made when the block is read; `work` then holds channel, base and source. -/
def State.nmBlock (s : State) (c : Cmd) : State :=
  match s.nmPlaces c with
  | some (ch, pa, q) => s.updCmd c.id fun d => { d with work := [ch, pa, q] }
  | none => s.engineFault c.id 3

/-- At START the block enters its channel's queue for the mooring. -/
def State.nmStart (s : State) (c : Cmd) : State :=
  match c.mooring with
  | none => s.engineFault c.id 3
  | some m =>
    let ch := c.work.getD 0 0
    let b := c.nm
    if 16 ≤ ((s.chan ch).nmq.filter fun x => x.mooring == m).length then s.engineFault c.id 0x0B
    else s.updChan ch fun k => { k with nmq := k.nmq ++ [⟨c.id, m, b.index, s.now, b.clocks (bursts (c.work.getD 1 0) b.bytes), none⟩] }

/-! ### The arithmetic (R239) -/

/-- a × b + c in FP32 operands, rounded once to an output format. -/
def fmaTo (out : Fmt) (a b c : Nat) : Nat × Flg :=
  match fmt32.dec a, fmt32.dec b, fmt32.dec c with
  | .fin na ma ea, .fin nb mb eb, .fin nc mc ec =>
    out.roundDy .rne (Dy.add (Dy.mul ⟨na, ma, ea⟩ ⟨nb, mb, eb⟩) ⟨nc, mc, ec⟩) (zeroSign .rne (na != nb) nc)
  | _, _, _ =>
    let r := fmt32.fma .rne a b c
    ((fmt32.cvt out .rne r.1).1, r.2)

/-- a × b in FP32 operands, rounded once to an output format. -/
def mulTo (out : Fmt) (a b : Nat) : Nat × Flg :=
  match fmt32.dec a, fmt32.dec b with
  | .fin na ma ea, .fin nb mb eb => out.roundDy .rne (Dy.mul ⟨na, ma, ea⟩ ⟨nb, mb, eb⟩) (na != nb)
  | _, _ =>
    let r := fmt32.mul .rne a b
    ((fmt32.cvt out .rne r.1).1, r.2)

/-- The FP32 value of an element of NFORM. -/
def NmB.up (b : NmB) (w : Nat) : Nat × Flg := if b.form = 1 then fmtB16.cvt fmt32 .rne w else (w, 0)
def NmB.out (b : NmB) : Fmt := if b.form = 1 then fmtB16 else fmt32

/-- The new value of an element and its flags. -/
def State.nmElem (s : State) (b : NmB) (p : Place) (base src : Nat) : Nat × Flg :=
  if b.op = 0 then
    let x := b.up base
    let y := b.up src
    let r := fmaTo b.out b.alpha y.1 x.1
    (r.1, r.2 ||| x.2 ||| y.2)
  else if b.op = 1 then
    let x := fmt32.mul .rne b.alpha src
    let r := s.mergeAt p base x.1
    (r.1, x.2 ||| r.2)
  else if b.op = 2 then
    let x := b.up base
    let r := mulTo b.out b.alpha x.1
    (r.1, r.2 ||| x.2)
  else if b.op = 3 then fmt32.cvt b.out .rne b.alpha
  else s.mergeAt p base 0

/-- The 64-byte bursts that a block reads with an uncorrectable error or the poison code. -/
def State.badBursts (s : State) (pa n : Nat) : List Nat :=
  ((List.range (bursts pa n)).map fun i => pa / 64 * 64 + 64 * i).filter fun a => poisonAt s.poison a || s.errs.contains (a, true)

/-- A burst that a read has found uncorrectable holds the poison code from then on. -/
def State.markBad (s : State) (a : Nat) : State :=
  { s with poison := sset false s.poison a true, errs := s.errs.filter fun e => e != (a, true) }

/-- The block performs: every element in one step. -/
def State.nmPerform (s0 : State) (c : Cmd) : State :=
  let b := c.nm
  let ch := c.work.getD 0 0
  let pa := c.work.getD 1 0
  let q := c.work.getD 2 0
  let e := b.size
  if s0.frozenIn pa b.bytes then s0.engineFault c.id 0x0D
  else
    let bad := ((if b.op = 3 then [] else s0.badBursts pa b.bytes)
      ++ (if b.hasSrc then s0.badBursts q (b.count * b.srcSize) else [])).eraseDups
    let s := bad.foldl State.markBad s0
    let one (i : Nat) : (List Byte × List Bool) × Flg :=
      let p := Place.virt (b.base + e * i) c.mooring (pa + e * i)
      let x := s.nmElem b p (s.num (pa + e * i) e) (if b.hasSrc then s.num (q + b.srcSize * i) b.srcSize else 0)
      let poi := (b.op != 3 && poisonAt s.poison (pa + e * i)) || (b.hasSrc && s.anyPoison (q + b.srcSize * i) b.srcSize)
      ((natBytes e x.1, List.replicate e poi), x.2)
    let rs := (List.range b.count).map one
    let s1 := (s.putBytes pa (rs.flatMap fun r => r.1.1) (rs.flatMap fun r => r.1.2)).tally c.id b.bytes (rs.foldl (fun f r => f ||| r.2) 0)
    if bad.isEmpty then
      (s1.raiseLate c b.gauge b.bytes (s.gaugeCycle c b.gauge s.now)).endCmd c.id .done
    else
      let s2 := bad.foldl (fun t a => t.logError ch 2 a) s1
      let s3 := s2.closeNow c b.gauge 2
      s3.engineFault c.id 0x0E

/-- `NM_BLOCK_PERFORM`, in the core cycle of the block's last clock. -/
def execNmBlockPerform (channel id : Nat) (s : State) : Out State :=
  match s.cmd id with
  | none => .fault .noSuchUnit
  | some c =>
    let k := s.chan channel
    if k.nmq.any fun x => x.cmd == id && x.runAt == some s.now then
      let s1 := s.updChan channel fun k => { k with nmq := k.nmq.filter fun x => x.cmd != id }
      .next (if c.ended then s1 else s1.nmPerform c)
    else .next s

end Sys2Proof.Machine
end

