-- ==== Sys2Proof/Machine/Scrub.lean ====
section
/-! DEFINITION. Sys2Proof/Machine/Scrub.lean: `SCRUB` on a copy engine (R237, R404). -/

namespace Sys2Proof.Machine
open Config

def execScrub (h : HRd) (inst : Fin 2) (s : State) : Out State := s.engine h .copy inst.val 0x13 (.scrub h inst) false

structure ScrubB where
  base : Nat
  n : Nat
  cmap : Nat
  umap : Nat
  gauge : Nat
  deriving DecidableEq, Repr

def Cmd.scrub (c : Cmd) : ScrubB := ⟨c.num 16 8, c.num 24 4, c.num 28 4, c.num 32 4, c.num 36 4⟩
/-- Bytes of one bitmap. -/
def ScrubB.len (b : ScrubB) : Nat := ceilDiv b.n 8

def State.scrubBlock (s : State) (c : Cmd) : State :=
  let b := c.scrub
  if b.base % 64 = 0 ∧ 1 ≤ b.n ∧ b.n ≤ 32768 ∧ b.cmap + b.len ≤ spadBytes ∧ b.umap + b.len ≤ spadBytes ∧ gaugeOk b.gauge ∧ c.zero 40 24
      ∧ ((List.range b.n).all fun i => (s.nmPa c (b.base + 64 * i) .r).isSome) then s
  else s.engineFault c.id 3

/-- Sector i goes to the open share of its channel. -/
def State.scrubAsk (s : State) (c : Cmd) (i : Nat) : State :=
  match s.nmPa c (c.scrub.base + 64 * i) .r with
  | some pa => s.updChan (hbmChan pa) fun k => { k with openq := k.openq ++ [⟨pa, false, [], false, 64, .cmd c.id, i⟩] }
  | none => s.engineFault c.id 3

def State.scrubStart (s : State) (c : Cmd) : State :=
  if decide (s.now < (s.copyEng c).runEnd) || s.scrubBusy c then s.engineFault c.id 7
  else
    ((s.updCopy c fun e => { e with cmd := some c.id }).updCmd c.id fun d => { d with
      data := List.replicate (2 * c.scrub.len) 0, work := [0] }).scrubAsk c 0

/-- A bit of a byte list. -/
def setBit (l : List Byte) (i : Nat) : List Byte := l.modify (i / 8) fun b => b ||| BitVec.ofNat 8 (2 ^ (i % 8))

/-- The bitmaps are written at 64 bytes a cycle, from the next cycle on. -/
def State.scrubOut (s : State) (c : Cmd) : State :=
  let b := c.scrub
  let k := ceilDiv b.len 64
  let piece (j base off : Nat) : Span := ⟨s.now + 1 + j, base + off, Nat.min 64 (b.len - off), .w⟩
  let xs := (List.range k).map (fun j => piece j b.cmap (64 * j)) ++ (List.range k).map fun j => piece (k + j) b.umap (64 * j)
  let raises := xs.map fun x => (s.gaugeCycle c b.gauge x.t, x.n)
  let s1 := s.reserve c xs
  match s1.cmd c.id with
  | none => s1
  | some d =>
    if d.ended then s1
    else
      let us := raises.flatMap fun r => s1.gaugeUses c b.gauge r.1
      if !s.looseCmd c && s1.engMeets c.id us then s1.engineFault c.id 5
      else
        let s2 := if s.looseCmd c then s1 else s1.engHold c.id us
        let s3 := xs.zipIdx.foldl (fun t x =>
          let off := if x.2 < k then 64 * x.2 else b.len + 64 * (x.2 - k)
          let bs := (c.data.drop off).take x.1.n
          t.addWrite c.id x.1.t (s.spadPlace c x.1.a .w) bs (bs.map fun _ => false) none) s2
        let s4 := raises.foldl (fun t r => t.addGauge c b.gauge r.1 (.raise r.2)) s3
        s4.addStep c.id (raises.foldl (fun n r => Nat.max n r.1) (s.now + 2 * k)) stepAfter

/-- The ECC check of a scrub (R235, R237): a correctable error is corrected in place and counted; an uncorrectable one leaves the poison
code, and is counted. -/
def State.scrubCheck (s : State) (pa : Nat) : State :=
  if s.errs.contains (pa, false) then
    { s.logError (hbmChan pa) 1 pa with errs := s.errs.filter fun e => e != (pa, false) }
  else if poisonAt s.poison pa || s.errs.contains (pa, true) then (s.logError (hbmChan pa) 2 pa).markBad pa
  else s

/-- Sector i has been read through the open share: bit i of CMAP is set for a corrected error, of UMAP for an uncorrectable one. -/
def State.scrubSector (s : State) (c : Cmd) (i pa : Nat) : State :=
  let b := c.scrub
  let d := if s.errs.contains (pa, false) then setBit c.data i
    else if poisonAt s.poison pa || s.errs.contains (pa, true) then setBit c.data (8 * b.len + i) else c.data
  let c1 := { c with data := d }
  let s1 := (s.scrubCheck pa).updCmd c.id fun x => { x with data := d }
  if i + 1 < b.n then s1.scrubAsk c1 (i + 1) else s1.scrubOut c1

end Sys2Proof.Machine
end

