-- ==== Sys2Proof/Machine/Six.lean ====
section
/-! DEFINITION. Sys2Proof/Machine/Six.lean: the sparse-index engine and its offset queue (R258 to R260, R407). -/

namespace Sys2Proof.Machine
open Config

def execSixrun (h : HRd) (rate : Fin 4) (rle : Bool) (s : State) : Out State := s.engine h .six 0 0x12 (.sixrun h rate rle) false

structure SixB where
  at_ : Nat
  count : Nat
  rate : Nat
  rle : Bool
  deriving DecidableEq, Repr

def Cmd.six (c : Cmd) : SixB :=
  match c.instr with
  | .sixrun _ r l => ⟨c.num 16 4, c.num 20 4, 2 ^ r.val, l⟩
  | _ => ⟨0, 0, 1, false⟩

/-- The granules known when the block is read. -/
def SixB.known (b : SixB) : Nat := if b.rle then 1 else ceilDiv b.count 128

/-- The offsets of a bitmap of n elements, as far as its bytes reach. -/
def bitmapOffs (n : Nat) (bs : List Byte) : List Nat :=
  (List.range (Nat.min n (8 * bs.length))).filter fun i => (bs.getD (i / 8) 0).getLsbD (i % 8)

/-- What run-length words have given so far: the offsets, the elements covered, and whether a word overran. -/
structure RunOut where
  offs : List Nat
  pos : Nat
  bad : Bool
  deriving DecidableEq, Repr

def runOffs (count : Nat) : List Byte → RunOut → RunOut
  | b0 :: b1 :: l, r =>
    if r.bad || r.pos == count then r
    else
      let p := r.pos + b1.toNat
      let e := p + b0.toNat
      if count < e then { r with bad := true }
      else runOffs count l ⟨r.offs ++ (List.range b0.toNat).map (p + ·), e, false⟩
  | _, r => r

/-- The offsets that the granules read so far give; whether all are known; whether a word is malformed. -/
structure SixOut where
  offs : List Nat
  all : Bool
  bad : Bool
  deriving DecidableEq, Repr

def SixB.out (b : SixB) (bs : List Byte) : SixOut :=
  if b.rle then
    let r := runOffs b.count bs ⟨[], 0, false⟩
    let short := decide (16 * 64 ≤ bs.length) && r.pos != b.count
    ⟨r.offs, r.bad || r.pos == b.count || short, r.bad || short⟩
  else ⟨bitmapOffs b.count bs, decide (b.count ≤ 8 * bs.length), false⟩

def SixB.ok (b : SixB) (c : Cmd) : Bool :=
  b.at_ % 16 == 0 && decide (1 ≤ b.count) && decide (b.count ≤ 8192) && c.zero 24 40 && decide (b.at_ + 16 * b.known ≤ spadBytes)

def State.sixBlock (s : State) (c : Cmd) : State :=
  let b := c.six
  if b.ok c then s.reserve c ((List.range b.known).map fun g => ⟨c.start + g, b.at_ + 16 * g, 16, .r⟩) else s.engineFault c.id 3

/-- The metadata of a command, with the granules still unread as they stand now. -/
def State.sixAhead (s : State) (d : Cmd) : List Byte :=
  let b := d.six
  let all := if b.rle then 1024 else 16 * b.known
  d.data ++ (s.engBytes d (b.at_ + d.data.length) (Nat.min (all - d.data.length) (spadBytes - (b.at_ + d.data.length)))).1

/-- A command of the core's engine has still to push an offset (R259): its unread granules count as they stand now. DESIGN CHOICE (log 41): a START
in the very cycle of the last push still finds the engine busy. -/
def State.sixBusy (s : State) (c : Cmd) : Bool :=
  s.cmds.any fun d => d.core == c.core && d.cls == .six && d.id != c.id && d.st == .running
    && decide (d.work.headD 0 < (d.six.out (s.sixAhead d)).offs.length)

def State.sixRead (s : State) (c : Cmd) (t g : Nat) : State := s.addRead c.id t (firstLate + g) (s.spadPlace c (c.six.at_ + 16 * g) .r) 16

/-- The reads of the granules known at START are scheduled; that of granule 0 comes at once. -/
def State.sixStart (s : State) (c : Cmd) : State :=
  if s.sixBusy c then s.engineFault c.id 7
  else
    let s1 := (List.range c.six.known).foldl (fun t g => t.sixRead c (c.start + g) g) (s.updCmd c.id fun d => { d with data := [], work := [0] })
    { s1 with agenda := (s1.accesses.filter fun a => a.owner == .cmd c.id && a.t == s.now).map (fun a => plainEv (.accessPerform a.id)) ++ s1.agenda }

/-- Granule g is read. -/
def State.sixStep (s : State) (c : Cmd) (g : Nat) : State :=
  let b := c.six
  let bs := c.data ++ (s.engBytes c (b.at_ + 16 * g) 16).1
  let s1 := s.updCmd c.id fun d => { d with data := bs }
  if b.rle && !(b.out bs).all then
    let s2 := s1.reserve c [⟨s.now + 1, b.at_ + 16 * (g + 1), 16, .r⟩]
    match s2.cmd c.id with
    | some d => if d.ended then s2 else s2.sixRead c (s.now + 1) (g + 1)
    | none => s2
  else s1

/-- How many of the offsets from number n on can be pushed now, with `room` places in `Q0`. -/
def pushable (start rate now : Nat) : Nat → Nat → Nat → Nat
  | 0, _, _ => 0
  | _ + 1, _, 0 => 0
  | left + 1, n, room + 1 => if start + 4 + n / rate ≤ now then 1 + pushable start rate now left (n + 1) room else 0

/-- The running commands of a core's engine: one that has pushed its last offset may still have granules to read. -/
def State.sixCmds (s : State) (core : Nat) : List Cmd := s.cmds.filter fun c => c.core == core && c.cls == .six && c.st == .running

/-- A command pushes, or ends, in this cycle. -/
def State.sixReady (s : State) (c : Cmd) : Bool :=
  let o := c.six.out c.data
  let n := c.work.headD 0
  decide (c.start + 4 ≤ s.now) && (decide (0 < pushable c.start c.six.rate s.now (o.offs.length - n) n (256 - (s.core c.core).q0.length))
    || (o.all && n == o.offs.length))

def State.sixActs (s : State) (core : Nat) : Bool := (s.sixCmds core).any s.sixReady

/-- A command pushes what it can in this cycle, and ends with its last offset and granule. DESIGN CHOICE (log 41): an offset whose granule is read
later than the cycle that R259's formula gives its push is pushed in the cycle of the read. -/
def State.sixPush (s : State) (c : Cmd) : State :=
  let b := c.six
  let o := b.out c.data
  let n := c.work.headD 0
  let k := pushable c.start b.rate s.now (o.offs.length - n) n (256 - (s.core c.core).q0.length)
  let s1 := (s.updCore c.core fun x => { x with q0 := x.q0 ++ ((o.offs.drop n).take k).map (BitVec.ofNat 16) }).updCmd c.id fun d => { d with
    work := [n + k], doneBytes := 2 * (n + k) }
  if o.all && n + k == o.offs.length then (if o.bad then s1.engineFault c.id 0x0A else s1.endCmd c.id .done) else s1

/-- `SIXRUN_OFFSET_PUSH` (R259, R260). -/
def execSixrunOffsetPush (core : Nat) (s : State) : Out State :=
  if core < nCores then .next (((s.sixCmds core).filter fun c => decide (c.start + 4 ≤ s.now)).foldl State.sixPush s)
  else .fault .noSuchUnit

end Sys2Proof.Machine
end

