-- ==== Sys2Proof/Machine/EngineStep.lean ====
section
/-! DEFINITION. Sys2Proof/Machine/EngineStep.lean: the end of a block read, START, and the accesses that perform in a cycle (R103, R167,
R244, R245, R266, R326). -/

namespace Sys2Proof.Machine
open Config

/-! ### The block has been read -/

/-- The limits of a block that its engine checks when it is read, and the bank-cycles that become known then. -/
def State.classBlock (s : State) (c : Cmd) : State :=
  match c.cls with
  | .mesh => s.meshBlock c
  | .copy => (match c.instr with
    | .cpy _ _ _ => s.copyBlock c
    | .cpymc _ _ _ => s.mcBlock c
    | _ => s.scrubBlock c)
  | .six => s.sixBlock c
  | .coll => s.collBlock c
  | .cloys => s.remBlock c
  | .nm => s.nmBlock c
  | .pkg => s.pkgBlock c

/-- The cycle of START: `TCLK` cycle START of the sequencer. -/
def State.startCycle (s : State) (c : Cmd) : Nat := (s.seq c.core c.q).tbase + c.startField

/-- The last granule of a block has been read (R103, R245, R322). In loose mode a START that has passed begins at once (R326). -/
def State.blockDone (s : State) (c : Cmd) : State :=
  match c.q with
  | .secondary => if c.blkPoi.any id then s.engineFault c.id 3 else s.classBlock c
  | .primary =>
    let t := s.startCycle c
    let c1 := { c with start := t }
    let s1 := s.updCmd c.id fun d => { d with start := t }
    if c.blkPoi.any id || !gaugeOk c.gaddr || (!s.looseCmd c && decide (t < c.issued + 5)) then s1.engineFault c.id 3
    else s1.classBlock c1

/-- Granule j of a block is read. -/
def State.blockRead (s : State) (c : Cmd) (a : Access) (j : Nat) : State :=
  let pa := s.placePa a.place 16 false
  let c1 := { c with blk := c.blk ++ s.bytes pa 16, blkPoi := c.blkPoi ++ s.poisons pa 16 }
  let s1 := s.updCmd c.id fun _ => c1
  if j = 3 then s1.blockDone c1 else s1

/-! ### START (R245) -/

def State.classStart (s : State) (c : Cmd) : State :=
  match c.cls with
  | .mesh => s.meshStart c
  | .copy => (match c.instr with
    | .cpy _ _ _ => s.copyStart c
    | .cpymc _ _ _ => s.mcStart c
    | _ => s.scrubStart c)
  | .six => s.sixStart c
  | .coll => s.collStart c
  | .cloys => s.remStart c
  | .nm => s.nmStart c
  | .pkg => s.pkgStart c

/-- No mesh command that the core issued earlier still waits: they take effect in bundle order (R185). -/
def State.meshTurn (s : State) (c : Cmd) : Bool :=
  !(s.cmds.any fun d => d.core == c.core && d.cls == .mesh && !d.ended && d.st == .waiting && decide (d.id < c.id))

/-- The unit of a command is free: a command of loose mode waits for it (R326). -/
def State.unitFree (s : State) (c : Cmd) : Bool :=
  let k := s.mesh c.core
  let free := !k.live.busy (s.meshUse c k.gang) s.now && s.meshTurn c
  match c.instr with
  | .arrpass _ _ _ _ =>
    let b := c.pass
    free && (!b.swapA || decide (k.live.readyA ≤ s.now)) && (!b.swapS || decide (k.live.readyS ≤ s.now))
  | .arrgang _ | .arrld _ | .arrscl _ | .arrsave _ | .arrrest _ | .arrsweep _ _ => free
  | .cpy _ _ _ | .cpymc _ _ _ | .scrub _ _ => s.copyIdle c
  | .sixrun _ _ _ => !s.sixBusy c
  | .publish _ => c.pubReady
  | _ => true

/-- A command of loose mode may begin: its START has come, its gauge has reached its generation, and its unit is free (R326). -/
def State.looseReady (s : State) (c : Cmd) : Bool :=
  decide (c.start ≤ s.now) && decide (c.issued + 5 ≤ s.now) && s.headCode c != 1 && s.unitFree c

/-- The commands of a gang that go in step with a command, which is among them. -/
def State.inStep (s : State) (c : Cmd) : List Cmd :=
  match c.instr with
  | .arrgang _ => s.gangCmds c (s.gangScope c)
  | .arrpass _ _ _ _ => s.gangCmds c (s.mesh c.core).gang
  | _ => []

/-- A command begins in this cycle. In loose mode the commands of a gang begin together, when each of them may (DESIGN CHOICE, log 40). A
START in the very cycle in which a forced pre-emption has landed waits for resumption (DESIGN CHOICE, log 40). -/
def State.begins (s : State) (c : Cmd) : Bool :=
  c.st == .waiting && !c.ended && c.blk.length == 64 && (match c.q with
    | .secondary => (s.copyEng c).openq.head? == some c.id && s.copyIdle c
    | .primary =>
      if s.looseCmd c then s.looseReady c && (s.inStep c).all fun d => d.st != .waiting || s.looseReady d
      else c.start == s.now && (match c.mooring with
        | some m => (s.moor m).frozen.isNone
        | none => true))

/-- `ENGINE_START`. -/
def execEngineStart (id : Nat) (s : State) : Out State :=
  match s.cmd id with
  | none => .fault .noSuchUnit
  | some c =>
    if s.begins c then
      match c.q with
      | .secondary => .next (s.openStart c)
      | .primary =>
        let k := s.headCode c
        if k ≠ 0 then .next (s.engineFault id k)
        else
          let c1 := { c with st := .running, start := s.now }
          let s1 := s.updCmd id fun _ => c1
          let s2 := if s.looseCmd c && c.cls == .mesh then s1.updMesh c.core fun m => { m with
            live := m.live.occupy (s.meshUse c m.gang) s.now c.instr } else s1
          .next (s2.classStart c1)
    else .next s

/-! ### Steps -/

/-- The last access of a command has performed. -/
def State.lastStep (s : State) (c : Cmd) : State :=
  let s1 := s.endCmd c.id .done
  match c.instr with
  | .scrub _ _ => s1.updCopy c fun e => { e with cmd := none }
  | _ => s1

/-- A numbered step of a command. -/
def State.classStep (s : State) (c : Cmd) (a : Access) (k n : Nat) : State :=
  if k < 4 ∧ a.write = false then s.blockRead c a k
  else match c.cls with
    | .mesh => s.meshStep c k
    | .copy => if k = stepAfter then s.lastStep c else if k = stepPack then s.packOut c (c.q == .secondary) else if a.write then s.copyWrite c a (k - firstLate) n else s.copyRead c a (k - firstLate) n
    | .six => s.sixStep c (k - firstLate)
    | .coll => s.collStep c a k n
    | .cloys => if k = stepAfter then s.lastStep c else s.remRead c a (k - firstLate) n
    | .nm => s
    | .pkg => s.pkgStep c k

/-- What a command has still to do moves on by a cycle. -/
def State.putOff (s : State) (c : Cmd) : State :=
  let s1 := (s.updCmd c.id fun d => { d with start := d.start + 1, budgetEnd := if d.budgetEnd = 0 then 0 else d.budgetEnd + 1 })
  let s2 := if c.cls = .mesh then s1.updMesh c.core fun k => { k with
      live := { k.live with dataEnd := k.live.dataEnd + 1, loadEnd := k.live.loadEnd + 1 } } else s1
  { s2 with accesses := s2.accesses.map fun a => if a.owner = .cmd c.id ∧ s.now ≤ a.t then { a with t := a.t + 1 } else a }

/-- An engine of a task in loose mode gives way for a cycle (R326), and the commands of its gang with it. -/
def State.giveWay (s : State) (c : Cmd) : State :=
  let l := s.inStep c
  if l.any fun d => d.id == c.id then l.foldl State.putOff s else s.putOff c

/-- An engine's write: to the dark copy, with its plane bytes. -/
def State.engStore (s : State) (c : Cmd) (a : Access) (bs : List Byte) (ps : List Bool) (plane : Option (Place × List Byte)) : State :=
  if s.frozenRange (s.placePa a.place bs.length true) bs.length then s.engineFault c.id 0x0D
  else
    let s1 := (s.engWrite a.place bs ps).tally c.id bs.length 0
    match plane with
    | some (p, l) => s1.engWrite p l (l.map fun _ => false)
    | none => s1

/-- An access is one of those that read a command's block. -/
def Access.isBlock (a : Access) : Bool :=
  !a.write && (match a.kind with
    | .eng k _ => decide (k < 4)
    | _ => false)

/-- An access of an engine moves to the next cycle: an engine access in loose mode whose bank is held (R326), and a block read of the
secondary stream whose bank is held or used by another of its accesses (R42, R346). The block reads of a primary hold their bank-cycles from
issue. -/
def State.engWaits (s : State) (a : Access) (c : Cmd) : Bool :=
  let us := s.accessUses a s.now
  if a.isBlock then c.q == .secondary && us.any fun u => s.holds.any fun h => h.hits u
  else s.looseCmd c && !a.wait && s.engMeets c.id us

/-- An access of an engine performs. -/
def State.engPerform (s : State) (a : Access) (c : Cmd) : State :=
  if s.engWaits a c then s.giveWay c
  else
    let s0 := if a.isBlock && c.q == .secondary then s.addHold (.sec a.id) (s.accessUses a s.now) else s
    let s1 := s0.dropAccess a.id
    if c.ended then s1
    else match a.kind with
      | .eng k n => s1.classStep c a k n
      | .store bs ps plane => s1.engStore c a bs ps plane
      | _ => (s.performOne a)

/-- The access reads memory. -/
def AKind.looks (k : AKind) (write : Bool) : Bool :=
  match k with
  | .load _ _ _ _ | .vload _ _ _ _ | .atom _ _ _ _ | .ebbld | .ebbRead _ _ | .hostRead _ => true
  | .eng _ n => !write && n != 0
  | _ => false

/-- The ECC check of an access that reads SRAM (R323). -/
def State.eccAccess (s : State) (a : Access) : State :=
  let n := a.kind.size
  let pa := s.placePa a.place n false
  if a.kind.looks a.write && (resOf pa).isSome then s.eccRead pa n else s

/-- `ACCESS_PERFORM`. -/
def execAccessPerform (id : Nat) (s : State) : Out State :=
  match s.findAccess id with
  | none => .next s
  | some a =>
    match a.owner with
    | .cmd k => (match s.cmd k with
      | some c => if a.t = s.now ∧ a.wait = false then .next ((s.eccAccess a).engPerform a c) else .next s
      | none => .next (s.dropAccess id))
    | _ => if s.performs a then .next (((s.eccAccess a).useSec a).performOne a) else .next s

/-! ### Open service (R203) -/

/-- The core that an access comes from. DESIGN CHOICE (log 39): a request of a copy engine takes the place of the core that issued its
command among the requests of one cycle, which R203 orders by core number. -/
def State.askCore (s : State) (a : Access) : Nat :=
  match a.owner with
  | .seq c _ => c
  | .cmd k => (match s.cmd k with
    | some c => c.core
    | none => 0)
  | _ => 0

/-- An open request that comes before another: by its cycle at the crossbar, then by core, then by issue. -/
def State.firstOf (s : State) (a b : Access) : Bool :=
  decide (a.t < b.t) || (a.t == b.t && (decide (s.askCore a < s.askCore b) || (s.askCore a == s.askCore b && decide (a.id < b.id))))

/-- An open request that its sequencer or engine makes now: one of a copy engine only while no timed command runs there, and a write only
after its reads (R253). -/
def State.asks (s : State) (a : Access) : Bool :=
  a.wait && decide (a.t ≤ s.now) && !s.stands a && (match a.owner with
    | .cmd k => (match s.cmd k with
      | some c => s.copyIdle c && s.openReady c a && !c.ended
      | none => false)
    | _ => true)

/-- A request may be served in this cycle, as far as it goes by itself: its banks are unreserved, no other open access has used them, and no
access of its stream to the same location is still to come before it (R203, R272). -/
def State.fits (s : State) (a : Access) : Bool :=
  s.asks a && !s.blocked a s.now
    && !((s.accessUses a s.now).any fun u => s.holds.any fun h => h.own.isSec && h.hits u && h.own != .sec a.link)
    && !(s.accesses.any fun b => b.owner == a.owner && decide (b.id < a.id) && (match a.owner with
      | .seq _ _ => s.sameBytes a b
      | _ => false))

/-- A list with a request put in its place among the earlier ones. -/
def State.inTurn (s : State) (a : Access) : List Access → List Access
  | [] => [a]
  | b :: l => if s.firstOf b a then b :: s.inTurn a l else a :: b :: l

/-- The requests that are served in this cycle: each that fits, in their order, in whose banks no earlier one is served (R203). -/
def State.servedNow (s : State) : List Access :=
  ((s.accesses.filter s.fits).foldr s.inTurn []).foldl (fun l a => if l.any (s.sameBank a) then l else l ++ [a]) []

/-- An open request is served in this cycle: its bank is unreserved and no earlier request takes it. -/
def State.served (s : State) (a : Access) : Bool := s.fits a && s.servedNow.any fun b => b.id == a.id

/-- Cycles from the service of an open access to the landing of its result (R203). -/
def openLat (a : Access) : Nat :=
  let base := spaceLd a.space - spaceReach a.space
  match a.kind with
  | .load _ _ _ more => base + more
  | .ebbld => base + 24
  | .ebbRead _ _ => base + 24
  | _ => base

/-- A served access sets the landing of its result: not before the cycles of R203 after its service, nor before its timed
landing. -/
def State.openDue (s : State) (a : Access) : State :=
  s.deliver a fun e =>
    match a.owner with
    | .seq _ .primary => { e with notBefore := s.now + openLat a }
    | _ => { e with due := Nat.max e.due (s.now + openLat a) }

/-- An open access of a copy engine to HBM becomes a request of the open share (R229). -/
def State.openAsk (s : State) (c : Cmd) (a : Access) (k n : Nat) : State :=
  let rel := k - firstLate
  let pa := s.placePa a.place n a.write
  let o := if a.write then (s.copyOut c rel n).1 else ([], [])
  (s.dropAccess a.id).updChan (hbmChan pa) fun x => { x with openq := x.openq ++ [⟨pa, a.write, o.1, o.2.any id, n, .cmd c.id, rel⟩] }

/-- An open access of a copy engine to SRAM is served. -/
def State.openServe (s : State) (c : Cmd) (a : Access) (n : Nat) : State :=
  let s1 := (s.eccAccess a).addHold (.sec a.link) (s.accessUses a s.now)
  let s2 := s1.engPerform a c
  let s3 : State := { s2 with accesses := s2.accesses.map fun (b : Access) =>
    if b.owner = a.owner ∧ b.write = true ∧ b.t ≤ s.now ∧ a.write = false then { b with t := s.now + 1 } else b }
  let s4 := if a.write then s3.raiseOpen c c.copyGauge n else s3
  match s4.cmd c.id with
  | some d => if d.ended then s4 else s4.openEnd d
  | none => s4

/-- A piece of a remote access to SRAM performs (R276). -/
def State.inServe (s : State) (p : Nat) (a : Access) : State :=
  let pa := s.accPa a
  let s1 := ((s.eccAccess a).addHold (.sec a.link) (s.accessUses a s.now)).dropAccess a.id
  match a.kind with
  | .store d ps _ => (s1.putBytes pa d ps).inDone p [] []
  | k => s1.inDone p (s1.bytes pa k.size) (s1.poisons pa k.size)

/-- A write that waited for its banks takes them in this cycle, and performs with the cycle's writes. -/
def State.takeTurn (s : State) (a : Access) : State :=
  { (s.addHold (.sec a.link) (s.accessUses a s.now)) with
    accesses := s.accesses.map fun b => if b.id = a.id then { b with t := s.now, wait := false } else b
    agenda := if s.phase = writePart then s.agenda ++ [⟨.plain, .accessPerform a.id⟩] else s.agenda }

/-- `OPEN_POOL_SERVICE`: an open access is served in the first cycle in which its bank is unreserved and no earlier request takes it (R203);
one of a copy engine only while no timed command runs there (R253). -/
def execOpenPoolService (id : Nat) (s : State) : Out State :=
  match s.findAccess id with
  | none => .next s
  | some a =>
    match a.owner with
    | .cmd k => (match s.cmd k with
      | some c =>
        if s.served a then
          (match a.kind with
            | .eng i n => .next (if hbmBase ≤ s.placePa a.place n a.write then s.openAsk c a i n else s.openServe c a n)
            | _ => .next (s.openServe c a 0))
        else .next s
      | none => .next (s.dropAccess id))
    | .remote p => if s.served a then .next (s.inServe p a) else .next s
    | .late _ => if s.served a then .next (s.takeTurn a) else .next s
    | _ => if s.served a then .next ((((s.eccAccess a).useSec a).openDue a).performOne a) else .next s

end Sys2Proof.Machine
end

