-- ==== Sys2Proof/Machine/Dram.lean ====
section
/-! DEFINITION. Sys2Proof/Machine/Dram.lean: command clocks and windows, share maps, the checker, and how a timeline moves from word to
word (R214 to R216, R219, R223, R226 to R228, R232, R234). -/

namespace Sys2Proof.Machine
open Config

/-! ### Clocks and windows (R214 to R216) -/

/-- The core cycle in which command clock x, counted from `CCNT` 0, begins. -/
def cyc (x : Nat) : Nat := (27 * x + 15) / 16
/-- The last clock that has begun by a cycle. -/
def clockOf (t : Nat) : Nat := 16 * t / 27
/-- The clock that begins in a cycle. -/
def clockAt (t : Nat) : Option Nat := if cyc (clockOf t) = t then some (clockOf t) else none

def house : Nat := 12
def openOwner : Nat := 13

/-- The owner code of window w of a frame. -/
def mapCode (m : Vector (BitVec 64) 3) (w : Nat) : Nat := bits (m.getD (w / 16) 0).toNat (4 * (w % 16)) 4
/-- A map gives or takes a mooring a window. -/
def mapMoves (old new : Vector (BitVec 64) 3) (m : Nat) : Bool :=
  (List.range nWindows).any fun w => mapCode old w != mapCode new w && (mapCode old w == m || mapCode new w == m)
/-- No task of a mooring that gains or loses a window runs (R215). -/
def State.mapFree (s : State) (old new : Vector (BitVec 64) 3) : Bool :=
  (List.range nMoorings).all fun m => !mapMoves old new m || (s.moor m).st == .idle
/-- A written map withholds the tasks of a mooring (R215). -/
def State.withheld (s : State) (m : Nat) : Bool :=
  s.channels.any fun k => match k.2.newMap with
    | some n => mapMoves k.2.map n m
    | none => false

/-- The owner of window w, counted from `CCNT` 0, under the map in force for it. -/
def State.windowOwner (s : State) (ch w : Nat) : Nat :=
  let k := s.chan ch
  mapCode (match k.newMap with
    | some n => if decide (s.now / frameCycles < w / nWindows) && s.mapFree k.map n then n else k.map
    | none => k.map) (w % nWindows)

/-- The windows of a frame with an owner. -/
def ownedIn (m : Vector (BitVec 64) 3) (o : Nat) : List Nat := (List.range nWindows).filter fun w => mapCode m w == o

/-- The n-th window of an owner from window w0 on. -/
def nthWindow (m : Vector (BitVec 64) 3) (o w0 n : Nat) : Nat :=
  let l := ownedIn m o
  let i := (l.filter fun w => decide (w < w0 % nWindows)).length + n
  (w0 / nWindows + i / l.length) * nWindows + l.getD (i % l.length) 0

/-- The command clock of an owner clock (R219). -/
def Channel.ownerClock (k : Channel) (o w0 t : Nat) : Nat := nthWindow k.map o w0 (t / windowClocks) * windowClocks + t % windowClocks

/-- The last clock of the first window from clock x on that must end quiet (R227). -/
def State.quietEnd (s : State) (ch x : Nat) : Option Nat :=
  let w := x / windowClocks
  ((List.range nWindows).find? fun i => s.windowOwner ch (w + i) != s.windowOwner ch (w + i + 1)).map fun i =>
    (w + i) * windowClocks + (windowClocks - 1)

/-- An interval that ends at a clock runs past the end of the window that must end quiet. -/
def State.runsPast (s : State) (ch x e : Nat) : Bool :=
  match s.quietEnd ch x with
  | some q => decide (q < e)
  | none => false

/-! ### Parameters and banks (R226) -/

def tRCD : Nat := 0
def tRP : Nat := 1
def tRAS : Nat := 2
def tRC : Nat := 3
def tRRDS : Nat := 4
def tRRDL : Nat := 5
def tFAW : Nat := 6
def tCCDS : Nat := 7
def tCCDL : Nat := 8
def tWR : Nat := 9
def tWTR : Nat := 10
def tRTP : Nat := 11
def tRFC : Nat := 12
def tRFCsb : Nat := 13
def tREFI : Nat := 14
/-- RULE of a parameter (R448). -/
def ruleOf (p : Nat) : Nat := p + 1
def ruleQuiet : Nat := 0x10
def ruleWord : Nat := 0x11
def ruleBus : Nat := 0x12
def ruleRepeat : Nat := 0x13
def ruleNmx : Nat := 0x14
def ruleBusy : Nat := 0x15
def ruleFrozen : Nat := 0x16
def ruleTake : Nat := 0x17
def ruleTaken : Nat := 0x18

def Channel.p (k : Channel) (i : Nat) : Nat := k.params.getD i 0
def Channel.pch (k : Channel) (pc : Nat) : Pc := k.pcs.getD pc Pc.init
def Channel.updPc (k : Channel) (pc : Nat) (f : Pc → Pc) : Channel := { k with pcs := k.pcs.setIfInBounds pc (f (k.pch pc)) }
def bankKey (pc b : Nat) : Nat := 16 * pc + b
def Channel.bank (k : Channel) (pc b : Nat) : Bank := sget Bank.init k.banks (bankKey pc b)
def Channel.updBank (k : Channel) (pc b : Nat) (f : Bank → Bank) : Channel :=
  { k with banks := sset Bank.init k.banks (bankKey pc b) (f (k.bank pc b)) }
/-- The bank group of a bank (R217). -/
def bankGroup (b : Nat) : Nat := b / 4

/-- A row stands open for the words of a timeline. -/
def Bank.isOpen (x : Bank) : Bool := x.row.isSome && x.closeAt.isNone
/-- The clock from which tRP runs. -/
def Bank.closed (x : Bank) : Option Nat := x.closeAt.or x.pre

/-- An interval of n clocks from an earlier command still runs at clock x. -/
def runs (c : Option Nat) (n x : Nat) : Bool :=
  match c with
  | some t => decide (x < t + n)
  | none => false

/-- The first rule broken of a list. -/
def firstRule (l : List (Nat × Bool)) : Option Nat := (l.find? fun r => r.2).map (·.1)

/-- Rules on every command to a bank. -/
def Channel.anyRules (k : Channel) (pc b x : Nat) : List (Nat × Bool) :=
  [(ruleOf tRFC, runs (k.pch pc).ref (k.p tRFC) x), (ruleOf tRFCsb, runs (k.bank pc b).sb (k.p tRFCsb) x)]

/-- Rules on activates: tRRD and tFAW. -/
def Channel.activateRules (k : Channel) (pc b x : Nat) : List (Nat × Bool) :=
  let l := (k.pch pc).acts
  [(ruleOf tRRDS, l.any fun a => a.2 != bankGroup b && decide (x < a.1 + k.p tRRDS)),
    (ruleOf tRRDL, l.any fun a => a.2 == bankGroup b && decide (x < a.1 + k.p tRRDL)),
    (ruleOf tFAW, decide (4 ≤ (l.filter fun a => decide (x < a.1 + k.p tFAW)).length))]

/-- Rules on `ACT`. -/
def Channel.actRules (k : Channel) (pc b x : Nat) : List (Nat × Bool) :=
  let y := k.bank pc b
  [(ruleOf tRP, runs y.closed (k.p tRP) x), (ruleOf tRC, runs y.act (k.p tRC) x)] ++ k.activateRules pc b x ++ k.anyRules pc b x

/-- Rules on `PRE` of an open bank. -/
def Channel.preRules (k : Channel) (pc b x : Nat) : List (Nat × Bool) :=
  let y := k.bank pc b
  [(ruleOf tRAS, runs y.act (k.p tRAS) x), (ruleOf tWR, runs y.wrc (k.p tWR) x), (ruleOf tRTP, runs y.rdc (k.p tRTP) x)] ++ k.anyRules pc b x

/-- Rules on a column command. DESIGN CHOICE (log 18): tCCD counts within one pseudo-channel; R226 names bank groups only. -/
def Channel.colRules (k : Channel) (pc b x : Nat) (read : Bool) : List (Nat × Bool) :=
  let l := (k.pch pc).cols
  [(ruleOf tRCD, runs (k.bank pc b).act (k.p tRCD) x),
    (ruleOf tCCDS, l.any (fun a => a.2 != bankGroup b && decide (x < a.1 + k.p tCCDS)) || runs (k.pch pc).crd 6 x),
    (ruleOf tCCDL, l.any fun a => a.2 == bankGroup b && decide (x < a.1 + k.p tCCDL)),
    (ruleOf tWTR, read && runs (k.pch pc).wr (k.p tWTR) x)] ++ k.anyRules pc b x

/-- An activate of a bank at clock x is remembered for tRRD and tFAW. -/
def Channel.activated (k : Channel) (pc b x : Nat) : Channel :=
  k.updPc pc fun c => { c with acts := (c.acts.filter fun a => decide (x < a.1 + 64)) ++ [(x, bankGroup b)] }
/-- A column command, counted from clock x. -/
def Channel.columned (k : Channel) (pc b x : Nat) : Channel :=
  k.updPc pc fun c => { c with cols := (c.cols.filter fun a => decide (x < a.1 + 16)) ++ [(x, bankGroup b)] }

def maxOf (l : List Nat) : Nat := l.foldl Nat.max 0
def optEnd (c : Option Nat) (n : Nat) : Nat := match c with
  | some t => t + n
  | none => 0

/-- The clock by which every interval of R226 has ended, tREFI excepted (R227). -/
def Channel.ends (k : Channel) : Nat :=
  Nat.max
    (maxOf (k.banks.map fun e =>
      let y := e.2
      maxOf [optEnd y.act (maxOf [k.p tRCD, k.p tRAS, k.p tRC]), optEnd y.closed (k.p tRP), optEnd y.rdc (k.p tRTP), optEnd y.wrc (k.p tWR),
        optEnd y.sb (k.p tRFCsb)]))
    (maxOf (k.pcs.toList.map fun c =>
      maxOf [maxOf (c.acts.map fun a => a.1 + maxOf [k.p tRRDS, k.p tRRDL, k.p tFAW]), maxOf (c.cols.map fun a => a.1 + Nat.max (k.p tCCDS) (k.p tCCDL)),
        optEnd c.wr (k.p tWTR), optEnd c.crd 6, optEnd c.ref (k.p tRFC)]))

/-- The channel is quiet in clock x (R227). -/
def Channel.quietAt (k : Channel) (x : Nat) : Bool :=
  (k.banks.all fun e => e.2.row.isNone || (match e.2.closeAt with
    | some a => decide (a ≤ x)
    | none => false)) && decide (k.ends ≤ x)

/-! ### The disturb tracker (R232 to R234) -/

/-- One activate of a row; the second part says that a fifth directed refresh finds no place. DESIGN CHOICE (log 18): an entry whose count is 0,
since its row has just been queued, is dropped when every count is decremented; R232's count would become −1. -/
def Bank.track (y : Bank) (thr row : Nat) : Bank × Bool :=
  let l := if y.tracker.any fun e => e.1 == row then y.tracker.map fun e => if e.1 = row then (row, e.2 + 1) else e
    else if y.tracker.length < 8 then y.tracker ++ [(row, 1)]
    else (y.tracker.map fun e => (e.1, e.2 - 1)).filter fun e => e.2 != 0
  if l.any fun e => e.2 == thr then
    let hit := (l.filter fun e => e.2 == thr).map (·.1)
    ({ y with tracker := l.map fun e => if e.2 = thr then (e.1, 0) else e, dq := (y.dq ++ hit).take 4 }, decide (4 < y.dq.length + hit.length))
  else ({ y with tracker := l }, false)

/-- An activate of a row of a bank. A fifth directed refresh is the disturb backlog fault: from the next window on, every window runs as
a house window (R234). -/
def State.disturb (s : State) (ch pc b row x : Nat) : State :=
  let k := s.chan ch
  let r := (k.bank pc b).track k.thr row
  let s1 := s.setChan ch (k.updBank pc b fun _ => r.1)
  if r.2 && !k.backlog then
    (s1.logError ch 3 0).updChan ch fun c => { c with backlog := true, backlogFrom := x / windowClocks + 1 }
  else s1

/-! ### Timelines (R219, R222, R228) -/

def Channel.tl (k : Channel) (o : Nat) : Option Tl := k.tls.find? fun t => t.owner == o
def Channel.setTl (k : Channel) (t : Tl) : Channel := { k with tls := k.tls.map fun u => if u.owner = t.owner then t else u }
def Channel.dropTl (k : Channel) (o : Nat) : Channel := { k with tls := k.tls.filter fun u => u.owner != o }
/-- Word i of a mooring's range in the store (R218); none beyond LIMIT. -/
def Channel.word (k : Channel) (m i : Nat) : Option Nat :=
  let r := (k.tlstore.getD m 0).toNat
  if i < bits r 16 16 then some (sget 0 k.store (bits r 0 16 + i)).toNat else none

/-- `XINFO` of a timeline fault or a channel fault (R448). -/
def chanInfo (code ch word rule : Nat) : Word := BitVec.ofNat 64 (code + ch * 2 ^ 8 + word % 2 ^ 16 * 2 ^ 16 + rule * 2 ^ 32)
def noWord : Nat := 0xFFFF

/-- The rules allow the `PRE` of an open bank now. -/
def Channel.canPre (k : Channel) (pc b x : Nat) : Bool := (firstRule (k.preRules pc b x)).isNone && k.rowClk != some x

/-- Banks that the controller is to close after a fault (R228). -/
def Channel.cleanups (k : Channel) : List (Nat × Nat) :=
  (k.banks.filter fun e => e.2.cleanup && e.2.isOpen).map fun e => (e.1 / 16, e.1 % 16)

/-- The timeline of an owner stops; the controller is to close the banks that it left open. -/
def Channel.stop (k : Channel) (o : Nat) : Channel :=
  { k.dropTl o with banks := k.banks.map fun e => if e.2.actOwner = o ∧ e.2.isOpen then (e.1, { e.2 with cleanup := true }) else e }

/-- A bank that may be closed at once is. -/
def State.cleanNow (s : State) (ch : Nat) : State :=
  let k := s.chan ch
  match k.cleanups.find? fun b => k.canPre b.1 b.2 (clockOf s.now) with
  | some b => { s with agenda := s.agenda ++ [⟨.plain, .cleanupPrecharge ch b.1 b.2⟩] }
  | none => s

/-- A fault of a mooring's task that no core raises, as long as the task is there, also where it stands still. -/
def State.moorFault (s : State) (m : Nat) (xinfo : Word) : State :=
  if (s.moor m).st = .idle then s else s.taskFault m xinfo

/-- Stops the timeline of a mooring on a channel. Where the window is its own, a cleanup begins (R228). -/
def State.stopTl (s : State) (ch m : Nat) : State :=
  let own := s.windowOwner ch (clockOf s.now / windowClocks) == m
  (s.updChan ch fun k => { k.stop m with houseNow := k.houseNow || own }).cleanNow ch

/-- A timeline fault (R228). -/
def State.tlFault (s : State) (ch m word rule : Nat) : State := (s.stopTl ch m).moorFault m (chanInfo 0x10 ch word rule)

/-- A breach by the house timeline: a channel fault (R228). -/
def State.chanFault (s : State) (ch rule : Nat) : State :=
  let ms := (s.chan ch).tls.map (·.owner)
  ms.foldl (fun t m => (t.stopTl ch m).moorFault m (chanInfo 0x11 ch noWord rule)) (s.logError ch 4 0)

/-- A breach at a word: of a mooring's timeline, or of the house's. -/
def State.breach (s : State) (ch o word rule : Nat) : State := if o = house then s.chanFault ch rule else s.tlFault ch o word rule

/-- The word at which a timeline stands runs now; one that no code names is a fault (R222). -/
def State.tlPush (s : State) (ch : Nat) (t : Tl) : State :=
  match ((s.chan ch).word t.owner t.pos).bind decodeTimeline with
  | some i => { s with agenda := ⟨.tl ch t.owner, i⟩ :: s.agenda }
  | none => s.tlFault ch t.owner t.pos ruleWord

/-- DELAY of the word at which a timeline stands. -/
def Channel.delayAt (k : Channel) (m i : Nat) : Nat := ((k.word m i).map fun w => bits w 48 10).getD 0

/-- A timeline goes on to the word at `pos`, counted from owner clock `oclk`. -/
def State.tlSeek (s : State) (ch : Nat) (t : Tl) : State :=
  let k := s.chan ch
  let o := t.oclk + k.delayAt t.owner t.pos
  let x := k.ownerClock t.owner t.w0 o
  let u := { t with oclk := o, due := x }
  let s1 := s.setChan ch (k.setTl u)
  if x = clockOf s.now then s1.tlPush ch u else s1

/-- After a word, the timeline goes on to the next one. -/
def State.tlNext (s : State) (ch : Nat) (t : Tl) : State := s.tlSeek ch { t with pos := t.pos + 1 }

/-- What a word runs as: its channel, its owner, the timeline (none for the house), the clock. -/
structure TlAt where
  ch : Nat
  own : Nat
  tl : Option Tl
  x : Nat
  deriving DecidableEq, Repr

def TlAt.word (c : TlAt) : Nat := (c.tl.map (·.pos)).getD noWord
def State.tlBreach (s : State) (c : TlAt) (rule : Nat) : State := s.breach c.ch c.own c.word rule
/-- The word has performed. -/
def State.tlDone (s : State) (c : TlAt) : State :=
  match c.tl with
  | some t => (match (s.chan c.ch).tl t.owner with
    | some u => s.tlNext c.ch u
    | none => s)
  | none => s

/-- Runs a word in the context of its timeline. -/
def State.tlWord (s : State) (f : TlAt → State) : Out State :=
  match s.ev with
  | .tl ch o =>
    if o = house then .next (f ⟨ch, o, none, clockOf s.now⟩)
    else match (s.chan ch).tl o with
      | some t => .next (f ⟨ch, o, some t, clockOf s.now⟩)
      | none => .next s
  | _ => .fault .noSuchUnit

/-- Checks a performing word, and lets it act: no `NMX` still runs, the rules hold, and its intervals end in time. -/
def State.perform (s : State) (c : TlAt) (rules : List (Nat × Bool)) (ends : Nat) (act : State → State) : State :=
  match firstRule ((ruleNmx, match c.tl with
      | some t => decide (c.x < t.nmxEnd)
      | none => false) :: rules ++ [(ruleQuiet, s.runsPast c.ch c.x ends)]) with
  | some r => s.tlBreach c r
  | none => (act s).tlDone c

/-- Only the house timeline may refresh and scrub, and it may not run `NMX` (R222). -/
def TlAt.isHouse (c : TlAt) : Bool := c.own == house
/-- A second row command in one clock. The house runs both pseudo-channels in one clock (R231). -/
def State.rowBusy (s : State) (c : TlAt) : Bool := !c.isHouse && (s.chan c.ch).rowClk == some c.x

/-- The sums of the open repeats' terms (R223). -/
def TlAt.rowOff (c : TlAt) : Int := (c.tl.map fun t => t.reps.foldl (fun n r => n + r.dr) 0).getD 0
def TlAt.colOff (c : TlAt) : Int := (c.tl.map fun t => t.reps.foldl (fun n r => n + r.dc) 0).getD 0
def TlAt.landOff (c : TlAt) : Int := (c.tl.map fun t => t.reps.foldl (fun n r => n + r.dl) 0).getD 0

/-- A field of n values with the repeats' terms added. -/
def inField (v : Int) (n : Nat) : Option Nat := if 0 ≤ v ∧ v < n then some v.toNat else none

/-- The landing unit of a LAND field (R225): its key, and whether it lies on the I/O die. -/
def landUnit (ch buf off : Nat) : Option (Nat × Bool) :=
  if buf < 32 then (if off < 1024 then some (bufKey (copyUnit (ch / 64 * 16 + buf / 2) (buf % 2)) off, false) else none)
  else if buf / 4 = 8 then some (bufKey (collUnit (buf % 4)) off, true)
  else if buf / 16 = 4 then some (bufKey (planeUnit (buf % 16)) off, true)
  else none

/-- The first row that a mooring has on a channel, as an absolute row. -/
def State.tlRow (s : State) (c : TlAt) (row : BitVec 18) : Except Nat Nat :=
  let k := s.chan c.ch
  match inField ((row.toNat : Int) + c.rowOff) (2 ^ 18) with
  | none => .error ruleRepeat
  | some r => if r < k.rcount c.own then .ok (k.rbase c.own + r) else .error ruleWord

end Sys2Proof.Machine
end

