-- ==== Sys2Proof/Machine/Channel.lean ====
section
/-! DEFINITION. Sys2Proof/Machine/Channel.lean: the words of timelines, refresh and scrub slots, landings, the open share, and what ends
a window or a frame (R212 to R216, R222 to R240). -/

namespace Sys2Proof.Machine
open Config

/-! ### Row commands (R222, R226) -/

/-- `ACT`. -/
def execAct (f : TlBank) (row : BitVec 18) (s : State) : Out State :=
  s.tlWord fun c =>
    let k := s.chan c.ch
    let pc := f.pc.toNat
    let b := f.bank.toNat
    match s.tlRow c row with
    | .error r => s.tlBreach c r
    | .ok r =>
      s.perform c ([(ruleWord, (k.bank pc b).isOpen), (ruleBus, s.rowBusy c)] ++ k.actRules pc b c.x)
        (c.x + maxOf [k.p tRCD, k.p tRAS, k.p tRC, k.p tRRDS, k.p tRRDL, k.p tFAW]) fun t =>
          (t.updChan c.ch fun k =>
            { (k.updBank pc b fun y => { y with
                row := some r, closeAt := none, cleanup := false, act := some c.x, actWord := c.word, actOwner := c.own }).activated pc b c.x with
              rowClk := some c.x }).disturb c.ch pc b r c.x

/-- Closes banks of a pseudo-channel at a clock. -/
def Channel.close (k : Channel) (pc x : Nat) (bs : List Nat) : Channel :=
  bs.foldl (fun k b => k.updBank pc b fun y => { y with row := none, closeAt := none, cleanup := false, pre := some x }) k

/-- `PRE` of some banks: those that are closed stay as they are. -/
def State.precharge (s : State) (c : TlAt) (pc : Nat) (bs : List Nat) : State :=
  let k := s.chan c.ch
  let opn := bs.filter fun b => (k.bank pc b).isOpen
  s.perform c ((ruleBus, s.rowBusy c) :: opn.flatMap (fun b => k.preRules pc b c.x) ++ bs.flatMap fun b => k.anyRules pc b c.x)
    (if opn.isEmpty then 0 else c.x + k.p tRP) fun t => t.updChan c.ch fun k => { k.close pc c.x opn with rowClk := some c.x }

def execPre (f : TlBank) (s : State) : Out State := s.tlWord fun c => s.precharge c f.pc.toNat [f.bank.toNat]
def execPrea (_delay : BitVec 10) (pc : BitVec 1) (s : State) : Out State := s.tlWord fun c => s.precharge c pc.toNat (List.range 16)

/-- The house's refresh of a bank comes no later than tREFI after the one before. -/
def Channel.lateRef (k : Channel) (pc b x : Nat) : Bool := decide ((k.bank pc b).refreshed + k.p tREFI < x)

/-- `REF`: every bank of the pseudo-channel is refreshed (R222). -/
def execRef (_delay : BitVec 10) (pc : BitVec 1) (s : State) : Out State :=
  s.tlWord fun c =>
    let k := s.chan c.ch
    let p := pc.toNat
    let bs := List.range 16
    let fresh (k : Channel) : Channel := bs.foldl (fun k b => k.updBank p b fun y => { y with refreshed := c.x }) k
    let s1 := if c.isHouse && bs.any fun b => k.lateRef p b c.x then s.updChan c.ch fresh else s
    s1.perform c ([(ruleWord, !c.isHouse), (ruleWord, bs.any fun b => (k.bank p b).isOpen), (ruleBus, s.rowBusy c)]
        ++ bs.flatMap (fun b => (ruleOf tRP, runs (k.bank p b).closed (k.p tRP) c.x) :: k.anyRules p b c.x)
        ++ [(ruleOf tREFI, bs.any fun b => k.lateRef p b c.x)])
      (c.x + k.p tRFC) fun t => t.updChan c.ch fun k => { (fresh k).updPc p (fun y => { y with ref := some c.x }) with rowClk := some c.x }

/-- A single-bank slot of the house: `REFSB`, `RFM`, `SCRB`. It counts as an activate, and takes tRFCsb. -/
def State.slot (s : State) (c : TlAt) (f : TlBank) (more : List (Nat × Bool)) (act : State → State) : State :=
  let k := s.chan c.ch
  let pc := f.pc.toNat
  let b := f.bank.toNat
  s.perform c ([(ruleWord, !c.isHouse), (ruleWord, (k.bank pc b).isOpen), (ruleBus, s.rowBusy c)] ++ k.activateRules pc b c.x
      ++ k.anyRules pc b c.x ++ more)
    (c.x + maxOf [k.p tRFCsb, k.p tRRDS, k.p tRRDL, k.p tFAW]) fun t =>
      act (t.updChan c.ch fun k =>
        { (k.updBank pc b fun y => { y with sb := some c.x }).activated pc b c.x with rowClk := some c.x })

/-- `REFSB`. A bank whose refresh comes later than tREFI is refreshed all the same by the rebuilt house timeline (log 18). -/
def execRefsb (f : TlBank) (s : State) : Out State :=
  s.tlWord fun c =>
    let pc := f.pc.toNat
    let b := f.bank.toNat
    let late := (s.chan c.ch).lateRef pc b c.x
    let fresh (t : State) : State := t.updChan c.ch fun k => k.updBank pc b fun y => { y with refreshed := c.x }
    (if c.isHouse && late then fresh s else s).slot c f [(ruleOf tREFI, late)] fresh

/-- `RFM`: the oldest directed refresh of the bank's queue is done (R233). -/
def execRfm (f : TlBank) (s : State) : Out State :=
  s.tlWord fun c => s.slot c f [] fun t => t.updChan c.ch fun k => k.updBank f.pc.toNat f.bank.toNat fun y => { y with rfm := c.x, dq := y.dq.drop 1 }

/-- Clocks between two `SCRB` of a pseudo-channel (R236). -/
def scrubGap : Nat := 2048 * frameClocks
/-- Granules of a bank. -/
def bankGranules : Nat := 2 ^ 20
def Channel.scrubDue (k : Channel) (pc x : Nat) : Bool := !runs (k.pch pc).scrub scrubGap x

/-- `SCRB`: the granule under the bank's patrol pointer is checked, and the pointer advances (R235); one that comes sooner than R236 allows
does nothing. -/
def execScrb (f : TlBank) (s : State) : Out State :=
  s.tlWord fun c => s.slot c f [] fun t =>
    let pc := f.pc.toNat
    let b := f.bank.toNat
    let k := t.chan c.ch
    if k.scrubDue pc c.x then
      let n := (k.bank pc b).patrol
      let t1 := t.updChan c.ch fun k =>
        (k.updBank pc b fun y => { y with
          patrol := (n + 1) % bankGranules, passes := y.passes + (n + 1) / bankGranules }).updPc pc fun y => { y with scrub := some c.x }
      (t1.disturb c.ch pc b (n / 64) c.x).scrubCheck (hbmAddr c.ch pc b (n / 64) (n % 64))
    else t

/-! ### Column commands (R222, R225) -/

/-- Where a column command goes: the bank's physical granule, the landing unit and whether it is on the I/O die. -/
structure ColAt where
  pc : Nat
  b : Nat
  row : Nat
  pa : Nat
  key : Nat
  io : Bool
  deriving DecidableEq, Repr

/-- The fields of a column command, with the repeats' terms. -/
def State.colAt (s : State) (c : TlAt) (f : TlCol) : Except Nat ColAt :=
  match s.tlRow c f.row, inField ((f.col.toNat : Int) + c.colOff) 64, inField (((f.land.toNat % 2 ^ 11 : Nat) : Int) + c.landOff) (2 ^ 11) with
  | .error r, _, _ => .error r
  | .ok _, none, _ | .ok _, _, none => .error ruleRepeat
  | .ok r, some col, some off => match landUnit c.ch (f.land.toNat / 2 ^ 11) off with
    | none => .error ruleWord
    | some u => .ok ⟨f.pc.toNat, f.bank.toNat, r, hbmAddr c.ch f.pc.toNat f.bank.toNat r col, u.1, u.2⟩

/-- The last clock of a window that must end quiet in which a column command may stand (R227). -/
def lastColumn : Nat := 103

/-- Rules on a column command at its place. -/
def State.colOk (s : State) (c : TlAt) (u : ColAt) (read : Bool) : List (Nat × Bool) :=
  let k := s.chan c.ch
  let y := k.bank u.pc u.b
  [(ruleWord, !y.isOpen || y.row != some u.row), (ruleBus, k.colClk == some c.x)] ++ k.colRules u.pc u.b c.x read
    ++ [(ruleQuiet, decide (lastColumn < c.x % windowClocks) && s.quietEnd c.ch c.x == some (c.x / windowClocks * windowClocks + (windowClocks - 1)))]

/-- The automatic close of `RDA` or `WRA` (R226). -/
def Channel.autoClose (k : Channel) (u : ColAt) (e : Nat) : Nat := Nat.max e (optEnd (k.bank u.pc u.b).act (k.p tRAS))

/-- Clocks from a read to its landing, and from the take of a write's bytes to the write (R225). -/
def landClocks (io : Bool) : Nat := if io then 56 else 40
def takeClocks (io : Bool) : Nat := if io then 32 else 16

def granuleBits (bs : List Byte) : BitVec 512 := BitVec.ofNat 512 (leNat bs)

/-- Sends 64 bytes on their way to a landing unit. -/
def State.sendLanding (s : State) (ch t : Nat) (u : ColAt) (bs : List Byte) (poi : Bool) (err : Nat) : State :=
  { (s.updChan ch fun k => { k with landings := k.landings ++ [⟨s.nextId, t, u.key, bs, poi, u.pa, err⟩] }) with nextId := s.nextId + 1 }

/-- The kind of the error event of a read of a granule: 2 where it is uncorrectable or holds the poison code, 1 where it is corrected. -/
def State.readErr (s : State) (pa : Nat) : Nat :=
  if poisonAt s.poison pa || s.errs.contains (pa, true) then 2 else if s.errs.contains (pa, false) then 1 else 0

/-- `RD` and `RDA`. -/
def State.readWord (s : State) (c : TlAt) (f : TlCol) (auto : Bool) : State :=
  match s.colAt c f with
  | .error r => s.tlBreach c r
  | .ok u =>
    let k := s.chan c.ch
    let a := k.autoClose u (c.x + k.p tRTP)
    s.perform c (s.colOk c u true) (if auto then Nat.max (a + k.p tRP) (c.x + Nat.max (k.p tCCDS) (k.p tCCDL))
        else c.x + maxOf [k.p tCCDS, k.p tCCDL, k.p tRTP]) fun t =>
      let e := t.readErr u.pa
      (t.updChan c.ch fun k =>
        { ((k.updBank u.pc u.b fun y => { y with rdc := some c.x, closeAt := if auto then some a else none }).columned u.pc u.b c.x) with
          colClk := some c.x }).sendLanding c.ch (cyc (c.x + landClocks u.io)) u (t.bytes u.pa 64) (e == 2) e

def execRd (f : TlCol) (s : State) : Out State := s.tlWord fun c => s.readWord c f false
def execRda (f : TlCol) (s : State) : Out State := s.tlWord fun c => s.readWord c f true

/-- Sign-extended deltas of w bits, packed from the lowest bits up, added to a 16-bit base (R212). -/
def expandPacked (w base d : Nat) : List Byte :=
  (List.range 32).flatMap fun i => natBytes 2 ((BitVec.ofNat 16 base + (BitVec.ofNat w (bits d (w * i) w)).signExtend 16).toNat)

/-- The kind of the error event of a read of n bytes of HBM, and the granule that brings it (R225): 2 uncorrectable, 1 corrected, 0 none. -/
def State.readErrs (s : State) (pa n : Nat) : Nat × Nat :=
  let gs := if n = 0 then [] else (List.range ((pa + n - 1) / 64 - pa / 64 + 1)).map fun i => (pa / 64 + i) * 64
  match gs.find? (fun g => s.readErr g == 2), gs.find? (fun g => s.readErr g == 1) with
  | some g, _ => (2, g)
  | none, some g => (1, g)
  | none, none => (0, 0)
def State.badRead (s : State) (pa n : Nat) : Bool := s.anyPoison pa n || (s.readErrs pa n).1 == 2

/-- A logical sector of a compressed page: its bytes with its poison, and whether its descriptor is malformed (R212, R213). -/
def State.expandSector (s : State) (frame col : Nat) : List Byte × Bool × Bool :=
  let d := s.num (frame + 2 * col) 2
  let off := bits d 6 8
  let n := match bits d 14 2 with
    | 0 => 0
    | 1 => 64
    | 2 => 18
    | _ => 34
  let kind := bits d 14 2
  let at_ := frame + 16 * off
  let dirty := s.badRead (frame + 2 * col) 2 || s.badRead at_ n
  if bits d 0 6 ≠ 0 ∨ (kind = 0 ∧ off ≠ 0) ∨ (kind ≠ 0 ∧ (off < 8 ∨ 4096 < 16 * off + n)) then (natBytes 64 0, true, true)
  else if kind = 0 then (natBytes 64 0, s.badRead (frame + 2 * col) 2, false)
  else if kind = 1 then (s.bytes at_ 64, dirty, false)
  else (expandPacked (if kind = 2 then 4 else 8) (s.num at_ 2) (s.num (at_ + 2) (n - 2)), dirty, false)

/-- The error event of a `CRD`: of its descriptor, or of its sector. -/
def State.sectorErr (s : State) (frame col : Nat) : Nat × Nat :=
  let d := s.num (frame + 2 * col) 2
  let n := match bits d 14 2 with
    | 0 => 0
    | 1 => 64
    | 2 => 18
    | _ => 34
  let x := s.readErrs (frame + 2 * col) 2
  let y := s.readErrs (frame + 16 * bits d 6 8) n
  if y.1 ≤ x.1 then x else y

/-- `CRD`: logical sector COL of the open row, 8 clocks later than a read (R213, R225). A malformed descriptor ends the landing's stream:
the timeline's next `MARK` closes its gauge with status 2 (log 18). -/
def execCrd (f : TlCol) (s : State) : Out State :=
  s.tlWord fun c => match s.colAt c f with
    | .error r => s.tlBreach c r
    | .ok u =>
      let k := s.chan c.ch
      s.perform c (s.colOk c u true) (c.x + maxOf [6, 4 + k.p tCCDS, 4 + k.p tCCDL, k.p tRTP]) fun t =>
        let frame := u.pa / 4096 * 4096
        let x := t.expandSector frame (u.pa / 64 % 64)
        let t1 := t.updChan c.ch fun k =>
          { (((k.updBank u.pc u.b fun y => { y with rdc := some c.x }).columned u.pc u.b (c.x + 4)).updPc u.pc fun y => { y with crd := some c.x }) with
            colClk := some c.x
            tls := k.tls.map fun l => if l.owner = c.own ∧ x.2.2 = true then { l with bad := true } else l }
        let e := if x.2.2 then (0, u.pa) else t.sectorErr frame (u.pa / 64 % 64)
        t1.sendLanding c.ch (cyc (c.x + landClocks u.io + 8)) { u with pa := e.2 } x.1 x.2.1 e.1

/-- `WR` and `WRA`: the bytes that stood in the unit before the writes of the take cycle (R225). -/
def State.writeWord (s : State) (c : TlAt) (f : TlCol) (auto : Bool) : State :=
  match s.colAt c f with
  | .error r => s.tlBreach c r
  | .ok u =>
    let k := s.chan c.ch
    let a := k.autoClose u (c.x + k.p tWR)
    let n := takeClocks u.io
    let early := decide (c.x < n) || (match c.tl with
      | some l => decide (cyc (c.x - n) < l.started)
      | none => false)
    s.perform c ([(ruleTake, early), (ruleFrozen, s.frozenIn u.pa 64)] ++ s.colOk c u false)
        (maxOf [if auto then a + k.p tRP else c.x + k.p tWR, c.x + k.p tWTR, c.x + k.p tCCDS, c.x + k.p tCCDL]) fun t =>
      let v := t.bufAt u.key (cyc (c.x - n))
      (t.updChan c.ch fun k =>
        { (((k.updBank u.pc u.b fun y => { y with wrc := some c.x, closeAt := if auto then some a else none }).columned u.pc u.b c.x).updPc u.pc
            fun y => { y with wr := some c.x }) with
          colClk := some c.x }).putBytes u.pa (natBytes 64 v.1.toNat) (List.replicate 64 v.2)

def execWr (f : TlCol) (s : State) : Out State := s.tlWord fun c => s.writeWord c f false
def execWra (f : TlCol) (s : State) : Out State := s.tlWord fun c => s.writeWord c f true

/-! ### `NMX` (R240) -/

/-- Runs blocks back to back from clock x on while they fit before clock e: each with the cycle of its last clock. -/
def packBlocks (x e : Nat) : List NmBlk → List (Nat × Nat)
  | [] => []
  | b :: l => if x + b.clocks ≤ e then (b.cmd, cyc (x + b.clocks - 1)) :: packBlocks (x + b.clocks) e l else []

/-- The rows that a block's base and source ranges lie in: pseudo-channel, bank, row. -/
def Cmd.nmRows (c : Cmd) : List (Nat × Nat × Nat) :=
  let b := c.nm
  let pa := c.work.getD 1 0
  let q := c.work.getD 2 0
  let one (p n : Nat) : List (Nat × Nat × Nat) := ([p, p + n - 1].map fun a => (hbmPc a, hbmBank a, hbmRow a)).eraseDups
  (one pa b.bytes ++ (if b.hasSrc then one q (b.count * b.srcSize) else [])).eraseDups

/-- A block is to perform in a cycle: its gauge's bank-cycle is held from now on (R197), and the base die's activates count (R232). DESIGN
CHOICE (log 18): it activates each row of its ranges once, in the clock of the `NMX`; R232 gives no number and no clock. -/
def State.nmRun (s : State) (ch : Nat) (id t x : Nat) : State :=
  match s.cmd id with
  | none => s
  | some c =>
    let us := s.gaugeUses c c.nm.gauge (s.gaugeCycle c c.nm.gauge t)
    let s1 := s.updChan ch fun k => { k with nmq := k.nmq.map fun b => if b.cmd = id then { b with runAt := some t } else b }
    if !s.looseCmd c && s.engMeets id us then
      (s.updChan ch fun k => { k with nmq := k.nmq.filter fun b => b.cmd != id }).engineFault id 5
    else c.nmRows.foldl (fun u r => u.disturb ch r.1 r.2.1 r.2.2 x) (if s.looseCmd c then s1 else s1.engHold id us)

/-- `NMX`: the base die runs the queued blocks of its index that entered before this cycle. -/
def execNmx (_delay : BitVec 10) (len : BitVec 18) (index : BitVec 6) (s : State) : Out State :=
  s.tlWord fun c =>
    let k := s.chan c.ch
    let e := c.x + len.toNat
    s.perform c [(ruleWord, c.isHouse), (ruleNmx, !k.quietAt c.x || decide (windowClocks < c.x % windowClocks + len.toNat)),
        (ruleBus, s.rowBusy c)] 0 fun t =>
      let bs := (t.chan c.ch).nmq.filter fun b => b.mooring == c.own && b.index == index.toNat && decide (b.entered < t.now) && b.runAt.isNone
      let t1 := t.updChan c.ch fun k => { k with
        rowClk := some c.x, tls := k.tls.map fun l => if l.owner = c.own then { l with nmxEnd := e } else l }
      (packBlocks c.x e bs).foldl (fun u r => u.nmRun c.ch r.1 r.2 c.x) t1

/-! ### Pseudo-words, `MARK` and `END` (R222 to R224) -/

def execWaitc (_delay : BitVec 10) (count : BitVec 18) (s : State) : Out State :=
  s.tlWord fun c => match c.tl with
    | some t => s.tlNext c.ch { t with oclk := t.oclk + 1024 * count.toNat }
    | none => s

/-- `LOOP` and its stride word (R223). -/
def execTimelineLoop (_delay : BitVec 10) (count : BitVec 18) (s : State) : Out State :=
  s.tlWord fun c => match c.tl with
    | none => s
    | some t =>
      if 2 ≤ t.reps.length then s.tlBreach c ruleRepeat
      else match (s.chan c.ch).word t.owner (t.pos + 1) with
        | none => s.breach c.ch c.own (t.pos + 1) ruleWord
        | some w =>
          if bits w 0 29 ≠ 0 then s.breach c.ch c.own (t.pos + 1) ruleRepeat
          else
            let sx (n lo : Nat) : Int := (BitVec.ofNat n (bits w lo n)).toInt
            s.tlSeek c.ch { t with pos := t.pos + 2, reps := ⟨t.pos + 2, count.toNat, sx 18 46, sx 6 40, sx 11 29, 0, 0, 0⟩ :: t.reps }

def execEndl (_delay : BitVec 10) (s : State) : Out State :=
  s.tlWord fun c => match c.tl with
    | none => s
    | some t => match t.reps with
      | [] => s.tlBreach c ruleRepeat
      | r :: l =>
        if 1 < r.left then
          s.tlSeek c.ch { t with pos := r.body, reps := { r with left := r.left - 1, dr := r.dr + r.rs, dc := r.dc + r.cs, dl := r.dl + r.ls } :: l }
        else s.tlNext c.ch { t with reps := l }

/-- RULE of a `MARK` that meets a bank-cycle held: the list of R448 has none (log 18). -/
def ruleMark : Nat := 0

/-- `MARK`: its gauge is raised in core cycle C(K) + 2 (R224), whose bank-cycle `State.holdMarks` may hold already; after a malformed sector it is closed with status 2. -/
def execMark (_delay : BitVec 10) (n : BitVec 6) (core : BitVec 10) (pool : Bool) (gauge : BitVec 17) (s : State) : Out State :=
  s.tlWord fun c =>
    let off := 16 * gauge.toNat
    let va := if pool then poolBase + core.toNat / coresPerCluster * poolBytes + off else spadVa core.toNat off
    let p := Place.virt va (some c.own) va
    let t := s.now + 2
    let us := s.raiseUses p t
    let bad := (c.tl.map (·.bad)).getD false
    let mine (u : Use) (h : HoldRec) : Bool := h.own == .mark c.ch c.own c.word && h.known == s.now && h.touch == u.gran
    s.perform c [(ruleMark, us.any fun u => (s.meets u).any fun h => !mine u h)] 0 fun u =>
      { ((u.addHold (.mark c.ch c.own c.word) (us.filter fun x => !u.holds.any (mine x))).updChan c.ch fun k => { k with tls := k.tls.map fun l => if l.owner = c.own then { l with bad := false } else l }) with
        accesses := u.accesses ++ [⟨u.nextId, t, .late (some c.own), p, if bad then .close 2 else .raise (64 * (n.toNat + 1)), true, false, .own, 6, u.now,
          u.nextId⟩]
        nextId := u.nextId + 1 }

/-- `END`: the timeline has ended; a block that it leaves queued raises a timing fault (R240). -/
def execTimelineEnd (_delay : BitVec 10) (s : State) : Out State :=
  s.tlWord fun c => match c.tl with
    | none => s
    | some t =>
      if c.x < t.nmxEnd then s.tlBreach c ruleNmx
      else if t.reps ≠ [] then s.tlBreach c ruleRepeat
      else
        let left := (s.chan c.ch).nmq.filter fun b => b.mooring == c.own
        left.foldl (fun u b => u.engineFault b.cmd 0x0B)
          (s.updChan c.ch fun k => { k.dropTl c.own with nmq := k.nmq.filter fun b => b.mooring != c.own })

/-! ### Closes without a word (R226, R228) -/

/-- `AUTO_PRECHARGE`, in clock A. -/
def execAutoPrecharge (channel pc bank : Nat) (s : State) : Out State :=
  if channel < nChannels then
    match ((s.chan channel).bank pc bank).closeAt with
    | some a => if a ≤ clockOf s.now then .next (s.updChan channel fun k => k.close pc a [bank]) else .next s
    | none => .next s
  else .fault .noSuchUnit

/-- `CLEANUP_PRECHARGE`: in the first clock at which the rules allow it. -/
def execCleanupPrecharge (channel pc bank : Nat) (s : State) : Out State :=
  if channel < nChannels then
    let k := s.chan channel
    let x := clockOf s.now
    if (k.bank pc bank).cleanup && (k.bank pc bank).isOpen && k.canPre pc bank x then
      .next (s.updChan channel fun k => { k.close pc x [bank] with rowClk := some x })
    else .next s
  else .fault .noSuchUnit

/-! ### The ends of windows and frames (R214, R215, R227, R228, R232, R234) -/

/-- A window that the channel takes: its mooring takes a timeline fault if a timeline of it runs there. -/
def State.takeWindow (s : State) (ch o : Nat) : State := if ((s.chan ch).tl o).isSome then s.tlFault ch o noWord ruleTaken else s

/-- `WINDOW_END`, at the last clock of a window: a bank still open is blamed on its `ACT` (R227); a cleanup that is not quiet, and a disturb
backlog, take the next window. -/
def execWindowEnd (channel : Nat) (s : State) : Out State :=
  if channel < nChannels then
    let x := clockOf s.now
    let w := x / windowClocks
    let next := s.windowOwner channel (w + 1)
    let s1 := if s.windowOwner channel w = next then s else
      match (s.chan channel).banks.find? fun e => e.2.isOpen && !e.2.cleanup with
      | some e => s.breach channel e.2.actOwner e.2.actWord ruleQuiet
      | none => s
    let k := s1.chan channel
    let take := k.houseNow && !k.quietAt x
    let s2 := s1.updChan channel fun k => { k with houseNow := take }
    let s3 := if take then s2.takeWindow channel next else s2
    .next (if k.backlog && w + 1 == k.backlogFrom then (List.range nMoorings).foldl (fun t m => t.takeWindow channel m) s3 else s3)
  else .fault .noSuchUnit

/-- What a frame boundary does to a channel: a written map takes effect, trackers clear, and the map returns after a disturb backlog. -/
def State.frameOf (s : State) (k : Channel) : Channel :=
  let k1 := match k.newMap with
    | some n => if s.mapFree k.map n then { k with map := n, newMap := none } else k
    | none => k
  let k2 := if s.now / frameCycles % k1.refw = 0 then { k1 with banks := k1.banks.map fun e => (e.1, { e.2 with tracker := [] }) } else k1
  if k2.backlog && k2.banks.all fun e => e.2.dq.isEmpty then { k2 with backlog := false } else k2

/-- Frames of a pass period, 24 h (R236), and of the shortest pass over a pseudo-channel: 2^24 granules, 2,048 frames each. -/
def patrolFrames : Nat := 22500000000
def passFrames : Nat := 2 ^ 24 * 2048

/-- The pass period cannot be met: at its end, the Pilot reports each channel as *patrol short* (R236, R323; DESIGN CHOICE, log 18). -/
def State.patrolShort (s : State) : State :=
  let f := s.now / frameCycles
  if s.boot = .up ∧ f ≠ 0 ∧ f % patrolFrames = 0 ∧ patrolFrames < passFrames then (List.range nChannels).foldl (fun t c => t.logError c 5 0) s else s

/-- `FRAME_BOUNDARY`, on every channel. -/
def execFrameBoundary (s : State) : Out State :=
  .next (s.channels.foldl (fun t e => t.setChan e.1 (s.frameOf e.2)) s).patrolShort

/-! ### Landings (R225) -/

/-- `TIMELINE_LANDING`. -/
def execTimelineLanding (channel id : Nat) (s : State) : Out State :=
  if channel < nChannels then
    match (s.chan channel).landings.find? fun l => l.id == id with
    | none => .next s
    | some l =>
      if l.t = s.now then
        let s1 := (s.updChan channel fun k => { k with landings := k.landings.filter fun x => x.id != id }).bufPut l.key (granuleBits l.data) l.poi
        let s2 := { s1 with bufWhole := sset false s1.bufWhole l.key true }
        .next (if l.err = 0 then s2 else s2.logError channel l.err l.addr)
      else .next s
  else .fault .noSuchUnit

/-! ### The open share (R229, R237) -/

/-- A request that the open share serves now is read or written. -/
def State.grant (s : State) (r : OpenReq) : State :=
  let g := r.addr / 64 * 64
  let err := s.readErr g
  let s1 := if !r.write && err != 0 then s.logError (hbmChan g) err g else s
  let ps := List.replicate r.n (err == 2)
  match r.who with
  | .cmd id => (match s.cmd id with
    | none => s
    | some c =>
      if c.ended then s
      else if c.opc = 0x13 then s.scrubSector c r.tag r.addr
      else if r.write then
        (if s.frozenIn r.addr r.n then s.engineFault id 0x0D
        else
          let s2 := ((s.putBytes r.addr r.data (r.data.map fun _ => r.poi)).tally id r.n 0).raiseOpen c c.copyGauge r.n
          s2.openEnd c)
      else (s1.copyGot c r.tag (s.bytes r.addr r.n, ps)).openEnd c)
  | .remote p =>
    if r.write then (if s.frozenIn r.addr r.n then s else s.putBytes r.addr r.data (r.data.map fun _ => r.poi)).inDone p [] []
    else s1.inDone p (s.bytes r.addr r.n) ps
  | _ =>
    if r.write then (if s.frozenIn r.addr r.n then s else s.putBytes r.addr r.data (r.data.map fun _ => r.poi))
    else { s1 with hostData := s1.hostData ++ [(r.tag, s.bytes r.addr r.n)] }

/-- When a request is served whose `ACT` performs in clock x: the clocks of its column command and of its `PRE`, and the clock by which it is
quiet. -/
def Channel.openPlan (k : Channel) (r : OpenReq) (x : Nat) : Nat × Nat × Nat :=
  let p := k.pch (hbmPc r.addr)
  let ccd := Nat.max (k.p tCCDS) (k.p tCCDL)
  let col := maxOf [x + k.p tRCD, maxOf (p.cols.map fun a => a.1 + ccd), if r.write then 0 else optEnd p.wr (k.p tWTR), optEnd p.crd 6]
  let pre := Nat.max (x + k.p tRAS) (col + k.p (if r.write then tWR else tRTP))
  (col, pre, maxOf [pre + k.p tRP, x + maxOf [k.p tRC, k.p tRRDS, k.p tRRDL, k.p tFAW], col + ccd, if r.write then col + k.p tWTR else 0])

/-- The oldest request of a channel can be served from this clock on: the window is in the open share, the request before has been closed, the
rules allow its `ACT`, and it ends quietly within this window. -/
def State.openNow (s : State) (ch x : Nat) : Option OpenReq :=
  let k := s.chan ch
  match k.openq with
  | [] => none
  | r :: _ =>
    let o := k.openPlan r x
    let w := x / windowClocks
    if s.windowOwner ch w = openOwner ∧ !(k.backlog && decide (k.backlogFrom ≤ w)) ∧ (!k.houseNow || k.quietAt x) ∧ k.openEnd ≤ x
        ∧ firstRule ((ruleBus, k.rowClk == some x) :: k.actRules (hbmPc r.addr) (hbmBank r.addr) x) = none ∧ o.2.2 ≤ w * windowClocks + (windowClocks - 1)
        ∧ !(decide (lastColumn < o.1 % windowClocks) && s.runsPast ch o.1 (o.1 / windowClocks * windowClocks + windowClocks)) then some r
    else none

/-- `OPEN_SHARE_SERVICE`: the controller serves one request whole (log 18: its bytes move with its `ACT`). -/
def execOpenShareService (channel : Nat) (s : State) : Out State :=
  if channel < nChannels then
    let x := clockOf s.now
    match s.openNow channel x with
    | none => .next s
    | some r =>
      let pc := hbmPc r.addr
      let b := hbmBank r.addr
      let o := (s.chan channel).openPlan r x
      let s1 := s.updChan channel fun k =>
        { ((((k.updBank pc b fun y => { y with
              row := none, act := some x, pre := some o.2.1, rdc := if r.write then y.rdc else some o.1, wrc := if r.write then some o.1 else y.wrc
              actOwner := openOwner }).activated pc b x).columned pc b o.1).updPc pc fun y => { y with wr := if r.write then some o.1 else y.wr }) with
          openq := k.openq.drop 1, openEnd := o.2.1 + 1, rowClk := some x }
      .next ((s1.disturb channel pc b (hbmRow r.addr) x).grant r)
  else .fault .noSuchUnit

/-! ### What a channel does in a cycle -/

/-- The number of a window among the house windows, counted from `CCNT` 0. -/
def State.houseIndex (s : State) (ch w : Nat) : Nat :=
  let l := ownedIn (s.chan ch).map house
  w / nWindows * l.length + (l.filter fun v => decide (v < w % nWindows)).length

/-- Clocks between two slots of the house: six under the default parameters (R231). -/
def Channel.spacing (k : Channel) : Nat := maxOf [6, k.p tRRDL, k.p tRRDS, (k.p tFAW + 3) / 4]

/-- Adjacent house windows from window w on. -/
def State.houseRun (s : State) (ch w : Nat) : Nat := ((List.range nWindows).takeWhile fun i => s.windowOwner ch (w + i) == house).length

/-- The granules that a bank's patrol has checked since reset. -/
def Bank.patrolled (y : Bank) : Nat := y.passes * bankGranules + y.patrol
/-- No bank of a pseudo-channel lies further back in its patrol than this one. -/
def Channel.lastPatrol (k : Channel) (pc b : Nat) : Bool := (List.range 16).all fun c => decide ((k.bank pc b).patrolled ≤ (k.bank pc c).patrolled)

/-- Clocks within which every bank meets an `RFM` slot (R230). -/
def rfmGap : Nat := 5 * frameClocks

/-- The slot of a house timeline that the Pilot builds for another map or other parameters than the default ones (DESIGN CHOICE, log 18): of
what a pseudo-channel needs (each bank's refresh within tREFI, its `RFM` within five frames, a `SCRB` in the frame after it is due), that
which is needed first. -/
def Channel.builtSlot (k : Channel) (pc x : Nat) : List Instr :=
  let f (b : Nat) : TlBank := ⟨0, BitVec.ofNat 1 pc, BitVec.ofNat 4 b⟩
  let l := (List.range 16).filter fun b => !runs (k.bank pc b).sb (k.p tRFCsb) x
  let needs : List (Nat × Instr) := l.map (fun b => ((k.bank pc b).refreshed + k.p tREFI, .refsb (f b)))
    ++ l.map (fun b => ((k.bank pc b).rfm + rfmGap, .rfm (f b)))
    ++ if k.scrubDue pc x then (l.filter (k.lastPatrol pc)).map fun b => (optEnd (k.pch pc).scrub (scrubGap + frameClocks), .scrb (f b)) else []
  match needs.find? fun j => needs.all fun i => decide (j.1 ≤ i.1) with
  | some j => [j.2]
  | none => []

/-- The slot of the default house timeline: slot i of house window q of a frame, r the frame modulo 4 (R231). -/
def Channel.defaultSlot (k : Channel) (i q r pc x : Nat) : List Instr :=
  let f (b : Nat) : TlBank := ⟨0, BitVec.ofNat 1 pc, BitVec.ofNat 4 b⟩
  if i < 4 then [.refsb (f (4 * q + i))]
  else if i = 4 then [.rfm (f (4 * q + 4 + r))]
  else
    let b := (4 * q + 8 + r) % 16
    if k.scrubDue pc x && k.lastPatrol pc b then [.scrb (f b)] else []

/-- The house timeline (R230, R231, R234). In its own windows: the default one under the default map and parameters; else an all-bank `REF`
at the start of adjacent house windows that have room for it, and single-bank slots that end within the run of windows. After a disturb
backlog, directed refreshes in every other window. -/
def State.houseWords (s : State) (ch x : Nat) : List Instr :=
  let k := s.chan ch
  let w := x / windowClocks
  let p := x % windowClocks
  let d := k.spacing
  let i := p / d
  if p % d ≠ 0 ∨ (k.houseNow && !k.quietAt x) then []
  else if s.windowOwner ch w = house then
    if k.map = defaultMap ∧ k.params = defaultParams then
      (if i < 6 then (List.range 2).flatMap fun pc => k.defaultSlot i (s.houseIndex ch w % 4) (w / nWindows % 4) pc x else [])
    else
      let n := s.houseRun ch w
      let first := s.windowOwner ch (w - 1) != house
      if first && p == 0 && decide (1 < n) && decide (k.p tRFC < n * windowClocks) then (List.range 2).map fun pc => .ref 0 (BitVec.ofNat 1 pc)
      else if decide (p + maxOf [k.p tRFCsb, k.p tRRDS, k.p tRRDL, k.p tFAW] < n * windowClocks) && !runs (k.pch 0).ref (k.p tRFC) x then
        (List.range 2).flatMap fun pc => k.builtSlot pc x
      else []
  else if k.backlog && decide (k.backlogFrom ≤ w) && decide (i < 6) && decide (i * d + k.p tRFCsb < windowClocks) then
    (List.range 2).flatMap fun pc =>
      match (List.range 16).find? fun b => !(k.bank pc b).dq.isEmpty && !runs (k.bank pc b).sb (k.p tRFCsb) x with
      | some b => [.rfm ⟨0, BitVec.ofNat 1 pc, BitVec.ofNat 4 b⟩]
      | none => []
  else []

/-- The events of the channels in the clock that begins in this cycle, before its timeline words. -/
def State.planCloses (s : State) (x : Nat) : List Ev :=
  s.channels.flatMap fun e =>
    ((e.2.banks.filter fun b => match b.2.closeAt with
        | some a => decide (a ≤ x)
        | none => false).map fun b => ⟨.plain, .autoPrecharge e.1 (b.1 / 16) (b.1 % 16)⟩)
      ++ (match e.2.cleanups.find? fun b => e.2.canPre b.1 b.2 x with
        | some b => [⟨.plain, .cleanupPrecharge e.1 b.1 b.2⟩]
        | none => [])

/-- The house's slots of this clock. -/
def State.planHouse (s : State) (x : Nat) : List Ev :=
  if s.boot = .up then (List.range nChannels).flatMap fun ch => (s.houseWords ch x).map fun i => ⟨.tl ch house, i⟩ else []

/-- The channels that serve an open request in this clock. -/
def State.planShare (s : State) (x : Nat) : List Ev :=
  (s.channels.filter fun e => (s.openNow e.1 x).isSome).map fun e => ⟨.plain, .openShareService e.1⟩

/-- A mooring's timelines are held: its task is pre-empted (R57); in loose mode they run on (R326). -/
def State.held (s : State) (m : Nat) : Bool := (s.moor m).frozen.isSome && !(s.moor m).loose

/-- The words of timelines whose clock begins in this cycle. -/
def State.enterTimelines (s : State) : State :=
  match clockAt s.now with
  | none => s
  | some x => s.channels.foldl (fun t e => (e.2.tls.filter fun l => !s.held l.owner).foldl (fun u l => if l.due = x then u.tlPush e.1 l else u) t) s

/-- The channels' part of a cycle's reads: closes, timeline words, the house's slots, the open share. -/
def State.enterChannels (s : State) : State :=
  match clockAt s.now with
  | none => s
  | some x =>
    let s1 := { s with agenda := s.planHouse x ++ s.planShare x ++ s.agenda }.enterTimelines
    { s1 with agenda := s.planCloses x ++ s1.agenda }

/-- The landings of this cycle. -/
def State.planTlLandings (s : State) : List Ev :=
  s.channels.flatMap fun e => (e.2.landings.filter fun l => l.t == s.now).map fun l => ⟨.plain, .timelineLanding e.1 l.id⟩
/-- The near-memory blocks that perform in this cycle. -/
def State.planBlocks (s : State) : List Ev :=
  s.channels.flatMap fun e => (e.2.nmq.filter fun b => b.runAt == some s.now).map fun b => ⟨.plain, .nmBlockPerform e.1 b.cmd⟩
/-- The channels on which a window ends with something to settle. -/
def State.planWindowEnds (s : State) : List Ev :=
  match clockAt s.now with
  | some x =>
    if x % windowClocks = windowClocks - 1 then
      (s.channels.filter fun e => e.2.houseNow || e.2.backlog || e.2.banks.any fun b => b.2.row.isSome).map fun e => ⟨.plain, .windowEnd e.1⟩
    else []
  | none => []

end Sys2Proof.Machine
end

