-- ==== Sys2Proof/Machine/Admit.lean ====
section
/-! DEFINITION. Sys2Proof/Machine/Admit.lean: launch records, replies, admission and seals (R282 to R292, R337). -/

namespace Sys2Proof.Machine
open Config

/-! ### A mooring's own places in memory (R447) -/

/-- Bytes of a range that lie in the page of its first byte: translation is constant over 64 KiB. -/
def inPage (va n : Nat) : Nat := Nat.min n (0x10000 - va % 0x10000)

/-- Reads n bytes at a mooring's address; none where a byte is not mapped. -/
def State.moorRead (s : State) (m va : Nat) : Nat → Nat → Option (List Byte)
  | 0, _ => some []
  | fuel + 1, n =>
    if n = 0 then some []
    else
      let k := inPage va n
      match s.moorPa m va, s.moorRead m (va + k) fuel (n - k) with
      | some pa, some l => some (s.bytes pa k ++ l)
      | _, _ => none
def State.moorBytes (s : State) (m va n : Nat) : Option (List Byte) := s.moorRead m va (n / 0x10000 + 2) n

/-- Writes clean bytes at a mooring's address; bytes that are not mapped are not written. -/
def State.moorPut (s : State) (m va : Nat) : Nat → List Byte → State
  | 0, _ => s
  | fuel + 1, bs =>
    if bs.isEmpty then s
    else
      let k := inPage va bs.length
      let t := match s.moorPa m va with
        | some pa => s.putOwn pa (bs.take k)
        | none => s
      t.moorPut m (va + k) fuel (bs.drop k)
def State.moorWrite (s : State) (m va : Nat) (bs : List Byte) : State := s.moorPut m va (bs.length / 0x10000 + 2) bs

/-! ### Ethernet (R337): PRESUMED (log 19) frame formats of IPv6 and ICMPv6, for which the manual names the standards only -/

/-- The big-endian number of some bytes of a frame. -/
def beNum (f : List Byte) (lo n : Nat) : Nat := ((f.drop lo).take n).foldl (fun a b => 256 * a + b.toNat) 0
def beBytes (n v : Nat) : List Byte := (natBytes n v).reverse

/-- The 16-bit sums of a list of bytes. -/
def sum16 : List Byte → Nat
  | a :: b :: l => 256 * a.toNat + b.toNat + sum16 l
  | [a] => 256 * a.toNat
  | [] => 0
def fold16 (n : Nat) : Nat :=
  let a := n % 65536 + n / 65536
  a % 65536 + a / 65536
/-- The checksum of a message of an upper protocol between two addresses, its own field 0. -/
def upperSum (proto : Nat) (src dst : List Byte) (msg : List Byte) : Nat :=
  65535 - fold16 (sum16 src + sum16 dst + msg.length + proto + sum16 msg)

/-- The Ethernet and IPv6 headers of a message of n bytes. -/
def ipHead (dmac smac src dst : List Byte) (n proto hop : Nat) : List Byte :=
  dmac ++ smac ++ beBytes 2 0x86DD ++ [0x60, 0, 0, 0] ++ beBytes 2 n ++ [BitVec.ofNat 8 proto, BitVec.ofNat 8 hop] ++ src ++ dst

/-- A UDP datagram in its IPv6 packet and its frame. -/
def udpFrame (dmac smac src dst : List Byte) (sport dport : Nat) (d : List Byte) : List Byte :=
  let msg (c : Nat) : List Byte := beBytes 2 sport ++ beBytes 2 dport ++ beBytes 2 (8 + d.length) ++ beBytes 2 c ++ d
  let c := upperSum 17 src dst (msg 0)
  ipHead dmac smac src dst (8 + d.length) 17 64 ++ msg (if c = 0 then 65535 else c)

/-- Bytes of the longest frame. -/
def maxFrame : Nat := 9216

def State.ownIp (s : State) (a : Nat) : Bool := s.ipAddrs.any fun e => e.2 == a

/-- A frame is dropped and counted. -/
def State.dropFrame (s : State) (port : Nat) : State := { s with drops := sset 0 s.drops port (sget 0 s.drops port + 1) }

def macBytes (port : Nat) : List Byte := natBytes 6 (portMac port).toNat

/-! ### Replies (R286) -/

/-- The authenticated bytes of a reply: its header and the output. -/
def replyBody (m status : Nat) (r : Req) (info : Nat) (out : List Byte) : List Byte :=
  natBytes 2 0xE7A2 ++ [BitVec.ofNat 8 (16 * m + status), 0] ++ natBytes 6 r.reqid ++ natBytes 2 0 ++ natBytes 4 info ++ natBytes 8 out.length
    ++ natBytes 8 r.reply.toNat ++ out

/-- The tag of a record or a reply under a mooring's key (R284). -/
def tagOf (key : BitVec 256) (body : List Byte) : List Byte :=
  natBytes 16 (gmac key (BitVec.ofNat 96 (leNat (body.take 12))) body).toNat

/-- A reply with its tag. -/
def State.replyBytes (s : State) (m status : Nat) (r : Req) (info : Nat) (out : List Byte) : List Byte :=
  let b := replyBody m status r info out
  b ++ tagOf (s.moor m).key b

/-- A reply goes to the datagram's source, or to the host's completion ring. One that fills more than a frame, for which R337 has neither
fragments nor larger frames, is delivered as a loss, with status 4 (R3; DESIGN CHOICE, log 19). -/
def State.reply (s : State) (m status : Nat) (r : Req) (info : Nat) (out : List Byte) : State :=
  match r.src with
  | .ethernet p mac a u own =>
    let frame (bs : List Byte) := udpFrame mac (macBytes p) own a s.udpPort u bs
    let f := frame (s.replyBytes m status r info out)
    { s with frames := s.frames ++ [⟨p, if f.length ≤ maxFrame then f else frame (s.replyBytes m 4 r 0 [])⟩] }
  | .host n seq => s.complete 0x81 n seq (s.replyBytes m status r info out)

/-! ### Tasks and slots (R288, R289) -/

def Mooring.startOf (k : Mooring) (n : Nat) : Nat := k.t0 + n * k.period
/-- Completion + REPLYB of task n. -/
def Mooring.replyBy (k : Mooring) (n : Nat) : Nat := k.startOf n + k.k + k.replyb
/-- The first task whose seal lies after a cycle. -/
def Mooring.firstOpen (k : Mooring) (c : Nat) : Nat := if c + k.lead < k.t0 then 0 else (c + k.lead - k.t0) / k.period + 1
def Req.deadlineAt (r : Req) : Nat := r.arrival + r.deadline * microCycles

/-- The lowest free slot of task n. -/
def Mooring.freeSlot (k : Mooring) (n : Nat) : Option Nat :=
  let l := k.slots.filter fun p => p.task == n
  if l.length < k.bcap then (List.range (l.length + 1)).find? fun i => !(l.any fun p => p.slot == i) else none

/-- The first cycle from which a mooring's tasks start again, where a written map withholds them (R215): the first frame boundary at
which no task that it concerns can run any more. -/
def State.withheldUntil (s : State) (m : Nat) : Nat :=
  let ends := s.channels.flatMap fun e => match e.2.newMap with
    | some n => if mapMoves e.2.map n m then
        s.now :: (List.range nMoorings).filterMap fun j =>
          if mapMoves e.2.map n j && (s.moor j).st != .idle then some ((s.moor j).started + (s.moor j).k) else none
      else []
    | none => []
  if ends.isEmpty then 0 else (maxOf ends / frameCycles + 1) * frameCycles

/-- The first of the tasks from n on that starts from a cycle on and has a free slot. -/
def Mooring.roomFrom (k : Mooring) (from_ : Nat) : Nat → Nat → Option (Nat × Nat)
  | 0, _ => none
  | fuel + 1, n =>
    if k.startOf n < from_ then k.roomFrom from_ fuel (n + 1)
    else match k.freeSlot n with
      | some i => some (n, i)
      | none => k.roomFrom from_ fuel (n + 1)

/-- The earliest task after a cycle's seals with a free slot. -/
def State.room (s : State) (m c : Nat) : Option (Nat × Nat) :=
  let k := s.moor m
  if k.bcap = 0 ∨ k.period = 0 then none
  else
    let f := s.withheldUntil m
    k.roomFrom f (k.slots.length + f / k.period + 2) (k.firstOpen c)

/-- INFO of a rejection: the earliest achievable completion in microseconds after arrival, rounded up. -/
def State.rejectInfo (s : State) (m c : Nat) (r : Req) : Nat :=
  match s.room m c with
  | some (n, _) => Nat.min (ceilDiv ((s.moor m).replyBy n - r.arrival) microCycles) (2 ^ 32 - 1)
  | none => 0

def State.reject (s : State) (m c : Nat) (r : Req) : State := s.reply m 2 r (s.rejectInfo m c r) []

/-- The request takes a slot. -/
def State.place (s : State) (m n i : Nat) (r : Req) : State := s.updMoor m fun k => { k with slots := k.slots ++ [⟨n, i, r⟩] }

/-- A mooring admits requests: not in loose mode (R326), nor while the package is too hot (R343). -/
def State.admits (s : State) (m : Nat) : Bool := !(s.moor m).loose && !(s.moor m).looseNext && !s.thermalHold && decide (0 < (s.moor m).bcap)

/-- Admission of an interactive request in its arrival cycle (R289), or of a bulk request to the queue (R290). -/
def State.admitOne (s : State) (m : Nat) (r : Req) : State :=
  let k := s.moor m
  if !s.admits m then s.reply m 2 r 0 []
  else if r.bulk then
    if k.bulk.length < 4096 ∧ k.replyBy (k.firstOpen r.arrival) ≤ r.deadlineAt then s.updMoor m fun k => { k with bulk := k.bulk ++ [r] }
    else s.reject m r.arrival r
  else match s.room m r.arrival with
    | some (n, i) => if k.replyBy n ≤ r.deadlineAt then s.place m n i r else s.reject m r.arrival r
    | none => s.reply m 2 r 0 []

/-- Puts a request after those of an earlier or the same deadline. -/
def insertReq (x : Nat × Req) : List (Nat × Req) → List (Nat × Req)
  | [] => [x]
  | y :: l => if y.2.deadlineAt ≤ x.2.deadlineAt then y :: insertReq x l else x :: y :: l
/-- Requests in ascending deadline, then in arrival order (R291). -/
def byDeadline (l : List (Nat × Req)) : List (Nat × Req) := l.foldl (fun a x => insertReq x a) []

/-- Every request of this cycle is decided. -/
def State.decideArrivals (s : State) : State :=
  (byDeadline s.arrivals).foldl (fun t x => t.admitOne x.1 x.2) { s with arrivals := [] }

/-! ### Launch records (R282 to R285) -/

def isRecord : Instr → Bool
  | .launchRecord _ _ | .hostLaunchRecord _ => true
  | _ => false

/-- The records of a cycle are decided once the last of them has been checked (R291). -/
def State.decideLast (s : State) : State := if s.agenda.any fun e => isRecord e.instr then s else s.decideArrivals

/-- The counter of malformed records of a source: the two ports, and the host. -/
def srcPort : RecSrc → Nat
  | .ethernet p _ _ _ _ => p
  | .host _ _ => 2

/-- A record as its bytes give it. -/
structure LRec where
  bytes : List Byte
  deriving DecidableEq, Repr
def LRec.num (r : LRec) (lo n : Nat) : Nat := leNat ((r.bytes.drop lo).take n)
def LRec.mooring (r : LRec) : Nat := r.num 2 1 / 16
def LRec.bulk (r : LRec) : Bool := r.num 2 1 / 8 % 2 == 1
def LRec.inaddr (r : LRec) : Bool := r.num 2 1 / 4 % 2 == 1
/-- Input bytes. -/
def LRec.inLen (r : LRec) : Nat := if r.inaddr then 0 else r.num 16 8
/-- The bytes that the tag covers. -/
def LRec.body (r : LRec) : List Byte := r.bytes.take (32 + r.inLen)

/-- The first check of R285, but for the mooring. -/
def LRec.formOk (r : LRec) (istride : Nat) : Bool :=
  r.bytes.length == 48 + r.inLen && r.num 0 2 == 0xE7A1 && r.num 2 1 % 4 == 0 && r.num 3 1 == 0 && r.num 10 2 == 0 && r.num 12 4 != 0
    && (r.inaddr || decide (r.inLen + 16 ≤ istride))

/-- A duplicate of R285. -/
def Mooring.duplicate (k : Mooring) (q : Nat) : Bool :=
  match k.hiReq with
  | none => false
  | some h => if h < q then false else if 4095 < h - q then true else k.bitmap.getLsbD (h - q)

/-- Marks a REQID. -/
def Mooring.markReq (k : Mooring) (q : Nat) : Mooring :=
  match k.hiReq with
  | none => { k with hiReq := some q, bitmap := 1 }
  | some h => if h < q then { k with hiReq := some q, bitmap := k.bitmap <<< (q - h) ||| 1 }
    else { k with bitmap := k.bitmap ||| BitVec.ofNat 4096 (2 ^ (h - q)) }

def LRec.req (r : LRec) (src : RecSrc) (now : Nat) : Req :=
  ⟨r.num 4 6, r.bulk, r.inaddr, (r.bytes.drop 32).take r.inLen, BitVec.ofNat 64 (if r.inaddr then r.num 16 8 else 0), now, r.num 12 4,
    BitVec.ofNat 64 (r.num 24 8), src, false⟩

/-- The checks of a record in the order of R285. -/
def State.check (s : State) (src : RecSrc) (r : LRec) : State :=
  let m := r.mooring
  let k := s.moor m
  if !(decide (m < nMoorings) && k.loaded && decide (3 ≤ r.bytes.length)) then
    { s with portMal := sset 0 s.portMal (srcPort src) (sget 0 s.portMal (srcPort src) + 1) }
  else if !r.formOk k.istride then s.updMoor m fun k => { k with malformed := k.malformed + 1 }
  else if r.bytes.drop (32 + r.inLen) != tagOf k.key r.body then s.updMoor m fun k => { k with tagFail := k.tagFail + 1 }
  else
    let q := r.req src s.now
    if k.duplicate q.reqid then s.reply m 3 q 0 []
    else { s.updMoor m fun k => k.markReq q.reqid with arrivals := s.arrivals ++ [(m, q)] }

/-- The record in a frame: a UDP datagram over IPv6, whole in one frame, to an address of the Pilot's and to the port that the host has
configured (R282, R337). IPv4, fragments and any other header between IPv6 and UDP are not such a frame. -/
def State.recordIn (s : State) (port : Nat) (f : List Byte) : Option (RecSrc × List Byte) :=
  let n := beNum f 18 2
  if 62 ≤ f.length ∧ f.length ≤ maxFrame ∧ beNum f 12 2 = 0x86DD ∧ beNum f 14 1 / 16 = 6 ∧ beNum f 20 1 = 17 ∧ s.ownIp (beNum f 38 16) = true
      ∧ beNum f 56 2 = s.udpPort ∧ beNum f 58 2 = n ∧ 8 ≤ n ∧ 54 + n ≤ f.length then
    some (.ethernet port ((f.drop 6).take 6) ((f.drop 22).take 16) (beNum f 54 2) ((f.drop 38).take 16), (f.drop 62).take (n - 8))
  else none

/-- `LAUNCH_RECORD`: a frame that carries no record is dropped and counted. Without a Pilot image only the host link works (R340). -/
def execLaunchRecord (port : Nat) (frame : List Byte) (s : State) : Out State :=
  if 2 ≤ port then .fault .noSuchUnit
  else if s.boot ≠ .up then .next s
  else .next (match s.recordIn port frame with
    | some r => s.check r.1 ⟨r.2⟩
    | none => s.dropFrame port).decideLast

/-! ### Seals (R288, R290) -/

/-- The header of a slot and the input that follows it. -/
def slotBytes : Option Req → List Byte
  | none => natBytes 16 0
  | some r => natBytes 8 r.input.length ++ natBytes 6 r.reqid ++ [if r.inaddr then 3 else 1, 0]
      ++ (if r.inaddr then natBytes 8 r.addr.toNat else r.input)

/-- The address of slot i of task n (R288). -/
def Mooring.slotAt (k : Mooring) (n i : Nat) : Nat := k.inarea + (n % 2 * k.bcap + i) * k.istride

/-- Fills the free slots of a sealing task from the bulk queue, earliest deadline first, with requests that arrived before the seal (R289); a
request that no later task can meet is rejected. -/
def State.fillBulk (s : State) (m n : Nat) : State :=
  (byDeadline ((s.moor m).bulk.map fun r => (m, r))).foldl (fun t x =>
    let k := t.moor m
    let drop (u : State) : State := u.updMoor m fun k => { k with bulk := k.bulk.filter fun r => r.reqid != x.2.reqid }
    match (if x.2.arrival < t.now ∧ k.replyBy n ≤ x.2.deadlineAt ∧ t.admits m ∧ t.withheldUntil m ≤ k.startOf n then k.freeSlot n else none) with
    | some i => (drop t).place m n i x.2
    | none => if x.2.deadlineAt < k.replyBy (n + 1) then (drop t).reject m t.now x.2 else t) s

/-- The Pilot writes every slot of a task. -/
def State.writeSlots (s : State) (m n : Nat) : State :=
  let k := s.moor m
  (List.range k.bcap).foldl (fun t i =>
    t.moorWrite m (k.slotAt n i) (slotBytes ((k.slots.find? fun p => p.task == n && p.slot == i).map (·.req)))) s

def State.sealTask (s : State) (m n : Nat) : State := (s.fillBulk m n).writeSlots m n

/-- The task that a mooring seals in a cycle. -/
def Mooring.sealNow (k : Mooring) (now : Nat) : Option Nat :=
  if k.loaded ∧ k.period ≠ 0 ∧ k.t0 ≤ now + k.lead ∧ (now + k.lead - k.t0) % k.period = 0 then some ((now + k.lead - k.t0) / k.period) else none

/-- `TASK_SEAL`. -/
def execTaskSeal (m : Nat) (s : State) : Out State :=
  if m < nMoorings then
    match (s.moor m).sealNow s.now with
    | some n => .next (s.sealTask m n)
    | none => .next s
  else .fault .noSuchUnit

/-! ### The other frames (R337) -/

/-- An ICMPv6 message in its IPv6 packet and its frame. -/
def icmpFrame (dmac smac src dst : List Byte) (typ code hop : Nat) (rest : List Byte) : List Byte :=
  let msg (c : Nat) : List Byte := [BitVec.ofNat 8 typ, BitVec.ofNat 8 code] ++ beBytes 2 c ++ rest
  ipHead dmac smac src dst (4 + rest.length) 58 hop ++ msg (upperSum 58 src dst (msg 0))

/-- An ICMPv6 message of a type. -/
def isIcmp (f : List Byte) (typ : Nat) : Bool := decide (62 ≤ f.length) && beNum f 12 2 == 0x86DD && beNum f 20 1 == 58 && beNum f 54 1 == typ

/-- `ICMPV6_ECHO`: the answer carries the request's data back. -/
def execIcmpv6Echo (port : Nat) (frame : List Byte) (s : State) : Out State :=
  if 2 ≤ port then .fault .noSuchUnit
  else if s.boot ≠ .up then .next s
  else if isIcmp frame 128 && s.ownIp (beNum frame 38 16) then
    .next { s with frames := s.frames ++ [⟨port, icmpFrame ((frame.drop 6).take 6) (macBytes port) ((frame.drop 38).take 16) ((frame.drop 22).take 16)
      129 0 64 ((frame.drop 58).take (beNum frame 18 2 - 4))⟩] }
  else .next (s.dropFrame port)

/-- `ICMPV6_NEIGHBOUR_DISCOVERY`: a solicitation of an address of the Pilot's is answered with its link-layer address. -/
def execIcmpv6NeighbourDiscovery (port : Nat) (frame : List Byte) (s : State) : Out State :=
  if 2 ≤ port then .fault .noSuchUnit
  else if s.boot ≠ .up then .next s
  else if isIcmp frame 135 && s.ownIp (beNum frame 62 16) then
    .next { s with frames := s.frames ++ [⟨port, icmpFrame ((frame.drop 6).take 6) (macBytes port) ((frame.drop 62).take 16) ((frame.drop 22).take 16)
      136 0 255 ([0x60, 0, 0, 0] ++ (frame.drop 62).take 16 ++ [2, 1] ++ macBytes port)⟩] }
  else .next (s.dropFrame port)

/-- `UNSUPPORTED_FRAME`. -/
def execUnsupportedFrame (port : Nat) (s : State) : Out State :=
  if 2 ≤ port then .fault .noSuchUnit else .next (if s.boot = .up then s.dropFrame port else s)

end Sys2Proof.Machine
end

