-- ==== Sys2Proof/Machine/Pilot.lean ====
section
/-! DEFINITION. Sys2Proof/Machine/Pilot.lean: tasks and the node records of their command streams (R34, R51, R53, R67, R68, R219,
R288, R294 to R298). -/

namespace Sys2Proof.Machine
open Config

/-! ### Starting a core (R51, R67, R68, R89, R296) -/

/-- The lamp entries of a table, as a stream translates its address; an undefined entry reads as zero (R89). DESIGN CHOICE (log 39): so
does one in a page that is not mapped with read permission, and no fault is raised. -/
def State.lampsOf (s : State) (via : Via) (core : Nat) (table : Addr) : List (Nat × BitVec 256) :=
  let t := table.toNat
  (List.range 512).filterMap fun i =>
    match s.plainTr via core (t + 32 * i) .r with
    | .ok pa => let v := BitVec.ofNat 256 (s.num pa 32)
      if v = 0 then none else some (i, v)
    | _ => none

/-- The memory as the reads of the cycle before saw it: the last cycle in which the Pilot may load a lamp table and `H0` to `H7`, or read a
list (R268, R295, R296). -/
def State.before (s : State) : State := { s with mem := s.memWas }

/-- Register i of `H` at a stream's start. -/
def argReg (l : List Word) (i : Nat) : Reg := ⟨l.getD i 0, 63, false⟩

/-- The eight words of ARGS at a mooring's address. -/
def State.argsAt (s : State) (m va : Nat) : List Word :=
  let b := (s.before.moorBytes m va 64).getD []
  (List.range 8).map fun i => BitVec.ofNat 64 (leNat ((b.drop (8 * i)).take 8))

/-- The primary of a core starts in this cycle. Results of its program before still land (R34). -/
def State.startPrimary (s : State) (m : Nat) (l : Launched) : State :=
  s.updCore l.core fun k => { k with
    prim := { SeqState.init with
      run := .running, pc := l.image, nextAt := s.now, tbase := (s.moor m).started, queue := k.prim.queue
      lamps := s.before.lampsOf (.pins m) l.core (lampTableOf l.image), lampSrc := lampTableOf l.image, lastIssue := s.now }
    h := Vector.ofFn fun i => argReg (s.argsAt m l.argAt) i.val
    v := Vector.replicate 16 VReg.zero
    w := Vector.replicate 16 VReg.zero
    fmt := 0, shv := shapeReset, shw := shapeReset, engst := 0, q0 := [], dirty := BitVec.allOnes 224 }

/-- Launched cores whose first issue is due start. -/
def State.startCores (s : State) (m : Nat) : State :=
  ((s.moor m).launched.filter fun l => !l.begun && decide (l.due ≤ s.now)).foldl (fun t l =>
    (t.startPrimary m l).updMoor m fun k => { k with
      launched := k.launched.map fun x => if x.core = l.core then { x with begun := true } else x }) s

/-- Every running task's cores that are due start. -/
def State.startDue (s : State) : State :=
  (List.range nMoorings).foldl (fun t m => match (t.moor m).st with
    | .running | .parking | .ending _ => t.startCores m
    | _ => t) s

/-! ### Nodes (R294, R297) -/

/-- The Pilot executes nodes of the task: until its end, a park, or the cycle after the one of a fault. -/
def Mooring.nodesGo (k : Mooring) (now : Nat) : Bool :=
  !k.atEnd && (match k.st with
    | .running | .parking => true
    | .ending d => d == now + 8
    | _ => false)

/-- A node fault (R297), recorded under R448 with its reason. -/
def State.nodeFault (s : State) (m node reason : Nat) : State :=
  s.moorFault m (BitVec.ofNat 64 (0x12 + reason * 2 ^ 8 + node % 2 ^ 24 * 2 ^ 40))

/-- The record at which the command stream stands. -/
def State.nodeRec (s : State) (m : Nat) : Option Nat := (s.moorBytes m ((s.moor m).stream + 64 * (s.moor m).node) 64).map leNat

/-- The node at which the stream stands executes now; a pre-emption that waits for a boundary between two nodes comes first (R55, R334). -/
def State.nodePush (s : State) (m : Nat) : State :=
  let k := s.moor m
  if (!k.preempt.isEmpty && decide (0 < k.nodesRun)) = true then { s with agenda := plainEv (.nodePreemption m) :: s.agenda }
  else match (s.nodeRec m).bind decodeNode with
    | some i => { s with agenda := ⟨.node m, i⟩ :: s.agenda }
    | none => s.nodeFault m k.node 3

/-- The stream goes on to node n, whose DELAY counts from this cycle. -/
def State.nodeSeek (s : State) (m n : Nat) : State :=
  let s1 := s.updMoor m fun k => { k with node := n }
  match s1.nodeRec m with
  | none => s1.nodeFault m n 3
  | some w =>
    let t := s.now + bytesOf w 8 8
    let s2 := s1.updMoor m fun k => { k with nodeAt := t }
    if t = s.now then s2.nodePush m else s2

/-- Runs the node of a mooring in whose context the event stands: the effect gets the mooring and the node's index. -/
def State.nodeRun (s : State) (f : Nat → Nat → State → State) : Out State :=
  match s.ev with
  | .node m =>
    let k := s.moor m
    if k.nodesGo s.now && k.waiting.isNone then .next (f m k.node (s.updMoor m fun k => { k with nodesRun := k.nodesRun + 1 })) else .next s
  | _ => .fault .noSuchUnit

/-! ### `LAUNCH` -/

/-- An entry of LTAB. -/
structure LEnt where
  core : Nat
  image : Nat
  offset : Nat
  clean : Bool
  argAt : Nat
  deriving DecidableEq, Repr

def clustersOf (cmask : BitVec 64) : List Nat := (List.range nClusters).filter fun g => cmask.getLsbD g

/-- The entries of an LTAB; none where a byte of them is not mapped. -/
def State.ltab (s : State) (m : Nat) (cmask : BitVec 64) (at_ : Nat) : Option (List LEnt) :=
  let cs := (clustersOf cmask).flatMap fun g => (List.range coresPerCluster).map fun i => coresPerCluster * g + i
  let l := (List.range cs.length).map fun i => (s.moorBytes m (at_ + 96 * i) 96).map fun b =>
    let num (lo n : Nat) : Nat := leNat ((b.drop lo).take n)
    (⟨cs.getD i 0, num 0 8, num 8 4, num 12 20 == 0, at_ + 96 * i + 32⟩ : LEnt)
  if l.any (·.isNone) then none else some (l.filterMap id)

/-- The cores of a cluster start together. -/
def sameOffsets (l : List LEnt) : Bool :=
  l.all fun a => l.all fun b => a.core / coresPerCluster != b.core / coresPerCluster || a.offset == b.offset

/-- A core that the task has launched is not DONE. -/
def State.coreRuns (s : State) (m c : Nat) : Bool :=
  (s.moor m).launched.any fun l => l.core == c && (!l.begun || (s.core c).prim.run == .running)

/-- A later launch of a core comes too soon after its DONE (R296). -/
def State.tooSoon (s : State) (m : Nat) (e : LEnt) : Bool :=
  ((s.moor m).launched.any fun l => l.core == e.core) && decide (s.now + e.offset < (s.core e.core).prim.lastIssue + 64)

/-- `LAUNCH`. DESIGN CHOICE (log 22): an image address that is no multiple of 64 is taken as it stands; no rule asks for a fetch line's boundary
(R85). -/
def State.launchNode (s : State) (m node : Nat) (cmask ltab cycles : BitVec 64) : State :=
  if cmask &&& ~~~(s.moor m).cmask ≠ 0 then s.nodeFault m node 3
  else match s.ltab m cmask ltab.toNat with
    | none => s.nodeFault m node 3
    | some es =>
      let go := es.filter fun e => e.image != 0
      if !(es.all (·.clean)) || !sameOffsets go then s.nodeFault m node 3
      else if go.any fun e => s.coreRuns m e.core then s.nodeFault m node 7
      else if go.any (s.tooSoon m) then s.nodeFault m node 3
      else
        let ls := go.map fun e => (⟨e.core, s.now + cycles.toNat, s.now + e.offset, BitVec.ofNat 56 e.image, e.argAt, false,
          (s.moor m).launched.any fun l => l.core == e.core && l.used⟩ : Launched)
        let s1 := s.updMoor m fun k => { k with launched := (k.launched.filter fun l => !(go.any fun e => e.core == l.core)) ++ ls }
        (s1.startCores m).nodeSeek m (node + 1)

def execLaunch (_delay cmask ltab cycles : BitVec 64) (s : State) : Out State := s.nodeRun fun m n t => t.launchNode m n cmask ltab cycles

/-! ### `TIMELINE` (R219) -/

/-- The first window that begins at or after a cycle. -/
def windowFrom (t : Nat) : Nat := if cyc (clockOf t) = t ∧ clockOf t % windowClocks = 0 then clockOf t / windowClocks else clockOf t / windowClocks + 1

/-- A mooring's timeline starts on a channel at a word, from a cycle on; not where the map has not returned from a disturb backlog (R234). -/
def State.tlBegin (s : State) (ch m word from_ : Nat) : State :=
  let k := s.chan ch
  if (k.tl m).isSome then s.tlFault ch m noWord ruleBusy
  else if k.backlog && decide (k.backlogFrom ≤ clockOf s.now / windowClocks) then s.tlFault ch m noWord ruleTaken
  else
    let w := windowFrom from_
    let o := k.delayAt m word
    s.setChan ch { k with tls := k.tls ++ [⟨m, word, s.now, w, o, k.ownerClock m w o, [], 0, false⟩] }

def execTimeline (_delay : BitVec 64) (chmask : BitVec 256) (word : BitVec 16) (soff : BitVec 64) (s : State) : Out State :=
  s.nodeRun fun m n t =>
    let cs := (List.range nChannels).filter fun c => chmask.getLsbD c
    if cs.any fun c => !(t.moor m).chans.contains c || (ownedIn (t.chan c).map m).isEmpty then t.nodeFault m n 3
    else (cs.foldl (fun u c => u.tlBegin c m word.toNat (u.now + soff.toNat)) t).nodeSeek m (n + 1)

/-! ### The other nodes -/

/-- `PUBLISHN` (R261, R400). -/
def execPublishn (_delay : BitVec 64) (count : BitVec 16) (list : BitVec 64) (s : State) : Out State :=
  s.nodeRun fun m n t =>
    let len := 2 * count.toNat
    match t.before.moorBytes m list.toNat len with
    | none => t.nodeFault m n 3
    | some b =>
      let l := listIndices b
      let va := list.toNat
      let t1 := t.listNode m l
      if va < spadBytes || (sramWindow va).isNone || sramWindow va != sramWindow (va + len - 1) || !t.pubOk m l then t.nodeFault m n 3
      else if t.pubMeets m none l then (t1.unpublish m l).nodeFault m n 3
      else if t.pubFrozen m l then t1.nodeFault m n 3
      else (t1.flip m l).nodeSeek m (n + 1)

/-- Every core that the task has launched is DONE, and the commands that they issued have ended. -/
def State.coresDone (s : State) (m : Nat) : Bool :=
  ((s.moor m).launched.all fun l => !s.coreRuns m l.core)
    && s.cmds.all fun c => c.ended || c.mooring != some m || c.q == .secondary

/-- The wait of a `WAITN` is met. -/
def State.waitMet (s : State) (m : Nat) (w : WaitNode) : Bool :=
  if w.mode = 0 then s.coresDone m
  else match s.moorPa m w.gaddr with
    | some pa => genReached (s.num (pa + 8) 4) w.gen.toNat
    | none => false

/-- `WAITN`. -/
def execWaitn (_delay : BitVec 64) (mode : BitVec 8) (gen : BitVec 32) (gaddr limit : BitVec 64) (s : State) : Out State :=
  s.nodeRun fun m n t =>
    if mode = 1 ∧ (t.moorPa m gaddr.toNat).isNone then t.nodeFault m n 3
    else
      let w : WaitNode := ⟨mode.toNat, gaddr.toNat, gen, t.now + limit.toNat⟩
      let t1 := t.updMoor m fun k => { k with waiting := some w }
      { t1 with agenda := t1.agenda ++ [plainEv (.waitnRelease m)] }

/-- `WAITN_RELEASE`: the next node's DELAY counts from here (R294). -/
def execWaitnRelease (m : Nat) (s : State) : Out State :=
  if m < nMoorings then
    let k := s.moor m
    match k.waiting with
    | some w => if k.nodesGo s.now && s.waitMet m w then .next ((s.updMoor m fun k => { k with waiting := none }).nodeSeek m (k.node + 1)) else .next s
    | none => .next s
  else .fault .noSuchUnit

/-- `WAITN_LIMIT`. -/
def execWaitnLimit (m : Nat) (s : State) : Out State :=
  if m < nMoorings then
    let k := s.moor m
    match k.waiting with
    | some w => if k.nodesGo s.now && !s.waitMet m w && decide (w.limit < s.now) then .next (s.nodeFault m k.node (if w.mode = 0 then 4 else 1)) else .next s
    | none => .next s
  else .fault .noSuchUnit

/-- The fields of a `CHKPTN` record. -/
def chkOf (nr : BitVec 8) (r : Vector (BitVec 96) 3) (dest : BitVec 64) : ChkB :=
  let l := r.toList
  ⟨nr.toNat, (l.take nr.toNat).map fun (x : BitVec 96) => ((x.setWidth 64).toNat, (x >>> 64).toNat), (l.drop nr.toNat).all (· == 0), dest.toNat⟩

/-- `CHKPTN` (R304). -/
def execChkptn (_delay : BitVec 64) (nr : BitVec 8) (ranges : Vector (BitVec 96) 3) (dest : BitVec 64) (s : State) : Out State :=
  s.nodeRun fun m n t => match t.freeze m (chkOf nr ranges dest) with
    | .ok u => u.nodeSeek m (n + 1)
    | .error k => t.nodeFault m n k

/-- The oldest `STEPN` of this cycle takes effect. -/
def State.stepNode (s : State) (m node inc : Nat) : State :=
  let s1 := s.updMoor m fun k => { k with stepns := k.stepns.drop 1 }
  match s1.advanced m inc with
  | some g => s1.setGstep m g
  | none => s1.nodeFault m node 0x0C

/-- `STEPN`: `GSTEP` changes after every read and every `STEPADV` of this cycle (R302), by an event of its own at the cycle's end. -/
def execStepn (_delay : BitVec 64) (inc : BitVec 8) (s : State) : Out State :=
  match s.ev with
  | .stepEnd m n => .next (s.stepNode m n inc.toNat)
  | _ => s.nodeRun fun m n t => (t.updMoor m fun k => { k with stepns := k.stepns ++ [(n, inc.toNat)] }).nodeSeek m (n + 1)

/-- `GOTO`. -/
def execGoto (_delay : BitVec 64) (target count : BitVec 32) (s : State) : Out State :=
  s.nodeRun fun m n t =>
    let c := sget 0 (t.moor m).gotos n
    let jumps := decide (c < count.toNat)
    let t1 := if count = 0 then t else t.updMoor m fun k => { k with gotos := sset 0 k.gotos n (if jumps then c + 1 else 0) }
    t1.nodeSeek m (if count = 0 ∨ jumps = true then target.toNat else n + 1)

/-- A pre-emption request that waits is served (R334). -/
def State.servePreempt (s : State) (m : Nat) : State :=
  (s.moor m).preempt.foldl (fun t seq => t.complete 0x83 m seq []) (s.updMoor m fun k => { k with preempt := [] })

/-- `END`: the boundary after it serves a pre-emption request (R334). -/
def execNodeEnd (_delay : BitVec 64) (s : State) : Out State :=
  s.nodeRun fun m _ t => (t.updMoor m fun k => { k with atEnd := true }).servePreempt m

/-! ### Tasks (R288, R298) -/

/-- The watch queue of a task: an item per FULL slot and WORKTAB entry (R298, R444). -/
def State.watchItems (s : State) (m n : Nat) : List Word :=
  let k := s.moor m
  let tab := (List.range k.workn).map fun j => leNat ((s.moorBytes m (k.worktab + 4 * j) 4).getD [])
  ((List.range k.bcap).filter fun i => k.slots.any fun p => p.task == n && p.slot == i).flatMap fun i =>
    tab.map fun e => BitVec.ofNat 64 (e / 2 ^ 16 % 2 ^ 16 * 2 ^ 32 + e % 2 ^ 16 * 2 ^ 16 + i)

/-- The slots of a task that wait for an answer, in ascending order. -/
def Mooring.openSlots (k : Mooring) (n : Nat) : List Placed :=
  (List.range k.bcap).filterMap fun i => k.slots.find? fun p => p.task == n && p.slot == i && !p.req.answered

/-- Every slot of a task that waits for an answer gets status 4 (R292). -/
def State.failSlots (s : State) (m n info : Nat) : State :=
  (((s.moor m).openSlots n).foldl (fun t p => t.reply m 4 p.req info []) s).updMoor m fun k => { k with slots := k.slots.filter fun p => p.task != n }

/-- The task that a mooring starts in a cycle. -/
def Mooring.startNow (k : Mooring) (now : Nat) : Option Nat :=
  if k.loaded ∧ k.period ≠ 0 ∧ k.t0 ≤ now ∧ (now - k.t0) % k.period = 0 then some ((now - k.t0) / k.period) else none

/-- A task starts. -/
def State.startTask (s : State) (m n : Nat) : State :=
  let items := s.watchItems m n
  (s.updMoor m fun k => { k with
    st := .running, task := n, started := s.now, frozen := none, nodesRun := 0, stepns := [], atEnd := false, gotos := [], launched := [],
    waiting := none, loose := k.looseNext, preempt := [], watchq := items, savedH := [], vwrite := none, ready := 0, forced := false, resuming := none,
    heldRows := [], faultCode := 0 }).nodeSeek m (s.moor m).entry

/-- `TASK_START`. A task that finds its mooring's task before still there, or withheld (R215, R343), does not run; its requests end with
status 4 (log 20). -/
def execTaskStart (m : Nat) (s : State) : Out State :=
  if m < nMoorings then
    match (s.moor m).startNow s.now with
    | some n => .next (if (s.moor m).st = .idle ∧ s.boot = .up ∧ s.thermalHold = false ∧ s.withheld m = false then s.startTask m n else s.failSlots m n 0)
    | none => .next s
  else .fault .noSuchUnit

/-- R34: the task is complete. -/
def State.taskDone (s : State) (m : Nat) : Bool :=
  (s.moor m).atEnd && s.coresDone m && s.channels.all fun e => (e.2.tl m).isNone

/-- The output of a slot: its length stands in its first eight bytes (R288); a length beyond OSTRIDE is cut to it (log 20). -/
def State.output (s : State) (m i : Nat) : List Byte :=
  let k := s.moor m
  let va := k.outarea + i * k.ostride
  let n := Nat.min (leNat ((s.moorBytes m va 8).getD [])) (k.ostride - 8)
  (s.moorBytes m (va + 8) n).getD []

/-- The task ends: its replies in ascending slot order. -/
def State.finishTask (s : State) (m : Nat) : State :=
  let k := s.moor m
  let s1 := (k.openSlots k.task).foldl (fun t p => t.reply m 1 p.req 0 (t.output m p.slot)) s
  (s1.updMoor m fun x => { x with st := .idle, launched := [], slots := x.slots.filter fun p => p.task != k.task }).servePreempt m

/-- The task has run beyond its compiled cycle count (R61). -/
def Mooring.overdue (k : Mooring) (now : Nat) : Bool := k.st == .running && !k.loose && decide (k.started + k.k < now)

/-- `TASK_COMPLETE`: the end of a task, or the fault of one that is not complete by its compiled cycle count (R61; log 20). -/
def execTaskComplete (m : Nat) (s : State) : Out State :=
  if m < nMoorings then
    if (s.moor m).overdue s.now then .next (s.moorFault m 0)
    else if (s.moor m).st = .running ∧ s.taskDone m then .next (s.finishTask m)
    else .next s
  else .fault .noSuchUnit

/-- A core is not DONE by its launch's cycle count: the first cycle after it. -/
def State.lateCore (s : State) (m c : Nat) : Bool :=
  !(s.moor m).loose && (s.moor m).st.active && s.coreRuns m c && (s.moor m).launched.any fun l => l.core == c && decide (l.limit + 1 = s.now)

/-- `LAUNCH_CYCLE_LIMIT` (R34). -/
def execLaunchCycleLimit (m core : Nat) (s : State) : Out State :=
  if m < nMoorings ∧ core < nCores then .next (if s.lateCore m core then s.coreFault core 0 else s) else .fault .noSuchUnit

end Sys2Proof.Machine
end

