-- ==== Sys2Proof/Machine/Preempt.lean ====
section
/-! DEFINITION. Sys2Proof/Machine/Preempt.lean: stopping a task and going on with it: node pre-emption, forced pre-emption, parks of loose
mode, resumption, discard, and the streamer (R55 to R58, R192, R309 to R314, R319, R324 to R327). -/

namespace Sys2Proof.Machine
open Config

/-! ### The cores of a task, their accesses and what these hold -/

/-- The cores of a mooring's task whose primary runs, in ascending order. -/
def State.taskCores (s : State) (m : Nat) : List Nat :=
  s.coreIds.filter fun c => (s.core c).prim.run == .running && (s.moor m).launched.any fun l => l.core == c && l.begun

/-- The cores that a mooring's task has started, in ascending order: those of `taskCores`, and those that have issued `DONE`. -/
def State.begunCores (s : State) (m : Nat) : List Nat :=
  s.coreIds.filter fun c => (s.moor m).launched.any fun l => l.core == c && l.used

/-- An access of the primary of a core that has its fixed cycle. -/
def Access.fixedOf (a : Access) (c : Nat) : Bool := a.owner == .seq c .primary && !a.wait

/-- A merge-add keeps its granule locked. -/
def AKind.locks : AKind → Bool
  | .ebbRead _ _ | .ebbWrite _ _ _ _ => true
  | _ => false

/-- A bank-cycle or a lock that an access holds. -/
def State.holdOf (s : State) (a : Access) (h : HoldRec) : Bool :=
  h.own == .prim && (s.accessUses a a.t).any fun u => h.res == u.res && (match h.gran with
    | none => h.t == u.t
    | some g => g == u.gran && a.kind.locks)

/-- The accesses of cores that stop hold nothing any more. -/
def State.unhold (s : State) (cs : List Nat) : State :=
  let l := s.accesses.filter fun a => cs.any a.fixedOf
  { s with holds := s.holds.filter fun h => !(l.any fun a => s.holdOf a h) }

/-- An access holds its bank-cycles, and its lock, again. -/
def State.reholdOne (s : State) (a : Access) : State :=
  let us := s.accessUses a a.t
  match a.kind with
  | .ebbRead _ _ => (s.addHold .prim us).lockGran .prim us (a.t + 24)
  | .ebbWrite _ _ _ _ => { s with holds := s.holds ++ us.map fun u => ⟨s.now, a.t, u.res, some u.gran, .prim, s.now, u.gran⟩ }
  | _ => s.addHold .prim us
def State.rehold (s : State) (cs : List Nat) : State := (s.accesses.filter fun a => cs.any a.fixedOf).foldl State.reholdOne s

/-! ### Time that a task stands still (R53, R57, R313) -/

/-- What the hazard monitor knows moves with the task's clock (R167, R185). -/
def Mesh.shift (k : Mesh) (d : Nat) : Mesh :=
  let p := k.plan
  { k with lastStart := k.lastStart + d, plan := ⟨p.dataEnd + d, p.loadEnd + d, p.readyA + d, p.readyS + d⟩ }

/-- Nothing ends later than a cycle. -/
def MeshTimes.upTo (k : MeshTimes) (t : Nat) : MeshTimes := ⟨Nat.min k.dataEnd t, Nat.min k.loadEnd t, Nat.min k.readyA t, Nat.min k.readyS t⟩

/-- Everything of a core's primary that is due from cycle f on comes d cycles later. -/
def Core.shift (k : Core) (f d : Nat) : Core :=
  { k with
    prim := k.prim.shift d
    busy := k.busy.map fun t => if f < t then t + d else t
    recv := k.recv.map fun r => if f ≤ r.cycle then { r with cycle := r.cycle + d } else r
    mesh := k.mesh.shift d }

def Access.shift (a : Access) (cs : List Nat) (f d : Nat) : Access :=
  if cs.any fun c => a.owner == .seq c .primary then { a with t := if f ≤ a.t then a.t + d else a.t, issued := a.issued + d } else a

def Launched.shift (d : Nat) (l : Launched) : Launched := { l with limit := l.limit + d, due := l.due + d }
def Mooring.shift (k : Mooring) (d : Nat) : Mooring :=
  { k with
    started := k.started + d, nodeAt := k.nodeAt + d, launched := k.launched.map (Launched.shift d)
    waiting := k.waiting.map fun w => { w with limit := w.limit + d } }

/-- The task of some cores stood still from cycle f on, for d cycles. -/
def State.shiftTask (s : State) (m : Nat) (cs : List Nat) (f d : Nat) : State :=
  let s1 := cs.foldl (fun t c => t.updCore c fun k => k.shift f d) s
  { s1.updMoor m fun k => k.shift d with accesses := s1.accesses.map fun a => a.shift cs f d }

/-! ### Timelines that are held (R57) -/

/-- The open banks of a mooring's timeline on a channel. -/
def Channel.openOf (k : Channel) (m : Nat) : List (Nat × Bank) := k.banks.filter fun e => e.2.isOpen && e.2.actOwner == m

/-- A mooring's timelines are held: the controller closes the banks that they leave open, and opens them again when they go on (log 21). -/
def State.holdTls (s : State) (m : Nat) : State :=
  (s.channels.filter fun e => (e.2.tl m).isSome).foldl (fun t e =>
    let own := s.windowOwner e.1 (clockOf s.now / windowClocks) == m
    let rows := e.2.openOf m
    let t1 := t.updMoor m fun k => { k with heldRows := k.heldRows ++ rows.map fun b => (e.1, b.1, b.2) }
    if rows.isEmpty then t1
    else (t1.updChan e.1 fun k => { k with
      banks := k.banks.map fun b => if b.2.isOpen && b.2.actOwner == m then (b.1, { b.2 with cleanup := true }) else b
      houseNow := k.houseNow || own }).cleanNow e.1) s

def laterBy (n : Nat) (o : Option Nat) : Option Nat := o.map (· + n)
def Tl.shift (t : Tl) (frames : Nat) : Tl :=
  { t with
    started := t.started + frames * frameCycles, w0 := t.w0 + frames * nWindows, due := t.due + frames * frameClocks
    nmxEnd := t.nmxEnd + frames * frameClocks }
/-- A bank as the held timeline left it. -/
def Bank.reopen (now old : Bank) (n : Nat) : Bank :=
  { now with
    row := old.row, closeAt := none, cleanup := false, act := laterBy n old.act, pre := laterBy n old.pre, rdc := laterBy n old.rdc
    wrc := laterBy n old.wrc, actWord := old.actWord, actOwner := old.actOwner }

/-- The held timelines of a mooring go on, whole frames later. -/
def State.resumeTls (s : State) (m frames : Nat) : State :=
  let s1 := (s.channels.filter fun e => (e.2.tl m).isSome).foldl (fun t e =>
    t.updChan e.1 fun k => { k with tls := k.tls.map fun l => if l.owner = m then l.shift frames else l }) s
  ((s.moor m).heldRows.foldl (fun t r => t.updChan r.1 fun k =>
    k.updBank (r.2.1 / 16) (r.2.1 % 16) fun b => b.reopen r.2.2 (frames * frameClocks)) s1).updMoor m fun k => { k with heldRows := [] }

/-! ### Parking (R310, R313, R325, R326) -/

def countBits (n w : Nat) : Nat := (List.range w).foldl (fun a i => a + n / 2 ^ i % 2) 0
/-- Places and bytes to write one after the other, 16 bytes per cycle, in the cycles from t on; `n` bytes stand before them. -/
def paced (t : Nat) : Nat → List (Nat × List Byte) → List (Nat × Nat × List Byte)
  | _, [] => []
  | n, (a, b) :: l => (t + n / 16, a, b) :: paced t (n + b.length) l

/-- The place in the record of item i: the values of the registers, then their state bytes. -/
def streamPlace (i : Nat) : Nat × Nat := if i < 112 then (0x200 + 8 * i, 8) else (0x580 + (i - 112), 1)

/-- The bytes [off, off + n) of a record in pieces of at most 16. -/
def recPieces (bytes : List Byte) (off n : Nat) : List (Nat × List Byte) :=
  (List.range (ceilDiv n 16)).map fun i => (off + 16 * i, (bytes.drop (off + 16 * i)).take (Nat.min 16 (n - 16 * i)))

/-- What a core that stands still from cycle f on writes of its record, as R325 orders it, from cycle t on: the registers that differ
from the record, the fields without VALID, QCOUNT and the queue, and VALID (log 21). -/
def Core.recordWrites (k : Core) (at_ f t : Nat) : List (Nat × Nat × List Byte) :=
  let bytes := k.prim.recBytes f true
  let settled := (k.prim.landLocal (Nat.max k.prim.nextAt f)).resolve
  let dirty := k.dirty ||| dirtyBits k.prim settled
  let items := ((List.range 224).filter fun i => dirty.getLsbD i).map fun i => ((streamPlace i).1, (bytes.drop (streamPlace i).1).take (streamPlace i).2)
  let t1 := t + ceilDiv (items.foldl (fun n p => n + p.2.length) 0) 16
  let fields := recPieces (bytes.set 0xB ((bytes.getD 0xB 0) &&& 0xFE)) 0 0x200
  let queue := recPieces bytes 0x800 (bytes.length - 0x800)
  (paced t 0 items ++ paced t1 0 fields ++ [(t1 + 32, 0x600, (bytes.drop 0x600).take 4)] ++ paced (t1 + 33) 0 queue
    ++ [(t1 + 33 + queue.length, 0xB, [bytes.getD 0xB 0])]).map fun (p : Nat × Nat × List Byte) => (p.1, at_ + p.2.1, p.2.2)

/-- The last cycle in which a core writes its record. -/
def Core.recordEnd (k : Core) : Nat := maxOf (k.recwr.map (·.1))

/-- A core of a parked task stands still from cycle f on. Its record is written at once, or, after a forced pre-emption, from the next
cycle on. A step that has not ended ends with a park that a trap brings (R327). -/
def State.parkCore (s : State) (c f : Nat) (late : Bool) : State :=
  let k := s.core c
  let x := if late then k.prim else { k.prim with stepping := false }
  let s1 := if late then s else s.putClean (s.recAt c .primary) (x.recBytes f true)
  s1.updCore c fun k => { k with
    prim := { x with frozen := some f, flags := 0 }, dirty := 0
    recwr := if late then k.recordWrites (s.recAt c .primary) f (s.now + 1) else [] }

/-- A core that has issued `DONE` stands still with its task: what it has in flight moves with `TCLK` (R313). -/
def State.parkDone (s : State) (c f : Nat) : State := s.updSeq c .primary fun x => { x with frozen := some f }

/-- A task parks: every core stands still from cycle f on. -/
def State.parkTask (s : State) (m f : Nat) (forced : Bool) : State :=
  let ms := s.begunCores m
  let s1 := (if (s.moor m).loose then s else s.holdTls m).unhold ms
  let s2 := ms.foldl (fun t c => if (t.core c).prim.run == .running then t.parkCore c f forced else t.parkDone c f) s1
  (s2.updMoor m fun k => { k with
    st := .parked, frozen := some f, forced := forced
    vwrite := if forced then some (maxOf (ms.map fun c => (s2.core c).recordEnd)) else none }).servePreempt m

/-- The end of a cycle in which a trap parks a task in loose mode: TCLK goes on from the next cycle, or from this one after a flag trap
(R317). A task that a node pre-emption has stopped keeps its cycle. -/
def State.parkEnd (s : State) (m : Nat) : State :=
  let f := if (s.taskCores m).any fun c => (s.core c).prim.frozen == some s.now then s.now else s.now + 1
  s.parkTask m ((s.moor m).frozen.getD f) false

/-- A core writes what it has of its record to write in this cycle (R325). -/
def State.writePieces (s : State) (c : Nat) : State :=
  ((s.core c).recwr.filter fun p => p.1 == s.now).foldl (fun t p => t.putClean p.2.1 p.2.2)
    (s.updCore c fun k => { k with recwr := k.recwr.filter fun p => decide (s.now < p.1) })

/-! ### Forced pre-emption (R56, R58, R183, R192, R325) -/

/-- After the bundle at p, a loop marked `.pre` goes to its next iteration. -/
def preStep (p : Addr) : List LoopEnt → Bool
  | [] => false
  | e :: l => if e.stop ≠ p then false else if (if e.rev then 0 < e.index else e.index + 1 < e.count) then e.pre else preStep p l

/-- The next bundle of a sequencer is the first of an iteration of a loop marked `.pre`. -/
def SeqState.atPre (x : SeqState) : Bool :=
  x.pend && (match x.branch with
    | some (0, _) => false
    | _ => preStep x.lastPc x.loops)

/-- Nothing of the task is outstanding but `ARRSWEEP` (R56, R443). -/
def State.eligible (s : State) (m : Nat) : Bool :=
  let cs := s.begunCores m
  !(s.cmds.any fun c => !c.ended && c.mooring == some m && c.q == .primary && c.opc != 0x04)
    && !(s.accesses.any fun a => match a.kind, a.owner with
      | .send _ _ _ _, .seq c .primary => cs.contains c
      | _, _ => false)
    && cs.all fun c => (s.core c).recv.all (fun r => decide (r.cycle < s.now)) && !((s.core c).prim.queue.any fun e => e.eff.isWatch)

/-- The cores of a task at which a requested forced pre-emption lands in this cycle. -/
def State.landingAt (s : State) (m : Nat) : List Nat :=
  let k := s.moor m
  if k.preempt.isEmpty = false ∧ k.st = .running ∧ s.eligible m then
    (s.taskCores m).filter fun c =>
      let x := (s.core c).prim
      x.atPre && x.frozen.isNone && decide (x.nextAt ≤ s.now) && (match x.hold with
        | .none => true
        | _ => false)
  else []

/-- A sweep in progress stops after its phase, unless its last elimination has ended (R192). DESIGN CHOICE (log 40): one that still reads
its record, for which R192 names no phase, reads it to the end and writes it again, or ends where its `next` is its last. -/
def State.stopSweep (s : State) (c : Nat) : State :=
  s.updMesh c fun k => { k with sweep := k.sweep.map fun w => if w.next < w.b.elims then { w with stopping := true } else w }

/-- `FORCED_PREEMPTION_LANDING`: the due bundles issue only after resumption. -/
def execForcedPreemptionLanding (m : Nat) (s : State) : Out State :=
  if m < nMoorings then
    let cs := s.landingAt m
    if cs.isEmpty then .next s
    else
      let k := s.moor m
      let s1 := cs.foldl (fun t c =>
        let x := (t.core c).prim
        (t.updSeq c .primary fun x => x.cause ⟨0x14, none, 0, true⟩ x.lastPc).faultRecord m k.task c 0x14 true 0 (x.lastPc.setWidth 64) (t.core c).engst) s
      .next ((s.begunCores m).foldl State.stopSweep (s1.parkTask m s.now true))
  else .fault .noSuchUnit

/-! ### Node pre-emption (R55, R334) -/

/-- `NODE_PREEMPTION`: the stream stops before its next node; the Pilot keeps the command pointer and `H0` to `H3`. -/
def execNodePreemption (m : Nat) (s : State) : Out State :=
  if m < nMoorings then
    let k := s.moor m
    if k.preempt.isEmpty = false ∧ k.st = .running ∧ 0 < k.nodesRun ∧ k.nodeAt = s.now ∧ k.waiting = none ∧ k.atEnd = false then
      let cs := s.begunCores m
      let hs := (k.launched.filter (·.begun)).map fun l => (l.core, ((s.core l.core).h.toList).take 4)
      let s1 := (if k.loose then s else s.holdTls m).unhold cs
      .next (((cs.foldl (fun t c => t.updSeq c .primary fun x => { x with frozen := some s.now }) s1).updMoor m fun k => { k with
        st := .nodeStopped, frozen := some s.now, savedH := hs, vwrite := none, forced := false }).servePreempt m)
    else .next s
  else .fault .noSuchUnit

/-! ### Resumption (R57, R309, R314, R327) -/

/-- The records of a parked task's cores allow its resumption. -/
def State.recordsOk (s : State) (m : Nat) : Bool :=
  (s.moor m).st != .parked || (s.taskCores m).all fun c => (s.readRecord c .primary).ok

/-- The first cycle from t on at the phase at which the task stopped, after VALID is written (R57, R325). -/
def Mooring.earliest (k : Mooring) (t : Nat) : Nat :=
  let f := k.frozen.getD 0
  let b := Nat.max t (match k.vwrite with
    | some v => v + 1
    | none => t)
  b + (frameCycles - (b - f) % frameCycles) % frameCycles

/-- A sweep still writes its record (R192). -/
def State.sweepStops (s : State) (m : Nat) : Bool :=
  (s.begunCores m).any fun c => match (s.mesh c).sweep with
    | some w => w.stopping
    | none => false

/-- The resumption that the Pilot has taken comes in this cycle. -/
def State.resumesNow (s : State) (m : Nat) : Bool :=
  let k := s.moor m
  match k.resuming with
  | some r => decide (r.when_ ≤ s.now) && k.earliest s.now == s.now && !s.sweepStops m && !s.thermalHold
  | none => false

/-- A core goes on from its record; one that has issued `DONE` lets what it has in flight go on. -/
def State.restoreCore (s : State) (m c : Nat) : State :=
  if (s.core c).prim.run ≠ .running then s.updSeq c .primary fun x => { x with frozen := none }
  else
    let r := s.readRecord c .primary
    let s1 := s.updSeq c .primary fun x => r.restore x s.now
    (s1.updSeq c .primary fun x => { x with lamps := s1.lampsOf (.pins m) c x.lampSrc }).clearValid c .primary

/-- A core goes on where it stood, with the `H0` to `H3` that the Pilot kept. -/
def State.restoreH (s : State) (x : Nat × List Reg) : State :=
  s.updCore x.1 fun k => { k with h := Vector.ofFn fun (i : Fin 32) => if i.val < 4 then x.2.getD i.val Reg.zero else k.h.getD i.val Reg.zero }

/-- Commands that wait for their START count it in the task's TCLK. -/
def State.shiftStarts (s : State) (m f d : Nat) : State :=
  { s with cmds := s.cmds.map fun c =>
      if c.mooring = some m ∧ c.q = .primary ∧ c.st = .waiting ∧ c.ended = false ∧ f ≤ c.start then { c with start := c.start + d } else c }

/-- A parked or stopped task goes on in this cycle. -/
def State.resumeTask (s : State) (m : Nat) (r : Resuming) : State :=
  let k := s.moor m
  let f := k.frozen.getD s.now
  let d := s.now - f
  let cs := s.begunCores m
  let s1 := s.shiftTask m cs f d
  let s2 := if k.loose then s1 else (s1.shiftStarts m f d).resumeTls m (d / frameCycles)
  let sh := k.savedH.foldl State.restoreH s2
  let s3 := if k.st = .parked then cs.foldl (fun t c => t.restoreCore m c) sh
    else cs.foldl (fun t c => t.updSeq c .primary fun x => { x with frozen := none }) sh
  let s4 := match r.step with
    | some c => s3.updSeq c .primary fun x => { x with stepping := true }
    | none => s3
  (((s4.updMoor m fun k => { k with
    st := .running, frozen := none, resuming := none, forced := false, vwrite := none, savedH := [] }).rehold cs).startCores m).complete 0x83 m r.seq []

/-- `PREEMPTED_TASK_RESUME`. Records that do not allow it leave the task parked, and the command is refused (R314). -/
def execPreemptedTaskResume (m : Nat) (s : State) : Out State :=
  if m < nMoorings then
    match (s.moor m).resuming with
    | some r =>
      if s.resumesNow m then
        .next (if s.recordsOk m then s.resumeTask m r else (s.updMoor m fun k => { k with resuming := none }).complete 0x84 m r.seq [])
      else .next s
    | none => .next s
  else .fault .noSuchUnit

/-! ### Requests of a parked task (R57) -/

/-- The requests of a task that it can no longer answer in time (R57). DEDUCED from R3 (log 20): the same holds of a task that a node
pre-emption or a trap of loose mode has stopped, and of one that runs in loose mode, which can end no earlier than now. -/
def State.lateRequests (s : State) (m : Nat) : List Placed :=
  let k := s.moor m
  let done : Nat := match k.st with
    | .parked | .nodeStopped => k.started + k.k + (k.earliest (match k.resuming with
        | some x => Nat.max s.now x.when_
        | none => s.now) - k.frozen.getD 0)
    | .running | .parking => if k.loose then s.now else 0
    | _ => 0
  (k.openSlots k.task).filter fun p => decide (p.req.deadlineAt < done + k.replyb) && decide (0 < done)

/-- `PARKED_REQUEST_DEADLINE_CHECK`: the task keeps the slot, and no result is sent for it. -/
def execParkedRequestDeadlineCheck (m : Nat) (s : State) : Out State :=
  if m < nMoorings then
    let l := s.lateRequests m
    .next ((l.foldl (fun t p => t.reply m 4 p.req 0 []) s).updMoor m fun k => { k with
      slots := k.slots.map fun p => if l.contains p then { p with req := { p.req with answered := true } } else p })
  else .fault .noSuchUnit

/-! ### Discard (R191, R292, R319) -/

/-- A record that a discard finds half written is left with VALID = 0 (R325). -/
def State.cutRecord (s : State) (c : Nat) : State :=
  let t := s.writePieces c
  if (t.core c).recwr.isEmpty then t
  else
    let at_ := t.recAt c .primary + 0xB
    t.putClean at_ [BitVec.ofNat 8 (t.num at_ 1) &&& 0xFE]

/-- A core's primary stops at the end of the discard cycle: a core that faulted writes its record, where it has none yet, and another records
CAUSE 0x21 (R310, R319), also where it has issued `DONE`. -/
def State.discardCore (s0 : State) (m c : Nat) : State :=
  let x := (s0.core c).prim
  let s := s0.cutRecord c
  let k := s.moor m
  let s1 :=
    if x.recorded then s
    else if x.faulted then if (s0.core c).recwr.isEmpty then s.writeRecord c .primary (x.frozen.getD (s.now + 1)) else s
    else (s.updSeq c .primary fun y => y.cause ⟨0x21, none, 0, true⟩ y.lastPc).faultRecord m k.task c 0x21 false 0 (x.lastPc.setWidth 64) (s.core c).engst
  s1.updCore c fun y => { y with
    prim := { y.prim with run := .ended, queue := [], hold := .none, faulted := false, recorded := false, frozen := none, stepping := false, branch := none, delay := 0 }
    q0 := [], recv := [], recwr := []
    mesh := { y.mesh with
      sweep := none, gang := 0, gangPlan := 0, lastStart := Nat.min y.mesh.lastStart (s.now + 1)
      plan := y.mesh.plan.upTo (s.now + 1), live := y.mesh.live.upTo (s.now + 1) } }

/-- A command of a discarded task stops. -/
def State.discardCmd (s : State) (c : Cmd) : State :=
  let s1 := (s.dropWork c.id).endCmd c.id .faulted
  match c.cls with
  | .copy => s1.updCopy c fun k => { k with runEnd := Nat.min k.runEnd (s.now + 1) }
  | _ => s1

/-- Requests of dropped commands leave the open share, and blocks of a mooring leave the queues. -/
def Channel.discard (k : Channel) (m : Nat) (ids : List Nat) : Channel :=
  { k with
    nmq := k.nmq.filter fun b => b.mooring != m
    openq := k.openq.filter fun r => !(ids.any fun i => r.who == .cmd i) }

/-- The cores that a discard stops: those that the task has run a program on, and any other in which a fault was raised (R49, R412). -/
def State.discardCores (s : State) (m : Nat) : List Nat :=
  s.coreIds.filter fun c => ((s.moor m).launched.any fun l => l.core == c && l.used) || ((s.core c).prim.faulted && s.moorOf c == some m)

/-- The work of a mooring's task still in flight is dropped, at the end of the discard cycle. -/
def State.discardTask (s : State) (m : Nat) : State :=
  let k := s.moor m
  let all := s.discardCores m
  let cmds := s.cmds.filter fun c => !c.ended && c.mooring == some m && c.q == .primary
  let s1 := all.foldl (fun t c => t.discardCore m c) (s.unhold all)
  let s2 := { s1.dropFlits m with accesses := s1.accesses.filter fun a => a.owner != .late (some m) && !(all.any fun c => a.owner == .seq c .primary) }
  let s3 := cmds.foldl State.discardCmd s2
  let s4 := (s3.channels.filter fun e => (e.2.tl m).isSome).foldl (fun t e => t.stopTl e.1 m) s3
  let s5 := s4.channels.foldl (fun t e => t.updChan e.1 fun c => c.discard m (cmds.map (·.id))) s4
  let s6 := (List.range 16).foldl (fun t i => if ((t.moor m).regions.getD i Region.off).sw then t.updRegion m i fun r => { r with sw := false } else t) s5
  let s7 := k.preempt.foldl (fun t q => t.complete 0x84 m q []) s6
  let s8 := match k.resuming with
    | some r => s7.complete 0x84 m r.seq []
    | none => s7
  (s8.updMoor m fun x => { x with
    st := .idle, frozen := none, launched := [], waiting := none, preempt := [], resuming := none, forced := false, vwrite := none, stepns := []
    heldRows := [], savedH := [] }).failSlots m k.task k.faultCode

/-- The discard cycle of a mooring's task has come. -/
def Mooring.discardsNow (k : Mooring) (now : Nat) : Bool :=
  match k.st with
  | .ending d => decide (d ≤ now)
  | _ => false

/-- `TASK_DISCARD`. -/
def execTaskDiscard (m : Nat) (s : State) : Out State :=
  if m < nMoorings then .next (if (s.moor m).discardsNow s.now then s.discardTask m else s) else .fault .noSuchUnit

/-! ### The streamer (R324) -/

/-- The streamer may write the bytes at a place now: its bank is free of what was known by the previous cycle, and of what performs now. -/
def State.streamFree (s : State) (pa n : Nat) : Bool :=
  (usesAt pa n s.now).all fun u =>
    !(s.holds.any fun h => h.hits u && decide (h.known < s.now)) && !(s.accesses.any fun a => a.t == s.now && (s.accessUses a s.now).any fun w => w.res == u.res)

/-- The dirty item that the streamer writes in this cycle (log 21: the lowest that it may). -/
def State.streamItem (s : State) (c : Nat) : Option (Nat × Nat) :=
  let k := s.core c
  let a := s.recAt c .primary
  if k.dirty = 0 ∨ k.prim.run ≠ .running ∨ k.prim.frozen.isSome
      ∨ (s.accesses.any fun b => b.t == s.now && b.slot == 2 && b.space == .own && (b.owner == .seq c .primary || b.owner == .seq c .secondary)) then none
  else ((List.range 224).find? fun i => k.dirty.getLsbD i && s.streamFree (a + (streamPlace i).1) (streamPlace i).2).map fun i => (i, a)

/-- `CONTEXT_STREAMER_WRITE`. -/
def execContextStreamerWrite (core : Nat) (s : State) : Out State :=
  if core < nCores then
    match s.streamItem core with
    | none => .next s
    | some (i, a) =>
      let r := (fileRegs (s.core core).prim).getD (i % 112) Reg.zero
      let bs := if i < 112 then natBytes 8 r.val.toNat else [BitVec.ofNat 8 r.stateByte]
      .next ((s.putClean (a + (streamPlace i).1) bs).updCore core fun k => { k with dirty := k.dirty &&& ~~~(BitVec.ofNat 224 (2 ^ i)) })
  else .fault .noSuchUnit

/-! ### The task clock of loose mode (R326) -/

/-- A core holds its task's clock: an access or a result has not arrived by its scheduled cycle, or a bundle waits for `Q0`. -/
def State.holdsClock (s : State) (c : Nat) : Bool :=
  let x := (s.core c).prim
  s.waited.contains c || (x.queue.any fun e => e.varLat && decide (e.due ≤ s.now + 1) && (e.held.isSome || decide (s.now + 1 < e.notBefore)))
    || s.accesses.any fun a => a.owner == .seq c .primary && a.wait && decide (a.t ≤ s.now)

/-- The clock of a loose task stands still for a cycle. -/
def State.holdClock (s : State) (m : Nat) : State :=
  let k := s.moor m
  let cs := s.begunCores m
  if k.loose ∧ k.st = .running ∧ (cs.any s.holdsClock) = true then ((s.unhold cs).shiftTask m cs (s.now + 1) 1).rehold cs else s

/-- What the end of a cycle brings to the tasks. -/
def State.tickTasks (s : State) : State :=
  (List.range nMoorings).foldl (fun t m =>
    let t1 := t.holdClock m
    if (t1.moor m).st = .parking then t1.parkEnd m else t1) (s.coreIds.foldl State.writePieces s)

end Sys2Proof.Machine
end

