-- ==== Sys2Proof/Machine/Host.lean ====
section
/-! DEFINITION. Sys2Proof/Machine/Host.lean: the commands of the submission ring, mooring loads, host accesses and host register
writes (R165, R203, R215, R226, R229, R252, R287, R293, R300, R311, R323, R331 to R336, R339, R340, R414, R447). -/

namespace Sys2Proof.Machine
open Config

/-! ### Submission entries (R332, R335) -/

/-- The reserved bytes are 0, LEN is the payload's, MOORING and ARG are 0 where the type does not use them. -/
def SubEntry.ok (e : SubEntry) (moor arg : Bool) (len : Nat → Bool) : Bool :=
  e.rsv == 0 && e.tail.all (· == 0) && e.len.toNat == e.payload.length && decide (e.payload.length ≤ 4032) && len e.payload.length
    && (if moor then decide (e.mooring.toNat < nMoorings) else e.mooring == 0) && (arg || e.arg == 0)

def State.done (s : State) (e : SubEntry) : State := s.complete 0x83 e.mooring.toNat e.seq []
def State.refuse (s : State) (e : SubEntry) : State := s.complete 0x84 e.mooring.toNat e.seq []

/-- An entry is the next one in ring order, below the submission tail (R332). -/
def State.isNext (s : State) (e : SubEntry) : Bool := e.seq == s.subHead && decide (s.subHead < s.subTail)

/-- The Pilot takes the next entry of the ring: a malformed one is refused. Without a Pilot image nothing is taken (R340). -/
def State.took (s : State) (e : SubEntry) (moor arg : Bool) (len : Nat → Bool) (f : State → State) : State :=
  if s.boot = .up ∧ s.isNext e = true then
    let s1 := { s with subHead := s.subHead + 1 }
    if SubEntry.ok e moor arg len then f s1 else s1.refuse e
  else s
def State.command (s : State) (e : SubEntry) (moor arg : Bool) (len : Nat → Bool) (f : State → State) : Out State := .next (s.took e moor arg len f)

/-- The effect where a condition holds; else the command is refused. -/
def State.ifOk (s : State) (e : SubEntry) (c : Bool) (f : State → State) : State := if c then f s else s.refuse e

/-- `HOST_LAUNCH_RECORD`: the record takes its place after those of the ports (R282). -/
def execHostLaunchRecord (e : SubEntry) (s : State) : Out State :=
  .next (s.took e true false (fun _ => true) fun t => t.check (.host e.mooring.toNat e.seq) ⟨e.payload⟩).decideLast

/-! ### Parked tasks (R314, R319, R327) -/

/-- A task is parked, and nothing has been asked of it yet. -/
def Mooring.waitsHost (k : Mooring) (nodes : Bool) : Bool := (k.st == .parked || (nodes && k.st == .nodeStopped)) && k.resuming.isNone

/-- Records that are already valid allow the resumption (R314). -/
def State.mayResume (s : State) (m : Nat) : Bool :=
  (match (s.moor m).vwrite with
    | some v => decide (s.now ≤ v)
    | none => false) || s.recordsOk m

/-- `RESUME_PARKED_TASK`. -/
def execResumeParkedTask (e : SubEntry) (s : State) : Out State :=
  let m := e.mooring.toNat
  s.command e true false (· == 0) fun t => t.ifOk e ((t.moor m).waitsHost true && t.mayResume m) fun t =>
    t.updMoor m fun k => { k with resuming := some ⟨e.seq, none, t.now + 1⟩ }

/-- `STEP`. -/
def execStepTask (e : SubEntry) (s : State) : Out State :=
  let m := e.mooring.toNat
  s.command e true true (· == 0) fun t =>
    t.ifOk e ((t.moor m).waitsHost false && (t.taskCores m).contains e.arg.toNat && t.mayResume m) fun t =>
      t.updMoor m fun k => { k with resuming := some ⟨e.seq, some e.arg.toNat, t.now + 1⟩ }

/-- `DISCARD_PARKED_TASK`: this cycle is the discard cycle. -/
def execDiscardParkedTask (e : SubEntry) (s : State) : Out State :=
  let m := e.mooring.toNat
  s.command e true false (· == 0) fun t => t.ifOk e ((t.moor m).waitsHost true) fun t =>
    (t.updMoor m fun k => { k with st := .ending t.now }).done e

/-! ### The error log and the counters (R323) -/

def execClearErrorLog (e : SubEntry) (s : State) : Out State :=
  s.command e false false (· == 0) fun t => { t with log := [], logOver := false }.done e

/-- An error source of R323. -/
def sourceOk (n : Nat) : Bool := n ≤ 0x180

def execClearErrorCounters (e : SubEntry) (s : State) : Out State :=
  let n := e.arg.toNat
  s.command e false true (· == 0) fun t => t.ifOk e (n == 0xFFFF || sourceOk n) fun t =>
    { t with counters := if n = 0xFFFF then [] else sset (0, 0) t.counters n (0, 0) }.done e

/-! ### Loading a mooring (R287, R293, R333) -/

/-- An address that R447 allows. -/
def placeOk (va : Nat) : Bool :=
  (decide (spadBase ≤ va) && decide (va < spadBase + nCores * spadBytes)) || (decide (poolBase ≤ va) && decide (va < poolBase + nClusters * poolBytes))
    || (decide (vaultBase ≤ va) && decide (va < vaultBase + nClusters * vaultBytes)) || (decide (codeBase ≤ va) && decide (va < 2 ^ 56))

/-- The payload of a load. -/
structure Load where
  bytes : List Byte
  deriving DecidableEq, Repr
def Load.num (l : Load) (lo n : Nat) : Nat := leNat ((l.bytes.drop lo).take n)

/-- The limits of R287, the reserved bytes and the counts of R333. -/
def Load.ok (l : Load) : Bool :=
  l.num 0 8 % 64 == 0 && decide (l.num 8 4 < 65536) && l.num 14 2 == 0
    && l.num 16 8 % frameCycles == 0 && decide (frameCycles ≤ l.num 16 8)
    && decide (1 ≤ l.num 24 8) && decide (l.num 24 8 + 64 ≤ l.num 16 8)
    && l.num 32 4 % 16 == 0 && decide (l.num 32 4 < frameCycles) && decide (2700 ≤ l.num 36 4) && decide (2700 ≤ l.num 40 4)
    && placeOk (l.num 48 8) && l.num 56 4 % 64 == 0 && decide (64 ≤ l.num 56 4)
    && placeOk (l.num 64 8) && l.num 60 4 % 64 == 0 && decide (64 ≤ l.num 60 4)
    && placeOk (l.num 72 8) && decide (l.num 80 2 ≤ 4096) && l.num 82 2 == 0 && l.num 87 1 == 0
    && (l.num 88 8 == 0 || (placeOk (l.num 88 8) && l.num 88 8 % 128 == 0)) && (l.num 96 8 == 0 || (placeOk (l.num 96 8) && l.num 96 8 % 32 == 0))
    && decide (l.num 112 2 ≤ 32) && l.num 114 6 == 0 && decide (1 ≤ l.num 128 2) && decide (l.num 128 2 ≤ 512) && l.num 130 6 == 0
    && decide (l.num 144 2 ≤ nChannels) && l.num 146 6 == 0 && decide (l.num 160 2 ≤ 64) && l.num 162 30 == 0 && l.num 224 288 == 0

def Load.cmask (l : Load) : BitVec 64 := BitVec.ofNat 64 (l.num 104 8)

/-- An entry of the pinned-mapping list. -/
def pinOf (b : List Byte) : Pin := ⟨leNat (b.take 8), BitVec.ofNat 64 (leNat ((b.drop 8).take 8)), (b.getD 16 0).toNat⟩
/-- The checks on it. DESIGN CHOICE (log 39): a mapping of 2 MiB or 1 GiB over an SRAM window, whose pages R207 gives as 64 KiB, is taken, and
used as it stands. -/
def pinOk (b : List Byte) : Bool :=
  let p := pinOf b
  b.length == 24 && decide (p.psize ≤ 2) && p.vbase % pageBytes p.psize == 0 && entV p.entry.toNat && entLeaf p.entry.toNat && (b.drop 17).all (· == 0)

/-- Fields of a channel entry. -/
def chNum (e : ChanEntry) (lo n : Nat) : Nat := leNat ((e.head.drop lo).take n)
def chOk (e : ChanEntry) : Bool :=
  e.head.length == 32 && decide (chNum e 0 2 < nChannels) && decide (1 ≤ chNum e 4 2) && decide (chNum e 4 2 ≤ 8192) && chNum e 6 2 == 0
    && chNum e 16 16 == 0 && e.words.length == chNum e 4 2

/-- Fields of a group entry. -/
def grpNum (e : GrpEntry) (lo n : Nat) : Nat := leNat ((e.head.drop lo).take n)
def grpOk (e : GrpEntry) : Bool :=
  e.head.length == 16 && decide (2 ≤ grpNum e 2 2) && decide (grpNum e 2 2 ≤ 512) && grpNum e 4 4 == 0 && e.devices.length == grpNum e 2 2
    && e.devices.all fun d => decide (d.toNat < 512)

def noRepeats : List Nat → Bool
  | [] => true
  | a :: l => !l.contains a && noRepeats l

/-- The ranges (first, count) that other moorings hold in a set of registers with fields [15:0] and [31:16]. -/
def rangesOf (regs : Vector (BitVec 64) 12) (m : Nat) : List (Nat × Nat) :=
  (List.range nMoorings).filterMap fun j =>
    let r := (regs.getD j 0).toNat
    if j = m ∨ bits r 16 16 = 0 then none else some (bits r 0 16, bits r 16 16)

/-- A range of n places from `base` on is free below `limit`. -/
def rangeFree (used : List (Nat × Nat)) (limit n base : Nat) : Bool :=
  decide (base + n ≤ limit) && used.all fun u => decide (base + n ≤ u.1) || decide (u.1 + u.2 ≤ base)

/-- The Pilot's choice of a range (log 13): its own where that is free, else the lowest. -/
def allocate (used : List (Nat × Nat)) (limit n want : Nat) : Option Nat :=
  if n = 0 then some 0 else (want :: 0 :: used.map fun u => u.1 + u.2).find? (rangeFree used limit n)

/-- Rows of a bank, and words of a timeline store (R217, R218). -/
def bankRows : Nat := 16384
def storeWords : Nat := 8192

/-- The registers and the store of a channel with a mooring's entry, if it can be allocated. -/
def State.placeChan (s : State) (m : Nat) (e : ChanEntry) : Option (Nat × Channel) :=
  let c := chNum e 0 2
  let k := s.chan c
  let n := chNum e 2 2
  let w := chNum e 4 2
  match allocate (rangesOf k.tlrgn m) bankRows n (pilotRow c m), allocate (rangesOf k.tlstore m) storeWords w (pilotWord c m) with
  | some r, some b => some (c, { k with
      tlrgn := k.tlrgn.setIfInBounds m (BitVec.ofNat 64 (n * 65536 + r))
      tlstore := k.tlstore.setIfInBounds m (BitVec.ofNat 64 (w * 65536 + b))
      store := ((List.range w).zip e.words).foldl (fun l x => sset 0 l (b + x.1) x.2) k.store })
  | _, _ => none

/-- A sum of watts as a fraction. -/
def addWatts (x : Nat × Nat) (energy period : Nat) : Nat × Nat := (x.1 * period + energy * microCycles * x.2, x.2 * period)

/-- The power of the loaded moorings (R293). -/
def State.watts (s : State) : Nat × Nat :=
  (List.range nMoorings).foldl (fun x m =>
    let k := s.moor m
    if k.loaded then addWatts x k.energy k.period else x) (s.fixedDraw, 1)

def fitsCap (x : Nat × Nat) (cap : Nat) : Bool := decide (x.1 ≤ cap * x.2)

/-- The first cycle after this one at a frame phase (R288). -/
def firstAt (now phase : Nat) : Nat := now + 1 + (phase + frameCycles - (now + 1) % frameCycles) % frameCycles

/-- The mooring that a payload describes. -/
def Load.mooring (l : Load) (now : Nat) (pins : List (List Byte)) (chans : List ChanEntry) (grps : List GrpEntry) : Mooring :=
  { Mooring.init with
    loaded := true, stream := l.num 0 8, entry := l.num 8 4, bcap := l.num 12 2, period := l.num 16 8, k := l.num 24 8, phase := l.num 32 4
    lead := l.num 36 4, replyb := l.num 40 4, energy := l.num 44 4, inarea := l.num 48 8, istride := l.num 56 4, ostride := l.num 60 4
    outarea := l.num 64 8, worktab := l.num 72 8, workn := l.num 80 2, gstep := BitVec.ofNat 64 (l.num 84 3)
    ebbtab := BitVec.ofNat 64 (l.num 88 8), lens := BitVec.ofNat 64 (l.num 96 8), cmask := l.cmask, poolpg := l.num 112 2
    key := BitVec.ofNat 256 (l.num 192 32), pins := pins.map pinOf, chans := chans.map fun e => chNum e 0 2
    groups := grps.map fun e => (grpNum e 0 2, e.devices), t0 := firstAt now (l.num 32 4) }

/-- The cores of a set of clusters. -/
def coresOf (cmask : BitVec 64) : List Nat := (clustersOf cmask).flatMap fun g => (List.range coresPerCluster).map fun i => coresPerCluster * g + i

/-- The slots of tasks whose seal lies before the load are written empty. -/
def State.pastSeals (s : State) (m : Nat) : State :=
  let k := s.moor m
  let n := if k.t0 ≤ s.now + k.lead then (s.now + k.lead - k.t0) / k.period + 1 else 0
  (List.range (Nat.min n 2)).foldl (fun t i => t.writeSlots m i) s

/-- A load that all checks allow. -/
def State.install (s : State) (m : Nat) (k : Mooring) (chs : List (Nat × Channel)) : State :=
  let s1 := chs.foldl (fun t c => t.setChan c.1 c.2) (s.setMoor m k)
  let s2 := (coresOf k.cmask).foldl (fun t c => t.updCore c fun x => { x with mesh := Mesh.init }) s1
  (s2.readRegions m).pastSeals m

/-- The conditions of R333 on a load. -/
def State.loadOk (s : State) (m : Nat) (l : Load) (pins : List (List Byte)) (chans : List ChanEntry) (grps : List GrpEntry) : Bool :=
  let others := (List.range nMoorings).filter fun j => (s.moor j).loaded
  l.ok && !(s.moor m).loaded && others.all (fun j => (s.moor j).cmask &&& l.cmask == 0)
    && pins.length == l.num 128 2 && pins.all pinOk && chans.length == l.num 144 2 && chans.all chOk && noRepeats (chans.map fun e => chNum e 0 2)
    && grps.length == l.num 160 2 && grps.all grpOk && noRepeats (grps.map fun e => grpNum e 0 2)
    && fitsCap (addWatts s.watts (l.num 44 4) (l.num 16 8)) s.powerCap

/-- `LOAD_MOORING`. -/
def execLoadMooring (e : SubEntry) (pins : List (List Byte)) (chans : List ChanEntry) (grps : List GrpEntry) (s : State) : Out State :=
  let m := e.mooring.toNat
  s.command e true false (· == 512) fun t =>
    let l : Load := ⟨e.payload⟩
    let chs := chans.map (t.placeChan m)
    t.ifOk e (t.loadOk m l pins chans grps && chs.all (·.isSome)) fun t =>
      (t.install m (l.mooring t.now pins chans grps) (chs.filterMap id)).done e

/-! ### Secondary streams, loose mode, pre-emption (R334) -/

/-- The secondary of a core starts: its first bundle issues within 4,096 cycles (log 10), at the image address as it stands (log 22). -/
def State.startSecondary (s : State) (c : Nat) (image : Addr) (args : List Word) : State :=
  let d := s.now + 1 + freeNat s.free % 4096
  { s with free := s.free + 1 }.updCore c fun k => { k with
    sec := { SeqState.init with
      run := .running, pc := image, nextAt := d, tbase := d, queue := k.sec.queue
      m := Vector.ofFn fun i => if i.val < 8 then argReg args i.val else Reg.zero
      lamps := s.lampsOf (.walk (c / coresPerCluster)) c (lampTableOf image), lampSrc := lampTableOf image, lastIssue := d } }

/-- `START_SECONDARY_STREAM`. -/
def execStartSecondaryStream (e : SubEntry) (s : State) : Out State :=
  let c := e.arg.toNat
  let num (lo n : Nat) : Nat := leNat ((e.payload.drop lo).take n)
  s.command e false true (· == 128) fun t =>
    t.ifOk e (decide (c < nCores) && num 8 56 == 0 && decide (num 0 8 < 2 ^ 56) && (t.core c).sec.run != .running) fun t =>
      (t.startSecondary c (BitVec.ofNat 56 (num 0 8)) ((List.range 8).map fun i => BitVec.ofNat 64 (num (64 + 8 * i) 8))).done e

/-- `STOP_SECONDARY_STREAM`: done when its last result has landed and its last access has performed. -/
def execStopSecondaryStream (e : SubEntry) (s : State) : Out State :=
  let c := e.arg.toNat
  s.command e false true (· == 0) fun t => t.ifOk e (decide (c < nCores) && (t.core c).sec.run == .running) fun t =>
    { t.updSeq c .secondary fun x => { x with run := .ended, hold := .none } with secStops := t.secStops ++ [(c, e.seq, t.now)] }

/-- Everything that a core's secondary had issued by a cycle is done. -/
def State.secQuiet (s : State) (c t : Nat) : Bool :=
  ((s.core c).sec.queue.all fun e => decide (t < e.issued)) && s.accesses.all fun a => a.owner != .seq c .secondary || decide (t < a.issued)

/-- Stop commands that are done by the end of a cycle: what the stream had issued before the stop is done (R334). -/
def State.endStops (s : State) : State :=
  let p := s.secStops.partition fun x => s.secQuiet x.1 x.2.2
  p.1.foldl (fun t x => t.complete 0x83 0 x.2.1 []) { s with secStops := p.2 }

/-- `SET_LOOSE_MODE`. -/
def execSetLooseMode (e : SubEntry) (s : State) : Out State :=
  let m := e.mooring.toNat
  s.command e true true (· == 0) fun t => t.ifOk e ((t.moor m).loaded && decide (e.arg.toNat ≤ 1)) fun t =>
    (t.updMoor m fun k => { k with looseNext := e.arg == 1 }).done e

/-- `REQUEST_FORCED_PREEMPTION`. -/
def execRequestForcedPreemption (e : SubEntry) (s : State) : Out State :=
  let m := e.mooring.toNat
  s.command e true false (· == 0) fun t => t.ifOk e ((t.moor m).st == .running) fun t =>
    t.updMoor m fun k => { k with preempt := k.preempt ++ [e.seq] }

/-! ### Host accesses (R203, R229, R331) -/

/-- The pieces of [a, a + n) at multiples of `size`: address and length. -/
def pieces (a n size : Nat) : List (Nat × Nat) :=
  if n = 0 then []
  else (List.range ((a + n - 1) / size - a / size + 1)).map fun i =>
    let lo := Nat.max a ((a / size + i) * size)
    (lo, Nat.min (a + n) ((a / size + i + 1) * size) - lo)

def hostAccess (s : State) (write : Bool) (d : List Byte) (pa id : Nat) : Access :=
  ⟨id, s.now, .host, .phys pa, if write then .hostWrite d else .hostRead d.length, write, true, .any, 0, s.now, id⟩

/-- `HOST_SRAM_ACCESS`: one open access for each granule. -/
def execHostSramAccess (addr : Nat) (write : Bool) (bytes : List Byte) (s : State) : Out State :=
  let ps := pieces addr bytes.length 16
  if ps.all fun p => (resOf p.1).isSome then
    .next (ps.foldl (fun t p =>
      { t with accesses := t.accesses ++ [hostAccess t write ((bytes.drop (p.1 - addr)).take p.2) p.1 t.nextId], nextId := t.nextId + 1 }) s)
  else .fault .noSuchUnit

/-- `HOST_HBM_ACCESS`: a request in the open share for each 64 bytes. -/
def execHostHbmAccess (addr : Nat) (write : Bool) (bytes : List Byte) (s : State) : Out State :=
  if hbmBase ≤ addr ∧ addr + bytes.length ≤ hbmBase + hbmBytes then
    .next ((pieces addr bytes.length 64).foldl (fun t p =>
      { t.updChan (hbmChan p.1) fun k => { k with
          openq := k.openq ++ [⟨p.1, write, if write then (bytes.drop (p.1 - addr)).take p.2 else [], false, p.2, .host, t.nextId⟩] } with
        nextId := t.nextId + 1 }) s)
  else .fault .noSuchUnit

/-! ### Registers (R331) -/

/-- A task of a mooring runs. -/
def State.runsTask (s : State) (m : Nat) : Bool := (s.moor m).st.active

/-- `HOST_MOORING_REGISTER_WRITE`. -/
def execHostMooringRegisterWrite (r : MoorReg) (v : BitVec 64) (s : State) : Out State :=
  match r with
  | .ctxbase c =>
    if c < nCores then
      let busy := (match s.moorOf c with
        | some m => s.runsTask m
        | none => false) || (s.core c).sec.run == .running
      .next (if !busy && sysValueOk 0x0D v then s.updCore c fun k => k.sysWrite .primary 0x0D v else s)
    else .fault .noSuchUnit
  | .ebbtab m =>
    if m < nMoorings then .next (if !s.runsTask m && sysValueOk 0x0B v then (s.updMoor m fun k => { k with ebbtab := v }).readRegions m else s)
    else .fault .noSuchUnit
  | .lens m =>
    if m < nMoorings then .next (if !s.runsTask m && sysValueOk 0x0C v then s.updMoor m fun k => { k with lens := v } else s)
    else .fault .noSuchUnit

/-- A map holds no reserved code. -/
def mapOk (map : Vector (BitVec 64) 3) : Bool := (List.range nWindows).all fun w => decide (mapCode map w < 14)

/-- `SHARE_MAP_WRITE` (R215). -/
def execShareMapWrite (channel : Nat) (map : Vector (BitVec 64) 3) (s : State) : Out State :=
  if channel < nChannels then
    .next (if s.boot = .up ∧ mapOk map = true then s.updChan channel fun k => { k with newMap := some map } else s)
  else .fault .noSuchUnit

/-- `POWER_CAP_WRITE` (R293, R343). -/
def execPowerCapWrite (watts : Nat) (s : State) : Out State :=
  .next (if watts ≤ 1600 ∧ fitsCap s.watts watts = true then { s with powerCap := watts } else s)

/-- The kind of an image, as the fuses count it. -/
def fwCode : FwKind → Nat
  | .pilot => 0
  | .routines => 1
  | .management => 2

/-- The check of R340 that an image fails: 1 digest, 2 Ed25519, 3 ML-DSA-65, 4 version; 0 none. -/
def State.fwFails (s : State) (i : FwImage) : Nat :=
  if i.digest != sha384 i.body then 1
  else if !(decide (i.ed25519.length = 64) && ed25519Ok (fusedKey 0) i.body i.ed25519) then 2
  else if !(decide (i.mldsa.length = 3309) && mlDsaOk (fusedKey 1) i.body i.mldsa) then 3
  else if i.version < sget 0 s.fuses (fwCode i.kind) then 4
  else 0

/-- `ROUTINE_TABLE_LOAD` (R252): the entries, each an index with its entry point and its budget, only from an image that passes its checks. -/
def execRoutineTableLoad (image : FwImage) (entries : List (Nat × Nat × Nat)) (s : State) : Out State :=
  .next (if s.boot = .up ∧ image.kind = .routines ∧ s.fwFails image = 0 then
      { s with
        routines := (entries.filter fun e => decide (e.1 < 64)).foldl (fun l e => sset ⟨false, 0, 0⟩ l e.1 ⟨true, e.2.2, e.2.1⟩) []
        images := (s.images.filter fun i => i.kind != .routines) ++ [image] }
    else s)

/-- The ranges of R226, in the order of its table. -/
def paramRanges : List (Nat × Nat) :=
  [(8, 63), (8, 63), (16, 127), (60, 127), (2, 15), (2, 15), (8, 63), (2, 7), (2, 7), (8, 63), (2, 31), (2, 15), (64, 511), (32, 127), (1024, 8191)]

def inRange (v : Nat) (r : Nat × Nat) : Bool := decide (r.1 ≤ v) && decide (v ≤ r.2)

/-- A ring register: a 64-byte-aligned base with k in its low bits, 4 to 12 (R332, log 22). -/
def ringOk (v : Nat) : Bool := inRange (v % 64) (4, 12)

/-- Entries of a ring: none where the host has registered no ring. -/
def ringSize (v : BitVec 64) : Nat := if ringOk v.toNat then 2 ^ (v.toNat % 64) else 0

/-- The host gives back completion entries up to an index. -/
def State.consume (s : State) (v : Nat) : State :=
  if s.complHead ≤ v ∧ v ≤ s.complHead + s.compl.length then { s with compl := s.compl.drop (v - s.complHead), complHead := v } else s

/-- A register of the channels, of R218. -/
def regionWord (v : BitVec 64) : Bool := v.toNat < 2 ^ 32

/-- `HOST_REGISTER_WRITE`. A value that a register's rule does not allow leaves it unchanged (log 22). -/
def execHostRegisterWrite (r : HostReg) (v : BitVec 64) (s : State) : Out State :=
  let n := v.toNat
  let chan (c : Nat) (ok : Bool) (f : Channel → Channel) : Out State :=
    if c < nChannels then .next (if ok then s.updChan c f else s) else .fault .noSuchUnit
  match r with
  | .udpPort => .next (if n < 65536 then { s with udpPort := n } else s)
  | .ipAddress i =>
    let old := sget 0 s.ipAddrs (i / 2)
    let new := if i % 2 = 0 then old / 2 ^ 64 * 2 ^ 64 + n else n * 2 ^ 64 + old % 2 ^ 64
    .next { s with ipAddrs := sset 0 s.ipAddrs (i / 2) new }
  | .checker c p => chan c (decide (p < 15) && inRange n (paramRanges.getD p (1, 0))) fun k => { k with params := k.params.setIfInBounds p n }
  | .disturbT c => chan c (inRange n (64, 65535)) fun k => { k with thr := n }
  | .disturbRefw c => chan c (n != 0) fun k => { k with refw := n }
  | .clquota p =>
    if p < 16 then
      .next (if inRange n (240, 104880) && n % 240 == 0 then
        { s with planes := sset Plane.init s.planes p { sget Plane.init s.planes p with quota := n } } else s)
    else .fault .noSuchUnit
  | .exportSram => .next { s with exports := sset 0 s.exports 0 n }
  | .exportHbm => .next { s with exports := sset 0 s.exports 1 n }
  | .submissionRing => .next (if ringOk n then { s with subRing := v } else s)
  | .completionRing => .next (if ringOk n then { s with compRing := v, complCap := 2 ^ (n % 64) } else s)
  | .submissionTail => .next (if s.subTail ≤ n ∧ n ≤ s.subHead + ringSize s.subRing then { s with subTail := n } else s)
  | .completionHead => .next (s.consume n)
  | .errorOverflow => .next { s with overflow := n }
  | .tlrgn c m => chan c (decide (m < nMoorings) && regionWord v) fun k => { k with tlrgn := k.tlrgn.setIfInBounds m v }
  | .tlstore c m => chan c (decide (m < nMoorings) && regionWord v) fun k => { k with tlstore := k.tlstore.setIfInBounds m v }
  | .timelineWord c i => chan c (decide (i < storeWords)) fun k => { k with store := sset 0 k.store i v }
  | .eolpred | .errorLog _ | .errorCounter _ => .next s
  | .ptroot g => if g < nClusters then .next { s with ptroots := sset 0 s.ptroots g n } else .fault .noSuchUnit

/-! ### What the host reads (R331, R342): a read of a register changes nothing, and no row of the opcode table stands for one -/

/-- A word of 8 bytes of an entry of the error log (R323). -/
def LogEnt.word (e : LogEnt) (i : Nat) : BitVec 64 :=
  match i with
  | 0 => e.ccnt
  | 1 => BitVec.ofNat 64 (e.source % 2 ^ 16 + e.kind % 2 ^ 8 * 2 ^ 16)
  | 2 => BitVec.ofNat 64 e.addr
  | _ => 0

/-- The value of a control register, as a host read gives it. Words 0 to 63 of the error log are its entries, word 64 its overflow bit; an
error counter gives the corrected count in its low half (log 22). None of them holds a mooring's key (R333). -/
def State.hostRead (s : State) : HostReg → BitVec 64
  | .udpPort => BitVec.ofNat 64 s.udpPort
  | .ipAddress i => BitVec.ofNat 64 (sget 0 s.ipAddrs (i / 2) / 2 ^ (64 * (i % 2)))
  | .checker c p => BitVec.ofNat 64 ((s.chan c).p p)
  | .disturbT c => BitVec.ofNat 64 (s.chan c).thr
  | .disturbRefw c => BitVec.ofNat 64 (s.chan c).refw
  | .clquota p => BitVec.ofNat 64 (sget Plane.init s.planes p).quota
  | .exportSram => BitVec.ofNat 64 (sget 0 s.exports 0)
  | .exportHbm => BitVec.ofNat 64 (sget 0 s.exports 1)
  | .submissionRing => s.subRing
  | .completionRing => s.compRing
  | .submissionTail => BitVec.ofNat 64 s.subTail
  | .completionHead => BitVec.ofNat 64 s.complHead
  | .errorOverflow => BitVec.ofNat 64 s.overflow
  | .tlrgn c m => (s.chan c).tlrgn.getD m 0
  | .tlstore c m => (s.chan c).tlstore.getD m 0
  | .timelineWord c i => sget 0 (s.chan c).store i
  | .eolpred => s.eolpred
  | .errorLog i => if i = 64 then (if s.logOver then 1 else 0) else match s.log[i / 4]? with
    | some e => e.word (i % 4)
    | none => 0
  | .errorCounter n => BitVec.ofNat 64 ((sget (0, 0) s.counters n).1 + (sget (0, 0) s.counters n).2 * 2 ^ 32)
  | .ptroot g => BitVec.ofNat 64 (sget 0 s.ptroots g)

/-- `CTXBASE` of a core, `EBBTAB` and `LENS` of a mooring. -/
def State.hostReadMooring (s : State) : MoorReg → BitVec 64
  | .ctxbase c => (s.core c).ctxbase.setWidth 64
  | .ebbtab m => (s.moor m).ebbtab
  | .lens m => (s.moor m).lens

/-- An entry of the routine table (R252): V, ENTRY and BUDGET. -/
def State.hostReadRoutine (s : State) (r : Nat) : Bool × Nat × Nat :=
  let e := sget ⟨false, 0, 0⟩ s.routines r
  (e.valid, e.entry, e.budget)

/-- A word of a channel's share map (R215): the map in force, or one written that waits for a frame boundary. -/
def State.hostReadMap (s : State) (ch i : Nat) : BitVec 64 := (((s.chan ch).newMap.getD (s.chan ch).map)).getD i 0

end Sys2Proof.Machine
end

