-- ==== Sys2Proof/Machine/Platform.lean ====
section
/-! DEFINITION. Sys2Proof/Machine/Platform.lean: power-on reset with its firmware, attestation, `EOLPRED`, the thermal hold (R52, R165, R216,
R340 to R343). -/

namespace Sys2Proof.Machine
open Config

/-! ### Boot (R52, R340) -/

/-- The check that stops the boot: of the Pilot image, 5 where there is none. -/
def State.bootFails (s : State) : Nat :=
  match s.flash.filter fun i => i.kind == .pilot with
  | [] => 5
  | i :: _ => s.fwFails i

/-- Events from outside that are still to come keep their distance. -/
def State.laterInputs (s : State) : List (Nat × Ev) := s.inputs.map fun e => (e.1 - s.now, e.2)

/-- The channels as the Pilot programs their checkers from the stacks' parameter blocks (R226); a value outside its range counts as the
default (DESIGN CHOICE, log 18). -/
def stackChannels (l : List (Nat × Vector Nat 15)) : List (Nat × Channel) :=
  (List.range nChannels).filterMap fun ch =>
    let v := sget defaultParams l (ch / 32)
    let p := Vector.ofFn fun (i : Fin 15) => if inRange v[i] (paramRanges.getD i.val (1, 0)) then v[i] else defaultParams[i]
    if p = defaultParams then none else some (ch, { Channel.init with params := p })

/-- The device state right after reset, with what outlasts it: firmware, fuses, the stacks' parameter blocks, and the world outside. -/
def State.rebooted (s : State) : State :=
  let good := s.flash.filter fun i => s.fwFails i == 0
  { State.reset with
    inputs := s.laterInputs, flash := s.flash, fuses := s.fuses, stackPar := s.stackPar, fixedDraw := s.fixedDraw, free := s.free
    channels := if s.bootFails = 0 then stackChannels s.stackPar else []
    images := good, boot := if s.bootFails = 0 then .up else .boot s.bootFails }

/-- `POWER_ON_RESET`. -/
def execPowerOnReset (s : State) : Out State := .next s.rebooted

/-! ### Attestation (R341) -/

/-- What the report says of an image: its digest and version. -/
def fwBytes (i : FwImage) : List Byte := natBytes 48 i.digest.toNat ++ natBytes 8 i.version

/-- PRESUMED order (log 22): nonce, loaded images, fused versions, serial number; then the two signatures. -/
def State.report (s : State) (nonce : List Byte) : List Byte :=
  let body := nonce ++ s.images.flatMap fwBytes ++ (List.range 3).flatMap (fun k => natBytes 8 (sget 0 s.fuses k)) ++ natBytes 8 (sget 0 s.fuses 3)
  body ++ deviceSign body

/-- `ATTESTATION_REQUEST`: answered by the management firmware. -/
def execAttestationRequest (nonce : List Byte) (s : State) : Out State :=
  .next (if nonce.length = 32 ∧ (s.images.any fun i => i.kind == .management) = true then { s with lastReport := s.report nonce } else s)

/-! ### Health and heat (R342, R343) -/

/-- `EOLPRED_UPDATE`, by the management firmware: the register is written whole, its reserved bits 0. -/
def execEolpredUpdate (v : BitVec 64) (s : State) : Out State :=
  .next (if s.boot = .up ∧ (s.images.any fun i => i.kind == .management) = true then { s with eolpred := v &&& 0x00FFFFFFFFFFFFFF } else s)

/-- A mooring has a task that runs. -/
def State.taskRuns (s : State) (m : Nat) : Bool :=
  match (s.moor m).st with
  | .running | .parking => true
  | _ => false

/-- `THERMAL_LIMIT`: every running task is discarded, with a fault record; where none runs, one record all the same (log 22). -/
def execThermalLimit (s : State) : Out State :=
  if s.boot ≠ .up then .next s
  else
    let ms := (List.range nMoorings).filter s.taskRuns
    let s1 := { s with thermalHold := true }
    .next (if ms.isEmpty then s1.faultRecord 0 0 0xFFFF 0x20 false 0 0 0 else ms.foldl (fun t m => t.taskFault m 0) s1)

/-- `THERMAL_CONDITION_CLEAR`. -/
def execThermalConditionClear (s : State) : Out State := .next { s with thermalHold := false }

end Sys2Proof.Machine
end

