-- ==== Sys2Proof/Machine/Scalar.lean ====
section
/-! DEFINITION. Sys2Proof/Machine/Scalar.lean: the integer instructions of slots A and B, and `MADD` of slot M (R344 to R351, R358,
R392 to R399, R446). -/

namespace Sys2Proof.Machine

/-- The value that an operand reads. -/
def State.val (s : State) (r : RRef) : Word := (s.rd r).val

/-- A binary instruction: d := f(sa, sb). -/
def State.bin (s : State) (sl : AB) (d : Dst 32) (a : Fin 32) (b : Src 32) (lat : Nat) (f : Word → Word → Word) : Out State :=
  let x := own sl.file a
  let y := Src.ref sl.file b
  s.alu sl.slot [x, y] (Dst.ref sl.file d) lat (f (s.val x) (s.val y))

/-- An instruction with an immediate: d := f(sa). -/
def State.immOp (s : State) (sl : AB) (d a : Fin 32) (f : Word → Word) : Out State :=
  s.alu sl.slot [own sl.file a] (own sl.file d) 1 (f (s.val (own sl.file a)))

/-- A one-operand instruction: d := f(sa). -/
def State.unary (s : State) (sl : AB) (d : Dst 32) (a : Fin 32) (f : Word → Word) : Out State :=
  s.alu sl.slot [own sl.file a] (Dst.ref sl.file d) 1 (f (s.val (own sl.file a)))

def boolWord (b : Bool) : Word := if b then 1 else 0

/-- Sat64 of an integer (R117). -/
def sat64 (x : Int) : Word := BitVec.ofInt 64 ((⟨64, true⟩ : IntTy).sat x)

def wordMax (u : Bool) (x y : Word) : Word := if (if u then x.ult y else x.slt y) then y else x
def wordMin (u : Bool) (x y : Word) : Word := if (if u then y.ult x else y.slt x) then y else x

/-- ⌊P / 2^64⌋ mod 2^64 of the exact product (R396). -/
def mulHigh (u : Bool) (x y : Word) : Word :=
  if u then BitVec.ofNat 64 (x.toNat * y.toNat / 2 ^ 64) else BitVec.ofInt 64 (x.toInt * y.toInt / 2 ^ 64)

/-- The zero bits above the most significant set bit (R358). -/
def clzWord (x : Word) : Word := BitVec.ofNat 64 (64 - bitLen x.toNat)
/-- The number of set bits (R399). -/
def popWord (x : Word) : Word := BitVec.ofNat 64 ((List.range 64).foldl (fun n i => if x.getLsbD i then n + 1 else n) 0)

/-- sa[pos + width − 1 : pos] (R349). -/
def bfxWord (x : Word) (pos w : Nat) : Word := BitVec.ofNat 64 (x.toNat / 2 ^ pos % 2 ^ w)
/-- d with d[pos + width − 1 : pos] := sa[width − 1 : 0] (R349). -/
def bfiWord (d x : Word) (pos w : Nat) : Word := mergeBits d (x <<< pos) (maskBits 1 w pos 64)

/-- One stage j of the butterfly network (R351). -/
def bnetStage (ctl : BitVec 32) (j : Nat) (v : Word) : Word :=
  (List.range 32).foldl (fun (u : Word) k =>
    let lo := k / 2 ^ j * 2 ^ (j + 1) + k % 2 ^ j
    let hi := lo + 2 ^ j
    if ctl.getLsbD k && (u.getLsbD lo != u.getLsbD hi) then u ^^^ BitVec.ofNat 64 (2 ^ lo + 2 ^ hi) else u) v

/-- The six stages of a configuration. -/
def bnetWord (cfg : BitVec 192) (v : Word) : Word :=
  (List.range 6).foldl (fun u j => bnetStage (cfg.extractLsb' (32 * j) 32) j u) v

def execAdd (sl : AB) (d : Dst 32) (a : Fin 32) (b : Src 32) (s : State) : Out State := s.bin sl d a b 1 fun x y => x + y
def execAddImm (sl : AB) (d a : Fin 32) (i : BitVec 15) (s : State) : Out State := s.immOp sl d a fun x => x + imm15 i
def execAddsat (sl : AB) (d : Dst 32) (a : Fin 32) (b : Src 32) (s : State) : Out State :=
  s.bin sl d a b 1 fun x y => sat64 (x.toInt + y.toInt)
def execAnd (sl : AB) (d : Dst 32) (a : Fin 32) (b : Src 32) (s : State) : Out State := s.bin sl d a b 1 fun x y => x &&& y
def execAndImm (sl : AB) (d a : Fin 32) (i : BitVec 15) (s : State) : Out State := s.immOp sl d a fun x => x &&& imm15 i
/-- `BFI` reads d (R349). -/
def execBfi (sl : AB) (d a : Fin 32) (pos w : Fin 64) (s : State) : Out State :=
  s.alu sl.slot [own sl.file a, own sl.file d] (own sl.file d) 1
    (bfiWord (s.val (own sl.file d)) (s.val (own sl.file a)) pos.val (w.val + 1))
def execBfx (sl : AB) (d : Dst 32) (a : Fin 32) (pos w : Fin 64) (s : State) : Out State :=
  s.unary sl d a fun x => bfxWord x pos.val (w.val + 1)
/-- `BNET` stands in slot B alone (R351). -/
def execBnet (d : Dst 32) (a : Fin 32) (cfg : Fin 8) (s : State) : Out State :=
  s.alu .b [own .b a] (Dst.ref .b d) 2 (bnetWord (s.cur.bnet.getD cfg.val 0) (s.val (own .b a)))
/-- `BNETLD`: the stage is in force from t + 2; a poisoned source is consumption (R351). -/
def execBnetld (a : Fin 32) (stage cfg : Fin 8) (s : State) : Out State :=
  s.issue ⟨.b, 1, [own .b a], [], trapIf (s.rd (own .b a)).poi (.poison .b), false⟩ fun t =>
    t.effect 2 (.bnet cfg.val stage.val ((s.val (own .b a)).setWidth 32))
def execClz (sl : AB) (d : Dst 32) (a : Fin 32) (s : State) : Out State := s.unary sl d a clzWord
def execMax (sl : AB) (d : Dst 32) (a : Fin 32) (b : Src 32) (u : Bool) (s : State) : Out State := s.bin sl d a b 1 (wordMax u)
def execMin (sl : AB) (d : Dst 32) (a : Fin 32) (b : Src 32) (u : Bool) (s : State) : Out State := s.bin sl d a b 1 (wordMin u)
/-- `MOVHI` reads d (R395). -/
def execMovhi (sl : AB) (d : Fin 32) (i : BitVec 20) (s : State) : Out State :=
  s.alu sl.slot [own sl.file d] (own sl.file d) 1 (s.val (own sl.file d) <<< 20 ||| i.setWidth 64)
def execMovi (sl : AB) (d : Fin 32) (i : BitVec 20) (s : State) : Out State := s.alu sl.slot [] (own sl.file d) 1 (imm20 i)
def execMul (sl : AB) (d : Dst 32) (a : Fin 32) (b : Src 32) (s : State) : Out State := s.bin sl d a b 3 fun x y => x * y
def execMulh (sl : AB) (d : Dst 32) (a : Fin 32) (b : Src 32) (u : Bool) (s : State) : Out State := s.bin sl d a b 3 (mulHigh u)
def execOr (sl : AB) (d : Dst 32) (a : Fin 32) (b : Src 32) (s : State) : Out State := s.bin sl d a b 1 fun x y => x ||| y
def execOrImm (sl : AB) (d a : Fin 32) (i : BitVec 15) (s : State) : Out State := s.immOp sl d a fun x => x ||| imm15 i
def execPopc (sl : AB) (d : Dst 32) (a : Fin 32) (s : State) : Out State := s.unary sl d a popWord
/-- `SEL`: d := d[0] = 1 ? sa : sb; the condition is a source (R398). -/
def execSel (sl : AB) (d a : Fin 32) (b : Src 32) (s : State) : Out State :=
  s.alu sl.slot [own sl.file a, Src.ref sl.file b, own sl.file d] (own sl.file d) 1
    (if (s.val (own sl.file d)).getLsbD 0 then s.val (own sl.file a) else s.val (Src.ref sl.file b))
def execSeq (sl : AB) (d : Dst 32) (a : Fin 32) (b : Src 32) (s : State) : Out State := s.bin sl d a b 1 fun x y => boolWord (x == y)
/-- The count is sb[5:0] (R399). -/
def execShl (sl : AB) (d : Dst 32) (a : Fin 32) (b : Src 32) (s : State) : Out State :=
  s.bin sl d a b 1 fun x y => x <<< (y.toNat % 64)
def execShlImm (sl : AB) (d a : Fin 32) (c : Fin 64) (s : State) : Out State := s.immOp sl d a fun x => x <<< c.val
def execShr (sl : AB) (d : Dst 32) (a : Fin 32) (b : Src 32) (s : State) : Out State :=
  s.bin sl d a b 1 fun x y => x >>> (y.toNat % 64)
def execShrImm (sl : AB) (d a : Fin 32) (c : Fin 64) (s : State) : Out State := s.immOp sl d a fun x => x >>> c.val
def execSlt (sl : AB) (d : Dst 32) (a : Fin 32) (b : Src 32) (u : Bool) (s : State) : Out State :=
  s.bin sl d a b 1 fun x y => boolWord (if u then x.ult y else x.slt y)
def execSltImm (sl : AB) (d a : Fin 32) (i : BitVec 15) (s : State) : Out State :=
  s.immOp sl d a fun x => boolWord (x.slt (imm15 i))
def execSra (sl : AB) (d : Dst 32) (a : Fin 32) (b : Src 32) (s : State) : Out State :=
  s.bin sl d a b 1 fun x y => x.sshiftRight (y.toNat % 64)
def execSraImm (sl : AB) (d a : Fin 32) (c : Fin 64) (s : State) : Out State := s.immOp sl d a fun x => x.sshiftRight c.val
def execSub (sl : AB) (d : Dst 32) (a : Fin 32) (b : Src 32) (s : State) : Out State := s.bin sl d a b 1 fun x y => x - y
def execXor (sl : AB) (d : Dst 32) (a : Fin 32) (b : Src 32) (s : State) : Out State := s.bin sl d a b 1 fun x y => x ^^^ y
def execXorImm (sl : AB) (d a : Fin 32) (i : BitVec 15) (s : State) : Out State := s.immOp sl d a fun x => x ^^^ imm15 i

/-- `MADD` is the M slot's add (R393). -/
def execMadd (d : Dst 32) (a : Fin 32) (b : Src 32) (s : State) : Out State :=
  s.alu .m [own .m a, Src.ref .m b] (Dst.ref .m d) 1 (s.val (own .m a) + s.val (Src.ref .m b))
def execMaddImm (d a : Fin 32) (i : BitVec 15) (s : State) : Out State :=
  s.alu .m [own .m a] (own .m d) 1 (s.val (own .m a) + imm15 i)

end Sys2Proof.Machine
end

