-- ==== Sys2Proof/Machine/ScalarFp.lean ====
section
/-! DEFINITION. Sys2Proof/Machine/ScalarFp.lean: the floating-point instructions of slots A, B and F (R367 to R378, R380, R383). -/

namespace Sys2Proof.Machine

/-- A two-operand FP instruction. -/
def State.fp2 (s : State) (sl : AB) (d : Dst 32) (a : Fin 32) (b : Src 32) (lat : Nat) (f : Reg → Reg → FpOut) : Out State :=
  let x := own sl.file a
  let y := Src.ref sl.file b
  s.fpu sl.slot [x, y] (Dst.ref sl.file d) lat (f (s.rd x) (s.rd y))
/-- A one-operand FP instruction. -/
def State.fp1 (s : State) (sl : AB) (d : Dst 32) (a : Fin 32) (lat : Nat) (f : Reg → FpOut) : Out State :=
  s.fpu sl.slot [own sl.file a] (Dst.ref sl.file d) lat (f (s.rd (own sl.file a)))
/-- The F slot's. -/
def State.ff2 (s : State) (d : Dst 16) (a : Fin 16) (b : Src 16) (lat : Nat) (f : Reg → Reg → FpOut) : Out State :=
  let x := own .f a
  let y := Src.ref .f b
  s.fpu .f [x, y] (Dst.ref .f d) lat (f (s.rd x) (s.rd y))
def State.ff1 (s : State) (d : Dst 16) (a : Fin 16) (lat : Nat) (f : Reg → FpOut) : Out State :=
  s.fpu .f [own .f a] (Dst.ref .f d) lat (f (s.rd (own .f a)))

def execFabs (sl : AB) (d : Dst 32) (a : Fin 32) (fs : FS) (s : State) : Out State := s.fp1 sl d a 2 (fpSign fs.fmt false)
def execFneg (sl : AB) (d : Dst 32) (a : Fin 32) (fs : FS) (s : State) : Out State := s.fp1 sl d a 2 (fpSign fs.fmt true)
def execFadd (sl : AB) (d : Dst 32) (a : Fin 32) (b : Src 32) (rm : RM) (fs : FS) (s : State) : Out State :=
  s.fp2 sl d a b 3 (fpAdd fs.fmt rm)
def execFsub (sl : AB) (d : Dst 32) (a : Fin 32) (b : Src 32) (rm : RM) (fs : FS) (s : State) : Out State :=
  s.fp2 sl d a b 3 (fpSub fs.fmt rm)
def execFmul (sl : AB) (d : Dst 32) (a : Fin 32) (b : Src 32) (rm : RM) (fs : FS) (s : State) : Out State :=
  s.fp2 sl d a b 3 (fpMul fs.fmt rm)
/-- `FMA` reads d (R370). -/
def execFma (sl : AB) (d a : Fin 32) (b : Src 32) (rm : RM) (fs : FS) (s : State) : Out State :=
  let x := own sl.file a
  let y := Src.ref sl.file b
  let z := own sl.file d
  s.fpu sl.slot [x, y, z] z 4 (fpFma fs.fmt rm (s.rd x) (s.rd y) (s.rd z))
def execFclass (sl : AB) (d : Dst 32) (a : Fin 32) (fs : FS) (s : State) : Out State :=
  s.fp1 sl d a 2 fun x => ⟨fpClass fs.fmt (x.fpBits fs.fmt), 63, 0, []⟩
def execFcmp (sl : AB) (d : Dst 32) (a : Fin 32) (b : Src 32) (fs : FS) (c : Cond) (s : State) : Out State :=
  s.fp2 sl d a b 2 fun x y =>
    let r := fs.fmt.compare c (x.fpBits fs.fmt) (y.fpBits fs.fmt)
    ⟨if r.1 then 1 else 0, 63, r.2, []⟩
def execFcvt (sl : AB) (d : Dst 32) (a : Fin 32) (rm : RM) (dt st : CvtTy) (s : State) : Out State :=
  s.fp1 sl d a 2 (fpCvt rm dt st)
def execFmax (sl : AB) (d : Dst 32) (a : Fin 32) (b : Src 32) (fs : FS) (s : State) : Out State :=
  s.fp2 sl d a b 2 (fpMinmax fs.fmt true)
def execFmin (sl : AB) (d : Dst 32) (a : Fin 32) (b : Src 32) (fs : FS) (s : State) : Out State :=
  s.fp2 sl d a b 2 (fpMinmax fs.fmt false)
/-- `FSND` delivers S(sa) (R156, R383). -/
def execFsnd (sl : AB) (d : Dst 32) (a : Fin 32) (fs : FS) (s : State) : Out State :=
  s.fp1 sl d a 1 fun x => ⟨x.fpSnd fs.fmt, 63, 0, []⟩
/-- `FSNDSET` keeps all 64 bits and stores the sounding n (R383). -/
def execFsndset (sl : AB) (d : Dst 32) (a : Fin 32) (n : SndArg) (s : State) : Out State :=
  let x := own sl.file a
  match n with
  | .imm k => s.fpu sl.slot [x] (Dst.ref sl.file d) 1 ⟨(s.val x).toNat, k.val, 0, []⟩
  | .reg b =>
    let y := Src.ref sl.file b
    s.fpu sl.slot [x, y] (Dst.ref sl.file d) 1 ⟨(s.val x).toNat, (s.val y).toNat % 64, 0, []⟩

def execFatan2 (d : Dst 16) (a : Fin 16) (b : Src 16) (rm : RM) (fs : FS) (s : State) : Out State :=
  s.ff2 d a b 16 (fpAtan2 fs.fmt rm)
def execFdecay (d : Dst 16) (a : Fin 16) (b : Src 16) (s : State) : Out State := s.ff2 d a b 24 fpDecay
def execFdiv (d : Dst 16) (a : Fin 16) (b : Src 16) (rm : RM) (fs : FS) (s : State) : Out State :=
  s.ff2 d a b 14 (fpDiv fs.fmt rm)
def execFexp2 (d : Dst 16) (a : Fin 16) (rm : RM) (fs : FS) (s : State) : Out State :=
  s.ff1 d a 12 (fpUnary fs.fmt (fs.fmt.exp2 rm) (-1))
def execFlog2 (d : Dst 16) (a : Fin 16) (rm : RM) (fs : FS) (s : State) : Out State :=
  s.ff1 d a 12 (fpUnary fs.fmt (fs.fmt.log2 rm) (-1))
def execFrcp (d : Dst 16) (a : Fin 16) (rm : RM) (fs : FS) (s : State) : Out State :=
  s.ff1 d a 10 (fpUnary fs.fmt (fs.fmt.rcp rm) (-1))
def execFrsq (d : Dst 16) (a : Fin 16) (rm : RM) (fs : FS) (s : State) : Out State :=
  s.ff1 d a 10 (fpUnary fs.fmt (fs.fmt.rsq rm) (-1))
def execFsqrt (d : Dst 16) (a : Fin 16) (rm : RM) (fs : FS) (s : State) : Out State :=
  s.ff1 d a 14 (fpUnary fs.fmt (fs.fmt.sqrt rm) 1)

/-- `FSINCOS`: sin to d, cos to d + 1, their flags together, and at most one loss event (R374). -/
def execFsincos (d a : Fin 16) (rm : RM) (fs : FS) (s : State) : Out State :=
  let f := fs.fmt
  let x := own .f a
  let v := s.rd x
  let r := f.sincos rm (v.fpBits f)
  let fl := r.1.2 ||| r.2.2
  let sn := f.soundClamp ((v.fpSnd f : Int) - 1) r.1.1
  let cs := f.soundClamp ((v.fpSnd f : Int) - 1) r.2.1
  let thr := s.cur.sndthr.toNat
  let lossS := lossEvent thr [v.fpSnd f] sn
  let lossC := lossEvent thr [v.fpSnd f] cs
  let d0 : RRef := ⟨.f, d.val⟩
  let d1 : RRef := ⟨.f, d.val + 1⟩
  s.issue ⟨.f, 1, [x], [⟨d0, 8⟩, ⟨d1, 8⟩], [], false⟩ fun t =>
    (t.result d0 8 ⟨BitVec.ofNat 64 r.1.1, BitVec.ofNat 6 sn, v.poi⟩ fl (if lossS then some 5 else none)).result d1 8
      ⟨BitVec.ofNat 64 r.2.1, BitVec.ofNat 6 cs, v.poi⟩ fl (if lossC && !lossS then some 5 else none)

end Sys2Proof.Machine
end

