-- ==== Sys2Proof/Machine/Dispatch.lean ====
section
/-! DEFINITION. Sys2Proof/Machine/Dispatch.lean: one arm per constructor of Instr. -/

namespace Sys2Proof.Machine

def exec (i : Instr) (s : State) : Host.Outcome State Fault Refusal :=
  match i with
  | .add sl d a b => Sys2Proof.Machine.execAdd sl d a b s
  | .addImm sl d a k => Sys2Proof.Machine.execAddImm sl d a k s
  | .addsat sl d a b => Sys2Proof.Machine.execAddsat sl d a b s
  | .and sl d a b => Sys2Proof.Machine.execAnd sl d a b s
  | .andImm sl d a k => Sys2Proof.Machine.execAndImm sl d a k s
  | .bfi sl d a pos w => Sys2Proof.Machine.execBfi sl d a pos w s
  | .bfx sl d a pos w => Sys2Proof.Machine.execBfx sl d a pos w s
  | .bnet d a cfg => Sys2Proof.Machine.execBnet d a cfg s
  | .bnetld a stage cfg => Sys2Proof.Machine.execBnetld a stage cfg s
  | .clz sl d a => Sys2Proof.Machine.execClz sl d a s
  | .max sl d a b u => Sys2Proof.Machine.execMax sl d a b u s
  | .min sl d a b u => Sys2Proof.Machine.execMin sl d a b u s
  | .movhi sl d k => Sys2Proof.Machine.execMovhi sl d k s
  | .movi sl d k => Sys2Proof.Machine.execMovi sl d k s
  | .mul sl d a b => Sys2Proof.Machine.execMul sl d a b s
  | .mulh sl d a b u => Sys2Proof.Machine.execMulh sl d a b u s
  | .or sl d a b => Sys2Proof.Machine.execOr sl d a b s
  | .orImm sl d a k => Sys2Proof.Machine.execOrImm sl d a k s
  | .popc sl d a => Sys2Proof.Machine.execPopc sl d a s
  | .sel sl d a b => Sys2Proof.Machine.execSel sl d a b s
  | .seq sl d a b => Sys2Proof.Machine.execSeq sl d a b s
  | .shl sl d a b => Sys2Proof.Machine.execShl sl d a b s
  | .shlImm sl d a c => Sys2Proof.Machine.execShlImm sl d a c s
  | .shr sl d a b => Sys2Proof.Machine.execShr sl d a b s
  | .shrImm sl d a c => Sys2Proof.Machine.execShrImm sl d a c s
  | .slt sl d a b u => Sys2Proof.Machine.execSlt sl d a b u s
  | .sltImm sl d a k => Sys2Proof.Machine.execSltImm sl d a k s
  | .sra sl d a b => Sys2Proof.Machine.execSra sl d a b s
  | .sraImm sl d a c => Sys2Proof.Machine.execSraImm sl d a c s
  | .sub sl d a b => Sys2Proof.Machine.execSub sl d a b s
  | .xor sl d a b => Sys2Proof.Machine.execXor sl d a b s
  | .xorImm sl d a k => Sys2Proof.Machine.execXorImm sl d a k s
  | .fabs sl d a fs => Sys2Proof.Machine.execFabs sl d a fs s
  | .fadd sl d a b rm fs => Sys2Proof.Machine.execFadd sl d a b rm fs s
  | .fclass sl d a fs => Sys2Proof.Machine.execFclass sl d a fs s
  | .fcmp sl d a b fs c => Sys2Proof.Machine.execFcmp sl d a b fs c s
  | .fcvt sl d a rm dt st => Sys2Proof.Machine.execFcvt sl d a rm dt st s
  | .fma sl d a b rm fs => Sys2Proof.Machine.execFma sl d a b rm fs s
  | .fmax sl d a b fs => Sys2Proof.Machine.execFmax sl d a b fs s
  | .fmin sl d a b fs => Sys2Proof.Machine.execFmin sl d a b fs s
  | .fmul sl d a b rm fs => Sys2Proof.Machine.execFmul sl d a b rm fs s
  | .fneg sl d a fs => Sys2Proof.Machine.execFneg sl d a fs s
  | .fsnd sl d a fs => Sys2Proof.Machine.execFsnd sl d a fs s
  | .fsndset sl d a n => Sys2Proof.Machine.execFsndset sl d a n s
  | .fsub sl d a b rm fs => Sys2Proof.Machine.execFsub sl d a b rm fs s
  | .atom d a b pool w64 op => Sys2Proof.Machine.execAtom d a b pool w64 op s
  | .ebbadd o a pool => Sys2Proof.Machine.execEbbadd o a pool s
  | .ebbld d a b sp => Sys2Proof.Machine.execEbbld d a b sp s
  | .gauge o a pool => Sys2Proof.Machine.execGauge o a pool s
  | .itset it a b level => Sys2Proof.Machine.execItset it a b level s
  | .ld d a b sp sz sc sx => Sys2Proof.Machine.execLd d a b sp sz sc sx s
  | .ldOffset d base sz sp off => Sys2Proof.Machine.execLdOffset d base sz sp off s
  | .ldm d a n sp => Sys2Proof.Machine.execLdm d a n sp s
  | .lds d a b sp sz sc sx => Sys2Proof.Machine.execLds d a b sp sz sc sx s
  | .ldsOffset d base sz sp off => Sys2Proof.Machine.execLdsOffset d base sz sp off s
  | .madd d a b => Sys2Proof.Machine.execMadd d a b s
  | .maddImm d a k => Sys2Proof.Machine.execMaddImm d a k s
  | .recv a k => Sys2Proof.Machine.execRecv a k s
  | .send o a sz => Sys2Proof.Machine.execSend o a sz s
  | .st o a sp sz sc => Sys2Proof.Machine.execSt o a sp sz sc s
  | .stOffset d base sz sp off => Sys2Proof.Machine.execStOffset d base sz sp off s
  | .stm o a n sp => Sys2Proof.Machine.execStm o a n sp s
  | .sts o a sp sz sc => Sys2Proof.Machine.execSts o a sp sz sc s
  | .stsOffset d base sz sp off => Sys2Proof.Machine.execStsOffset d base sz sp off s
  | .vabs sl d a => Sys2Proof.Machine.execVabs sl d a s
  | .vadd sl d a b rm => Sys2Proof.Machine.execVadd sl d a b rm s
  | .vand sl d a b => Sys2Proof.Machine.execVand sl d a b s
  | .vbcast sl d h => Sys2Proof.Machine.execVbcast sl d h s
  | .vcmp sl d a b c => Sys2Proof.Machine.execVcmp sl d a b c s
  | .vcvt sl d a rm sat src => Sys2Proof.Machine.execVcvt sl d a rm sat src s
  | .vexp2 sl d a rm => Sys2Proof.Machine.execVexp2 sl d a rm s
  | .vfma sl d a b rm => Sys2Proof.Machine.execVfma sl d a b rm s
  | .viadd sl d a b sat => Sys2Proof.Machine.execViadd sl d a b sat s
  | .vimac sl d a b sat => Sys2Proof.Machine.execVimac sl d a b sat s
  | .vimul sl d a b sat => Sys2Proof.Machine.execVimul sl d a b sat s
  | .visub sl d a b sat => Sys2Proof.Machine.execVisub sl d a b sat s
  | .vld sl d h off => Sys2Proof.Machine.execVld sl d h off s
  | .vlds sl d h off => Sys2Proof.Machine.execVlds sl d h off s
  | .vldx sl d h n => Sys2Proof.Machine.execVldx sl d h n s
  | .vldz sl d h => Sys2Proof.Machine.execVldz sl d h s
  | .vmax sl d a b => Sys2Proof.Machine.execVmax sl d a b s
  | .vmaxr sl d a cols => Sys2Proof.Machine.execVmaxr sl d a cols s
  | .vmin sl d a b => Sys2Proof.Machine.execVmin sl d a b s
  | .vmovi sl d k => Sys2Proof.Machine.execVmovi sl d k s
  | .vmul sl d a b rm => Sys2Proof.Machine.execVmul sl d a b rm s
  | .vneg sl d a => Sys2Proof.Machine.execVneg sl d a s
  | .vor sl d a b => Sys2Proof.Machine.execVor sl d a b s
  | .vrcp sl d a rm => Sys2Proof.Machine.execVrcp sl d a rm s
  | .vrsq sl d a rm => Sys2Proof.Machine.execVrsq sl d a rm s
  | .vsat sl d a u range => Sys2Proof.Machine.execVsat sl d a u range s
  | .vsel sl d a b => Sys2Proof.Machine.execVsel sl d a b s
  | .vshl sl d a c => Sys2Proof.Machine.execVshl sl d a c s
  | .vshr sl d a c arith => Sys2Proof.Machine.execVshr sl d a c arith s
  | .vslide sl d a b up k => Sys2Proof.Machine.execVslide sl d a b up k s
  | .vsnd sl d a set n => Sys2Proof.Machine.execVsnd sl d a set n s
  | .vst sl d h off => Sys2Proof.Machine.execVst sl d h off s
  | .vsts sl d h off => Sys2Proof.Machine.execVsts sl d h off s
  | .vstx sl d h n => Sys2Proof.Machine.execVstx sl d h n s
  | .vstz sl d h cap => Sys2Proof.Machine.execVstz sl d h cap s
  | .vsub sl d a b rm => Sys2Proof.Machine.execVsub sl d a b rm s
  | .vsum sl d a cols => Sys2Proof.Machine.execVsum sl d a cols s
  | .vtrn sl d a => Sys2Proof.Machine.execVtrn sl d a s
  | .vxor sl d a b => Sys2Proof.Machine.execVxor sl d a b s
  | .vzmap sl d a g => Sys2Proof.Machine.execVzmap sl d a g s
  | .fatan2 d a b rm fs => Sys2Proof.Machine.execFatan2 d a b rm fs s
  | .fdecay d a b => Sys2Proof.Machine.execFdecay d a b s
  | .fdiv d a b rm fs => Sys2Proof.Machine.execFdiv d a b rm fs s
  | .fexp2 d a rm fs => Sys2Proof.Machine.execFexp2 d a rm fs s
  | .flog2 d a rm fs => Sys2Proof.Machine.execFlog2 d a rm fs s
  | .frcp d a rm fs => Sys2Proof.Machine.execFrcp d a rm fs s
  | .frsq d a rm fs => Sys2Proof.Machine.execFrsq d a rm fs s
  | .fsincos d a rm fs => Sys2Proof.Machine.execFsincos d a rm fs s
  | .fsqrt d a rm fs => Sys2Proof.Machine.execFsqrt d a rm fs s
  | .arrgang h => Sys2Proof.Machine.execArrgang h s
  | .arrld h => Sys2Proof.Machine.execArrld h s
  | .arrpass h mode rev dcorr => Sys2Proof.Machine.execArrpass h mode rev dcorr s
  | .arrrest h => Sys2Proof.Machine.execArrrest h s
  | .arrsave h => Sys2Proof.Machine.execArrsave h s
  | .arrscl h => Sys2Proof.Machine.execArrscl h s
  | .arrsweep h resume => Sys2Proof.Machine.execArrsweep h resume s
  | .chkpt h => Sys2Proof.Machine.execChkpt h s
  | .coll h inst op fmt => Sys2Proof.Machine.execColl h inst op fmt s
  | .cpy h inst routine => Sys2Proof.Machine.execCpy h inst routine s
  | .cpymc h inst routine => Sys2Proof.Machine.execCpymc h inst routine s
  | .ebbsweep h region => Sys2Proof.Machine.execEbbsweep h region s
  | .engq h cls inst => Sys2Proof.Machine.execEngq h cls inst s
  | .nmc h => Sys2Proof.Machine.execNmc h s
  | .publish h => Sys2Proof.Machine.execPublish h s
  | .rld h plane => Sys2Proof.Machine.execRld h plane s
  | .rst h plane => Sys2Proof.Machine.execRst h plane s
  | .scrub h inst => Sys2Proof.Machine.execScrub h inst s
  | .sixrun h rate rle => Sys2Proof.Machine.execSixrun h rate rle s
  | .stepadv h inc => Sys2Proof.Machine.execStepadv h inc s
  | .br c off => Sys2Proof.Machine.execBr c off s
  | .brk tag => Sys2Proof.Machine.execBrk tag s
  | .bsnd h n ge off => Sys2Proof.Machine.execBsnd h n ge off s
  | .call off => Sys2Proof.Machine.execCall off s
  | .fence scope => Sys2Proof.Machine.execFence scope s
  | .fmtset form => Sys2Proof.Machine.execFmtset form s
  | .loop n rev pre endOff => Sys2Proof.Machine.execLoop n rev pre endOff s
  | .shape file rows cols => Sys2Proof.Machine.execShape file rows cols s
  | .sync mask => Sys2Proof.Machine.execSync mask s
  | .sysrd d n => Sys2Proof.Machine.execSysrd d n s
  | .syswr h n => Sys2Proof.Machine.execSyswr h n s
  | .trap code => Sys2Proof.Machine.execTrap code s
  | .waitg h limit => Sys2Proof.Machine.execWaitg h limit s
  | .xmov df d sf n => Sys2Proof.Machine.execXmov df d sf n s
  | .bundleFetch core => Sys2Proof.Machine.execBundleFetch core s
  | .secondaryBundleIssue core => Sys2Proof.Machine.execSecondaryBundleIssue core s
  | .resultLanding core q => Sys2Proof.Machine.execResultLanding core q s
  | .accessPerform id => Sys2Proof.Machine.execAccessPerform id s
  | .secondaryAccessDeferred id => Sys2Proof.Machine.execSecondaryAccessDeferred id s
  | .openPoolService id => Sys2Proof.Machine.execOpenPoolService id s
  | .sendLanding id => Sys2Proof.Machine.execSendLanding id s
  | .watchItemLanding core => Sys2Proof.Machine.execWatchItemLanding core s
  | .syncBarrierComplete cluster => Sys2Proof.Machine.execSyncBarrierComplete cluster s
  | .syncTimeout cluster => Sys2Proof.Machine.execSyncTimeout cluster s
  | .waitgRelease core q => Sys2Proof.Machine.execWaitgRelease core q s
  | .waitgDeadline core q => Sys2Proof.Machine.execWaitgDeadline core q s
  | .fenceRelease core q => Sys2Proof.Machine.execFenceRelease core q s
  | .tfenceRelease core q => Sys2Proof.Machine.execTfenceRelease core q s
  | .secondaryWatchdog core => Sys2Proof.Machine.execSecondaryWatchdog core s
  | .engineStart id => Sys2Proof.Machine.execEngineStart id s
  | .sweepElimination core => Sys2Proof.Machine.execSweepElimination core s
  | .copyBudgetExpiry id => Sys2Proof.Machine.execCopyBudgetExpiry id s
  | .cpymcDeliveryCheck id => Sys2Proof.Machine.execCpymcDeliveryCheck id s
  | .cpymcChunkLanding id j => Sys2Proof.Machine.execCpymcChunkLanding id j s
  | .sixrunOffsetPush core => Sys2Proof.Machine.execSixrunOffsetPush core s
  | .ebbSweepGranule id => Sys2Proof.Machine.execEbbSweepGranule id s
  | .nmBlockPerform channel id => Sys2Proof.Machine.execNmBlockPerform channel id s
  | .chkptDrainPage m => Sys2Proof.Machine.execChkptDrainPage m s
  | .chkptDrainEnd m => Sys2Proof.Machine.execChkptDrainEnd m s
  | .collComplete id => Sys2Proof.Machine.execCollComplete id s
  | .remoteCompletion id status data => Sys2Proof.Machine.execRemoteCompletion id status data s
  | .remoteTimeout id => Sys2Proof.Machine.execRemoteTimeout id s
  | .linkLoss plane => Sys2Proof.Machine.execLinkLoss plane s
  | .cloysFlitReceive plane flit => Sys2Proof.Machine.execCloysFlitReceive plane flit s
  | .launchRecord port frame => Sys2Proof.Machine.execLaunchRecord port frame s
  | .icmpv6NeighbourDiscovery port frame => Sys2Proof.Machine.execIcmpv6NeighbourDiscovery port frame s
  | .icmpv6Echo port frame => Sys2Proof.Machine.execIcmpv6Echo port frame s
  | .unsupportedFrame port => Sys2Proof.Machine.execUnsupportedFrame port s
  | .taskSeal m => Sys2Proof.Machine.execTaskSeal m s
  | .taskStart m => Sys2Proof.Machine.execTaskStart m s
  | .taskComplete m => Sys2Proof.Machine.execTaskComplete m s
  | .launchCycleLimit m core => Sys2Proof.Machine.execLaunchCycleLimit m core s
  | .launch delay cmask ltab cycles => Sys2Proof.Machine.execLaunch delay cmask ltab cycles s
  | .timeline delay chmask word soff => Sys2Proof.Machine.execTimeline delay chmask word soff s
  | .publishn delay count list => Sys2Proof.Machine.execPublishn delay count list s
  | .waitn delay mode gen gaddr limit => Sys2Proof.Machine.execWaitn delay mode gen gaddr limit s
  | .chkptn delay nr ranges dest => Sys2Proof.Machine.execChkptn delay nr ranges dest s
  | .stepn delay inc => Sys2Proof.Machine.execStepn delay inc s
  | .goto delay target count => Sys2Proof.Machine.execGoto delay target count s
  | .nodeEnd delay => Sys2Proof.Machine.execNodeEnd delay s
  | .waitnRelease m => Sys2Proof.Machine.execWaitnRelease m s
  | .waitnLimit m => Sys2Proof.Machine.execWaitnLimit m s
  | .nodePreemption m => Sys2Proof.Machine.execNodePreemption m s
  | .forcedPreemptionLanding m => Sys2Proof.Machine.execForcedPreemptionLanding m s
  | .preemptedTaskResume m => Sys2Proof.Machine.execPreemptedTaskResume m s
  | .parkedRequestDeadlineCheck m => Sys2Proof.Machine.execParkedRequestDeadlineCheck m s
  | .contextStreamerWrite core => Sys2Proof.Machine.execContextStreamerWrite core s
  | .taskDiscard m => Sys2Proof.Machine.execTaskDiscard m s
  | .hostLaunchRecord e => Sys2Proof.Machine.execHostLaunchRecord e s
  | .resumeParkedTask e => Sys2Proof.Machine.execResumeParkedTask e s
  | .stepTask e => Sys2Proof.Machine.execStepTask e s
  | .discardParkedTask e => Sys2Proof.Machine.execDiscardParkedTask e s
  | .clearErrorLog e => Sys2Proof.Machine.execClearErrorLog e s
  | .clearErrorCounters e => Sys2Proof.Machine.execClearErrorCounters e s
  | .loadMooring e pins chans grps => Sys2Proof.Machine.execLoadMooring e pins chans grps s
  | .startSecondaryStream e => Sys2Proof.Machine.execStartSecondaryStream e s
  | .stopSecondaryStream e => Sys2Proof.Machine.execStopSecondaryStream e s
  | .setLooseMode e => Sys2Proof.Machine.execSetLooseMode e s
  | .requestForcedPreemption e => Sys2Proof.Machine.execRequestForcedPreemption e s
  | .hostSramAccess addr write bytes => Sys2Proof.Machine.execHostSramAccess addr write bytes s
  | .hostHbmAccess addr write bytes => Sys2Proof.Machine.execHostHbmAccess addr write bytes s
  | .openShareService channel => Sys2Proof.Machine.execOpenShareService channel s
  | .hostMooringRegisterWrite r v => Sys2Proof.Machine.execHostMooringRegisterWrite r v s
  | .shareMapWrite channel map => Sys2Proof.Machine.execShareMapWrite channel map s
  | .powerCapWrite watts => Sys2Proof.Machine.execPowerCapWrite watts s
  | .routineTableLoad image entries => Sys2Proof.Machine.execRoutineTableLoad image entries s
  | .hostRegisterWrite r v => Sys2Proof.Machine.execHostRegisterWrite r v s
  | .windowEnd channel => Sys2Proof.Machine.execWindowEnd channel s
  | .act f row => Sys2Proof.Machine.execAct f row s
  | .pre f => Sys2Proof.Machine.execPre f s
  | .prea delay pc => Sys2Proof.Machine.execPrea delay pc s
  | .rd f => Sys2Proof.Machine.execRd f s
  | .rda f => Sys2Proof.Machine.execRda f s
  | .wr f => Sys2Proof.Machine.execWr f s
  | .wra f => Sys2Proof.Machine.execWra f s
  | .crd f => Sys2Proof.Machine.execCrd f s
  | .ref delay pc => Sys2Proof.Machine.execRef delay pc s
  | .refsb f => Sys2Proof.Machine.execRefsb f s
  | .rfm f => Sys2Proof.Machine.execRfm f s
  | .scrb f => Sys2Proof.Machine.execScrb f s
  | .nmx delay len index => Sys2Proof.Machine.execNmx delay len index s
  | .waitc delay count => Sys2Proof.Machine.execWaitc delay count s
  | .timelineLoop delay count => Sys2Proof.Machine.execTimelineLoop delay count s
  | .endl delay => Sys2Proof.Machine.execEndl delay s
  | .mark delay n core pool gauge => Sys2Proof.Machine.execMark delay n core pool gauge s
  | .timelineEnd delay => Sys2Proof.Machine.execTimelineEnd delay s
  | .timelineLanding channel id => Sys2Proof.Machine.execTimelineLanding channel id s
  | .autoPrecharge channel pc bank => Sys2Proof.Machine.execAutoPrecharge channel pc bank s
  | .cleanupPrecharge channel pc bank => Sys2Proof.Machine.execCleanupPrecharge channel pc bank s
  | .attestationRequest nonce => Sys2Proof.Machine.execAttestationRequest nonce s
  | .eolpredUpdate v => Sys2Proof.Machine.execEolpredUpdate v s
  | .ret => Sys2Proof.Machine.execRet s
  | .tfence => Sys2Proof.Machine.execTfence s
  | .watch => Sys2Proof.Machine.execWatch s
  | .doneI => Sys2Proof.Machine.execDoneI s
  | .cloysQuotaInterval => Sys2Proof.Machine.execCloysQuotaInterval s
  | .frameBoundary => Sys2Proof.Machine.execFrameBoundary s
  | .powerOnReset => Sys2Proof.Machine.execPowerOnReset s
  | .thermalLimit => Sys2Proof.Machine.execThermalLimit s
  | .thermalConditionClear => Sys2Proof.Machine.execThermalConditionClear s

end Sys2Proof.Machine
end

