-- ==== Sys2Proof/Machine/Bundle.lean ====
section
/-! DEFINITION. Sys2Proof/Machine/Bundle.lean: the syllables of a fetched bundle issue together (R32, R41, R66, R91, R306 to R310,
R327). -/

namespace Sys2Proof.Machine
open Config

/-- What the syllables of a bundle have met so far: the lowest precise cause, the trap of a bundle that issues all the same,
and whether a secondary bundle must wait. -/
structure Met where
  precise : Option Trap
  kept : Option Trap
  waits : Bool
  deriving DecidableEq, Repr

/-- Two precise causes of one bundle: the lowest is taken, and illegal slots add up (R306, R308). -/
def Trap.join (a b : Trap) : Trap :=
  if a.cause = 4 ∧ b.cause = 4 then { a with info := a.info ||| b.info }
  else if b.cause < a.cause then b else a

def joinTrap (o : Option Trap) (t : Trap) : Option Trap :=
  match o with
  | none => some t
  | some u => some (u.join t)

/-- The syllables issue one after the other, each reading the state that the others have not yet changed in what it reads: results
land later, and accesses perform later. A syllable that meets a precise cause or must wait has no effect here. -/
def issueGo : List Instr → Met → State → Out (State × Met)
  | [], m, s => .next (s, m)
  | i :: l, m, s =>
    match exec i { s with trapped := none } with
    | .fault f => .fault f
    | .refused r => .refused r
    | .next t =>
      match t.trapped with
      | none => issueGo l m t
      | some tr =>
        if tr.cause = causeWait then issueGo l { m with waits := true } s
        else if tr.kept then
          match m.kept with
          | none => issueGo l { m with kept := some tr } t
          | some _ => issueGo l m s
        else issueGo l { m with precise := joinTrap m.precise tr } s

/-- The bank-cycles of a command or a `MARK` that became known in this cycle meet a syllable of the bundle (R197). -/
def State.clashes (s : State) (own : HOwn) : Bool :=
  let t := { s with holds := s.holds.filter fun h => h.own == own && h.known == s.now, trapped := none }
  s.issuing.any fun i => match exec i t with
    | .next u => (match u.trapped with
      | some tr => tr.cause == 5 && tr.info == 4
      | none => false)
    | _ => false

/-- Those that fault with a primary bundle that met a bank collision. -/
def State.clashing (s : State) : List HOwn :=
  ((s.holds.filter fun h => h.known == s.now && (match h.own with
    | .eng id => (s.cmd id).any fun c => !c.ended
    | .mark _ _ _ => true
    | _ => false)).map (·.own)).eraseDups.filter s.clashes

/-- Its fault: a command's, or that of the timeline whose `MARK` it is, which does not perform. -/
def State.clashFault (s : State) (own : HOwn) : State :=
  match own with
  | .eng id => s.engineFault id 5
  | .mark ch m word => { s with holds := s.holds.filter fun h => !(h.own == own && h.known == s.now) }.breach ch m word ruleMark
  | _ => s

/-- A bundle is nullified by a precise trap: nothing of it stands, and the lowest cause is taken. -/
def State.nullify (s : State) (tr : Trap) : State :=
  let l := if tr.cause = 5 ∧ tr.info = 4 ∧ s.ctx.q = .primary then s.clashing else []
  l.foldl State.clashFault ({ s with issuing := [] }.raise tr)

/-- The record for diagnosis is written as the whole bundle leaves it (R310). -/
def State.rewrite (s : State) : State :=
  let c := s.ctx.core
  match s.ctx.q with
  | .secondary => s
  | .primary => match s.moorOf c with
    | none => s
    | some m => if (s.moor m).loose then s else s.recordNow c (s.now + 1)

/-- A step of a parked task ends with the bundle stepped (R327). -/
def State.endStep (s : State) : State :=
  if s.cur.stepping then
    (s.updCur fun x => { x with stepping := false }).takeTrap ⟨0x13, none, 0, true⟩ none
  else s

/-- A bundle has issued. -/
def State.issued (s : State) (m : Met) : State :=
  match m.kept with
  | none => s.advance.endStep
  | some tr =>
    let s1 := { s with trapped := some tr }
    if tr.cause = 0x20 then s1.advance.rewrite else s1.rewrite

/-- The fetched bundle issues; `pre` is the state before its fetch, with the step to it resolved. -/
def State.issueAll (s pre : State) : Out State :=
  match issueGo s.issuing ⟨none, none, false⟩ s with
  | .fault f => .fault f
  | .refused r => .refused r
  | .next (t, m) =>
    if m.waits then .next { pre with waited := match s.ctx.q with
      | .primary => s.ctx.core :: pre.waited
      | .secondary => pre.waited }
    else match m.precise with
      | some tr => .next (s.nullify tr)
      | none => .next ({ t with issuing := [] }.issued m)

/-- Runs one event: the two events that fetch a bundle issue its syllables too. -/
def runEvent (e : Ev) (s : State) : Out State :=
  match exec e.instr { s with ev := e.ctx } with
  | .fault f => .fault f
  | .refused r => .refused r
  | .next t =>
    match e.instr with
    | .bundleFetch _ => if t.trapped.isSome then .next t else t.issueAll s
    | .secondaryBundleIssue c =>
      let pre := s.updSeq c .secondary fun x => x.resolve
      (match t.trapped with
        | none => t.issueAll pre
        | some tr => if tr.cause = causeWait then .next pre else .next t)
    | _ => .next t

/-- Runs events until none is left. -/
def runAll : Nat → State → State
  | 0, s => s
  | n + 1, s => match s.agenda with
    | [] => s
    | e :: l => (match runEvent e { s with agenda := l } with
      | .next t => runAll n t
      | _ => s)

/-- Words of timelines that may run in one clock: more than any do. -/
def wordsAtOnce : Nat := 4096

/-- The bank-cycles of the `MARK`s of this cycle become known with those of the bundles that issue in it (R197, R224): the timelines' words
are run ahead for them. -/
def State.holdMarks (s : State) : State :=
  let t := { s with agenda := [] }.enterTimelines
  if t.agenda.isEmpty then s
  else { s with holds := s.holds ++ ((runAll wordsAtOnce t).holds.filter fun h => h.known == s.now && (match h.own with
      | .mark _ _ _ => true
      | _ => false)) }

/-- The vault accesses that the due bundle of a core would send, as the holds that it makes (R205). -/
def State.wouldSend (s : State) (c : Nat) : List HoldRec :=
  match runEvent (plainEv (.bundleFetch c)) s with
  | .next t => (t.holds.drop s.holds.length).filter fun h => h.res.isVault || h.res == .lateral (c / coresPerCluster)
  | _ => []

/-- Two bundles that issue in one cycle meet, on their cluster's lateral port or in a vault bank: the kinds of the faults. -/
def meetKinds (a b : List HoldRec) : List Nat :=
  (if a.any fun h => b.any fun k => !h.res.isVault && h.res == k.res && h.t == k.t then [6] else [])
    ++ (if a.any fun h => b.any fun k => h.res.isVault && h.res == k.res && h.t == k.t then [4] else [])

/-- The rule of R205 on the bundles of this cycle: every bundle that takes part in a meeting faults. -/
def State.judgeVaults (s : State) (due : List Nat) : State :=
  let l := due.filter fun c => due.any fun d => d != c
  let hs := l.map fun c => (c, s.wouldSend c)
  { s with latFail := hs.flatMap fun x => (hs.filter fun y => y.1 != x.1).flatMap fun y => (meetKinds x.2 y.2).map fun k => (x.1, k) }

end Sys2Proof.Machine
end

