-- ==== Sys2Proof/Machine/Plan.lean ====
section
/-! DEFINITION. Sys2Proof/Machine/Plan.lean: which events each part of a core cycle holds (log 5). A cycle runs through numbered
parts; at the start of each one, its events are put on the agenda from the state as it then stands. -/

namespace Sys2Proof.Machine
open Config

/-- An event where a condition holds. -/
def evIf (c : Bool) (i : Instr) : List Ev := if c then [plainEv i] else []

/-! ### Part 1: what comes from outside -/

/-- The index of a submission entry in the ring. -/
def entrySeq : Instr → Option Nat
  | .hostLaunchRecord e | .resumeParkedTask e | .stepTask e | .discardParkedTask e | .clearErrorLog e | .clearErrorCounters e | .loadMooring e _ _ _
  | .startSecondaryStream e | .stopSecondaryStream e | .setLooseMode e | .requestForcedPreemption e => some e.seq
  | _ => none

def fromHost (r : Req) : Bool :=
  match r.src with
  | .host _ _ => !r.answered
  | _ => false

/-- Completion entries that the Pilot has reserved for entries that it has taken and not yet answered (R332). -/
def State.owed (s : State) : Nat :=
  (s.moorings.toList.map fun k => (k.slots.filter fun p => fromHost p.req).length + (k.bulk.filter fromHost).length + k.preempt.length
    + (if k.resuming.isSome then 1 else 0)).foldl (· + ·) s.secStops.length

/-- Entries that the Pilot may take now: sixteen completion entries are held back for fault records (R335). -/
def State.roomFor (s : State) : Nat := s.complCap - 16 - (s.compl.filter fun c => c.kind != 0x82).length - s.owed

/-- The inputs that are due, split into those taken now and those that stay. Submission entries are taken in ring order from `head` on, while
a completion entry can be reserved for each and the tail has passed it (R332): `room` of them at most. -/
def splitInputs (now : Nat) : Nat → Nat → List (Nat × Ev) → List Ev × List (Nat × Ev)
  | _, _, [] => ([], [])
  | room, head, (t, e) :: l =>
    let stay := let r := splitInputs now room head l
      (r.1, (t, e) :: r.2)
    if now < t then stay
    else match entrySeq e.instr, room with
      | none, _ =>
        let r := splitInputs now room head l
        (e :: r.1, r.2)
      | some _, 0 => stay
      | some q, n + 1 => if q = head then
          let r := splitInputs now n (head + 1) l
          (e :: r.1, r.2)
        else stay

/-- A record from an Ethernet port. -/
def fromPort (p : Nat) (e : Ev) : Bool :=
  match e.instr with
  | .launchRecord q _ => q == p
  | _ => false

/-- Records in the order of R282, then everything else in its own order. -/
def inOrder (l : List Ev) : List Ev :=
  l.filter (fromPort 0) ++ l.filter (fromPort 1) ++ l.filter fun e => !fromPort 0 e && !fromPort 1 e

/-- What the start of a cycle brings of itself: a frame, an interval of the quotas, resumptions, the streamers. -/
def State.planStart (s : State) : List Ev :=
  evIf (s.now % frameCycles == 0) .frameBoundary ++ evIf (s.now % microCycles == 0) .cloysQuotaInterval
    ++ ((List.range 16).filter s.linkSilent).map (fun p => plainEv (.linkLoss p))
    ++ ((List.range nMoorings).filter s.resumesNow).map (fun m => plainEv (.preemptedTaskResume m))
    ++ (s.coreIds.filter fun c => (s.streamItem c).isSome).map fun c => plainEv (.contextStreamerWrite c)

/-- Launched cores start; then come the events of the cycle itself, then the inputs. -/
def State.enterOutside (s : State) : State :=
  let s1 := s.startDue
  let r := splitInputs s.now (if s1.boot = .up then Nat.min s1.roomFor (s1.subTail - s1.subHead) else 0) s1.subHead s1.inputs
  { s1 with inputs := r.2, agenda := s1.planStart ++ inOrder r.1 }

/-! ### Parts 2 to 8 -/

/-- Part 2: results land, the secondary's first. -/
def State.planLandings (s : State) : List Ev :=
  s.coreIds.flatMap fun c =>
    let k := s.core c
    let ps := if k.prim.frozen.isSome then [] else k.prim.queue.filter fun e => e.ready s.now
    evIf (k.sec.queue.any fun e => e.ready s.now) (.resultLanding c .secondary)
      ++ evIf (ps.any fun e => e.eff.isWatch) (.watchItemLanding c)
      ++ evIf (ps.any fun e => !e.eff.isWatch) (.resultLanding c .primary)

def Cmd.isMc (c : Cmd) : Bool := c.opc == 0x11

/-- A step of a command at the start of a cycle, before the bundles issue: its block read, the granules of a `SIXRUN`, and the steps that
touch no byte, which set or check state or schedule a raise (R197). -/
def State.early (s : State) (a : Access) : Bool :=
  !a.write && (match a.kind, a.owner with
    | .eng k n, .cmd id => k != stepAfter && k != stepTail && (decide (k < firstLate) || n == 0 || (s.cmd id).any fun c => c.cls == .six)
    | _, _ => false)

/-- A numbered step of a command. -/
def Access.isStep (a : Access) (n : Nat) : Bool :=
  match a.kind with
  | .eng k _ => k == n && !a.write
  | _ => false

/-- Part 3: forced pre-emptions land. -/
def State.planPreempt (s : State) : List Ev :=
  ((List.range nMoorings).filter fun m => !(s.landingAt m).isEmpty).map fun m => plainEv (.forcedPreemptionLanding m)

/-- Part 4, of the Pilot: starts and limits. -/
def State.planPilot (s : State) : List Ev :=
  let ms := List.range nMoorings
  (ms.filter fun m => ((s.moor m).startNow s.now).isSome).map (fun m => plainEv (.taskStart m))
    ++ ms.flatMap fun m => ((s.moor m).launched.filter fun l => s.lateCore m l.core).map fun l => plainEv (.launchCycleLimit m l.core)

/-- Part 4: `PUBLISH` before all other commands and nodes, whose writes and reads of this cycle see the new lit copies (R261). -/
def State.planFlips (s : State) : List Ev :=
  ((s.cmds.filter fun c => !c.ended && c.opc == 0x21).filter s.begins).map fun c => plainEv (.engineStart c.id)

/-- Part 4, of the engines: early steps, budgets and checks, eliminations, and the commands that begin. -/
def State.planEngines (s : State) : List Ev :=
  let live := s.cmds.filter fun c => !c.ended
  let run := live.filter fun c => c.st == .running
  let go := live.filter s.begins
  (s.accesses.filter fun a => a.t == s.now && !a.wait && s.early a).map (fun a => plainEv (.accessPerform a.id))
    ++ (run.filter fun c => c.cls == .copy && c.q == .primary && decide (0 < c.budgetEnd) && decide (c.budgetEnd ≤ s.now)).map (fun c => plainEv (.copyBudgetExpiry c.id))
    ++ (run.filter fun c => c.cls == .cloys && decide (c.budgetEnd ≤ s.now)).map (fun c => plainEv (.remoteTimeout c.id))
    ++ (run.filter fun c => c.isMc && s.now + 1 == c.start + c.mc.d).map (fun c => plainEv (.cpymcDeliveryCheck c.id))
    ++ (s.coreIds.filter fun c => match (s.mesh c).sweep with
      | some w => w.due == s.now
      | none => false).map (fun c => plainEv (.sweepElimination c))
    ++ (go.filter fun c => c.opc != 0x21).map fun c => plainEv (.engineStart c.id)

/-- Part 4: the waits of command streams, as the flips of this cycle leave the gauges (R211, R268), and before the checks of the commands
that begin, which see the flip of a node after a release. -/
def State.planWaits (s : State) : List Ev :=
  ((List.range nMoorings).filter fun m => (s.moor m).waiting.isSome && (s.moor m).nodesGo s.now).flatMap fun m =>
    [plainEv (.waitnRelease m), plainEv (.waitnLimit m)]

/-- Part 4: holds end. A `WAITG` looks at its gauge when its event comes, after the flips of this cycle. -/
def State.planReleases (s : State) : List Ev :=
  let gs := (s.coreIds.filter fun c => match (s.core c).prim.hold with
    | .sync _ _ => true
    | _ => false).map (· / coresPerCluster)
  let one (c : Nat) (q : Seq) : List Ev :=
    let x := s.seq c q
    if !x.live then []
    else match x.hold with
      | .waitg _ _ _ limit _ =>
        if limit < s.now ∧ s.deadlines c q then [plainEv (.waitgDeadline c q)] else [plainEv (.waitgRelease c q)]
      | .fence sc t idle => evIf (decide (t + 1 + idle ≤ s.now) && s.fenceFree c q sc t) (.fenceRelease c q)
      | .tfence t idle => evIf (decide (t + 1 + idle ≤ s.now) && x.allLanded) (.tfenceRelease c q)
      | _ => []
  (gs.eraseDups.filter fun g => (s.masksOf g).any (s.syncDone g)).map (fun g => plainEv (.syncBarrierComplete g))
    ++ s.coreIds.flatMap fun c => one c .primary ++ one c .secondary

/-- Part 4: nodes that are due, then the rest. -/
def State.enterControl (s : State) : State :=
  let s1 := { s with agenda := s.planPilot ++ s.planFlips ++ s.planWaits ++ s.planEngines ++ s.planReleases }
  ((List.range nMoorings).filter fun m =>
    let k := s.moor m
    k.nodesGo s.now && k.waiting.isNone && k.nodeAt == s.now).foldl State.nodePush s1

/-- A sequencer's next bundle is due. The secondaries stand still while the package is too hot (R343). -/
def State.due (s : State) (c : Nat) (q : Seq) : Bool :=
  let x := s.seq c q
  x.live && (q == .primary || !s.thermalHold) && (match x.hold with
    | .none => decide (x.nextAt ≤ s.now)
    | _ => false)

/-- Part 5: the primaries issue, in ascending core number, then the secondaries. -/
def State.planIssues (s : State) : List Ev :=
  ((s.coreIds.filter fun c => s.due c .primary).map fun c => plainEv (.bundleFetch c))
    ++ (s.coreIds.filter fun c => s.due c .secondary).map fun c => plainEv (.secondaryBundleIssue c)

/-- The event by which an access of this cycle performs. -/
def State.accessEv (s : State) (a : Access) : List Ev :=
  if s.stands a then []
  else if a.wait then evIf (decide (a.t ≤ s.now)) (.openPoolService a.id)
  else if a.t ≠ s.now then []
  else match a.kind with
    | .send _ _ _ _ => [plainEv (.sendLanding a.id)]
    | _ => plainEv (.accessPerform a.id) :: evIf a.owner.isSec (.secondaryAccessDeferred a.id)

/-- Part 6: accesses that only read. -/
def State.planReads (s : State) : List Ev := (s.accesses.filter fun a => a.kind.reads || (match a.kind with
    | .eng k _ => decide (firstLate ≤ k) && !a.write && !s.early a
    | _ => false)).flatMap s.accessEv

/-- The commands that run and act in this cycle on their own. -/
def State.planUnits (s : State) : List Ev :=
  let run := s.cmds.filter fun c => !c.ended && c.st == .running
  (s.coreIds.filter s.sixActs).map (fun c => plainEv (.sixrunOffsetPush c))
    ++ (run.filter s.sweepDue).map (fun c => plainEv (.ebbSweepGranule c.id))
    ++ (run.filter fun c => c.isMc && decide (c.start + c.mc.d ≤ s.now) && decide (s.now < c.start + c.mc.d + c.mc.chunks)).map
      fun c => plainEv (.cpymcChunkLanding c.id (s.now - (c.start + c.mc.d)))

/-- Bytes `lo` to `hi` − 1 of a granule of a stream buffer, written in this cycle by an access or a landing of number `who`. -/
structure BufSpan where
  who : Nat
  key : Nat
  lo : Nat
  hi : Nat
  deriving DecidableEq, Repr

/-- Two writes of which some byte is the same. -/
def BufSpan.meets (a b : BufSpan) : Bool := a.who != b.who && a.key == b.key && decide (a.lo < b.hi) && decide (b.lo < a.hi)

/-- The bytes of stream buffers that an access of a copy engine writes now. -/
def State.bufSpans (s : State) (a : Access) : List BufSpan :=
  match a.owner, a.place, a.kind with
  | .cmd id, .phys off, .eng k n => (match s.cmd id with
    | some c => if a.write && c.cls == .copy && decide (firstLate ≤ k) && !a.wait && a.t == s.now
        then (hbmPieces off n).map fun p => ⟨a.id, bufKey c.unit ((off + p.1) % 65536 / 64), (off + p.1) % 64, (off + p.1) % 64 + p.2⟩ else []
    | none => [])
  | _, _, _ => []

/-- Two writes of one byte of a stream buffer in one cycle collide (R269): neither performs, and a command that issued one takes a timing
fault. A landing has no issuer that could take one. -/
def State.judgeBuffers (s : State) : State :=
  let lands := s.channels.flatMap fun k => (k.2.landings.filter fun l => l.t == s.now).map fun l => (⟨l.id, l.key, 0, 64⟩ : BufSpan)
  let all := lands ++ s.accesses.flatMap s.bufSpans
  let bad := (all.filter fun x => all.any x.meets).map (·.who)
  if bad.isEmpty then s
  else
    let ids := s.accesses.filterMap fun a => match a.owner with
      | .cmd id => if bad.contains a.id then some id else none
      | _ => none
    let s1 := ids.eraseDups.foldl (fun t id => t.engineFault id 5) s
    (s.channels.filter fun k => k.2.landings.any fun l => bad.contains l.id).foldl (fun t k =>
      t.updChan k.1 fun x => { x with landings := x.landings.filter fun l => !bad.contains l.id }) s1

/-- Gauge raises and closes perform after `GAUGE` (R248); those that wait take their bank before, to count with the others. -/
def Access.last (a : Access) : Bool :=
  !a.wait && (match a.kind with
    | .raise _ | .close _ => true
    | _ => false)

/-- Part 7: what seals write (R268), accesses that write, raises and closes of gauges last. -/
def State.planWrites (s : State) : List Ev :=
  let ws := s.accesses.filter fun a => !a.kind.reads && (match a.kind with
    | .eng _ _ => a.write
    | _ => true)
  let seals := (List.range nMoorings).filter fun m => ((s.moor m).sealNow s.now).isSome
  seals.map (fun m => plainEv (.taskSeal m)) ++ s.planUnits ++ s.planBlocks ++ s.planTlLandings ++ (ws.filter fun a => !a.last).flatMap s.accessEv ++ (ws.filter Access.last).flatMap s.accessEv

/-- The primaries that issue in timed code, on which R205 is judged. -/
def State.timedDue (s : State) : List Nat :=
  s.coreIds.filter fun c => s.due c .primary && (match s.moorOf c with
    | some m => !(s.moor m).loose
    | none => true)

/-- The pages that a drain moves now, and its end. -/
def State.planDrain (s : State) (m : Nat) : List Ev :=
  match (s.moor m).drain with
  | none => []
  | some d =>
    if d.nextPage < d.pages ∧ d.pageAt d.nextPage = s.now then
      plainEv (.chkptDrainPage m) :: evIf (d.nextPage + 1 == d.pages) (.chkptDrainEnd m)
    else []

/-- Part 8, of the Pilot: windows, drains, tasks that end, late requests, discards. -/
def State.planTasks (s : State) : List Ev :=
  let ms := List.range nMoorings
  s.planWindowEnds ++ ms.flatMap s.planDrain
    ++ (ms.filter fun m => ((s.moor m).st == .running && (s.moor m).atEnd) || (s.moor m).overdue s.now).map (fun m => plainEv (.taskComplete m))
    ++ (ms.filter fun m => !(s.lateRequests m).isEmpty).map (fun m => plainEv (.parkedRequestDeadlineCheck m))
    ++ (ms.filter fun m => (s.moor m).discardsNow s.now).map fun m => plainEv (.taskDiscard m)

/-- Part 8: what the end of a cycle brings. -/
def State.planEnds (s : State) : List Ev :=
  let gs := ((s.coreIds.filter fun c => match (s.core c).prim.hold with
    | .sync _ _ => true
    | _ => false).map (· / coresPerCluster)).eraseDups
  (s.coreIds.flatMap fun k => (s.accesses.filter fun a => a.t == s.now && a.isStep stepAfter && (match a.owner with
      | .cmd id => (s.cmd id).any fun c => c.core == k
      | _ => false)).map fun a => plainEv (.accessPerform a.id))
    ++ ((List.range nMoorings).flatMap fun m => (s.moor m).stepns.map fun e => ⟨.stepEnd m e.1, .stepn 0 (BitVec.ofNat 8 e.2)⟩)
    ++ (s.accesses.filter fun a => a.t == s.now && a.isStep stepTail).map (fun a => plainEv (.accessPerform a.id))
    ++ (gs.filter fun g => (s.masksOf g).any (s.syncLate g)).map (fun g => plainEv (.syncTimeout g))
    ++ (s.coreIds.filter s.stalled).map (fun c => plainEv (.secondaryWatchdog c)) ++ s.planTasks

end Sys2Proof.Machine
end

