-- ==== Sys2Proof/Machine/Step.lean ====
section
/-! DEFINITION. Sys2Proof/Machine/Step.lean: one step of the machine: the next event of the agenda, or the next part of the
cycle. -/

namespace Sys2Proof.Machine
open Config

/-- The part of the cycle that begins puts its events on the agenda. -/
def State.enter (s : State) : State :=
  if s.phase = 1 then s.enterOutside
  else if s.phase = 2 then { s with agenda := s.planLandings }
  else if s.phase = 3 then { s with agenda := s.planPreempt }
  else if s.phase = 4 then s.enterControl
  else if s.phase = 5 then
    let t := s.holdMarks.judgeVaults s.timedDue
    { t with agenda := t.planIssues }
  else if s.phase = 6 then
    let t := s.enterChannels
    { t with agenda := t.agenda ++ s.planReads }
  else if s.phase = 7 then
    let t := s.judgeBuffers
    { t with agenda := t.planWrites, memWas := t.mem }
  else { s with agenda := s.planEnds }

/-- The cycle ends: `ENGQ` takes its snapshots, stopped secondaries write their records, tasks park, stops are done, and holds that lie behind are dropped. -/
def State.tick (s : State) : State :=
  let s0 := s.coreIds.foldl State.snapshots s
  let s1 := (s0.coreIds.foldl (fun t c => t.settleSecondary c) s0).tickTasks.endStops.passTurns
  { s1 with now := s.now + 1, phase := 0, holds := s1.holds.filter fun h => decide (s.now < h.t2), latFail := [], waited := [] }

def lastPart : Nat := 8

/-- One step. -/
def step (s : State) : Host.Outcome State Fault Refusal :=
  match s.agenda with
  | e :: l => runEvent e { s with agenda := l }
  | [] => if s.phase < lastPart then .next { s with phase := s.phase + 1 }.enter else .next s.tick

/-! ### Placing one instruction -/

/-- Where the instruction is placed: the first 64 KiB of the pool of cluster 0, at the foot of the translated range. -/
def fetchVa : Nat := codeBase
def fetchPa : Nat := poolBase
/-- A page that may be read, written and fetched from. -/
def fetchPin : Pin := ⟨fetchVa, BitVec.ofNat 64 (2 ^ 63 + 2 ^ 62 + 2 ^ 61 + 2 ^ 60 + 2 ^ 59 + fetchPa), 0⟩

/-- The header of a bundle of one syllable. -/
def oneHeader (sl : Slot) : Nat := 2 ^ 15 + 2 ^ slotIx sl

/-- A sequencer whose next bundle is due now at an address. -/
def SeqState.dueAt (x : SeqState) (pc now : Nat) : SeqState :=
  { x with run := .running, pc := BitVec.ofNat 56 pc, nextAt := now, pend := false, hold := .none, frozen := none, restK := none }

/-- A state whose very next step fetches the syllable w on core 0's primary, in a mooring that owns cluster 0 (log 4). -/
def State.withFetchWord (s : State) (nbits w : Nat) : State :=
  let sl := match (if nbits = 32 then firstSlot w tableSlots else none) with
    | some p => p.1
    | none => .c
  let k := s.moor 0
  let s1 := s.setMoor 0 { k with
    loaded := true, cmask := k.cmask ||| 1, pins := fetchPin :: k.pins, st := .running, launched := [⟨0, 2 ^ 64, s.now, BitVec.ofNat 56 fetchVa, 0, true, false⟩] }
  let s2 := s1.updSeq 0 .primary fun x => x.dueAt fetchVa s.now
  { s2 with
    mem := s2.mem.write fetchPa (natBytes 2 (oneHeader sl) ++ natBytes 4 w)
    boot := .up, phase := 5, agenda := [plainEv (.bundleFetch 0)] }

end Sys2Proof.Machine
end

