-- ==== Sys2Proof/Safety.lean ====
section
/-! DEFINITION. Sys2Proof/Safety.lean: what a safe run is, in the terms that the statements use: when a syllable issues, which
accesses a bundle may make, the canonical form of a state. -/

namespace Sys2Proof.Machine
open Config

/-! ### When a syllable issues -/

/-- The unit of a slot is free for n cycles, and every result has a place to land (R37, R41, R43, R65, R66, R81). -/
def State.clear (s : State) (sl : Slot) (n : Nat) (reads : List RRef) (writes : List WriteAt) : Prop :=
  match s.ctx.q with
  | .primary =>
    s.kore.busy.getD (slotIx sl) 0 ≤ s.now
      ∧ (∀ w ∈ writes, w.ref.file = .h → s.kore.hWrites (s.now + w.lat) < 2)
      ∧ ∀ w ∈ writes, ∀ e ∈ s.cur.queue, e.eff.dest = some w.ref → e.due ≠ s.now + w.lat
  | .secondary =>
    s.kore.busy.getD (slotIx sl) 0 ≤ s.now ∧ s.kore.busy2.getD (slotIx sl) 0 ≤ s.now
      ∧ (n ≤ 1 ∨ s.kore.prim.run ≠ .running)
      ∧ (∀ r ∈ reads ++ writes.map (·.ref), ∀ e ∈ s.cur.queue, e.eff.dest = some r → s.now ≤ e.issued)
      ∧ ∀ w ∈ writes, ∀ e ∈ s.cur.queue, e.eff.dest = some w.ref → e.due = s.now + w.lat → e.varLat = true

/-- The same state with the unit of a slot held from this cycle on, for n cycles (R81). -/
def State.holding (s : State) (sl : Slot) (n : Nat) : State :=
  match s.ctx.q with
  | .primary => s.setCore s.ctx.core { s.kore with busy := s.kore.busy.setIfInBounds (slotIx sl) (s.now + n) }
  | .secondary => s.setCore s.ctx.core { s.kore with busy2 := s.kore.busy2.setIfInBounds (slotIx sl) (s.now + n) }

/-- No register of a list carries poison. -/
def State.sound (s : State) (rs : List RRef) : Prop := ∀ r ∈ rs, (s.rd r).poi = false

/-! ### When an access goes through -/

/-- A bank-cycle that an access of a primary stream may take: no hold of the primary stream or of an engine, its wheel slot, and the
lateral network for a vault of any cluster (R197, R202, R205). -/
def State.grants (s : State) (sp : Space) (u : Use) : Prop :=
  s.meets u = [] ∧ (u.res.isVault = true → (s.ctx.core, 4) ∉ s.latFail) ∧ u.offWheel s.ctx.core = false
    ∧ u.offLateral sp (s.ctx.core / coresPerCluster) = false

/-- n bytes that a slot reaches at an offset of a space, aligned to `al`, lie in the window, are mapped to SRAM with the permission, and find
their port and their banks in cycle t (R195 to R211, R311). -/
def State.takes (s : State) (sl : Slot) (sp : Space) (off n al : Nat) (p : Perm) (t : Nat) : Prop :=
  off % al = 0 ∧ off + n ≤ spaceBytes sp
    ∧ (sp = .near → off / vaultBytes = s.ctx.core / coresPerCluster)
    ∧ (sp = .own → p = .w → s.ctx.q = .primary → s.kore.inRecord off n = false)
    ∧ ∃ spt, s.resolve s.via (s.moorOf s.ctx.core) s.ctx.core (spaceVa s.ctx.core sp off) n p false = .ok spt
      ∧ spt.inSram = true
      ∧ (s.ctx.q = .primary → s.waitsIn sp = false → ∀ u ∈ s.spotUses sl sp spt n t, s.grants sp u)
      ∧ (s.ctx.q = .secondary → sp = .own → ∀ u ∈ s.spotUses sl sp spt n t, s.meets u = [])

/-- A space that the issuing stream may reach, in a cycle that the lateral port of the cluster serves no other core (R35, R205). -/
def State.mayReach (s : State) (sp : Space) (t : Nat) : Prop :=
  match s.ctx.q with
  | .secondary => sp = .own ∨ sp = .pool
  | .primary => sp = .any → s.openPool = false →
      s.meets ⟨t, .lateral (s.ctx.core / coresPerCluster), 0⟩ = [] ∧ (s.ctx.core, 6) ∉ s.latFail

/-- A load of n bytes, i cycles after its bundle, with its plane byte where it has one. -/
def State.mayLoad (s : State) (sp : Space) (off n : Nat) (plane : Bool) (i : Nat) : Prop :=
  s.mayReach sp (s.now + i) ∧ s.takes .m sp off n n .r (s.now + spaceReach sp + i)
    ∧ (plane = true → s.takes .m sp (s.planeOff off) 1 1 .r (s.now + spaceReach sp + i))

/-- A store of n bytes, with its plane bytes. -/
def State.mayStore (s : State) (sp : Space) (off n : Nat) (plane : Bool) (i : Nat) : Prop :=
  s.mayReach sp (s.now + i) ∧ s.takes .m sp off n n .w (s.now + spaceReach sp + i)
    ∧ (plane = true → s.takes .m sp (s.planeOff off) (planeBytes n) 1 .w (s.now + spaceReach sp + i))

/-- A read-modify-write of n bytes of a bank (R199). -/
def State.mayModify (s : State) (sp : Space) (off n : Nat) : Prop :=
  s.takes .m sp off n n .r (s.now + atomReach sp) ∧ s.takes .m sp off n n .w (s.now + atomReach sp)

/-- The address lies in an active ebb region of the core's mooring (R130). -/
def State.inRegion (s : State) (sp : Space) (off : Nat) : Prop :=
  ∃ r, s.regionOf (s.moorOf s.ctx.core) (fullVa s.ctx.core (spaceVa s.ctx.core sp off)) = some r

/-- No access that is already known touches a granule while a merge-add has it locked (R199). -/
def State.lockFree (s : State) (sp : Space) (off : Nat) : Prop :=
  s.ctx.q = .primary → s.waitsIn sp = false → ∀ u ∈ s.rmwUses sp off 8, ∀ h ∈ s.holds,
    u.res.isPort = false → h.res = u.res → h.own.isSec = false → u.t < h.t → h.t ≤ u.t + 24 → h.touch ≠ u.gran

/-- Chunk j of a transfer of a tile finds its banks. -/
def State.chunkFree (s : State) (sl : Slot) (a bytes j t : Nat) (p : Perm) (plane : Bool) : Prop :=
  s.takes sl .own (a + 128 * j) (chunkLen bytes j) 1 p t
    ∧ (plane = true → s.takes sl .own (s.planeOff (a + 128 * j)) (planeCount (a + 128 * j) (chunkLen bytes j)) 1 p t)

/-- A whole tile moves to or from the scratchpad (R150, R161). -/
def State.tileFree (s : State) (f : VW) (a : Nat) (p : Perm) (plane : Bool) : Prop :=
  a + s.kore.tileBytes f ≤ spadBytes ∧ a % s.kore.eb = 0 ∧ (plane = true → s.kore.form.isSx = false)
    ∧ ∀ j < nChunks (s.kore.tileBytes f), s.chunkFree f.slot a (s.kore.tileBytes f) j (s.now + 2 + j) p plane

/-- A gather or scatter finds its offsets in `Q0`, its elements in the scratchpad, and no two of them in one bank (R260, R429). -/
def State.gatherFree (s : State) (f : VW) (h : HRd) (count t : Nat) (p : Perm) : Prop :=
  s.ctx.q = .primary ∧ count ≤ s.kore.elems f ∧ count ≤ s.kore.q0.length ∧ (s.rd h.ref).val.toNat % s.kore.eb = 0
    ∧ (∀ a ∈ s.gatherAddrs h count, a + s.kore.eb ≤ spadBytes ∧ s.takes f.slot .own a s.kore.eb 1 p t)
    ∧ gatherConflict ((s.gatherAddrs h count).flatMap fun a => s.accUses f.slot .own a s.kore.eb p t) = false

/-! ### The canonical form of a state -/

/-- Every sparse map of the state is in canonical form. -/
structure State.Canon (s : State) : Prop where
  mem : s.mem.wf = true
  poison : swf false 0 s.poison = true
  cores : swf Core.init 0 s.cores = true
  channels : swf Channel.init 0 s.channels = true

/-- A sparse map is in canonical form. -/
def Tidy {α : Type} [DecidableEq α] (d : α) (l : List (Nat × α)) : Prop := swf d 0 l = true

/-- Every sparse part of the state is in canonical form: equal contents are equal data. -/
structure State.Formed (s : State) : Prop where
  canon : s.Canon
  planes : Tidy Plane.init s.planes
  counters : Tidy (0, 0) s.counters
  bufs : Tidy 0 s.bufs
  gotos : ∀ m, Tidy 0 (s.moor m).gotos
  stores : ∀ c, Tidy 0 (s.chan c).store

/-! ### Runs -/

/-- A step that stops no machine. -/
def Safe (s : State) : Prop := ∃ t, step s = .next t

end Sys2Proof.Machine
end

