-- ==== Sys2Proof/Certificates/Slice0/Obligations.lean ====
section
/-! DEFINITION. Sys2Proof/Certificates/Slice0/Obligations.lean: the statements for the provers, each from the rules that its docstring
names. -/

namespace Sys2Proof.Spec
open Sys2Proof.Machine Config

/-! ### What a syllable leaves when it issues -/

/-- The state after a syllable that gives one integer result: its unit is held for a cycle, and one entry more waits to land, with
sounding 63, poisoned where a source is, and no flag. -/
def delivers (s : State) (sl : Slot) (reads : List RRef) (d : RRef) (lat : Nat) (v : Word) : State :=
  (s.holding sl 1).push ⟨s.now + lat, .reg d ⟨v, 63, s.poisonOf reads⟩, 0, none, none, false, 0, none, s.now⟩

/-- An instruction of slots A and B with two operands, of which the second may be an H register, and a destination that may be one. -/
def Binary (i : AB → Dst 32 → Fin 32 → Src 32 → Instr) (lat : Nat) (f : Word → Word → Word) : Prop :=
  ∀ (s : State) (sl : AB) (d : Dst 32) (a : Fin 32) (b : Src 32),
    s.clear sl.slot 1 [own sl.file a, b.ref sl.file] [⟨d.ref sl.file, lat⟩] →
    exec (i sl d a b) s = .next (delivers s sl.slot [own sl.file a, b.ref sl.file] (d.ref sl.file) lat
      (f (s.rd (own sl.file a)).val (s.rd (b.ref sl.file)).val))

/-- An instruction with one operand. -/
def Unary (i : AB → Dst 32 → Fin 32 → Instr) (f : Word → Word) : Prop :=
  ∀ (s : State) (sl : AB) (d : Dst 32) (a : Fin 32),
    s.clear sl.slot 1 [own sl.file a] [⟨d.ref sl.file, 1⟩] →
    exec (i sl d a) s = .next (delivers s sl.slot [own sl.file a] (d.ref sl.file) 1 (f (s.rd (own sl.file a)).val))

/-- An instruction with an immediate and a destination of its own file. -/
def Immediate {α : Type} (i : AB → Fin 32 → Fin 32 → α → Instr) (f : Word → α → Word) : Prop :=
  ∀ (s : State) (sl : AB) (d a : Fin 32) (k : α),
    s.clear sl.slot 1 [own sl.file a] [⟨own sl.file d, 1⟩] →
    exec (i sl d a k) s = .next (delivers s sl.slot [own sl.file a] (own sl.file d) 1 (f (s.rd (own sl.file a)).val k))

/-- The nearest number that a signed 64-bit word holds. -/
def nearest64 (x : Int) : Word := BitVec.ofInt 64 (max (-(2 ^ 63)) (min x (2 ^ 63 - 1)))

/-- IMM15, sign-extended. -/
def simm (k : BitVec 15) : Word := BitVec.ofInt 64 k.toInt

end Sys2Proof.Spec

open Sys2Proof Sys2Proof.Machine Sys2Proof.Spec Sys2Proof.Config

/-- R345, R394, R396, R399, R446 with R344: the two-operand integer instructions of slots A and B. -/
def Obligations.IntegerBinaryResults : Prop :=
  Binary .add 1 (fun x y => BitVec.ofNat 64 (x.toNat + y.toNat))
  ∧ Binary .sub 1 (fun x y => BitVec.ofInt 64 ((x.toNat : Int) - y.toNat))
  ∧ Binary .addsat 1 (fun x y => nearest64 (x.toInt + y.toInt))
  ∧ Binary .and 1 (fun x y => x &&& y) ∧ Binary .or 1 (fun x y => x ||| y) ∧ Binary .xor 1 (fun x y => x ^^^ y)
  ∧ Binary .seq 1 (fun x y => if x = y then 1 else 0)
  ∧ Binary .shl 1 (fun x y => BitVec.ofNat 64 (x.toNat * 2 ^ (y.toNat % 64)))
  ∧ Binary .shr 1 (fun x y => BitVec.ofNat 64 (x.toNat / 2 ^ (y.toNat % 64)))
  ∧ Binary .sra 1 (fun x y => BitVec.ofInt 64 (x.toInt / 2 ^ (y.toNat % 64)))
  ∧ Binary .mul 3 (fun x y => BitVec.ofNat 64 (x.toNat * y.toNat))
  ∧ Binary (fun sl d a b => .mulh sl d a b true) 3 (fun x y => BitVec.ofNat 64 (x.toNat * y.toNat / 2 ^ 64))
  ∧ Binary (fun sl d a b => .mulh sl d a b false) 3 (fun x y => BitVec.ofInt 64 (x.toInt * y.toInt / 2 ^ 64))
  ∧ Binary (fun sl d a b => .max sl d a b true) 1 (fun x y => BitVec.ofNat 64 (max x.toNat y.toNat))
  ∧ Binary (fun sl d a b => .max sl d a b false) 1 (fun x y => BitVec.ofInt 64 (max x.toInt y.toInt))
  ∧ Binary (fun sl d a b => .min sl d a b true) 1 (fun x y => BitVec.ofNat 64 (min x.toNat y.toNat))
  ∧ Binary (fun sl d a b => .min sl d a b false) 1 (fun x y => BitVec.ofInt 64 (min x.toInt y.toInt))
  ∧ Binary (fun sl d a b => .slt sl d a b true) 1 (fun x y => if x.toNat < y.toNat then 1 else 0)
  ∧ Binary (fun sl d a b => .slt sl d a b false) 1 (fun x y => if x.toInt < y.toInt then 1 else 0)

/-- R345, R395, R399, R446 with R344: the forms with an immediate. -/
def Sys2Proof.Spec.IntegerImmediateResults : Prop :=
  Immediate .addImm (fun x k => x + simm k) ∧ Immediate .andImm (fun x k => x &&& simm k)
  ∧ Immediate .orImm (fun x k => x ||| simm k) ∧ Immediate .xorImm (fun x k => x ^^^ simm k)
  ∧ Immediate .sltImm (fun x k => if x.toInt < k.toInt then 1 else 0)
  ∧ Immediate .shlImm (fun x (c : Fin 64) => BitVec.ofNat 64 (x.toNat * 2 ^ c.val))
  ∧ Immediate .shrImm (fun x (c : Fin 64) => BitVec.ofNat 64 (x.toNat / 2 ^ c.val))
  ∧ Immediate .sraImm (fun x (c : Fin 64) => BitVec.ofInt 64 (x.toInt / 2 ^ c.val))
  ∧ (∀ (s : State) (sl : AB) (d : Fin 32) (k : BitVec 20), s.clear sl.slot 1 [] [⟨own sl.file d, 1⟩] →
      exec (.movi sl d k) s = .next (delivers s sl.slot [] (own sl.file d) 1 (BitVec.ofInt 64 k.toInt)))
  ∧ ∀ (s : State) (sl : AB) (d : Fin 32) (k : BitVec 20), s.clear sl.slot 1 [own sl.file d] [⟨own sl.file d, 1⟩] →
      exec (.movhi sl d k) s = .next (delivers s sl.slot [own sl.file d] (own sl.file d) 1
        (BitVec.ofNat 64 ((s.rd (own sl.file d)).val.toNat * 2 ^ 20 + k.toNat)))

/-- R349, R351, R358, R398, R399 with R344: bits of one operand, and the instructions that read d. -/
def Sys2Proof.Spec.IntegerBitResults : Prop :=
  Unary .clz (fun x => BitVec.ofNat 64 (if x = 0 then 64 else 63 - Nat.log2 x.toNat))
  ∧ Unary .popc (fun x => BitVec.ofNat 64 ((List.range 64).countP fun i => x.getLsbD i))
  ∧ (∀ pos w : Fin 64, Unary (fun sl d a => .bfx sl d a pos w) fun x => BitVec.ofNat 64 (x.toNat / 2 ^ pos.val % 2 ^ (w.val + 1)))
  ∧ (∀ (s : State) (sl : AB) (d a : Fin 32) (pos w : Fin 64), pos.val + w.val + 1 ≤ 64 →
      s.clear sl.slot 1 [own sl.file a, own sl.file d] [⟨own sl.file d, 1⟩] →
      ∃ v : Word, exec (.bfi sl d a pos w) s = .next (delivers s sl.slot [own sl.file a, own sl.file d] (own sl.file d) 1 v)
        ∧ ∀ j : Nat, v.getLsbD j =
          if pos.val ≤ j ∧ j < pos.val + w.val + 1 then (s.rd (own sl.file a)).val.getLsbD (j - pos.val)
          else (s.rd (own sl.file d)).val.getLsbD j)
  ∧ (∀ (s : State) (sl : AB) (d a : Fin 32) (b : Src 32),
      s.clear sl.slot 1 [own sl.file a, b.ref sl.file, own sl.file d] [⟨own sl.file d, 1⟩] →
      exec (.sel sl d a b) s = .next (delivers s sl.slot [own sl.file a, b.ref sl.file, own sl.file d] (own sl.file d) 1
        (if (s.rd (own sl.file d)).val.toNat % 2 = 1 then (s.rd (own sl.file a)).val else (s.rd (b.ref sl.file)).val)))
  ∧ (∀ (s : State) (d : Dst 32) (a : Fin 32) (cfg : Fin 8), s.clear .b 1 [own .b a] [⟨d.ref .b, 2⟩] →
      exec (.bnet d a cfg) s = .next (delivers s .b [own .b a] (d.ref .b) 2
        (bnetWord (s.cur.bnet.getD cfg.val 0) (s.rd (own .b a)).val)))
  ∧ ∀ (s : State) (a : Fin 32) (stage cfg : Fin 8), s.clear .b 1 [own .b a] [] → s.sound [own .b a] →
      exec (.bnetld a stage cfg) s = .next ((s.holding .b 1).push
        ⟨s.now + 2, .bnet cfg.val stage.val ((s.rd (own .b a)).val.setWidth 32), 0, none, none, false, 0, none, s.now⟩)

/-- R351: one stage exchanges v[lo] and v[lo + 2^j] for each control bit that is set, and no other bits; a stage of zeros is the
identity (R350). -/
def Obligations.ButterflyStage : Prop :=
  (∀ (ctl : BitVec 32) (j k : Nat) (v : Word), j < 6 → k < 32 →
    let lo := k / 2 ^ j * 2 ^ (j + 1) + k % 2 ^ j
    (bnetStage ctl j v).getLsbD lo = v.getLsbD (if ctl.getLsbD k then lo + 2 ^ j else lo)
      ∧ (bnetStage ctl j v).getLsbD (lo + 2 ^ j) = v.getLsbD (if ctl.getLsbD k then lo else lo + 2 ^ j))
  ∧ ∀ v : Word, bnetWord 0 v = v

/-- R393 with R392: the add of slot M. -/
def Sys2Proof.Spec.MaddResults : Prop :=
  (∀ (s : State) (d : Dst 32) (a : Fin 32) (b : Src 32), s.clear .m 1 [own .m a, b.ref .m] [⟨d.ref .m, 1⟩] →
    exec (.madd d a b) s = .next (delivers s .m [own .m a, b.ref .m] (d.ref .m) 1 ((s.rd (own .m a)).val + (s.rd (b.ref .m)).val)))
  ∧ ∀ (s : State) (d a : Fin 32) (k : BitVec 15), s.clear .m 1 [own .m a] [⟨own .m d, 1⟩] →
    exec (.maddImm d a k) s = .next (delivers s .m [own .m a] (own .m d) 1 ((s.rd (own .m a)).val + simm k))

/-- The integer instructions with an immediate or one operand, and the add of slot M. -/
def Obligations.IntegerUnaryResults : Prop := Spec.IntegerImmediateResults ∧ Spec.IntegerBitResults ∧ Spec.MaddResults

namespace Sys2Proof.Spec
open Sys2Proof.Machine Config

/-! ### Floating point -/

/-- The loss event of a result (R152): below the threshold, with every floating-point source at or above it. -/
def lossOf (s : State) (sl : Slot) (srcs : List Nat) (snd : Nat) : Option (Nat × Addr) :=
  if snd < s.cur.sndthr.toNat ∧ srcs ≠ [] ∧ (∀ x ∈ srcs, s.cur.sndthr.toNat ≤ x) then some (slotIx sl, s.ctx.pc) else none

/-- The state after a syllable that gives one floating-point result: its bits, its sounding, its flags, its loss event. -/
def deliversFp (s : State) (sl : Slot) (reads : List RRef) (d : RRef) (lat w snd : Nat) (fl : Flg) (srcs : List Nat) : State :=
  (s.holding sl 1).push ⟨s.now + lat, .reg d ⟨BitVec.ofNat 64 w, BitVec.ofNat 6 snd, s.poisonOf reads⟩, fl, lossOf s sl srcs snd, none,
    false, 0, none, s.now⟩

/-- The low bits of a register, and S(x) (R69, R141). -/
def low (f : Fmt) (r : Reg) : Nat := r.val.toNat % 2 ^ f.width
def snd (f : Fmt) (r : Reg) : Nat := min r.snd.toNat f.p

/-- A two-operand instruction of slots A and B: its value and flags from the bits, its sounding from the bits, the soundings and the
result. -/
def FpBinary (i : AB → Dst 32 → Fin 32 → Src 32 → FS → Instr) (lat : Nat) (f : Fmt → Nat → Nat → Nat × Flg)
    (g : Fmt → Nat → Nat → Nat → Nat → Nat → Nat) : Prop :=
  ∀ (s : State) (sl : AB) (d : Dst 32) (a : Fin 32) (b : Src 32) (fs : FS),
    s.clear sl.slot 1 [own sl.file a, b.ref sl.file] [⟨d.ref sl.file, lat⟩] →
    let x := s.rd (own sl.file a)
    let y := s.rd (b.ref sl.file)
    let r := f fs.fmt (low fs.fmt x) (low fs.fmt y)
    exec (i sl d a b fs) s = .next (deliversFp s sl.slot [own sl.file a, b.ref sl.file] (d.ref sl.file) lat r.1
      (g fs.fmt (low fs.fmt x) (low fs.fmt y) (snd fs.fmt x) (snd fs.fmt y) r.1) r.2 [snd fs.fmt x, snd fs.fmt y])

/-- A one-operand instruction of slots A and B. `fp` says whether its result is a floating-point one. -/
def FpUnary (i : AB → Dst 32 → Fin 32 → FS → Instr) (lat : Nat) (fp : Bool) (f : Fmt → Nat → Nat → Nat)
    (g : Fmt → Nat → Nat → Nat) : Prop :=
  ∀ (s : State) (sl : AB) (d : Dst 32) (a : Fin 32) (fs : FS),
    s.clear sl.slot 1 [own sl.file a] [⟨d.ref sl.file, lat⟩] →
    let x := s.rd (own sl.file a)
    let r := f fs.fmt (low fs.fmt x) (snd fs.fmt x)
    exec (i sl d a fs) s = .next (deliversFp s sl.slot [own sl.file a] (d.ref sl.file) lat r (g fs.fmt (snd fs.fmt x) r) 0
      (if fp then [snd fs.fmt x] else []))

/-- A sounding under a result: 0 for an infinity or a NaN, else within Bits (R143). -/
def under (f : Fmt) (s : Int) (r : Nat) : Nat :=
  match f.dec r with
  | .fin _ _ _ => min s.toNat (f.sigBits r)
  | _ => 0

/-- A one-operand instruction of slot F, with the sounding S(a) + k. -/
def FpFunction (i : Dst 16 → Fin 16 → RM → FS → Instr) (lat : Nat) (k : Int) (f : Fmt → RM → Nat → Nat × Flg) : Prop :=
  ∀ (s : State) (d : Dst 16) (a : Fin 16) (rm : RM) (fs : FS),
    s.clear .f 1 [own .f a] [⟨d.ref .f, lat⟩] →
    let x := s.rd (own .f a)
    let r := f fs.fmt rm (low fs.fmt x)
    exec (i d a rm fs) s = .next (deliversFp s .f [own .f a] (d.ref .f) lat r.1
      (under fs.fmt (snd fs.fmt x + (if k = 1 ∧ (fs.fmt.dec (low fs.fmt x)).isZero then 0 else k)) r.1) r.2 [snd fs.fmt x])

/-- The finite value of an encoding as a rational number. -/
def value (f : Fmt) (w : Nat) : Option ℚ :=
  match f.dec w with
  | .fin n m e => some ((if n then -1 else 1) * (m : ℚ) * (2 : ℚ) ^ e)
  | _ => none

/-- The four formats (R107). -/
def formats : List Fmt := [fmt64, fmt32, fmt16, fmtB16]

/-- x is (−1)^neg × m × 2^e; or, with a sticky bit, its magnitude lies strictly between m × 2^e and (m + 1) × 2^e, and m has at least two
bits more than the format. -/
def IsExact (f : Fmt) (neg : Bool) (m : Nat) (e : Int) (st : Bool) (x : ℝ) : Prop :=
  0 < m ∧ (x < 0 ↔ neg = true)
    ∧ (if st then (m : ℝ) * 2 ^ e < |x| ∧ |x| < ((m : ℝ) + 1) * 2 ^ e ∧ 2 ^ (f.p + 1) ≤ m else |x| = (m : ℝ) * 2 ^ e)

/-- r is the number x rounded once; an exact zero takes its sign from `zneg` and sets no flag (R109, R111). -/
def RoundsTo (f : Fmt) (rm : RM) (x : ℝ) (zneg : Bool) (r : Nat × Flg) : Prop :=
  (x = 0 → r = (f.signBit zneg, 0)) ∧ (x ≠ 0 → ∃ neg m e st, IsExact f neg m e st x ∧ r = f.round rm neg m e st)

/-- The natural number nearest to x, of two as near the even one. -/
def NearestEven (x : ℚ) (q : Nat) : Prop := |(q : ℚ) - x| ≤ 1 / 2 ∧ (|(q : ℚ) - x| = 1 / 2 → q % 2 = 0)

/-- The integer that x rounds to (R109, R118). -/
def RoundsToInt (rm : RM) (x : ℚ) (q : Int) : Prop :=
  match rm with
  | .rne => |(q : ℚ) - x| ≤ 1 / 2 ∧ (|(q : ℚ) - x| = 1 / 2 → q % 2 = 0)
  | .rtz => |(q : ℚ)| ≤ |x| ∧ |x| < |(q : ℚ)| + 1 ∧ 0 ≤ (q : ℚ) * x
  | .rdn => q = ⌊x⌋
  | .rup => q = ⌈x⌉

end Sys2Proof.Spec

/-- R109, R111: on finite operands, sum, difference, product and fused product are the exact numbers rounded once. A zero sum of two zeros of
one sign keeps it, every other zero sum is +0, or −0 under `.rdn`; so is a zero difference, also of two zeros (the model's reading, log
29). -/
def Sys2Proof.Spec.ArithmeticRoundsOnce : Prop :=
  ∀ f ∈ formats, ∀ (rm : RM) (a b c : Nat) (x y z : ℚ), value f a = some x → value f b = some y → value f c = some z →
    let sa := (f.dec a).sign
    let sb := (f.dec b).sign
    let sc := (f.dec c).sign
    RoundsTo f rm ((x + y : ℚ) : ℝ) (if sa = sb then sa else decide (rm = .rdn)) (f.add rm a b)
    ∧ RoundsTo f rm ((x - y : ℚ) : ℝ) (decide (rm = .rdn)) (f.sub rm a b)
    ∧ RoundsTo f rm ((x * y : ℚ) : ℝ) (sa != sb) (f.mul rm a b)
    ∧ RoundsTo f rm ((x * y + z : ℚ) : ℝ) (if (sa != sb) = sc then sc else decide (rm = .rdn)) (f.fma rm a b c)

/-- R369, R370, R142 with R367: sum, difference, product and fused product, rounded once, with `SoundAdd`, `SoundMul` and the combined
rule. -/
def Sys2Proof.Spec.FloatArithmetic : Prop :=
  (∀ rm : RM, FpBinary (fun sl d a b fs => .fadd sl d a b rm fs) 3 (fun f => f.add rm)
    fun f x y sx sy r => f.soundAdd (f.sop x sx) (f.sop y sy) r)
  ∧ (∀ rm : RM, FpBinary (fun sl d a b fs => .fsub sl d a b rm fs) 3 (fun f => f.sub rm)
    fun f x y sx sy r => f.soundAdd (f.sop x sx) (f.sop y sy) r)
  ∧ (∀ rm : RM, FpBinary (fun sl d a b fs => .fmul sl d a b rm fs) 3 (fun f => f.mul rm)
    fun f x y sx sy r => f.soundMul (f.sop x sx) (f.sop y sy) r)
  ∧ ∀ (s : State) (sl : AB) (d a : Fin 32) (b : Src 32) (rm : RM) (fs : FS),
    s.clear sl.slot 1 [own sl.file a, b.ref sl.file, own sl.file d] [⟨own sl.file d, 4⟩] →
    let f := fs.fmt
    let x := s.rd (own sl.file a)
    let y := s.rd (b.ref sl.file)
    let z := s.rd (own sl.file d)
    let r := f.fma rm (low f x) (low f y) (low f z)
    exec (.fma sl d a b rm fs) s = .next (deliversFp s sl.slot [own sl.file a, b.ref sl.file, own sl.file d] (own sl.file d) 4 r.1
      (f.soundFma (low f x) (low f y) (low f z) (snd f x) (snd f y) (snd f z) r.1) r.2 [snd f x, snd f y, snd f z])

/-- Sum, difference, product and fused product of slots A and B. -/
def Obligations.FloatArithmeticResults : Prop := Spec.FloatArithmetic ∧ Spec.ArithmeticRoundsOnce

/-- R368, R376, R377, R380, R383 with R367: signs, classes, comparisons, selections and soundings. -/
def Sys2Proof.Spec.FloatSelectionResults : Prop :=
  FpUnary (fun sl d a fs => .fabs sl d a fs) 2 true (fun f x _ => x % 2 ^ (f.width - 1)) (fun f sx r => under f sx r)
  ∧ FpUnary (fun sl d a fs => .fneg sl d a fs) 2 true (fun f x _ => (x + 2 ^ (f.width - 1)) % 2 ^ f.width) (fun f sx r => under f sx r)
  ∧ FpUnary (fun sl d a fs => .fclass sl d a fs) 2 false (fun f x _ => fpClass f x) (fun _ _ _ => 63)
  ∧ FpUnary (fun sl d a fs => .fsnd sl d a fs) 1 false (fun _ _ sx => sx) (fun _ _ _ => 63)
  ∧ (∀ (c : Cond) (s : State) (sl : AB) (d : Dst 32) (a : Fin 32) (b : Src 32) (fs : FS),
      s.clear sl.slot 1 [own sl.file a, b.ref sl.file] [⟨d.ref sl.file, 2⟩] →
      let r := fs.fmt.compare c (low fs.fmt (s.rd (own sl.file a))) (low fs.fmt (s.rd (b.ref sl.file)))
      exec (.fcmp sl d a b fs c) s = .next (deliversFp s sl.slot [own sl.file a, b.ref sl.file] (d.ref sl.file) 2
        (if r.1 then 1 else 0) 63 r.2 []))
  ∧ (∀ (isMax : Bool) (s : State) (sl : AB) (d : Dst 32) (a : Fin 32) (b : Src 32) (fs : FS),
      s.clear sl.slot 1 [own sl.file a, b.ref sl.file] [⟨d.ref sl.file, 2⟩] →
      let f := fs.fmt
      let x := s.rd (own sl.file a)
      let y := s.rd (b.ref sl.file)
      let sel := f.minmax isMax (low f x) (low f y)
      exec (if isMax then .fmax sl d a b fs else .fmin sl d a b fs) s = .next (deliversFp s sl.slot
        [own sl.file a, b.ref sl.file] (d.ref sl.file) 2
        (match sel.1 with
          | none => f.qnan
          | some first => low f (if first then x else y))
        (match sel.1 with
          | none => 0
          | some first => under f (snd f (if first then x else y)) (low f (if first then x else y)))
        sel.2 [snd f x, snd f y]))
  ∧ (∀ (s : State) (sl : AB) (d : Dst 32) (a : Fin 32) (n : Fin 64),
      s.clear sl.slot 1 [own sl.file a] [⟨d.ref sl.file, 1⟩] →
      exec (.fsndset sl d a (.imm n)) s = .next (deliversFp s sl.slot [own sl.file a] (d.ref sl.file) 1
        (s.rd (own sl.file a)).val.toNat n.val 0 []))
  ∧ ∀ (s : State) (sl : AB) (d : Dst 32) (a : Fin 32) (b : Src 32),
      s.clear sl.slot 1 [own sl.file a, b.ref sl.file] [⟨d.ref sl.file, 1⟩] →
      exec (.fsndset sl d a (.reg b)) s = .next (deliversFp s sl.slot [own sl.file a, b.ref sl.file] (d.ref sl.file) 1
        (s.rd (own sl.file a)).val.toNat ((s.rd (b.ref sl.file)).val.toNat % 64) 0 [])

/-- R378 with R115, R118, R143, R367: conversions from every type to every other that R98 admits. -/
def Sys2Proof.Spec.FloatConversionResults : Prop :=
  ∀ (s : State) (sl : AB) (d : Dst 32) (a : Fin 32) (rm : RM) (dt st : CvtTy),
    (Instr.fcvt sl d a rm dt st).wf = true → s.clear sl.slot 1 [own sl.file a] [⟨d.ref sl.file, 2⟩] →
    let x := s.rd (own sl.file a)
    exec (.fcvt sl d a rm dt st) s = .next (match st.fp, dt.fp with
      | some f, some g =>
        let r := f.cvt g rm (low f x)
        deliversFp s sl.slot [own sl.file a] (d.ref sl.file) 2 r.1 (under g (min (snd f x) g.p : Nat) r.1) r.2 [snd f x]
      | some f, none =>
        let r := f.toInt dt.int rm (low f x)
        deliversFp s sl.slot [own sl.file a] (d.ref sl.file) 2 (BitVec.ofInt 64 (dt.int.dec r.1)).toNat 63 r.2 []
      | none, some g =>
        let r := g.ofInt rm (st.int.dec x.val.toNat)
        deliversFp s sl.slot [own sl.file a] (d.ref sl.file) 2 r.1 (under g g.p r.1) r.2 []
      | none, none => s)

/-- R115, R117, R118: a conversion of a finite number rounds it once into the other format, or to an integer, which saturates with NV; NX tells
that the number was none of the type. -/
def Sys2Proof.Spec.ConversionsRoundOnce : Prop :=
  (∀ f ∈ formats, ∀ g ∈ formats, ∀ (rm : RM) (a : Nat) (x : ℚ), value f a = some x → RoundsTo g rm (x : ℝ) (f.dec a).sign (f.cvt g rm a))
  ∧ (∀ f ∈ formats, ∀ (rm : RM) (x : Int), RoundsTo f rm (x : ℝ) false (f.ofInt rm x))
  ∧ ∀ f ∈ formats, ∀ (rm : RM) (t : IntTy) (a : Nat) (x : ℚ), 0 < t.w → value f a = some x →
    ∃ q, RoundsToInt rm x q ∧ f.toInt t rm a = (t.enc (t.sat q), flagIf (decide (q ≠ t.sat q)) fNV ||| flagIf (decide ((q : ℚ) ≠ x)) fNX)

/-- Selections, comparisons, soundings and conversions of slots A and B. -/
def Obligations.FloatSelectionAndConversionResults : Prop :=
  Spec.FloatSelectionResults ∧ Spec.FloatConversionResults ∧ Spec.ConversionsRoundOnce

/-- R109 to R111, R371: quotient and square root of finite operands are the exact numbers rounded once; a zero divisor gives an infinity with DZ, or
of a zero the canonical NaN with NV, as does the root of a negative number. -/
def Sys2Proof.Spec.QuotientsRoundOnce : Prop :=
  ∀ f ∈ formats, ∀ (rm : RM) (a b : Nat) (x y : ℚ), value f a = some x → value f b = some y →
    let neg := (f.dec a).sign != (f.dec b).sign
    (y ≠ 0 → RoundsTo f rm ((x / y : ℚ) : ℝ) neg (f.div rm a b))
    ∧ (y = 0 → x ≠ 0 → f.div rm a b = (f.inf neg, fDZ)) ∧ (y = 0 → x = 0 → f.div rm a b = (f.qnan, fNV))
    ∧ (0 ≤ x → RoundsTo f rm (Real.sqrt (x : ℝ)) (f.dec a).sign (f.sqrt rm a)) ∧ (x < 0 → f.sqrt rm a = (f.qnan, fNV))

/-- R371 to R375, R142, R143 with R367: the functions of slot F, with their latencies, soundings and flags. -/
def Sys2Proof.Spec.FloatFunctions : Prop :=
  FpFunction .fsqrt 14 1 (fun f => f.sqrt) ∧ FpFunction .frcp 10 (-1) (fun f => f.rcp) ∧ FpFunction .frsq 10 (-1) (fun f => f.rsq)
  ∧ FpFunction .fexp2 12 (-1) (fun f => f.exp2) ∧ FpFunction .flog2 12 (-1) (fun f => f.log2)
  ∧ (∀ (s : State) (d : Dst 16) (a : Fin 16) (b : Src 16) (rm : RM) (fs : FS),
      s.clear .f 1 [own .f a, b.ref .f] [⟨d.ref .f, 14⟩] →
      let f := fs.fmt
      let x := s.rd (own .f a)
      let y := s.rd (b.ref .f)
      let r := f.div rm (low f x) (low f y)
      exec (.fdiv d a b rm fs) s = .next (deliversFp s .f [own .f a, b.ref .f] (d.ref .f) 14 r.1
        (f.soundMul (f.sop (low f x) (snd f x)) (f.sop (low f y) (snd f y)) r.1) r.2 [snd f x, snd f y]))
  ∧ (∀ (s : State) (d : Dst 16) (a : Fin 16) (b : Src 16) (rm : RM) (fs : FS),
      s.clear .f 1 [own .f a, b.ref .f] [⟨d.ref .f, 16⟩] →
      let f := fs.fmt
      let y := s.rd (own .f a)
      let x := s.rd (b.ref .f)
      let r := f.atan2 rm (low f y) (low f x)
      exec (.fatan2 d a b rm fs) s = .next (deliversFp s .f [own .f a, b.ref .f] (d.ref .f) 16 r.1
        (if (f.dec (low f y)).isZero ∧ (f.dec (low f x)).isZero then under f 0 r.1
          else under f ((min (snd f y) (snd f x) : Nat) - 1) r.1) r.2 [snd f y, snd f x]))
  ∧ (∀ (s : State) (d : Dst 16) (a : Fin 16) (b : Src 16),
      s.clear .f 1 [own .f a, b.ref .f] [⟨d.ref .f, 24⟩] →
      let x := s.rd (own .f a)
      let r := fdecay ⟨low fmt32 x, snd fmt32 x, 0⟩ ((s.rd (b.ref .f)).val.toNat % 2 ^ 24)
      exec (.fdecay d a b) s = .next (deliversFp s .f [own .f a, b.ref .f] (d.ref .f) 24 r.w r.s r.fl [snd fmt32 x]))
  ∧ ∀ (s : State) (d a : Fin 16) (rm : RM) (fs : FS), d.val % 2 = 0 →
      s.clear .f 1 [own .f a] [⟨⟨.f, d.val⟩, 8⟩, ⟨⟨.f, d.val + 1⟩, 8⟩] →
      let f := fs.fmt
      let x := s.rd (own .f a)
      let r := f.sincos rm (low f x)
      let sn := under f ((snd f x : Int) - 1) r.1.1
      let cs := under f ((snd f x : Int) - 1) r.2.1
      exec (.fsincos d a rm fs) s = .next
        (((s.holding .f 1).push ⟨s.now + 8, .reg ⟨.f, d.val⟩ ⟨BitVec.ofNat 64 r.1.1, BitVec.ofNat 6 sn, x.poi⟩, r.1.2 ||| r.2.2,
            lossOf s .f [snd f x] sn, none, false, 0, none, s.now⟩).push
          ⟨s.now + 8, .reg ⟨.f, d.val + 1⟩ ⟨BitVec.ofNat 64 r.2.1, BitVec.ofNat 6 cs, x.poi⟩, r.1.2 ||| r.2.2,
            if (lossOf s .f [snd f x] sn).isSome then none else lossOf s .f [snd f x] cs, none, false, 0, none, s.now⟩)

/-- The functions of slot F. -/
def Obligations.FloatFunctionResults : Prop := Spec.FloatFunctions ∧ Spec.QuotientsRoundOnce

/-- R109: under `.rne` a non-zero number, dyadic or given by its first bits and a sticky bit, that the format's range holds rounds to an encoding than which no other finite one lies
nearer, and of two as near it takes the one whose last bit is 0. -/
def Sys2Proof.Spec.RoundsToNearest : Prop :=
  ∀ f ∈ formats, ∀ (neg : Bool) (m : Nat) (e : Int) (st : Bool) (x : ℝ), IsExact f neg m e st x →
    let r := f.round .rne neg m e st
    (r.2 &&& fOF = 0 → ∃ v, value f r.1 = some v ∧ r.1 < 2 ^ f.width
      ∧ ∀ w < 2 ^ f.width, ∀ u, value f w = some u →
        |(v : ℝ) - x| ≤ |(u : ℝ) - x| ∧ (|(v : ℝ) - x| = |(u : ℝ) - x| → u ≠ v → r.1 % 2 = 0))
    ∧ (r.2 &&& fNX = 0 ↔ ∃ v, value f r.1 = some v ∧ (v : ℝ) = x)

/-- R109: the directed modes bracket the exact number: `.rdn` is not above it, `.rup` not below it, `.rtz` not greater in magnitude. -/
def Sys2Proof.Spec.RoundsDirected : Prop :=
  ∀ f ∈ formats, ∀ (neg : Bool) (m : Nat) (e : Int) (st : Bool) (x : ℝ), IsExact f neg m e st x →
    (∀ v, value f (f.round .rdn neg m e st).1 = some v → (v : ℝ) ≤ x ∧ ∀ w < 2 ^ f.width, ∀ u, value f w = some u → (u : ℝ) ≤ x → u ≤ v)
    ∧ (∀ v, value f (f.round .rup neg m e st).1 = some v → x ≤ (v : ℝ) ∧ ∀ w < 2 ^ f.width, ∀ u, value f w = some u → x ≤ (u : ℝ) → v ≤ u)
    ∧ ∀ v, value f (f.round .rtz neg m e st).1 = some v → |(v : ℝ)| ≤ |x|
      ∧ ∀ w < 2 ^ f.width, ∀ u, value f w = some u → |(u : ℝ)| ≤ |x| → |u| ≤ |v|

/-- A rounded number is the nearest of its format, or the nearest on the side that its mode names. -/
def Obligations.RoundingIsCorrect : Prop := Spec.RoundsToNearest ∧ Spec.RoundsDirected

/-- R113, R114: minimum, maximum and the comparisons, on the numbers that the operands are. -/
def Obligations.ComparesNumbers : Prop :=
  ∀ f ∈ formats, ∀ a < 2 ^ f.width, ∀ b < 2 ^ f.width,
    (∀ x y, value f a = some x → value f b = some y →
      (f.compare .eq a b = (decide (x = y), 0)) ∧ (f.compare .lt a b = (decide (x < y), 0)) ∧ (f.compare .le a b = (decide (x ≤ y), 0))
      ∧ (f.compare .un a b = (false, 0)) ∧ (f.compare .ne a b = (decide (x ≠ y), 0))
      ∧ (x < y → f.minmax false a b = (some true, 0) ∧ f.minmax true a b = (some false, 0))
      ∧ (y < x → f.minmax false a b = (some false, 0) ∧ f.minmax true a b = (some true, 0)))
    ∧ ((f.dec a).isNan = true ∨ (f.dec b).isNan = true →
      (f.compare .eq a b).1 = false ∧ (f.compare .lt a b) = (false, fNV) ∧ (f.compare .le a b) = (false, fNV)
      ∧ (f.compare .un a b).1 = true ∧ (f.compare .ne a b).1 = true)
    ∧ ((f.dec a).isSig = true ∨ (f.dec b).isSig = true →
      (∀ c, (f.compare c a b).2 = fNV) ∧ ∀ m, f.minmax m a b = (none, fNV))
    ∧ ((f.dec a).isNan = true → (f.dec a).isSig = false → (f.dec b).isNan = false → ∀ m, f.minmax m a b = (some false, 0))
    ∧ ((f.dec b).isNan = true → (f.dec b).isSig = false → (f.dec a).isNan = false → ∀ m, f.minmax m a b = (some true, 0))

namespace Sys2Proof.Spec
open Sys2Proof.Machine Config

/-! ### Accesses -/

/-- Cycles from issue to the bank, and from issue to the landing of a load (R80, R204). -/
def reach : Space → Nat
  | .own => 2
  | .pool => 10
  | .near => 20
  | .any => 48
def loadLat : Space → Nat
  | .own => 4
  | .pool => 20
  | .near => 40
  | .any => 96

/-- A syllable has issued: it brings accesses and results to land, and writes no register and no byte of memory. -/
def Adds (s t : State) (accs : List Access) (es : List QEntry) : Prop :=
  t.accesses = s.accesses ++ accs ∧ t.nextId = s.nextId + accs.length ∧ t.cur = { s.cur with queue := s.cur.queue ++ es }
    ∧ t.ctx = s.ctx ∧ t.now = s.now ∧ t.mem = s.mem ∧ t.poison = s.poison ∧ t.trapped = s.trapped

/-- The cycles by which a walk of the page table delays an access of the secondary stream (R209): a free number; timed code and the own
scratchpad have none. -/
def walk (s : State) (sp : Space) (va : Nat) : Nat :=
  if s.ctx.q = .secondary ∧ sp ≠ .own then walkCycles (s.ctx.core / 16) va s.now else 0

/-- Access number k of a syllable, to a virtual address, in cycle t. -/
def acc (s : State) (k t va : Nat) (kind : AKind) (write : Bool) (sp : Space) (sl : Slot) (link : Nat) : Access :=
  ⟨s.nextId + k, t + walk s sp va, .seq s.ctx.core s.ctx.q, s.vplace va (if write then .w else .r), kind, write, s.waitsIn sp, sp, slotIx sl, s.now, link⟩

/-- The result of a load that waits for an access. -/
def held (s : State) (sp : Space) (d : RRef) (due link : Nat) : QEntry :=
  ⟨due, .reg d Reg.zero, 0, none, some link, s.waitsIn sp, 0, some sp, s.now⟩

/-- The plane byte of an offset of a space (R148). -/
def planeVa (s : State) (sp : Space) (off : Nat) : Nat :=
  spaceVa s.ctx.core sp ((s.cur.sndbase.toNat + off / 4) % 2 ^ 64)

/-- The load of element i, with its plane byte where it has one; `more` cycles more than the latency of its space bring the result. -/
def loads (s : State) (sp : Space) (off n : Nat) (sx plane : Bool) (i more : Nat) : Access :=
  acc s i (s.now + reach sp + i) (spaceVa s.ctx.core sp off) (.load n sx (if plane then some (s.vplace (planeVa s sp off) .r) else none) more)
    false sp .m (s.nextId + i)

/-- The store of element i: its bytes, poisoned where its data is, and a plane byte for each 32 bits (R149). -/
def stores (s : State) (sp : Space) (off n : Nat) (plane : Bool) (v : Reg) (i : Nat) : Access :=
  acc s i (s.now + reach sp + i) (spaceVa s.ctx.core sp off) (.store (natBytes n v.val.toNat) (List.replicate n v.poi)
    (if plane then some (s.vplace (planeVa s sp off) .w,
      List.replicate (if n = 8 then 2 else 1) (BitVec.ofNat 8 (v.snd.toNat + if v.poi then 64 else 0))) else none)) true sp .m (s.nextId + i)

/-- A load into d from an address that `addr` registers give. -/
def Loads (i : Instr) (s : State) (addr : List RRef) (d : RRef) (sp : Space) (off n : Nat) (sx plane : Bool) : Prop :=
  s.clear .m 1 addr [⟨d, loadLat sp + if plane then 1 else 0⟩] → s.sound addr → s.mayLoad sp off n plane 0 →
  ∃ t, exec i s = .next t
    ∧ Adds s t [loads s sp off n sx plane 0 (if plane then 1 else 0)] [held s sp d (s.now + loadLat sp + if plane then 1 else 0) s.nextId]

/-- A store of a data register to an address that `addr` registers give. -/
def Stores (i : Instr) (s : State) (addr : List RRef) (data : RRef) (sp : Space) (off n : Nat) (plane : Bool) : Prop :=
  s.clear .m 1 (data :: addr) [] → s.sound addr → s.mayStore sp off n plane 0 →
  ∃ t, exec i s = .next t ∧ Adds s t [stores s sp off n plane (s.rd data) 0] []

/-- The address forms of R387 and R408. -/
def sumAddr (s : State) (a b : RRef) (sc : Bool) (n : Nat) : Nat :=
  ((s.rd a).val.toNat + (s.rd b).val.toNat * (if sc then n else 1)) % 2 ^ 64
def offAddr (s : State) (base : RRef) (off : BitVec 11) (n : Nat) : Nat :=
  (((s.rd base).val.toNat : Int) + off.toInt * n).emod (2 ^ 64) |>.toNat

end Sys2Proof.Spec

/-- R387, R388 with R80, R204: `LD` and `LDS` in both forms: the access performs `reach` cycles later, and the result lands with the
latency of the space, one cycle more for `LDS`. -/
def Sys2Proof.Spec.LoadsSchedule : Prop :=
  (∀ (s : State) (d : Dst 32) (a : Fin 32) (b : Src 32) (sp : Space) (sz : Size) (sc sx : Bool),
    Loads (.ld d a b sp sz sc sx) s [own .m a, b.ref .m] (d.ref .m) sp (sumAddr s (own .m a) (b.ref .m) sc (sizeBytes sz))
      (sizeBytes sz) sx false)
  ∧ (∀ (s : State) (d base : Fin 32) (sz : Size) (sp : Space) (off : BitVec 11),
    Loads (.ldOffset d base sz sp off) s [own .m base] (own .m d) sp (offAddr s (own .m base) off (sizeBytes sz)) (sizeBytes sz) false false)
  ∧ (∀ (s : State) (d : Dst 32) (a : Fin 32) (b : Src 32) (sp : Space) (sz : Size) (sc sx : Bool),
    Loads (.lds d a b sp sz sc sx) s [own .m a, b.ref .m] (d.ref .m) sp (sumAddr s (own .m a) (b.ref .m) sc (sizeBytes sz))
      (sizeBytes sz) sx true)
  ∧ ∀ (s : State) (d base : Fin 32) (sz : Size) (sp : Space) (off : BitVec 11),
    Loads (.ldsOffset d base sz sp off) s [own .m base] (own .m d) sp (offAddr s (own .m base) off (sizeBytes sz)) (sizeBytes sz) false true

/-- R408, R409 with R204: `ST` and `STS` in both forms. -/
def Sys2Proof.Spec.StoresSchedule : Prop :=
  (∀ (s : State) (o : SOpnd) (a : Fin 32) (sp : Space) (sz : Size) (sc : Bool),
    Stores (.st o a sp sz sc) s [own .m a, o.opnd] o.data sp (sumAddr s (own .m a) o.opnd sc (sizeBytes sz)) (sizeBytes sz) false)
  ∧ (∀ (s : State) (d base : Fin 32) (sz : Size) (sp : Space) (off : BitVec 11),
    Stores (.stOffset d base sz sp off) s [own .m base] (own .m d) sp (offAddr s (own .m base) off (sizeBytes sz)) (sizeBytes sz) false)
  ∧ (∀ (s : State) (o : SOpnd) (a : Fin 32) (sp : Space) (sz : Size) (sc : Bool),
    Stores (.sts o a sp sz sc) s [own .m a, o.opnd] o.data sp (sumAddr s (own .m a) o.opnd sc (sizeBytes sz)) (sizeBytes sz) true)
  ∧ ∀ (s : State) (d base : Fin 32) (sz : Size) (sp : Space) (off : BitVec 11),
    Stores (.stsOffset d base sz sp off) s [own .m base] (own .m d) sp (offAddr s (own .m base) off (sizeBytes sz)) (sizeBytes sz) true

/-- Single loads and stores. -/
def Obligations.LoadsAndStoresSchedule : Prop := Spec.LoadsSchedule ∧ Spec.StoresSchedule

/-- R389, R411 with R309: `LDM` and `STM`: element j performs j cycles after the first; a resumed transfer goes on with element k. -/
def Obligations.MultipleTransfers : Prop :=
  (∀ (s : State) (d : Dst 32) (a n : Fin 32) (sp : Space), (Instr.ldm d a n sp).wf = true → s.ctx.restK ≤ n.val →
    let k := s.ctx.restK
    let m := n.val + 1 - k
    let off (j : Nat) := ((s.rd (own .m a)).val.toNat + 8 * j) % 2 ^ 64
    let dst (j : Nat) : RRef := ⟨(d.ref .m).file, (d.ref .m).num + j⟩
    s.clear .m m [own .m a] ((List.range m).map fun i => ⟨dst (k + i), loadLat sp + i⟩) → s.sound [own .m a] →
    (∀ i < m, s.mayLoad sp (off (k + i)) 8 true i) →
    ∃ t, exec (.ldm d a n sp) s = .next t ∧ Adds s t ((List.range m).map fun i => loads s sp (off (k + i)) 8 false true i 0)
      ((List.range m).map fun i => held s sp (dst (k + i)) (s.now + (loadLat sp + i)) (s.nextId + i)))
  ∧ ∀ (s : State) (o : SReg) (a n : Fin 32) (sp : Space), (Instr.stm o a n sp).wf = true → s.ctx.restK ≤ n.val →
    let k := s.ctx.restK
    let m := n.val + 1 - k
    let off (j : Nat) := ((s.rd (own .m a)).val.toNat + 8 * j) % 2 ^ 64
    let src (j : Nat) : RRef := ⟨o.ref.file, o.ref.num + j⟩
    s.clear .m m (own .m a :: (List.range (n.val + 1)).map src) [] → s.sound [own .m a] →
    (∀ i < m, s.mayStore sp (off (k + i)) 8 true i) →
    ∃ t, exec (.stm o a n sp) s = .next t
      ∧ Adds s t ((List.range m).map fun i => stores s sp (off (k + i)) 8 true (s.rd (src (k + i))) i) []

/-- R199, R348, R363, R364, R384: the operations of the bank ALU and `GAUGE`. -/
def Sys2Proof.Spec.BankOperationsSchedule : Prop :=
  (∀ (s : State) (d : Dst 32) (a : Fin 32) (b : Src 32) (pool w64 : Bool) (op : AtomOp), (Instr.atom d a b pool w64 op).wf = true →
    let sp : Space := if pool then .pool else .own
    let n := if w64 then 8 else 4
    let off := (s.rd (own .m a)).val.toNat
    let reads := own .m a :: b.ref .m :: (if op = .cas then [d.ref .m] else [])
    let t0 := s.now + if pool then 11 else 3
    let due := t0 + (if op = .ebb then 24 else 0) + (if pool then 10 else 3)
    s.clear .m 1 reads [⟨d.ref .m, due - s.now⟩] → s.sound [own .m a] → s.mayModify sp off n →
    (op = .ebb → s.inRegion sp off ∧ s.lockFree sp off) →
    ∃ t, exec (.atom d a b pool w64 op) s = .next t
      ∧ Adds s t [acc s 0 t0 (spaceVa s.ctx.core sp off)
          (if op = .ebb then .ebbRead (s.rd (b.ref .m)) true else .atom op w64 (s.rd (b.ref .m)) (s.rd (d.ref .m))) true sp .m s.nextId]
        [held s sp (d.ref .m) due s.nextId])
  ∧ (∀ (s : State) (o : SOpnd) (a : Fin 32) (pool : Bool),
    let sp : Space := if pool then .pool else .own
    let off := sumAddr s (own .m a) o.opnd true 8
    s.clear .m 1 [o.data, own .m a, o.opnd] [] → s.sound [own .m a, o.opnd] → s.mayModify sp off 8 → s.inRegion sp off →
    s.lockFree sp off →
    ∃ t, exec (.ebbadd o a pool) s = .next t
      ∧ Adds s t [acc s 0 (s.now + if pool then 11 else 3) (spaceVa s.ctx.core sp off) (.ebbRead (s.rd o.data) false) true sp .m s.nextId] [])
  ∧ (∀ (s : State) (d : Dst 32) (a : Fin 32) (b : Src 32) (sp : Space),
    let off := sumAddr s (own .m a) (b.ref .m) true 8
    s.clear .m 1 [own .m a, b.ref .m] [⟨d.ref .m, loadLat sp + 24⟩] → s.sound [own .m a, b.ref .m] → s.mayLoad sp off 8 false 0 →
    s.inRegion sp off →
    ∃ t, exec (.ebbld d a b sp) s = .next t
      ∧ Adds s t [acc s 0 (s.now + reach sp) (spaceVa s.ctx.core sp off) .ebbld false sp .m s.nextId]
        [held s sp (d.ref .m) (s.now + (loadLat sp + 24)) s.nextId])
  ∧ ∀ (s : State) (o : SReg) (a : Fin 32) (pool : Bool),
    let sp : Space := if pool then .pool else .own
    let off := (s.rd (own .m a)).val.toNat
    s.clear .m 1 [o.ref, own .m a] [] → s.sound [o.ref, own .m a] → s.takes .m sp off 16 16 .w (s.now + reach sp) →
    ∃ t, exec (.gauge o a pool) s = .next t
      ∧ Adds s t [acc s 0 (s.now + reach sp) (spaceVa s.ctx.core sp off) (.gauge ((s.rd o.ref).val.setWidth 32)) true sp .m s.nextId] []

/-- R385, R401, R405 with R50 and R200: `ITSET` binds from the next cycle on; `RECV` arms one cycle; `SEND` lands twelve cycles later at
a core of its cluster, whose bank it holds. -/
def Sys2Proof.Spec.ExchangeAndBindings : Prop :=
  (∀ (s : State) (it : Fin 8) (a : Fin 32) (b : Src 32) (level : Fin 8), s.clear .m 1 [own .m a, b.ref .m] [] →
    exec (.itset it a b level) s = .next ((s.holding .m 1).push
      ⟨s.now + 1, .iter it.val ⟨(s.rd (own .m a)).val, (s.rd (b.ref .m)).val.setWidth 32, level.val, false,
        s.poisonOf [own .m a, b.ref .m]⟩, 0, none, none, false, 0, none, s.now⟩))
  ∧ (∀ (s : State) (a : Fin 32) (k : Fin 128), s.ctx.q = .primary → s.clear .m 1 [own .m a] [] → s.sound [own .m a] →
    (∀ r ∈ s.kore.recv, r.cycle ≠ s.now + k.val) →
    ∃ t, exec (.recv a k) s = .next t ∧ Adds s t [] []
      ∧ t.kore.recv = s.kore.recv ++ [⟨s.ctx.core / 16 * 16 + (s.rd (own .m a)).val.toNat % 16, s.now + k.val⟩])
  ∧ ∀ (s : State) (o : SOpnd) (a : Fin 32) (sz : Size) (spt : Spot), s.ctx.q = .primary →
    let n := sizeBytes sz
    let off := (s.rd o.opnd).val.toNat
    let target := s.ctx.core / 16 * 16 + (s.rd (own .m a)).val.toNat % 16
    s.clear .m 1 [o.data, own .m a, o.opnd] [] → s.sound [own .m a, o.opnd] → off + n ≤ spadBytes → off % n = 0 →
    s.resolve s.via (s.moorOf s.ctx.core) target off n .w false = .ok spt → spt.inSram = true →
    (∀ u ∈ spt.uses n (s.now + 12), s.grants .own u) →
    ∃ t, exec (.send o a sz) s = .next t
      ∧ Adds s t [⟨s.nextId, s.now + 12, .seq s.ctx.core .primary,
          .virt (spadVa target off) (s.moorOf s.ctx.core) (spadVa target off),
          .send (natBytes n (s.rd o.data).val.toNat) (s.rd o.data).poi s.ctx.core target, true, false, .own, 2, s.now, s.nextId⟩] []
      ∧ ∀ u ∈ spt.uses n (s.now + 12), ∃ h ∈ t.holds, h.t = s.now + 12 ∧ h.res = u.res ∧ h.own = .prim

/-- Operations of the bank ALU, exchange between cores, and bindings. -/
def Obligations.BanksAndExchange : Prop := Spec.BankOperationsSchedule ∧ Spec.ExchangeAndBindings

namespace Sys2Proof.Spec
open Sys2Proof.Machine Config

/-! ### Tiles -/

/-- Elements of a file's shape, and cycles for which a tile of them holds its unit (R70, R80). -/
def count (s : State) (f : VW) : Nat := s.kore.rows f * s.kore.cols f
def hold (s : State) (f : VW) : Nat := (count s f + 31) / 32

/-- Element i of a register of the slot's file. -/
def elem (s : State) (f : VW) (r : Fin 16) (i : Nat) : Reg := (s.kore.vreg f r.val).elem s.kore.eb i

/-- Element i of an operand: of a register, or the low bits of an H register with its sounding and poison (R135). -/
def opnd (s : State) (f : VW) (b : Src 16) (i : Nat) : Reg :=
  match b with
  | .own r => elem s f r i
  | .h _ r =>
    let v := s.rd ⟨.h, r.val⟩
    ⟨BitVec.ofNat 64 (v.val.toNat % 2 ^ (8 * s.kore.eb)), v.snd, v.poi⟩

/-- A vector register as a destination or a source. -/
def vreg (f : VW) (r : Fin 16) : RRef := ⟨f.file, r.val⟩

/-- The state after a syllable whose elements land together: one entry, the flags of all of them, at most one loss event (R417). -/
def deliversTile (s : State) (f : VW) (d : Fin 16) (lat eb : Nat) (es : List EOut) : State :=
  (s.holding f.slot (hold s f)).push ⟨s.now + lat, .vec f d.val 0 (es.length * eb) (VReg.ofElems eb (es.map (·.reg))),
    es.foldl (fun a e => a ||| e.fl) 0, if es.any (·.loss) then some (slotIx f.slot, s.ctx.pc) else none, none, false, 0, none, s.now⟩

/-- The latencies of R80 for n elements. -/
def intLat (n : Nat) : Nat := 1 + (n + 31) / 32
def fpLat (n : Nat) : Nat := 3 + (n + 31) / 32
def funLat (n : Nat) : Nat := 7 + (n + 31) / 32
def redLat (n : Nat) : Nat := 8 + (n + 31) / 32

/-- An element with sounding 63 and no flag; one that is moved; a floating-point one. -/
def raw (w : Nat) (poi : Bool) : EOut := ⟨⟨BitVec.ofNat 64 w, 63, poi⟩, 0, false⟩
def moved (r : Reg) : EOut := ⟨r, 0, false⟩
def float (s : State) (w sn : Nat) (fl : Flg) (srcs : List Nat) (poi : Bool) : EOut :=
  ⟨⟨BitVec.ofNat 64 w, BitVec.ofNat 6 sn, poi⟩, fl, (lossOf s .v srcs sn).isSome⟩

/-- A syllable that reads `reads`, is admitted under a condition on the core, and gives element i. -/
def Tile (i : Instr) (s : State) (f : VW) (ok : Prop) (reads : List RRef) (d : Fin 16) (lat eb : Nat) (g : Nat → EOut) : Prop :=
  ok → s.clear f.slot (hold s f) reads [⟨vreg f d, lat⟩] →
  exec i s = .next (deliversTile s f d lat eb ((List.range (count s f)).map g))

/-- A two-operand floating-point instruction (R420). -/
def TileFp2 (i : VW → Fin 16 → Fin 16 → Src 16 → Instr) (v : Fmt → Nat → Nat → Nat × Flg) (so : Fmt → SOp → SOp → Nat → Nat) : Prop :=
  ∀ (s : State) (f : VW) (d a : Fin 16) (b : Src 16) (fm : Fmt), Tile (i f d a b) s f (s.kore.form.fp = some fm)
    [vreg f a, b.ref f.file] d (fpLat (count s f)) s.kore.eb fun k =>
      let x := elem s f a k
      let y := opnd s f b k
      let r := v fm (low fm x) (low fm y)
      float s r.1 (so fm (fm.sop (low fm x) (snd fm x)) (fm.sop (low fm y) (snd fm y)) r.1) r.2 [snd fm x, snd fm y] (x.poi || y.poi)

/-- A one-operand floating-point function (R426). -/
def TileFun (i : VW → Fin 16 → Fin 16 → RM → Instr) (v : Fmt → RM → Nat → Nat × Flg) : Prop :=
  ∀ (s : State) (f : VW) (d a : Fin 16) (rm : RM) (fm : Fmt), Tile (i f d a rm) s f (s.kore.form.fp = some fm) [vreg f a] d
    (funLat (count s f)) s.kore.eb fun k =>
      let x := elem s f a k
      let r := v fm rm (low fm x)
      float s r.1 (under fm ((snd fm x : Int) - 1) r.1) r.2 [snd fm x] x.poi

/-- A two-operand instruction on raw bits or on integers, at the integer latency. -/
def TileRaw2 (i : VW → Fin 16 → Fin 16 → Src 16 → Instr) (ok : Form → Bool) (v : Form → Nat → Nat → Nat) : Prop :=
  ∀ (s : State) (f : VW) (d a : Fin 16) (b : Src 16), Tile (i f d a b) s f (ok s.kore.form = true) [vreg f a, b.ref f.file] d
    (intLat (count s f)) s.kore.eb fun k =>
      raw (v s.kore.form (elem s f a k).val.toNat (opnd s f b k).val.toNat) ((elem s f a k).poi || (opnd s f b k).poi)

/-- Wrapped or saturated integers of a width (R117). -/
def wrapOrSat (t : IntTy) (sat : Bool) (x : Int) : Nat :=
  t.enc (if sat then max (-(2 ^ (t.w - 1))) (min x (2 ^ (t.w - 1) - 1)) else x)

end Sys2Proof.Spec

/-- R417, R418, R420, R426: the floating-point arithmetic of slots V and W. -/
def Sys2Proof.Spec.TileFloatResults : Prop :=
  (∀ rm : RM, TileFp2 (fun f d a b => .vadd f d a b rm) (fun fm => fm.add rm) fun fm x y r => fm.soundAdd x y r)
  ∧ (∀ rm : RM, TileFp2 (fun f d a b => .vsub f d a b rm) (fun fm => fm.sub rm) fun fm x y r => fm.soundAdd x y r)
  ∧ (∀ rm : RM, TileFp2 (fun f d a b => .vmul f d a b rm) (fun fm => fm.mul rm) fun fm x y r => fm.soundMul x y r)
  ∧ (∀ (s : State) (f : VW) (d a : Fin 16) (b : Src 16) (rm : RM) (fm : Fmt), Tile (.vfma f d a b rm) s f (s.kore.form.fp = some fm)
      [vreg f a, b.ref f.file, vreg f d] d (fpLat (count s f)) s.kore.eb fun k =>
        let x := elem s f a k
        let y := opnd s f b k
        let z := elem s f d k
        let r := fm.fma rm (low fm x) (low fm y) (low fm z)
        float s r.1 (fm.soundFma (low fm x) (low fm y) (low fm z) (snd fm x) (snd fm y) (snd fm z) r.1) r.2
          [snd fm x, snd fm y, snd fm z] (x.poi || y.poi || z.poi))
  ∧ TileFun .vexp2 (fun fm => fm.exp2) ∧ TileFun .vrcp (fun fm => fm.rcp) ∧ TileFun .vrsq (fun fm => fm.rsq)

/-- R117, R135, R136, R139, R421, R427, R434, R437, R441 with R417: integers and raw bits of slots V and W. -/
def Sys2Proof.Spec.TileIntegerResults : Prop :=
  (∀ sat, TileRaw2 (fun f d a b => .viadd f d a b sat) (fun fm => fm.fp.isNone)
      fun fm x y => wrapOrSat fm.int sat (fm.int.dec x + fm.int.dec y))
  ∧ (∀ sat, TileRaw2 (fun f d a b => .visub f d a b sat) (fun fm => fm.fp.isNone)
      fun fm x y => wrapOrSat fm.int sat (fm.int.dec x - fm.int.dec y))
  ∧ (∀ sat, TileRaw2 (fun f d a b => .vimul f d a b sat) (fun fm => fm.fp.isNone)
      fun fm x y => wrapOrSat fm.int sat (fm.int.dec x * fm.int.dec y))
  ∧ (∀ (s : State) (f : VW) (d a : Fin 16) (b : Src 16) (sat : Bool),
      Tile (.vimac f d a b sat) s f (s.kore.form = .int16 ∧ count s f * 4 ≤ 2048) [vreg f a, b.ref f.file, vreg f d] d
        (intLat (count s f)) 4 fun k =>
          let z := (s.kore.vreg f d.val).elem 4 k
          raw (wrapOrSat ⟨32, true⟩ sat ((⟨32, true⟩ : IntTy).dec z.val.toNat
              + (⟨16, true⟩ : IntTy).dec (elem s f a k).val.toNat * (⟨16, true⟩ : IntTy).dec (opnd s f b k).val.toNat))
            ((elem s f a k).poi || (opnd s f b k).poi || z.poi))
  ∧ TileRaw2 .vand (fun _ => true) (fun _ x y => x &&& y) ∧ TileRaw2 .vor (fun _ => true) (fun _ x y => x ||| y)
  ∧ TileRaw2 .vxor (fun _ => true) (fun _ x y => x ^^^ y)
  ∧ TileRaw2 (fun f d a b => .vshl f d a (.op b)) (fun _ => true)
      (fun fm x y => x * 2 ^ (y % 32) % 2 ^ (8 * formBytes fm))
  ∧ TileRaw2 (fun f d a b => .vshr f d a (.op b) false) (fun _ => true) (fun _ x y => x / 2 ^ (y % 32))
  ∧ TileRaw2 (fun f d a b => .vshr f d a (.op b) true) (fun _ => true)
      (fun fm x y => (⟨8 * formBytes fm, true⟩ : IntTy).enc ((⟨8 * formBytes fm, true⟩ : IntTy).dec x / 2 ^ (y % 32)))
  ∧ (∀ (s : State) (f : VW) (d a : Fin 16) (n : Fin 32), Tile (.vshl f d a (.imm n)) s f True [vreg f a] d (intLat (count s f)) s.kore.eb
      fun k => raw ((elem s f a k).val.toNat * 2 ^ n.val % 2 ^ (8 * s.kore.eb)) (elem s f a k).poi)
  ∧ (∀ (s : State) (f : VW) (d a : Fin 16) (n : Fin 32) (ar : Bool), Tile (.vshr f d a (.imm n) ar) s f True [vreg f a] d
      (intLat (count s f)) s.kore.eb fun k =>
        let t : IntTy := ⟨8 * s.kore.eb, true⟩
        raw (if ar then t.enc (t.dec (elem s f a k).val.toNat / 2 ^ n.val) else (elem s f a k).val.toNat / 2 ^ n.val) (elem s f a k).poi)
  ∧ ∀ (s : State) (f : VW) (d a : Fin 16) (u : Bool) (range : Fin 4), range.val ≠ 3 →
      Tile (.vsat f d a u range) s f (s.kore.form.fp = none) [vreg f a] d (intLat (count s f)) s.kore.eb fun k =>
        let t := s.kore.form.int
        let w := 8 * 2 ^ range.val
        let lo : Int := if u then 0 else -(2 ^ (w - 1))
        let hi : Int := if u then 2 ^ w - 1 else 2 ^ (w - 1) - 1
        raw (t.enc (max lo (min (t.dec (elem s f a k).val.toNat) hi))) (elem s f a k).poi

/-- The arithmetic of tiles. -/
def Obligations.TileArithmeticResults : Prop := Spec.TileFloatResults ∧ Spec.TileIntegerResults

/-- R113, R114, R419, R423, R432 with R417: signs, comparisons and selections, on elements of either kind. -/
def Sys2Proof.Spec.TileSelectionResults : Prop :=
  (∀ (s : State) (f : VW) (d a : Fin 16) (neg : Bool),
    Tile (if neg then .vneg f d a else .vabs f d a) s f True [vreg f a] d (intLat (count s f)) s.kore.eb fun k =>
      let x := elem s f a k
      match s.kore.form.fp with
      | some fm =>
        let w := if neg then (low fm x + 2 ^ (fm.width - 1)) % 2 ^ fm.width else low fm x % 2 ^ (fm.width - 1)
        float s w (under fm (snd fm x) w) 0 [snd fm x] x.poi
      | none =>
        let v := s.kore.form.int.dec x.val.toNat
        raw (s.kore.form.int.enc (if neg then -v else |v|)) x.poi)
  ∧ (∀ (s : State) (f : VW) (d a : Fin 16) (b : Src 16) (c : Cond),
    Tile (.vcmp f d a b c) s f True [vreg f a, b.ref f.file] d (fpLat (count s f)) s.kore.eb fun k =>
      let x := elem s f a k
      let y := opnd s f b k
      let all := 2 ^ (8 * s.kore.eb) - 1
      let poi := x.poi || y.poi
      match s.kore.form.fp with
      | some fm =>
        let r := fm.compare c (low fm x) (low fm y)
        ⟨⟨BitVec.ofNat 64 (if r.1 then all else 0), 63, poi⟩, r.2, false⟩
      | none =>
        let u := s.kore.form.int.dec x.val.toNat
        let v := s.kore.form.int.dec y.val.toNat
        raw (if (match c with
          | .eq => decide (u = v)
          | .lt => decide (u < v)
          | .le => decide (u ≤ v)
          | .un => false
          | .ne => decide (u ≠ v)) then all else 0) poi)
  ∧ (∀ (s : State) (f : VW) (d a : Fin 16) (b : Src 16) (isMax : Bool),
    Tile (if isMax then .vmax f d a b else .vmin f d a b) s f True [vreg f a, b.ref f.file] d (fpLat (count s f)) s.kore.eb fun k =>
      let x := elem s f a k
      let y := opnd s f b k
      let poi := x.poi || y.poi
      match s.kore.form.fp with
      | some fm =>
        (match fm.minmax isMax (low fm x) (low fm y) with
        | (none, fl) => float s fm.qnan 0 fl [snd fm x, snd fm y] poi
        | (some true, fl) => float s (low fm x) (under fm (snd fm x) (low fm x)) fl [snd fm x, snd fm y] poi
        | (some false, fl) => float s (low fm y) (under fm (snd fm y) (low fm y)) fl [snd fm x, snd fm y] poi)
      | none =>
        let u := s.kore.form.int.dec x.val.toNat
        let v := s.kore.form.int.dec y.val.toNat
        raw (if (if isMax then v ≤ u else u ≤ v) then x else y).val.toNat poi)
  ∧ ∀ (s : State) (f : VW) (d a : Fin 16) (b : Src 16),
    Tile (.vsel f d a b) s f True [vreg f a, b.ref f.file, vreg f d] d (intLat (count s f)) s.kore.eb fun k =>
      let z := elem s f d k
      let c := if z.val = 0 then opnd s f b k else elem s f a k
      moved ⟨c.val, c.snd, c.poi || z.poi⟩

/-- R137, R138, R157, R281, R422, R436, R438, R439, R440 with R417: constants, movement, soundings and zero flags. That `VMOVI` of a
signalling-NaN FP16 immediate under FP32 or an SX code gives the canonical NaN and sets no flag is the model's choice (log 39). -/
def Sys2Proof.Spec.TileMovementResults : Prop :=
  (∀ (s : State) (f : VW) (d : Fin 16) (i : BitVec 16), Tile (.vmovi f d i) s f True [] d (intLat (count s f)) s.kore.eb fun _ =>
    raw (match s.kore.form with
      | .int8 => i.toNat % 2 ^ 8
      | .int16 | .fp16 | .bf16 => i.toNat
      | .int32 => (BitVec.ofInt 32 i.toInt).toNat
      | _ => (fmt16.cvt fmt32 .rne i.toNat).1) false)
  ∧ (∀ (s : State) (f : VW) (d : Fin 16) (h : HRd), Tile (.vbcast f d h) s f True [⟨.h, h.reg.val⟩] d (intLat (count s f)) s.kore.eb fun k =>
    moved (opnd s f (.h h.port h.reg) k))
  ∧ (∀ (s : State) (f : VW) (d a : Fin 16) (b : Src 16) (up : Bool) (K : Fin 64),
    Tile (.vslide f d a b up K) s f True [vreg f a, b.ref f.file] d (intLat (count s f)) s.kore.eb fun i =>
      let n := count s f
      moved (if up then
          (if K.val ≤ i then elem s f a (i - K.val) else if K.val ≤ n + i then opnd s f b (n + i - K.val) else Reg.zero)
        else if i + K.val < n then elem s f a (i + K.val) else if i + K.val < 2 * n then opnd s f b (i + K.val - n) else Reg.zero))
  ∧ (∀ (s : State) (f : VW) (d a : Fin 16), Tile (.vtrn f d a) s f True [vreg f a] d (intLat (count s f)) s.kore.eb fun i =>
    moved (elem s f a (i % s.kore.rows f * s.kore.cols f + i / s.kore.rows f)))
  ∧ (∀ (s : State) (f : VW) (d a : Fin 16) (fm : Fmt) (n : Fin 64), Tile (.vsnd f d a true n) s f (s.kore.form.fp = some fm) [vreg f a] d
      (intLat (count s f)) s.kore.eb fun k => moved ⟨(elem s f a k).val, BitVec.ofNat 6 n.val, (elem s f a k).poi⟩)
  ∧ (∀ (s : State) (f : VW) (d a : Fin 16) (fm : Fmt), Tile (.vsnd f d a false 0) s f (s.kore.form.fp = some fm) [vreg f a] d
      (intLat (count s f)) s.kore.eb fun k => raw (fm.ofInt .rne (snd fm (elem s f a k))).1 (elem s f a k).poi)
  ∧ ∀ (s : State) (f : VW) (d : Fin 32) (a : Fin 16) (g : Fin 8), s.clear f.slot 1 [vreg f a] [⟨⟨.h, d.val⟩, 2⟩] →
      exec (.vzmap f d a g) s = .next ((s.holding f.slot 1).push ⟨s.now + 2, .reg ⟨.h, d.val⟩
        ⟨(s.kore.vreg f a.val).zf.extractLsb' (64 * g.val) 64, 63, false⟩, 0, none, none, false, 0, none, s.now⟩)

/-- Selection, soundings and movement of tiles. -/
def Obligations.TileSelectionAndMovementResults : Prop := Spec.TileSelectionResults ∧ Spec.TileMovementResults

/-- R112, R113, R433: a sum of a line adds in ascending order in FP32, rounding at each step, and once more into the element format; one of
integers is exact modulo 2^w. The maximum of a line without a NaN is an element that no other exceeds; a line of one NaN gives the
canonical one. -/
def Sys2Proof.Spec.LinesReduce : Prop :=
  (∀ (form : Form) (f : Fmt) (x : Reg) (l : List Reg), form.fp = some f →
    let wide (y : Reg) : Nat := if f = fmt32 then low f y else (f.cvt fmt32 .rne (low f y)).1
    (sumLine form (x :: l)).w = (fmt32.cvt f .rne (l.foldl (fun a y => (fmt32.add .rne a (wide y)).1) (wide x))).1)
  ∧ (∀ (form : Form) (l : List Reg), form.fp = none → l ≠ [] →
    (sumLine form l).w = form.int.enc ((l.map fun y => form.int.dec y.val.toNat).sum))
  ∧ (∀ (s : State) (f : Fmt) (l : List Reg), s.kore.form.fp = some f → l ≠ [] → (∀ y ∈ l, (f.dec (low f y)).isNan = false) →
    ∃ z ∈ l, (s.maxLine l).w = low f z ∧ ∀ y ∈ l, (f.compare .le (low f y) (low f z)).1 = true)
  ∧ (∀ (s : State) (f : Fmt) (x : Reg), s.kore.form.fp = some f → (f.dec (low f x)).isNan = true → (s.maxLine [x]).w = f.qnan)
  ∧ ∀ (s : State) (l : List Reg), s.kore.form.fp = none → l ≠ [] →
    ∃ z ∈ l, (s.maxLine l).w = z.val.toNat ∧ ∀ y ∈ l, s.kore.form.int.dec y.val.toNat ≤ s.kore.form.int.dec z.val.toNat

/-- R124, R125: of a block of finite FP32 values, subnormal ones flushed to zero, the second exponent is that of the greatest magnitude and the
first one m lower, but at least 1. Each value comes back with its sign as the nearest multiple of the step of the first exponent that
has m bits, else of the step of the second; one beyond both saturates. -/
def Sys2Proof.Spec.QuantisesToNearest : Prop :=
  (∀ x ∈ [Sx.mk 2 4, ⟨6, 8⟩, ⟨14, 16⟩], ∀ (ys : List Nat) (zs : List ℚ) (top : ℚ), ys.length = 32 → (∀ y ∈ ys, y < 2 ^ 32) →
    ys.map (fun y => value fmt32 (flush32 y).1) = zs.map some → (∃ z ∈ zs, top = |z|) → (∀ z ∈ zs, |z| ≤ top) → 0 < top →
    let b := (x.quantise ys).1
    let e0 := (b.getD 0 0).toNat
    let e1 := (b.getD 1 0).toNat
    let lo : ℚ := 2 ^ ((e0 : Int) - 127 - x.m + 1)
    let hi : ℚ := 2 ^ ((e1 : Int) - 127 - x.m + 1)
    (2 : ℚ) ^ ((e1 : Int) - 127) ≤ top ∧ top < (2 : ℚ) ^ ((e1 : Int) - 126) ∧ e0 = max 1 (e1 - x.m)
    ∧ ∀ i < 32, ∃ v, value fmt32 ((x.decodeBlock b).1.getD i 0) = some v ∧ 0 ≤ v * zs.getD i 0
      ∧ ((∃ q < 2 ^ x.m, NearestEven (|zs.getD i 0| / lo) q ∧ |v| = q * lo)
        ∨ ((∀ q < 2 ^ x.m, ¬NearestEven (|zs.getD i 0| / lo) q)
          ∧ ((∃ q < 2 ^ x.m, NearestEven (|zs.getD i 0| / hi) q ∧ |v| = q * hi)
            ∨ ((∀ q < 2 ^ x.m, ¬NearestEven (|zs.getD i 0| / hi) q) ∧ |v| = (2 ^ x.m - 1) * hi)))))
  ∧ ∀ (x : Sx) (n : Nat) (es : List Reg), quantAll x (n + 1) es = quantAll x 1 (es.take 32) ++ quantAll x n (es.drop 32)
    ∧ (es.length ≤ 32 → (quantAll x 1 es).map (·.w) =
        ((x.decodeBlock (x.quantise (es.map (·.val.toNat) ++ List.replicate (32 - es.length) 0)).1).1).take es.length)

/-- R140, R424, R425, R433 with R417: reductions along an axis, and conversions between formats. -/
def Sys2Proof.Spec.TileReductions : Prop :=
  (∀ (s : State) (f : VW) (d a : Fin 16) (cols isMax : Bool),
    Tile (if isMax then .vmaxr f d a cols else .vsum f d a cols) s f True [vreg f a] d (redLat (count s f)) s.kore.eb fun i =>
      let R := s.kore.rows f
      let C := s.kore.cols f
      let line := if cols then (List.range R).map fun r => elem s f a (r * C + i) else (List.range C).map fun c => elem s f a (i + c)
      if (if cols then i < C else i % C = 0) then
        let o := if isMax then s.maxLine line else sumLine s.kore.form line
        float s o.w o.snd o.fl o.srcs (line.any (·.poi))
      else moved ⟨0, 63, false⟩)
  ∧ ∀ (s : State) (f : VW) (d a : Fin 16) (rm : RM) (sat : Bool) (src : Form),
    let dst := s.kore.form
    let n := count s f
    let x (k : Nat) : Reg := (s.kore.vreg f a.val).elem (formBytes src) k
    let quant : List FpOut := match (if src.fp = some fmt32 then sxOf dst else none) with
      | some q => quantAll q ((n + 31) / 32) ((List.range n).map x)
      | none => (List.range n).map fun k => cvtElem src dst rm sat (x k)
    Tile (.vcvt f d a rm sat src) s f (cvtOk src dst rm sat n = true) [vreg f a] d (fpLat n) s.kore.eb fun k =>
      let o := quant.getD k ⟨0, 0, 0, []⟩
      float s o.w o.snd o.fl o.srcs (x k).poi

/-- Reductions of tiles along an axis, and conversions between formats. -/
def Obligations.TileReductionsAndConversions : Prop := Spec.TileReductions ∧ Spec.LinesReduce ∧ Spec.QuantisesToNearest

namespace Sys2Proof.Spec
open Sys2Proof.Machine Config

/-! ### Tiles in memory -/

/-- Chunks of a transfer, and the bytes of chunk j (R150, R161). -/
def chunks (bytes : Nat) : Nat := (bytes + 127) / 128
def chunk (bytes j : Nat) : Nat := min 128 (bytes - 128 * j)

/-- a = (Hn + 64 × OFF) mod 2^64. -/
def tileAt (s : State) (h : HRd) (off : BitVec 7) : Nat := (((s.rd h.ref).val.toNat : Int) + 64 * off.toInt).emod (2 ^ 64) |>.toNat

/-- Access number k of a vector transfer: n bytes at an offset of the own scratchpad, in cycle t. -/
def tileAcc (s : State) (f : VW) (k t off : Nat) (kind : AKind) (write : Bool) (link : Nat) : Access :=
  ⟨s.nextId + k, t, .seq s.ctx.core s.ctx.q, s.vplace off (if write then .w else .r), kind, write, false, .own, slotIx f.slot, s.now, link⟩

/-- The plane of a range of the scratchpad (R148). -/
def planeAt (s : State) (off : Nat) (p : Perm) : Place := s.vplace ((s.cur.sndbase.toNat + off / 4) % 2 ^ 64) p

/-- The tile of a load that waits for its accesses. -/
def waiting (s : State) (due link : Nat) (eff : QEff) : QEntry := ⟨due, eff, 0, none, some link, false, 0, some .own, s.now⟩

/-- Whole-tile loads and stores of a file. -/
def TileLoad (i : VW → Fin 16 → HRd → BitVec 7 → Instr) (plane : Bool) : Prop :=
  ∀ (s : State) (f : VW) (d : Fin 16) (h : HRd) (off : BitVec 7),
    let a := tileAt s h off
    let bytes := s.kore.tileBytes f
    let nc := chunks bytes
    let lat := 3 + nc + if plane then 1 else 0
    s.clear f.slot nc [h.ref] [⟨vreg f d, lat⟩] → s.sound [h.ref] → s.tileFree f a .r plane →
    ∃ t, exec (i f d h off) s = .next t
      ∧ Adds s t ((List.range nc).map fun j => tileAcc s f j (s.now + 2 + j) (a + 128 * j) (.vload (128 * j) (chunk bytes j) (a % 4)
            (if plane then some (planeAt s (a + 128 * j) .r) else none)) false s.nextId)
          [waiting s (s.now + lat) s.nextId (.vec f d.val 0 bytes VReg.zero)]

def TileStore (i : VW → Fin 16 → HRd → BitVec 7 → Instr) (plane : Bool) : Prop :=
  ∀ (s : State) (f : VW) (d : Fin 16) (h : HRd) (off : BitVec 7),
    let a := tileAt s h off
    let eb := s.kore.eb
    let es := (List.range (count s f)).map (elem s f d)
    let bytes := s.kore.tileBytes f
    let nc := chunks bytes
    s.clear f.slot nc [vreg f d, h.ref] [] → s.sound [h.ref] → s.tileFree f a .w plane →
    ∃ t, exec (i f d h off) s = .next t
      ∧ Adds s t ((List.range nc).map fun j => tileAcc s f j (s.now + 2 + j) (a + 128 * j)
          (.store (((es.flatMap fun e => natBytes eb e.val.toNat).drop (128 * j)).take (chunk bytes j))
            (((es.flatMap fun e => List.replicate eb e.poi).drop (128 * j)).take (chunk bytes j))
            (if plane then some (planeAt s (a + 128 * j) .w,
              (List.range (planeCount (a + 128 * j) (chunk bytes j))).map fun k => planeOf a eb es ((a + 128 * j) / 4 + k)) else none))
          true (s.nextId + j)) []

end Sys2Proof.Spec

/-- R150, R161, R428: `VLD`, `VLDS`, `VST` and `VSTS` move a tile in chunks of 128 bytes, one a cycle from t + 2 on. -/
def Obligations.TileTransfers : Prop :=
  TileLoad .vld false ∧ TileLoad .vlds true ∧ TileStore .vst false ∧ TileStore .vsts true

/-- R260, R429, R430: a gather and a scatter take their offsets from the head of `Q0`, and leave the rest. Where two elements of a
scatter share an address, that of the higher index alone is written. -/
def Sys2Proof.Spec.GathersAndScatters : Prop :=
  (∀ (s : State) (f : VW) (d : Fin 16) (h : HRd) (n : Fin 32),
    let m := n.val + 1
    let bytes := s.kore.tileBytes f
    let nc := chunks bytes
    let at_ (j : Nat) := ((s.rd h.ref).val.toNat + (s.kore.q0.getD j 0).toNat * s.kore.eb) % 2 ^ 64
    s.clear f.slot nc [h.ref] [⟨vreg f d, 5 + nc⟩] → s.sound [h.ref] → s.gatherFree f h m (s.now + 2) .r →
    ∃ t, exec (.vldx f d h n) s = .next t ∧ t.kore.q0 = s.kore.q0.drop m
      ∧ Adds s t ((List.range m).map fun j => tileAcc s f j (s.now + 2) (at_ j)
            (.vload (j * s.kore.eb) s.kore.eb (at_ j % 4) none) false s.nextId)
          [waiting s (s.now + (5 + nc)) s.nextId (.vec f d.val 0 bytes VReg.zero)])
  ∧ ∀ (s : State) (f : VW) (d : Fin 16) (h : HRd) (n : Fin 32),
    let m := n.val + 1
    let nc := chunks (s.kore.tileBytes f)
    let at_ (j : Nat) := ((s.rd h.ref).val.toNat + (s.kore.q0.getD j 0).toNat * s.kore.eb) % 2 ^ 64
    s.clear f.slot nc [vreg f d, h.ref] [] → s.sound [h.ref] → s.gatherFree f h m (s.now + 4) .w →
    ∃ t, exec (.vstx f d h n) s = .next t ∧ t.kore.q0 = s.kore.q0.drop m
      ∧ Adds s t (((List.range m).filter fun j => (List.range m).all fun i => decide (i ≤ j) || at_ i != at_ j).zipIdx.map fun x =>
          tileAcc s f x.2 (s.now + 4) (at_ x.1)
            (.store (natBytes s.kore.eb (elem s f d x.1).val.toNat) (List.replicate s.kore.eb (elem s f d x.1).poi) none) true (s.nextId + x.2)) []

/-- R277 to R280, R431: `VLDZ` reads all the bytes that a tile may take; `VSTZ` writes the record of its tile where it fits. -/
def Sys2Proof.Spec.RecordTransfers : Prop :=
  (∀ (s : State) (f : VW) (d : Fin 16) (h : HRd),
    let a := (s.rd h.ref).val.toNat
    let nc := chunks (s.kore.tileBytes f)
    s.kore.form ∈ [Form.fp32, .fp16, .bf16, .int16, .int32] →
    s.clear f.slot nc [h.ref] [⟨vreg f d, 5 + nc⟩] → s.sound [h.ref] → a % 16 = 0 → a + 128 * nc ≤ spadBytes →
    (∀ j < nc, s.chunkFree f.slot a (128 * nc) j (s.now + 2 + j) .r false) →
    ∃ t, exec (.vldz f d h) s = .next t
      ∧ Adds s t ((List.range nc).map fun j => tileAcc s f j (s.now + 2 + j) (a + 128 * j) (.vload (128 * j) 128 (a % 4) none) false s.nextId)
          [waiting s (s.now + (5 + nc)) s.nextId (.vz f d.val (count s f) s.kore.eb VReg.zero)])
  ∧ ∀ (s : State) (f : VW) (d : Fin 16) (h : HRd) (cap : Fin 128), cap ≠ 0 →
    let a := (s.rd h.ref).val.toNat
    let nc := chunks (s.kore.tileBytes f)
    let W := min (16 * cap.val) (128 * nc)
    let r := recBytesOf s.kore.form ((List.range (count s f)).map (elem s f d))
    s.kore.form ∈ [Form.fp32, .fp16, .bf16, .int16, .int32] →
    s.clear f.slot (nc + 1) [vreg f d, h.ref] [] → s.sound [h.ref] → a % 16 = 0 → a + W ≤ spadBytes → r.1.length ≤ W →
    (∀ j < chunks W, s.chunkFree f.slot a W j (s.now + 4 + j) .w false
      ∧ ∀ u ∈ s.recUses f.slot a j (s.now + 4 + j), s.grants .own u) →
    ∃ t, exec (.vstz f d h cap) s = .next t
      ∧ Adds s t ((List.range (chunks r.1.length)).map fun j => tileAcc s f j (s.now + 4 + j) (a + 128 * j)
          (.store ((r.1.drop (128 * j)).take 128) ((r.2.drop (128 * j)).take 128) none) true (s.nextId + j)) []

/-- Gathers, scatters and records. -/
def Obligations.GathersAndRecords : Prop := Spec.GathersAndScatters ∧ Spec.RecordTransfers

namespace Sys2Proof.Spec
open Sys2Proof.Machine Config

/-! ### Engine commands -/

/-- What a syllable of slots E and C leaves as it stood when it issues: memory, the clock, the moorings, the context, the trap mark and
every command and access of before. -/
structure Quiet (s t : State) : Prop where
  mem : t.mem = s.mem
  poison : t.poison = s.poison
  now : t.now = s.now
  moorings : t.moorings = s.moorings
  ctx : t.ctx = s.ctx
  trapped : t.trapped = s.trapped
  compl : t.compl = s.compl

/-- The read of granule j of a command block: its cycle, its place, its 16 bytes (R103, R346). -/
def blockRead (s : State) (a j : Nat) : Access :=
  ⟨s.nextId + 1 + j, s.now + 1 + j, .cmd s.nextId, s.vplace (a + 16 * j) .r, .eng j 16, false, false, .own, 6,
    s.now, s.nextId⟩

/-- An engine command of a class, an instance and an opcode: it issues from a 64-byte aligned block of the own scratchpad whose four
granules find their banks, becomes a waiting command, and brings its four block reads; `any` says that both streams may issue it. -/
def Command (i : Instr) (h : HRd) (cls : EClass) (inst opc : Nat) (any : Bool) : Prop :=
  ∀ s : State, (any = true ∨ s.ctx.q = .primary) →
    let a := (s.rd h.ref).val.toNat
    s.clear .e 1 [h.ref] [] → s.sound [h.ref] → a % 64 = 0 → a ≤ 0x1FFC0 →
    (∀ j < 4, s.takes .e .own (a + 16 * j) 16 16 .r (s.now + 1 + j)) →
    ∃ t c, exec i s = .next t ∧ Quiet s t ∧ t.cur = s.cur ∧ c ∈ t.cmds
      ∧ c.id = s.nextId ∧ c.core = s.ctx.core ∧ c.q = s.ctx.q ∧ c.mooring = s.moorOf s.ctx.core ∧ c.cls = cls ∧ c.inst = inst ∧ c.opc = opc
      ∧ c.instr = i ∧ c.issued = s.now ∧ c.pc = s.ctx.pc ∧ c.block = a ∧ c.fmt = s.kore.fmt ∧ c.sndbase = s.cur.sndbase
      ∧ c.st = .waiting ∧ c.ended = false ∧ c.blk = []
      ∧ (∀ d ∈ s.cmds, d.ended = false → d ∈ t.cmds)
      ∧ t.nextId = s.nextId + 5 ∧ t.accesses = s.accesses ++ (List.range 4).map (blockRead s a)

end Sys2Proof.Spec

/-- R102, R103, R346 with R39: every command of slot E but `ENGQ` reads its block in the four cycles after its issue and waits for its
START. Only `CPY` issues in both streams. -/
def Sys2Proof.Spec.EngineCommandsIssue : Prop :=
  ∀ h : HRd,
    Command (.arrld h) h .mesh 0 0x01 false ∧ Command (.arrscl h) h .mesh 0 0x02 false ∧ Command (.arrsave h) h .mesh 0 0x05 false
    ∧ Command (.arrrest h) h .mesh 0 0x06 false ∧ Command (.arrgang h) h .mesh 0 0x07 false
    ∧ (∀ m rev dc, Command (.arrpass h m rev dc) h .mesh 0 0x03 false) ∧ (∀ r, Command (.arrsweep h r) h .mesh 0 0x04 false)
    ∧ (∀ n r, Command (.cpy h n r) h .copy n.val 0x10 true) ∧ (∀ n r, Command (.cpymc h n r) h .copy n.val 0x11 false)
    ∧ (∀ n, Command (.scrub h n) h .copy n.val 0x13 false) ∧ (∀ r l, Command (.sixrun h r l) h .six 0 0x12 false)
    ∧ (∀ n o f, Command (.coll h n o f) h .coll n.val 0x18 false)
    ∧ (∀ p, Command (.rld h p) h .cloys p.val 0x19 false) ∧ (∀ p, Command (.rst h p) h .cloys p.val 0x1A false)
    ∧ Command (.nmc h) h .nm 0 0x20 false ∧ Command (.publish h) h .pkg 0 0x21 false ∧ Command (.chkpt h) h .pkg 0 0x28 false
    ∧ (∀ k, Command (.stepadv h k) h .pkg 0 0x29 false) ∧ ∀ r, Command (.ebbsweep h r) h .pkg 0 0x2A false

/-- R366, R250: `ENGQ` asks for the status of the most recent of the last eight commands of its core, unit and block address; 0 if
there is none. The word lands four cycles after issue, as it stood at the end of the cycle before. -/
def Sys2Proof.Spec.EngineStatusQuery : Prop :=
  (∀ (s : State) (h : HRd) (cls : EClass) (n : Fin 32), s.clear .e 1 [h.ref] [⟨h.ref, 4⟩] → s.sound [h.ref] →
    exec (.engq h cls n) s = .next ((s.holding .e 1).push
      ⟨s.now + 4, .engq h.ref cls.code n.val ((s.rd h.ref).val.toNat % 2 ^ 32), 0, none, none, false, 0, none, s.now⟩))
  ∧ (∀ (s : State) (core cls inst block : Nat), (∀ c ∈ s.cmds, ¬(c.core = core ∧ c.cls.code = cls ∧ c.inst = inst ∧ c.block = block)) →
    s.statusWord core cls inst block = 0)
  ∧ ∀ (s : State) (c : Cmd) (l : List Cmd), s.cmds = l ++ [c] →
    let w := (s.statusWord c.core c.cls.code c.inst c.block).toNat
    w / 2 ^ 63 = 1 ∧ w / 2 ^ 48 % 2 ^ 12 = 0 ∧ w / 2 ^ 40 % 256 = c.fl.toNat % 64 ∧ w / 2 ^ 32 % 256 = c.code % 256
      ∧ w % 2 ^ 32 = c.doneBytes % 2 ^ 32
      ∧ w / 2 ^ 60 % 8 =
        match c.st with
        | .none => 0
        | .waiting => 1
        | .running => 2
        | .done => 3
        | .faulted => 4
        | .part => 5

/-- Slot E. -/
def Obligations.EngineSyllables : Prop := Spec.EngineCommandsIssue ∧ Spec.EngineStatusQuery

namespace Sys2Proof.Spec
open Sys2Proof.Machine Config

/-! ### Slot C -/

/-- A syllable of slot C that holds its unit for a cycle and changes only its sequencer, as `f` says. -/
def Controls (i : Instr) (s : State) (reads : List RRef) (f : SeqState → SeqState) : Prop :=
  s.clear .c 1 reads [] → s.sound reads → exec i s = .next ((s.holding .c 1).updCur f)

/-- An entry without flags that waits to land `lat` cycles from now. -/
def inFlight (s : State) (lat : Nat) (e : QEff) : QEntry := ⟨s.now + lat, e, 0, none, none, false, 0, none, s.now⟩

/-- The header of the first delay bundle, of the second, and of the bundle after them (R82, R352). -/
def afterDelay (s : State) : Addr × Addr × Nat :=
  let d2 := s.after s.ctx.core s.ctx.q s.ctx.next.toNat
  (s.ctx.next, BitVec.ofNat 56 d2, s.after s.ctx.core s.ctx.q d2)

/-- R352: no branch stands in a delay bundle, and no loop ends in one. -/
def mayBranch (s : State) : Prop :=
  s.ctx.delayed = false ∧ ∀ e ∈ s.cur.loops, e.stop.toNat ≠ s.ctx.next.toNat ∧ e.stop.toNat ≠ s.after s.ctx.core s.ctx.q s.ctx.next.toNat

/-- A branch: its two delay bundles follow, then its target where it is taken. -/
def branches (taken : Bool) (target : Addr) (es : List QEntry) (x : SeqState) : SeqState :=
  { x with branch := if taken then some (2, target) else none, delay := 2, ownBr := true, queue := x.queue ++ es }

/-- The target of an offset in parcels (R95). -/
def target (s : State) (off : Int) : Addr := BitVec.ofInt 56 (s.ctx.pc.toNat + 2 * off)

/-- `SYSRD` of a register that now holds a value. -/
def SysReads (s : State) (n : Nat) (v : Word) : Prop :=
  ∀ (d : Fin 32) (k : Fin 128), k.val = n → s.clear .c 1 [] [⟨⟨.h, d.val⟩, 2⟩] →
    exec (.sysrd d k) s = .next ((s.holding .c 1).push (inFlight s 2 (.reg ⟨.h, d.val⟩ ⟨v, 63, false⟩)))

/-- The mooring of the issuing core. -/
def moorOr (s : State) (f : Mooring → Word) : Word := ((s.moorOf s.ctx.core).map fun m => f (s.moor m)).getD 0

end Sys2Proof.Spec

/-- R82, R95, R158, R352, R353, R355, R356, R402: branches. `BR` reads the whole H register, `BSND` its raw sounding; `CALL` writes `LNK`
with the header after its second delay bundle; `RET` takes its target from `LNK`. -/
def Sys2Proof.Spec.BranchesIssue : Prop :=
  ∀ s : State, mayBranch s →
    (∀ off, Controls (.br .always off) s [] (branches true (target s off.toInt) []))
    ∧ (∀ (h : HRd) (off : BitVec 18), Controls (.br (.ifH h) off) s [h.ref]
        (branches (decide ((s.rd h.ref).val ≠ 0)) (target s off.toInt) []))
    ∧ (∀ (h : HRd) (n : Fin 64) (off : BitVec 11), Controls (.bsnd h n false off) s [h.ref]
        (branches (decide ((s.rd h.ref).snd.toNat < n.val)) (target s off.toInt) []))
    ∧ (∀ (h : HRd) (n : Fin 64) (off : BitVec 11), Controls (.bsnd h n true off) s [h.ref]
        (branches (decide (n.val ≤ (s.rd h.ref).snd.toNat)) (target s off.toInt) []))
    ∧ (∀ off, Controls (.call off) s []
        (branches true (target s off.toInt) [inFlight s 1 (.sys 0x0E (BitVec.ofNat 64 (afterDelay s).2.2))]))
    ∧ Controls .ret s [] (branches true (s.cur.lnk.setWidth 56) [])

/-- R44, R45, R82, R309, R352: a branch in flight counts its two delay bundles and then takes the place of the loops; a branch in a
delay bundle is a schedule fault of kind 7. -/
def Sys2Proof.Spec.BranchesLand : Prop :=
  (∀ (x : SeqState) (t : Addr), x.pend = true → x.branch = some (0, t) →
    x.resolve.pc = t ∧ x.resolve.branch = none ∧ x.resolve.pend = false
      ∧ x.resolve.loops.IsSuffix x.loops ∧ ∀ e ∈ x.resolve.loops.head?, e.start ≤ t ∧ t ≤ e.stop)
  ∧ (∀ (s : State) (n : Nat) (t : Addr), s.ctx.delayed = true → s.cur.branch = some (n + 1, t) → s.cur.skipTo = none →
    (s.advance.seq s.ctx.core s.ctx.q).branch = some (n, t) ∧ (s.advance.seq s.ctx.core s.ctx.q).pc = s.ctx.next)
  ∧ ∀ (s : State) (off : BitVec 18), s.ctx.q = .primary → s.ctx.delayed = true → s.clear .c 1 [] [] →
    exec (.br .always off) s = .next (s.raise ⟨0x05, some 7, 7, false⟩)

/-- R44, R390, R391: `LOOP` pushes an entry over the next bundle up to END, whose index starts at 0, or at count − 1 in reverse; with a
count of 0 the body is skipped. -/
def Sys2Proof.Spec.LoopsIssue : Prop :=
  ∀ (s : State) (n : LCount) (rev pre : Bool) (endOff : BitVec 16),
    let reads := match n with
      | .imm _ => []
      | .reg h => [h.ref]
    let count := match n with
      | .imm k => k.val
      | .reg h => (s.rd h.ref).val.toNat % 2 ^ 32
    let stop := BitVec.ofNat 56 (s.ctx.pc.toNat + 2 * endOff.toNat)
    s.ctx.len ≤ endOff.toNat → s.cur.loops.length < 6 → (∀ e ∈ s.cur.loops, e.stop ≠ s.ctx.pc) →
    Controls (.loop n rev pre endOff) s reads fun x =>
      if count = 0 then { x with skipTo := some (BitVec.ofNat 56 (s.after s.ctx.core s.ctx.q stop.toNat)) }
      else { x with
        loops := ⟨s.ctx.next, stop, count, if rev then count - 1 else 0, rev, pre && decide (s.ctx.q = .primary)⟩ :: x.loops
        queue := x.queue ++ [inFlight s 1 (.push s.cur.loops.length)] }

/-- The control transfers of slot C. -/
def Sys2Proof.Spec.BranchesAndLoopsIssue : Prop := Spec.BranchesIssue ∧ Spec.LoopsIssue

/-- R45: after the bundle at its END, the innermost entry steps to its next index and back to its start, and its iterators step with it;
after its last iteration it leaves the stack, and the entry below is looked at. -/
def Sys2Proof.Spec.LoopsStep : Prop :=
  ∀ (x : SeqState) (e : LoopEnt) (l : List LoopEnt) (p : Addr),
    (e.stop ≠ p → x.resolveLoops p (e :: l) = { x with loops := e :: l })
    ∧ (e.stop = p → e.rev = false → e.index + 1 < e.count →
        x.resolveLoops p (e :: l) = ({ x with loops := { e with index := e.index + 1 } :: l, pc := e.start }).stepIters l.length false)
    ∧ (e.stop = p → e.rev = true → 0 < e.index →
        x.resolveLoops p (e :: l) = ({ x with loops := { e with index := e.index - 1 } :: l, pc := e.start }).stepIters l.length true)
    ∧ (e.stop = p → (if e.rev then e.index = 0 else e.count ≤ e.index + 1) → x.resolveLoops p (e :: l) = x.resolveLoops p l)

/-- What follows the bundle at the end of a loop, and the delay bundles of a branch. -/
def Sys2Proof.Spec.BranchesAndLoopsResolve : Prop := Spec.BranchesLand ∧ Spec.LoopsStep

/-- Branches and loops, from their issue to the bundle that follows them. -/
def Obligations.BranchesAndLoops : Prop := Spec.BranchesAndLoopsIssue ∧ Spec.BranchesAndLoopsResolve

/-- R46: the loop-index system registers L0 to L5 read the index of their level; a level that is not on the stack reads 0. -/
def Obligations.LoopIndexRegisters : Prop :=
  ∀ (s : State) (k : Nat), k < 6 →
    SysReads s (0x12 + k) (BitVec.ofNat 64 (if k < s.cur.loops.length then (s.cur.loops.getD (s.cur.loops.length - 1 - k) ⟨0, 0, 0, 0, false, false⟩).index
      else 0))

/-- R52: `CCNT` is 0 at power-on reset and counts every core cycle; every core reads the same 64-bit count, which wraps, and no stream
writes it. -/
def Obligations.CycleCounter : Prop :=
  State.reset.now = 0
  ∧ (∀ s : State, SysReads s 0x00 (BitVec.ofNat 64 s.now))
  ∧ (∀ s t : State, s.agenda = [] → s.phase < 8 → step s = .next t → t.now = s.now)
  ∧ (∀ s : State, s.agenda = [] → 8 ≤ s.phase → ∃ t, step s = .next t ∧ t.now = s.now + 1)
  ∧ ∀ (s : State) (h : HRd) (n : Fin 128), n.val = 0x00 → s.clear .c 1 [h.ref] [] → exec (.syswr h n) s = .next (s.raise ⟨0x07, some 7, 0, false⟩)

/-- R83, R413: what `SYSRD` delivers of every other system register. -/
def Sys2Proof.Spec.SystemRegisterReads : Prop :=
  ∀ s : State,
    SysReads s 0x00 (BitVec.ofNat 64 s.now) ∧ SysReads s 0x02 s.kore.fmt ∧ SysReads s 0x03 s.kore.shv ∧ SysReads s 0x04 s.kore.shw
    ∧ (s.cur.frozen = none → SysReads s 0x01 (BitVec.ofNat 64 (s.now - s.cur.tbase)))
    ∧ (s.accesses = [] → SysReads s 0x05 (s.cur.flags.setWidth 64))
    ∧ SysReads s 0x06 (s.cur.trapen.setWidth 64) ∧ SysReads s 0x07 (s.cur.sndthr.setWidth 64) ∧ SysReads s 0x08 s.cur.sndloss
    ∧ SysReads s 0x09 s.cur.sndbase ∧ SysReads s 0x0A (moorOr s (·.gstep)) ∧ SysReads s 0x0B (moorOr s (·.ebbtab))
    ∧ SysReads s 0x0C (moorOr s (·.lens)) ∧ SysReads s 0x0D (s.kore.ctxbase.setWidth 64)
    ∧ SysReads s 0x0E s.cur.lnk ∧ SysReads s 0x0F s.cur.xpc ∧ SysReads s 0x10 s.cur.xcause ∧ SysReads s 0x11 s.cur.xinfo
    ∧ (∀ k < 4, SysReads s (0x18 + k) (s.cur.wt.getD k 0))
    ∧ SysReads s 0x1C s.kore.engst ∧ SysReads s 0x1D s.kore.driftv ∧ SysReads s 0x1E s.kore.sweepst

/-- R74, R83, R382, R414, R447: the writable system registers take a value that they may hold: `FMT`, `SHV` and `SHW` five cycles after
issue, the others one. `EBBTAB`, `LENS` and `CTXBASE` are for the secondary stream, and take no other value; every other number is
read-only to both streams. -/
def Sys2Proof.Spec.SystemRegisterWrites : Prop :=
  (∀ (s : State) (h : HRd) (n : Fin 128), n.val ∈ [0x05, 0x06, 0x07, 0x08, 0x09, 0x0E, 0x0F, 0x11] →
    Controls (.syswr h n) s [h.ref] fun x => { x with queue := x.queue ++ [inFlight s 1 (.sys n.val (s.rd h.ref).val)] })
  ∧ (∀ (s : State) (h : HRd) (n : Fin 128), s.ctx.q = .secondary →
    let v := (s.rd h.ref).val.toNat
    (n.val = 0x0B ∧ v % 128 = 0 ∧ spadBytes ≤ v ∨ n.val = 0x0C ∧ v % 32 = 0 ∧ spadBytes ≤ v
      ∨ n.val = 0x0D ∧ v % 4096 = 0 ∧ v + 0xAC1F < spadBytes) →
    Controls (.syswr h n) s [h.ref] fun x => { x with queue := x.queue ++ [inFlight s 1 (.sys n.val (s.rd h.ref).val)] })
  ∧ (∀ (s : State) (h : HRd) (n : Fin 128), n.val ∈ [0x02, 0x03, 0x04] → s.kore.fitsAt n.val (s.rd h.ref).val (s.now + 5) = true →
    Controls (.syswr h n) s [h.ref] fun x => { x with queue := x.queue ++ [inFlight s 5 (.sys n.val (s.rd h.ref).val)] })
  ∧ (∀ (s : State) (f : Form), s.kore.fitsAt 2 (BitVec.ofNat 64 f.code) (s.now + 5) = true →
    Controls (.fmtset f) s [] fun x => { x with queue := x.queue ++ [inFlight s 5 (.sys 0x02 (BitVec.ofNat 64 f.code))] })
  ∧ (∀ (s : State) (rows : Fin 32) (cols : Fin 64), s.kore.fitsAt 3 (BitVec.ofNat 64 (rows.val * 64 + cols.val)) (s.now + 5) = true →
    Controls (.shape .v rows cols) s [] fun x => { x with queue := x.queue ++ [inFlight s 5 (.sys 0x03 (BitVec.ofNat 64 (rows.val * 64 + cols.val)))] })
  ∧ (∀ (s : State) (rows : Fin 32) (cols : Fin 64), s.kore.fitsAt 4 (BitVec.ofNat 64 (rows.val * 64 + cols.val)) (s.now + 5) = true →
    Controls (.shape .w rows cols) s [] fun x => { x with queue := x.queue ++ [inFlight s 5 (.sys 0x04 (BitVec.ofNat 64 (rows.val * 64 + cols.val)))] })
  ∧ (∀ (s : State) (h : HRd) (n : Fin 128), s.ctx.q = .primary →
    n.val ∈ [0x00, 0x01, 0x0A, 0x0B, 0x0C, 0x0D, 0x10, 0x12, 0x13, 0x14, 0x15, 0x16, 0x17, 0x18, 0x19, 0x1A, 0x1B, 0x1C, 0x1D, 0x1E] →
    s.clear .c 1 [h.ref] [] → exec (.syswr h n) s = .next (s.raise ⟨0x07, some 7, 0, false⟩))
  ∧ (∀ (s : State) (h : HRd) (n : Fin 128), s.ctx.q = .secondary →
    n.val ∈ [0x00, 0x01, 0x0A, 0x10, 0x12, 0x13, 0x14, 0x15, 0x16, 0x17, 0x18, 0x19, 0x1A, 0x1B, 0x1C, 0x1D, 0x1E] →
    s.clear .c 1 [h.ref] [] → exec (.syswr h n) s = .next (s.raise ⟨0x07, some 7, 0, false⟩))
  ∧ ∀ (s : State) (h : HRd) (n : Fin 128), s.ctx.q = .secondary →
    let v := (s.rd h.ref).val.toNat
    (n.val = 0x0B ∧ (v % 128 ≠ 0 ∨ v < spadBytes) ∨ n.val = 0x0C ∧ (v % 32 ≠ 0 ∨ v < spadBytes)
      ∨ n.val = 0x0D ∧ (v % 4096 ≠ 0 ∨ spadBytes ≤ v + 0xAC1F)) →
    s.clear .c 1 [h.ref] [] → exec (.syswr h n) s = .next (s.raise ⟨0x07, some 7, 0, false⟩)

/-- The system registers. -/
def Obligations.SystemRegisters : Prop := Spec.SystemRegisterReads ∧ Spec.SystemRegisterWrites

/-- R49, R249, R273, R317, R379, R412, R415, R442: what holds a stream: `SYNC` a barrier of its mask, `WAITG` a gauge word and a
deadline, `FENCE` its scope, `TFENCE` the results in flight. -/
def Obligations.HoldsIssue : Prop :=
  (∀ (s : State) (mask : BitVec 16), s.ctx.q = .primary → mask.getLsbD (s.ctx.core % 16) = true →
    (∀ c, c / 16 = s.ctx.core / 16 → ∀ m t, (s.core c).prim.hold = .sync m t →
      m = mask ∨ (m.getLsbD (s.ctx.core % 16) = false ∧ (t = s.now → mask.getLsbD (c % 16) = false))) →
    Controls (.sync mask) s [] fun x => { x with hold := .sync mask s.now })
  ∧ (∀ (s : State) (h : HRd) (limit : BitVec 17),
    let v := (s.rd h.ref).val.toNat
    let ga := v % 2 ^ 32
    ga ≠ 0xFFFFFFFF → ga / 2 ^ 21 % 2 ^ 10 = 0 → (ga < 2 ^ 31 → ga % 2 ^ 21 < spadBytes) → ga % 16 = 0 →
    Controls (.waitg h limit) s [h.ref] fun x => { x with
      hold := .waitg (BitVec.ofNat 32 ga) (BitVec.ofNat 32 (v / 2 ^ 32)) s.now (s.now + limit.toNat) s.ctx.idle })
  ∧ (∀ (s : State) (sc : FScope), Controls (.fence sc) s [] fun x => { x with hold := .fence sc s.now s.ctx.idle })
  ∧ ∀ s : State, Controls .tfence s [] fun x => { x with hold := .tfence s.now s.ctx.idle }

/-- R59, R298, R443: `WATCH` takes the next item of its mooring's queue, or the null item, to the watch register that its counter
names, 24 cycles later. -/
def Sys2Proof.Spec.WatchTakesItem : Prop :=
  ∀ s : State, s.ctx.q = .primary → s.clear .c 1 [] [] → (s.cur.queue.filter fun e => e.eff.isWatch).length < 4 →
    ∃ t, exec .watch s = .next t ∧ t.mem = s.mem ∧ t.now = s.now
      ∧ (match s.moorOf s.ctx.core with
        | none => t.moorings = s.moorings ∧ t.cur = { s.cur with
            queue := s.cur.queue ++ [inFlight s 24 (.watch s.cur.wcnt.toNat 0x8000000000000000)], wcnt := s.cur.wcnt + 1 }
        | some m =>
          (m < nMoorings → (t.moor m).watchq = (s.moor m).watchq.tail) ∧ t.cur = { s.cur with
            queue := s.cur.queue ++ [inFlight s 24 (.watch s.cur.wcnt.toNat (((s.moor m).watchq.head?).getD 0x8000000000000000))]
            wcnt := s.cur.wcnt + 1 })

/-- R63, R159, R445 with R70: `XMOV` between scalars lands in two cycles; to or from a tile it holds its unit for the rows of the tile,
moves element 0 of a tile to a scalar, a scalar to element 0 of a tile, and a whole tile otherwise. -/
def Sys2Proof.Spec.MovesBetweenFiles : Prop :=
  (∀ (s : State) (df sf : File) (d r : Fin 32), df ∉ [File.v, .w] → sf ∉ [File.v, .w] →
    let dst : RRef := ⟨df, d.val⟩
    let src : RRef := ⟨sf, r.val⟩
    s.clear .c 1 [src] [⟨dst, 2⟩] →
    exec (.xmov df d sf r) s = .next ((s.holding .c 1).push (inFlight s 2 (.reg dst (s.rd src)))))
  ∧ (∀ (s : State) (df : File) (sf : VW) (d r : Fin 32), df ∉ [File.v, .w] →
    let n := s.kore.rows sf
    let dst : RRef := ⟨df, d.val⟩
    s.clear .c n [⟨sf.file, r.val⟩] [⟨dst, n + 1⟩] →
    exec (.xmov df d sf.file r) s = .next ((s.holding .c n).push
      (inFlight s (n + 1) (.reg dst ((s.kore.vreg sf r.val).elem s.kore.eb 0)))))
  ∧ (∀ (s : State) (df : VW) (sf : File) (d r : Fin 32), sf ∉ [File.v, .w] →
    let n := s.kore.rows df
    let src : RRef := ⟨sf, r.val⟩
    s.clear .c n [src] [⟨⟨df.file, d.val⟩, n + 1⟩] →
    exec (.xmov df.file d sf r) s = .next ((s.holding .c n).push
      (inFlight s (n + 1) (.vec df d.val 0 s.kore.eb (VReg.ofElems s.kore.eb [s.rd src])))))
  ∧ ∀ (s : State) (df sf : VW) (d r : Fin 32),
    let n := s.kore.rows sf
    s.clear .c n [⟨sf.file, r.val⟩] [⟨⟨df.file, d.val⟩, n + 1⟩] →
    exec (.xmov df.file d sf.file r) s = .next ((s.holding .c n).push
      (inFlight s (n + 1) (.vec df d.val 0 (s.kore.tileBytes sf)
        (VReg.ofElems s.kore.eb ((s.kore.vreg sf r.val).list s.kore.eb (s.kore.elems sf))))))

/-- `WATCH` and `XMOV`. -/
def Obligations.WatchAndMoves : Prop := Spec.WatchTakesItem ∧ Spec.MovesBetweenFiles

namespace Sys2Proof.Spec
open Sys2Proof.Machine Config

/-! ### Traps -/

/-- A sequencer's trap registers (R306, R307). -/
structure TrapRegs (x : SeqState) (xpc : Addr) (cause slot info : Nat) (valid : Bool) : Prop where
  xpc : x.xpc.toNat = xpc.toNat
  xcause : x.xcause.toNat = (if valid then 2048 + 256 * slot else 0) + cause
  xinfo : x.xinfo.toNat = info

/-- The state of a task's mooring after a trap of its primary: it parks at the end of this cycle in loose mode, and at the end of a step
(R327); else a task that stood is discarded eight cycles later (R310, R317, R319). -/
def Fate (s t : State) (m cause : Nat) : Prop :=
  if (s.moor m).loose = true ∨ cause = 0x13 then (t.moor m).st = .parking
  else (s.moor m).st ∈ [TaskSt.running, .parking, .parked, .nodeStopped] → (t.moor m).st = .ending (s.now + 8)

/-- A stop trap of the bundle now issuing: the bundle stands, its results in flight stay, and the next bundle is the resume point. -/
def StopsWith (s t : State) (cause info : Nat) : Prop :=
  TrapRegs t.cur s.ctx.pc cause 7 info true ∧ t.cur.queue = s.cur.queue ∧ t.accesses = s.accesses ∧ t.cmds = s.cmds
    ∧ t.cur.pc = s.cur.skipTo.getD s.ctx.next ∧ t.cur.nextAt = s.now + 1 + s.ctx.idle
    ∧ t.trapped = some ⟨cause, some 7, BitVec.ofNat 64 info, true⟩
    ∧ match s.ctx.q with
      | .secondary => t.cur.run = .parked ∧ t.moorings = s.moorings ∧ t.mem = s.mem
      | .primary => match s.moorOf s.ctx.core with
        | none => t.cur.run = .ended
        | some m => Fate s t m cause ∧ t.mem = s.mem

end Sys2Proof.Spec

/-- R34, R317, R354, R362, R416: `TRAP` stops its stream in every mode; `BRK` does so in loose mode and in the secondary stream, and
does nothing else; `DONE` ends the program, with its work in flight, and reports a secondary stream. What a stop leaves in XCAUSE,
XPC and XINFO is that of R306, R307 and R310. Slot 7 with SV of `TRAP` and `BRK`, and mooring 0 with zeros in the other bytes of the
completion of a secondary `DONE`, are the model's reading (log 25). -/
def Obligations.EndsIssue : Prop :=
  ∀ s : State, s.clear .c 1 [] [] →
    (∀ code : BitVec 8, ∃ t, exec (.trap code) s = .next t ∧ StopsWith s t 0x11 code.toNat)
    ∧ (∀ tag : BitVec 16, ∃ t, exec (.brk tag) s = .next t ∧
        if s.ctx.q = .secondary ∨ (∃ m, s.moorOf s.ctx.core = some m ∧ (s.moor m).loose = true) then StopsWith s t 0x12 tag.toNat
        else t = s.holding .c 1)
    ∧ ∃ t, exec .doneI s = .next t ∧ t.cur.run = .ended ∧ t.cur.loops = [] ∧ (∀ k < 8, t.cur.iters.getD k none = none)
        ∧ t.cur.branch = none ∧ t.cur.queue = s.cur.queue ∧ t.accesses = s.accesses ∧ t.cmds = s.cmds ∧ t.moorings = s.moorings
        ∧ match s.ctx.q with
          | .primary => t.compl = s.compl
          | .secondary => t.compl = s.compl ++ [⟨0x83, 0, 0, natBytes 2 s.ctx.core ++ List.replicate 62 0⟩]

/-- R306, R307, R310, R317, R319: taking a trap writes `XPC`, `XCAUSE` and `XINFO` of its sequencer, and decides what becomes of it: a
secondary stream stops beside its primary, a task of loose mode parks, a task of normal mode is discarded, with a record among the writes
of the cycle; the end of a step parks either (R327). -/
def Obligations.TrapsAreTaken : Prop :=
  ∀ (s : State) (c : Nat) (q : Seq) (t : Trap) (xpc : Addr) (k : Option Nat), s.Canon → t.cause < 256 →
    let u := s.takeTrapAt c q t xpc k
    TrapRegs (u.seq c q) xpc t.cause (t.slot.getD 0 % 8) t.info.toNat t.slot.isSome ∧ u.trapped = some t ∧ u.now = s.now
      ∧ (∀ d, d ≠ c → u.core d = s.core d)
      ∧ match q with
        | .secondary => (u.seq c .secondary).run = .parked ∧ u.seq c .primary = s.seq c .primary ∧ u.moorings = s.moorings ∧ u.mem = s.mem
        | .primary => u.seq c .secondary = s.seq c .secondary ∧
          match s.moorOf c with
          | none => (u.seq c .primary).run = .ended ∧ u.mem = s.mem
          | some m => Fate s u m t.cause ∧ (∀ n, n ≠ m → u.moor n = s.moor n) ∧ u.mem = s.mem
              ∧ if (s.moor m).loose = true ∨ t.cause = 0x13 then (u.seq c .primary).run = (s.seq c .primary).run
                else (u.seq c .primary).run = .ended
                  ∧ (u.core c).recwr = [(s.now, s.recAt c .primary, (u.seq c .primary).recBytes
                      ((s.seq c .primary).frozen.getD (if t.cause = 0x10 then s.now else s.now + 1)) true)]

/-- R310, R335, R336: the fault record of a trap says the task, the core, the cause, whether the task parks, `XINFO`, `XPC`, `ENGST` and
the cycle; a seventeenth that waits is counted and not written. -/
def Obligations.FaultRecords : Prop :=
  ∀ (s : State) (c m : Nat) (t : Trap) (xpc : Addr) (k : Option Nat), s.moorOf c = some m →
    let u := s.takeTrapAt c .primary t xpc k
    let r : Compl := ⟨0x82, m, 0, faultPayload (s.moor m).task c t.cause ((s.moor m).loose || t.cause == 0x13) t.info (xpc.setWidth 64) (s.core c).engst (s.now % 2 ^ 64)⟩
    if (s.compl.filter fun e => e.kind == 0x82).length < 16 then r ∈ u.compl ∧ u.overflow = s.overflow ∧ u.compl.length = s.compl.length + 1
    else u.compl = s.compl ∧ u.overflow = s.overflow + 1

namespace Sys2Proof.Spec
open Sys2Proof.Machine Config

/-- The syllables of a bundle issue one after the other, none of them trapped. -/
inductive Chain : List Instr → State → State → Prop where
  | nil (s : State) : Chain [] s s
  | cons {i : Instr} {l : List Instr} {s u t : State} : exec i { s with trapped := none } = .next u → u.trapped = none → Chain l u t →
      Chain (i :: l) s t

end Sys2Proof.Spec

/-- R308: the lowest cause of a bundle's precise traps is taken; taking one adds no result, no access and no hold, and changes no
flag; the bundle is the resume point, in the next cycle. A syllable that traps nullifies the bundle whole: what the syllables before
it and after it did is undone, so that the trap is taken in the state in which the first of them issued. That the bundle is the
resume point is R306's; that the trap takes the next cycle, and that the saved `TCLK` is of it, is the model's reading (log 25).
Collisions in a bank (cause 5, info 4) are left out of the clause on a bundle of several syllables. -/
def Obligations.PreciseTrapsNullify : Prop :=
  (∀ l : List Trap, l ≠ [] → ∃ t, lowest l = some t ∧ t ∈ l ∧ ∀ u ∈ l, t.cause ≤ u.cause)
  ∧ (∀ (s : State) (r : Req0) (go : State → State) (t : Trap), s.ctx.q = .primary → t ∈ s.reqTraps r →
    ∃ u, u ∈ s.reqTraps r ∧ u.cause ≤ t.cause ∧ s.issue r go = .next (s.raise u))
  ∧ (∀ (s pre u v w : State) (before rest : List Instr) (i : Instr) (tr : Trap), s.issuing = before ++ i :: rest → Spec.Chain before s u →
    exec i { u with trapped := none } = .next v → v.trapped = some tr → tr.kept = false → tr.cause ≠ causeWait →
    ¬(tr.cause = 5 ∧ tr.info = 4) → Spec.Chain rest u w →
    s.issueAll pre = .next ({ s with issuing := [] }.raise tr))
  ∧ ∀ (s : State) (t : Trap),
    let u := s.raise t
    u.cur.queue = s.cur.queue ∧ u.accesses = s.accesses ∧ u.holds = s.holds ∧ u.cmds = s.cmds ∧ u.nextId = s.nextId ∧ u.kore.q0 = s.kore.q0
      ∧ u.cur.flags = s.cur.flags ∧ u.cur.sndloss = s.cur.sndloss ∧ u.cur.pc = s.ctx.pc ∧ u.cur.nextAt = s.now + 1 ∧ u.cur.pend = false
      ∧ u.trapped = some t

/-- R65, R66, R81, R306: the schedule faults of kinds 1, 2 and 3, on `ADD` to any destination: its unit is busy; two H writes land
already in the cycle of its own; another result lands in its register in that cycle. -/
def Sys2Proof.Spec.ScheduleFaults : Prop :=
  ∀ (s : State) (sl : AB) (d : Dst 32) (a : Fin 32) (b : Src 32), s.ctx.q = .primary →
    let busy := s.now < s.kore.busy.getD (slotIx sl.slot) 0
    let full := (d.ref sl.file).file = .h ∧ 2 ≤ s.kore.hWrites (s.now + 1)
    let twice := ∃ e ∈ s.cur.queue, e.eff.dest = some (d.ref sl.file) ∧ e.due = s.now + 1
    let fault (k : Nat) := exec (.add sl d a b) s = .next (s.raise ⟨0x05, some (slotIx sl.slot), BitVec.ofNat 64 k, false⟩)
    (busy → fault 1) ∧ (¬busy → full → fault 2) ∧ (¬busy → ¬full → twice → fault 3)

/-- R37, R66: a secondary syllable that names a register for which an earlier bundle has a result in flight raises the shadow-read fault
with the file and the number of the register; where that result lands in the cycle of its own in one register, the schedule fault of kind 3,
whose cause is lower; where its unit is busy, it waits instead (R41). -/
def Sys2Proof.Spec.ShadowReads : Prop :=
  ∀ (s : State) (sl : AB) (d : Dst 32) (a : Fin 32) (b : Src 32) (e : QEntry), s.ctx.q = .secondary → e ∈ s.cur.queue →
    let meets (f : QEntry) := f.eff.dest = some (d.ref sl.file) ∧ f.due = s.now + 1 ∧ f.varLat = false
    let busy := s.now < s.kore.busy.getD (slotIx sl.slot) 0 ∨ s.now < s.kore.busy2.getD (slotIx sl.slot) 0
    (busy → ∃ t, exec (.add sl d a b) s = .next t ∧ t.trapped = some ⟨causeWait, none, 0, false⟩ ∧ t.cores = s.cores)
    ∧ (¬busy → meets e → exec (.add sl d a b) s = .next (s.raise ⟨0x05, some (slotIx sl.slot), 3, false⟩))
    ∧ (¬busy → (∀ f ∈ s.cur.queue, ¬meets f) → e.eff.dest = some (own sl.file a) → e.issued < s.now →
      exec (.add sl d a b) s = .next (s.raise ⟨0x0A, some (slotIx sl.slot),
        BitVec.ofNat 64 ((match sl with
          | .a => 0
          | .b => 1) * 256 + a.val), false⟩))

/-- What a busy unit, a full cycle of H writes and a pending register do to a syllable. Stated of `ADD`. -/
def Sys2Proof.Spec.ScheduleAndShadowFaults : Prop := Spec.ScheduleFaults ∧ Spec.ShadowReads

/-- R195, R204, R207, R306, R308, R322: a load from the own scratchpad in a free slot M of the primary: beyond the window it raises
translation, before misalignment and before poison. Of a misaligned load only the address itself is held against the window. Stated
of `LD` by offset in the own scratchpad; misalignment as R198 and R388 say. -/
def Sys2Proof.Spec.AddressFaults : Prop :=
  ∀ (s : State) (d base : Fin 32) (sz : Size) (off : BitVec 11), s.ctx.q = .primary →
    s.clear .m 1 [own .m base] [⟨own .m d, 4⟩] →
    let n := sizeBytes sz
    let a := offAddr s (own .m base) off n
    let trap (cause : Nat) (info : Nat) := exec (.ldOffset d base sz .own off) s = .next (s.raise ⟨cause, some 2, BitVec.ofNat 64 info, false⟩)
    (spadBytes < a + (if a % n = 0 then n else 1) → trap 0x06 (a % 2 ^ 56))
    ∧ (a < spadBytes → a % n ≠ 0 → (∃ spt, s.resolve s.via (s.moorOf s.ctx.core) s.ctx.core a 1 .r false = .ok spt
        ∧ spt.inSram = true ∧ ∀ u ∈ s.spotUses .m .own spt n (s.now + 2), s.grants .own u) → trap 0x08 (a % 2 ^ 56))
    ∧ ((s.takes .m .own a n 1 .r (s.now + 2)) → a % n = 0 → (s.rd (own .m base)).poi = true → trap 0x09 2)

/-- Faults of operands: of the schedule, of a register that is read too early, and of an address. -/
def Obligations.OperandFaults : Prop := Spec.ScheduleAndShadowFaults ∧ Spec.AddressFaults

namespace Sys2Proof.Spec
open Sys2Proof.Machine Config

/-! ### Fetch -/

/-- The event that issues the next bundle of a sequencer. -/
def issueEvent (c : Nat) : Seq → Instr
  | .primary => .bundleFetch c
  | .secondary => .secondaryBundleIssue c

/-- The slots of a presence mask in ascending slot order (R86), and the parcels of the bundle (R87, R88). -/
def slots (pres : Nat) : List Slot := [Slot.a, .b, .m, .v, .w, .f, .e, .c].filter fun sl => pres / 2 ^ slotIx sl % 2 == 1
def parcels (p : Nat) : Nat := if p / 2 ^ 12 % 2 = 1 then 2 else 1 + 2 * (slots (p % 256)).length

/-- The bundle that stands at a physical address: its header parcel p passes the checks of R90, and its syllables, in the stream or in
the lamp entry that its second parcel names, decode to `is` (R86 to R91, R64, R65). -/
structure Stands (s : State) (lamps : List (Nat × BitVec 256)) (va pa p : Nat) (is : List Instr) : Prop where
  parcel : s.num pa 2 = p
  sig : p / 2 ^ 14 = 2
  rsv : p / 2 ^ 13 % 2 = 0
  pres : p % 256 ≠ 0
  fits : va % 64 / 2 + parcels p ≤ 32
  lamp : p / 2 ^ 12 % 2 = 1 → s.num (pa + 2) 2 < 512
  count : is.length = (slots (p % 256)).length
  syls : ∀ k < is.length,
    let sl := (slots (p % 256)).getD k .a
    let w := if p / 2 ^ 12 % 2 = 1 then ((sget 0 lamps (s.num (pa + 2) 2)).extractLsb' (32 * slotIx sl) 32).toNat else s.num (pa + 2 + 4 * k) 4
    w ≠ 0 ∧ decodeSyl sl w = is[k]?
  ports : (is.filterMap portOf).Nodup
  dests : (is.filter fun i => decide (hDests i ≠ 0)).length ≤ 2

/-- The context in which the syllables of a bundle issue: the next header stands after it, or on the next 64-byte line where LE is
set (R87). -/
def ctxAt (c : Nat) (q : Seq) (x : SeqState) (p : Nat) : Ctx :=
  ⟨c, q, x.pc, p / 2 ^ 9 % 8, parcels p,
    BitVec.ofNat 56 (if p / 2 ^ 8 % 2 = 1 then (x.pc.toNat / 64 + 1) * 64 else x.pc.toNat + 2 * parcels p),
    p / 2 ^ 12 % 2 == 1, p % 256, decide (0 < x.delay) && !x.ownBr, x.restK.getD 0⟩

/-- The syllables that issue: of a bundle that a later element of `LDM` or `STM` had stopped, only that syllable (R309). -/
def issuesOf (x : SeqState) (is : List Instr) : List Instr :=
  if x.restK.isSome then is.filter fun i => match i with
    | .ldm _ _ _ _ | .stm _ _ _ _ => true
    | _ => false
  else is

/-- A bundle of a sequencer is due at a place that its stream may fetch from. -/
structure Due (s : State) (c : Nat) (q : Seq) (sp : Spot) (p : Nat) (is : List Instr) : Prop where
  core : c < nCores
  canon : s.Canon
  place : s.fetchTr c q (s.seq c q).resolve.pc.toNat = .ok sp
  stands : Stands s (s.seq c q).resolve.lamps (s.seq c q).resolve.pc.toNat sp.pa p is
  fits : q = .secondary → (s.core c).primAt ≠ s.now ∨ (s.core c).primSlots = 0

end Sys2Proof.Spec

/-- R41, R64, R65, R85 to R91, R209, R309, R352: fetching a bundle. Its syllables are those that its words decode to, and its place is that of the
header. -/
def Obligations.BundlesFetch : Prop :=
  ∀ (s : State) (c : Nat) (q : Seq) (sp : Spot) (p : Nat) (is : List Instr), Due s c q sp p is →
    ∃ t, exec (issueEvent c q) s = .next t ∧ t.trapped = none ∧ t.issuing = issuesOf (s.seq c q).resolve is
      ∧ t.ctx = ctxAt c q (s.seq c q).resolve p
      ∧ t.mem = s.mem ∧ t.accesses = s.accesses ∧ t.now = s.now ∧ (t.seq c q).queue = (s.seq c q).queue

/-- R32, R45, R66, R82, R87: a step whose event issues a bundle runs the instructions that its words decode to, and moves on to the next
header, one cycle and its IDLE cycles later. -/
def Obligations.StepRunsDecodedBundle : Prop :=
  ∀ (s u t : State) (c : Nat) (q : Seq) (sp : Spot) (p : Nat) (is : List Instr) (ev : EvCtx) (l : List Ev),
    s.agenda = ⟨ev, issueEvent c q⟩ :: l → Due { s with agenda := l, ev := ev } c q sp p is →
    exec (issueEvent c q) { s with agenda := l, ev := ev } = .next u →
    Chain (issuesOf (s.seq c q).resolve is) u t → t.cur.stepping = false → t.ctx = u.ctx →
    ∃ v, step s = .next v ∧ v = { t with issuing := [] }.advance
      ∧ (t.cur.skipTo = none → v.cur.pc = u.ctx.next) ∧ v.cur.nextAt = t.now + 1 + u.ctx.idle ∧ v.cur.lastPc = u.ctx.pc ∧ v.cur.pend = true
      ∧ v.mem = t.mem ∧ v.accesses = t.accesses ∧ v.cur.queue = t.cur.queue ∧ v.agenda = t.agenda

/-- R90, R91, R306: what a fetch that fails raises: framing for a header without its signature or over the end of its line, illegal
encoding for a reserved bit or no slot. -/
def Sys2Proof.Spec.FetchFaults : Prop :=
  ∀ (s : State) (c : Nat) (sp : Spot), c < nCores → s.Canon →
    let x := (s.seq c .primary).resolve
    let pc := x.pc.toNat
    s.fetchTr c .primary pc = .ok sp →
    let p := s.num sp.pa 2
    let raises (cause info : Nat) := ∃ t, exec (.bundleFetch c) s = .next t ∧ t.trapped = some ⟨cause, none, BitVec.ofNat 64 info, false⟩
      ∧ t.accesses = s.accesses ∧ t.holds = s.holds ∧ (t.seq c .primary).queue = (s.seq c .primary).queue ∧ (t.seq c .primary).xpc.toNat = pc
    (p / 2 ^ 14 ≠ 2 → raises 0x03 p) ∧ (p / 2 ^ 14 = 2 → 32 < pc % 64 / 2 + parcels p → raises 0x03 p)
      ∧ (p / 2 ^ 14 = 2 → pc % 64 / 2 + parcels p ≤ 32 → (p / 2 ^ 13 % 2 = 1 ∨ p % 256 = 0) → raises 0x04 0)

/-- R36, R207, R209, R210: code lies above the own-scratchpad window, in a page that may be fetched from; the primary stream reads
the pinned mappings of its mooring. That a fetch below the window is a translation fault is the model's reading (log 24). -/
def Sys2Proof.Spec.FetchTranslation : Prop :=
  ∀ (s : State) (c va : Nat) (q : Seq),
    (va < spadBytes → s.fetchTr c q va = .transl va)
    ∧ (∀ m k l, spadBytes ≤ va → va + 1 < 2 ^ 56 → s.moorOf c = some m → (s.moor m).lens = 0 → (s.moor m).pins = k :: l →
        let size := if k.psize = 0 then 2 ^ 16 else if k.psize = 1 then 2 ^ 21 else 2 ^ 30
        let e := k.entry.toNat
        k.vbase ≤ va → va + 1 < k.vbase + size → e / 2 ^ 63 % 2 = 1 → e / 2 ^ 56 % 8 = 0 → e % 2 ^ 8 = 0 → e / 2 ^ 8 % 2 ^ 48 * 256 % size = 0 →
        s.fetchTr c .primary va = if e / 2 ^ 59 % 2 = 1 then .ok ⟨e / 2 ^ 8 % 2 ^ 48 * 256 + va % size, none⟩ else .prot va)

/-- What a fetch checks. -/
def Obligations.FetchChecks : Prop := Spec.FetchFaults ∧ Spec.FetchTranslation

namespace Sys2Proof.Spec
open Sys2Proof.Machine Config

/-- An entry of a sequencer that lands in this cycle (R66, R78). -/
def lands (s : State) (e : QEntry) : Bool := e.held.isNone && decide (e.due ≤ s.now) && decide (e.notBefore ≤ s.now)

/-- A sequencer whose results land. -/
def Landing (s : State) (c : Nat) (q : Seq) : Prop := c < nCores ∧ s.Canon ∧ (q = .primary → (s.seq c .primary).frozen = none)

/-- The masks of the system registers (R83). -/
def keeps (n : Nat) (v : Word) : Word :=
  if n = 0x05 then v &&& 0x3FF else if n = 0x06 then v &&& 0x1FF else if n = 0x07 then v &&& 0x3F
  else if n = 0x08 then v &&& 0x87FFFFFFFFFFFFFF else if n = 0x0D ∨ n = 0x0E ∨ n = 0x0F then v &&& 0x00FFFFFFFFFFFFFF else v

end Sys2Proof.Spec

/-- R62, R66, R78, R315: a result that is due goes to its register with its sounding, its poison and its flags, and leaves the queue; an
M register keeps no sounding; what is not due stays. -/
def Sys2Proof.Spec.ResultsLand : Prop :=
  (∀ (s : State) (c : Nat) (q : Seq) (e : QEntry) (r : RRef) (v : Reg), Landing s c q → e ∈ (s.seq c q).queue → lands s e = true →
    e.eff = .reg r v → r.file ∈ [File.a, .b, .m, .f] → r.num < (if r.file = .f then 16 else 32) →
    (∀ f ∈ (s.seq c q).queue, lands s f = true → f = e ∨ f.eff.dest ≠ some r) →
    (r.file = .m → ∀ f ∈ (s.seq c q).queue, lands s f = true → f.eff.rank < 2) →
    ∃ t, exec (.resultLanding c q) s = .next t ∧ (t.core c).reg q r = (if r.file = .m then { v with snd := 63 } else v)
      ∧ (t.seq c q).flags &&& e.flags = e.flags ∧ (v.poi = true → (t.seq c q).flags.toNat / 256 % 2 = 1))
  ∧ ∀ (s : State) (c : Nat), Landing s c .primary → (∀ e ∈ (s.seq c .primary).queue, ∀ v, e.eff ≠ .sys 0x0B v) →
    ∃ t, exec (.resultLanding c .primary) s = .next t ∧ (t.seq c .primary).queue = (s.seq c .primary).queue.filter (fun e => !lands s e)
      ∧ t.mem = s.mem ∧ t.poison = s.poison ∧ t.accesses = s.accesses ∧ t.now = s.now ∧ (∀ d, d ≠ c → t.core d = s.core d)

/-- R65: an H result of the primary lands; R42: one of the secondary stream stays while primary results take both write ports. -/
def Sys2Proof.Spec.SharedResultsLand : Prop :=
  (∀ (s : State) (c : Nat) (e : QEntry) (n : Fin 32) (v : Reg), Landing s c .primary → e ∈ (s.seq c .primary).queue → lands s e = true →
    e.eff = .reg ⟨.h, n.val⟩ v → (∀ f ∈ (s.seq c .primary).queue, lands s f = true → f = e ∨ f.eff.dest ≠ some ⟨.h, n.val⟩) →
    ∃ t, exec (.resultLanding c .primary) s = .next t ∧ (t.core c).h.getD n.val Reg.zero = v)
  ∧ ∀ (s : State) (c : Nat) (e : QEntry) (n : Nat) (v : Reg), Landing s c .secondary → (s.seq c .primary).frozen = none →
    2 ≤ ((s.seq c .primary).queue.filter fun f => f.isH && lands s f).length → e ∈ (s.seq c .secondary).queue → e.eff = .reg ⟨.h, n⟩ v →
    ∃ t, exec (.resultLanding c .secondary) s = .next t ∧ e ∈ (t.seq c .secondary).queue

/-- R73, R83, R84, R356, R414: a system register takes the value that was written to it, in its own bits. -/
def Sys2Proof.Spec.SystemRegistersLand : Prop :=
  ∀ (s : State) (c : Nat) (q : Seq) (e : QEntry) (n : Nat) (v : Word), Landing s c q → (s.seq c q).queue = [e] → lands s e = true →
    e.eff = .sys n v → e.flags = 0 → e.loss = none → s.now ≤ e.due → s.accesses = [] → (q = .secondary → s.primSys c = []) →
    n ∈ [0x02, 0x03, 0x04, 0x05, 0x06, 0x07, 0x08, 0x09, 0x0D, 0x0E, 0x0F, 0x11] →
    ∃ t, exec (.resultLanding c q) s = .next t ∧ t.sysValue c q n = keeps n v
      ∧ (t.seq c q).queue = [] ∧ (t.seq c q).a = (s.seq c q).a ∧ (t.seq c q).m = (s.seq c q).m ∧ (t.core c).h = (s.core c).h

/-- Results for H and for the system registers. That XPC keeps 56 bits is the model's reading (log 38). -/
def Sys2Proof.Spec.SharedAndSystemResultsLand : Prop := Spec.SharedResultsLand ∧ Spec.SystemRegistersLand

/-- R59, R443: the item of a `WATCH` goes to the watch register that its count names, modulo 4. -/
def Sys2Proof.Spec.WatchItemsLand : Prop :=
  ∀ (s : State) (c n : Nat) (e : QEntry) (item : Word), Landing s c .primary → e ∈ (s.seq c .primary).queue → lands s e = true →
    e.eff = .watch n item → e.flags = 0 → e.loss = none →
    (∀ f ∈ (s.seq c .primary).queue, lands s f = true → f.eff.isWatch = true → f = e) →
    ∃ t, exec (.watchItemLanding c) s = .next t ∧ (t.seq c .primary).wt.getD (n % 4) 0 = item
      ∧ (∀ k < 4, k ≠ n % 4 → (t.seq c .primary).wt.getD k 0 = (s.seq c .primary).wt.getD k 0) ∧ e ∉ (t.seq c .primary).queue
      ∧ t.mem = s.mem ∧ t.moorings = s.moorings

/-- Results for the registers of one sequencer. -/
def Sys2Proof.Spec.OwnResultsLand : Prop := Spec.ResultsLand ∧ Spec.WatchItemsLand

/-- What the landing of a result writes. -/
def Obligations.ResultsLand : Prop := Spec.OwnResultsLand ∧ Spec.SharedAndSystemResultsLand

namespace Sys2Proof.Spec
open Sys2Proof.Machine Config

/-! ### Accesses that perform -/

/-- An access of a sequencer performs in this cycle, at a place whose memory has no error in waiting; no other access has its number or
serves its result. -/
structure Performs (s : State) (a : Access) (c : Nat) (q : Seq) : Prop where
  canon : s.Canon
  found : s.findAccess a.id = some a
  owner : a.owner = .seq c q
  now : s.performs a = true
  clean : s.errs = []
  alone : ∀ b ∈ s.accesses, b.link = a.link → b.owner = a.owner → b = a

/-- The byte at an address after a list of bytes was written at another. -/
def overlay (old : Nat → Byte) (pa : Nat) (bs : List Byte) (x : Nat) : Byte :=
  if pa ≤ x ∧ x < pa + bs.length then bs.getD (x - pa) 0 else old x

/-- Every byte of memory is that of before, but for a list of bytes at an address. -/
def Writes (s t : State) (pa : Nat) (bs : List Byte) : Prop := ∀ x, t.byte x = overlay s.byte pa bs x

/-- The entries that wait for an access are complete and hold a value. -/
def Fills (s t : State) (a : Access) (c : Nat) (q : Seq) (v : Reg) : Prop :=
  ∀ e ∈ (s.seq c q).queue, e.held = some a.link → ∀ r w, e.eff = .reg r w → { e with eff := .reg r v, held := none } ∈ (t.seq c q).queue

/-- What performing an access never changes: registers, the clock, moorings and channels; and the access is gone. -/
structure Gone (s t : State) (a : Access) : Prop where
  accesses : ∀ b, b ∈ t.accesses → b ∈ s.accesses
  gone : a ∉ t.accesses
  now : t.now = s.now
  moorings : t.moorings = s.moorings
  channels : t.channels = s.channels
  cores : ∀ d f r, (t.core d).reg f r = (s.core d).reg f r

/-- The number of a list of bytes, and the signed one. -/
def signed (n w : Nat) : Int := if w < 2 ^ (8 * n - 1) then w else w - 2 ^ (8 * n)

/-- What codes 0x0 to 0x8 and 0xA of `ATOM` write (R199). -/
def atomValue (op : AtomOp) (n old x : Nat) : Nat :=
  match op with
  | .add => (old + x) % 2 ^ (8 * n)
  | .and => old &&& x
  | .or => old ||| x
  | .xor => old ^^^ x
  | .min => if signed n x < signed n old then x else old
  | .max => if signed n old < signed n x then x else old
  | .umin => min old x
  | .umax => max old x
  | .fadd => (fmt32.add .rne old x).1
  | .swap | .cas | .ebb => x

end Sys2Proof.Spec

/-- R80, R266, R388: a load performs: its entry takes the bytes at its place, lowest address least significant, zero- or sign-extended,
with sounding 63 or that of its plane byte, and the poison of either; memory stays. -/
def Sys2Proof.Spec.LoadsPerform : Prop :=
  ∀ (s : State) (a : Access) (c : Nat) (q : Seq) (n more : Nat) (sx : Bool) (plane : Option Place), Performs s a c q → n ∈ [1, 2, 4, 8] →
    a.kind = .load n sx plane more →
    let pa := s.placePa a.place n false
    let w := s.num pa n
    let pb := plane.map fun p => s.placePa p 1 false
    let b := match pb with
      | none => 63
      | some x => (s.byte x).toNat
    ∃ t, exec (.accessPerform a.id) s = .next t ∧ Gone s t a ∧ t.mem = s.mem ∧ t.poison = s.poison
      ∧ Fills s t a c q ⟨if sx then BitVec.ofInt 64 (signed n w) else BitVec.ofNat 64 w, BitVec.ofNat 6 b,
          s.anyPoison pa n || (match pb with
            | none => false
            | some x => s.anyPoison x 1 || decide (b / 64 % 2 = 1))⟩

/-- R79, R149, R266, R321: a store performs: its bytes, and its plane bytes, stand in memory; every other byte is that of before. A
poisoned word takes the poison code. -/
def Sys2Proof.Spec.StoresPerform : Prop :=
  (∀ (s : State) (a : Access) (c : Nat) (q : Seq) (d : List Byte) (ps : List Bool), Performs s a c q → ps.length = d.length →
    a.kind = .store d ps none →
    let pa := s.placePa a.place d.length false
    ∃ t, exec (.accessPerform a.id) s = .next t ∧ Gone s t a ∧ Writes s t pa d
      ∧ (∀ x, pa ≤ x → x < pa + d.length → ps.getD (x - pa) false = true → poisonAt t.poison x = true)
      ∧ (ps.all (fun b => !b) = true → ∀ x, unitCovered pa d.length (poisonUnit x) = true → poisonAt t.poison x = false)
      ∧ ∀ x, unitMeets pa d.length (poisonUnit x) = false → poisonAt t.poison x = poisonAt s.poison x)
  ∧ ∀ (s : State) (a : Access) (c : Nat) (q : Seq) (d l : List Byte) (ps : List Bool) (p : Place), Performs s a c q → ps.length = d.length →
    a.kind = .store d ps (some (p, l)) →
    let pa := s.placePa a.place d.length false
    let pb := (s.putBytes pa d ps).placePa p l.length false
    ∃ t, exec (.accessPerform a.id) s = .next t ∧ Gone s t a ∧ ∀ x, t.byte x = overlay (overlay s.byte pa d) pb l x

/-- Loads and stores in their perform cycle. -/
def Obligations.LoadsAndStoresPerform : Prop := Spec.LoadsPerform ∧ Spec.StoresPerform

/-- R199, R348: the bank ALU on a word without poison: the new value stands in memory, the old one goes to the destination, zero-
extended with sounding 63. The zero-extension of a 32-bit old word is the model's reading (log 29). -/
def Sys2Proof.Spec.AtomsPerform : Prop :=
  ∀ (s : State) (a : Access) (c : Nat) (q : Seq) (op : AtomOp) (w64 : Bool) (x y : Reg), Performs s a c q → op ≠ .ebb →
    a.kind = .atom op w64 x y →
    let n := if w64 then 8 else 4
    let pa := s.placePa a.place n false
    let old := s.num pa n
    let xv := x.val.toNat % 2 ^ (8 * n)
    s.anyPoison pa n = false → x.poi = false → y.poi = false →
    ∃ t, exec (.accessPerform a.id) s = .next t ∧ Gone s t a ∧ Fills s t a c q ⟨BitVec.ofNat 64 old, 63, false⟩
      ∧ Writes s t pa (natBytes n (if op = .cas ∧ old ≠ y.val.toNat % 2 ^ (8 * n) then old else atomValue op n old xv))
      ∧ (t.seq c q).flags = (s.seq c q).flags ||| (if op = .fadd then (fmt32.add .rne old xv).2 else 0)

/-- R199 with R320, R321: poison in a read-modify-write: a poisoned operand poisons the word, a poisoned word stays so but for a swap,
and a compare-and-swap with a poisoned word or compare value writes nothing and returns poison. -/
def Sys2Proof.Spec.AtomsCarryPoison : Prop :=
  ∀ (op : AtomOp) (w64 : Bool) (old : Nat) (p : Bool) (x y : Reg),
    let o := atomRmw op w64 old p x y
    o.ret.1 = old
    ∧ (op ∉ [AtomOp.cas, .swap] → ∃ v, o.new = some (v, p || x.poi))
    ∧ (op = .swap → ∃ v, o.new = some (v, x.poi))
    ∧ (op = .cas → (p = true ∨ y.poi = true) → o.new = none ∧ o.ret.2 = true)
    ∧ (op = .cas → p = false → y.poi = false → old = y.val.toNat % (if w64 then 2 ^ 64 else 2 ^ 32) → ∃ v, o.new = some (v, x.poi))

/-- The read-modify-writes of a bank. -/
def Obligations.BankAluPerforms : Prop := Spec.AtomsPerform ∧ Spec.AtomsCarryPoison

/-- R131 to R133, R199, R364: the ebb operations in their perform cycles: `EBBLD` delivers `EbbRead`; a merge-add reads, keeps what it
has read for 24 cycles, and then writes the merged word, with the stamp of that cycle, over it. -/
def Obligations.EbbAccessesPerform : Prop :=
  (∀ (s : State) (a : Access) (c : Nat) (q : Seq), Performs s a c q → a.kind = .ebbld →
    let pa := s.placePa a.place 8 false
    let r := ebbRead (s.num pa 8) (s.gstepOf a.place.moor) (s.factAt a.place.moor a.place.va)
    ∃ t, exec (.accessPerform a.id) s = .next t ∧ Gone s t a ∧ t.mem = s.mem
      ∧ ∀ e ∈ (s.seq c q).queue, e.held = some a.link → ∀ d w, e.eff = .reg d w →
        { e with eff := .reg d ⟨BitVec.ofNat 64 r.w, BitVec.ofNat 6 r.s, s.anyPoison pa 8⟩, held := none, flags := e.flags ||| r.fl } ∈ (t.seq c q).queue)
  ∧ (∀ (s : State) (a : Access) (c : Nat) (x : Reg) (ret : Bool), Performs s a c .primary → a.kind = .ebbRead x ret → a.wait = false → a.id < s.nextId →
    let pa := s.placePa a.place 8 false
    ∃ t, exec (.accessPerform a.id) s = .next t ∧ t.mem = s.mem ∧ t.cores = s.cores ∧ a ∉ t.accesses
      ∧ { a with id := s.nextId, t := s.now + 24, kind := .ebbWrite x (BitVec.ofNat 64 (s.num pa 8)) (s.anyPoison pa 8) ret } ∈ t.accesses)
  ∧ (∀ (s : State) (a : Access) (c : Nat) (x : Reg) (old : BitVec 64) (p : Bool), Performs s a c .primary → a.kind = .ebbWrite x old p false →
    let pa := s.placePa a.place 8 false
    ∃ t v, exec (.accessPerform a.id) s = .next t ∧ Gone s t a ∧ Writes s t pa (natBytes 8 v)
      ∧ v / 2 ^ 60 = 0 ∧ v / 2 ^ 56 % 16 = old.toNat / 2 ^ 56 % 16 ∧ v / 2 ^ 32 % 2 ^ 24 = s.gstepOf a.place.moor
      ∧ v % 2 ^ 32 = (fmt32.add .rne (ebbRead old.toNat (s.gstepOf a.place.moor) (s.factAt a.place.moor a.place.va)).w (x.val.toNat % 2 ^ 32)).1)
  ∧ ∀ (w g : Nat) (f : Nat → Nat), w / 2 ^ 60 = 0 → w / 2 ^ 32 % 2 ^ 24 = g → g < 2 ^ 24 → factorOk (w / 2 ^ 56 % 16) (f (w / 2 ^ 56 % 16)) = true →
    (ebbRead w g f).w = (mul32 ⟨w % 2 ^ 32, 24, 0⟩ ⟨0x3F800000, 24, 0⟩).w

/-- R246, R247, R248: what a raise does to a gauge word that has no status: the count goes on, or the generation does; a word whose
status is set ignores it. A close sets the status and counts the generation on, whatever the word holds; `GAUGE` clears both. -/
def Obligations.GaugeWords : Prop :=
  ∀ (tgt cnt gen st n : Nat), tgt < 2 ^ 32 → cnt < 2 ^ 32 → gen < 2 ^ 32 → st < 256 → cnt + n < 2 ^ 32 →
    let g (c e t : Nat) := natBytes 4 tgt ++ natBytes 4 c ++ natBytes 4 e ++ [BitVec.ofNat 8 t] ++ natBytes 3 0
    (st ≠ 0 → gaugeRaise (g cnt gen st) n = g cnt gen st)
    ∧ (tgt = 0 → gaugeRaise (g cnt gen 0) n = g cnt ((gen + 1) % 2 ^ 32) 2)
    ∧ (tgt ≠ 0 → cnt + n < tgt → gaugeRaise (g cnt gen 0) n = g (cnt + n) gen 0)
    ∧ (tgt ≠ 0 → cnt + n = tgt → gaugeRaise (g cnt gen 0) n = g 0 ((gen + 1) % 2 ^ 32) 0)
    ∧ (tgt ≠ 0 → tgt < cnt + n → gaugeRaise (g cnt gen 0) n = g (cnt + n) ((gen + 1) % 2 ^ 32) 2)
    ∧ (∀ k, k = 1 ∨ k = 2 → gaugeClose (g cnt gen st) k = g cnt ((gen + 1) % 2 ^ 32) k)
    ∧ ∀ new : BitVec 32, gaugeArm (g cnt gen st) new = natBytes 4 new.toNat ++ natBytes 4 0 ++ natBytes 4 gen ++ natBytes 4 0

/-- R42, R203: a secondary access whose bank is taken moves to the next cycle, and its result with it; an open access is served in the
first cycle in which its bank is free, and its result lands the cycles of its space after that. -/
def Sys2Proof.Spec.OpenAccessesWait : Prop :=
  (∀ (s : State) (a : Access) (c : Nat) (q : Seq), s.Canon → s.findAccess a.id = some a → a.owner = .seq c q → a.t = s.now → s.secWaits a = true →
    ∃ t, exec (.secondaryAccessDeferred a.id) s = .next t ∧ { a with t := s.now + 1 } ∈ t.accesses
      ∧ (t.seq c q).queue = (s.seq c q).queue.map (fun e => if e.held = some a.link then { e with due := e.due + 1 } else e)
      ∧ t.mem = s.mem ∧ t.now = s.now)
  ∧ ∀ (s : State) (a : Access) (c n more : Nat) (sx : Bool), s.Canon → s.findAccess a.id = some a → a.owner = .seq c .primary → s.served a = true →
    s.errs = [] → (∀ b ∈ s.accesses, b.link = a.link → b.owner = a.owner → b = a) → a.kind = .load n sx none more → a.space = .pool →
    ∃ t, exec (.openPoolService a.id) s = .next t ∧ a ∉ t.accesses ∧ t.mem = s.mem
      ∧ ∀ e ∈ (s.seq c .primary).queue, e.held = some a.link → ∃ e' ∈ (t.seq c .primary).queue,
        e'.held = none ∧ e'.due = e.due ∧ e'.notBefore = s.now + (10 + more) ∧ e'.eff.dest = e.eff.dest

/-- R50, R200, R405: a `SEND` that its target, whose program has not ended, has armed a reception for in this cycle writes its bytes there
and disarms it; else the task of the target faults. -/
def Sys2Proof.Spec.SendsLand : Prop :=
  (∀ (s : State) (a : Access) (d : List Byte) (p : Bool) (from_ to_ : Nat), s.Canon → s.findAccess a.id = some a → a.t = s.now →
    a.kind = .send d p from_ to_ → ⟨from_, s.now⟩ ∈ (s.core to_).recv →
    ((s.core to_).prim.run = .running ∨ (s.core to_).prim.recorded = true) →
    ∃ t, exec (.sendLanding a.id) s = .next t ∧ Writes s t (s.placePa a.place d.length false) d ∧ a ∉ t.accesses
      ∧ (t.core to_).recv = (s.core to_).recv.filter (fun r => r.cycle != s.now) ∧ t.moorings = s.moorings)
  ∧ ∀ (s : State) (a : Access) (d : List Byte) (p : Bool) (from_ to_ m : Nat), s.Canon → s.findAccess a.id = some a → a.t = s.now →
    a.kind = .send d p from_ to_ → (⟨from_, s.now⟩ ∉ (s.core to_).recv ∨ ((s.core to_).prim.run ≠ .running ∧ (s.core to_).prim.recorded = false)) →
    s.moorOf to_ = some m → (s.moor m).st = .running → (s.moor m).loose = false →
    ∃ t, exec (.sendLanding a.id) s = .next t ∧ t.mem = s.mem ∧ (t.moor m).st = .ending (s.now + 8)
      ∧ ((t.core to_).prim.xcause.toNat = 0x20 ∨ (s.core to_).prim.faulted = true)

/-- Accesses that wait for a free cycle, and values that another core receives. -/
def Obligations.OpenAccessesAndSends : Prop := Spec.OpenAccessesWait ∧ Spec.SendsLand

namespace Sys2Proof.Spec
open Sys2Proof.Machine Config

/-! ### What ends a hold -/

/-- A sequencer goes on: its hold ends, and its next bundle is due in a cycle; its registers and its place are those of before. -/
structure GoesOn (s t : State) (c : Nat) (q : Seq) (due : Nat) : Prop where
  hold : (t.seq c q).hold = .none
  due : (t.seq c q).nextAt = due
  pc : (t.seq c q).pc = (s.seq c q).pc
  flags : (t.seq c q).flags = (s.seq c q).flags
  queue : (t.seq c q).queue = (s.seq c q).queue
  regs : ∀ r, (t.core c).reg q r = (s.core c).reg q r
  others : ∀ d, d ≠ c → t.core d = s.core d
  mem : t.mem = s.mem
  moorings : t.moorings = s.moorings

/-- A barrier of a cluster: its mask, and the members that hold at it since a cycle; no other barrier is held in the cluster. -/
structure Barrier (s : State) (g : Nat) (mask : BitVec 16) : Prop where
  canon : s.Canon
  cluster : g < nClusters
  only : ∀ i < 16, ∀ m t, (s.core (16 * g + i)).prim.hold = .sync m t → m = mask
  some : ∃ i < 16, ∃ t, (s.core (16 * g + i)).prim.hold = .sync mask t

/-- A core has arrived at a barrier. -/
def arrived (s : State) (c : Nat) (mask : BitVec 16) (t : Nat) : Prop :=
  (s.core c).prim.hold = .sync mask t ∧ (s.core c).prim.run = .running ∧ (s.core c).prim.frozen = none

end Sys2Proof.Spec

/-- R49, R412: six cycles after its last arrival a barrier lets every member go in the same cycle. -/
def Sys2Proof.Spec.BarriersComplete : Prop :=
  ∀ (s : State) (g : Nat) (mask : BitVec 16), Barrier s g mask →
    (∀ i < 16, mask.getLsbD i = true → ∃ t, arrived s (16 * g + i) mask t ∧ t + 6 ≤ s.now) →
    ∃ t, exec (.syncBarrierComplete g) s = .next t ∧ t.mem = s.mem ∧ t.moorings = s.moorings
      ∧ (∀ i < 16, mask.getLsbD i = true → (t.core (16 * g + i)).prim.hold = .none ∧ (t.core (16 * g + i)).prim.nextAt = s.now
          ∧ (t.core (16 * g + i)).prim.pc = (s.core (16 * g + i)).prim.pc)
      ∧ ∀ c, (c / 16 = g → mask.getLsbD (c % 16) = false) → t.core c = s.core c

/-- R61, R319, R412: a barrier that a member has still not reached 65,536 cycles after the first arrival is a timing fault in every
member, also in the absent ones; those that hold issue nothing after their `SYNC`. XPC 0 of that fault is the model's choice (log
26). -/
def Sys2Proof.Spec.BarriersTimeOut : Prop :=
  ∀ (s : State) (g m : Nat) (mask : BitVec 16) (i j t0 : Nat), Barrier s g mask → i < 16 → j < 16 → mask.getLsbD i = true → mask.getLsbD j = true →
    arrived s (16 * g + i) mask t0 → t0 + 65536 ≤ s.now → (∀ t, ¬arrived s (16 * g + j) mask t) → s.moorOf (16 * g) = some m →
    (s.moor m).loose = false → (s.moor m).st = .running → (∀ k < 16, mask.getLsbD k = true → (s.core (16 * g + k)).prim.faulted = false ∧ (s.core (16 * g + k)).prim.recorded = false) →
    ∃ t, exec (.syncTimeout g) s = .next t ∧ (t.moor m).st = .ending (s.now + 8) ∧ (t.core (16 * g + i)).prim.hold = .stopped
      ∧ TrapRegs (t.core (16 * g + i)).prim 0 0x20 0 0 false ∧ TrapRegs (t.core (16 * g + j)).prim 0 0x20 0 0 false ∧ t.mem = s.mem

/-- R249, R442: a `WAITG` goes on when the gauge has reached its generation, but not before its bundle's own next cycle; after its
deadline it is a timing fault at its bundle in timed code, and sets TF in open code. -/
def Sys2Proof.Spec.WaitsForGauges : Prop :=
  ∀ (s : State) (c : Nat) (q : Seq) (ga gen : BitVec 32) (t limit idle : Nat), c < nCores → s.Canon →
    (s.seq c q).hold = .waitg ga gen t limit idle →
    let word := s.num (s.pollPa c q ga.toNat + 8) 4
    (t < s.now → s.now ≤ limit → (word + 2 ^ 32 - gen.toNat) % 2 ^ 32 < 2 ^ 31 →
      ∃ u, exec (.waitgRelease c q) s = .next u ∧ GoesOn s u c q (max s.now (t + 1 + idle)))
    ∧ (limit < s.now → q = .secondary →
      ∃ u, exec (.waitgDeadline c q) s = .next u ∧ (u.seq c q).hold = .none ∧ (u.seq c q).nextAt = max s.now (t + 1 + idle)
        ∧ (u.seq c q).flags = (s.seq c q).flags ||| 512 ∧ u.moorings = s.moorings)
    ∧ (limit < s.now → q = .primary → ∀ m, s.moorOf c = some m → (s.moor m).loose = false → (s.moor m).st = .running →
      ∃ u, exec (.waitgDeadline c q) s = .next u ∧ (u.moor m).st = .ending (s.now + 8)
        ∧ TrapRegs (u.seq c q) (s.seq c q).lastPc 0x20 0 0 false)

/-- R38, R241, R273, R317, R379: a `FENCE` goes on when every access, result and command of its scope that was issued before it has
performed (in the landing cycle of a result: the model's reading, log 28), but for a `SEND`, which goes to another core's
scratchpad; a `TFENCE` when every result has landed, with the flag trap where a flag that `TRAPEN` names, or TF, is set. Slot 7 with
SV of the flag trap is the model's reading (log 25). -/
def Sys2Proof.Spec.FencesRelease : Prop :=
  (∀ (s : State) (c : Nat) (q : Seq) (sc : FScope) (t idle : Nat), c < nCores → s.Canon → (s.seq c q).hold = .fence sc t idle → t + 1 + idle ≤ s.now →
    (∀ a ∈ s.accesses, a.owner = .seq c q → t ≤ a.issued) → (∀ e ∈ (s.seq c q).queue, t ≤ e.issued) → (∀ k ∈ s.cmds, k.ended = true) →
    ∃ u, exec (.fenceRelease c q) s = .next u ∧ GoesOn s u c q s.now)
  ∧ (∀ (s : State) (c : Nat) (sc : FScope) (t idle : Nat) (a : Access), c < nCores → (s.seq c .primary).hold = .fence sc t idle →
    sc ∈ [FScope.core, .cluster, .package, .domain] → a ∈ s.accesses → a.owner = .seq c .primary → a.issued < t → a.space = .own →
    (∀ d p x y, a.kind ≠ .send d p x y) →
    exec (.fenceRelease c .primary) s = .next s)
  ∧ (∀ (s : State) (c : Nat) (q : Seq) (t idle : Nat), c < nCores → s.Canon → (s.seq c q).hold = .tfence t idle → t + 1 + idle ≤ s.now →
    (∀ e ∈ (s.seq c q).queue, e.eff.dest = none) → s.accesses = [] →
    let hit := (s.seq c q).flags.toNat &&& ((s.seq c q).trapen.toNat + 512)
    (hit = 0 → ∃ u, exec (.tfenceRelease c q) s = .next u ∧ GoesOn s u c q s.now)
    ∧ (hit ≠ 0 → ∃ u, exec (.tfenceRelease c q) s = .next u ∧ TrapRegs (u.seq c q) (s.seq c q).lastPc 0x10 7 hit true
        ∧ (u.seq c q).nextAt = s.now ∧ (u.seq c q).flags = (s.seq c q).flags))
  ∧ ∀ (s : State) (c : Nat) (q : Seq) (t idle : Nat) (e : QEntry), c < nCores → (s.seq c q).hold = .tfence t idle → e ∈ (s.seq c q).queue →
    e.eff.dest ≠ none → exec (.tfenceRelease c q) s = .next s

/-- R61: a secondary stream that has issued no bundle for 2^20 cycles is reported, and waits on. -/
def Sys2Proof.Spec.WatchdogReports : Prop :=
  ∀ (s : State) (c : Nat), c < nCores → s.Canon → (s.seq c .secondary).run = .running → (s.seq c .secondary).lastIssue + 2 ^ 20 ≤ s.now →
    ∃ t, exec (.secondaryWatchdog c) s = .next t ∧ t.seq c .secondary = { s.seq c .secondary with watchdog := true }
      ∧ t.seq c .primary = s.seq c .primary ∧ t.mem = s.mem ∧ t.moorings = s.moorings

/-- What ends the holds of the sequencers. -/
def Obligations.HoldsEnd : Prop :=
  Spec.BarriersComplete ∧ Spec.BarriersTimeOut ∧ Spec.WaitsForGauges ∧ Spec.FencesRelease ∧ Spec.WatchdogReports

namespace Sys2Proof.Spec
open Sys2Proof.Machine Config

/-! ### Engines at work -/

/-- A command that has not ended, the only one of its number, of a task in normal mode that runs. -/
structure Works (s : State) (c : Cmd) (m : Nat) : Prop where
  canon : s.Canon
  found : s.cmd c.id = some c
  only : ∀ d ∈ s.cmds, d.id = c.id → d = c
  live : c.ended = false
  mooring : c.mooring = some m
  owner : s.moorOf c.core = some m
  stream : c.q = .primary
  normal : (s.moor m).loose = false
  runs : (s.moor m).st = .running
  unit : c.inst < 32 ∧ c.opc < 128

/-- A command faults with a code: `ENGST` names it, its accesses and holds go, and its task is discarded (R251, R318, R319). -/
structure FaultsWith (s t : State) (c : Cmd) (m code : Nat) : Prop where
  state : ∃ d, t.cmd c.id = some d ∧ d.st = .faulted ∧ d.ended = true ∧ d.code = code
  engst : (t.core c.core).engst.toNat = 2 ^ 63 + c.cls.code * 2 ^ 60 + c.inst * 2 ^ 55 + c.opc * 2 ^ 48 + code * 2 ^ 40 + c.block % 2 ^ 32
  accesses : ∀ a ∈ t.accesses, a.owner ≠ .cmd c.id
  holds : ∀ h ∈ t.holds, h.own ≠ .eng c.id
  task : (t.moor m).st = .ending (s.now + 8)

/-- A command of the primary whose START has come. -/
structure Starts (s : State) (c : Cmd) (m : Nat) : Prop extends Works s c m where
  waiting : c.st = .waiting
  read : c.blk.length = 64
  now : c.start = s.now
  moves : (s.moor m).frozen = none

/-- The gauge word that a head names (R244). -/
def headWord (s : State) (c : Cmd) : Nat := s.placePa (s.gaugePlace c c.gaddr .r) 16 false

/-- The head of a block lets its command begin (R245). -/
def HeadOk (s : State) (c : Cmd) : Prop :=
  c.gaddr = 0xFFFFFFFF ∨ ((s.num (headWord s c + 8) 4 + 2 ^ 32 - c.gen % 2 ^ 32) % 2 ^ 32 < 2 ^ 31 ∧ s.num (headWord s c + 12) 1 = 0)

/-- The targets of a `CPYMC`, and its chunks (R256). -/
def mcTargets (c : Cmd) : List Nat :=
  ((List.range 16).filter fun i => c.mc.mask / 2 ^ i % 2 == 1).map fun i => c.core / 16 * 16 + i
def mcChunks (c : Cmd) : Nat := (c.mc.bytes + 127) / 128
/-- An offset in the scratchpad of a core, as a command's mooring sees it. -/
def padPlace (c : Cmd) (k off : Nat) : Place := .virt (spadBase + k * spadBytes + off) c.mooring (spadBase + k * spadBytes + off)

end Sys2Proof.Spec

/-- R245, R251: at START a command whose gauge has not reached its generation faults with code 1, and one whose gauge has a status with
code 2. -/
def Sys2Proof.Spec.HeadsAreChecked : Prop :=
  ∀ (s : State) (c : Cmd) (m : Nat), Starts s c m → c.gaddr ≠ 0xFFFFFFFF →
    (2 ^ 31 ≤ (s.num (headWord s c + 8) 4 + 2 ^ 32 - c.gen % 2 ^ 32) % 2 ^ 32 → ∃ t, exec (.engineStart c.id) s = .next t ∧ FaultsWith s t c m 1)
    ∧ ((s.num (headWord s c + 8) 4 + 2 ^ 32 - c.gen % 2 ^ 32) % 2 ^ 32 < 2 ^ 31 → s.num (headWord s c + 12) 1 ≠ 0 →
      ∃ t, exec (.engineStart c.id) s = .next t ∧ FaultsWith s t c m 2)

/-- R238, R245, R302, R400: what begins at START: a near-memory block enters its channel's queue; `STEPADV` performs at the end of the
cycle; `PUBLISH` inverts LIT of its entries at once, and ends. -/
def Sys2Proof.Spec.CommandsBegin : Prop :=
  ∀ (s : State) (c : Cmd) (m : Nat), Starts s c m → HeadOk s c →
    (∀ h, c.instr = .nmc h → c.cls = .nm → ((s.chan (c.work.getD 0 0)).nmq.filter fun b => b.mooring == m).length < 16 →
      ∃ t, exec (.engineStart c.id) s = .next t ∧ t.cmd c.id = some { c with st := .running, start := s.now }
        ∧ ∃ b, (t.chan (c.work.getD 0 0)).nmq = (s.chan (c.work.getD 0 0)).nmq ++ [b] ∧ b.cmd = c.id ∧ b.mooring = m ∧ b.entered = s.now
          ∧ b.runAt = none)
    ∧ (∀ h k, c.instr = .stepadv h k → c.cls = .pkg →
      ∃ t, exec (.engineStart c.id) s = .next t ∧ t.cmd c.id = some { c with st := .running, start := s.now } ∧ t.moorings = s.moorings
        ∧ t.accesses = s.accesses ++ [⟨s.nextId, s.now, .cmd c.id, .phys 0, .eng stepAfter 0, false, false, .own, 6, s.now, c.id⟩])
    ∧ ∀ h i pa, c.instr = .publish h → c.cls = .pkg → listIndices c.data = [i] → i < 1024 → s.lensPa m i = some pa → s.frozenAt (pa + 13) = false →
      (s.lens m i).isSome = true → s.pubMeets m (some c.id) [i] = false → s.nodeList m = [] →
      ∃ t d, exec (.engineStart c.id) s = .next t ∧ t.cmd c.id = some d ∧ d.st = .done ∧ d.ended = true
        ∧ Writes s t (pa + 13) [s.byte (pa + 13) ^^^ 1]

/-- R253: a command of a copy engine that still runs at the end of its budget faults with code 4, and bytes already written stay. -/
def Sys2Proof.Spec.BudgetsExpire : Prop :=
  ∀ (s : State) (c : Cmd) (m : Nat), Works s c m → c.st = .running → 0 < c.budgetEnd → c.budgetEnd ≤ s.now →
    ∃ t, exec (.copyBudgetExpiry c.id) s = .next t ∧ FaultsWith s t c m 4 ∧ t.mem = s.mem

/-- R211, R256, R361: a `CPYMC` in X finds every bank of its chunks free: they are held, and each target's gauge is to rise with the last
chunk; else nothing lands, and the command faults, as it does where a chunk lies partly in a lens range. In the cycle of a chunk, its bytes
stand in every target, and nowhere else; in the range of a lens entry they go to its dark copy. -/
def Sys2Proof.Spec.MulticastDelivers : Prop :=
  (∀ (s : State) (c : Cmd) (m : Nat) (h : HRd) (n : Fin 2), Works s c m → c.instr = .cpymc h n 0 → c.st = .running → s.now + 1 = c.start + c.mc.d →
    s.inHbm c c.mc.src .r = some false →
    (s.mcSplit c c.mc = true → ∃ t, exec (.cpymcDeliveryCheck c.id) s = .next t ∧ FaultsWith s t c m 3 ∧ t.mem = s.mem)
    ∧ (s.mcSplit c c.mc = false → s.engMeets c.id (s.mcUses c c.mc (c.start + c.mc.d)) = false →
      ∃ t, exec (.cpymcDeliveryCheck c.id) s = .next t ∧ t.mem = s.mem ∧ t.cmds = s.cmds
        ∧ (∀ k ∈ mcTargets c, ∀ j < mcChunks c, ∀ u ∈ (s.placeSpot (padPlace c k (c.mc.doff + 128 * j)) (min 128 (c.mc.bytes - 128 * j))).uses
            (min 128 (c.mc.bytes - 128 * j)) (c.start + c.mc.d + j), ∃ e ∈ t.holds, e.t = u.t ∧ e.res = u.res ∧ e.own = .eng c.id)
        ∧ (c.mc.gauge ≠ 0xFFFFFFFF → ∀ k ∈ mcTargets c, ∃ a ∈ t.accesses, a.t = c.start + c.mc.d + mcChunks c - 1 ∧ a.owner = .cmd c.id
            ∧ a.kind = .raise c.mc.bytes ∧ a.place = padPlace c k (c.mc.gauge % 2 ^ 21)))
    ∧ (s.mcSplit c c.mc = false → s.engMeets c.id (s.mcUses c c.mc (c.start + c.mc.d)) = true →
      ∃ t, exec (.cpymcDeliveryCheck c.id) s = .next t ∧ FaultsWith s t c m 5 ∧ t.mem = s.mem))
  ∧ ∀ (s : State) (c : Cmd) (m j : Nat), Works s c m → c.st = .running → s.now = c.start + c.mc.d + j → j < mcChunks c →
    c.data.length = c.mc.bytes → c.poi.length = c.mc.bytes → c.mc.doff + c.mc.bytes ≤ spadBytes →
    let len := min 128 (c.mc.bytes - 128 * j)
    ((s.moor m).lens = 0 → ∃ t, exec (.cpymcChunkLanding c.id j) s = .next t
      ∧ (∀ k ∈ mcTargets c, ∀ i < len,
          t.byte (spadBase + k * spadBytes + (c.mc.doff + 128 * j + i)) = c.data.getD (128 * j + i) 0)
      ∧ ∀ x, (∀ k ∈ mcTargets c, ¬(spadBase + k * spadBytes + (c.mc.doff + 128 * j) ≤ x
          ∧ x < spadBase + k * spadBytes + (c.mc.doff + 128 * j) + len)) → t.byte x = s.byte x)
    ∧ ∀ k, mcTargets c = [k] → ∃ t, exec (.cpymcChunkLanding c.id j) s = .next t
      ∧ Writes s t (s.placePa (padPlace c k (c.mc.doff + 128 * j)) len true) ((c.data.drop (128 * j)).take len)

/-- R181: an elimination ends: its code joins the list, `SWEEPST` holds the next number and the greatest residual so far, and the next
elimination takes 8 + 3 × (n − c) cycles for its column c. -/
def Sys2Proof.Spec.EliminationsEnd : Prop :=
  ∀ (s : State) (c : Cmd) (w : Sweep), s.Canon → c.core < nCores → (s.mesh c.core).sweep = some w → w.due = s.now → s.cmd w.cmd = some c →
    w.stopping = false → w.next + 1 < (elimOrder w.m w.n).length →
    let e := eliminate w.m w.n w.next w.base w.tile
    let old := (s.core c.core).sweepst.toNat % 2 ^ 32
    ∃ t, exec (.sweepElimination c.core) s = .next t ∧ t.mem = s.mem
      ∧ (t.core c.core).sweepst = BitVec.ofNat 64 ((w.next + 1) % 2 ^ 16 * 2 ^ 32 + (match e.residual with
          | some r => max old r
          | none => old))
      ∧ (t.mesh c.core).sweep = some { w with
          tile := e.tile, next := w.next + 1, codes := w.codes ++ [(BitVec.ofNat 16 e.code, e.codePoi)]
          due := s.now + (8 + 3 * (w.n - ((elimOrder w.m w.n).getD (w.next + 1) (0, 0)).2)) }

/-- R259, R260: the sparse-index engine pushes its offsets in order, RATE a cycle from the fourth cycle after START on, as far as `Q0` has
room; after the last one its command ends. -/
def Sys2Proof.Spec.OffsetsArePushed : Prop :=
  ∀ (s : State) (c : Cmd) (h : HRd) (r : Fin 4) (count n k : Nat), s.Canon → s.sixCmds c.core = [c] → c.core < nCores → c.instr = .sixrun h r false →
    (∀ d ∈ s.cmds, d.id = c.id → d = c) → c.six.count = count → count ≤ 8 * c.data.length → c.work = [n] → c.start + 4 ≤ s.now →
    let offs := (List.range count).filter fun i => (c.data.getD (i / 8) 0).getLsbD (i % 8)
    n + k ≤ offs.length → (s.core c.core).q0.length + k ≤ 256 → (∀ i < k, c.start + 4 + (n + i) / 2 ^ r.val ≤ s.now) →
    (n + k = offs.length ∨ (s.core c.core).q0.length + k = 256 ∨ s.now < c.start + 4 + (n + k) / 2 ^ r.val) →
    ∃ t d, exec (.sixrunOffsetPush c.core) s = .next t ∧ (t.core c.core).q0 = (s.core c.core).q0 ++ ((offs.drop n).take k).map (BitVec.ofNat 16)
      ∧ t.cmd c.id = some d ∧ d.doneBytes = 2 * (n + k) ∧ d.ended = (c.ended || decide (n + k = offs.length)) ∧ t.mem = s.mem

/-- R132, R303: an `EBBSWEEP` merges +0 into the words of its granule. After the last granule, at the end of its cycle, LAST takes the
`GSTEP` of START and SW is cleared. -/
def Sys2Proof.Spec.SweepsMergeGranules : Prop :=
  (∀ (s : State) (c : Cmd) (m : Nat) (r : Region) (h : HRd) (n : Fin 16) (j g : Nat) (ts : List Nat), Works s c m → m < nMoorings →
    c.instr = .ebbsweep h n → c.opc = 0x2A → c.st = .running → (s.moor m).regions[n.val]? = some r → c.work = j :: g :: ts → ts[j]? = some s.now →
    let va := (r.wordsIn j).1
    let p (i : Nat) := s.engPlace c (va + 8 * i) .w
    let pa (i : Nat) := s.placePa (p i) 8 false
    let new (i : Nat) := natBytes 8 (s.mergeAt (p i) (s.num (pa i) 8) 0).1
    ∃ t, exec (.ebbSweepGranule c.id) s = .next t ∧ (t.moor m).regions = (s.moor m).regions
      ∧ ((r.wordsIn j).2 = 1 → Writes s t (pa 0) (new 0))
      ∧ ((r.wordsIn j).2 = 2 → (s.moor m).lens = 0 → (pa 0 + 8 ≤ pa 1 ∨ pa 1 + 8 ≤ pa 0) →
          ∀ a, t.byte a = overlay (overlay s.byte (pa 0) (new 0)) (pa 1) (new 1) a)
      ∧ (j + 1 = r.granules → ⟨s.nextId, s.now, .cmd c.id, .phys 0, .eng stepTail 0, false, false, .own, 6, s.now, c.id⟩ ∈ t.accesses))
  ∧ ∀ (s : State) (c : Cmd) (m : Nat) (r : Region) (h : HRd) (n : Fin 16) (j g : Nat) (ts : List Nat) (a : Access), Works s c m → m < nMoorings →
    c.instr = .ebbsweep h n → c.cls = .pkg → c.st = .running → (s.moor m).regions[n.val]? = some r → c.work = j :: g :: ts →
    s.findAccess a.id = some a → a.owner = .cmd c.id → a.t = s.now → a.wait = false → a.write = false → a.kind = .eng stepTail 0 →
    ∃ t d x, exec (.accessPerform a.id) s = .next t ∧ t.cmd c.id = some d ∧ d.st = .done ∧ d.ended = true
      ∧ (t.moor m).regions[n.val]? = some x ∧ x.last = g ∧ x.sw = false
      ∧ ∀ b, (∀ q, s.regionPa m n.val 0 = some q → ¬(q + 12 ≤ b ∧ b < q + 16)) → t.byte b = s.byte b

/-- R238 to R240: a near-memory block performs in one step: a FILL writes ALPHA over its elements, and a SCALE multiplies each by
ALPHA with one rounding. Stated of FILL and of SCALE of form 0. -/
def Sys2Proof.Spec.BlocksPerform : Prop :=
  ∀ (s : State) (c : Cmd) (m ch pa q : Nat) (b : NmBlk), Works s c m → c.work = [ch, pa, q] → b ∈ (s.chan ch).nmq → b.cmd = c.id → b.runAt = some s.now →
    c.nm.form = 0 → c.nm.op ∈ [2, 3] → c.nm.gauge = 0xFFFFFFFF → s.frozenIn pa (4 * c.nm.count) = false → s.errs = [] → s.poison = [] →
    ∃ t d, exec (.nmBlockPerform ch c.id) s = .next t ∧ t.cmd c.id = some d ∧ d.st = .done ∧ d.ended = true
      ∧ (∀ x ∈ (t.chan ch).nmq, x.cmd ≠ c.id)
      ∧ Writes s t pa ((List.range c.nm.count).flatMap fun i =>
          natBytes 4 (if c.nm.op = 3 then (fmt32.cvt fmt32 .rne c.nm.alpha).1 else (mulTo fmt32 c.nm.alpha (s.num (pa + 4 * i) 4)).1))

/-- R304, R305: a drain copies one page of its frozen ranges in order; at its end it writes `GSTEP` of START and the pages into the
header, and the ranges thaw. That a page moves whole in the last cycle of its eight frames is the model's reading (log 37). -/
def Sys2Proof.Spec.DrainsCopy : Prop :=
  (∀ (s : State) (m n : Nat) (d : Drain), s.Canon → m < nMoorings → (s.moor m).drain = some d → d.nextPage = n → n < d.pages →
    s.now + 1 = (d.f0 + 8 * (n + 1)) * frameCycles →
    (∀ i < 32, ∀ k < 32, d.pieces.getD (32 * n + i) 0 % 65536 = 0 ∧ d.dest.getD (32 * n + i) 0 % 65536 = 0
      ∧ d.pieces.getD (32 * n + i) 0 ≠ d.dest.getD (32 * n + k) 0 ∧ (i ≠ k → d.dest.getD (32 * n + i) 0 ≠ d.dest.getD (32 * n + k) 0)) →
    ∃ t, exec (.chkptDrainPage m) s = .next t ∧ (t.moor m).drain = some { d with nextPage := n + 1 }
      ∧ (∀ i < 32, ∀ x < 65536, t.byte (d.dest.getD (32 * n + i) 0 + x) = s.byte (d.pieces.getD (32 * n + i) 0 + x))
      ∧ ∀ x, (∀ i < 32, d.dest.getD (32 * n + i) 0 ≠ x / 65536 * 65536) → t.byte x = s.byte x)
  ∧ ∀ (s : State) (m : Nat) (d : Drain), s.Canon → m < nMoorings → (s.moor m).drain = some d → d.nextPage = d.pages →
    ∃ t, exec (.chkptDrainEnd m) s = .next t ∧ (t.moor m).drain = none
      ∧ ∀ x, t.byte x = overlay (overlay s.byte d.head (natBytes 3 d.gstep)) (d.head + 4) (natBytes 4 d.pages) x

/-- What engine commands do when they begin and when they end early. -/
def Obligations.EngineCommandsBegin : Prop := Spec.HeadsAreChecked ∧ Spec.CommandsBegin ∧ Spec.BudgetsExpire

/-- What the units of cores and clusters do as they run. -/
def Obligations.EngineUnitsRun : Prop := Spec.MulticastDelivers ∧ Spec.EliminationsEnd ∧ Spec.OffsetsArePushed

/-- What package services and near-memory units do as they run. -/
def Obligations.MemoryUnitsRun : Prop := Spec.SweepsMergeGranules ∧ Spec.BlocksPerform ∧ Spec.DrainsCopy

/-- R262, R263, R359: a collective completes: its result is to be written to the dark copy of DST, 64 bytes a cycle from the next cycle on
(the model's choice, log 16), its gauge is to rise by the bytes of the result with the last of them, and LENSIX flips a cycle later, when
the command ends. An all-gather of FP32 puts this device's own chunk at its rank; what other members sent is open. -/
def Sys2Proof.Spec.CollectivesComplete : Prop :=
  (∀ (s : State) (c : Cmd) (m r : Nat) (h : HRd) (n : Fin 4), Works s c m → c.instr = .coll h n .allGather .fp32 → c.cls = .coll → c.st = .running →
    let b := c.coll
    let l := s.members m b.group
    let ch := b.count / l.length
    let k := 4 * b.count
    let pa := s.placePa (s.engPlace c b.dst .w) k true
    rankOf l = some r → r < l.length → 0 < b.count → b.count % l.length = 0 → c.data.length = 4 * ch → s.frozenRange pa k = false →
    b.gauge ≠ 0xFFFFFFFF → b.dst + k ≤ spadBytes → (s.moor m).lens = 0 → (∀ a ∈ s.accesses, a.owner ≠ .cmd c.id) →
    (∀ h ∈ s.holds, h.own.isSec = true ∨ h.t2 ≤ s.now) →
    ∃ (t : State) (bs : List Byte) (e : Nat), exec (.collComplete c.id) s = .next t ∧ bs.length = k ∧ t.mem = s.mem
      ∧ (∀ j < (k + 63) / 64, ∃ a ∈ t.accesses, ∃ ps, a.t = s.now + 1 + j ∧ a.owner = .cmd c.id ∧ a.write = true
          ∧ a.place = s.engPlace c (b.dst + 64 * j) .w ∧ a.kind = .store ((bs.drop (64 * j)).take 64) ps none)
      ∧ (bs.drop (4 * (r * ch))).take (4 * ch) = c.data
      ∧ s.now + (k + 63) / 64 ≤ e ∧ e < s.now + (k + 63) / 64 + 16
      ∧ (∃ a ∈ t.accesses, a.t = e ∧ a.kind = .raise k ∧ a.owner = .cmd c.id)
      ∧ (∃ a ∈ t.accesses, a.t = e + 1 ∧ a.kind = .eng stepLens 0 ∧ a.owner = .cmd c.id))
  ∧ ∀ (s : State) (c : Cmd) (m pa : Nat) (a : Access), Works s c m → c.cls = .coll → c.st = .running → c.coll.lens ≠ 0xFFFF →
    s.lensPa m c.coll.lens = some pa → s.frozenAt (pa + 13) = false → s.findAccess a.id = some a → a.owner = .cmd c.id → a.t = s.now → a.wait = false → a.write = false →
    a.kind = .eng stepLens 0 →
    ∃ t d, exec (.accessPerform a.id) s = .next t ∧ Writes s t (pa + 13) [s.byte (pa + 13) ^^^ 1] ∧ t.cmd c.id = some d ∧ d.st = .done ∧ d.ended = true

/-- R265, R403: an `RST` that its device acknowledges is complete: its gauge is to rise by its bytes, in this cycle or, in a pool, the first
that the wheel gives its core, and the command ends then; a refusal and 20 µs without completion fault it with code 9. Bytes that an
`RLD` receives are to be written at their place in this cycle, with the poison code where they arrive so. -/
def Sys2Proof.Spec.RemoteCommandsComplete : Prop :=
  ∀ (s : State) (c : Cmd) (m : Nat), Works s c m → c.st = .running → c.cls = .cloys →
    (c.opc = 0x1A → c.rem.gauge ≠ 0xFFFFFFFF → (∀ h ∈ s.holds, h.own.isSec = true ∨ h.t2 < s.now) →
      ∀ data, ∃ t d e, exec (.remoteCompletion c.id 0 data) s = .next t ∧ t.mem = s.mem ∧ t.cmd c.id = some d ∧ d.doneBytes = c.rem.bytes
        ∧ s.now ≤ e ∧ e < s.now + 16 ∧ (∃ a ∈ t.accesses, a.t = e ∧ a.kind = .raise c.rem.bytes ∧ a.owner = .cmd c.id)
        ∧ ∃ a ∈ t.accesses, a.t = e ∧ a.kind = .eng stepAfter 0 ∧ a.owner = .cmd c.id)
    ∧ (∀ data, ∃ t, exec (.remoteCompletion c.id 1 data) s = .next t ∧ FaultsWith s t c m 9 ∧ t.mem = s.mem)
    ∧ (c.budgetEnd ≤ s.now → ∃ t, exec (.remoteTimeout c.id) s = .next t ∧ FaultsWith s t c m 9 ∧ t.mem = s.mem)
    ∧ ∀ (data : List Byte) (sp : Spot) (core bank k : Nat) (status : BitVec 8), c.opc = 0x19 → c.work = [k] → k + data.length < c.rem.bytes →
      status ∈ [0, 2] → s.engSpot c (c.rem.loc + k) data.length .w = some sp → resOf sp.pa = some (.spad core bank) →
      s.engMeets c.id (sp.uses data.length s.now) = false →
      ∃ t d, exec (.remoteCompletion c.id status data) s = .next t ∧ t.mem = s.mem ∧ t.cmd c.id = some d ∧ d.work = [k + data.length]
        ∧ t.accesses = s.accesses ++ [⟨s.nextId, s.now, .cmd c.id, s.engPlace c (c.rem.loc + k) .w,
            .store data (data.map fun _ => decide (status = 2)) none, true, false, .own, 6, s.now, c.id⟩]

/-- R264, R338, R339: a link that has carried nothing for 20 µs is lost, and a collective that runs stops, partial, with code 8; a flit
whose length, CRC and number are right is taken in order, another is left to the retry; a store that comes for an exported window of
SRAM is to perform there; each interval of 1 µs lets a plane's held flits go on. The payload of a flit is the model's choice (log 16). -/
def Sys2Proof.Spec.LinksCarry : Prop :=
  (∀ (s : State) (p m : Nat) (c : Cmd), p < 16 → s.boot = .up → Tidy Plane.init s.planes → (s.plane p).lost = false →
    (s.plane p).lastCarry + 54000 ≤ s.now → Works s c m → c.cls = .coll → c.st = .running → s.cmds = [c] →
    ∃ t d, exec (.linkLoss p) s = .next t ∧ (t.plane p).lost = true ∧ t.cmd c.id = some d ∧ d.st = .part ∧ d.code = 8 ∧ d.ended = true
      ∧ (t.moor m).st = .ending (s.now + 8))
  ∧ (∀ (s : State) (p : Nat) (body : List Byte), p < 16 → s.boot = .up → Tidy Plane.init s.planes → body.length = 248 →
      leNat ((body.drop 4).take 2) = (s.plane p).rxSeq % 2 ^ 16 →
    ∃ t, exec (.cloysFlitReceive p (body ++ natBytes 8 (flitCrc body).toNat)) s = .next t ∧ (t.plane p).rxSeq = (s.plane p).rxSeq + 1
      ∧ (t.plane p).lastCarry = s.now ∧ (t.plane p).lost = false ∧ t.mem = s.mem
      ∧ ∀ addr n, leNat ((body.drop 6).take 2) = kindStore → leNat ((body.drop 8).take 8) = addr → leNat ((body.drop 16).take 4) = n → 0 < n →
          addr / 64 = (addr + n - 1) / 64 → addr < hbmBase → (s.plane p).inq = [] →
          (s.exported addr n = true → ∃ a ∈ t.accesses, ∃ ps, a.t = s.now ∧ a.owner = .remote p ∧ a.place = .phys addr ∧ a.write = true
              ∧ a.kind = .store ((body.drop 28).take n) ps none)
          ∧ (s.exported addr n = false → t.accesses = s.accesses))
  ∧ (∀ (s : State) (p : Nat) (flit : List Byte), p < 16 → Tidy Plane.init s.planes →
      (flit.length ≠ 256 ∨ leNat (flit.drop 248) ≠ (flitCrc (flit.take 248)).toNat) →
    ∃ t, exec (.cloysFlitReceive p flit) s = .next t ∧ (t.plane p).rxSeq = (s.plane p).rxSeq ∧ t.mem = s.mem)
  ∧ ∀ (s : State) (p : Nat) (f : Held) (l : List Held), p < 16 → s.boot = .up → Tidy Plane.init s.planes →
    (s.plane p).heldBack = f :: l → f.cmd = none → 240 ≤ (s.plane p).quota →
    ∃ t, exec .cloysQuotaInterval s = .next t ∧ ⟨16 + p, flitBytes f.dest (s.plane p).txSeq f.kind f.payload⟩ ∈ t.frames
      ∧ (t.plane p).heldBack.length ≤ l.length ∧ (∃ r, t.frames = s.frames ++ r) ∧ t.mem = s.mem

/-- What scale-up traffic does when it comes and when it stays away. -/
def Obligations.ScaleUpEvents : Prop := Spec.CollectivesComplete ∧ Spec.RemoteCommandsComplete ∧ Spec.LinksCarry

namespace Sys2Proof.Spec
open Sys2Proof.Machine Config

/-! ### Records, tasks and their ends -/

/-- A field of a launch record (R283). -/
def recField (b : List Byte) (lo n : Nat) : Nat := leNat ((b.drop lo).take n)
def recMooring (b : List Byte) : Nat := recField b 2 1 / 16
/-- The bytes of a record's input, and what its tag covers. -/
def recInput (b : List Byte) : Nat := if recField b 2 1 / 4 % 2 = 1 then 0 else recField b 16 8

/-- A record arrives alone, while the Pilot runs. -/
structure Arrives (s : State) (b : List Byte) : Prop where
  up : s.boot = .up
  alone : s.arrivals = [] ∧ ∀ e ∈ s.agenda, isRecord e.instr = false
  long : 3 ≤ b.length
  mooring : recMooring b < nMoorings ∧ (s.moor (recMooring b)).loaded = true

/-- The first check of R285. -/
def FormOk (s : State) (b : List Byte) : Prop :=
  b.length = 48 + recInput b ∧ recField b 0 2 = 0xE7A1 ∧ recField b 2 1 % 4 = 0 ∧ recField b 3 1 = 0 ∧ recField b 10 2 = 0 ∧ recField b 12 4 ≠ 0
    ∧ (recField b 2 1 / 4 % 2 = 1 ∨ recInput b + 16 ≤ (s.moor (recMooring b)).istride)

/-- The tag of a record is that of its mooring's key (R284). -/
def TagOk (s : State) (b : List Byte) : Prop :=
  b.drop (32 + recInput b) = tagOf (s.moor (recMooring b)).key (b.take (32 + recInput b))

/-- A task of a mooring in normal mode that runs. -/
structure Running (s : State) (m : Nat) : Prop where
  canon : s.Canon
  mooring : m < nMoorings
  runs : (s.moor m).st = .running
  normal : (s.moor m).loose = false

end Sys2Proof.Spec

/-- R282 to R285, R289: what a launch record that an event brings comes to: the checks in their order, each of which drops it and counts it; a
REQID that came before gets status 3; an interactive request that a task can meet takes its lowest free slot. -/
def Sys2Proof.Spec.RecordFates (s : State) (i : Instr) (b : List Byte) : Prop :=
  let m := recMooring b
  let k := s.moor m
  (¬FormOk s b → ∃ t, exec i s = .next t ∧ (t.moor m).malformed = k.malformed + 1 ∧ (t.moor m).slots = k.slots
    ∧ t.frames = s.frames ∧ t.compl = s.compl)
  ∧ (FormOk s b → ¬TagOk s b → ∃ t, exec i s = .next t ∧ (t.moor m).tagFail = k.tagFail + 1 ∧ (t.moor m).slots = k.slots
    ∧ t.frames = s.frames ∧ t.compl = s.compl)
  ∧ (FormOk s b → TagOk s b → (∃ hi, k.hiReq = some hi ∧ recField b 4 6 ≤ hi ∧ (4095 < hi - recField b 4 6 ∨ k.bitmap.getLsbD (hi - recField b 4 6) = true)) →
    ∃ t, exec i s = .next t ∧ (t.moor m).slots = k.slots ∧ t.frames.length + t.compl.length = s.frames.length + s.compl.length + 1
      ∧ (t.moor m).bitmap = k.bitmap)
  ∧ (FormOk s b → TagOk s b → (∀ hi, k.hiReq = some hi → hi < recField b 4 6) → recField b 2 1 / 8 % 2 = 0 → k.loose = false → k.looseNext = false →
    s.thermalHold = false → 0 < k.bcap → ∀ n i_, s.room m s.now = some (n, i_) →
    k.t0 + n * k.period + k.k + k.replyb ≤ s.now + recField b 12 4 * 2700 →
    ∃ t p, exec i s = .next t ∧ (t.moor m).slots = k.slots ++ [p] ∧ p.task = n ∧ p.slot = i_ ∧ p.req.reqid = recField b 4 6
      ∧ p.req.arrival = s.now ∧ p.req.deadline = recField b 12 4 ∧ p.req.answered = false ∧ (t.moor m).hiReq = some (recField b 4 6)
      ∧ t.frames = s.frames ∧ t.compl = s.compl)

/-- R282 to R285, R289, R337: a record that a port's frame carries meets its fate; only a whole UDP datagram over IPv6, to an
address of the Pilot's and the port that the host has configured, carries one; any other frame is dropped and counted. The places of
the fields in the frame are the model's: those of the public standards (log 19). -/
def Sys2Proof.Spec.RecordsAreChecked : Prop :=
  (∀ (s : State) (port : Nat) (frame : List Byte) (src : RecSrc) (b : List Byte), Arrives s b → port < 2 → s.recordIn port frame = some (src, b) →
    RecordFates s (.launchRecord port frame) b)
  ∧ (∀ (s : State) (port : Nat) (f b : List Byte) (src : RecSrc), s.recordIn port f = some (src, b) →
    f.length ≤ 9216 ∧ beNum f 12 2 = 0x86DD ∧ beNum f 20 1 = 17 ∧ s.ownIp (beNum f 38 16) = true ∧ beNum f 56 2 = s.udpPort
      ∧ b = (f.drop 62).take (beNum f 58 2 - 8))
  ∧ ∀ (s : State) (port : Nat) (frame : List Byte), port < 2 → s.boot = .up → Tidy 0 s.drops → s.arrivals = [] → s.recordIn port frame = none →
    ∃ t, exec (.launchRecord port frame) s = .next t ∧ sget 0 t.drops port = sget 0 s.drops port + 1 ∧ t.moorings = s.moorings ∧ t.mem = s.mem
      ∧ t.frames = s.frames ∧ t.compl = s.compl

/-- R288, R290: the seal of a task writes each slot at its place: a header of length, REQID and flags, then the input; an empty slot has
a header of zeros. -/
def Sys2Proof.Spec.SealsWriteSlots : Prop :=
  ∀ (s : State) (m n pa : Nat) (o : Option Req), m < nMoorings → s.Canon → (s.moor m).loaded = true → 0 < (s.moor m).period →
    s.now + (s.moor m).lead = (s.moor m).t0 + n * (s.moor m).period → (s.moor m).bulk = [] → (s.moor m).bcap = 1 →
    ((s.moor m).slots.find? fun p => p.task == n && p.slot == 0).map (·.req) = o →
    let va := (s.moor m).inarea + n % 2 * (s.moor m).istride
    let bs := match o with
      | none => List.replicate 16 (0 : Byte)
      | some r => natBytes 8 r.input.length ++ natBytes 6 r.reqid ++ [if r.inaddr then 3 else 1, 0]
          ++ (if r.inaddr then natBytes 8 r.addr.toNat else r.input)
    s.moorPa m va = some pa → va % 65536 + bs.length ≤ 65536 →
    ∃ t, exec (.taskSeal m) s = .next t ∧ Writes s t pa bs ∧ (t.moor m).slots = (s.moor m).slots

/-- R34, R288, R294: a task starts at its cycle, at the entry node of its stream, whose DELAY counts from then. -/
def Sys2Proof.Spec.TasksStart : Prop :=
  ∀ (s : State) (m n : Nat) (rec_ : List Byte), m < nMoorings → (s.moor m).loaded = true → 0 < (s.moor m).period →
    s.now = (s.moor m).t0 + n * (s.moor m).period → (s.moor m).st = .idle → s.boot = .up → s.thermalHold = false → s.withheld m = false →
    s.moorBytes m ((s.moor m).stream + 64 * (s.moor m).entry) 64 = some rec_ → leNat ((rec_.drop 8).take 8) ≠ 0 →
    ∃ t, exec (.taskStart m) s = .next t ∧ (t.moor m).st = .running ∧ (t.moor m).task = n ∧ (t.moor m).started = s.now
      ∧ (t.moor m).node = (s.moor m).entry ∧ (t.moor m).nodeAt = s.now + leNat ((rec_.drop 8).take 8) ∧ (t.moor m).launched = []
      ∧ (t.moor m).loose = (s.moor m).looseNext ∧ t.mem = s.mem

/-- R34, R286, R292: a task whose stream has ended, whose cores are DONE and whose timelines have ended answers its requests in slot
order with status 1; one that is not complete by its compiled count (R61) is discarded. That a reply leaves in the cycle of
completion is the model's choice (log 20). -/
def Sys2Proof.Spec.TasksComplete : Prop :=
  (∀ (s : State) (m mm seq : Nat) (p : Placed), Running s m → s.taskDone m = true → s.now ≤ (s.moor m).started + (s.moor m).k → (s.moor m).bcap = 1 → (s.moor m).slots = [p] →
    p.task = (s.moor m).task → p.slot = 0 → p.req.answered = false → p.req.src = .host mm seq → (s.moor m).preempt = [] →
    ∃ t body, exec (.taskComplete m) s = .next t ∧ (t.moor m).st = .idle ∧ (t.moor m).slots = [] ∧ t.mem = s.mem
      ∧ t.compl = s.compl ++ [⟨0x81, mm, seq, body⟩] ∧ leNat (body.take 2) = 0xE7A2 ∧ body.getD 2 0 = BitVec.ofNat 8 (16 * m + 1)
      ∧ leNat ((body.drop 4).take 6) = p.req.reqid % 2 ^ 48)
  ∧ ∀ (s : State) (m : Nat), Running s m → (s.moor m).started + (s.moor m).k < s.now →
    ∃ t, exec (.taskComplete m) s = .next t ∧ (t.moor m).st = .ending (s.now + 8) ∧ t.mem = s.mem

/-- R34, R319: a core that is not DONE by its launch's cycle count faults; the discard of its task comes eight cycles after the
fault: every core of the task stops, its results and accesses are dropped, and the mooring is free. That the limit faults in the
first cycle after it, with XPC 0 and XINFO 0, is the model's choice (logs 20, 26). -/
def Sys2Proof.Spec.TasksAreDiscarded : Prop :=
  (∀ (s : State) (m c : Nat) (l : Launched), Running s m → c < nCores → s.moorOf c = some m → l ∈ (s.moor m).launched → l.core = c → l.begun = true →
    (s.core c).prim.run = .running → (s.core c).prim.faulted = false → (s.core c).prim.recorded = false → l.limit + 1 = s.now →
    ∃ t, exec (.launchCycleLimit m c) s = .next t ∧ (t.moor m).st = .ending (s.now + 8) ∧ TrapRegs (t.core c).prim 0 0x20 0 0 false ∧ t.mem = s.mem)
  ∧ ∀ (s : State) (m d : Nat), s.Canon → m < nMoorings → (s.moor m).st = .ending d → d ≤ s.now →
    ∃ t, exec (.taskDiscard m) s = .next t ∧ (t.moor m).st = .idle ∧ (t.moor m).launched = [] ∧ (∀ p ∈ (t.moor m).slots, p.task ≠ (s.moor m).task)
      ∧ ∀ l ∈ (s.moor m).launched, l.begun = true → l.core ∈ s.coreIds → (t.core l.core).prim.run = .ended ∧ (t.core l.core).prim.queue = []
        ∧ (t.core l.core).q0 = [] ∧ ∀ a ∈ t.accesses, a.owner ≠ .seq l.core .primary

/-- Requests, and the tasks that serve them. -/
def Obligations.RequestsAndTasks : Prop := Spec.RecordsAreChecked ∧ Spec.SealsWriteSlots ∧ Spec.TasksStart

/-- How tasks end. -/
def Obligations.TasksEnd : Prop := Spec.TasksComplete ∧ Spec.TasksAreDiscarded

namespace Sys2Proof.Spec
open Sys2Proof.Machine Config

/-! ### Nodes -/

/-- A node of a mooring's command stream executes: its task runs, and the stream stands at record n. -/
structure AtNode (s : State) (m n : Nat) : Prop where
  canon : s.Canon
  mooring : m < nMoorings
  ev : s.ev = .node m
  node : (s.moor m).node = n
  runs : (s.moor m).st = .running ∧ (s.moor m).atEnd = false
  waits : (s.moor m).waiting = none

/-- The record of a node (R294), and its DELAY. -/
def nodeBytes (s : State) (m n : Nat) : Option (List Byte) := s.moorBytes m ((s.moor m).stream + 64 * n) 64
def nodeDelay (r : List Byte) : Nat := leNat ((r.drop 8).take 8)

/-- The stream goes on to the record r of node n, whose DELAY counts from this cycle (R294). -/
structure SeeksNode (s t : State) (m n : Nat) (r : List Byte) : Prop where
  node : (t.moor m).node = n
  due : (t.moor m).nodeAt = s.now + nodeDelay r
  runs : (t.moor m).st = .running ∧ (t.moor m).atEnd = false
  waits : (t.moor m).waiting = none

/-- A node fault (R297): the task is discarded, and one fault record names CODE 0x12, the reason and the node (R448). -/
structure NodeFaults (s t : State) (m n reason : Nat) : Prop where
  task : (t.moor m).st = .ending (s.now + 8)
  record : s.compl = [] → ∃ p, t.compl = [⟨0x82, m, 0, p⟩] ∧ leNat (p.take 8) = (s.moor m).task % 2 ^ 64 ∧ leNat ((p.drop 8).take 2) = 0xFFFF
    ∧ leNat ((p.drop 16).take 8) = 0x12 + reason * 2 ^ 8 + n % 2 ^ 24 * 2 ^ 40
  mem : t.mem = s.mem

end Sys2Proof.Spec

/-- R295, R296: a `LAUNCH` of clusters that the task may use starts each core with an image in its LTAB entry after its offset, with a
limit of CYCLES cycles. A core of offset 0 starts at once, at its image, its first eight `H` registers its arguments as the cycle before
left them; every other `H` register is 0. -/
def Sys2Proof.Spec.LaunchNodes : Prop :=
  ∀ (s : State) (m n : Nat) (delay cmask ltab cycles : BitVec 64) (r : List Byte) (es : List LEnt), AtNode s m n →
    nodeBytes s m (n + 1) = some r → nodeDelay r ≠ 0 →
    (cmask &&& ~~~(s.moor m).cmask ≠ 0 → ∃ t, exec (.launch delay cmask ltab cycles) s = .next t ∧ NodeFaults s t m n 3)
    ∧ (cmask &&& ~~~(s.moor m).cmask = 0 → s.ltab m cmask ltab.toNat = some es →
      ((∃ e ∈ es, e.clean = false) ∨ (∃ e ∈ es, ∃ f ∈ es, e.image ≠ 0 ∧ f.image ≠ 0 ∧ e.core / 16 = f.core / 16 ∧ e.offset ≠ f.offset) →
        ∃ t, exec (.launch delay cmask ltab cycles) s = .next t ∧ NodeFaults s t m n 3)
      ∧ ((∀ e ∈ es, e.clean = true) → (∀ e ∈ es, ∀ f ∈ es, e.image ≠ 0 → f.image ≠ 0 → e.core / 16 = f.core / 16 → e.offset = f.offset) →
        (∃ e ∈ es, e.image ≠ 0 ∧ s.coreRuns m e.core = true) →
        ∃ t, exec (.launch delay cmask ltab cycles) s = .next t ∧ NodeFaults s t m n 7)
      ∧ ((∀ e ∈ es, e.clean = true) → (∀ e ∈ es, ∀ f ∈ es, e.image ≠ 0 → f.image ≠ 0 → e.core / 16 = f.core / 16 → e.offset = f.offset) →
        (∀ e ∈ es, e.image ≠ 0 → s.coreRuns m e.core = false ∧ s.tooSoon m e = false) →
        ∃ t, exec (.launch delay cmask ltab cycles) s = .next t ∧ SeeksNode s t m (n + 1) r ∧ t.mem = s.mem
          ∧ (∀ e ∈ es, e.image ≠ 0 → ∃ l ∈ (t.moor m).launched, l.core = e.core ∧ l.image = BitVec.ofNat 56 e.image ∧ l.limit = s.now + cycles.toNat
              ∧ l.due = s.now + e.offset ∧ l.argAt = e.argAt ∧ l.begun = decide (e.offset = 0))
          ∧ (∀ e ∈ es, e.image ≠ 0 → e.offset = 0 → (t.core e.core).prim.run = .running ∧ (t.core e.core).prim.pc = BitVec.ofNat 56 e.image
              ∧ (t.core e.core).prim.nextAt = s.now ∧ (t.core e.core).prim.tbase = (s.moor m).started ∧ (t.core e.core).q0 = []
              ∧ ∀ b, s.before.moorBytes m e.argAt 64 = some b →
                ∀ i : Fin 32, ((t.core e.core).h.getD i Reg.zero).val = if i < 8 then BitVec.ofNat 64 (leNat ((b.drop (8 * i)).take 8)) else 0)
          ∧ (∀ l ∈ (s.moor m).launched, l.begun = true → (∀ e ∈ es, e.image ≠ 0 → e.core ≠ l.core) → l ∈ (t.moor m).launched)
          ∧ ∀ c, (∀ l ∈ (s.moor m).launched, l.core ≠ c) → (∀ e ∈ es, e.image ≠ 0 → e.core ≠ c) → t.core c = s.core c))
    ∧ ∀ (i : Nat) (e : LEnt) (b : List Byte), s.ltab m cmask ltab.toNat = some es → es[i]? = some e → s.moorBytes m (ltab.toNat + 96 * i) 96 = some b →
        e.core < nCores ∧ cmask.getLsbD (e.core / 16) = true ∧ e.image = leNat (b.take 8) ∧ e.offset = leNat ((b.drop 8).take 4)
        ∧ e.argAt = ltab.toNat + 96 * i + 32

/-- R219, R295: a `TIMELINE` starts the timeline at its word on each of its channels, with owner clock 0 at the first window of its mooring
from the first window on that begins at or after the node's cycle and SOFF. A channel that is not the mooring's is a node fault; one whose
map has not returned from a disturb backlog faults the timeline (R234), and its task ends. -/
def Sys2Proof.Spec.TimelineNodes : Prop :=
  ∀ (s : State) (m n : Nat) (delay soff : BitVec 64) (chs : BitVec 256) (word : BitVec 16) (r : List Byte), AtNode s m n →
    nodeBytes s m (n + 1) = some r → nodeDelay r ≠ 0 →
    (∀ c < nChannels, chs.getLsbD c = true → c ∉ (s.moor m).chans → ∃ t, exec (.timeline delay chs word soff) s = .next t ∧ NodeFaults s t m n 3)
    ∧ ((∀ c < nChannels, chs.getLsbD c = true → c ∈ (s.moor m).chans ∧ (∃ w < nWindows, mapCode (s.chan c).map w = m) ∧ (s.chan c).tl m = none
        ∧ ((s.chan c).backlog = false ∨ clockOf s.now / windowClocks < (s.chan c).backlogFrom)) →
      ∃ t, exec (.timeline delay chs word soff) s = .next t ∧ SeeksNode s t m (n + 1) r ∧ t.mem = s.mem
        ∧ (∀ c < nChannels, chs.getLsbD c = true → ∃ x, (t.chan c).tls = (s.chan c).tls ++ [x] ∧ x.owner = m ∧ x.pos = word.toNat ∧ x.started = s.now
            ∧ x.reps = [] ∧ s.now + soff.toNat ≤ cyc (x.w0 * windowClocks) ∧ (∀ w < x.w0, cyc (w * windowClocks) < s.now + soff.toNat)
            ∧ x.oclk = (s.chan c).delayAt m word.toNat ∧ x.due = (s.chan c).ownerClock m x.w0 x.oclk)
        ∧ ∀ c < nChannels, chs.getLsbD c = false → t.chan c = s.chan c)
    ∧ ((∃ c < nChannels, chs.getLsbD c = true ∧ (s.chan c).backlog = true ∧ (s.chan c).backlogFrom ≤ clockOf s.now / windowClocks) →
      (∀ c < nChannels, chs.getLsbD c = true → c ∈ (s.moor m).chans ∧ ∃ w < nWindows, mapCode (s.chan c).map w = m) →
      ∃ t, exec (.timeline delay chs word soff) s = .next t ∧ (t.moor m).st = .ending (s.now + 8) ∧ t.mem = s.mem)

/-- R261, R400: a `PUBLISHN` inverts LIT of the entries of its list in its cycle. -/
def Sys2Proof.Spec.PublishNodes : Prop :=
  ∀ (s : State) (m n i pa : Nat) (delay list : BitVec 64) (r b : List Byte), AtNode s m n → nodeBytes s m (n + 1) = some r → nodeDelay r ≠ 0 →
    s.before.moorBytes m list.toNat 2 = some b → listIndices b = [i] → i < 1024 → s.lensPa m i = some pa → (s.lens m i).isSome = true →
    spadBytes ≤ list.toNat → (sramWindow list.toNat).isSome = true → sramWindow list.toNat = sramWindow (list.toNat + 1) →
    s.pubMeets m none [i] = false → s.frozenAt (pa + 13) = false → (s.moor m).stream % 64 = 0 →
    (∀ q, s.moorPa m ((s.moor m).stream + 64 * (n + 1)) = some q → ¬(q ≤ pa + 13 ∧ pa + 13 < q + 64)) →
    ∃ t, exec (.publishn delay 1 list) s = .next t ∧ SeeksNode s t m (n + 1) r ∧ Writes s t (pa + 13) [s.byte (pa + 13) ^^^ 1]

/-- R244, R295, R297: a `WAITN` of mode 0 waits until every core that the task has launched is DONE and its commands have ended, one of mode
1 until the gauge word has reached its generation. Met, the stream goes on in the same cycle; beyond its limit it is a node fault. -/
def Sys2Proof.Spec.WaitNodes : Prop :=
  (∀ (s : State) (m n : Nat) (delay gaddr limit : BitVec 64) (gen : BitVec 32) (mode : BitVec 8), AtNode s m n →
    (mode = 1 → (s.moorPa m gaddr.toNat).isSome = true) →
    ∃ t, exec (.waitn delay mode gen gaddr limit) s = .next t ∧ t.mem = s.mem ∧ (t.moor m).node = n
      ∧ (t.moor m).waiting = some ⟨mode.toNat, gaddr.toNat, gen, s.now + limit.toNat⟩
      ∧ t.agenda = s.agenda ++ [plainEv (.waitnRelease m)])
  ∧ (∀ (s : State) (m n : Nat) (w : WaitNode) (r : List Byte), m < nMoorings → (s.moor m).node = n → (s.moor m).st = .running → (s.moor m).atEnd = false →
      (s.moor m).waiting = some w → nodeBytes s m (n + 1) = some r → nodeDelay r ≠ 0 →
      (w.mode = 0 → (∀ l ∈ (s.moor m).launched, l.begun = true ∧ (s.core l.core).prim.run ≠ .running) ∧
        ∀ c ∈ s.cmds, c.mooring = some m → c.q = .primary → c.ended = true) →
      (w.mode ≠ 0 → ∃ pa, s.moorPa m w.gaddr = some pa ∧ (s.num (pa + 8) 4 + 2 ^ 32 - w.gen.toNat) % 2 ^ 32 < 2 ^ 31) →
      ∃ t, exec (.waitnRelease m) s = .next t ∧ SeeksNode s t m (n + 1) r ∧ t.mem = s.mem ∧ t.cores = s.cores)
  ∧ ∀ (s : State) (m n : Nat) (w : WaitNode), m < nMoorings → (s.moor m).node = n → (s.moor m).st = .running → (s.moor m).atEnd = false →
      (s.moor m).waiting = some w → w.limit < s.now →
      (w.mode = 0 → (∃ l ∈ (s.moor m).launched, l.begun = true ∧ (s.core l.core).prim.run = .running) →
        ∃ t, exec (.waitnLimit m) s = .next t ∧ NodeFaults s t m n 4)
      ∧ (w.mode = 1 → (∀ pa, s.moorPa m w.gaddr = some pa → 2 ^ 31 ≤ (s.num (pa + 8) 4 + 2 ^ 32 - w.gen.toNat) % 2 ^ 32) →
        ∃ t, exec (.waitnLimit m) s = .next t ∧ NodeFaults s t m n 1)

/-- R295, R302, R304: a `CHKPTN` freezes its range and its drain begins with the next frame, a second one while a drain runs is a
node fault; a `STEPN` adds its increment to `GSTEP` at the end of its cycle. Its reason is the 7 of R448 (R357). -/
def Sys2Proof.Spec.CheckpointAndStepNodes : Prop :=
  ∀ (s : State) (m n : Nat) (delay dest : BitVec 64) (inc : BitVec 8) (rs : Vector (BitVec 96) 3) (r : List Byte), AtNode s m n →
    nodeBytes s m (n + 1) = some r → nodeDelay r ≠ 0 →
    ((s.moor m).drain.isSome = true → ∃ t, exec (.chkptn delay 1 rs dest) s = .next t ∧ NodeFaults s t m n 7)
    ∧ (∀ (ps ds : List Nat) (h : Nat), (s.moor m).drain = none → rs[1] = 0 → rs[2] = 0 →
      let va := rs[0].toNat % 2 ^ 64
      let k := rs[0].toNat / 2 ^ 64
      va % 0x200000 = 0 → 0 < k → dest.toNat % 0x200000 = 0 → (dest.toNat + 0x200000 * (k + 1) ≤ va ∨ va + 0x200000 * k ≤ dest.toNat) →
      s.pieces m va k = some ps → s.hbmPa m dest.toNat = some h → s.pieces m (dest.toNat + 0x200000) k = some ds →
      ∃ t, exec (.chkptn delay 1 rs dest) s = .next t ∧ SeeksNode s t m (n + 1) r ∧ t.mem = s.mem
        ∧ (t.moor m).drain = some ⟨ps, h, ds, (s.moor m).gstep.toNat % 2 ^ 24, k, s.now / 10368 + 1, 0⟩)
    ∧ ((s.moor m).stepns = [] → (∀ x ∈ (s.moor m).regions, x.active = false) →
      ∃ t u, exec (.stepn delay inc) s = .next t ∧ SeeksNode s t m (n + 1) r ∧ t.mem = s.mem ∧ (t.moor m).gstep = (s.moor m).gstep
        ∧ (t.moor m).stepns = [(n, inc.toNat)]
        ∧ exec (.stepn delay inc) { t with ev := .stepEnd m n } = .next u ∧ (u.moor m).stepns = [] ∧ u.mem = s.mem
        ∧ (u.moor m).gstep.toNat = ((s.moor m).gstep.toNat + inc.toNat) % 2 ^ 24)

/-- R295, R334: a `GOTO` of count 0 always jumps, another jumps as often as its count says and then falls through once; an `END` ends the
stream, and a pre-emption request that waits is served after it. -/
def Sys2Proof.Spec.GotoAndEndNodes : Prop :=
  ∀ (s : State) (m n : Nat) (delay : BitVec 64) (target count : BitVec 32) (r q : List Byte), AtNode s m n → Tidy 0 (s.moor m).gotos →
    nodeBytes s m (n + 1) = some r → nodeDelay r ≠ 0 → nodeBytes s m target.toNat = some q → nodeDelay q ≠ 0 →
    let c := sget 0 (s.moor m).gotos n
    (count = 0 → ∃ t, exec (.goto delay target count) s = .next t ∧ SeeksNode s t m target.toNat q ∧ t.mem = s.mem)
    ∧ (c < count.toNat → ∃ t, exec (.goto delay target count) s = .next t ∧ SeeksNode s t m target.toNat q ∧ t.mem = s.mem
        ∧ sget 0 (t.moor m).gotos n = c + 1)
    ∧ (count ≠ 0 → count.toNat ≤ c → ∃ t, exec (.goto delay target count) s = .next t ∧ SeeksNode s t m (n + 1) r ∧ t.mem = s.mem
        ∧ sget 0 (t.moor m).gotos n = 0)
    ∧ ∃ t, exec (.nodeEnd delay) s = .next t ∧ (t.moor m).atEnd = true ∧ (t.moor m).st = .running ∧ (t.moor m).preempt = [] ∧ t.mem = s.mem
        ∧ t.compl = s.compl ++ (s.moor m).preempt.map fun k => ⟨0x83, m, k, []⟩

/-- R55, R334: a requested pre-emption stops the task before its next node, in that node's cycle: the command pointer stays there,
the Pilot keeps `H0` to `H3` of each core, and no core of the task issues from then on. That it stops in the next node's own cycle,
once a node has run, is the model's choice (log 21). -/
def Sys2Proof.Spec.NodePreemptions : Prop :=
  ∀ (s : State) (m : Nat), s.Canon → m < nMoorings → (s.moor m).st = .running → (s.moor m).preempt ≠ [] → 0 < (s.moor m).nodesRun →
    (s.moor m).nodeAt = s.now → (s.moor m).waiting = none → (s.moor m).atEnd = false →
    ∃ t, exec (.nodePreemption m) s = .next t ∧ (t.moor m).st = .nodeStopped ∧ (t.moor m).frozen = some s.now ∧ (t.moor m).node = (s.moor m).node
      ∧ (t.moor m).preempt = [] ∧ t.compl = s.compl ++ ((s.moor m).preempt.map fun k => ⟨0x83, m, k, []⟩) ∧ t.mem = s.mem
      ∧ (∀ l ∈ (s.moor m).launched, l.begun = true → (l.core, (s.core l.core).h.toList.take 4) ∈ (t.moor m).savedH)
      ∧ ∀ l ∈ (s.moor m).launched, l.begun = true → (s.core l.core).prim.run = .running →
          (t.core l.core).prim = { (s.core l.core).prim with frozen := some s.now } ∧ (t.core l.core).h = (s.core l.core).h

/-- What the nodes of a command stream do. -/
def Obligations.CommandStreamNodes : Prop :=
  Spec.LaunchNodes ∧ Spec.TimelineNodes ∧ Spec.PublishNodes ∧ Spec.WaitNodes ∧ Spec.CheckpointAndStepNodes ∧ Spec.GotoAndEndNodes ∧ Spec.NodePreemptions

namespace Sys2Proof.Spec
open Sys2Proof.Machine Config

/-! ### Stopping a task and going on with it -/

/-- The completion entry of a submission entry that is done (R334, R335), and of one that is refused. -/
def doneEntry (m seq : Nat) : Compl := ⟨0x83, m, seq, []⟩
def refusal (m seq : Nat) : Compl := ⟨0x84, m, seq, []⟩

/-- A task stands still since cycle f and goes on in this one, r: the submission entry `seq` asked for it. -/
structure Resumes (s : State) (m f seq : Nat) (step : Option Nat) : Prop where
  canon : s.Canon
  mooring : m < nMoorings
  frozen : (s.moor m).frozen = some f ∧ f ≤ s.now ∧ (s.now - f) % 10368 = 0
  asked : ∃ t, (s.moor m).resuming = some ⟨seq, step, t⟩ ∧ t ≤ s.now
  written : ∀ v, (s.moor m).vwrite = some v → v < s.now
  free : s.sweepStops m = false ∧ s.thermalHold = false
  normal : (s.moor m).loose = false
  begun : ∀ l ∈ (s.moor m).launched, l.begun = true

end Sys2Proof.Spec

/-- R56, R58, R306, R311, R325: a requested forced pre-emption lands where a core of the task is about to issue the first bundle of
an iteration of a loop marked `.pre` and nothing of the task is outstanding. The task parks: each core that stands at such a bundle
records CAUSE 0x14 at its last bundle, no core of the task issues from this cycle on, and VALID of the records is to be written
last. That one core at such a bundle is enough, and that only those that stand at one record 0x14, is the model's choice (log 21).
-/
def Sys2Proof.Spec.ForcedPreemptionsLand : Prop :=
  (∀ (s : State) (m : Nat), s.Canon → m < nMoorings → (s.moor m).st = .running → (s.moor m).preempt ≠ [] → s.eligible m = true →
    (∃ c ∈ s.taskCores m, (s.core c).prim.atPre = true ∧ (s.core c).prim.frozen = none ∧ (s.core c).prim.nextAt ≤ s.now ∧ (s.core c).prim.hold = .none) →
    ∃ t n, exec (.forcedPreemptionLanding m) s = .next t ∧ (t.moor m).st = .parked ∧ (t.moor m).frozen = some s.now ∧ (t.moor m).forced = true
      ∧ (t.moor m).preempt = [] ∧ (t.moor m).vwrite = some n ∧ s.now < n ∧ (∀ q ∈ (s.moor m).preempt, doneEntry m q ∈ t.compl)
      ∧ (∀ c ∈ s.taskCores m, (t.core c).prim.frozen = some s.now ∧ (t.core c).prim.pc = (s.core c).prim.pc
          ∧ (t.core c).prim.nextAt = (s.core c).prim.nextAt ∧ (t.core c).prim.queue = (s.core c).prim.queue)
      ∧ ∀ c ∈ s.taskCores m, (s.core c).prim.atPre = true → (s.core c).prim.frozen = none → (s.core c).prim.nextAt ≤ s.now →
          (s.core c).prim.hold = .none → TrapRegs (t.core c).prim (s.core c).prim.lastPc 0x14 0 0 false)
  ∧ ∀ (s : State) (m : Nat), m < nMoorings → ((s.moor m).preempt = [] ∨ (s.moor m).st ≠ .running ∨ s.eligible m = false) →
      exec (.forcedPreemptionLanding m) s = .next s

/-- R57, R314, R334: a task that stood still from cycle f on goes on a whole number of frames later: every time of its cores and of its
stream moves by that number, so that its `TCLK` is that of cycle f. A task stopped between two nodes gets `H0` to `H3` of its cores
back. A parked core with a valid record goes on from its registers, with VALID cleared; with a record that is not valid nothing
resumes, and the command is refused. -/
def Sys2Proof.Spec.TasksResume : Prop :=
  (∀ (s : State) (m f seq : Nat), Resumes s m f seq none → (s.moor m).st = .nodeStopped →
    (∀ l ∈ (s.moor m).launched, l.core < nCores) → ((s.moor m).savedH.map (·.1)).Nodup →
    ∃ t, exec (.preemptedTaskResume m) s = .next t ∧ (t.moor m).st = .running ∧ (t.moor m).frozen = none ∧ (t.moor m).resuming = none
      ∧ doneEntry m seq ∈ t.compl ∧ (t.moor m).started = (s.moor m).started + (s.now - f) ∧ (t.moor m).nodeAt = (s.moor m).nodeAt + (s.now - f)
      ∧ (t.moor m).node = (s.moor m).node ∧ t.mem = s.mem
      ∧ (∀ c ∈ s.taskCores m, (t.core c).prim.run = .running ∧ (t.core c).prim.frozen = none ∧ (t.core c).prim.pc = (s.core c).prim.pc
          ∧ (t.core c).prim.nextAt = (s.core c).prim.nextAt + (s.now - f) ∧ (t.core c).prim.tbase = (s.core c).prim.tbase + (s.now - f)
          ∧ (t.core c).prim.queue = (s.core c).prim.queue.map (QEntry.shift (s.now - f)))
      ∧ ∀ x ∈ (s.moor m).savedH, ∀ i : Fin 32, (t.core x.1).h.getD i Reg.zero = if i.val < 4 then x.2.getD i Reg.zero else (s.core x.1).h.getD i Reg.zero)
  ∧ (∀ (s : State) (m f seq c a : Nat) (r : Rec), Resumes s m f seq none → (s.moor m).st = .parked → s.taskCores m = [c] →
    s.recAt c .primary = a → s.readRecord c .primary = r → r.ok = true →
    ∃ t, exec (.preemptedTaskResume m) s = .next t ∧ (t.moor m).st = .running ∧ (t.moor m).frozen = none ∧ doneEntry m seq ∈ t.compl
      ∧ Writes s t (a + 0xB) [0]
      ∧ (t.core c).prim.run = .running ∧ (t.core c).prim.frozen = none ∧ (t.core c).prim.pc.toNat = r.num 0 8 % 2 ^ 56
      ∧ (t.core c).prim.nextAt = s.now + r.num 9 1 ∧ (t.core c).prim.tbase = s.now + r.num 9 1 - r.num 0x18 8
      ∧ (t.core c).prim.trapen.toNat = r.num 0x28 8 % 512 ∧ (t.core c).prim.lnk.toNat = r.num 0x48 7
      ∧ (∀ i : Fin 32, ((t.core c).prim.a.getD i Reg.zero).val.toNat = r.num (0x200 + 8 * i) 8
          ∧ ((t.core c).prim.b.getD i Reg.zero).val.toNat = r.num (0x300 + 8 * i) 8
          ∧ ((t.core c).prim.m.getD i Reg.zero).val.toNat = r.num (0x400 + 8 * i) 8)
      ∧ ∀ i : Fin 16, ((t.core c).prim.f.getD i Reg.zero).val.toNat = r.num (0x500 + 8 * i) 8)
  ∧ ∀ (s : State) (m f seq c : Nat) (r : Rec) (step : Option Nat), Resumes s m f seq step → (s.moor m).st = .parked → c ∈ s.taskCores m →
    s.readRecord c .primary = r → r.ok = false →
    ∃ t, exec (.preemptedTaskResume m) s = .next t ∧ (t.moor m).st = .parked ∧ (t.moor m).resuming = none ∧ t.compl = s.compl ++ [refusal m seq]
      ∧ t.cores = s.cores ∧ t.mem = s.mem

/-- R3, R57, R292: a request that a stopped task can no longer answer by its deadline gets status 4, keeps its slot, and counts as answered;
the task can go on no earlier than at the phase of a frame at which it stopped. R57 says so of a forced pre-emption; that it holds of
every stop, and of a task in loose mode, which can end no earlier than now, is the model's reading of R3 (log 20). -/
def Sys2Proof.Spec.ParkedRequestsEnd : Prop :=
  (∀ (s : State) (m f r mm seq : Nat) (p : Placed), m < nMoorings → ((s.moor m).st = .parked ∨ (s.moor m).st = .nodeStopped) → 0 < (s.moor m).k →
    (s.moor m).frozen = some f → f ≤ r → (s.moor m).resuming = none → (s.moor m).vwrite = none → s.now ≤ r → r < s.now + 10368 → (r - f) % 10368 = 0 →
    f ≤ s.now → (s.moor m).bcap = 1 → (s.moor m).slots = [p] → p.task = (s.moor m).task → p.slot = 0 → p.req.answered = false →
    p.req.src = .host mm seq →
    (p.req.arrival + p.req.deadline * 2700 < (s.moor m).started + (s.moor m).k + (r - f) + (s.moor m).replyb →
      ∃ t b, exec (.parkedRequestDeadlineCheck m) s = .next t ∧ t.compl = s.compl ++ [⟨0x81, mm, seq, b⟩] ∧ b.getD 2 0 = BitVec.ofNat 8 (16 * m + 4)
        ∧ (t.moor m).slots = [{ p with req := { p.req with answered := true } }] ∧ (t.moor m).st = (s.moor m).st ∧ t.mem = s.mem)
    ∧ ((s.moor m).started + (s.moor m).k + (r - f) + (s.moor m).replyb ≤ p.req.arrival + p.req.deadline * 2700 →
      ∃ t, exec (.parkedRequestDeadlineCheck m) s = .next t ∧ t.compl = s.compl ∧ (t.moor m).slots = [p]))
  ∧ ∀ (s : State) (m mm seq : Nat) (p : Placed), m < nMoorings → (s.moor m).st = .running → 0 < s.now →
    (s.moor m).bcap = 1 → (s.moor m).slots = [p] → p.task = (s.moor m).task → p.slot = 0 → p.req.answered = false → p.req.src = .host mm seq →
    ((s.moor m).loose = true → p.req.arrival + p.req.deadline * 2700 < s.now + (s.moor m).replyb →
      ∃ t b, exec (.parkedRequestDeadlineCheck m) s = .next t ∧ t.compl = s.compl ++ [⟨0x81, mm, seq, b⟩] ∧ b.getD 2 0 = BitVec.ofNat 8 (16 * m + 4)
        ∧ (t.moor m).slots = [{ p with req := { p.req with answered := true } }] ∧ (t.moor m).st = .running ∧ t.mem = s.mem)
    ∧ ((s.moor m).loose = false → ∃ t, exec (.parkedRequestDeadlineCheck m) s = .next t ∧ t.compl = s.compl ∧ (t.moor m).slots = [p])

/-- R324: the streamer writes one register that has changed, its value or its state byte, to its place in the record, and marks it clean; the
core itself does not see it. -/
def Sys2Proof.Spec.StreamerWrites : Prop :=
  ∀ (s : State) (c i a : Nat), s.Canon → c < nCores → s.streamItem c = some (i, a) → i < 224 →
    (s.core c).dirty.getLsbD i = true ∧ s.recAt c .primary = a ∧
    ∃ t, exec (.contextStreamerWrite c) s = .next t
      ∧ (i < 112 → Writes s t (a + 0x200 + 8 * i) (natBytes 8 ((fileRegs (s.core c).prim).getD i Reg.zero).val.toNat))
      ∧ (112 ≤ i → Writes s t (a + 0x580 + (i - 112)) [BitVec.ofNat 8 ((fileRegs (s.core c).prim).getD (i - 112) Reg.zero).stateByte])
      ∧ (∀ j < 224, (t.core c).dirty.getLsbD j = ((s.core c).dirty.getLsbD j && decide (j ≠ i)))
      ∧ (t.core c).prim = (s.core c).prim ∧ (t.core c).sec = (s.core c).sec ∧ ∀ d, d ≠ c → t.core d = s.core d

/-- How tasks stop and go on. -/
def Obligations.PreemptionAndResumption : Prop :=
  Spec.ForcedPreemptionsLand ∧ Spec.TasksResume ∧ Spec.ParkedRequestsEnd ∧ Spec.StreamerWrites

namespace Sys2Proof.Spec
open Sys2Proof.Machine Config

/-! ### The host's commands -/

/-- The Pilot takes a well-formed submission entry (R332, R335): a payload of n bytes, a mooring or none, an ARG or none. -/
structure Entry (s : State) (e : SubEntry) (moor arg : Bool) (n : Nat) : Prop where
  canon : s.Canon
  up : s.boot = .up
  next : e.seq = s.subHead ∧ s.subHead < s.subTail
  len : e.payload.length = n ∧ e.len.toNat = n
  zero : e.rsv = 0 ∧ ∀ b ∈ e.tail, b = 0
  mooring : if moor then e.mooring.toNat < nMoorings else e.mooring = 0
  arg : arg = false → e.arg = 0

/-- The command is done, and its completion entry says so; the entry is taken. -/
def Done (s t : State) (e : SubEntry) : Prop := t.compl = s.compl ++ [doneEntry e.mooring.toNat e.seq] ∧ t.subHead = s.subHead + 1

/-- The command is refused: nothing changes but the ring. -/
def Refused (s : State) (e : SubEntry) (i : Instr) : Prop :=
  exec i s = .next { s with subHead := s.subHead + 1, compl := s.compl ++ [refusal e.mooring.toNat e.seq] }

/-- The command is taken, and completes later. -/
def TakenUp (s t : State) : Prop := t.compl = s.compl ∧ t.subHead = s.subHead + 1 ∧ t.mem = s.mem ∧ t.cores = s.cores

end Sys2Proof.Spec

/-- R332, R335, R340: without a Pilot image no submission entry is taken, nor one that is not the next of the ring below its tail;
an entry whose reserved bytes are not 0, or whose LEN is not that of its payload, is refused. The refusal for reserved bytes or a
wrong LEN, what the tail lets be taken, and the ARG of such a refusal are the model's choice (log 22). -/
def Sys2Proof.Spec.EntriesAreChecked : Prop :=
  ∀ (s : State) (e : SubEntry) (pins : List (List Byte)) (chans : List ChanEntry) (grps : List GrpEntry) (i : Instr), s.arrivals = [] →
    i ∈ [Instr.hostLaunchRecord e, .resumeParkedTask e, .stepTask e, .discardParkedTask e, .clearErrorLog e, .clearErrorCounters e,
      .loadMooring e pins chans grps, .startSecondaryStream e, .stopSecondaryStream e, .setLooseMode e, .requestForcedPreemption e] →
    (s.boot ≠ .up → exec i s = .next s) ∧ ((e.seq ≠ s.subHead ∨ s.subTail ≤ s.subHead) → exec i s = .next s)
    ∧ (s.boot = .up → e.seq = s.subHead → s.subHead < s.subTail → (e.rsv ≠ 0 ∨ e.len.toNat ≠ e.payload.length ∨ ∃ b ∈ e.tail, b ≠ 0) → Refused s e i)

/-- R282, R332, R334: a well-formed launch record from the host is taken, and checked and decided as one from a port is. -/
def Sys2Proof.Spec.HostRecords : Prop :=
  ∀ (s : State) (e : SubEntry) (n : Nat), Entry s e true false n → n ≤ 4032 →
    (∃ t, exec (.hostLaunchRecord e) s = .next t ∧ t.subHead = s.subHead + 1 ∧ t.mem = s.mem ∧ t.cores = s.cores)
    ∧ (Arrives s e.payload → RecordFates s (.hostLaunchRecord e) e.payload)

/-- R314, R319, R327, R334: a parked task, or one stopped between two nodes, resumes on request, where its records allow it; a step names one
of its cores and needs a parked task; a discard makes this cycle its discard cycle. A task that runs is neither resumed nor stepped. -/
def Sys2Proof.Spec.ParkedTaskCommands : Prop :=
  ∀ (s : State) (e : SubEntry) (m : Nat), e.mooring.toNat = m → (s.moor m).resuming = none →
    (Entry s e true false 0 → (s.moor m).vwrite = none → ((s.moor m).st = .nodeStopped ∨ ((s.moor m).st = .parked ∧ s.recordsOk m = true)) →
      ∃ t, exec (.resumeParkedTask e) s = .next t ∧ TakenUp s t ∧ (t.moor m).resuming = some ⟨e.seq, none, s.now + 1⟩ ∧ (t.moor m).st = (s.moor m).st)
    ∧ (Entry s e true false 0 → (s.moor m).vwrite = none → (s.moor m).st = .parked → s.recordsOk m = false → Refused s e (.resumeParkedTask e))
    ∧ (Entry s e true false 0 → (s.moor m).st = .running → Refused s e (.resumeParkedTask e) ∧ Refused s e (.discardParkedTask e))
    ∧ (Entry s e true true 0 → (s.moor m).vwrite = none → (s.moor m).st = .parked → s.recordsOk m = true → e.arg.toNat ∈ s.taskCores m →
      ∃ t, exec (.stepTask e) s = .next t ∧ TakenUp s t ∧ (t.moor m).resuming = some ⟨e.seq, some e.arg.toNat, s.now + 1⟩)
    ∧ (Entry s e true true 0 → (e.arg.toNat ∉ s.taskCores m ∨ (s.moor m).st ≠ .parked) → Refused s e (.stepTask e))
    ∧ (Entry s e true false 0 → ((s.moor m).st = .parked ∨ (s.moor m).st = .nodeStopped) →
      ∃ t, exec (.discardParkedTask e) s = .next t ∧ Done s t e ∧ (t.moor m).st = .ending s.now)

/-- R323, R334: the error log is cleared; the counters of one source, or of all of them. -/
def Sys2Proof.Spec.ErrorLogCommands : Prop :=
  ∀ (s : State) (e : SubEntry), Tidy (0, 0) s.counters →
    (Entry s e false false 0 → ∃ t, exec (.clearErrorLog e) s = .next t ∧ Done s t e ∧ t.log = [] ∧ t.logOver = false ∧ t.counters = s.counters)
    ∧ (Entry s e false true 0 → e.arg.toNat = 0xFFFF → ∃ t, exec (.clearErrorCounters e) s = .next t ∧ Done s t e ∧ t.counters = [] ∧ t.log = s.log)
    ∧ (Entry s e false true 0 → e.arg.toNat ≤ 0x180 →
      ∃ t, exec (.clearErrorCounters e) s = .next t ∧ Done s t e ∧ sget (0, 0) t.counters e.arg.toNat = (0, 0) ∧ t.log = s.log
        ∧ ∀ k, k ≠ e.arg.toNat → sget (0, 0) t.counters k = sget (0, 0) s.counters k)
    ∧ (Entry s e false true 0 → 0x180 < e.arg.toNat → e.arg.toNat ≠ 0xFFFF → Refused s e (.clearErrorCounters e))

/-- R287, R288, R293, R333: a load that its checks allow takes the fields of its payload; task 0 starts at the first cycle after the load at
the mooring's phase of a frame; no request is placed and no task runs; `GSTEP` is that of the load. A load that the checks do not allow,
or for which a channel has no room, is refused. -/
def Sys2Proof.Spec.MooringLoads : Prop :=
  ∀ (s : State) (e : SubEntry) (m : Nat) (pins : List (List Byte)) (chans : List ChanEntry) (grps : List GrpEntry), Entry s e true false 512 →
    e.mooring.toNat = m →
    let num (lo n : Nat) : Nat := leNat ((e.payload.drop lo).take n)
    (s.loadOk m ⟨e.payload⟩ pins chans grps = true → (∀ c ∈ chans, (s.placeChan m c).isSome = true) →
      ∃ t k, exec (.loadMooring e pins chans grps) s = .next t ∧ Done s t e ∧ t.moor m = k ∧ k.loaded = true ∧ k.stream = num 0 8 ∧ k.entry = num 8 4
        ∧ k.bcap = num 12 2 ∧ k.period = num 16 8 ∧ k.k = num 24 8 ∧ k.lead = num 36 4 ∧ k.replyb = num 40 4 ∧ k.inarea = num 48 8 ∧ k.istride = num 56 4
        ∧ k.ostride = num 60 4 ∧ k.outarea = num 64 8 ∧ k.worktab = num 72 8 ∧ k.workn = num 80 2 ∧ k.gstep.toNat = num 84 3
        ∧ k.cmask.toNat = num 104 8 ∧ k.key.toNat = num 192 32 ∧ k.slots = [] ∧ k.bulk = [] ∧ k.st = .idle ∧ k.hiReq = none
        ∧ s.now < k.t0 ∧ k.t0 ≤ s.now + 10368 ∧ k.t0 % 10368 = num 32 4
        ∧ ∀ n, n ≠ m → t.moor n = s.moor n)
    ∧ (s.loadOk m ⟨e.payload⟩ pins chans grps = false ∨ (∃ c ∈ chans, s.placeChan m c = none) → Refused s e (.loadMooring e pins chans grps))

/-- R333: what the checks of a load say of its periods: a whole number of frames, a count that leaves 64 cycles of it, a phase that 16
divides inside the frame, and 1 µs for the seal and for the replies; its clusters are no other mooring's. -/
def Sys2Proof.Spec.MooringLimits : Prop :=
  ∀ (s : State) (m : Nat) (bs : List Byte) (pins : List (List Byte)) (chans : List ChanEntry) (grps : List GrpEntry),
    s.loadOk m ⟨bs⟩ pins chans grps = true →
    let num (lo n : Nat) : Nat := leNat ((bs.drop lo).take n)
    (s.moor m).loaded = false ∧ num 16 8 % 10368 = 0 ∧ 10368 ≤ num 16 8 ∧ 1 ≤ num 24 8 ∧ num 24 8 + 64 ≤ num 16 8 ∧ num 32 4 % 16 = 0 ∧ num 32 4 < 10368
      ∧ 2700 ≤ num 36 4 ∧ 2700 ≤ num 40 4 ∧ pins.length = num 128 2 ∧ chans.length = num 144 2 ∧ grps.length = num 160 2
      ∧ ∀ j < nMoorings, (s.moor j).loaded = true → (s.moor j).cmask &&& BitVec.ofNat 64 (num 104 8) = 0

/-- R50, R67, R334: a secondary stream starts at its image within 4,096 cycles, with the eight arguments in `M0` to `M7`, the other `M`
registers 0; one that runs is not started again. A stop ends its stream, and completes later. -/
def Sys2Proof.Spec.SecondaryStreamCommands : Prop :=
  ∀ (s : State) (e : SubEntry) (c : Nat), e.arg.toNat = c →
    let num (lo n : Nat) : Nat := leNat ((e.payload.drop lo).take n)
    (Entry s e false true 128 → c < nCores → num 8 56 = 0 → num 0 8 < 2 ^ 56 →
      ((s.core c).sec.run ≠ .running → ∃ t, exec (.startSecondaryStream e) s = .next t ∧ Done s t e ∧ (t.core c).sec.run = .running
        ∧ (t.core c).sec.pc.toNat = num 0 8 ∧ s.now < (t.core c).sec.nextAt ∧ (t.core c).sec.nextAt ≤ s.now + 4096
        ∧ (∀ i : Fin 32, ((t.core c).sec.m.getD i Reg.zero).val.toNat = if i.val < 8 then num (64 + 8 * i) 8 else 0)
        ∧ (t.core c).prim = (s.core c).prim ∧ t.mem = s.mem ∧ ∀ d, d ≠ c → t.core d = s.core d)
      ∧ ((s.core c).sec.run = .running → Refused s e (.startSecondaryStream e)))
    ∧ (Entry s e false true 0 → c < nCores →
      ((s.core c).sec.run = .running → ∃ t, exec (.stopSecondaryStream e) s = .next t ∧ t.compl = s.compl ∧ t.subHead = s.subHead + 1
        ∧ (t.core c).sec.run = .ended ∧ (t.core c).sec.hold = .none ∧ (t.core c).sec.queue = (s.core c).sec.queue ∧ (t.core c).prim = (s.core c).prim
        ∧ (c, e.seq, s.now) ∈ t.secStops ∧ t.mem = s.mem)
      ∧ ((s.core c).sec.run ≠ .running → Refused s e (.stopSecondaryStream e)))

/-- R326, R334: loose mode of a loaded mooring changes for the tasks that start from now on; a forced pre-emption is requested of a task that
runs, and waits for its boundary. -/
def Sys2Proof.Spec.ModeAndPreemptionCommands : Prop :=
  ∀ (s : State) (e : SubEntry) (m : Nat), e.mooring.toNat = m →
    (Entry s e true true 0 → (s.moor m).loaded = true → e.arg.toNat ≤ 1 →
      ∃ t, exec (.setLooseMode e) s = .next t ∧ Done s t e ∧ (t.moor m).looseNext = decide (e.arg = 1) ∧ (t.moor m).loose = (s.moor m).loose)
    ∧ (Entry s e true true 0 → ((s.moor m).loaded = false ∨ 1 < e.arg.toNat) → Refused s e (.setLooseMode e))
    ∧ (Entry s e true false 0 → (s.moor m).st = .running →
      ∃ t, exec (.requestForcedPreemption e) s = .next t ∧ TakenUp s t ∧ (t.moor m).preempt = (s.moor m).preempt ++ [e.seq] ∧ (t.moor m).st = .running)
    ∧ (Entry s e true false 0 → (s.moor m).st ≠ .running → Refused s e (.requestForcedPreemption e))

/-- What the entries of the submission ring ask for. -/
def Obligations.HostCommands : Prop :=
  Spec.EntriesAreChecked ∧ Spec.HostRecords ∧ Spec.ParkedTaskCommands ∧ Spec.ErrorLogCommands ∧ Spec.SecondaryStreamCommands
    ∧ Spec.ModeAndPreemptionCommands

/-- Loading a mooring. -/
def Obligations.LoadsOfMoorings : Prop := Spec.MooringLoads ∧ Spec.MooringLimits

namespace Sys2Proof.Spec
open Sys2Proof.Machine Config

/-! ### The host's accesses, and the registers that it writes -/

/-- A register write that its rule refuses: nothing changes. -/
def Ignored (s : State) (i : Instr) : Prop := exec i s = .next s

end Sys2Proof.Spec

/-- R203, R229, R331: a host access of SRAM is an open access of its granule; one of HBM joins the requests of its channel's open share. Neither
changes memory before it is served. -/
def Sys2Proof.Spec.HostAccesses : Prop :=
  ∀ (s : State) (addr : Nat) (write : Bool) (bytes : List Byte), s.Canon → bytes ≠ [] →
    (addr % 16 + bytes.length ≤ 16 → (resOf addr).isSome = true →
      ∃ t, exec (.hostSramAccess addr write bytes) s = .next t ∧ t.mem = s.mem ∧ t.cores = s.cores
        ∧ t.accesses = s.accesses ++ [⟨s.nextId, s.now, .host, .phys addr, if write then .hostWrite bytes else .hostRead bytes.length, write, true, .any, 0,
            s.now, s.nextId⟩])
    ∧ (addr % 64 + bytes.length ≤ 64 → hbmBase ≤ addr → addr + bytes.length ≤ hbmBase + hbmBytes →
      ∃ t, exec (.hostHbmAccess addr write bytes) s = .next t ∧ t.mem = s.mem ∧ t.cores = s.cores ∧ t.accesses = s.accesses
        ∧ (t.chan (hbmChan addr)).openq = (s.chan (hbmChan addr)).openq ++ [⟨addr, write, if write then bytes else [], false, bytes.length, .host, s.nextId⟩]
        ∧ ∀ c, c ≠ hbmChan addr → t.chan c = s.chan c)

/-- R300, R311, R331, R414: `CTXBASE` of a core whose task and secondary stream stand still, and `EBBTAB` and `LENS` of a mooring whose task does
not run, are written, aligned as R414 says; any other write leaves them. -/
def Sys2Proof.Spec.MooringRegisters : Prop :=
  ∀ (s : State) (c m : Nat) (v : BitVec 64), s.Canon → c < nCores → m < nMoorings →
    (v.toNat % 4096 = 0 → v.toNat + 0xAC20 ≤ spadBytes → (∀ k, s.moorOf c = some k → (s.moor k).st.active = false) → (s.core c).sec.run ≠ .running →
      ∃ t, exec (.hostMooringRegisterWrite (.ctxbase c) v) s = .next t ∧ t.core c = { s.core c with ctxbase := v.setWidth 56 } ∧ t.mem = s.mem
        ∧ t.moorings = s.moorings ∧ ∀ d, d ≠ c → t.core d = s.core d)
    ∧ ((v.toNat % 4096 ≠ 0 ∨ spadBytes < v.toNat + 0xAC20 ∨ (∃ k, s.moorOf c = some k ∧ (s.moor k).st = .running) ∨ (s.core c).sec.run = .running) →
      Ignored s (.hostMooringRegisterWrite (.ctxbase c) v))
    ∧ ((s.moor m).st.active = false → v.toNat % 32 = 0 → spadBytes ≤ v.toNat →
      ∃ t, exec (.hostMooringRegisterWrite (.lens m) v) s = .next t ∧ (t.moor m).lens = v ∧ t.mem = s.mem ∧ t.cores = s.cores)
    ∧ ((s.moor m).st.active = false → v.toNat % 128 = 0 → spadBytes ≤ v.toNat →
      ∃ t, exec (.hostMooringRegisterWrite (.ebbtab m) v) s = .next t ∧ (t.moor m).ebbtab = v ∧ (t.moor m).regions.length = 16
        ∧ (∀ x ∈ (t.moor m).regions, x.last = (s.moor m).gstep.toNat % 2 ^ 24) ∧ t.cores = s.cores)
    ∧ ((s.moor m).st = .running → Ignored s (.hostMooringRegisterWrite (.lens m) v) ∧ Ignored s (.hostMooringRegisterWrite (.ebbtab m) v))

/-- R215, R252, R293, R340: a share map without a reserved code waits for its frame boundary, another is refused; a cap that the loaded moorings
exceed, or above 1,600 W, is refused; the routine table is loaded from an image that passes every check, and from no other. -/
def Sys2Proof.Spec.PilotRegisters : Prop :=
  ∀ (s : State), s.Canon →
    (∀ (c : Nat) (map : Vector (BitVec 64) 3), c < nChannels →
      (s.boot = .up → (∀ w < 48, mapCode map w < 14) → ∃ t, exec (.shareMapWrite c map) s = .next t ∧ (t.chan c).newMap = some map
        ∧ (t.chan c).map = (s.chan c).map ∧ t.moorings = s.moorings ∧ ∀ d, d ≠ c → t.chan d = s.chan d)
      ∧ ((∃ w < 48, 14 ≤ mapCode map w) → Ignored s (.shareMapWrite c map)))
    ∧ (∀ w, w ≤ 1600 → s.watts.1 ≤ w * s.watts.2 → exec (.powerCapWrite w) s = .next { s with powerCap := w })
    ∧ (∀ w, (1600 < w ∨ w * s.watts.2 < s.watts.1) → Ignored s (.powerCapWrite w))
    ∧ ∀ (i : FwImage) (r en n : Nat), r < 64 →
      (s.boot = .up → i.kind = .routines → i.digest = sha384 i.body → i.ed25519.length = 64 → ed25519Ok (fusedKey 0) i.body i.ed25519 = true →
        i.mldsa.length = 3309 → mlDsaOk (fusedKey 1) i.body i.mldsa = true → sget 0 s.fuses 1 ≤ i.version →
        ∃ t, exec (.routineTableLoad i [(r, en, n)]) s = .next t ∧ t.routines = [(r, ⟨true, n, en⟩)] ∧ t.hostReadRoutine r = (true, en, n) ∧ i ∈ t.images ∧ t.mem = s.mem)
      ∧ ((i.digest ≠ sha384 i.body ∨ i.ed25519.length ≠ 64 ∨ ed25519Ok (fusedKey 0) i.body i.ed25519 = false ∨ i.mldsa.length ≠ 3309 ∨ mlDsaOk (fusedKey 1) i.body i.mldsa = false
          ∨ i.version < sget 0 s.fuses (fwCode i.kind)) → Ignored s (.routineTableLoad i [(r, en, n)]))

/-- R165, R218, R226, R232, R332, R336, R339: the other registers take a value that their rule allows, and keep theirs else; a host
read of one gives its value (R331). A tail of the submission ring stays within its ring (the model's choice, log 22). That a
register keeps its value for one that its rule does not allow, and the form of the ring registers (k in the low six bits), are the
model's choice too (log 22). -/
def Sys2Proof.Spec.HostRegisters : Prop :=
  ∀ (s : State) (v : BitVec 64) (c m p : Nat), s.Canon → Tidy Plane.init s.planes → c < nChannels → m < nMoorings → p < 16 →
    (v.toNat < 65536 → exec (.hostRegisterWrite .udpPort v) s = .next { s with udpPort := v.toNat })
    ∧ (8 ≤ v.toNat → v.toNat ≤ 63 → ∃ t, exec (.hostRegisterWrite (.checker c tRCD) v) s = .next t ∧ (t.chan c).p tRCD = v.toNat
        ∧ t.hostRead (.checker c tRCD) = v ∧ ∀ i, i ≠ tRCD → (t.chan c).p i = (s.chan c).p i)
    ∧ ((v.toNat < 1024 ∨ 8191 < v.toNat) → Ignored s (.hostRegisterWrite (.checker c tREFI) v))
    ∧ (64 ≤ v.toNat → v.toNat ≤ 65535 → ∃ t, exec (.hostRegisterWrite (.disturbT c) v) s = .next t ∧ (t.chan c).thr = v.toNat ∧ t.hostRead (.disturbT c) = v)
    ∧ (v ≠ 0 → ∃ t, exec (.hostRegisterWrite (.disturbRefw c) v) s = .next t ∧ (t.chan c).refw = v.toNat ∧ t.hostRead (.disturbRefw c) = v)
    ∧ (240 ≤ v.toNat → v.toNat ≤ 104880 → v.toNat % 240 = 0 → ∃ t, exec (.hostRegisterWrite (.clquota p) v) s = .next t ∧ (t.plane p).quota = v.toNat ∧ t.hostRead (.clquota p) = v)
    ∧ (v.toNat < 240 → Ignored s (.hostRegisterWrite (.clquota p) v))
    ∧ (4 ≤ v.toNat % 64 → v.toNat % 64 ≤ 12 → exec (.hostRegisterWrite .submissionRing v) s = .next { s with subRing := v })
    ∧ (s.subTail ≤ v.toNat → v.toNat ≤ s.subHead + ringSize s.subRing →
        exec (.hostRegisterWrite .submissionTail v) s = .next { s with subTail := v.toNat })
    ∧ ((v.toNat < s.subTail ∨ s.subHead + ringSize s.subRing < v.toNat) → Ignored s (.hostRegisterWrite .submissionTail v))
    ∧ (s.complHead ≤ v.toNat → v.toNat ≤ s.complHead + s.compl.length → ∃ t, exec (.hostRegisterWrite .completionHead v) s = .next t
        ∧ t.complHead = v.toNat ∧ t.compl = s.compl.drop (v.toNat - s.complHead))
    ∧ (v.toNat < 2 ^ 32 → ∃ t, exec (.hostRegisterWrite (.tlrgn c m) v) s = .next t ∧ (t.chan c).tlrgn.getD m 0 = v
        ∧ t.hostRead (.tlrgn c m) = v ∧ ∀ k, k ≠ m → (t.chan c).tlrgn.getD k 0 = (s.chan c).tlrgn.getD k 0)
    ∧ (∀ i, i < 8192 → Tidy 0 (s.chan c).store → ∃ t, exec (.hostRegisterWrite (.timelineWord c i) v) s = .next t ∧ sget 0 (t.chan c).store i = v ∧ t.hostRead (.timelineWord c i) = v)
    ∧ Ignored s (.hostRegisterWrite .eolpred v) ∧ (∀ k, Ignored s (.hostRegisterWrite (.errorLog k) v)) ∧ Ignored s (.hostRegisterWrite (.errorCounter c) v)

/-- What the host's accesses and register writes do. -/
def Obligations.HostAccessesAndRegisters : Prop :=
  Spec.HostAccesses ∧ Spec.MooringRegisters ∧ Spec.PilotRegisters ∧ Spec.HostRegisters

namespace Sys2Proof.Spec
open Sys2Proof.Machine Config

/-! ### The network and the platform -/

/-- An ICMPv6 frame for one of the Pilot's addresses, which stands in the frame from byte n on. -/
structure ForPilot (s : State) (f : List Byte) (typ n : Nat) : Prop where
  up : s.boot = .up
  long : 62 ≤ f.length ∧ n + 16 ≤ f.length
  icmp : f.getD 12 0 = 0x86 ∧ f.getD 13 0 = 0xDD ∧ f.getD 20 0 = 58 ∧ f.getD 54 0 = BitVec.ofNat 8 typ ∧ typ < 256
  own : ∃ i, (i, beNum f n 16) ∈ s.ipAddrs

end Sys2Proof.Spec

/-- R337 (frame formats: the model's, log 19): an echo request to an address of the Pilot's is answered with its own data, and a neighbour
solicitation with the port's link-layer address; any other frame is dropped and counted. -/
def Sys2Proof.Spec.FramesAreAnswered : Prop :=
  ∀ (s : State) (p : Nat) (f : List Byte), p < 2 →
    (ForPilot s f 128 38 → ∃ t r, exec (.icmpv6Echo p f) s = .next t ∧ t.frames = s.frames ++ [⟨p, r⟩] ∧ r.take 6 = (f.drop 6).take 6
        ∧ r.getD 54 0 = 129 ∧ (r.drop 22).take 16 = (f.drop 38).take 16 ∧ (r.drop 38).take 16 = (f.drop 22).take 16
        ∧ r.drop 58 = (f.drop 58).take (beNum f 18 2 - 4) ∧ t.mem = s.mem ∧ t.moorings = s.moorings ∧ t.drops = s.drops)
    ∧ (ForPilot s f 135 62 → ∃ t r, exec (.icmpv6NeighbourDiscovery p f) s = .next t ∧ t.frames = s.frames ++ [⟨p, r⟩] ∧ r.take 6 = (f.drop 6).take 6
        ∧ r.getD 54 0 = 136 ∧ (r.drop 62).take 16 = (f.drop 62).take 16 ∧ r.drop 80 = natBytes 6 (portMac p).toNat ∧ t.mem = s.mem
        ∧ t.moorings = s.moorings ∧ t.drops = s.drops)
    ∧ (s.boot = .up → (∀ i, (i, beNum f 38 16) ∉ s.ipAddrs) → ∃ t, exec (.icmpv6Echo p f) s = .next t ∧ t.frames = s.frames
        ∧ sget 0 t.drops p = sget 0 s.drops p + 1)
    ∧ (s.boot = .up → ∃ t, exec (.unsupportedFrame p) s = .next t ∧ t.frames = s.frames ∧ sget 0 t.drops p = sget 0 s.drops p + 1 ∧ t.mem = s.mem
        ∧ t.moorings = s.moorings)
    ∧ (s.boot ≠ .up → exec (.unsupportedFrame p) s = .next s ∧ exec (.icmpv6Echo p f) s = .next s)

/-- R165, R341, R342: an attestation of a 32-byte nonce, by the management firmware, begins with the nonce; without it there is
none. `EOLPRED` takes its value from that firmware, with its reserved bits 0. The place of the nonce is the model's (log 22). -/
def Sys2Proof.Spec.HealthAndAttestation : Prop :=
  ∀ (s : State) (nonce : List Byte) (v : BitVec 64),
    (nonce.length = 32 → (∃ i ∈ s.images, i.kind = .management) → ∃ t, exec (.attestationRequest nonce) s = .next t ∧ t.lastReport.take 32 = nonce
      ∧ t.mem = s.mem ∧ t.cores = s.cores ∧ t.moorings = s.moorings)
    ∧ ((∀ i ∈ s.images, i.kind ≠ .management) → exec (.attestationRequest nonce) s = .next s)
    ∧ (s.boot = .up → (∃ i ∈ s.images, i.kind = .management) → ∃ t, exec (.eolpredUpdate v) s = .next t ∧ t.eolpred.toNat = v.toNat % 2 ^ 56
      ∧ t.hostRead .eolpred = t.eolpred ∧ t.mem = s.mem ∧ t.cores = s.cores ∧ t.moorings = s.moorings)
    ∧ ((s.boot ≠ .up ∨ ∀ i ∈ s.images, i.kind ≠ .management) → exec (.eolpredUpdate v) s = .next s)

/-- R52, R340: a power-on reset brings every register and every queue to its reset value; firmware, fuses and what is outside the package stay;
an image that passes its checks is loaded. The Pilot starts where its image is there and passes; else the device stays in its boot
state, with the failing check. The Pilot programs each channel's checker from its stack's parameter block (R226); a value outside its range
counts as the default (the model's choice, log 18). -/
def Sys2Proof.Spec.PowerOnResets : Prop :=
  ∀ s : State, ∃ t, exec .powerOnReset s = .next t
    ∧ { t with inputs := State.reset.inputs, flash := State.reset.flash, fuses := State.reset.fuses, fixedDraw := State.reset.fixedDraw, free := State.reset.free,
               images := State.reset.images, boot := State.reset.boot, stackPar := State.reset.stackPar, channels := State.reset.channels } = State.reset
    ∧ t.flash = s.flash ∧ t.fuses = s.fuses ∧ t.stackPar = s.stackPar ∧ (∀ i, i ∈ t.images ↔ i ∈ s.flash ∧ s.fwFails i = 0)
    ∧ (∀ i, s.flash = [i] → i.kind = .pilot → s.fwFails i = 0 → t.boot = .up)
    ∧ (∀ i, s.flash = [i] → i.kind = .pilot → s.fwFails i ≠ 0 → t.boot = .boot (s.fwFails i))
    ∧ ((∀ i ∈ s.flash, i.kind ≠ .pilot) → t.boot ≠ .up)
    ∧ (t.boot ≠ .up → t.channels = [])
    ∧ (t.boot = .up → ∀ ch < nChannels, ∀ i : Fin 15, (t.chan ch).params[i] =
        let v := (sget defaultParams s.stackPar (ch / 32))[i]
        if inRange v (paramRanges.getD i.val (1, 0)) then v else defaultParams[i])
    ∧ ∀ i, s.fwFails i = 0 → i.digest = sha384 i.body ∧ ed25519Ok (fusedKey 0) i.body i.ed25519 = true ∧ mlDsaOk (fusedKey 1) i.body i.mldsa = true
        ∧ sget 0 s.fuses (fwCode i.kind) ≤ i.version

/-- R343: at the thermal limit every running task is discarded, and no task starts until the condition clears. That a task not
started for heat is skipped with its requests is the model's reading (log 20). -/
def Sys2Proof.Spec.ThermalEvents : Prop :=
  ∀ (s : State), s.boot = .up →
    (∃ t, exec .thermalLimit s = .next t ∧ t.thermalHold = true ∧ t.mem = s.mem
      ∧ (∀ m < nMoorings, (s.moor m).st = .running → (t.moor m).st = .ending (s.now + 8))
      ∧ ∀ m < nMoorings, (s.moor m).st ≠ .running → (s.moor m).st ≠ .parking → t.moor m = s.moor m)
    ∧ (∀ m n, m < nMoorings → s.thermalHold = true → (s.moor m).startNow s.now = some n →
        ∃ t, exec (.taskStart m) s = .next t ∧ (t.moor m).st = (s.moor m).st ∧ ∀ p ∈ (t.moor m).slots, p.task ≠ n)
    ∧ exec .thermalConditionClear s = .next { s with thermalHold := false }

/-- R215, R232: at a frame boundary a written map comes into force on its channel once no task that it concerns runs, and every REFW frames the
trackers of the banks clear. -/
def Sys2Proof.Spec.FrameBoundaries : Prop :=
  ∀ (s : State) (c : Nat), s.Canon → ∃ t, exec .frameBoundary s = .next t ∧ t.mem = s.mem ∧ t.cores = s.cores ∧ t.moorings = s.moorings
    ∧ (∀ n, (s.chan c).newMap = some n → s.mapFree (s.chan c).map n = true → (t.chan c).map = n ∧ (t.chan c).newMap = none)
    ∧ (∀ n, (s.chan c).newMap = some n → s.mapFree (s.chan c).map n = false → (t.chan c).map = (s.chan c).map ∧ (t.chan c).newMap = some n)
    ∧ ((s.chan c).newMap = none → (t.chan c).map = (s.chan c).map)
    ∧ (s.now / 10368 % (s.chan c).refw = 0 → ∀ e ∈ (t.chan c).banks, e.2.tracker = [])

/-- What the network and the platform bring. -/
def Obligations.NetworkAndPlatformEvents : Prop :=
  Spec.FramesAreAnswered ∧ Spec.HealthAndAttestation ∧ Spec.PowerOnResets ∧ Spec.ThermalEvents ∧ Spec.FrameBoundaries

namespace Sys2Proof.Spec
open Sys2Proof.Machine Config

/-! ### Timeline words -/

/-- The word at which a mooring's timeline stands runs in clock x, with no `NMX` still running. -/
structure AtWord (s : State) (ch o : Nat) (tl : Tl) (x : Nat) : Prop where
  canon : s.Canon
  ev : s.ev = .tl ch o
  own : o < nMoorings
  channel : ch < nChannels
  stands : (s.chan ch).tl o = some tl
  clock : clockOf s.now = x
  free : tl.nmxEnd ≤ x

/-- The house's slot runs in clock x (R230). -/
structure AtHouse (s : State) (ch x : Nat) : Prop where
  canon : s.Canon
  ev : s.ev = .tl ch 12
  clock : clockOf s.now = x

/-- The timeline at word `pos`: its DELAY in the mooring's own clocks counts from the word before (R219, R223). -/
def seekTl (k : Channel) (tl : Tl) (pos : Nat) : Tl :=
  { tl with
    pos := pos, oclk := tl.oclk + k.delayAt tl.owner pos
    due := k.ownerClock tl.owner tl.w0 (tl.oclk + k.delayAt tl.owner pos) }

/-- The timeline goes on to a word, which is not due in this clock. -/
def GoesTo (s t : State) (ch o : Nat) (tl : Tl) (pos : Nat) : Prop := (t.chan ch).tl o = some (seekTl (s.chan ch) tl pos)
def DueLater (s : State) (ch : Nat) (tl : Tl) (pos x : Nat) : Prop := (seekTl (s.chan ch) tl pos).due ≠ x

/-- A timeline fault (R228): the timeline stops, its task is discarded, and a fault record names CODE 0x10, the channel, the word and the rule
(R448). The word has no effect on memory. -/
structure TlFaults (s t : State) (ch o word rule : Nat) : Prop where
  stops : (t.chan ch).tl o = none
  task : (t.moor o).st = .ending (s.now + 8)
  record : s.compl = [] → ∃ p, t.compl = [⟨0x82, o, 0, p⟩] ∧ leNat ((p.drop 16).take 8) = 0x10 + ch * 2 ^ 8 + word % 2 ^ 16 * 2 ^ 16 + rule * 2 ^ 32
  mem : t.mem = s.mem

/-- An interval of n clocks from an earlier command has ended at x. -/
def Over (c : Option Nat) (n x : Nat) : Prop := ∀ a, c = some a → a + n ≤ x

/-- The rules on every command to a bank (R226). -/
def AnyOk (k : Channel) (pc b x : Nat) : Prop := Over (k.pch pc).ref (k.p tRFC) x ∧ Over (k.bank pc b).sb (k.p tRFCsb) x

/-- The rules on activates of one pseudo-channel (R226): tRRD to the same and to other bank groups, and at most four in tFAW. -/
def ActivateOk (k : Channel) (pc b x : Nat) : Prop :=
  (∀ a ∈ (k.pch pc).acts, (a.2 ≠ b / 4 → a.1 + k.p tRRDS ≤ x) ∧ (a.2 = b / 4 → a.1 + k.p tRRDL ≤ x))
    ∧ ((k.pch pc).acts.filter fun a => decide (x < a.1 + k.p tFAW)).length < 4

/-- The rules on a column command of an open row (R226). -/
def ColumnOk (k : Channel) (pc b x : Nat) (read : Bool) : Prop :=
  Over (k.bank pc b).act (k.p tRCD) x ∧ (∀ a ∈ (k.pch pc).cols, (a.2 ≠ b / 4 → a.1 + k.p tCCDS ≤ x) ∧ (a.2 = b / 4 → a.1 + k.p tCCDL ≤ x))
    ∧ Over (k.pch pc).crd 6 x ∧ (read = true → Over (k.pch pc).wr (k.p tWTR) x) ∧ AnyOk k pc b x

/-- The rules on the `PRE` of an open bank (R226). -/
def PrechargeOk (k : Channel) (pc b x : Nat) : Prop :=
  Over (k.bank pc b).act (k.p tRAS) x ∧ Over (k.bank pc b).wrc (k.p tWR) x ∧ Over (k.bank pc b).rdc (k.p tRTP) x ∧ AnyOk k pc b x

/-- The row of a word, with the terms of the open repeats, as an absolute row of its mooring's range (R218, R222, R223). -/
def RowIs (s : State) (ch o : Nat) (tl : Tl) (row : BitVec 18) (r : Nat) : Prop :=
  ∃ v : Nat, (v : Int) = row.toNat + (tl.reps.map (·.dr)).sum ∧ v < 2 ^ 18 ∧ v < (s.chan ch).rcount o ∧ r = (s.chan ch).rbase o + v

/-- A column word's place (R217, R222, R225): an open row, a granule, and a landing unit near or on the I/O die. -/
structure ColIs (s : State) (ch o : Nat) (tl : Tl) (f : TlCol) (pa key : Nat) (io : Bool) : Prop where
  row : ∃ r c l : Nat, RowIs s ch o tl f.row r ∧ (c : Int) = f.col.toNat + (tl.reps.map (·.dc)).sum ∧ c < 64
    ∧ (l : Int) = (f.land.toNat % 2048 : Nat) + (tl.reps.map (·.dl)).sum ∧ l < 2048
    ∧ landUnit ch (f.land.toNat / 2048) l = some (key, io) ∧ pa = hbmAddr ch f.pc.toNat f.bank.toNat r c
    ∧ ((s.chan ch).bank f.pc.toNat f.bank.toNat).row = some r ∧ ((s.chan ch).bank f.pc.toNat f.bank.toNat).closeAt = none

end Sys2Proof.Spec

/-- R222, R226, R228: `ACT` opens the row of a closed bank where every interval has ended and its own end in time; on an open bank, or
inside tRP, it is a timeline fault and opens nothing. -/
def Sys2Proof.Spec.Activates : Prop :=
  ∀ (s : State) (ch o x : Nat) (tl : Tl) (f : TlBank) (row : BitVec 18) (r : Nat), AtWord s ch o tl x → RowIs s ch o tl row r →
    let k := s.chan ch
    let pc := f.pc.toNat
    let b := f.bank.toNat
    (((k.bank pc b).row = none ∨ (k.bank pc b).closeAt ≠ none) → k.rowClk ≠ some x → Over (k.bank pc b).closed (k.p tRP) x → Over (k.bank pc b).act (k.p tRC) x →
      ActivateOk k pc b x → AnyOk k pc b x → s.runsPast ch x (x + maxOf [k.p tRCD, k.p tRAS, k.p tRC, k.p tRRDS, k.p tRRDL, k.p tFAW]) = false →
      DueLater s ch tl (tl.pos + 1) x →
      ∃ t, exec (.act f row) s = .next t ∧ GoesTo s t ch o tl (tl.pos + 1) ∧ t.mem = s.mem ∧ t.moorings = s.moorings
        ∧ ((t.chan ch).bank pc b).row = some r ∧ ((t.chan ch).bank pc b).closeAt = none ∧ ((t.chan ch).bank pc b).act = some x
        ∧ ((t.chan ch).bank pc b).actOwner = o ∧ (x, b / 4) ∈ ((t.chan ch).pch pc).acts
        ∧ ∀ p < 2, ∀ i < 16, (p, i) ≠ (pc, b) → (t.chan ch).bank p i = k.bank p i)
    ∧ ((s.moor o).st = .running → (k.bank pc b).row ≠ none → (k.bank pc b).closeAt = none →
      ∃ t, exec (.act f row) s = .next t ∧ TlFaults s t ch o tl.pos 0x11)
    ∧ ((s.moor o).st = .running → (k.bank pc b).row = none → k.rowClk ≠ some x → ¬Over (k.bank pc b).closed (k.p tRP) x →
      ∃ t, exec (.act f row) s = .next t ∧ TlFaults s t ch o tl.pos 2)

/-- R222, R226: `PRE` closes its open bank, `PREA` those of its pseudo-channel; a closed bank stays as it is. Inside tRAS, `PRE` is a timeline
fault. -/
def Sys2Proof.Spec.Precharges : Prop :=
  ∀ (s : State) (ch o x : Nat) (tl : Tl) (f : TlBank) (delay : BitVec 10), AtWord s ch o tl x → (s.chan ch).rowClk ≠ some x →
    let k := s.chan ch
    let pc := f.pc.toNat
    let b := f.bank.toNat
    ((k.bank pc b).isOpen = true → PrechargeOk k pc b x → s.runsPast ch x (x + k.p tRP) = false → DueLater s ch tl (tl.pos + 1) x →
      ∃ t, exec (.pre f) s = .next t ∧ GoesTo s t ch o tl (tl.pos + 1) ∧ t.mem = s.mem ∧ t.moorings = s.moorings
        ∧ ((t.chan ch).bank pc b).row = none ∧ ((t.chan ch).bank pc b).pre = some x
        ∧ ∀ p < 2, ∀ i < 16, (p, i) ≠ (pc, b) → (t.chan ch).bank p i = k.bank p i)
    ∧ ((k.bank pc b).isOpen = false → AnyOk k pc b x → DueLater s ch tl (tl.pos + 1) x →
      ∃ t, exec (.pre f) s = .next t ∧ GoesTo s t ch o tl (tl.pos + 1) ∧ t.mem = s.mem ∧ (t.chan ch).banks = k.banks)
    ∧ ((s.moor o).st = .running → (k.bank pc b).isOpen = true → ¬Over (k.bank pc b).act (k.p tRAS) x →
      ∃ t, exec (.pre f) s = .next t ∧ TlFaults s t ch o tl.pos 3 ∧ ((t.chan ch).bank pc b).row = (k.bank pc b).row
        ∧ ((t.chan ch).bank pc b).cleanup = decide ((k.bank pc b).cleanup = true ∨ (k.bank pc b).actOwner = o))
    ∧ ((∀ i < 16, AnyOk k pc i x ∧ ((k.bank pc i).isOpen = true → PrechargeOk k pc i x)) → s.runsPast ch x (x + k.p tRP) = false →
      DueLater s ch tl (tl.pos + 1) x →
      ∃ t, exec (.prea delay f.pc) s = .next t ∧ GoesTo s t ch o tl (tl.pos + 1) ∧ t.mem = s.mem
        ∧ ∀ i < 16, ((k.bank pc i).isOpen = true → ((t.chan ch).bank pc i).row = none ∧ ((t.chan ch).bank pc i).pre = some x)
          ∧ ((k.bank pc i).isOpen = false → (t.chan ch).bank pc i = k.bank pc i))

/-- R222, R225 to R227: `RD` and `RDA` read the granule of the open row in their clock, and its bytes land 40 clocks later, 56 on
the I/O die; `RDA` closes the bank at the later of tRTP and tRAS. Inside tRCD a read is a timeline fault. tCCD counts within a
pseudo-channel: the model's choice (log 18). -/
def Sys2Proof.Spec.ColumnReads : Prop :=
  ∀ (s : State) (ch o x pa key : Nat) (io : Bool) (tl : Tl) (f : TlCol), AtWord s ch o tl x → ColIs s ch o tl f pa key io →
    let k := s.chan ch
    let pc := f.pc.toNat
    let b := f.bank.toNat
    let close := max (x + k.p tRTP) (((k.bank pc b).act.map (· + k.p tRAS)).getD 0)
    let err := s.readErr pa
    (k.colClk ≠ some x → ColumnOk k pc b x true → x % 128 ≤ 103 → DueLater s ch tl (tl.pos + 1) x →
      (s.runsPast ch x (x + maxOf [k.p tCCDS, k.p tCCDL, k.p tRTP]) = false →
        ∃ t, exec (.rd f) s = .next t ∧ GoesTo s t ch o tl (tl.pos + 1) ∧ t.mem = s.mem ∧ t.moorings = s.moorings
          ∧ (t.chan ch).landings = k.landings ++ [⟨s.nextId, cyc (x + (if io then 56 else 40)), key, s.bytes pa 64, err == 2, pa, err⟩]
          ∧ (t.chan ch).bank pc b = { k.bank pc b with rdc := some x })
      ∧ (s.runsPast ch x (max (close + k.p tRP) (x + max (k.p tCCDS) (k.p tCCDL))) = false →
        ∃ t, exec (.rda f) s = .next t ∧ GoesTo s t ch o tl (tl.pos + 1) ∧ t.mem = s.mem ∧ t.moorings = s.moorings
          ∧ (t.chan ch).landings = k.landings ++ [⟨s.nextId, cyc (x + (if io then 56 else 40)), key, s.bytes pa 64, err == 2, pa, err⟩]
          ∧ (t.chan ch).bank pc b = { k.bank pc b with rdc := some x, closeAt := some close }))
    ∧ ((s.moor o).st = .running → k.colClk ≠ some x → ¬Over (k.bank pc b).act (k.p tRCD) x →
      ∃ t, exec (.rd f) s = .next t ∧ TlFaults s t ch o tl.pos 1 ∧ (t.chan ch).landings = k.landings)

/-- R212, R213, R225: `CRD` reads logical sector COL of the page in the open row, 8 clocks later than a read: a zero sector, 64 raw bytes, or 32
values of 16 bits as a base and packed signed deltas of 4 bits. -/
def Sys2Proof.Spec.CompressedReads : Prop :=
  ∀ (s : State) (ch o x pa key : Nat) (io : Bool) (tl : Tl) (f : TlCol), AtWord s ch o tl x → ColIs s ch o tl f pa key io →
    let k := s.chan ch
    let frame := pa / 4096 * 4096
    let d := s.num (frame + 2 * (pa / 64 % 64)) 2
    let at_ := frame + 16 * (d / 64 % 256)
    k.colClk ≠ some x → ColumnOk k f.pc.toNat f.bank.toNat x true → x % 128 ≤ 103 → DueLater s ch tl (tl.pos + 1) x →
    s.runsPast ch x (x + maxOf [6, 4 + k.p tCCDS, 4 + k.p tCCDL, k.p tRTP]) = false → s.poison = [] → s.errs = [] → d % 64 = 0 →
    ∀ bs : List Byte, (d = 0 ∧ bs = List.replicate 64 0) ∨ (d / 2 ^ 14 = 1 ∧ 8 ≤ d / 64 % 256 ∧ 16 * (d / 64 % 256) + 64 ≤ 4096 ∧ bs = s.bytes at_ 64)
        ∨ (d / 2 ^ 14 = 2 ∧ 8 ≤ d / 64 % 256 ∧ 16 * (d / 64 % 256) + 18 ≤ 4096 ∧ bs = (List.range 32).flatMap fun i =>
            natBytes 2 (((s.num at_ 2 : Int) + (let n := s.num (at_ + 2) 16 / 16 ^ i % 16
              if n < 8 then (n : Int) else (n : Int) - 16)) % 2 ^ 16).toNat) →
      ∃ t, exec (.crd f) s = .next t ∧ GoesTo s t ch o tl (tl.pos + 1) ∧ t.mem = s.mem ∧ t.moorings = s.moorings
        ∧ (t.chan ch).landings = k.landings ++ [⟨s.nextId, cyc (x + (if io then 64 else 48)), key, bs, false, 0, 0⟩]
        ∧ ((t.chan ch).pch f.pc.toNat).crd = some x

/-- R222, R225, R226, R305: `WR` and `WRA` write the bytes that stood in the unit 16 clocks before, 32 on the I/O die; `WRA` closes the bank at the
later of tWR and tRAS. A take before the timeline's start, and a granule of a frozen range, are timeline faults. -/
def Sys2Proof.Spec.ColumnWrites : Prop :=
  ∀ (s : State) (ch o x pa key : Nat) (io : Bool) (tl : Tl) (f : TlCol), AtWord s ch o tl x → ColIs s ch o tl f pa key io →
    let k := s.chan ch
    let pc := f.pc.toNat
    let b := f.bank.toNat
    let n := if io then 32 else 16
    let close := max (x + k.p tWR) (((k.bank pc b).act.map (· + k.p tRAS)).getD 0)
    let ends (e : Nat) : Nat := maxOf [e, x + k.p tWTR, x + k.p tCCDS, x + k.p tCCDL]
    (n ≤ x → tl.started ≤ cyc (x - n) → s.frozenIn pa 64 = false → k.colClk ≠ some x → ColumnOk k pc b x false → x % 128 ≤ 103 →
      DueLater s ch tl (tl.pos + 1) x →
      (s.runsPast ch x (ends (x + k.p tWR)) = false →
        ∃ t, exec (.wr f) s = .next t ∧ GoesTo s t ch o tl (tl.pos + 1) ∧ Writes s t pa (natBytes 64 (s.bufAt key (cyc (x - n))).1.toNat)
          ∧ t.moorings = s.moorings ∧ (t.chan ch).bank pc b = { k.bank pc b with wrc := some x } ∧ ((t.chan ch).pch pc).wr = some x)
      ∧ (s.runsPast ch x (ends (close + k.p tRP)) = false →
        ∃ t, exec (.wra f) s = .next t ∧ GoesTo s t ch o tl (tl.pos + 1) ∧ Writes s t pa (natBytes 64 (s.bufAt key (cyc (x - n))).1.toNat)
          ∧ t.moorings = s.moorings ∧ (t.chan ch).bank pc b = { k.bank pc b with wrc := some x, closeAt := some close }))
    ∧ ((s.moor o).st = .running → n ≤ x → cyc (x - n) < tl.started → ∃ t, exec (.wr f) s = .next t ∧ TlFaults s t ch o tl.pos 0x17)
    ∧ ((s.moor o).st = .running → n ≤ x → tl.started ≤ cyc (x - n) → s.frozenIn pa 64 = true →
      ∃ t, exec (.wr f) s = .next t ∧ TlFaults s t ch o tl.pos 0x16)

/-- R222, R230, R233, R235, R236: the house refreshes a pseudo-channel or a bank, does the oldest directed refresh of a bank, and checks the granule
under a bank's patrol pointer, which advances. In a mooring's timeline each of these words is a fault. -/
def Sys2Proof.Spec.HouseWords : Prop :=
  (∀ (s : State) (ch x : Nat) (f : TlBank) (delay : BitVec 10), AtHouse s ch x →
    let k := s.chan ch
    let pc := f.pc.toNat
    let b := f.bank.toNat
    ((∀ i < 16, (k.bank pc i).isOpen = false ∧ Over (k.bank pc i).closed (k.p tRP) x ∧ AnyOk k pc i x ∧ x ≤ (k.bank pc i).refreshed + k.p tREFI) →
      s.runsPast ch x (x + k.p tRFC) = false →
      ∃ t, exec (.ref delay f.pc) s = .next t ∧ t.mem = s.mem ∧ t.moorings = s.moorings ∧ ((t.chan ch).pch pc).ref = some x
        ∧ ∀ i < 16, 0 < x → (t.chan ch).bank pc i = { k.bank pc i with refreshed := x })
    ∧ ((k.bank pc b).isOpen = false → ActivateOk k pc b x → AnyOk k pc b x →
      s.runsPast ch x (x + maxOf [k.p tRFCsb, k.p tRRDS, k.p tRRDL, k.p tFAW]) = false →
      (x ≤ (k.bank pc b).refreshed + k.p tREFI → ∃ t, exec (.refsb f) s = .next t ∧ t.mem = s.mem ∧ t.moorings = s.moorings
        ∧ (t.chan ch).bank pc b = { k.bank pc b with sb := some x, refreshed := x })
      ∧ (∃ t, exec (.rfm f) s = .next t ∧ t.mem = s.mem ∧ t.moorings = s.moorings
        ∧ (t.chan ch).bank pc b = { k.bank pc b with sb := some x, rfm := x, dq := (k.bank pc b).dq.drop 1 })
      ∧ (Over (k.pch pc).scrub (2048 * 6144) x → ∃ t, exec (.scrb f) s = .next t ∧ t.mem = s.mem ∧ t.moorings = s.moorings
        ∧ ((t.chan ch).bank pc b).patrol = ((k.bank pc b).patrol + 1) % 2 ^ 20 ∧ ((t.chan ch).bank pc b).sb = some x
        ∧ ((t.chan ch).pch pc).scrub = some x)))
  ∧ ∀ (s : State) (ch o x : Nat) (tl : Tl) (f : TlBank) (delay : BitVec 10) (i : Instr), AtWord s ch o tl x → (s.moor o).st = .running →
    i ∈ [Instr.ref delay f.pc, .refsb f, .rfm f, .scrb f] → ∃ t, exec i s = .next t ∧ TlFaults s t ch o tl.pos 0x11

/-- R240: an `NMX` on a quiet channel runs the queued blocks of its index that entered before, back to back while they fit: the first ends in
the cycle of its last clock. A block that does not fit stays, and a channel that is not quiet is a timeline fault. -/
def Sys2Proof.Spec.NearMemorySlots : Prop :=
  ∀ (s : State) (ch o x : Nat) (tl : Tl) (delay : BitVec 10) (len : BitVec 18) (index : BitVec 6) (b : NmBlk) (c : Cmd), AtWord s ch o tl x →
    let k := s.chan ch
    k.rowClk ≠ some x →
    (k.quietAt x = true → x % 128 + len.toNat ≤ 128 → k.nmq = [b] → b.mooring = o → b.index = index.toNat → b.entered < s.now → b.runAt = none →
      s.cmd b.cmd = some c → c.nm.gauge = 0xFFFFFFFF →
      DueLater s ch { tl with nmxEnd := x + len.toNat } (tl.pos + 1) x →
      ∃ t, exec (.nmx delay len index) s = .next t ∧ GoesTo s t ch o { tl with nmxEnd := x + len.toNat } (tl.pos + 1) ∧ t.mem = s.mem
        ∧ (t.chan ch).nmq = [{ b with runAt := if b.clocks ≤ len.toNat then some (cyc (x + b.clocks - 1)) else none }])
    ∧ ((s.moor o).st = .running → k.quietAt x = false → ∃ t, exec (.nmx delay len index) s = .next t ∧ TlFaults s t ch o tl.pos 0x14)

/-- R222 to R224, R240: the words that send no command: `WAITC` adds 1,024 clocks for each of its count, `LOOP` opens a repeat with the strides of
its second word, `ENDL` goes back to its body with the strides added, or ends it, `MARK` raises its gauge two cycles later, and `END`
ends the timeline. -/
def Sys2Proof.Spec.PseudoWords : Prop :=
  ∀ (s : State) (ch o x : Nat) (tl : Tl) (delay : BitVec 10), AtWord s ch o tl x →
    let k := s.chan ch
    (∀ count : BitVec 18, DueLater s ch { tl with oclk := tl.oclk + 1024 * count.toNat } (tl.pos + 1) x →
      ∃ t, exec (.waitc delay count) s = .next t ∧ GoesTo s t ch o { tl with oclk := tl.oclk + 1024 * count.toNat } (tl.pos + 1) ∧ t.mem = s.mem
        ∧ t.moorings = s.moorings)
    ∧ (∀ (count : BitVec 18) (w : Nat), tl.reps.length < 2 → k.word o (tl.pos + 1) = some w → w % 2 ^ 29 = 0 →
      let r : Rep := ⟨tl.pos + 2, count.toNat, (BitVec.ofNat 18 (w / 2 ^ 46)).toInt, (BitVec.ofNat 6 (w / 2 ^ 40)).toInt, (BitVec.ofNat 11 (w / 2 ^ 29)).toInt, 0, 0, 0⟩
      DueLater s ch { tl with reps := r :: tl.reps } (tl.pos + 2) x →
      ∃ t, exec (.timelineLoop delay count) s = .next t ∧ GoesTo s t ch o { tl with reps := r :: tl.reps } (tl.pos + 2) ∧ t.mem = s.mem
        ∧ t.moorings = s.moorings)
    ∧ (∀ (r : Rep) (l : List Rep), tl.reps = r :: l →
      (1 < r.left →
        let r' : Rep := { r with left := r.left - 1, dr := r.dr + r.rs, dc := r.dc + r.cs, dl := r.dl + r.ls }
        DueLater s ch { tl with reps := r' :: l } r.body x →
        ∃ t, exec (.endl delay) s = .next t ∧ GoesTo s t ch o { tl with reps := r' :: l } r.body ∧ t.mem = s.mem ∧ t.moorings = s.moorings)
      ∧ (r.left ≤ 1 → DueLater s ch { tl with reps := l } (tl.pos + 1) x →
        ∃ t, exec (.endl delay) s = .next t ∧ GoesTo s t ch o { tl with reps := l } (tl.pos + 1) ∧ t.mem = s.mem ∧ t.moorings = s.moorings))
    ∧ (∀ (n : BitVec 6) (core : BitVec 10) (pool : Bool) (gauge : BitVec 17),
      let pa := if pool then poolBase + core.toNat / 16 * poolBytes + 16 * gauge.toNat else spadBase + core.toNat * spadBytes + 16 * gauge.toNat
      16 * gauge.toNat < spadBytes → (∀ u ∈ (s.placeSpot (.virt pa (some o) pa) 16).uses 16 (s.now + 2), s.meets u = []) → tl.bad = false → DueLater s ch tl (tl.pos + 1) x →
      ∃ t, exec (.mark delay n core pool gauge) s = .next t ∧ GoesTo s t ch o tl (tl.pos + 1) ∧ t.mem = s.mem ∧ t.moorings = s.moorings
        ∧ ∃ a ∈ t.accesses, a.t = s.now + 2 ∧ a.place = .virt pa (some o) pa ∧ a.kind = .raise (64 * (n.toNat + 1)) ∧ a.id = s.nextId)
    ∧ (tl.reps = [] → (∀ b ∈ k.nmq, b.mooring ≠ o) → ∃ t, exec (.timelineEnd delay) s = .next t ∧ (t.chan ch).tl o = none ∧ (t.chan ch).banks = k.banks
        ∧ t.mem = s.mem ∧ t.moorings = s.moorings)

/-- What the words of a timeline do to the rows of their channel. -/
def Obligations.TimelineRowWords : Prop := Spec.Activates ∧ Spec.Precharges ∧ Spec.HouseWords

/-- What the words of a timeline do to the columns of their channel. -/
def Obligations.TimelineColumnWords : Prop := Spec.ColumnReads ∧ Spec.CompressedReads ∧ Spec.ColumnWrites

/-- The words of a timeline that send no command of their own. -/
def Obligations.TimelinePseudoWords : Prop := Spec.NearMemorySlots ∧ Spec.PseudoWords

/-- R214, R226 to R229: what a channel does without a word. That a request of the open share is served whole, its bytes with its
ACT, is the model's choice (log 18). -/
def Obligations.ChannelEvents : Prop :=
  (∀ (s : State) (ch pc b a : Nat), s.Canon → ch < nChannels → ((s.chan ch).bank pc b).closeAt = some a → a ≤ clockOf s.now →
    ∃ t, exec (.autoPrecharge ch pc b) s = .next t ∧ (t.chan ch).bank pc b = { (s.chan ch).bank pc b with
        row := none, closeAt := none, cleanup := false, pre := some a } ∧ t.mem = s.mem ∧ t.moorings = s.moorings)
  ∧ (∀ (s : State) (ch pc b : Nat), s.Canon → ch < nChannels → ((s.chan ch).bank pc b).cleanup = true → ((s.chan ch).bank pc b).isOpen = true →
    (s.chan ch).rowClk ≠ some (clockOf s.now) →
    (PrechargeOk (s.chan ch) pc b (clockOf s.now) → ∃ t, exec (.cleanupPrecharge ch pc b) s = .next t ∧ ((t.chan ch).bank pc b).row = none
      ∧ ((t.chan ch).bank pc b).pre = some (clockOf s.now) ∧ ((t.chan ch).bank pc b).cleanup = false ∧ t.mem = s.mem ∧ t.moorings = s.moorings)
    ∧ (¬PrechargeOk (s.chan ch) pc b (clockOf s.now) → exec (.cleanupPrecharge ch pc b) s = .next s))
  ∧ (∀ (s : State) (ch w key : Nat) (b : Bank), s.Canon → ch < nChannels → clockOf s.now / 128 = w → s.windowOwner ch w ≠ s.windowOwner ch (w + 1) →
    (s.chan ch).houseNow = false → (s.chan ch).backlog = false →
    ((s.chan ch).banks = [(key, b)] → b.isOpen = true → b.cleanup = false → b.actOwner < nMoorings → (s.moor b.actOwner).st = .running →
      ∃ t, exec (.windowEnd ch) s = .next t ∧ (t.moor b.actOwner).st = .ending (s.now + 8) ∧ (t.chan ch).tl b.actOwner = none ∧ t.mem = s.mem)
    ∧ ((∀ e ∈ (s.chan ch).banks, e.2.isOpen = false) → ∃ t, exec (.windowEnd ch) s = .next t ∧ t.moorings = s.moorings ∧ t.mem = s.mem
        ∧ (t.chan ch).tls = (s.chan ch).tls))
  ∧ (∀ (s : State) (ch : Nat) (r : OpenReq), s.Canon → ch < nChannels → s.openNow ch (clockOf s.now) = some r → r.who = .host → s.errs = [] → s.poison = [] →
    (s.chan ch).openq.head? = some r ∧ s.windowOwner ch (clockOf s.now / 128) = 13
    ∧ (r.write = false → ∃ t, exec (.openShareService ch) s = .next t ∧ t.hostData = s.hostData ++ [(r.tag, s.bytes r.addr r.n)]
        ∧ (t.chan ch).openq = (s.chan ch).openq.drop 1 ∧ t.mem = s.mem ∧ t.moorings = s.moorings)
    ∧ (r.write = true → s.frozenIn r.addr r.n = false → ∃ t, exec (.openShareService ch) s = .next t ∧ Writes s t r.addr r.data
        ∧ (t.chan ch).openq = (s.chan ch).openq.drop 1 ∧ t.moorings = s.moorings))
  ∧ ∀ (s : State) (ch : Nat) (l : Landing), s.Canon → ch < nChannels → l ∈ (s.chan ch).landings → (∀ x ∈ (s.chan ch).landings, x.id = l.id → x = l) →
    l.t = s.now → Tidy 0 s.bufs → l.data.length = 64 →
    ∃ t, exec (.timelineLanding ch l.id) s = .next t ∧ (t.bufGet l.key).toNat = leNat l.data ∧ l ∉ (t.chan ch).landings ∧ t.mem = s.mem
      ∧ t.moorings = s.moorings

/-! ### Encodings, reset, memory and the canonical form -/

/-- R90 to R105, R221, with the words that files 12 and 20 to 23 work out: words that stand for an instruction each. -/
def Obligations.WordsDecode : Prop :=
  decodeSyl .a 0x02208500 = some (.add .a (.own 2) 1 (.h .p0 1))
  ∧ decodeSyl .b 0x4242FFFD = some (.addImm .b 4 5 (BitVec.ofInt 15 (-3)))
  ∧ decodeSyl .b 0x84428E08 = some (.fmul .b (.own 4) 5 (.h .p1 3) .rne .f64)
  ∧ decodeSyl .m 0x4263E002 = some (.ldOffset 6 7 .d .own 2)
  ∧ decodeSyl .v 0x02110C20 = some (.vadd .v 1 2 (.own 3) .rtz)
  ∧ decodeSyl .f 0x0E308840 = some (.fatan2 (.own 3) 1 (.own 2) .rdn .f32)
  ∧ decodeSyl .e 0x20448002 = some (.cpy ⟨.p0, 4⟩ 0 2)
  ∧ decodeSyl .c 0x0200000A = some (.br .always 10)
  ∧ decodeSyl .c 0x029FFFEC = some (.br (.ifH ⟨.p2, 9⟩) (BitVec.ofInt 18 (-20)))
  ∧ decodeSyl .c 0x30400081 = some (.sysrd 4 1)
  ∧ decodeTimeline 0x040000000E000000 = some (.act ⟨0, 0, 0⟩ 7)
  ∧ decodeTimeline 0x080B000000000000 = some (.pre ⟨11, 0, 0⟩)
  ∧ decodeTimeline 0xA01D0C2100001F00 = some (.mark 29 3 33 false 0x1F0)
  ∧ decodeTimeline 0x8412000008000000 = some (.timelineLoop 18 4)

/-- The kinds of instructions: 0 an event, 1 a syllable, 2 a word of a timeline, 3 a node. -/
def Sys2Proof.Spec.kindOf : Instr → Nat
  | .act _ _ | .pre _ | .prea _ _ | .rd _ | .rda _ | .wr _ | .wra _ | .crd _ | .ref _ _ | .refsb _ | .rfm _ | .scrb _ | .nmx _ _ _
  | .waitc _ _ | .timelineLoop _ _ | .endl _ | .mark _ _ _ _ _ | .timelineEnd _ => 2
  | .launch _ _ _ _ | .timeline _ _ _ _ | .publishn _ _ _ | .waitn _ _ _ _ _ | .chkptn _ _ _ _ | .stepn _ _ | .goto _ _ _ | .nodeEnd _ => 3
  | .bundleFetch _ | .secondaryBundleIssue _ | .resultLanding _ _ | .accessPerform _ | .secondaryAccessDeferred _ | .openPoolService _
  | .sendLanding _ | .watchItemLanding _ | .syncBarrierComplete _ | .syncTimeout _ | .waitgRelease _ _ | .waitgDeadline _ _
  | .fenceRelease _ _ | .tfenceRelease _ _ | .secondaryWatchdog _ | .engineStart _ | .sweepElimination _ | .copyBudgetExpiry _
  | .cpymcDeliveryCheck _ | .cpymcChunkLanding _ _ | .sixrunOffsetPush _ | .ebbSweepGranule _ | .nmBlockPerform _ _ | .chkptDrainPage _
  | .chkptDrainEnd _ | .collComplete _ | .remoteCompletion _ _ _ | .remoteTimeout _ | .linkLoss _ | .cloysFlitReceive _ _
  | .launchRecord _ _ | .icmpv6NeighbourDiscovery _ _ | .icmpv6Echo _ _ | .unsupportedFrame _ | .taskSeal _ | .taskStart _
  | .taskComplete _ | .launchCycleLimit _ _ | .waitnRelease _ | .waitnLimit _ | .nodePreemption _ | .forcedPreemptionLanding _
  | .preemptedTaskResume _ | .parkedRequestDeadlineCheck _ | .contextStreamerWrite _ | .taskDiscard _ | .hostLaunchRecord _
  | .resumeParkedTask _ | .stepTask _ | .discardParkedTask _ | .clearErrorLog _ | .clearErrorCounters _ | .loadMooring _ _ _ _
  | .startSecondaryStream _ | .stopSecondaryStream _ | .setLooseMode _ | .requestForcedPreemption _ | .hostSramAccess _ _ _
  | .hostHbmAccess _ _ _ | .openShareService _ | .hostMooringRegisterWrite _ _ | .shareMapWrite _ _ | .powerCapWrite _
  | .routineTableLoad _ _ | .hostRegisterWrite _ _ | .windowEnd _ | .timelineLanding _ _ | .autoPrecharge _ _ _
  | .cleanupPrecharge _ _ _ | .attestationRequest _ | .eolpredUpdate _ | .cloysQuotaInterval | .frameBoundary | .powerOnReset
  | .thermalLimit | .thermalConditionClear => 0
  | _ => 1

/-- R90 to R105, R221, R294, R295: encode and decode agree. Every well-formed syllable, timeline word and node record has an encoding, and no
event has one; a well-formed syllable, timeline word or node record is what its encoding decodes
to, with every operand. -/
def Obligations.EncodingsRoundTrip : Prop :=
  ∀ i : Instr, i.wf = true →
    ((encodeSyl i).isSome = decide (Spec.kindOf i = 1)) ∧ ((encodeTimeline i).isSome = decide (Spec.kindOf i = 2))
    ∧ ((encodeNode i).isSome = decide (Spec.kindOf i = 3))
    ∧ (∀ sl w, encodeSyl i = some (sl, w) → w < 2 ^ 32 ∧ decodeSyl sl w = some i)
    ∧ (∀ w, encodeTimeline i = some w → w < 2 ^ 64 ∧ decodeTimeline w = some i)
    ∧ (∀ w, encodeNode i = some w → w < 2 ^ 512 ∧ decodeNode w = some i)

/-- R90 to R105, R221, R222: no word has a second reading. A syllable or a timeline word that decodes is the encoding of what it decodes to,
which is well-formed: a word with a reserved bit set, or a field beyond its range, decodes to nothing. -/
def Obligations.EncodingsAreUnique : Prop :=
  (∀ sl w i, w < 2 ^ 32 → decodeSyl sl w = some i → i.wf = true ∧ encodeSyl i = some (sl, w))
  ∧ ∀ w i, w < 2 ^ 64 → decodeTimeline w = some i → i.wf = true ∧ encodeTimeline i = some w

/-- R52, R60, R71, R72, R165, R215, R216, R218, R226, R342 (registers for which the spec gives no value are the model's choice, log 2): what the
machine holds right after power-on reset. The canonical form holds. -/
def Obligations.ResetState : Prop :=
  let s := State.reset
  s.Formed ∧ s.now = 0 ∧ s.eolpred = 0x0000FFFFFFFFFFFF
  ∧ (∀ c, (s.core c).fmt = 0 ∧ (s.core c).shv = 0x7CF ∧ (s.core c).shw = 0x7CF ∧ (s.core c).engst = 0
      ∧ (∀ j, (s.mesh c).rotor j = ⟨0, 0, 0, false, false⟩ ∧ (s.mesh c).scale j = ⟨0x3F800000, 0x3F800000, 0x3F800000, 0x3F800000, 0, false⟩) ∧ ∀ q i, (s.seq c q).sndloss = 0 ∧ (s.seq c q).xcause = 0 ∧ (s.seq c q).lnk = 0
        ∧ (s.seq c q).wt.getD (i % 4) 0 = 0x8000000000000000)
  ∧ (∀ ch m, (s.chan ch).tlrgn.getD m 0 = 0 ∧ (s.chan ch).tlstore.getD m 0 = 0)
  ∧ (∀ ch w, w < 48 → mapCode (s.chan ch).map w = if w % 12 = 0 then 12 else if 10 ≤ w % 12 then 13 else (9 * (w / 12) + w % 12 - 1) % 12)
  ∧ (∀ ch, (s.chan ch).params.toList = [22, 22, 45, 67, 4, 6, 24, 2, 4, 26, 10, 6, 200, 96, 6240])
  ∧ ∀ m, (s.moor m).loaded = false ∧ (s.moor m).st = .idle

/-- R321 with R195, R217: memory reads back what was written, byte by byte, and nothing else changes; a number is little-endian. A clean write
of whole units clears their poison, a poisoned byte poisons its unit, and other units keep theirs. Memory stays in canonical form. -/
def Obligations.MemoryReadsBack : Prop :=
  ∀ (s : State) (a : Nat) (bs : List Byte) (ps : List Bool), s.Canon → ps.length = bs.length →
    let t := s.putBytes a bs ps
    (∀ x, t.byte x = Spec.overlay s.byte a bs x) ∧ t.bytes a bs.length = bs ∧ t.num a bs.length = leNat bs
    ∧ (∀ i, ps[i]? = some true → poisonAt t.poison (a + i) = true)
    ∧ ((∀ b ∈ ps, b = false) → ∀ x, poisonAt t.poison x = (poisonAt s.poison x && !unitCovered a bs.length (poisonUnit x)))
    ∧ (∀ x, (∀ i < bs.length, poisonUnit (a + i) ≠ poisonUnit x) → poisonAt t.poison x = poisonAt s.poison x)
    ∧ t.Canon

/-- The model's own invariant (logs 1 and 5), which the statements about the sparse parts of the state assume: every step keeps every sparse map in
canonical form, from every state that has it. -/
def Obligations.StepKeepsForm : Prop :=
  ∀ s t : State, s.Formed → step s = .next t → t.Formed
end

