-- ==== Sys2Proof/Laws/Issue.lean ====
section
/-! SUPPORT. Sys2Proof/Laws/Issue.lean: what the issue of a syllable does, said once: it is held, trapped, or takes effect. -/

namespace Sys2Proof.Machine
open Config

@[simp] theorem trapIf_false (t : Trap) : trapIf false t = [] := rfl
@[simp] theorem trapIf_true (t : Trap) : trapIf true t = [t] := rfl
@[simp] theorem lowest_nil : lowest [] = none := rfl

theorem trapIf_eq_nil {c : Bool} {t : Trap} : trapIf c t = [] ↔ c = false := by cases c <;> simp [trapIf]

theorem lowest_eq_none {l : List Trap} : lowest l = none ↔ l = [] := by
  cases l with
  | nil => simp [lowest]
  | cons t l => simp only [lowest]; cases lowest l <;> simp; split <;> simp

theorem State.hold_eq (s : State) (r : Req0) : s.hold r = s.holding r.slot r.busy := by
  unfold State.hold State.holding State.updCore State.kore; cases s.ctx.q <;> rfl

/-- A clear syllable meets no cause of its unit, of its write ports, of its landing cycles or of a shadow. -/
theorem State.reqTraps_of_clear {s : State} {r : Req0} (hc : s.clear r.slot r.busy r.reads r.writes) : s.reqTraps r = r.traps := by
  unfold State.clear at hc
  unfold State.reqTraps
  split at hc <;> rename_i hq
  · obtain ⟨h1, h2, h3⟩ := hc
    have e : s.schedTraps r = [] := by
      simp only [State.schedTraps, List.append_eq_nil_iff, trapIf_eq_nil]
      refine ⟨by simpa using h1, ?_⟩
      simp only [List.any_eq_false, Bool.and_eq_true, beq_iff_eq, decide_eq_true_eq, not_and, Nat.not_le]
      exact fun w hw hf => h2 w hw hf
    have l : s.landTraps r = [] := by
      simp only [State.landTraps, trapIf_eq_nil, List.any_eq_false, Bool.and_eq_true, beq_iff_eq, List.any_eq_true, not_exists, not_and]
      exact fun w hw e he hd => absurd hd.2 (h3 w hw e he hd.1)
    simp [hq, e, l]
  · obtain ⟨-, -, -, h4, h5⟩ := hc
    have e : s.shadowTraps r = [] := by
      have : (r.reads ++ r.writes.map (·.ref)).find? (s.cur.pending s.now) = none := by
        rw [List.find?_eq_none]
        intro x hx
        simp only [SeqState.pending, List.any_eq_true, Bool.and_eq_true, beq_iff_eq, decide_eq_true_eq, not_exists, not_and, Nat.not_lt]
        exact fun e he => h4 x hx e he
      simp [State.shadowTraps, this]
    have l : s.landTraps r = [] := by
      simp only [State.landTraps, trapIf_eq_nil, List.any_eq_false, Bool.and_eq_true, beq_iff_eq, List.any_eq_true, not_exists, not_and]
      intro w hw e he hd
      simp [h5 w hw e he hd.1 hd.2, hq]
    simp [hq, e, l]

/-- A clear syllable that has no bank to wait for does not wait (R41, R43). -/
theorem State.not_mustWait {s : State} {r : Req0} (hc : s.clear r.slot r.busy r.reads r.writes)
    (hw : s.ctx.q = .secondary → r.waits = false) : s.mustWait r = false := by
  unfold State.clear at hc
  unfold State.mustWait
  split at hc <;> rename_i hq
  · simp [hq]
  · obtain ⟨h1, h2, h3, -⟩ := hc
    simp only [hq, hw hq, Bool.or_false, Bool.or_eq_false_iff, decide_eq_false_iff_not, Nat.not_lt, Bool.and_eq_false_iff, Nat.max_le]
    refine ⟨⟨h1, h2⟩, ?_⟩
    rcases h3 with h3 | h3
    · left; omega
    · right; simpa [Core.primRuns] using h3

/-- Where a clear syllable meets no cause of its own, it takes effect with its unit held. -/
theorem State.issue_of_clear {s : State} {r : Req0} {go : State → State} (hc : s.clear r.slot r.busy r.reads r.writes)
    (ht : r.traps = []) (hw : s.ctx.q = .secondary → r.waits = false) :
    s.issue r go = .next (go (s.holding r.slot r.busy)) := by
  simp [State.issue, State.not_mustWait hc hw, State.reqTraps_of_clear hc, ht, State.hold_eq]

/-- The three outcomes of an issue. -/
theorem State.issue_cases (s : State) (r : Req0) (go : State → State) :
    (s.mustWait r = true ∧ s.issue r go = .next { s with trapped := some ⟨causeWait, none, 0, false⟩ })
    ∨ (s.mustWait r = false ∧ ∃ t, lowest (s.reqTraps r) = some t ∧ s.issue r go = .next (s.raise t))
    ∨ (s.mustWait r = false ∧ s.reqTraps r = [] ∧ s.issue r go = .next (go (s.holding r.slot r.busy))) := by
  unfold State.issue
  by_cases h : s.mustWait r = true
  · simp [h]
  · simp only [h]
    cases e : lowest (s.reqTraps r) with
    | none => exact .inr (.inr ⟨by simp, lowest_eq_none.1 e, by simp [State.hold_eq]⟩)
    | some t => exact .inr (.inl ⟨by simp, t, rfl, by simp⟩)

/-- An issue always answers a next state. -/
theorem State.issue_next (s : State) (r : Req0) (go : State → State) : ∃ t, s.issue r go = .next t := by
  rcases s.issue_cases r go with ⟨-, h⟩ | ⟨-, t, -, h⟩ | ⟨-, -, h⟩ <;> exact ⟨_, h⟩

end Sys2Proof.Machine
end

