-- ==== Sys2Proof/Laws/Access.lean ====
section
/-! SUPPORT. Sys2Proof/Laws/Access.lean: what an access that finds its place and its banks meets at issue: nothing. -/

namespace Sys2Proof.Machine
open Config

theorem State.mcheck_of_takes {s : State} {sl : Slot} {sp : Space} {off n al : Nat} {p : Perm} {t e : Nat}
    (h : s.takes sl sp off n al p t) :
    ∃ spt, s.mcheck sl sp off n p e = .ok spt
      ∧ (s.ctx.q = .primary → s.waitsIn sp = false → ∀ u ∈ s.spotUses sl sp spt n t, s.grants sp u)
      ∧ (s.ctx.q = .secondary → sp = .own → ∀ u ∈ s.spotUses sl sp spt n t, s.meets u = []) := by
  obtain ⟨-, h2, h3, h4, spt, h5, h6, h7, h8⟩ := h
  refine ⟨spt, ?_, h7, h8⟩
  unfold State.mcheck
  simp only [h5, h6, if_true]
  rw [if_neg (by omega), if_neg (by rintro ⟨a, b⟩; exact b (h3 a)), if_neg (by
    rintro ⟨a, b, c, d⟩; rw [h4 a b c] at d; exact Bool.false_ne_true d)]

/-- An access that is taken meets no cause. -/
theorem State.accTraps_of_takes {s : State} {sl : Slot} {sp : Space} {off n al : Nat} {p : Perm} {t e : Nat}
    (h : s.takes sl sp off n al p t) : s.accTraps sl sp off n al p t e = [] := by
  obtain ⟨spt, h1, h2, -⟩ := State.mcheck_of_takes (sl := sl) (e := e) h
  unfold State.accTraps
  simp only [List.append_eq_nil_iff, trapIf_eq_nil, h.1, bne_self_eq_false, true_and, if_true, h1]
  unfold State.useTraps
  cases hq : s.ctx.q with
  | secondary => rfl
  | primary =>
    simp only
    cases hw : s.waitsIn sp with
    | true => simp
    | false =>
      have g := h2 hq hw
      simp only [Bool.false_eq_true, if_false, List.append_eq_nil_iff, trapIf_eq_nil, List.any_eq_false, Bool.or_eq_true,
        Bool.not_eq_true', Bool.and_eq_true, not_or, Bool.not_eq_false, List.isEmpty_iff,
        List.contains_iff_mem]
      exact ⟨⟨fun u hu => ⟨(g u hu).1, fun hh => (g u hu).2.1 hh.1 hh.2⟩, fun u hu => by simp [(g u hu).2.2.1]⟩,
        fun u hu => by simp [(g u hu).2.2.2]⟩

/-- Its bank-cycles give a secondary access nothing to wait for. -/
theorem State.useWaits_of_takes {s : State} {sl : Slot} {sp : Space} {off n al : Nat} {p : Perm} {t : Nat}
    (h : s.takes sl sp off n al p t) : s.useWaits sp (s.accUses sl sp off n p t) = false := by
  obtain ⟨spt, h1, -, h3⟩ := State.mcheck_of_takes (sl := sl) (e := 0) h
  unfold State.useWaits State.accUses
  rw [h1]
  cases hq : s.ctx.q with
  | primary => rfl
  | secondary =>
    by_cases ho : sp = .own
    · simp only [ho, beq_self_eq_true, Bool.true_and, List.any_eq_false]
      intro u hu
      simp [h3 hq ho u (ho ▸ hu)]
    · cases sp <;> simp_all

theorem State.useWaits_append (s : State) (sp : Space) (a b : List Use) :
    s.useWaits sp (a ++ b) = (s.useWaits sp a || s.useWaits sp b) := by
  unfold State.useWaits
  cases s.ctx.q <;> simp [List.any_append, Bool.and_or_distrib_left]

theorem State.useWaits_nil (s : State) (sp : Space) : s.useWaits sp [] = false := by
  unfold State.useWaits
  cases s.ctx.q <;> simp

theorem State.useWaits_primary {s : State} (h : s.ctx.q = .primary) (sp : Space) (us : List Use) : s.useWaits sp us = false := by
  simp [State.useWaits, h]

theorem State.poisonTraps_of_sound {s : State} {rs : List RRef} (h : s.sound rs) (sl : Slot) : s.poisonTraps sl rs = [] := by
  simp only [State.poisonTraps, trapIf_eq_nil, State.poisonOf, List.any_eq_false]
  intro r hr
  simp [h r hr]

theorem State.vaultProt_of_mayReach {s : State} {sp : Space} {t off : Nat} (h : s.mayReach sp t) (sl : Slot) : s.vaultProt sl sp off = [] := by
  unfold State.mayReach at h
  unfold State.vaultProt
  cases hq : s.ctx.q with
  | primary => cases sp <;> rfl
  | secondary => simp only [hq] at h; rcases h with rfl | rfl <;> rfl

theorem State.anyTraps_of_mayReach {s : State} {sp : Space} {t : Nat} (h : s.mayReach sp t) (sl : Slot) : s.anyTraps sl sp t = [] := by
  unfold State.mayReach at h
  unfold State.anyTraps
  cases hq : s.ctx.q with
  | secondary => rfl
  | primary =>
    simp only [hq] at h
    by_cases c : sp = .any ∧ s.openPool = false
    · obtain ⟨h1, h2⟩ := h c.1 c.2
      simp [c, h1, h2]
    · simp only
      rw [if_neg c]

/-- A load that may go meets no cause, and has nothing to wait for. -/
theorem State.loadTraps_of_mayLoad {s : State} {sp : Space} {off n : Nat} {plane : Bool} {i : Nat} (h : s.mayLoad sp off n plane i)
    (e : Nat) : s.loadTraps sp off n plane i e = [] := by
  obtain ⟨h1, h2, h3⟩ := h
  unfold State.loadTraps
  simp only [State.vaultProt_of_mayReach h1, State.accTraps_of_takes h2, State.anyTraps_of_mayReach h1, List.nil_append]
  split
  · exact State.accTraps_of_takes (h3 ‹_›)
  · rfl

theorem State.loadUses_of_mayLoad {s : State} {sp : Space} {off n : Nat} {plane : Bool} {i : Nat} (h : s.mayLoad sp off n plane i) :
    s.useWaits sp (s.loadUses sp off n plane i) = false := by
  obtain ⟨-, h2, h3⟩ := h
  unfold State.loadUses
  simp only [State.useWaits_append, State.useWaits_of_takes h2, Bool.false_or]
  split
  · exact State.useWaits_of_takes (h3 ‹_›)
  · exact State.useWaits_nil _ _

theorem State.storeTraps_of_mayStore {s : State} {sp : Space} {off n : Nat} {plane : Bool} {i : Nat} (h : s.mayStore sp off n plane i)
    (e : Nat) : s.storeTraps sp off n plane i e = [] := by
  obtain ⟨h1, h2, h3⟩ := h
  unfold State.storeTraps
  simp only [State.vaultProt_of_mayReach h1, State.accTraps_of_takes h2, State.anyTraps_of_mayReach h1, List.nil_append]
  split
  · exact State.accTraps_of_takes (h3 ‹_›)
  · rfl

theorem State.storeUses_of_mayStore {s : State} {sp : Space} {off n : Nat} {plane : Bool} {i : Nat} (h : s.mayStore sp off n plane i) :
    s.useWaits sp (s.storeUses sp off n plane i) = false := by
  obtain ⟨-, h2, h3⟩ := h
  unfold State.storeUses
  simp only [State.useWaits_append, State.useWaits_of_takes h2, Bool.false_or]
  split
  · exact State.useWaits_of_takes (h3 ‹_›)
  · exact State.useWaits_nil _ _

end Sys2Proof.Machine
end

