-- ==== Sys2Proof/Laws/State.lean ====
section
/-! SUPPORT. Sys2Proof/Laws/State.lean: what each update of the state leaves as it was, field by field, and what a core reads back. -/

namespace Sys2Proof.Machine
open Config

/-! ### Sparse maps -/

theorem sget_sset {α : Type} [DecidableEq α] {d x : α} (hx : x ≠ d) (l : List (Nat × α)) (n : Nat) : sget d (sset d l n x) n = x := by
  induction l with
  | nil => simp [sset, hx, sget]
  | cons p l ih =>
    obtain ⟨k, v⟩ := p
    simp only [sset, hx, if_false]
    split
    · simp [sget]
    · split
      · simp [sget]
      · simp [sget, *]

theorem sget_sset_ne {α : Type} [DecidableEq α] {d x : α} (hx : x ≠ d) (l : List (Nat × α)) {n m : Nat} (h : m ≠ n) :
    sget d (sset d l n x) m = sget d l m := by
  induction l with
  | nil => simp only [sset, hx, if_false, sget, h]; split <;> rfl
  | cons p l ih =>
    obtain ⟨k, v⟩ := p
    simp only [sset, hx, if_false]
    split
    · simp only [sget]
      split
      · rw [if_pos (by omega)]
      · rfl
    · split
      · subst n; simp only [sget, h, if_false]
      · simp only [sget, ih]

/-- A map in canonical form lists nothing below its bound. -/
theorem sget_of_lt {α : Type} [DecidableEq α] {d : α} {b n : Nat} {l : List (Nat × α)} (hl : swf d b l = true) (h : n < b) :
    sget d l n = d := by
  cases l with
  | nil => rfl
  | cons p l =>
    obtain ⟨k, v⟩ := p
    simp only [swf, Bool.and_eq_true, decide_eq_true_eq] at hl
    simp only [sget]
    rw [if_pos (by omega)]

theorem swf_mono {α : Type} [DecidableEq α] {d : α} {b c : Nat} {l : List (Nat × α)} (h : c ≤ b) (hl : swf d b l = true) :
    swf d c l = true := by
  cases l with
  | nil => rfl
  | cons p l =>
    obtain ⟨k, v⟩ := p
    simp only [swf, Bool.and_eq_true, decide_eq_true_eq] at hl ⊢
    exact ⟨⟨by omega, hl.1.2⟩, hl.2⟩

/-- Every write keeps the canonical form. -/
theorem swf_sset {α : Type} [DecidableEq α] {d : α} {l : List (Nat × α)} {b n : Nat} (hb : b ≤ n) (h : swf d b l = true) (x : α) :
    swf d b (sset d l n x) = true := by
  induction l generalizing b with
  | nil => simp only [sset]; split <;> simp [swf, *]
  | cons p l ih =>
    obtain ⟨k, v⟩ := p
    simp only [swf, Bool.and_eq_true, decide_eq_true_eq] at h
    obtain ⟨⟨h1, h2⟩, h3⟩ := h
    simp only [sset]
    split
    · split
      · simp [swf, *]
      · simp only [swf, Bool.and_eq_true, decide_eq_true_eq]
        exact ⟨⟨hb, ‹_›⟩, ⟨by omega, h2⟩, h3⟩
    · split
      · split
        · exact swf_mono (by omega) h3
        · simp only [swf, Bool.and_eq_true, decide_eq_true_eq]
          subst n
          exact ⟨⟨hb, ‹_›⟩, h3⟩
      · simp only [swf, Bool.and_eq_true, decide_eq_true_eq]
        exact ⟨⟨h1, h2⟩, ih (by omega) h3⟩

/-- In canonical form a read gives what was written, a default value too. -/
theorem sget_sset_self {α : Type} [DecidableEq α] {d : α} {l : List (Nat × α)} {b n : Nat} (h : swf d b l = true) (x : α) :
    sget d (sset d l n x) n = x := by
  by_cases hx : x = d
  · subst hx
    induction l generalizing b with
    | nil => simp [sset, sget]
    | cons p l ih =>
      obtain ⟨k, v⟩ := p
      simp only [swf, Bool.and_eq_true, decide_eq_true_eq] at h
      simp only [sset, if_true]
      split
      · simp [sget, *]
      · split
        · exact sget_of_lt h.2 (by omega)
        · simp only [sget, *, if_false]; exact ih h.2
  · exact sget_sset hx l n

/-- In canonical form a write leaves every other key alone. -/
theorem sget_sset_other {α : Type} [DecidableEq α] {d : α} {l : List (Nat × α)} {b n m : Nat} (h : swf d b l = true) (x : α)
    (hm : m ≠ n) : sget d (sset d l n x) m = sget d l m := by
  by_cases hx : x = d
  · subst hx
    induction l generalizing b with
    | nil => simp [sset]
    | cons p l ih =>
      obtain ⟨k, v⟩ := p
      simp only [swf, Bool.and_eq_true, decide_eq_true_eq] at h
      simp only [sset, if_true]
      split
      · rfl
      · split
        · subst n
          simp only [sget, hm, if_false]
          split
          · exact sget_of_lt h.2 (by omega)
          · rfl
        · simp only [sget, ih h.2]
  · exact sget_sset_ne hx l hm

/-! ### Memory -/

theorem Memory.wf_set {m : Memory} (h : m.wf = true) (a : Nat) (b : Byte) : (m.set a b).wf = true := swf_sset (Nat.zero_le _) h b

theorem Memory.wf_write (bs : List Byte) : ∀ {m : Memory} (_ : m.wf = true) (a : Nat), (m.write a bs).wf = true := by
  induction bs with
  | nil => intro m h a; exact h
  | cons b l ih => intro m h a; exact ih (Memory.wf_set h a b) (a + 1)

theorem Memory.get_set_self {m : Memory} (h : m.wf = true) (a : Nat) (b : Byte) : (m.set a b).get a = b := sget_sset_self h b

theorem Memory.get_set_other {m : Memory} (h : m.wf = true) {a c : Nat} (b : Byte) (hc : c ≠ a) : (m.set a b).get c = m.get c :=
  sget_sset_other h b hc

/-- A write leaves every byte outside its range alone. -/
theorem Memory.get_write_other (bs : List Byte) : ∀ {m : Memory} (_ : m.wf = true) (a : Nat) {c : Nat},
    (c < a ∨ a + bs.length ≤ c) → (m.write a bs).get c = m.get c := by
  induction bs with
  | nil => intro m h a c hc; rfl
  | cons b l ih =>
    intro m h a c hc
    simp only [List.length_cons] at hc
    simp only [Memory.write]
    rw [ih (Memory.wf_set h a b) (a + 1) (by omega), Memory.get_set_other h b (by omega)]

/-- A read gives the bytes that were written there. -/
theorem Memory.read_write (bs : List Byte) : ∀ {m : Memory} (_ : m.wf = true) (a : Nat), (m.write a bs).read a bs.length = bs := by
  induction bs with
  | nil => intro m h a; rfl
  | cons b l ih =>
    intro m h a
    simp only [Memory.write, List.length_cons, Memory.read]
    rw [ih (Memory.wf_set h a b) (a + 1), Memory.get_write_other l (Memory.wf_set h a b) (a + 1) (by omega), Memory.get_set_self h]

/-! ### Cores -/

theorem State.core_setCore {k : Core} (hk : k ≠ Core.init) (s : State) (c : Nat) : (s.setCore c k).core c = k := sget_sset hk _ _
theorem State.core_setCore_ne {k : Core} (hk : k ≠ Core.init) (s : State) {c d : Nat} (h : d ≠ c) :
    (s.setCore c k).core d = s.core d := sget_sset_ne hk _ h
theorem State.core_setCore_canon {s : State} (h : s.Canon) (c : Nat) (k : Core) : (s.setCore c k).core c = k := sget_sset_self h.cores k
theorem State.core_setCore_other {s : State} (h : s.Canon) {c d : Nat} (k : Core) (hd : d ≠ c) : (s.setCore c k).core d = s.core d :=
  sget_sset_other h.cores k hd

@[simp] theorem Core.seq_setSeq (k : Core) (q : Seq) (x : SeqState) : (k.setSeq q x).seq q = x := by cases q <;> rfl
@[simp] theorem Core.seq_setSeq_ne (k : Core) (x : SeqState) : (k.setSeq .primary x).seq .secondary = k.seq .secondary
    ∧ (k.setSeq .secondary x).seq .primary = k.seq .primary := ⟨rfl, rfl⟩

/-! ### Fields -/

@[simp] theorem State.setCore_now (s : State) (c : Nat) (k : Core) : (s.setCore c k).now = s.now := rfl
@[simp] theorem State.setCore_phase (s : State) (c : Nat) (k : Core) : (s.setCore c k).phase = s.phase := rfl
@[simp] theorem State.setCore_agenda (s : State) (c : Nat) (k : Core) : (s.setCore c k).agenda = s.agenda := rfl
@[simp] theorem State.setCore_ev (s : State) (c : Nat) (k : Core) : (s.setCore c k).ev = s.ev := rfl
@[simp] theorem State.setCore_inputs (s : State) (c : Nat) (k : Core) : (s.setCore c k).inputs = s.inputs := rfl
@[simp] theorem State.setCore_free (s : State) (c : Nat) (k : Core) : (s.setCore c k).free = s.free := rfl
@[simp] theorem State.setCore_nextId (s : State) (c : Nat) (k : Core) : (s.setCore c k).nextId = s.nextId := rfl
@[simp] theorem State.setCore_mem (s : State) (c : Nat) (k : Core) : (s.setCore c k).mem = s.mem := rfl
@[simp] theorem State.setCore_poison (s : State) (c : Nat) (k : Core) : (s.setCore c k).poison = s.poison := rfl
@[simp] theorem State.setCore_errs (s : State) (c : Nat) (k : Core) : (s.setCore c k).errs = s.errs := rfl
@[simp] theorem State.setCore_moorings (s : State) (c : Nat) (k : Core) : (s.setCore c k).moorings = s.moorings := rfl
@[simp] theorem State.setCore_channels (s : State) (c : Nat) (k : Core) : (s.setCore c k).channels = s.channels := rfl
@[simp] theorem State.setCore_copies (s : State) (c : Nat) (k : Core) : (s.setCore c k).copies = s.copies := rfl
@[simp] theorem State.setCore_bufs (s : State) (c : Nat) (k : Core) : (s.setCore c k).bufs = s.bufs := rfl
@[simp] theorem State.setCore_bufPoi (s : State) (c : Nat) (k : Core) : (s.setCore c k).bufPoi = s.bufPoi := rfl
@[simp] theorem State.setCore_accesses (s : State) (c : Nat) (k : Core) : (s.setCore c k).accesses = s.accesses := rfl
@[simp] theorem State.setCore_holds (s : State) (c : Nat) (k : Core) : (s.setCore c k).holds = s.holds := rfl
@[simp] theorem State.setCore_cmds (s : State) (c : Nat) (k : Core) : (s.setCore c k).cmds = s.cmds := rfl
@[simp] theorem State.setCore_ctx (s : State) (c : Nat) (k : Core) : (s.setCore c k).ctx = s.ctx := rfl
@[simp] theorem State.setCore_issuing (s : State) (c : Nat) (k : Core) : (s.setCore c k).issuing = s.issuing := rfl
@[simp] theorem State.setCore_trapped (s : State) (c : Nat) (k : Core) : (s.setCore c k).trapped = s.trapped := rfl
@[simp] theorem State.setCore_compl (s : State) (c : Nat) (k : Core) : (s.setCore c k).compl = s.compl := rfl
@[simp] theorem State.setCore_log (s : State) (c : Nat) (k : Core) : (s.setCore c k).log = s.log := rfl
@[simp] theorem State.setCore_frames (s : State) (c : Nat) (k : Core) : (s.setCore c k).frames = s.frames := rfl
@[simp] theorem State.setCore_hostData (s : State) (c : Nat) (k : Core) : (s.setCore c k).hostData = s.hostData := rfl
@[simp] theorem State.setCore_memWas (s : State) (c : Nat) (k : Core) : (s.setCore c k).memWas = s.memWas := rfl
@[simp] theorem State.setCore_stackPar (s : State) (c : Nat) (k : Core) : (s.setCore c k).stackPar = s.stackPar := rfl
@[simp] theorem State.setCore_boot (s : State) (c : Nat) (k : Core) : (s.setCore c k).boot = s.boot := rfl
@[simp] theorem State.setCore_planes (s : State) (c : Nat) (k : Core) : (s.setCore c k).planes = s.planes := rfl

@[simp] theorem State.setMoor_now (s : State) (m : Nat) (k : Mooring) : (s.setMoor m k).now = s.now := rfl
@[simp] theorem State.setMoor_phase (s : State) (m : Nat) (k : Mooring) : (s.setMoor m k).phase = s.phase := rfl
@[simp] theorem State.setMoor_agenda (s : State) (m : Nat) (k : Mooring) : (s.setMoor m k).agenda = s.agenda := rfl
@[simp] theorem State.setMoor_ev (s : State) (m : Nat) (k : Mooring) : (s.setMoor m k).ev = s.ev := rfl
@[simp] theorem State.setMoor_inputs (s : State) (m : Nat) (k : Mooring) : (s.setMoor m k).inputs = s.inputs := rfl
@[simp] theorem State.setMoor_free (s : State) (m : Nat) (k : Mooring) : (s.setMoor m k).free = s.free := rfl
@[simp] theorem State.setMoor_nextId (s : State) (m : Nat) (k : Mooring) : (s.setMoor m k).nextId = s.nextId := rfl
@[simp] theorem State.setMoor_mem (s : State) (m : Nat) (k : Mooring) : (s.setMoor m k).mem = s.mem := rfl
@[simp] theorem State.setMoor_poison (s : State) (m : Nat) (k : Mooring) : (s.setMoor m k).poison = s.poison := rfl
@[simp] theorem State.setMoor_errs (s : State) (m : Nat) (k : Mooring) : (s.setMoor m k).errs = s.errs := rfl
@[simp] theorem State.setMoor_channels (s : State) (m : Nat) (k : Mooring) : (s.setMoor m k).channels = s.channels := rfl
@[simp] theorem State.setMoor_copies (s : State) (m : Nat) (k : Mooring) : (s.setMoor m k).copies = s.copies := rfl
@[simp] theorem State.setMoor_cores (s : State) (m : Nat) (k : Mooring) : (s.setMoor m k).cores = s.cores := rfl
@[simp] theorem State.setMoor_bufs (s : State) (m : Nat) (k : Mooring) : (s.setMoor m k).bufs = s.bufs := rfl
@[simp] theorem State.setMoor_bufPoi (s : State) (m : Nat) (k : Mooring) : (s.setMoor m k).bufPoi = s.bufPoi := rfl
@[simp] theorem State.setMoor_accesses (s : State) (m : Nat) (k : Mooring) : (s.setMoor m k).accesses = s.accesses := rfl
@[simp] theorem State.setMoor_holds (s : State) (m : Nat) (k : Mooring) : (s.setMoor m k).holds = s.holds := rfl
@[simp] theorem State.setMoor_cmds (s : State) (m : Nat) (k : Mooring) : (s.setMoor m k).cmds = s.cmds := rfl
@[simp] theorem State.setMoor_ctx (s : State) (m : Nat) (k : Mooring) : (s.setMoor m k).ctx = s.ctx := rfl
@[simp] theorem State.setMoor_issuing (s : State) (m : Nat) (k : Mooring) : (s.setMoor m k).issuing = s.issuing := rfl
@[simp] theorem State.setMoor_trapped (s : State) (m : Nat) (k : Mooring) : (s.setMoor m k).trapped = s.trapped := rfl
@[simp] theorem State.setMoor_compl (s : State) (m : Nat) (k : Mooring) : (s.setMoor m k).compl = s.compl := rfl
@[simp] theorem State.setMoor_log (s : State) (m : Nat) (k : Mooring) : (s.setMoor m k).log = s.log := rfl
@[simp] theorem State.setMoor_frames (s : State) (m : Nat) (k : Mooring) : (s.setMoor m k).frames = s.frames := rfl
@[simp] theorem State.setMoor_hostData (s : State) (m : Nat) (k : Mooring) : (s.setMoor m k).hostData = s.hostData := rfl
@[simp] theorem State.setMoor_memWas (s : State) (m : Nat) (k : Mooring) : (s.setMoor m k).memWas = s.memWas := rfl
@[simp] theorem State.setMoor_stackPar (s : State) (m : Nat) (k : Mooring) : (s.setMoor m k).stackPar = s.stackPar := rfl
@[simp] theorem State.setMoor_boot (s : State) (m : Nat) (k : Mooring) : (s.setMoor m k).boot = s.boot := rfl
@[simp] theorem State.setMoor_planes (s : State) (m : Nat) (k : Mooring) : (s.setMoor m k).planes = s.planes := rfl

@[simp] theorem State.setChan_now (s : State) (c : Nat) (k : Channel) : (s.setChan c k).now = s.now := rfl
@[simp] theorem State.setChan_phase (s : State) (c : Nat) (k : Channel) : (s.setChan c k).phase = s.phase := rfl
@[simp] theorem State.setChan_agenda (s : State) (c : Nat) (k : Channel) : (s.setChan c k).agenda = s.agenda := rfl
@[simp] theorem State.setChan_ev (s : State) (c : Nat) (k : Channel) : (s.setChan c k).ev = s.ev := rfl
@[simp] theorem State.setChan_inputs (s : State) (c : Nat) (k : Channel) : (s.setChan c k).inputs = s.inputs := rfl
@[simp] theorem State.setChan_free (s : State) (c : Nat) (k : Channel) : (s.setChan c k).free = s.free := rfl
@[simp] theorem State.setChan_nextId (s : State) (c : Nat) (k : Channel) : (s.setChan c k).nextId = s.nextId := rfl
@[simp] theorem State.setChan_mem (s : State) (c : Nat) (k : Channel) : (s.setChan c k).mem = s.mem := rfl
@[simp] theorem State.setChan_poison (s : State) (c : Nat) (k : Channel) : (s.setChan c k).poison = s.poison := rfl
@[simp] theorem State.setChan_errs (s : State) (c : Nat) (k : Channel) : (s.setChan c k).errs = s.errs := rfl
@[simp] theorem State.setChan_moorings (s : State) (c : Nat) (k : Channel) : (s.setChan c k).moorings = s.moorings := rfl
@[simp] theorem State.setChan_copies (s : State) (c : Nat) (k : Channel) : (s.setChan c k).copies = s.copies := rfl
@[simp] theorem State.setChan_cores (s : State) (c : Nat) (k : Channel) : (s.setChan c k).cores = s.cores := rfl
@[simp] theorem State.setChan_bufs (s : State) (c : Nat) (k : Channel) : (s.setChan c k).bufs = s.bufs := rfl
@[simp] theorem State.setChan_bufPoi (s : State) (c : Nat) (k : Channel) : (s.setChan c k).bufPoi = s.bufPoi := rfl
@[simp] theorem State.setChan_accesses (s : State) (c : Nat) (k : Channel) : (s.setChan c k).accesses = s.accesses := rfl
@[simp] theorem State.setChan_holds (s : State) (c : Nat) (k : Channel) : (s.setChan c k).holds = s.holds := rfl
@[simp] theorem State.setChan_cmds (s : State) (c : Nat) (k : Channel) : (s.setChan c k).cmds = s.cmds := rfl
@[simp] theorem State.setChan_ctx (s : State) (c : Nat) (k : Channel) : (s.setChan c k).ctx = s.ctx := rfl
@[simp] theorem State.setChan_issuing (s : State) (c : Nat) (k : Channel) : (s.setChan c k).issuing = s.issuing := rfl
@[simp] theorem State.setChan_trapped (s : State) (c : Nat) (k : Channel) : (s.setChan c k).trapped = s.trapped := rfl
@[simp] theorem State.setChan_compl (s : State) (c : Nat) (k : Channel) : (s.setChan c k).compl = s.compl := rfl
@[simp] theorem State.setChan_log (s : State) (c : Nat) (k : Channel) : (s.setChan c k).log = s.log := rfl
@[simp] theorem State.setChan_frames (s : State) (c : Nat) (k : Channel) : (s.setChan c k).frames = s.frames := rfl
@[simp] theorem State.setChan_hostData (s : State) (c : Nat) (k : Channel) : (s.setChan c k).hostData = s.hostData := rfl
@[simp] theorem State.setChan_memWas (s : State) (c : Nat) (k : Channel) : (s.setChan c k).memWas = s.memWas := rfl
@[simp] theorem State.setChan_stackPar (s : State) (c : Nat) (k : Channel) : (s.setChan c k).stackPar = s.stackPar := rfl
@[simp] theorem State.setChan_boot (s : State) (c : Nat) (k : Channel) : (s.setChan c k).boot = s.boot := rfl
@[simp] theorem State.setChan_planes (s : State) (c : Nat) (k : Channel) : (s.setChan c k).planes = s.planes := rfl

@[simp] theorem State.setSeq_now (s : State) (c : Nat) (q : Seq) (x : SeqState) : (s.setSeq c q x).now = s.now := rfl
@[simp] theorem State.setSeq_phase (s : State) (c : Nat) (q : Seq) (x : SeqState) : (s.setSeq c q x).phase = s.phase := rfl
@[simp] theorem State.setSeq_agenda (s : State) (c : Nat) (q : Seq) (x : SeqState) : (s.setSeq c q x).agenda = s.agenda := rfl
@[simp] theorem State.setSeq_ev (s : State) (c : Nat) (q : Seq) (x : SeqState) : (s.setSeq c q x).ev = s.ev := rfl
@[simp] theorem State.setSeq_inputs (s : State) (c : Nat) (q : Seq) (x : SeqState) : (s.setSeq c q x).inputs = s.inputs := rfl
@[simp] theorem State.setSeq_free (s : State) (c : Nat) (q : Seq) (x : SeqState) : (s.setSeq c q x).free = s.free := rfl
@[simp] theorem State.setSeq_nextId (s : State) (c : Nat) (q : Seq) (x : SeqState) : (s.setSeq c q x).nextId = s.nextId := rfl
@[simp] theorem State.setSeq_mem (s : State) (c : Nat) (q : Seq) (x : SeqState) : (s.setSeq c q x).mem = s.mem := rfl
@[simp] theorem State.setSeq_poison (s : State) (c : Nat) (q : Seq) (x : SeqState) : (s.setSeq c q x).poison = s.poison := rfl
@[simp] theorem State.setSeq_errs (s : State) (c : Nat) (q : Seq) (x : SeqState) : (s.setSeq c q x).errs = s.errs := rfl
@[simp] theorem State.setSeq_moorings (s : State) (c : Nat) (q : Seq) (x : SeqState) : (s.setSeq c q x).moorings = s.moorings := rfl
@[simp] theorem State.setSeq_channels (s : State) (c : Nat) (q : Seq) (x : SeqState) : (s.setSeq c q x).channels = s.channels := rfl
@[simp] theorem State.setSeq_copies (s : State) (c : Nat) (q : Seq) (x : SeqState) : (s.setSeq c q x).copies = s.copies := rfl
@[simp] theorem State.setSeq_bufs (s : State) (c : Nat) (q : Seq) (x : SeqState) : (s.setSeq c q x).bufs = s.bufs := rfl
@[simp] theorem State.setSeq_bufPoi (s : State) (c : Nat) (q : Seq) (x : SeqState) : (s.setSeq c q x).bufPoi = s.bufPoi := rfl
@[simp] theorem State.setSeq_accesses (s : State) (c : Nat) (q : Seq) (x : SeqState) : (s.setSeq c q x).accesses = s.accesses := rfl
@[simp] theorem State.setSeq_holds (s : State) (c : Nat) (q : Seq) (x : SeqState) : (s.setSeq c q x).holds = s.holds := rfl
@[simp] theorem State.setSeq_cmds (s : State) (c : Nat) (q : Seq) (x : SeqState) : (s.setSeq c q x).cmds = s.cmds := rfl
@[simp] theorem State.setSeq_ctx (s : State) (c : Nat) (q : Seq) (x : SeqState) : (s.setSeq c q x).ctx = s.ctx := rfl
@[simp] theorem State.setSeq_issuing (s : State) (c : Nat) (q : Seq) (x : SeqState) : (s.setSeq c q x).issuing = s.issuing := rfl
@[simp] theorem State.setSeq_trapped (s : State) (c : Nat) (q : Seq) (x : SeqState) : (s.setSeq c q x).trapped = s.trapped := rfl
@[simp] theorem State.setSeq_compl (s : State) (c : Nat) (q : Seq) (x : SeqState) : (s.setSeq c q x).compl = s.compl := rfl
@[simp] theorem State.setSeq_log (s : State) (c : Nat) (q : Seq) (x : SeqState) : (s.setSeq c q x).log = s.log := rfl
@[simp] theorem State.setSeq_frames (s : State) (c : Nat) (q : Seq) (x : SeqState) : (s.setSeq c q x).frames = s.frames := rfl
@[simp] theorem State.setSeq_hostData (s : State) (c : Nat) (q : Seq) (x : SeqState) : (s.setSeq c q x).hostData = s.hostData := rfl
@[simp] theorem State.setSeq_memWas (s : State) (c : Nat) (q : Seq) (x : SeqState) : (s.setSeq c q x).memWas = s.memWas := rfl
@[simp] theorem State.setSeq_stackPar (s : State) (c : Nat) (q : Seq) (x : SeqState) : (s.setSeq c q x).stackPar = s.stackPar := rfl
@[simp] theorem State.setSeq_boot (s : State) (c : Nat) (q : Seq) (x : SeqState) : (s.setSeq c q x).boot = s.boot := rfl
@[simp] theorem State.setSeq_planes (s : State) (c : Nat) (q : Seq) (x : SeqState) : (s.setSeq c q x).planes = s.planes := rfl

@[simp] theorem State.updSeq_now (s : State) (c : Nat) (q : Seq) (f : SeqState → SeqState) : (s.updSeq c q f).now = s.now := rfl
@[simp] theorem State.updSeq_phase (s : State) (c : Nat) (q : Seq) (f : SeqState → SeqState) : (s.updSeq c q f).phase = s.phase := rfl
@[simp] theorem State.updSeq_agenda (s : State) (c : Nat) (q : Seq) (f : SeqState → SeqState) : (s.updSeq c q f).agenda = s.agenda := rfl
@[simp] theorem State.updSeq_ev (s : State) (c : Nat) (q : Seq) (f : SeqState → SeqState) : (s.updSeq c q f).ev = s.ev := rfl
@[simp] theorem State.updSeq_inputs (s : State) (c : Nat) (q : Seq) (f : SeqState → SeqState) : (s.updSeq c q f).inputs = s.inputs := rfl
@[simp] theorem State.updSeq_free (s : State) (c : Nat) (q : Seq) (f : SeqState → SeqState) : (s.updSeq c q f).free = s.free := rfl
@[simp] theorem State.updSeq_nextId (s : State) (c : Nat) (q : Seq) (f : SeqState → SeqState) : (s.updSeq c q f).nextId = s.nextId := rfl
@[simp] theorem State.updSeq_mem (s : State) (c : Nat) (q : Seq) (f : SeqState → SeqState) : (s.updSeq c q f).mem = s.mem := rfl
@[simp] theorem State.updSeq_poison (s : State) (c : Nat) (q : Seq) (f : SeqState → SeqState) : (s.updSeq c q f).poison = s.poison := rfl
@[simp] theorem State.updSeq_errs (s : State) (c : Nat) (q : Seq) (f : SeqState → SeqState) : (s.updSeq c q f).errs = s.errs := rfl
@[simp] theorem State.updSeq_moorings (s : State) (c : Nat) (q : Seq) (f : SeqState → SeqState) : (s.updSeq c q f).moorings = s.moorings := rfl
@[simp] theorem State.updSeq_channels (s : State) (c : Nat) (q : Seq) (f : SeqState → SeqState) : (s.updSeq c q f).channels = s.channels := rfl
@[simp] theorem State.updSeq_copies (s : State) (c : Nat) (q : Seq) (f : SeqState → SeqState) : (s.updSeq c q f).copies = s.copies := rfl
@[simp] theorem State.updSeq_bufs (s : State) (c : Nat) (q : Seq) (f : SeqState → SeqState) : (s.updSeq c q f).bufs = s.bufs := rfl
@[simp] theorem State.updSeq_bufPoi (s : State) (c : Nat) (q : Seq) (f : SeqState → SeqState) : (s.updSeq c q f).bufPoi = s.bufPoi := rfl
@[simp] theorem State.updSeq_accesses (s : State) (c : Nat) (q : Seq) (f : SeqState → SeqState) : (s.updSeq c q f).accesses = s.accesses := rfl
@[simp] theorem State.updSeq_holds (s : State) (c : Nat) (q : Seq) (f : SeqState → SeqState) : (s.updSeq c q f).holds = s.holds := rfl
@[simp] theorem State.updSeq_cmds (s : State) (c : Nat) (q : Seq) (f : SeqState → SeqState) : (s.updSeq c q f).cmds = s.cmds := rfl
@[simp] theorem State.updSeq_ctx (s : State) (c : Nat) (q : Seq) (f : SeqState → SeqState) : (s.updSeq c q f).ctx = s.ctx := rfl
@[simp] theorem State.updSeq_issuing (s : State) (c : Nat) (q : Seq) (f : SeqState → SeqState) : (s.updSeq c q f).issuing = s.issuing := rfl
@[simp] theorem State.updSeq_trapped (s : State) (c : Nat) (q : Seq) (f : SeqState → SeqState) : (s.updSeq c q f).trapped = s.trapped := rfl
@[simp] theorem State.updSeq_compl (s : State) (c : Nat) (q : Seq) (f : SeqState → SeqState) : (s.updSeq c q f).compl = s.compl := rfl
@[simp] theorem State.updSeq_log (s : State) (c : Nat) (q : Seq) (f : SeqState → SeqState) : (s.updSeq c q f).log = s.log := rfl
@[simp] theorem State.updSeq_frames (s : State) (c : Nat) (q : Seq) (f : SeqState → SeqState) : (s.updSeq c q f).frames = s.frames := rfl
@[simp] theorem State.updSeq_hostData (s : State) (c : Nat) (q : Seq) (f : SeqState → SeqState) : (s.updSeq c q f).hostData = s.hostData := rfl
@[simp] theorem State.updSeq_memWas (s : State) (c : Nat) (q : Seq) (f : SeqState → SeqState) : (s.updSeq c q f).memWas = s.memWas := rfl
@[simp] theorem State.updSeq_stackPar (s : State) (c : Nat) (q : Seq) (f : SeqState → SeqState) : (s.updSeq c q f).stackPar = s.stackPar := rfl
@[simp] theorem State.updSeq_boot (s : State) (c : Nat) (q : Seq) (f : SeqState → SeqState) : (s.updSeq c q f).boot = s.boot := rfl
@[simp] theorem State.updSeq_planes (s : State) (c : Nat) (q : Seq) (f : SeqState → SeqState) : (s.updSeq c q f).planes = s.planes := rfl

@[simp] theorem State.updCore_now (s : State) (c : Nat) (f : Core → Core) : (s.updCore c f).now = s.now := rfl
@[simp] theorem State.updCore_phase (s : State) (c : Nat) (f : Core → Core) : (s.updCore c f).phase = s.phase := rfl
@[simp] theorem State.updCore_agenda (s : State) (c : Nat) (f : Core → Core) : (s.updCore c f).agenda = s.agenda := rfl
@[simp] theorem State.updCore_ev (s : State) (c : Nat) (f : Core → Core) : (s.updCore c f).ev = s.ev := rfl
@[simp] theorem State.updCore_inputs (s : State) (c : Nat) (f : Core → Core) : (s.updCore c f).inputs = s.inputs := rfl
@[simp] theorem State.updCore_free (s : State) (c : Nat) (f : Core → Core) : (s.updCore c f).free = s.free := rfl
@[simp] theorem State.updCore_nextId (s : State) (c : Nat) (f : Core → Core) : (s.updCore c f).nextId = s.nextId := rfl
@[simp] theorem State.updCore_mem (s : State) (c : Nat) (f : Core → Core) : (s.updCore c f).mem = s.mem := rfl
@[simp] theorem State.updCore_poison (s : State) (c : Nat) (f : Core → Core) : (s.updCore c f).poison = s.poison := rfl
@[simp] theorem State.updCore_errs (s : State) (c : Nat) (f : Core → Core) : (s.updCore c f).errs = s.errs := rfl
@[simp] theorem State.updCore_moorings (s : State) (c : Nat) (f : Core → Core) : (s.updCore c f).moorings = s.moorings := rfl
@[simp] theorem State.updCore_channels (s : State) (c : Nat) (f : Core → Core) : (s.updCore c f).channels = s.channels := rfl
@[simp] theorem State.updCore_copies (s : State) (c : Nat) (f : Core → Core) : (s.updCore c f).copies = s.copies := rfl
@[simp] theorem State.updCore_bufs (s : State) (c : Nat) (f : Core → Core) : (s.updCore c f).bufs = s.bufs := rfl
@[simp] theorem State.updCore_bufPoi (s : State) (c : Nat) (f : Core → Core) : (s.updCore c f).bufPoi = s.bufPoi := rfl
@[simp] theorem State.updCore_accesses (s : State) (c : Nat) (f : Core → Core) : (s.updCore c f).accesses = s.accesses := rfl
@[simp] theorem State.updCore_holds (s : State) (c : Nat) (f : Core → Core) : (s.updCore c f).holds = s.holds := rfl
@[simp] theorem State.updCore_cmds (s : State) (c : Nat) (f : Core → Core) : (s.updCore c f).cmds = s.cmds := rfl
@[simp] theorem State.updCore_ctx (s : State) (c : Nat) (f : Core → Core) : (s.updCore c f).ctx = s.ctx := rfl
@[simp] theorem State.updCore_issuing (s : State) (c : Nat) (f : Core → Core) : (s.updCore c f).issuing = s.issuing := rfl
@[simp] theorem State.updCore_trapped (s : State) (c : Nat) (f : Core → Core) : (s.updCore c f).trapped = s.trapped := rfl
@[simp] theorem State.updCore_compl (s : State) (c : Nat) (f : Core → Core) : (s.updCore c f).compl = s.compl := rfl
@[simp] theorem State.updCore_log (s : State) (c : Nat) (f : Core → Core) : (s.updCore c f).log = s.log := rfl
@[simp] theorem State.updCore_frames (s : State) (c : Nat) (f : Core → Core) : (s.updCore c f).frames = s.frames := rfl
@[simp] theorem State.updCore_hostData (s : State) (c : Nat) (f : Core → Core) : (s.updCore c f).hostData = s.hostData := rfl
@[simp] theorem State.updCore_memWas (s : State) (c : Nat) (f : Core → Core) : (s.updCore c f).memWas = s.memWas := rfl
@[simp] theorem State.updCore_stackPar (s : State) (c : Nat) (f : Core → Core) : (s.updCore c f).stackPar = s.stackPar := rfl
@[simp] theorem State.updCore_boot (s : State) (c : Nat) (f : Core → Core) : (s.updCore c f).boot = s.boot := rfl
@[simp] theorem State.updCore_planes (s : State) (c : Nat) (f : Core → Core) : (s.updCore c f).planes = s.planes := rfl

@[simp] theorem State.updCur_now (s : State) (f : SeqState → SeqState) : (s.updCur f).now = s.now := rfl
@[simp] theorem State.updCur_phase (s : State) (f : SeqState → SeqState) : (s.updCur f).phase = s.phase := rfl
@[simp] theorem State.updCur_agenda (s : State) (f : SeqState → SeqState) : (s.updCur f).agenda = s.agenda := rfl
@[simp] theorem State.updCur_ev (s : State) (f : SeqState → SeqState) : (s.updCur f).ev = s.ev := rfl
@[simp] theorem State.updCur_inputs (s : State) (f : SeqState → SeqState) : (s.updCur f).inputs = s.inputs := rfl
@[simp] theorem State.updCur_free (s : State) (f : SeqState → SeqState) : (s.updCur f).free = s.free := rfl
@[simp] theorem State.updCur_nextId (s : State) (f : SeqState → SeqState) : (s.updCur f).nextId = s.nextId := rfl
@[simp] theorem State.updCur_mem (s : State) (f : SeqState → SeqState) : (s.updCur f).mem = s.mem := rfl
@[simp] theorem State.updCur_poison (s : State) (f : SeqState → SeqState) : (s.updCur f).poison = s.poison := rfl
@[simp] theorem State.updCur_errs (s : State) (f : SeqState → SeqState) : (s.updCur f).errs = s.errs := rfl
@[simp] theorem State.updCur_moorings (s : State) (f : SeqState → SeqState) : (s.updCur f).moorings = s.moorings := rfl
@[simp] theorem State.updCur_channels (s : State) (f : SeqState → SeqState) : (s.updCur f).channels = s.channels := rfl
@[simp] theorem State.updCur_copies (s : State) (f : SeqState → SeqState) : (s.updCur f).copies = s.copies := rfl
@[simp] theorem State.updCur_bufs (s : State) (f : SeqState → SeqState) : (s.updCur f).bufs = s.bufs := rfl
@[simp] theorem State.updCur_bufPoi (s : State) (f : SeqState → SeqState) : (s.updCur f).bufPoi = s.bufPoi := rfl
@[simp] theorem State.updCur_accesses (s : State) (f : SeqState → SeqState) : (s.updCur f).accesses = s.accesses := rfl
@[simp] theorem State.updCur_holds (s : State) (f : SeqState → SeqState) : (s.updCur f).holds = s.holds := rfl
@[simp] theorem State.updCur_cmds (s : State) (f : SeqState → SeqState) : (s.updCur f).cmds = s.cmds := rfl
@[simp] theorem State.updCur_ctx (s : State) (f : SeqState → SeqState) : (s.updCur f).ctx = s.ctx := rfl
@[simp] theorem State.updCur_issuing (s : State) (f : SeqState → SeqState) : (s.updCur f).issuing = s.issuing := rfl
@[simp] theorem State.updCur_trapped (s : State) (f : SeqState → SeqState) : (s.updCur f).trapped = s.trapped := rfl
@[simp] theorem State.updCur_compl (s : State) (f : SeqState → SeqState) : (s.updCur f).compl = s.compl := rfl
@[simp] theorem State.updCur_log (s : State) (f : SeqState → SeqState) : (s.updCur f).log = s.log := rfl
@[simp] theorem State.updCur_frames (s : State) (f : SeqState → SeqState) : (s.updCur f).frames = s.frames := rfl
@[simp] theorem State.updCur_hostData (s : State) (f : SeqState → SeqState) : (s.updCur f).hostData = s.hostData := rfl
@[simp] theorem State.updCur_memWas (s : State) (f : SeqState → SeqState) : (s.updCur f).memWas = s.memWas := rfl
@[simp] theorem State.updCur_stackPar (s : State) (f : SeqState → SeqState) : (s.updCur f).stackPar = s.stackPar := rfl
@[simp] theorem State.updCur_boot (s : State) (f : SeqState → SeqState) : (s.updCur f).boot = s.boot := rfl
@[simp] theorem State.updCur_planes (s : State) (f : SeqState → SeqState) : (s.updCur f).planes = s.planes := rfl

@[simp] theorem State.updMoor_now (s : State) (m : Nat) (f : Mooring → Mooring) : (s.updMoor m f).now = s.now := rfl
@[simp] theorem State.updMoor_phase (s : State) (m : Nat) (f : Mooring → Mooring) : (s.updMoor m f).phase = s.phase := rfl
@[simp] theorem State.updMoor_agenda (s : State) (m : Nat) (f : Mooring → Mooring) : (s.updMoor m f).agenda = s.agenda := rfl
@[simp] theorem State.updMoor_ev (s : State) (m : Nat) (f : Mooring → Mooring) : (s.updMoor m f).ev = s.ev := rfl
@[simp] theorem State.updMoor_inputs (s : State) (m : Nat) (f : Mooring → Mooring) : (s.updMoor m f).inputs = s.inputs := rfl
@[simp] theorem State.updMoor_free (s : State) (m : Nat) (f : Mooring → Mooring) : (s.updMoor m f).free = s.free := rfl
@[simp] theorem State.updMoor_nextId (s : State) (m : Nat) (f : Mooring → Mooring) : (s.updMoor m f).nextId = s.nextId := rfl
@[simp] theorem State.updMoor_mem (s : State) (m : Nat) (f : Mooring → Mooring) : (s.updMoor m f).mem = s.mem := rfl
@[simp] theorem State.updMoor_poison (s : State) (m : Nat) (f : Mooring → Mooring) : (s.updMoor m f).poison = s.poison := rfl
@[simp] theorem State.updMoor_errs (s : State) (m : Nat) (f : Mooring → Mooring) : (s.updMoor m f).errs = s.errs := rfl
@[simp] theorem State.updMoor_channels (s : State) (m : Nat) (f : Mooring → Mooring) : (s.updMoor m f).channels = s.channels := rfl
@[simp] theorem State.updMoor_copies (s : State) (m : Nat) (f : Mooring → Mooring) : (s.updMoor m f).copies = s.copies := rfl
@[simp] theorem State.updMoor_cores (s : State) (m : Nat) (f : Mooring → Mooring) : (s.updMoor m f).cores = s.cores := rfl
@[simp] theorem State.updMoor_bufs (s : State) (m : Nat) (f : Mooring → Mooring) : (s.updMoor m f).bufs = s.bufs := rfl
@[simp] theorem State.updMoor_bufPoi (s : State) (m : Nat) (f : Mooring → Mooring) : (s.updMoor m f).bufPoi = s.bufPoi := rfl
@[simp] theorem State.updMoor_accesses (s : State) (m : Nat) (f : Mooring → Mooring) : (s.updMoor m f).accesses = s.accesses := rfl
@[simp] theorem State.updMoor_holds (s : State) (m : Nat) (f : Mooring → Mooring) : (s.updMoor m f).holds = s.holds := rfl
@[simp] theorem State.updMoor_cmds (s : State) (m : Nat) (f : Mooring → Mooring) : (s.updMoor m f).cmds = s.cmds := rfl
@[simp] theorem State.updMoor_ctx (s : State) (m : Nat) (f : Mooring → Mooring) : (s.updMoor m f).ctx = s.ctx := rfl
@[simp] theorem State.updMoor_issuing (s : State) (m : Nat) (f : Mooring → Mooring) : (s.updMoor m f).issuing = s.issuing := rfl
@[simp] theorem State.updMoor_trapped (s : State) (m : Nat) (f : Mooring → Mooring) : (s.updMoor m f).trapped = s.trapped := rfl
@[simp] theorem State.updMoor_compl (s : State) (m : Nat) (f : Mooring → Mooring) : (s.updMoor m f).compl = s.compl := rfl
@[simp] theorem State.updMoor_log (s : State) (m : Nat) (f : Mooring → Mooring) : (s.updMoor m f).log = s.log := rfl
@[simp] theorem State.updMoor_frames (s : State) (m : Nat) (f : Mooring → Mooring) : (s.updMoor m f).frames = s.frames := rfl
@[simp] theorem State.updMoor_hostData (s : State) (m : Nat) (f : Mooring → Mooring) : (s.updMoor m f).hostData = s.hostData := rfl
@[simp] theorem State.updMoor_memWas (s : State) (m : Nat) (f : Mooring → Mooring) : (s.updMoor m f).memWas = s.memWas := rfl
@[simp] theorem State.updMoor_stackPar (s : State) (m : Nat) (f : Mooring → Mooring) : (s.updMoor m f).stackPar = s.stackPar := rfl
@[simp] theorem State.updMoor_boot (s : State) (m : Nat) (f : Mooring → Mooring) : (s.updMoor m f).boot = s.boot := rfl
@[simp] theorem State.updMoor_planes (s : State) (m : Nat) (f : Mooring → Mooring) : (s.updMoor m f).planes = s.planes := rfl

@[simp] theorem State.push_now (s : State) (e : QEntry) : (s.push e).now = s.now := rfl
@[simp] theorem State.push_phase (s : State) (e : QEntry) : (s.push e).phase = s.phase := rfl
@[simp] theorem State.push_agenda (s : State) (e : QEntry) : (s.push e).agenda = s.agenda := rfl
@[simp] theorem State.push_ev (s : State) (e : QEntry) : (s.push e).ev = s.ev := rfl
@[simp] theorem State.push_inputs (s : State) (e : QEntry) : (s.push e).inputs = s.inputs := rfl
@[simp] theorem State.push_free (s : State) (e : QEntry) : (s.push e).free = s.free := rfl
@[simp] theorem State.push_nextId (s : State) (e : QEntry) : (s.push e).nextId = s.nextId := rfl
@[simp] theorem State.push_mem (s : State) (e : QEntry) : (s.push e).mem = s.mem := rfl
@[simp] theorem State.push_poison (s : State) (e : QEntry) : (s.push e).poison = s.poison := rfl
@[simp] theorem State.push_errs (s : State) (e : QEntry) : (s.push e).errs = s.errs := rfl
@[simp] theorem State.push_moorings (s : State) (e : QEntry) : (s.push e).moorings = s.moorings := rfl
@[simp] theorem State.push_channels (s : State) (e : QEntry) : (s.push e).channels = s.channels := rfl
@[simp] theorem State.push_copies (s : State) (e : QEntry) : (s.push e).copies = s.copies := rfl
@[simp] theorem State.push_bufs (s : State) (e : QEntry) : (s.push e).bufs = s.bufs := rfl
@[simp] theorem State.push_bufPoi (s : State) (e : QEntry) : (s.push e).bufPoi = s.bufPoi := rfl
@[simp] theorem State.push_accesses (s : State) (e : QEntry) : (s.push e).accesses = s.accesses := rfl
@[simp] theorem State.push_holds (s : State) (e : QEntry) : (s.push e).holds = s.holds := rfl
@[simp] theorem State.push_cmds (s : State) (e : QEntry) : (s.push e).cmds = s.cmds := rfl
@[simp] theorem State.push_ctx (s : State) (e : QEntry) : (s.push e).ctx = s.ctx := rfl
@[simp] theorem State.push_issuing (s : State) (e : QEntry) : (s.push e).issuing = s.issuing := rfl
@[simp] theorem State.push_trapped (s : State) (e : QEntry) : (s.push e).trapped = s.trapped := rfl
@[simp] theorem State.push_compl (s : State) (e : QEntry) : (s.push e).compl = s.compl := rfl
@[simp] theorem State.push_log (s : State) (e : QEntry) : (s.push e).log = s.log := rfl
@[simp] theorem State.push_frames (s : State) (e : QEntry) : (s.push e).frames = s.frames := rfl
@[simp] theorem State.push_hostData (s : State) (e : QEntry) : (s.push e).hostData = s.hostData := rfl
@[simp] theorem State.push_memWas (s : State) (e : QEntry) : (s.push e).memWas = s.memWas := rfl
@[simp] theorem State.push_stackPar (s : State) (e : QEntry) : (s.push e).stackPar = s.stackPar := rfl
@[simp] theorem State.push_boot (s : State) (e : QEntry) : (s.push e).boot = s.boot := rfl
@[simp] theorem State.push_planes (s : State) (e : QEntry) : (s.push e).planes = s.planes := rfl

@[simp] theorem State.addHold_now (s : State) (o : HOwn) (us : List Use) : (s.addHold o us).now = s.now := rfl
@[simp] theorem State.addHold_phase (s : State) (o : HOwn) (us : List Use) : (s.addHold o us).phase = s.phase := rfl
@[simp] theorem State.addHold_agenda (s : State) (o : HOwn) (us : List Use) : (s.addHold o us).agenda = s.agenda := rfl
@[simp] theorem State.addHold_ev (s : State) (o : HOwn) (us : List Use) : (s.addHold o us).ev = s.ev := rfl
@[simp] theorem State.addHold_inputs (s : State) (o : HOwn) (us : List Use) : (s.addHold o us).inputs = s.inputs := rfl
@[simp] theorem State.addHold_free (s : State) (o : HOwn) (us : List Use) : (s.addHold o us).free = s.free := rfl
@[simp] theorem State.addHold_nextId (s : State) (o : HOwn) (us : List Use) : (s.addHold o us).nextId = s.nextId := rfl
@[simp] theorem State.addHold_mem (s : State) (o : HOwn) (us : List Use) : (s.addHold o us).mem = s.mem := rfl
@[simp] theorem State.addHold_poison (s : State) (o : HOwn) (us : List Use) : (s.addHold o us).poison = s.poison := rfl
@[simp] theorem State.addHold_errs (s : State) (o : HOwn) (us : List Use) : (s.addHold o us).errs = s.errs := rfl
@[simp] theorem State.addHold_moorings (s : State) (o : HOwn) (us : List Use) : (s.addHold o us).moorings = s.moorings := rfl
@[simp] theorem State.addHold_channels (s : State) (o : HOwn) (us : List Use) : (s.addHold o us).channels = s.channels := rfl
@[simp] theorem State.addHold_copies (s : State) (o : HOwn) (us : List Use) : (s.addHold o us).copies = s.copies := rfl
@[simp] theorem State.addHold_cores (s : State) (o : HOwn) (us : List Use) : (s.addHold o us).cores = s.cores := rfl
@[simp] theorem State.addHold_bufs (s : State) (o : HOwn) (us : List Use) : (s.addHold o us).bufs = s.bufs := rfl
@[simp] theorem State.addHold_bufPoi (s : State) (o : HOwn) (us : List Use) : (s.addHold o us).bufPoi = s.bufPoi := rfl
@[simp] theorem State.addHold_accesses (s : State) (o : HOwn) (us : List Use) : (s.addHold o us).accesses = s.accesses := rfl
@[simp] theorem State.addHold_cmds (s : State) (o : HOwn) (us : List Use) : (s.addHold o us).cmds = s.cmds := rfl
@[simp] theorem State.addHold_ctx (s : State) (o : HOwn) (us : List Use) : (s.addHold o us).ctx = s.ctx := rfl
@[simp] theorem State.addHold_issuing (s : State) (o : HOwn) (us : List Use) : (s.addHold o us).issuing = s.issuing := rfl
@[simp] theorem State.addHold_trapped (s : State) (o : HOwn) (us : List Use) : (s.addHold o us).trapped = s.trapped := rfl
@[simp] theorem State.addHold_compl (s : State) (o : HOwn) (us : List Use) : (s.addHold o us).compl = s.compl := rfl
@[simp] theorem State.addHold_log (s : State) (o : HOwn) (us : List Use) : (s.addHold o us).log = s.log := rfl
@[simp] theorem State.addHold_frames (s : State) (o : HOwn) (us : List Use) : (s.addHold o us).frames = s.frames := rfl
@[simp] theorem State.addHold_hostData (s : State) (o : HOwn) (us : List Use) : (s.addHold o us).hostData = s.hostData := rfl
@[simp] theorem State.addHold_memWas (s : State) (o : HOwn) (us : List Use) : (s.addHold o us).memWas = s.memWas := rfl
@[simp] theorem State.addHold_stackPar (s : State) (o : HOwn) (us : List Use) : (s.addHold o us).stackPar = s.stackPar := rfl
@[simp] theorem State.addHold_boot (s : State) (o : HOwn) (us : List Use) : (s.addHold o us).boot = s.boot := rfl
@[simp] theorem State.addHold_planes (s : State) (o : HOwn) (us : List Use) : (s.addHold o us).planes = s.planes := rfl

@[simp] theorem State.lockGran_now (s : State) (o : HOwn) (us : List Use) (t : Nat) : (s.lockGran o us t).now = s.now := rfl
@[simp] theorem State.lockGran_phase (s : State) (o : HOwn) (us : List Use) (t : Nat) : (s.lockGran o us t).phase = s.phase := rfl
@[simp] theorem State.lockGran_agenda (s : State) (o : HOwn) (us : List Use) (t : Nat) : (s.lockGran o us t).agenda = s.agenda := rfl
@[simp] theorem State.lockGran_ev (s : State) (o : HOwn) (us : List Use) (t : Nat) : (s.lockGran o us t).ev = s.ev := rfl
@[simp] theorem State.lockGran_inputs (s : State) (o : HOwn) (us : List Use) (t : Nat) : (s.lockGran o us t).inputs = s.inputs := rfl
@[simp] theorem State.lockGran_free (s : State) (o : HOwn) (us : List Use) (t : Nat) : (s.lockGran o us t).free = s.free := rfl
@[simp] theorem State.lockGran_nextId (s : State) (o : HOwn) (us : List Use) (t : Nat) : (s.lockGran o us t).nextId = s.nextId := rfl
@[simp] theorem State.lockGran_mem (s : State) (o : HOwn) (us : List Use) (t : Nat) : (s.lockGran o us t).mem = s.mem := rfl
@[simp] theorem State.lockGran_poison (s : State) (o : HOwn) (us : List Use) (t : Nat) : (s.lockGran o us t).poison = s.poison := rfl
@[simp] theorem State.lockGran_errs (s : State) (o : HOwn) (us : List Use) (t : Nat) : (s.lockGran o us t).errs = s.errs := rfl
@[simp] theorem State.lockGran_moorings (s : State) (o : HOwn) (us : List Use) (t : Nat) : (s.lockGran o us t).moorings = s.moorings := rfl
@[simp] theorem State.lockGran_channels (s : State) (o : HOwn) (us : List Use) (t : Nat) : (s.lockGran o us t).channels = s.channels := rfl
@[simp] theorem State.lockGran_copies (s : State) (o : HOwn) (us : List Use) (t : Nat) : (s.lockGran o us t).copies = s.copies := rfl
@[simp] theorem State.lockGran_cores (s : State) (o : HOwn) (us : List Use) (t : Nat) : (s.lockGran o us t).cores = s.cores := rfl
@[simp] theorem State.lockGran_bufs (s : State) (o : HOwn) (us : List Use) (t : Nat) : (s.lockGran o us t).bufs = s.bufs := rfl
@[simp] theorem State.lockGran_bufPoi (s : State) (o : HOwn) (us : List Use) (t : Nat) : (s.lockGran o us t).bufPoi = s.bufPoi := rfl
@[simp] theorem State.lockGran_accesses (s : State) (o : HOwn) (us : List Use) (t : Nat) : (s.lockGran o us t).accesses = s.accesses := rfl
@[simp] theorem State.lockGran_cmds (s : State) (o : HOwn) (us : List Use) (t : Nat) : (s.lockGran o us t).cmds = s.cmds := rfl
@[simp] theorem State.lockGran_ctx (s : State) (o : HOwn) (us : List Use) (t : Nat) : (s.lockGran o us t).ctx = s.ctx := rfl
@[simp] theorem State.lockGran_issuing (s : State) (o : HOwn) (us : List Use) (t : Nat) : (s.lockGran o us t).issuing = s.issuing := rfl
@[simp] theorem State.lockGran_trapped (s : State) (o : HOwn) (us : List Use) (t : Nat) : (s.lockGran o us t).trapped = s.trapped := rfl
@[simp] theorem State.lockGran_compl (s : State) (o : HOwn) (us : List Use) (t : Nat) : (s.lockGran o us t).compl = s.compl := rfl
@[simp] theorem State.lockGran_log (s : State) (o : HOwn) (us : List Use) (t : Nat) : (s.lockGran o us t).log = s.log := rfl
@[simp] theorem State.lockGran_frames (s : State) (o : HOwn) (us : List Use) (t : Nat) : (s.lockGran o us t).frames = s.frames := rfl
@[simp] theorem State.lockGran_hostData (s : State) (o : HOwn) (us : List Use) (t : Nat) : (s.lockGran o us t).hostData = s.hostData := rfl
@[simp] theorem State.lockGran_memWas (s : State) (o : HOwn) (us : List Use) (t : Nat) : (s.lockGran o us t).memWas = s.memWas := rfl
@[simp] theorem State.lockGran_stackPar (s : State) (o : HOwn) (us : List Use) (t : Nat) : (s.lockGran o us t).stackPar = s.stackPar := rfl
@[simp] theorem State.lockGran_boot (s : State) (o : HOwn) (us : List Use) (t : Nat) : (s.lockGran o us t).boot = s.boot := rfl
@[simp] theorem State.lockGran_planes (s : State) (o : HOwn) (us : List Use) (t : Nat) : (s.lockGran o us t).planes = s.planes := rfl

@[simp] theorem State.addAccess_now (s : State) (t va : Nat) (k : AKind) (w v : Bool) (sp : Space) (sl : Slot) (l : Nat) : (s.addAccess t va k w v sp sl l).now = s.now := rfl
@[simp] theorem State.addAccess_phase (s : State) (t va : Nat) (k : AKind) (w v : Bool) (sp : Space) (sl : Slot) (l : Nat) : (s.addAccess t va k w v sp sl l).phase = s.phase := rfl
@[simp] theorem State.addAccess_agenda (s : State) (t va : Nat) (k : AKind) (w v : Bool) (sp : Space) (sl : Slot) (l : Nat) : (s.addAccess t va k w v sp sl l).agenda = s.agenda := rfl
@[simp] theorem State.addAccess_ev (s : State) (t va : Nat) (k : AKind) (w v : Bool) (sp : Space) (sl : Slot) (l : Nat) : (s.addAccess t va k w v sp sl l).ev = s.ev := rfl
@[simp] theorem State.addAccess_inputs (s : State) (t va : Nat) (k : AKind) (w v : Bool) (sp : Space) (sl : Slot) (l : Nat) : (s.addAccess t va k w v sp sl l).inputs = s.inputs := rfl
@[simp] theorem State.addAccess_free (s : State) (t va : Nat) (k : AKind) (w v : Bool) (sp : Space) (sl : Slot) (l : Nat) : (s.addAccess t va k w v sp sl l).free = s.free := rfl
@[simp] theorem State.addAccess_mem (s : State) (t va : Nat) (k : AKind) (w v : Bool) (sp : Space) (sl : Slot) (l : Nat) : (s.addAccess t va k w v sp sl l).mem = s.mem := rfl
@[simp] theorem State.addAccess_poison (s : State) (t va : Nat) (k : AKind) (w v : Bool) (sp : Space) (sl : Slot) (l : Nat) : (s.addAccess t va k w v sp sl l).poison = s.poison := rfl
@[simp] theorem State.addAccess_errs (s : State) (t va : Nat) (k : AKind) (w v : Bool) (sp : Space) (sl : Slot) (l : Nat) : (s.addAccess t va k w v sp sl l).errs = s.errs := rfl
@[simp] theorem State.addAccess_moorings (s : State) (t va : Nat) (k : AKind) (w v : Bool) (sp : Space) (sl : Slot) (l : Nat) : (s.addAccess t va k w v sp sl l).moorings = s.moorings := rfl
@[simp] theorem State.addAccess_channels (s : State) (t va : Nat) (k : AKind) (w v : Bool) (sp : Space) (sl : Slot) (l : Nat) : (s.addAccess t va k w v sp sl l).channels = s.channels := rfl
@[simp] theorem State.addAccess_copies (s : State) (t va : Nat) (k : AKind) (w v : Bool) (sp : Space) (sl : Slot) (l : Nat) : (s.addAccess t va k w v sp sl l).copies = s.copies := rfl
@[simp] theorem State.addAccess_cores (s : State) (t va : Nat) (k : AKind) (w v : Bool) (sp : Space) (sl : Slot) (l : Nat) : (s.addAccess t va k w v sp sl l).cores = s.cores := rfl
@[simp] theorem State.addAccess_bufs (s : State) (t va : Nat) (k : AKind) (w v : Bool) (sp : Space) (sl : Slot) (l : Nat) : (s.addAccess t va k w v sp sl l).bufs = s.bufs := rfl
@[simp] theorem State.addAccess_bufPoi (s : State) (t va : Nat) (k : AKind) (w v : Bool) (sp : Space) (sl : Slot) (l : Nat) : (s.addAccess t va k w v sp sl l).bufPoi = s.bufPoi := rfl
@[simp] theorem State.addAccess_holds (s : State) (t va : Nat) (k : AKind) (w v : Bool) (sp : Space) (sl : Slot) (l : Nat) : (s.addAccess t va k w v sp sl l).holds = s.holds := rfl
@[simp] theorem State.addAccess_cmds (s : State) (t va : Nat) (k : AKind) (w v : Bool) (sp : Space) (sl : Slot) (l : Nat) : (s.addAccess t va k w v sp sl l).cmds = s.cmds := rfl
@[simp] theorem State.addAccess_ctx (s : State) (t va : Nat) (k : AKind) (w v : Bool) (sp : Space) (sl : Slot) (l : Nat) : (s.addAccess t va k w v sp sl l).ctx = s.ctx := rfl
@[simp] theorem State.addAccess_issuing (s : State) (t va : Nat) (k : AKind) (w v : Bool) (sp : Space) (sl : Slot) (l : Nat) : (s.addAccess t va k w v sp sl l).issuing = s.issuing := rfl
@[simp] theorem State.addAccess_trapped (s : State) (t va : Nat) (k : AKind) (w v : Bool) (sp : Space) (sl : Slot) (l : Nat) : (s.addAccess t va k w v sp sl l).trapped = s.trapped := rfl
@[simp] theorem State.addAccess_compl (s : State) (t va : Nat) (k : AKind) (w v : Bool) (sp : Space) (sl : Slot) (l : Nat) : (s.addAccess t va k w v sp sl l).compl = s.compl := rfl
@[simp] theorem State.addAccess_log (s : State) (t va : Nat) (k : AKind) (w v : Bool) (sp : Space) (sl : Slot) (l : Nat) : (s.addAccess t va k w v sp sl l).log = s.log := rfl
@[simp] theorem State.addAccess_frames (s : State) (t va : Nat) (k : AKind) (w v : Bool) (sp : Space) (sl : Slot) (l : Nat) : (s.addAccess t va k w v sp sl l).frames = s.frames := rfl
@[simp] theorem State.addAccess_hostData (s : State) (t va : Nat) (k : AKind) (w v : Bool) (sp : Space) (sl : Slot) (l : Nat) : (s.addAccess t va k w v sp sl l).hostData = s.hostData := rfl
@[simp] theorem State.addAccess_memWas (s : State) (t va : Nat) (k : AKind) (w v : Bool) (sp : Space) (sl : Slot) (l : Nat) : (s.addAccess t va k w v sp sl l).memWas = s.memWas := rfl
@[simp] theorem State.addAccess_stackPar (s : State) (t va : Nat) (k : AKind) (w v : Bool) (sp : Space) (sl : Slot) (l : Nat) : (s.addAccess t va k w v sp sl l).stackPar = s.stackPar := rfl
@[simp] theorem State.addAccess_boot (s : State) (t va : Nat) (k : AKind) (w v : Bool) (sp : Space) (sl : Slot) (l : Nat) : (s.addAccess t va k w v sp sl l).boot = s.boot := rfl
@[simp] theorem State.addAccess_planes (s : State) (t va : Nat) (k : AKind) (w v : Bool) (sp : Space) (sl : Slot) (l : Nat) : (s.addAccess t va k w v sp sl l).planes = s.planes := rfl

@[simp] theorem State.addEng_now (s : State) (id t : Nat) (p : Place) (k : AKind) (w : Bool) : (s.addEng id t p k w).now = s.now := rfl
@[simp] theorem State.addEng_phase (s : State) (id t : Nat) (p : Place) (k : AKind) (w : Bool) : (s.addEng id t p k w).phase = s.phase := rfl
@[simp] theorem State.addEng_agenda (s : State) (id t : Nat) (p : Place) (k : AKind) (w : Bool) : (s.addEng id t p k w).agenda = s.agenda := rfl
@[simp] theorem State.addEng_ev (s : State) (id t : Nat) (p : Place) (k : AKind) (w : Bool) : (s.addEng id t p k w).ev = s.ev := rfl
@[simp] theorem State.addEng_inputs (s : State) (id t : Nat) (p : Place) (k : AKind) (w : Bool) : (s.addEng id t p k w).inputs = s.inputs := rfl
@[simp] theorem State.addEng_free (s : State) (id t : Nat) (p : Place) (k : AKind) (w : Bool) : (s.addEng id t p k w).free = s.free := rfl
@[simp] theorem State.addEng_mem (s : State) (id t : Nat) (p : Place) (k : AKind) (w : Bool) : (s.addEng id t p k w).mem = s.mem := rfl
@[simp] theorem State.addEng_poison (s : State) (id t : Nat) (p : Place) (k : AKind) (w : Bool) : (s.addEng id t p k w).poison = s.poison := rfl
@[simp] theorem State.addEng_errs (s : State) (id t : Nat) (p : Place) (k : AKind) (w : Bool) : (s.addEng id t p k w).errs = s.errs := rfl
@[simp] theorem State.addEng_moorings (s : State) (id t : Nat) (p : Place) (k : AKind) (w : Bool) : (s.addEng id t p k w).moorings = s.moorings := rfl
@[simp] theorem State.addEng_channels (s : State) (id t : Nat) (p : Place) (k : AKind) (w : Bool) : (s.addEng id t p k w).channels = s.channels := rfl
@[simp] theorem State.addEng_copies (s : State) (id t : Nat) (p : Place) (k : AKind) (w : Bool) : (s.addEng id t p k w).copies = s.copies := rfl
@[simp] theorem State.addEng_cores (s : State) (id t : Nat) (p : Place) (k : AKind) (w : Bool) : (s.addEng id t p k w).cores = s.cores := rfl
@[simp] theorem State.addEng_bufs (s : State) (id t : Nat) (p : Place) (k : AKind) (w : Bool) : (s.addEng id t p k w).bufs = s.bufs := rfl
@[simp] theorem State.addEng_bufPoi (s : State) (id t : Nat) (p : Place) (k : AKind) (w : Bool) : (s.addEng id t p k w).bufPoi = s.bufPoi := rfl
@[simp] theorem State.addEng_holds (s : State) (id t : Nat) (p : Place) (k : AKind) (w : Bool) : (s.addEng id t p k w).holds = s.holds := rfl
@[simp] theorem State.addEng_cmds (s : State) (id t : Nat) (p : Place) (k : AKind) (w : Bool) : (s.addEng id t p k w).cmds = s.cmds := rfl
@[simp] theorem State.addEng_ctx (s : State) (id t : Nat) (p : Place) (k : AKind) (w : Bool) : (s.addEng id t p k w).ctx = s.ctx := rfl
@[simp] theorem State.addEng_issuing (s : State) (id t : Nat) (p : Place) (k : AKind) (w : Bool) : (s.addEng id t p k w).issuing = s.issuing := rfl
@[simp] theorem State.addEng_trapped (s : State) (id t : Nat) (p : Place) (k : AKind) (w : Bool) : (s.addEng id t p k w).trapped = s.trapped := rfl
@[simp] theorem State.addEng_compl (s : State) (id t : Nat) (p : Place) (k : AKind) (w : Bool) : (s.addEng id t p k w).compl = s.compl := rfl
@[simp] theorem State.addEng_log (s : State) (id t : Nat) (p : Place) (k : AKind) (w : Bool) : (s.addEng id t p k w).log = s.log := rfl
@[simp] theorem State.addEng_frames (s : State) (id t : Nat) (p : Place) (k : AKind) (w : Bool) : (s.addEng id t p k w).frames = s.frames := rfl
@[simp] theorem State.addEng_hostData (s : State) (id t : Nat) (p : Place) (k : AKind) (w : Bool) : (s.addEng id t p k w).hostData = s.hostData := rfl
@[simp] theorem State.addEng_memWas (s : State) (id t : Nat) (p : Place) (k : AKind) (w : Bool) : (s.addEng id t p k w).memWas = s.memWas := rfl
@[simp] theorem State.addEng_stackPar (s : State) (id t : Nat) (p : Place) (k : AKind) (w : Bool) : (s.addEng id t p k w).stackPar = s.stackPar := rfl
@[simp] theorem State.addEng_boot (s : State) (id t : Nat) (p : Place) (k : AKind) (w : Bool) : (s.addEng id t p k w).boot = s.boot := rfl
@[simp] theorem State.addEng_planes (s : State) (id t : Nat) (p : Place) (k : AKind) (w : Bool) : (s.addEng id t p k w).planes = s.planes := rfl

@[simp] theorem State.complete_now (s : State) (k m n : Nat) (p : List Byte) : (s.complete k m n p).now = s.now := rfl
@[simp] theorem State.complete_phase (s : State) (k m n : Nat) (p : List Byte) : (s.complete k m n p).phase = s.phase := rfl
@[simp] theorem State.complete_agenda (s : State) (k m n : Nat) (p : List Byte) : (s.complete k m n p).agenda = s.agenda := rfl
@[simp] theorem State.complete_ev (s : State) (k m n : Nat) (p : List Byte) : (s.complete k m n p).ev = s.ev := rfl
@[simp] theorem State.complete_inputs (s : State) (k m n : Nat) (p : List Byte) : (s.complete k m n p).inputs = s.inputs := rfl
@[simp] theorem State.complete_free (s : State) (k m n : Nat) (p : List Byte) : (s.complete k m n p).free = s.free := rfl
@[simp] theorem State.complete_nextId (s : State) (k m n : Nat) (p : List Byte) : (s.complete k m n p).nextId = s.nextId := rfl
@[simp] theorem State.complete_mem (s : State) (k m n : Nat) (p : List Byte) : (s.complete k m n p).mem = s.mem := rfl
@[simp] theorem State.complete_poison (s : State) (k m n : Nat) (p : List Byte) : (s.complete k m n p).poison = s.poison := rfl
@[simp] theorem State.complete_errs (s : State) (k m n : Nat) (p : List Byte) : (s.complete k m n p).errs = s.errs := rfl
@[simp] theorem State.complete_moorings (s : State) (k m n : Nat) (p : List Byte) : (s.complete k m n p).moorings = s.moorings := rfl
@[simp] theorem State.complete_channels (s : State) (k m n : Nat) (p : List Byte) : (s.complete k m n p).channels = s.channels := rfl
@[simp] theorem State.complete_copies (s : State) (k m n : Nat) (p : List Byte) : (s.complete k m n p).copies = s.copies := rfl
@[simp] theorem State.complete_cores (s : State) (k m n : Nat) (p : List Byte) : (s.complete k m n p).cores = s.cores := rfl
@[simp] theorem State.complete_bufs (s : State) (k m n : Nat) (p : List Byte) : (s.complete k m n p).bufs = s.bufs := rfl
@[simp] theorem State.complete_bufPoi (s : State) (k m n : Nat) (p : List Byte) : (s.complete k m n p).bufPoi = s.bufPoi := rfl
@[simp] theorem State.complete_accesses (s : State) (k m n : Nat) (p : List Byte) : (s.complete k m n p).accesses = s.accesses := rfl
@[simp] theorem State.complete_holds (s : State) (k m n : Nat) (p : List Byte) : (s.complete k m n p).holds = s.holds := rfl
@[simp] theorem State.complete_cmds (s : State) (k m n : Nat) (p : List Byte) : (s.complete k m n p).cmds = s.cmds := rfl
@[simp] theorem State.complete_ctx (s : State) (k m n : Nat) (p : List Byte) : (s.complete k m n p).ctx = s.ctx := rfl
@[simp] theorem State.complete_issuing (s : State) (k m n : Nat) (p : List Byte) : (s.complete k m n p).issuing = s.issuing := rfl
@[simp] theorem State.complete_trapped (s : State) (k m n : Nat) (p : List Byte) : (s.complete k m n p).trapped = s.trapped := rfl
@[simp] theorem State.complete_log (s : State) (k m n : Nat) (p : List Byte) : (s.complete k m n p).log = s.log := rfl
@[simp] theorem State.complete_frames (s : State) (k m n : Nat) (p : List Byte) : (s.complete k m n p).frames = s.frames := rfl
@[simp] theorem State.complete_hostData (s : State) (k m n : Nat) (p : List Byte) : (s.complete k m n p).hostData = s.hostData := rfl
@[simp] theorem State.complete_memWas (s : State) (k m n : Nat) (p : List Byte) : (s.complete k m n p).memWas = s.memWas := rfl
@[simp] theorem State.complete_stackPar (s : State) (k m n : Nat) (p : List Byte) : (s.complete k m n p).stackPar = s.stackPar := rfl
@[simp] theorem State.complete_boot (s : State) (k m n : Nat) (p : List Byte) : (s.complete k m n p).boot = s.boot := rfl
@[simp] theorem State.complete_planes (s : State) (k m n : Nat) (p : List Byte) : (s.complete k m n p).planes = s.planes := rfl

@[simp] theorem State.putBytes_now (s : State) (a : Nat) (bs : List Byte) (ps : List Bool) : (s.putBytes a bs ps).now = s.now := rfl
@[simp] theorem State.putBytes_phase (s : State) (a : Nat) (bs : List Byte) (ps : List Bool) : (s.putBytes a bs ps).phase = s.phase := rfl
@[simp] theorem State.putBytes_agenda (s : State) (a : Nat) (bs : List Byte) (ps : List Bool) : (s.putBytes a bs ps).agenda = s.agenda := rfl
@[simp] theorem State.putBytes_ev (s : State) (a : Nat) (bs : List Byte) (ps : List Bool) : (s.putBytes a bs ps).ev = s.ev := rfl
@[simp] theorem State.putBytes_inputs (s : State) (a : Nat) (bs : List Byte) (ps : List Bool) : (s.putBytes a bs ps).inputs = s.inputs := rfl
@[simp] theorem State.putBytes_free (s : State) (a : Nat) (bs : List Byte) (ps : List Bool) : (s.putBytes a bs ps).free = s.free := rfl
@[simp] theorem State.putBytes_nextId (s : State) (a : Nat) (bs : List Byte) (ps : List Bool) : (s.putBytes a bs ps).nextId = s.nextId := rfl
@[simp] theorem State.putBytes_moorings (s : State) (a : Nat) (bs : List Byte) (ps : List Bool) : (s.putBytes a bs ps).moorings = s.moorings := rfl
@[simp] theorem State.putBytes_channels (s : State) (a : Nat) (bs : List Byte) (ps : List Bool) : (s.putBytes a bs ps).channels = s.channels := rfl
@[simp] theorem State.putBytes_copies (s : State) (a : Nat) (bs : List Byte) (ps : List Bool) : (s.putBytes a bs ps).copies = s.copies := rfl
@[simp] theorem State.putBytes_cores (s : State) (a : Nat) (bs : List Byte) (ps : List Bool) : (s.putBytes a bs ps).cores = s.cores := rfl
@[simp] theorem State.putBytes_bufs (s : State) (a : Nat) (bs : List Byte) (ps : List Bool) : (s.putBytes a bs ps).bufs = s.bufs := rfl
@[simp] theorem State.putBytes_bufPoi (s : State) (a : Nat) (bs : List Byte) (ps : List Bool) : (s.putBytes a bs ps).bufPoi = s.bufPoi := rfl
@[simp] theorem State.putBytes_accesses (s : State) (a : Nat) (bs : List Byte) (ps : List Bool) : (s.putBytes a bs ps).accesses = s.accesses := rfl
@[simp] theorem State.putBytes_holds (s : State) (a : Nat) (bs : List Byte) (ps : List Bool) : (s.putBytes a bs ps).holds = s.holds := rfl
@[simp] theorem State.putBytes_cmds (s : State) (a : Nat) (bs : List Byte) (ps : List Bool) : (s.putBytes a bs ps).cmds = s.cmds := rfl
@[simp] theorem State.putBytes_ctx (s : State) (a : Nat) (bs : List Byte) (ps : List Bool) : (s.putBytes a bs ps).ctx = s.ctx := rfl
@[simp] theorem State.putBytes_issuing (s : State) (a : Nat) (bs : List Byte) (ps : List Bool) : (s.putBytes a bs ps).issuing = s.issuing := rfl
@[simp] theorem State.putBytes_trapped (s : State) (a : Nat) (bs : List Byte) (ps : List Bool) : (s.putBytes a bs ps).trapped = s.trapped := rfl
@[simp] theorem State.putBytes_compl (s : State) (a : Nat) (bs : List Byte) (ps : List Bool) : (s.putBytes a bs ps).compl = s.compl := rfl
@[simp] theorem State.putBytes_log (s : State) (a : Nat) (bs : List Byte) (ps : List Bool) : (s.putBytes a bs ps).log = s.log := rfl
@[simp] theorem State.putBytes_frames (s : State) (a : Nat) (bs : List Byte) (ps : List Bool) : (s.putBytes a bs ps).frames = s.frames := rfl
@[simp] theorem State.putBytes_hostData (s : State) (a : Nat) (bs : List Byte) (ps : List Bool) : (s.putBytes a bs ps).hostData = s.hostData := rfl
@[simp] theorem State.putBytes_memWas (s : State) (a : Nat) (bs : List Byte) (ps : List Bool) : (s.putBytes a bs ps).memWas = s.memWas := rfl
@[simp] theorem State.putBytes_stackPar (s : State) (a : Nat) (bs : List Byte) (ps : List Bool) : (s.putBytes a bs ps).stackPar = s.stackPar := rfl
@[simp] theorem State.putBytes_boot (s : State) (a : Nat) (bs : List Byte) (ps : List Bool) : (s.putBytes a bs ps).boot = s.boot := rfl
@[simp] theorem State.putBytes_planes (s : State) (a : Nat) (bs : List Byte) (ps : List Bool) : (s.putBytes a bs ps).planes = s.planes := rfl

@[simp] theorem State.putClean_now (s : State) (a : Nat) (bs : List Byte) : (s.putClean a bs).now = s.now := rfl
@[simp] theorem State.putClean_phase (s : State) (a : Nat) (bs : List Byte) : (s.putClean a bs).phase = s.phase := rfl
@[simp] theorem State.putClean_agenda (s : State) (a : Nat) (bs : List Byte) : (s.putClean a bs).agenda = s.agenda := rfl
@[simp] theorem State.putClean_ev (s : State) (a : Nat) (bs : List Byte) : (s.putClean a bs).ev = s.ev := rfl
@[simp] theorem State.putClean_inputs (s : State) (a : Nat) (bs : List Byte) : (s.putClean a bs).inputs = s.inputs := rfl
@[simp] theorem State.putClean_free (s : State) (a : Nat) (bs : List Byte) : (s.putClean a bs).free = s.free := rfl
@[simp] theorem State.putClean_nextId (s : State) (a : Nat) (bs : List Byte) : (s.putClean a bs).nextId = s.nextId := rfl
@[simp] theorem State.putClean_moorings (s : State) (a : Nat) (bs : List Byte) : (s.putClean a bs).moorings = s.moorings := rfl
@[simp] theorem State.putClean_channels (s : State) (a : Nat) (bs : List Byte) : (s.putClean a bs).channels = s.channels := rfl
@[simp] theorem State.putClean_copies (s : State) (a : Nat) (bs : List Byte) : (s.putClean a bs).copies = s.copies := rfl
@[simp] theorem State.putClean_cores (s : State) (a : Nat) (bs : List Byte) : (s.putClean a bs).cores = s.cores := rfl
@[simp] theorem State.putClean_bufs (s : State) (a : Nat) (bs : List Byte) : (s.putClean a bs).bufs = s.bufs := rfl
@[simp] theorem State.putClean_bufPoi (s : State) (a : Nat) (bs : List Byte) : (s.putClean a bs).bufPoi = s.bufPoi := rfl
@[simp] theorem State.putClean_accesses (s : State) (a : Nat) (bs : List Byte) : (s.putClean a bs).accesses = s.accesses := rfl
@[simp] theorem State.putClean_holds (s : State) (a : Nat) (bs : List Byte) : (s.putClean a bs).holds = s.holds := rfl
@[simp] theorem State.putClean_cmds (s : State) (a : Nat) (bs : List Byte) : (s.putClean a bs).cmds = s.cmds := rfl
@[simp] theorem State.putClean_ctx (s : State) (a : Nat) (bs : List Byte) : (s.putClean a bs).ctx = s.ctx := rfl
@[simp] theorem State.putClean_issuing (s : State) (a : Nat) (bs : List Byte) : (s.putClean a bs).issuing = s.issuing := rfl
@[simp] theorem State.putClean_trapped (s : State) (a : Nat) (bs : List Byte) : (s.putClean a bs).trapped = s.trapped := rfl
@[simp] theorem State.putClean_compl (s : State) (a : Nat) (bs : List Byte) : (s.putClean a bs).compl = s.compl := rfl
@[simp] theorem State.putClean_log (s : State) (a : Nat) (bs : List Byte) : (s.putClean a bs).log = s.log := rfl
@[simp] theorem State.putClean_frames (s : State) (a : Nat) (bs : List Byte) : (s.putClean a bs).frames = s.frames := rfl
@[simp] theorem State.putClean_hostData (s : State) (a : Nat) (bs : List Byte) : (s.putClean a bs).hostData = s.hostData := rfl
@[simp] theorem State.putClean_memWas (s : State) (a : Nat) (bs : List Byte) : (s.putClean a bs).memWas = s.memWas := rfl
@[simp] theorem State.putClean_stackPar (s : State) (a : Nat) (bs : List Byte) : (s.putClean a bs).stackPar = s.stackPar := rfl
@[simp] theorem State.putClean_boot (s : State) (a : Nat) (bs : List Byte) : (s.putClean a bs).boot = s.boot := rfl
@[simp] theorem State.putClean_planes (s : State) (a : Nat) (bs : List Byte) : (s.putClean a bs).planes = s.planes := rfl

@[simp] theorem State.updCmd_now (s : State) (id : Nat) (f : Cmd → Cmd) : (s.updCmd id f).now = s.now := rfl
@[simp] theorem State.updCmd_phase (s : State) (id : Nat) (f : Cmd → Cmd) : (s.updCmd id f).phase = s.phase := rfl
@[simp] theorem State.updCmd_agenda (s : State) (id : Nat) (f : Cmd → Cmd) : (s.updCmd id f).agenda = s.agenda := rfl
@[simp] theorem State.updCmd_ev (s : State) (id : Nat) (f : Cmd → Cmd) : (s.updCmd id f).ev = s.ev := rfl
@[simp] theorem State.updCmd_inputs (s : State) (id : Nat) (f : Cmd → Cmd) : (s.updCmd id f).inputs = s.inputs := rfl
@[simp] theorem State.updCmd_free (s : State) (id : Nat) (f : Cmd → Cmd) : (s.updCmd id f).free = s.free := rfl
@[simp] theorem State.updCmd_nextId (s : State) (id : Nat) (f : Cmd → Cmd) : (s.updCmd id f).nextId = s.nextId := rfl
@[simp] theorem State.updCmd_mem (s : State) (id : Nat) (f : Cmd → Cmd) : (s.updCmd id f).mem = s.mem := rfl
@[simp] theorem State.updCmd_poison (s : State) (id : Nat) (f : Cmd → Cmd) : (s.updCmd id f).poison = s.poison := rfl
@[simp] theorem State.updCmd_errs (s : State) (id : Nat) (f : Cmd → Cmd) : (s.updCmd id f).errs = s.errs := rfl
@[simp] theorem State.updCmd_moorings (s : State) (id : Nat) (f : Cmd → Cmd) : (s.updCmd id f).moorings = s.moorings := rfl
@[simp] theorem State.updCmd_channels (s : State) (id : Nat) (f : Cmd → Cmd) : (s.updCmd id f).channels = s.channels := rfl
@[simp] theorem State.updCmd_copies (s : State) (id : Nat) (f : Cmd → Cmd) : (s.updCmd id f).copies = s.copies := rfl
@[simp] theorem State.updCmd_cores (s : State) (id : Nat) (f : Cmd → Cmd) : (s.updCmd id f).cores = s.cores := rfl
@[simp] theorem State.updCmd_bufs (s : State) (id : Nat) (f : Cmd → Cmd) : (s.updCmd id f).bufs = s.bufs := rfl
@[simp] theorem State.updCmd_bufPoi (s : State) (id : Nat) (f : Cmd → Cmd) : (s.updCmd id f).bufPoi = s.bufPoi := rfl
@[simp] theorem State.updCmd_accesses (s : State) (id : Nat) (f : Cmd → Cmd) : (s.updCmd id f).accesses = s.accesses := rfl
@[simp] theorem State.updCmd_holds (s : State) (id : Nat) (f : Cmd → Cmd) : (s.updCmd id f).holds = s.holds := rfl
@[simp] theorem State.updCmd_ctx (s : State) (id : Nat) (f : Cmd → Cmd) : (s.updCmd id f).ctx = s.ctx := rfl
@[simp] theorem State.updCmd_issuing (s : State) (id : Nat) (f : Cmd → Cmd) : (s.updCmd id f).issuing = s.issuing := rfl
@[simp] theorem State.updCmd_trapped (s : State) (id : Nat) (f : Cmd → Cmd) : (s.updCmd id f).trapped = s.trapped := rfl
@[simp] theorem State.updCmd_compl (s : State) (id : Nat) (f : Cmd → Cmd) : (s.updCmd id f).compl = s.compl := rfl
@[simp] theorem State.updCmd_log (s : State) (id : Nat) (f : Cmd → Cmd) : (s.updCmd id f).log = s.log := rfl
@[simp] theorem State.updCmd_frames (s : State) (id : Nat) (f : Cmd → Cmd) : (s.updCmd id f).frames = s.frames := rfl
@[simp] theorem State.updCmd_hostData (s : State) (id : Nat) (f : Cmd → Cmd) : (s.updCmd id f).hostData = s.hostData := rfl
@[simp] theorem State.updCmd_memWas (s : State) (id : Nat) (f : Cmd → Cmd) : (s.updCmd id f).memWas = s.memWas := rfl
@[simp] theorem State.updCmd_stackPar (s : State) (id : Nat) (f : Cmd → Cmd) : (s.updCmd id f).stackPar = s.stackPar := rfl
@[simp] theorem State.updCmd_boot (s : State) (id : Nat) (f : Cmd → Cmd) : (s.updCmd id f).boot = s.boot := rfl
@[simp] theorem State.updCmd_planes (s : State) (id : Nat) (f : Cmd → Cmd) : (s.updCmd id f).planes = s.planes := rfl

end Sys2Proof.Machine
end

