-- ==== Sys2Proof/Laws/Canon.lean ====
section
/-! SUPPORT. Sys2Proof/Laws/Canon.lean: the operations that write sparse parts of the state keep their canonical form, and the state right
after reset has it. -/

namespace Sys2Proof.Machine
open Config

/-! ### Sparse maps -/

/-- A part of a map in canonical form is in canonical form. -/
theorem swf_filter {α : Type} [DecidableEq α] {d : α} (p : Nat × α → Bool) :
    ∀ {l : List (Nat × α)} {b : Nat}, swf d b l = true → swf d b (l.filter p) = true
  | [], _, h => h
  | (k, v) :: l, b, h => by
    simp only [swf, Bool.and_eq_true, decide_eq_true_eq] at h
    rw [List.filter_cons]
    split
    · simp only [swf, Bool.and_eq_true, decide_eq_true_eq]
      exact ⟨h.1, swf_filter p h.2⟩
    · exact swf_mono (by omega) (swf_filter p h.2)

/-- A fold of writes keeps the canonical form. -/
theorem tidy_foldl {α β : Type} [DecidableEq α] {d : α} (key : β → Nat) (val : β → α) :
    ∀ (l : List β) {m : List (Nat × α)}, Tidy d m → Tidy d (l.foldl (fun m x => sset d m (key x) (val x)) m)
  | [], _, h => h
  | _ :: l, _, h => tidy_foldl key val l (swf_sset (Nat.zero_le _) h _)

theorem tidy_sset {α : Type} [DecidableEq α] {d : α} {l : List (Nat × α)} (h : Tidy d l) (n : Nat) (x : α) : Tidy d (sset d l n x) :=
  swf_sset (Nat.zero_le _) h x

/-! ### Poison -/

theorem tidy_poisonGo (a0 n : Nat) : ∀ (ps : List Bool) {p : List (Nat × Bool)} (a : Nat), Tidy false p → Tidy false (poisonGo a0 n p a ps)
  | [], _, _, h => h
  | b :: l, p, a, h => by
    simp only [poisonGo]
    refine tidy_poisonGo a0 n l (a + 1) ?_
    split
    · exact tidy_sset h _ _
    · split
      · exact tidy_sset h _ _
      · exact h

theorem tidy_poisonWrite {p : List (Nat × Bool)} (h : Tidy false p) (a : Nat) (ps : List Bool) : Tidy false (poisonWrite p a ps) :=
  tidy_poisonGo _ _ _ _ h

/-! ### The whole state -/

/-- The canonical form of the four largest maps depends on them alone. -/
theorem State.Canon.of_eq {s t : State} (h : s.Canon) (e1 : t.mem = s.mem) (e2 : t.poison = s.poison) (e3 : t.cores = s.cores)
    (e4 : t.channels = s.channels) : t.Canon := ⟨e1 ▸ h.mem, e2 ▸ h.poison, e3 ▸ h.cores, e4 ▸ h.channels⟩

/-- The form depends on the sparse parts alone. -/
theorem State.Formed.of_eq {s t : State} (h : s.Formed) (e1 : t.mem = s.mem) (e2 : t.poison = s.poison) (e3 : t.cores = s.cores)
    (e4 : t.channels = s.channels) (e5 : t.planes = s.planes) (e6 : t.counters = s.counters) (e7 : t.bufs = s.bufs)
    (e8 : t.moorings = s.moorings) : t.Formed where
  canon := h.canon.of_eq e1 e2 e3 e4
  planes := e5 ▸ h.planes
  counters := e6 ▸ h.counters
  bufs := e7 ▸ h.bufs
  gotos m := by simpa only [State.moor, e8] using h.gotos m
  stores c := by simpa only [State.chan, e4] using h.stores c

theorem State.Formed.putBytes {s : State} (h : s.Formed) (a : Nat) (bs : List Byte) (ps : List Bool) : (s.putBytes a bs ps).Formed :=
  { h with canon := { h.canon with mem := Memory.wf_write bs h.canon.mem a, poison := tidy_poisonWrite h.canon.poison a ps } }

theorem State.Formed.putClean {s : State} (h : s.Formed) (a : Nat) (bs : List Byte) : (s.putClean a bs).Formed := h.putBytes a bs _

theorem State.Formed.setCore {s : State} (h : s.Formed) (c : Nat) (k : Core) : (s.setCore c k).Formed :=
  { h with canon := { h.canon with cores := tidy_sset h.canon.cores c k } }

theorem State.Formed.updCore {s : State} (h : s.Formed) (c : Nat) (f : Core → Core) : (s.updCore c f).Formed := h.setCore c _
theorem State.Formed.updSeq {s : State} (h : s.Formed) (c : Nat) (q : Seq) (f : SeqState → SeqState) : (s.updSeq c q f).Formed := h.setCore c _
theorem State.Formed.updCur {s : State} (h : s.Formed) (f : SeqState → SeqState) : (s.updCur f).Formed := h.updSeq _ _ f
theorem State.Formed.push {s : State} (h : s.Formed) (e : QEntry) : (s.push e).Formed := h.updCur _

theorem State.Formed.setChan {s : State} (h : s.Formed) (c : Nat) (k : Channel) (hk : Tidy 0 k.store) : (s.setChan c k).Formed where
  canon := { h.canon with channels := tidy_sset h.canon.channels c k }
  planes := h.planes
  counters := h.counters
  bufs := h.bufs
  gotos := h.gotos
  stores n := by
    by_cases e : n = c
    · subst e
      simpa only [State.chan, State.setChan, sget_sset_self h.canon.channels] using hk
    · simpa only [State.chan, State.setChan, sget_sset_other h.canon.channels k e] using h.stores n

/-- A change of a channel that leaves its timeline store alone. -/
theorem State.Formed.updChan {s : State} (h : s.Formed) (c : Nat) {f : Channel → Channel} (hf : ∀ k, (f k).store = k.store) :
    (s.updChan c f).Formed := h.setChan c _ (by rw [hf]; exact h.stores c)

theorem State.Formed.setMoor {s : State} (h : s.Formed) (m : Nat) (k : Mooring) (hk : Tidy 0 k.gotos) : (s.setMoor m k).Formed where
  canon := h.canon.of_eq rfl rfl rfl rfl
  planes := h.planes
  counters := h.counters
  bufs := h.bufs
  gotos n := by
    by_cases e : n = m
    · by_cases l : m < 12
      · simpa [State.moor, State.setMoor, Vector.getD, Array.getD, e, l] using hk
      · simp [State.moor, State.setMoor, Vector.getD, Array.getD, e, l, Mooring.init, Tidy, swf]
    · have := h.gotos n
      by_cases l : n < 12
      · simpa [State.moor, State.setMoor, Vector.getD, Array.getD, l, Array.getElem_setIfInBounds, Ne.symm e] using this
      · simp [State.moor, State.setMoor, Vector.getD, Array.getD, l, Mooring.init, Tidy, swf]
  stores := h.stores

/-- A change of a mooring that leaves the counters of its `GOTO` nodes alone. -/
theorem State.Formed.updMoor {s : State} (h : s.Formed) (m : Nat) {f : Mooring → Mooring} (hf : ∀ k, (f k).gotos = k.gotos) :
    (s.updMoor m f).Formed := h.setMoor m _ (by rw [hf]; exact h.gotos m)

theorem State.Formed.updPlane {s : State} (h : s.Formed) (p : Nat) (f : Plane → Plane) : (s.updPlane p f).Formed :=
  { h with canon := h.canon.of_eq rfl rfl rfl rfl, planes := tidy_sset h.planes p _ }

theorem State.Formed.logError {s : State} (h : s.Formed) (source kind addr : Nat) : (s.logError source kind addr).Formed :=
  { h with canon := h.canon.of_eq rfl rfl rfl rfl, counters := tidy_sset h.counters source _ }

theorem State.Formed.bufPut {s : State} (h : s.Formed) (k : Nat) (v : BitVec 512) (p : Bool) : (s.bufPut k v p).Formed :=
  { h with canon := h.canon.of_eq rfl rfl rfl rfl, bufs := tidy_sset h.bufs k v }

theorem State.Formed.markBad {s : State} (h : s.Formed) (a : Nat) : (s.markBad a).Formed :=
  { h with canon := { h.canon with poison := tidy_sset h.canon.poison a true } }

/-- A checkpoint's copy of a piece. -/
theorem State.Formed.copyPiece {s : State} (h : s.Formed) (src dst : Nat) : (s.copyPiece src dst).Formed :=
  { h with canon := { h.canon with
      mem := tidy_foldl (fun c : Nat × Byte => dst + (c.1 - src)) (·.2) _ (swf_filter _ h.canon.mem)
      poison := tidy_foldl (fun c : Nat × Bool => dst + (c.1 - src)) (·.2) _ (swf_filter _ h.canon.poison) } }

/-- Reads that check their units keep the form. -/
theorem State.Formed.eccRead {s : State} (h : s.Formed) (pa n : Nat) : (s.eccRead pa n).Formed := by
  unfold State.eccRead
  generalize s.errs.filter _ = l
  induction l generalizing s with
  | nil => exact h
  | cons e l ih =>
    simp only [List.foldl_cons]
    refine ih ?_
    split
    · have hl := h.logError (errSource e.1) 2 e.1
      exact { hl with canon := { hl.canon with poison := tidy_sset hl.canon.poison e.1 true } }
    · exact h.logError (errSource e.1) 1 e.1

/-- The state right after reset has the canonical form. -/
theorem reset_formed : State.reset.Formed where
  canon := ⟨rfl, rfl, rfl, rfl⟩
  planes := rfl
  counters := rfl
  bufs := rfl
  gotos m := by
    by_cases l : m < 12 <;> simp [State.moor, State.reset, Vector.getD, Array.getD, l, Mooring.init, Tidy, swf]
  stores _ := rfl

end Sys2Proof.Machine
end

