-- ==== Sys2Proof/Laws/Cur.lean ====
section
/-! SUPPORT. Sys2Proof/Laws/Cur.lean: what the issuing sequencer and its core hold after a unit is taken, a result pushed, or a field of
the sequencer changed. -/

namespace Sys2Proof.Machine
open Config

theorem slotIx_lt (sl : Slot) : slotIx sl < 8 := by cases sl <;> decide

theorem Core.seq_init (q : Seq) : Core.init.seq q = SeqState.init := by cases q <;> rfl

/-- A core of which a sequencer has left its initial state is not in its own. -/
theorem Core.ne_init_of_seq {k : Core} {q : Seq} (h : k.seq q ≠ SeqState.init) : k ≠ Core.init := by
  rintro rfl; exact h (Core.seq_init q)

theorem State.holding_core (s : State) (sl : Slot) {n : Nat} (hn : 0 < n) :
    (s.holding sl n).core s.ctx.core = match s.ctx.q with
      | .primary => { s.kore with busy := s.kore.busy.setIfInBounds (slotIx sl) (s.now + n) }
      | .secondary => { s.kore with busy2 := s.kore.busy2.setIfInBounds (slotIx sl) (s.now + n) } := by
  unfold State.holding
  have hz : ∀ v : Vector Nat 8, v.setIfInBounds (slotIx sl) (s.now + n) ≠ Vector.replicate 8 0 := by
    intro v e
    have := congrArg (fun w : Vector Nat 8 => w[slotIx sl]'(slotIx_lt sl)) e
    simp at this
    omega
  cases hq : s.ctx.q with
  | primary => exact State.core_setCore (fun e => hz _ (congrArg Core.busy e)) _ _
  | secondary => exact State.core_setCore (fun e => hz _ (congrArg Core.busy2 e)) _ _

@[simp] theorem State.holding_ctx (s : State) (sl : Slot) (n : Nat) : (s.holding sl n).ctx = s.ctx := by
  unfold State.holding; cases s.ctx.q <;> rfl

/-- Holding a unit leaves everything but the cores as it was. -/
theorem State.holding_eq (s : State) (sl : Slot) (n : Nat) : s.holding sl n = { s with cores := (s.holding sl n).cores } := by
  unfold State.holding; cases s.ctx.q <;> rfl

@[simp] theorem State.holding_cur (s : State) (sl : Slot) {n : Nat} (hn : 0 < n) : (s.holding sl n).cur = s.cur := by
  unfold State.cur State.seq
  rw [State.holding_ctx, State.holding_core s sl hn]
  cases hq : s.ctx.q <;> rfl

/-- The scalar registers of the core stand. -/
@[simp] theorem State.holding_rd (s : State) (sl : Slot) {n : Nat} (hn : 0 < n) (r : RRef) : (s.holding sl n).rd r = s.rd r := by
  unfold State.rd State.kore
  rw [State.holding_ctx, State.holding_core s sl hn]
  cases hq : s.ctx.q <;> rfl

theorem State.push_core (s : State) (e : QEntry) :
    (s.push e).core s.ctx.core = s.kore.setSeq s.ctx.q { s.cur with queue := s.cur.queue ++ [e] } := by
  refine State.core_setCore (Core.ne_init_of_seq (q := s.ctx.q) ?_) s _
  rw [Core.seq_setSeq]
  intro h
  simpa [SeqState.init] using congrArg SeqState.queue h

/-- A result waits at the end of the queue. -/
@[simp] theorem State.push_cur (s : State) (e : QEntry) : (s.push e).cur = { s.cur with queue := s.cur.queue ++ [e] } := by
  unfold State.cur State.seq
  rw [State.push_ctx, State.push_core, Core.seq_setSeq]
  rfl

end Sys2Proof.Machine
end

