-- ==== Sys2Proof/Tests/Slice0.lean ====
section
/-! SUPPORT. Sys2Proof/Tests/Slice0.lean: words and worked values of the spec, ill-formed terms, and for every statement with
hypotheses a state that meets them. -/

namespace Sys2Proof.Tests
open Sys2Proof Sys2Proof.Machine Sys2Proof.Spec Sys2Proof.Config

-- One theorem after the other: side by side, the stacks of their threads fill the memory limit.
set_option Elab.async false

/-- Words of slot A as the spec works them out (R92 to R105). -/
theorem test_decode_slot_a :
    [(decodeSyl .a 0x02208500, .add .a (.own 2) 1 (.h .p0 1)),
      (decodeSyl .a 0x02110D00, .add .a (.own 1) 2 (.h .p0 3)),
      (decodeSyl .a 0x22530000, .clz .a (.own 5) 6),
      (decodeSyl .a 0x0A110C40, .mulh .a (.own 1) 2 (.own 3) true),
      (decodeSyl .a 0x18110C40, .min .a (.own 1) 2 (.own 3) true),
      (decodeSyl .a 0x20429A00, .sel .a 4 5 (.h .p1 6)),
      (decodeSyl .a 0x24740080, .popc .a (.h 7) 8),
      (decodeSyl .a 0x8E110008, .fneg .a (.own 1) 2 .f64),
      (decodeSyl .a 0x90428080, .fabs .a (.h 4) 5 .f32),
      (decodeSyl .a 0x86208400, .fma .a 2 1 (.own 1) .rne .f32),
      (decodeSyl .a 0x92110003, .fcvt .a (.own 1) 2 .rne .bf16 .f32),
      (decodeSyl .a 0x94110010, .fclass .a (.own 1) 2 .f16),
      (decodeSyl .a 0x96618080, .fsnd .a (.h 6) 3 .f32),
      (decodeSyl .a 0x9811004C, .fsndset .a (.own 1) 2 (.imm 12)),
      (decodeSyl .a 0x06110C00, .addsat .a (.own 1) 2 (.own 3)),
      (decodeSyl .a 0x4C4200FF, .andImm .a 4 4 255),
      (decodeSyl .a 0x26111448, .bfx .a (.own 1) 2 8 11),
      (decodeSyl .a 0x10110C00, .xor .a (.own 1) 2 (.own 3))].all (fun (p : Option Instr × Instr) => p.1 == some p.2) = true := by decide

/-- Words of slot B as the spec works them out (R92 to R105). -/
theorem test_decode_slot_b :
    [(decodeSyl .b 0x84428E08, .fmul .b (.own 4) 5 (.h .p1 3) .rne .f64),
      (decodeSyl .b 0xC2038019, .bnetld 7 3 1),
      (decodeSyl .b 0xC0210081, .bnet (.h 2) 2 1),
      (decodeSyl .b 0x601003F8, .movi .b 1 1016),
      (decodeSyl .b 0x62100000, .movhi .b 1 0),
      (decodeSyl .b 0x1C110C40, .slt .b (.own 1) 2 (.own 3) true),
      (decodeSyl .b 0x5611003F, .sraImm .b 1 2 63),
      (decodeSyl .b 0x8C21900B, .fcmp .b (.own 2) 3 (.own 4) .f64 .un),
      (decodeSyl .b 0x88111610, .fmin .b (.own 1) 2 (.h .p1 5) .f16),
      (decodeSyl .b 0x4242FFFD, .addImm .b 4 5 0x7ffd),
      (decodeSyl .b 0x2832047C, .bfi .b 3 4 60 3),
      (decodeSyl .b 0x5021FFFF, .xorImm .b 2 3 0x7fff)].all (fun (p : Option Instr × Instr) => p.1 == some p.2) = true := by decide

/-- Words of slot M as the spec works them out (R92 to R105). -/
theorem test_decode_slot_m :
    [(decodeSyl .m 0x4263E002, .ldOffset 6 7 .d .own 2),
      (decodeSyl .m 0x02907C8A, .ld (.h 9) 0 (.own 31) .own .h false true),
      (decodeSyl .m 0x0A810CA0, .ldm (.h 8) 2 3 .pool),
      (decodeSyl .m 0x1C410C80, .madd (.h 4) 2 (.own 3)),
      (decodeSyl .m 0x5C4F8001, .maddImm 4 31 1),
      (decodeSyl .m 0x14310000, .gauge (.m 3) 2 false),
      (decodeSyl .m 0x14310020, .gauge (.m 3) 2 true),
      (decodeSyl .m 0x14510280, .gauge (.h ⟨.p1, 5⟩) 2 false),
      (decodeSyl .m 0x0E429830, .atom (.own 4) 5 (.own 6) true true .add),
      (decodeSyl .m 0x12610D80, .ebbadd (.h ⟨.p0, 6⟩ 3) 2 false),
      (decodeSyl .m 0x10321480, .ebbld (.h 3) 4 (.own 5) .own),
      (decodeSyl .m 0x16321410, .send (.m 3 (.own 5)) 4 .w),
      (decodeSyl .m 0x16321418, .send (.m 3 (.own 5)) 4 .d),
      (decodeSyl .m 0x1802800C, .recv 5 12),
      (decodeSyl .m 0x180F800C, .recv 31 12),
      (decodeSyl .m 0x1A020C00, .itset 0 4 (.own 3) 0)].all (fun (p : Option Instr × Instr) => p.1 == some p.2) = true := by decide

/-- Words of slot V as the spec works them out (R92 to R105). -/
theorem test_decode_slot_v :
    [(decodeSyl .v 0x02110C20, .vadd .v 1 2 (.own 3) .rtz),
      (decodeSyl .v 0x04428A00, .vsub .v 4 5 (.h .p1 2) .rne),
      (decodeSyl .v 0x06526200, .vmul .v 5 4 (.h .p1 24) .rne),
      (decodeSyl .v 0x08115D00, .vfma .v 1 2 (.h .p0 23) .rne),
      (decodeSyl .v 0x10228000, .vneg .v 2 5),
      (decodeSyl .v 0x12110C01, .vcmp .v 1 2 (.own 3) .lt),
      (decodeSyl .v 0x14110C00, .vsel .v 1 2 (.own 3)),
      (decodeSyl .v 0x44301D00, .vbcast .v 3 ⟨.p0, 7⟩),
      (decodeSyl .v 0x50110000, .vrcp .v 1 2 .rne),
      (decodeSyl .v 0x40208000, .vsum .v 2 1 false),
      (decodeSyl .v 0x42208001, .vmaxr .v 2 1 true),
      (decodeSyl .v 0x2E110043, .vshl .v 1 2 (.imm 3)),
      (decodeSyl .v 0x30300062, .vshr .v 3 0 (.imm 2) true),
      (decodeSyl .v 0x4A13C000, .vmovi .v 1 0x3c00),
      (decodeSyl .v 0x6250657F, .vst .v 5 ⟨.p0, 25⟩ 127),
      (decodeSyl .v 0x64301102, .vlds .v 3 ⟨.p0, 4⟩ 2),
      (decodeSyl .v 0x66301102, .vsts .v 3 ⟨.p0, 4⟩ 2),
      (decodeSyl .v 0x68603102, .vldx .v 6 ⟨.p0, 12⟩ 2),
      (decodeSyl .v 0x6E100518, .vstz .v 1 ⟨.p0, 1⟩ 24),
      (decodeSyl .v 0x6C200500, .vldz .v 2 ⟨.p0, 1⟩),
      (decodeSyl .v 0x72910080, .vzmap .v 9 2 0),
      (decodeSyl .v 0x70208000, .vsnd .v 2 1 false 0),
      (decodeSyl .v 0x46208000, .vtrn .v 2 1),
      (decodeSyl .v 0x18218004, .vsat .v 2 3 true 0),
      (decodeSyl .v 0x16208000, .vcvt .v 2 1 .rne false .fp32)].all (fun (p : Option Instr × Instr) => p.1 == some p.2) = true := by decide

/-- Words of slot W as the spec works them out (R92 to R105). -/
theorem test_decode_slot_w :
    [(decodeSyl .w 0x0E320000, .vabs .w 3 4),
      (decodeSyl .w 0x48210841, .vslide .w 2 2 (.own 2) true 1),
      (decodeSyl .w 0x60202900, .vld .w 2 ⟨.p0, 10⟩ 0),
      (decodeSyl .w 0x20219110, .viadd .w 2 3 (.h .p0 4) true)].all (fun (p : Option Instr × Instr) => p.1 == some p.2) = true := by decide

/-- Words of slot F as the spec works them out (R92 to R105). -/
theorem test_decode_slot_f :
    [(decodeSyl .f 0x0E308840, .fatan2 (.own 3) 1 (.own 2) .rdn .f32),
      (decodeSyl .f 0x12209100, .fdecay (.own 2) 1 (.h .p0 4))].all (fun (p : Option Instr × Instr) => p.1 == some p.2) = true := by decide

/-- Words of slot E as the spec works them out (R92 to R105). -/
theorem test_decode_slot_e :
    [(decodeSyl .e 0x06C4000D, .arrpass ⟨.p0, 12⟩ .p16 true true),
      (decodeSyl .e 0x085C0001, .arrsweep ⟨.p2, 5⟩ true),
      (decodeSyl .e 0x0E740000, .arrgang ⟨.p0, 7⟩),
      (decodeSyl .e 0x02440000, .arrld ⟨.p0, 4⟩),
      (decodeSyl .e 0x06340002, .arrpass ⟨.p0, 3⟩ .p24 false false),
      (decodeSyl .e 0x0C280000, .arrrest ⟨.p1, 2⟩),
      (decodeSyl .e 0x0A280000, .arrsave ⟨.p1, 2⟩),
      (decodeSyl .e 0x04440000, .arrscl ⟨.p0, 4⟩),
      (decodeSyl .e 0x08040000, .arrsweep ⟨.p0, 0⟩ false),
      (decodeSyl .e 0x20448002, .cpy ⟨.p0, 4⟩ 0 2),
      (decodeSyl .e 0x22348000, .cpymc ⟨.p0, 3⟩ 0 0),
      (decodeSyl .e 0x24250002, .sixrun ⟨.p0, 2⟩ 2 false),
      (decodeSyl .e 0x30358802, .coll ⟨.p0, 3⟩ 2 .allReduce .fp32),
      (decodeSyl .e 0x328E1400, .rld ⟨.p2, 8⟩ 5),
      (decodeSyl .e 0x348E1400, .rst ⟨.p2, 8⟩ 5),
      (decodeSyl .e 0x426B0000, .publish ⟨.p1, 6⟩),
      (decodeSyl .e 0x60748400, .engq ⟨.p0, 7⟩ .copy 1),
      (decodeSyl .e 0x26548400, .scrub ⟨.p0, 5⟩ 1),
      (decodeSyl .e 0x40568000, .nmc ⟨.p0, 5⟩),
      (decodeSyl .e 0x415A8000, .nmc ⟨.p1, 21⟩),
      (decodeSyl .e 0x52470001, .stepadv ⟨.p0, 4⟩ 1),
      (decodeSyl .e 0x54570003, .ebbsweep ⟨.p0, 5⟩ 3),
      (decodeSyl .e 0x50670000, .chkpt ⟨.p0, 6⟩)].all (fun (p : Option Instr × Instr) => p.1 == some p.2) = true := by decide

/-- Words of slot C as the spec works them out (R92 to R105). -/
theorem test_decode_slot_c :
    [(decodeSyl .c 0x10100C00, .xmov .a 1 .h 0),
      (decodeSyl .c 0x102C3000, .xmov .h 2 .a 3),
      (decodeSyl .c 0x101A1200, .xmov .f 1 .b 1),
      (decodeSyl .c 0x10202600, .xmov .a 2 .v 2),
      (decodeSyl .c 0x10563A00, .xmov .v 5 .f 3),
      (decodeSyl .c 0x10262800, .xmov .v 2 .w 2),
      (decodeSyl .c 0x029FFFEC, .br (.ifH ⟨.p2, 9⟩) 0x3ffec),
      (decodeSyl .c 0x0200000A, .br .always 10),
      (decodeSyl .c 0x1A039968, .waitg ⟨.p0, 6⟩ 1000),
      (decodeSyl .c 0x1A008148, .waitg ⟨.p0, 0⟩ 200),
      (decodeSyl .c 0x0434C00C, .bsnd ⟨.p0, 3⟩ 12 false 12),
      (decodeSyl .c 0x3A000007, .brk 7),
      (decodeSyl .c 0x38000005, .trap 5),
      (decodeSyl .c 0x18000003, .sync 3),
      (decodeSyl .c 0x06000011, .call 17),
      (decodeSyl .c 0x08000000, .ret),
      (decodeSyl .c 0x3E000000, .doneI),
      (decodeSyl .c 0x20000000, .watch),
      (decodeSyl .c 0x1E000000, .tfence),
      (decodeSyl .c 0x1C000001, .fence .core),
      (decodeSyl .c 0x1C000005, .fence .nm),
      (decodeSyl .c 0x30400081, .sysrd 4 1),
      (decodeSyl .c 0x30900092, .sysrd 9 18),
      (decodeSyl .c 0x32005103, .syswr ⟨.p0, 20⟩ 3),
      (decodeSyl .c 0x32000907, .syswr ⟨.p0, 2⟩ 7),
      (decodeSyl .c 0x0A200006, .loop (.imm 2) false false 6),
      (decodeSyl .c 0x140001FF, .shape .v 7 63)].all (fun (p : Option Instr × Instr) => p.1 == some p.2) = true := by decide

/-- The timeline words that the spec works out (R221 to R224). -/
theorem test_decode_timelines :
    [(decodeTimeline 0x040000000E000000, .act ⟨0, 0, 0⟩ 7),
      (decodeTimeline 0x101600000E002000, .rd ⟨22, 0, 0, 7, 0, 8192⟩),
      (decodeTimeline 0x080B000000000000, .pre ⟨11, 0, 0⟩),
      (decodeTimeline 0xA01D0C2100001F00, .mark 29 3 33 false 496),
      (decodeTimeline 0x8412000008000000, .timelineLoop 18 4),
      (decodeTimeline 0x8800000000000000, .endl 0),
      (decodeTimeline 0xFC00000000000000, .timelineEnd 0),
      (decodeTimeline 0x6053000080000000, .nmx 83 64 0)].all (fun (p : Option Instr × Instr) => p.1 == some p.2) = true := by decide

/-- Node records (R294, R295): type, delay, and the fields of bytes 16 to 63. -/
theorem test_decode_nodes :
    decodeNode 0x0F = some (.nodeEnd 0)
    ∧ decodeNode (0x07 + 64 * 2 ^ 64 + 5 * 2 ^ 128 + 2 * 2 ^ 160) = some (.goto 64 5 2)
    ∧ decodeNode (0x06 + 7 * 2 ^ 64 + 3 * 2 ^ 128) = some (.stepn 7 3)
    ∧ decodeNode (0x04 + 1 * 2 ^ 64 + 1 * 2 ^ 128 + 9 * 2 ^ 160 + 0x40010 * 2 ^ 192 + 500 * 2 ^ 256) = some (.waitn 1 1 9 0x40010 500)
    ∧ decodeNode (0x03 + 2 * 2 ^ 64 + 4 * 2 ^ 128 + 0x40002 * 2 ^ 192) = some (.publishn 2 4 0x40002)
    ∧ decodeNode (0x02 + 1 * 2 ^ 64 + 6 * 2 ^ 128 + 17 * 2 ^ 192 * 2 ^ 192 + 1080 * 2 ^ 192 * 2 ^ 256) = some (.timeline 1 6 17 1080)
    ∧ decodeNode (0x01 + 3 * 2 ^ 64 + 1 * 2 ^ 128 + 0x50000 * 2 ^ 192 + 9000 * 2 ^ 256) = some (.launch 3 1 0x50000 9000) := by decide

/-- A record of another type, or with a byte set that R294 and R295 give as 0, is none. -/
theorem test_nodes_refused :
    [0x00, 0x08, 0x10F, 0x0F + 2 ^ 128, 0x07 + 2 ^ 200, 0x06, 0x04 + 2 * 2 ^ 128, 0x03 + 33 * 2 ^ 128].all
      (fun w => (decodeNode w).isNone) = true := by decide

/-- One ill-formed term for each check of `Instr.wf` (R91, R94, R97 to R105, R221 to R224, R295). -/
theorem test_ill_formed :
    [Instr.bfi .a 1 2 60 4, .bfx .b (.own 1) 2 63 1, .bnetld 1 6 0, .fcvt .a (.own 1) 2 .rne .f32 .f32, .fcvt .a (.own 1) 2 .rne .i32 .u64,
      .atom (.own 1) 2 (.own 3) false true .fadd, .atom (.own 1) 2 (.own 3) false false .ebb, .atom (.h 1) 2 (.own 3) false true .cas, .itset 0 1 (.own 2) 6,
      .lds (.own 1) 2 (.own 3) .own .b false false, .ldsOffset 1 2 .h .own 0, .sts (.m 1 (.own 2)) 3 .own .b false, .stsOffset 1 2 .h .own 0,
      .ldm (.own 30) 1 2 .own, .stm (.m 31) 1 1 .own, .recv 1 0, .vsat .v 1 2 true 3, .vsnd .v 1 2 false 5, .vstz .v 1 ⟨.p0, 1⟩ 0,
      .fsincos 3 1 .rne .f32, .arrpass ⟨.p0, 1⟩ .p16 false true, .engq ⟨.p0, 1⟩ .copy 2, .sixrun ⟨.p0, 1⟩ 3 false, .stepadv ⟨.p0, 1⟩ 0,
      .loop (.imm 1) false false 0, .sysrd 1 0x1F, .syswr ⟨.p0, 1⟩ 0x20, .waitg ⟨.p0, 1⟩ 0, .xmov .a 1 .a 2, .xmov .f 16 .a 0, .xmov .a 0 .v 16,
      .bundleFetch 1024, .launchCycleLimit 12 0, .launchCycleLimit 0 1024, .syncTimeout 64, .taskStart 12, .windowEnd 256, .autoPrecharge 0 2 0,
      .autoPrecharge 0 0 16, .linkLoss 16, .nmx 0 31 0, .nmx 0 1024 0, .timelineLoop 0 0, .mark 0 0 0 false 0x2000, .publishn 0 0 2, .publishn 0 33 2,
      .publishn 0 1 3, .waitn 0 2 0 0 0, .chkptn 0 4 (Vector.replicate 3 0) 0, .stepn 0 0].all (fun i => !i.wf) = true := by decide

/-- Words with a bit that a slot's map gives as 0, and words of no code, decode to nothing (R91). -/
theorem test_words_refused :
    [decodeSyl .a 0, decodeSyl .a 0x02110D01, decodeSyl .b 0xC2038819, decodeSyl .b 0xFE000000, decodeSyl .c 0x3E000001, decodeSyl .c 0x08000001,
      decodeSyl .m 0x1431000F, decodeSyl .e 0x0E740001, decodeSyl .f 0x1220910F, decodeSyl .v 0x10228001, decodeSyl .w 0,
      decodeTimeline 0, decodeTimeline (2 ^ 63 + 2 ^ 62), decodeTimeline 0x8800000000000001].all (fun i => i.isNone) = true := by decide

/-! ### States -/

def word (v : Word) : Reg := ⟨v, 63, false⟩

/-- A sequencer that runs: A1 = 5, B1 = 2, M1 = 64, M2 = 256, M3 = 0, M4 = 3, M5 = 32, M6 = 16, F1 = 1.0. -/
def seq0 : SeqState := { SeqState.init with
  run := .running
  pc := 0x10000000040
  nextAt := 100
  a := SeqState.init.a.setIfInBounds 1 (word 5)
  b := SeqState.init.b.setIfInBounds 1 (word 2)
  m := ((((SeqState.init.m.setIfInBounds 1 (word 64)).setIfInBounds 2 (word 256)).setIfInBounds 4 (word 3)).setIfInBounds 5 (word 32)).setIfInBounds 6 (word 16)
  f := SeqState.init.f.setIfInBounds 1 (word 0x3F800000)
  lnk := 0x10000000100 }

/-- A core whose primary runs: H1 = 0x1000, H2 = 16. -/
def core0 : Core := { Core.init with
  prim := seq0
  h := (Core.init.h.setIfInBounds 1 (word 0x1000)).setIfInBounds 2 (word 16)
  shv := 0x47
  shw := 0x47 }

/-- A mooring of cluster 0 whose task runs, with the first 64 KiB of its pool and 2 MiB of HBM pinned, and an ebb region
in its pool. -/
def moor0 : Mooring := { Mooring.init with
  loaded := true
  cmask := 1
  st := .running
  period := 10368
  k := 9000
  bcap := 1
  replyb := 2700
  lead := 2700
  started := 50
  launched := [⟨0, 9000, 50, 0x10000000000, 0, true, false⟩]
  pins := [⟨0x200000000, 0xF000000200000000, 0⟩, ⟨0x10000000000, 0xF800100000000000, 1⟩]
  regions := [⟨0x200000000, 16, true, false, false, 0, Vector.replicate 16 0x3F7F0000⟩]
  chans := [0] }

/-- Core 0 of mooring 0 issues in cycle 100. -/
def demo : State := { State.reset with
  now := 100
  boot := .up
  nextId := 7
  subHead := 8
  subTail := 9
  cores := [(0, core0)]
  moorings := State.reset.moorings.setIfInBounds 0 moor0
  ctx := ⟨0, .primary, 0x10000000040, 0, 3, 0x10000000046, false, 1, false, 0⟩ }

/-- The secondary stream of core 0 issues, while the primary has ended. -/
def demo2 : State := { demo with
  cores := [(0, { core0 with prim := SeqState.init, sec := seq0 })]
  ctx := { demo.ctx with q := .secondary } }

theorem sound_nil (s : State) : s.sound [] := by intro r h; cases h

theorem sound_demo (rs : List RRef) (h : (rs.all fun r => !(demo.rd r).poi) = true) : demo.sound rs := by
  intro r hr
  have := List.all_eq_true.mp h r hr
  simpa using this

/-- In `demo` every unit is free and nothing waits to land. -/
theorem clear_demo (sl : Slot) (n : Nat) (rs : List RRef) (ws : List WriteAt) : demo.clear sl n rs ws := by
  refine ⟨?_, fun w _ _ => ?_, fun w _ e he => ?_⟩
  · show demo.kore.busy.getD (slotIx sl) 0 ≤ 100
    cases sl <;> decide
  · show (demo.kore.prim.queue.filter _).length < 2
    have : demo.kore.prim.queue = [] := by decide
    rw [this]; exact Nat.zero_lt_two
  · have : demo.cur.queue = [] := by decide
    rw [this] at he; cases he

theorem clear_demo2 (sl : Slot) (n : Nat) (rs : List RRef) (ws : List WriteAt) : demo2.clear sl n rs ws := by
  refine ⟨?_, ?_, Or.inr (by decide), fun r _ e he => ?_, fun w _ e he => ?_⟩
  · show demo2.kore.busy.getD (slotIx sl) 0 ≤ 100
    cases sl <;> decide
  · show demo2.kore.busy2.getD (slotIx sl) 0 ≤ 100
    cases sl <;> decide
  all_goals
    have : demo2.cur.queue = [] := by decide
    rw [this] at he; cases he

/-- What `State.grants` asks for, computed. -/
def grantsB (s : State) (sp : Space) (u : Use) : Bool :=
  (s.meets u).isEmpty && !(u.res.isVault && decide ((s.ctx.core, 4) ∈ s.latFail)) && !u.offWheel s.ctx.core
    && !u.offLateral sp (s.ctx.core / coresPerCluster)

theorem grants_of {s : State} {sp : Space} {u : Use} (h : grantsB s sp u = true) : s.grants sp u := by
  simp only [grantsB, Bool.and_eq_true, Bool.not_eq_true', Bool.and_eq_false_iff, List.isEmpty_iff, decide_eq_false_iff_not] at h
  refine ⟨h.1.1.1, fun hv => ?_, h.1.2, h.2⟩
  rcases h.1.1.2 with g | g
  · rw [hv] at g; cases g
  · exact g

/-- What `State.takes` asks for, computed. -/
def takesB (s : State) (sl : Slot) (sp : Space) (off n al : Nat) (p : Perm) (t : Nat) : Bool :=
  decide (off % al = 0) && decide (off + n ≤ spaceBytes sp) && (sp != .near || off / vaultBytes == s.ctx.core / coresPerCluster)
    && (sp != .own || p != .w || s.ctx.q != .primary || !s.kore.inRecord off n)
    && match s.resolve s.via (s.moorOf s.ctx.core) s.ctx.core (spaceVa s.ctx.core sp off) n p false with
      | .ok spt => spt.inSram && (s.ctx.q != .primary || s.waitsIn sp || (s.spotUses sl sp spt n t).all (grantsB s sp))
        && (s.ctx.q != .secondary || sp != .own || (s.spotUses sl sp spt n t).all fun u => (s.meets u).isEmpty)
      | _ => false

theorem takes_of {s : State} {sl : Slot} {sp : Space} {off n al : Nat} {p : Perm} {t : Nat} (h : takesB s sl sp off n al p t = true) :
    s.takes sl sp off n al p t := by
  simp only [takesB, Bool.and_eq_true, decide_eq_true_eq, Bool.or_eq_true, bne_iff_ne, ne_eq, beq_iff_eq, Bool.not_eq_true'] at h
  obtain ⟨⟨⟨⟨h1, h2⟩, h3⟩, h4⟩, h5⟩ := h
  refine ⟨h1, h2, fun e => h3.resolve_left (fun n => n e), fun e w q => ?_, ?_⟩
  · rcases h4 with ((g | g) | g) | g
    · exact absurd e g
    · exact absurd w g
    · exact absurd q g
    · exact g
  · split at h5
    · rename_i spt hr
      simp only [Bool.and_eq_true, Bool.or_eq_true, bne_iff_ne, ne_eq, List.all_eq_true, List.isEmpty_iff] at h5
      refine ⟨spt, hr, h5.1.1, fun q w u hu => ?_, fun q e u hu => ?_⟩
      · rcases h5.1.2 with (g | g) | g
        · exact absurd q g
        · rw [w] at g; cases g
        · exact grants_of (g u hu)
      · rcases h5.2 with (g | g) | g
        · exact absurd q g
        · exact absurd e g
        · exact g u hu
    · cases h5

/-- What `State.mayReach` asks for, computed. -/
def reachB (s : State) (sp : Space) (t : Nat) : Bool :=
  match s.ctx.q with
  | .secondary => sp == .own || sp == .pool
  | .primary => sp != .any || s.openPool
      || ((s.meets ⟨t, .lateral (s.ctx.core / coresPerCluster), 0⟩).isEmpty && !decide ((s.ctx.core, 6) ∈ s.latFail))

theorem reach_of {s : State} {sp : Space} {t : Nat} (h : reachB s sp t = true) : s.mayReach sp t := by
  unfold reachB at h
  unfold State.mayReach
  split <;> rename_i hq <;> rw [hq] at h <;> simp only [Bool.or_eq_true, beq_iff_eq, bne_iff_ne, ne_eq, Bool.and_eq_true,
    List.isEmpty_iff, Bool.not_eq_true', decide_eq_false_iff_not] at h
  · exact h
  · intro e o
    rcases h with (g | g) | g
    · exact absurd e g
    · rw [o] at g; cases g
    · exact g

def loadB (s : State) (sp : Space) (off n : Nat) (plane : Bool) (i : Nat) : Bool :=
  reachB s sp (s.now + i) && takesB s .m sp off n n .r (s.now + spaceReach sp + i)
    && (!plane || takesB s .m sp (s.planeOff off) 1 1 .r (s.now + spaceReach sp + i))

theorem load_of {s : State} {sp : Space} {off n : Nat} {plane : Bool} {i : Nat} (h : loadB s sp off n plane i = true) :
    s.mayLoad sp off n plane i := by
  simp only [loadB, Bool.and_eq_true, Bool.or_eq_true, Bool.not_eq_true'] at h
  exact ⟨reach_of h.1.1, takes_of h.1.2, fun e => takes_of (h.2.resolve_left (by simp [e]))⟩

def storeB (s : State) (sp : Space) (off n : Nat) (plane : Bool) (i : Nat) : Bool :=
  reachB s sp (s.now + i) && takesB s .m sp off n n .w (s.now + spaceReach sp + i)
    && (!plane || takesB s .m sp (s.planeOff off) (planeBytes n) 1 .w (s.now + spaceReach sp + i))

theorem store_of {s : State} {sp : Space} {off n : Nat} {plane : Bool} {i : Nat} (h : storeB s sp off n plane i = true) :
    s.mayStore sp off n plane i := by
  simp only [storeB, Bool.and_eq_true, Bool.or_eq_true, Bool.not_eq_true'] at h
  exact ⟨reach_of h.1.1, takes_of h.1.2, fun e => takes_of (h.2.resolve_left (by simp [e]))⟩

theorem modify_of {s : State} {sp : Space} {off n : Nat} (h : (takesB s .m sp off n n .r (s.now + atomReach sp)
    && takesB s .m sp off n n .w (s.now + atomReach sp)) = true) : s.mayModify sp off n := by
  simp only [Bool.and_eq_true] at h
  exact ⟨takes_of h.1, takes_of h.2⟩

theorem region_of {s : State} {sp : Space} {off : Nat}
    (h : (s.regionOf (s.moorOf s.ctx.core) (fullVa s.ctx.core (spaceVa s.ctx.core sp off))).isSome = true) : s.inRegion sp off :=
  Option.isSome_iff_exists.mp h

theorem lockFree_of {s : State} {sp : Space} {off : Nat} (h : s.holds = []) : s.lockFree sp off := by
  intro _ _ u _ x hx
  rw [h] at hx; cases hx

/-! ### Statements about syllables: what their hypotheses ask of a state is met by `demo`, whose units are free, whatever the registers -/

theorem witness_IntegerBinaryResults :
    demo.clear .a 1 [⟨.a, 1⟩, ⟨.h, 1⟩] [⟨⟨.a, 2⟩, 1⟩] ∧ demo.clear .b 1 [⟨.b, 1⟩, ⟨.b, 31⟩] [⟨⟨.h, 31⟩, 3⟩] :=
  ⟨clear_demo .., clear_demo ..⟩

theorem witness_ButterflyStage : (5 : Nat) < 6 ∧ (31 : Nat) < 32 := by decide

theorem witness_IntegerImmediateResults :
    demo.clear .b 1 [⟨.b, 1⟩] [⟨⟨.b, 31⟩, 1⟩] ∧ demo.clear .a 1 [] [⟨⟨.a, 0⟩, 1⟩] ∧ demo.clear .a 1 [⟨.a, 1⟩] [⟨⟨.a, 1⟩, 1⟩] :=
  ⟨clear_demo .., clear_demo .., clear_demo ..⟩

theorem witness_IntegerBitResults :
    demo.clear .a 1 [⟨.a, 1⟩] [⟨⟨.h, 3⟩, 1⟩]
    ∧ ((60 : Fin 64).val + (3 : Fin 64).val + 1 ≤ 64 ∧ demo.clear .b 1 [⟨.b, 1⟩, ⟨.b, 2⟩] [⟨⟨.b, 2⟩, 1⟩])
    ∧ demo.clear .a 1 [⟨.a, 1⟩, ⟨.a, 3⟩, ⟨.a, 2⟩] [⟨⟨.a, 2⟩, 1⟩] ∧ demo.clear .b 1 [⟨.b, 1⟩] [⟨⟨.b, 2⟩, 2⟩]
    ∧ demo.clear .b 1 [⟨.b, 1⟩] [] ∧ demo.sound [⟨.b, 1⟩] :=
  ⟨clear_demo .., ⟨by decide, clear_demo ..⟩, clear_demo .., clear_demo .., clear_demo .., sound_demo _ (by decide)⟩

theorem witness_MaddResults : demo.clear .m 1 [⟨.m, 1⟩, ⟨.m, 2⟩] [⟨⟨.h, 1⟩, 1⟩] ∧ demo.clear .m 1 [⟨.m, 1⟩] [⟨⟨.m, 2⟩, 1⟩] :=
  ⟨clear_demo .., clear_demo ..⟩

theorem witness_FloatArithmetic :
    demo.clear .a 1 [⟨.a, 1⟩, ⟨.h, 2⟩] [⟨⟨.a, 3⟩, 3⟩] ∧ demo.clear .b 1 [⟨.b, 1⟩, ⟨.b, 2⟩, ⟨.b, 3⟩] [⟨⟨.b, 3⟩, 4⟩] :=
  ⟨clear_demo .., clear_demo ..⟩

theorem witness_FloatSelectionResults :
    demo.clear .a 1 [⟨.a, 1⟩] [⟨⟨.a, 3⟩, 2⟩] ∧ demo.clear .a 1 [⟨.a, 1⟩] [⟨⟨.a, 3⟩, 1⟩]
    ∧ demo.clear .b 1 [⟨.b, 1⟩, ⟨.b, 2⟩] [⟨⟨.h, 3⟩, 2⟩] ∧ demo.clear .b 1 [⟨.b, 1⟩, ⟨.b, 2⟩] [⟨⟨.h, 3⟩, 1⟩] :=
  ⟨clear_demo .., clear_demo .., clear_demo .., clear_demo ..⟩

theorem witness_FloatConversionResults :
    ((Instr.fcvt .a (.own 1) 2 .rdn .bf16 .f64).wf = true ∧ demo.clear .a 1 [⟨.a, 2⟩] [⟨⟨.a, 1⟩, 2⟩])
    ∧ (Instr.fcvt .a (.own 1) 2 .rtz .i32 .f16).wf = true ∧ (Instr.fcvt .b (.h 1) 2 .rne .f32 .u64).wf = true :=
  ⟨⟨by decide, clear_demo ..⟩, by decide, by decide⟩

theorem witness_FloatFunctions :
    demo.clear .f 1 [⟨.f, 1⟩] [⟨⟨.f, 2⟩, 14⟩] ∧ demo.clear .f 1 [⟨.f, 1⟩] [⟨⟨.h, 2⟩, 10⟩]
    ∧ demo.clear .f 1 [⟨.f, 1⟩, ⟨.f, 2⟩] [⟨⟨.f, 2⟩, 16⟩]
    ∧ demo.clear .f 1 [⟨.f, 1⟩, ⟨.h, 4⟩] [⟨⟨.f, 2⟩, 24⟩]
    ∧ ((14 : Fin 16).val % 2 = 0 ∧ demo.clear .f 1 [⟨.f, 1⟩] [⟨⟨.f, 14⟩, 8⟩, ⟨⟨.f, 15⟩, 8⟩]) :=
  ⟨clear_demo .., clear_demo .., clear_demo .., clear_demo .., by decide, clear_demo ..⟩

/-- −3 × 2^−130, and 512.5 given by 512 and a sticky bit. -/
theorem exact_dyadic : IsExact fmtB16 true 3 (-130) false (-(3 * 2 ^ (-130 : ℤ))) := by
  refine ⟨by decide, ⟨fun _ => rfl, fun _ => ?_⟩, ?_⟩
  · have : (0 : ℝ) < 2 ^ (-130 : ℤ) := by positivity
    linarith
  · rw [abs_neg, abs_of_pos (by positivity)]; rfl
theorem exact_sticky : IsExact fmtB16 false 512 0 true 512.5 := by
  refine ⟨by decide, by norm_num, ?_⟩
  have h : (2 : Nat) ^ (fmtB16.p + 1) ≤ 512 := by decide
  rw [abs_of_pos (by norm_num)]
  exact ⟨by norm_num, by norm_num, h⟩

theorem witness_RoundsToNearest :
    (fmtB16 ∈ formats ∧ IsExact fmtB16 true 3 (-130) false (-(3 * 2 ^ (-130 : ℤ))) ∧ (fmtB16.round .rne true 3 (-130) false).2 &&& fOF = 0)
    ∧ IsExact fmtB16 false 512 0 true 512.5 ∧ (fmtB16.round .rne false 512 0 true).2 &&& fOF = 0 :=
  ⟨⟨by decide, exact_dyadic, by decide +kernel⟩, exact_sticky, by decide +kernel⟩

theorem witness_RoundsDirected :
    (IsExact fmtB16 false 512 0 true 512.5 ∧ (fmtB16.dec (fmtB16.round .rdn false 512 0 true).1).isNan = false)
    ∧ IsExact fmtB16 true 3 (-130) false (-(3 * 2 ^ (-130 : ℤ))) ∧ (fmtB16.dec (fmtB16.round .rup true 3 (-130) false).1).isNan = false :=
  ⟨⟨exact_sticky, by decide +kernel⟩, exact_dyadic, by decide +kernel⟩

/-- 1.0, −1.0 and 0 of `FP32`. -/
theorem value_one : value fmt32 0x3F800000 = some 1 := by
  have h : fmt32.dec 0x3F800000 = .fin false (2 ^ 23) (-23) := by decide +kernel
  simp only [value, h]; norm_num
theorem value_neg : value fmt32 0xBF800000 = some (-1) := by
  have h : fmt32.dec 0xBF800000 = .fin true (2 ^ 23) (-23) := by decide +kernel
  simp only [value, h]; norm_num
theorem value_zero : value fmt32 0 = some 0 := by
  have h : ∃ e, fmt32.dec 0 = .fin false 0 e := ⟨_, by rfl⟩
  obtain ⟨e, h⟩ := h
  simp only [value, h]; norm_num

theorem witness_ArithmeticRoundsOnce :
    fmt32 ∈ formats ∧ value fmt32 0x3F800000 = some 1 ∧ value fmt32 0xBF800000 = some (-1) ∧ value fmt32 0 = some 0 :=
  ⟨by decide, value_one, value_neg, value_zero⟩

theorem witness_ConversionsRoundOnce : fmt32 ∈ formats ∧ fmt16 ∈ formats ∧ value fmt32 0xBF800000 = some (-1) ∧ 0 < (⟨8, true⟩ : IntTy).w :=
  ⟨by decide, by decide, value_neg, by decide⟩

/-- −1 / 1 and the roots of 1 and −1, 1 / 0 and 0 / 0. -/
theorem witness_QuotientsRoundOnce :
    fmt32 ∈ formats ∧ (value fmt32 0xBF800000 = some (-1) ∧ value fmt32 0x3F800000 = some 1 ∧ (1 : ℚ) ≠ 0 ∧ (0 : ℚ) ≤ 1 ∧ (-1 : ℚ) < 0)
    ∧ value fmt32 0 = some 0 := ⟨by decide, ⟨value_neg, value_one, by norm_num, by norm_num, by norm_num⟩, value_zero⟩

/-- 1.0 < 2.0; a quiet NaN beside a number; a signalling one. -/
theorem witness_ComparesNumbers :
    (fmt32 ∈ formats ∧ 0x3F800000 < 2 ^ fmt32.width ∧ 0x40000000 < 2 ^ fmt32.width ∧ fmt32.dec 0x3F800000 = .fin false (2 ^ 23) (-23)
      ∧ fmt32.dec 0x40000000 = .fin false (2 ^ 23) (-22))
    ∧ ((fmt32.dec 0x7FC00000).isNan = true ∧ (fmt32.dec 0x7FC00000).isSig = false ∧ (fmt32.dec 0x3F800000).isNan = false)
    ∧ (fmt32.dec 0x7F800001).isSig = true := by decide +kernel

theorem witness_LoadsSchedule :
    (demo.clear .m 1 [⟨.m, 2⟩, ⟨.m, 4⟩] [⟨⟨.m, 7⟩, 4⟩] ∧ demo.sound [⟨.m, 2⟩, ⟨.m, 4⟩]
      ∧ demo.mayLoad .own (sumAddr demo ⟨.m, 2⟩ (⟨.m, 4⟩) true 8) 8 false 0)
    ∧ (demo.clear .m 1 [⟨.m, 5⟩] [⟨⟨.m, 7⟩, 20⟩] ∧ demo.sound [⟨.m, 5⟩] ∧ demo.mayLoad .pool (offAddr demo ⟨.m, 5⟩ 0 4) 4 false 0)
    ∧ (demo.clear .m 1 [⟨.m, 2⟩, ⟨.h, 2⟩] [⟨⟨.h, 7⟩, 5⟩] ∧ demo.sound [⟨.m, 2⟩, ⟨.h, 2⟩]
      ∧ demo.mayLoad .own (sumAddr demo ⟨.m, 2⟩ (⟨.h, 2⟩) false 8) 8 true 0)
    ∧ demo.clear .m 1 [⟨.m, 2⟩] [⟨⟨.m, 7⟩, 5⟩] ∧ demo.sound [⟨.m, 2⟩]
      ∧ demo.mayLoad .own (offAddr demo ⟨.m, 2⟩ (BitVec.ofInt 11 (-64)) 4) 4 true 0 :=
  ⟨⟨clear_demo .., sound_demo _ (by decide), load_of (by decide +kernel)⟩, ⟨clear_demo .., sound_demo _ (by decide), load_of (by decide +kernel)⟩,
    ⟨clear_demo .., sound_demo _ (by decide), load_of (by decide +kernel)⟩, clear_demo .., sound_demo _ (by decide), load_of (by decide +kernel)⟩

theorem witness_StoresSchedule :
    (demo.clear .m 1 [⟨.m, 3⟩, ⟨.m, 2⟩, ⟨.m, 4⟩] [] ∧ demo.sound [⟨.m, 2⟩, ⟨.m, 4⟩]
      ∧ demo.mayStore .own (sumAddr demo ⟨.m, 2⟩ ⟨.m, 4⟩ true 8) 8 false 0)
    ∧ (demo.clear .m 1 [⟨.m, 7⟩, ⟨.m, 5⟩] [] ∧ demo.sound [⟨.m, 5⟩] ∧ demo.mayStore .pool (offAddr demo ⟨.m, 5⟩ 0 4) 4 false 0)
    ∧ (demo.sound [⟨.m, 2⟩, ⟨.m, 5⟩] ∧ demo.mayStore .own (sumAddr demo ⟨.m, 2⟩ ⟨.m, 5⟩ false 4) 4 true 0)
    ∧ demo.mayStore .own (offAddr demo ⟨.m, 2⟩ 1023 8) 8 true 0 :=
  ⟨⟨clear_demo .., sound_demo _ (by decide), store_of (by decide +kernel)⟩, ⟨clear_demo .., sound_demo _ (by decide), store_of (by decide +kernel)⟩,
    ⟨sound_demo _ (by decide), store_of (by decide +kernel)⟩, store_of (by decide +kernel)⟩

theorem witness_MultipleTransfers :
    ((Instr.ldm (.h 28) 2 3 .own).wf = true ∧ demo.ctx.restK ≤ 3
      ∧ demo.clear .m 4 [⟨.m, 2⟩] ((List.range 4).map fun i => ⟨⟨.h, 28 + i⟩, 4 + i⟩) ∧ demo.sound [⟨.m, 2⟩]
      ∧ ∀ i < 4, demo.mayLoad .own (256 + 8 * i) 8 true i)
    ∧ ((Instr.stm (.m 30) 2 1 .own).wf = true ∧ demo.clear .m 2 [⟨.m, 2⟩, ⟨.m, 30⟩, ⟨.m, 31⟩] []
      ∧ ∀ i < 2, demo.mayStore .own (256 + 8 * i) 8 true i) :=
  ⟨⟨by decide, by decide, clear_demo .., sound_demo _ (by decide), fun i hi => load_of (by
      have : ∀ i < 4, loadB demo .own (256 + 8 * i) 8 true i = true := by decide +kernel
      exact this i hi)⟩,
    by decide, clear_demo .., fun i hi => store_of (by
      have : ∀ i < 2, storeB demo .own (256 + 8 * i) 8 true i = true := by decide +kernel
      exact this i hi)⟩

theorem witness_BankOperationsSchedule :
    ((Instr.atom (.own 7) 2 (.own 4) false true .add).wf = true ∧ demo.clear .m 1 [⟨.m, 2⟩, ⟨.m, 4⟩] [⟨⟨.m, 7⟩, 6⟩] ∧ demo.sound [⟨.m, 2⟩]
      ∧ demo.mayModify .own 256 8)
    ∧ ((Instr.atom (.own 7) 6 (.own 4) true true .ebb).wf = true ∧ demo.mayModify .pool 16 8 ∧ demo.inRegion .pool 16 ∧ demo.lockFree .pool 16)
    ∧ (demo.clear .m 1 [⟨.m, 4⟩, ⟨.m, 6⟩, ⟨.m, 3⟩] [] ∧ demo.sound [⟨.m, 6⟩, ⟨.m, 3⟩] ∧ sumAddr demo ⟨.m, 6⟩ ⟨.m, 3⟩ true 8 = 16)
    ∧ (demo.clear .m 1 [⟨.m, 5⟩, ⟨.m, 3⟩] [⟨⟨.m, 7⟩, 44⟩] ∧ demo.mayLoad .pool 32 8 false 0 ∧ demo.inRegion .pool 32)
    ∧ demo.clear .m 1 [⟨.m, 4⟩, ⟨.m, 2⟩] [] ∧ demo.sound [⟨.m, 4⟩, ⟨.m, 2⟩] ∧ demo.takes .m .own 256 16 16 .w 102 :=
  ⟨⟨by decide, clear_demo .., sound_demo _ (by decide), modify_of (by decide +kernel)⟩,
    ⟨by decide, modify_of (by decide +kernel), region_of (by decide +kernel), lockFree_of rfl⟩,
    ⟨clear_demo .., sound_demo _ (by decide), by decide⟩, ⟨clear_demo .., load_of (by decide +kernel), region_of (by decide +kernel)⟩,
    clear_demo .., sound_demo _ (by decide), takes_of (by decide +kernel)⟩

theorem witness_ExchangeAndBindings :
    demo.clear .m 1 [⟨.m, 4⟩, ⟨.m, 3⟩] []
    ∧ (demo.ctx.q = .primary ∧ demo.clear .m 1 [⟨.m, 4⟩] [] ∧ demo.sound [⟨.m, 4⟩] ∧ ∀ r ∈ demo.kore.recv, r.cycle ≠ demo.now + 12)
    ∧ (demo.clear .m 1 [⟨.m, 1⟩, ⟨.m, 4⟩, ⟨.m, 2⟩] [] ∧ demo.sound [⟨.m, 4⟩, ⟨.m, 2⟩] ∧ 256 + 8 ≤ spadBytes ∧ 256 % 8 = 0
      ∧ demo.resolve demo.via (demo.moorOf demo.ctx.core) 3 256 8 .w false = .ok ⟨spadBase + 3 * spadBytes + 256, none⟩
      ∧ ∀ u ∈ (Spot.mk (spadBase + 3 * spadBytes + 256) none).uses 8 112, demo.meets u = []) :=
  ⟨clear_demo .., ⟨rfl, clear_demo .., sound_demo _ (by decide), by decide +kernel⟩,
    clear_demo .., sound_demo _ (by decide), by decide, by decide, by decide +kernel, by decide +kernel⟩

/-! ### Tiles: 16 elements of `FP32` in `demo`, of ``INT16` in `demoForm 4` -/

/-- The same core under another format, with three offsets in `Q0`. -/
def demoForm (fmt : Word) : State := { demo with cores := [(0, { core0 with fmt := fmt, q0 := [0, 4, 9] })] }

theorem clear_demoForm (fmt : Word) (sl : Slot) (n : Nat) (rs : List RRef) (ws : List WriteAt) : (demoForm fmt).clear sl n rs ws := by
  refine ⟨?_, fun w _ _ => ?_, fun w _ e he => ?_⟩
  · show (demoForm fmt).kore.busy.getD (slotIx sl) 0 ≤ 100
    cases sl <;> exact Nat.zero_le 100
  · exact Nat.zero_lt_two
  · cases he

theorem sound_demoForm (fmt : Word) (rs : List RRef) (h : (rs.all fun r => !((demoForm fmt).rd r).poi) = true) : (demoForm fmt).sound rs := by
  intro r hr
  have := List.all_eq_true.mp h r hr
  simpa using this

def tileFreeB (s : State) (f : VW) (a : Nat) (p : Perm) (plane : Bool) : Bool :=
  decide (a + s.kore.tileBytes f ≤ spadBytes) && decide (a % s.kore.eb = 0) && (!plane || !s.kore.form.isSx)
    && (List.range (nChunks (s.kore.tileBytes f))).all fun j =>
      takesB s f.slot .own (a + 128 * j) (chunkLen (s.kore.tileBytes f) j) 1 p (s.now + 2 + j)
        && (!plane || takesB s f.slot .own (s.planeOff (a + 128 * j)) (planeCount (a + 128 * j) (chunkLen (s.kore.tileBytes f) j)) 1 p (s.now + 2 + j))

theorem tileFree_of {s : State} {f : VW} {a : Nat} {p : Perm} {plane : Bool} (h : tileFreeB s f a p plane = true) : s.tileFree f a p plane := by
  simp only [tileFreeB, Bool.and_eq_true, decide_eq_true_eq, Bool.or_eq_true, Bool.not_eq_true', List.all_eq_true, List.mem_range] at h
  exact ⟨h.1.1.1, h.1.1.2, fun e => h.1.2.resolve_left (by simp [e]), fun j hj =>
    ⟨takes_of (h.2 j hj).1, fun e => takes_of ((h.2 j hj).2.resolve_left (by simp [e]))⟩⟩

theorem witness_TileFloatResults :
    (demo.kore.form.fp = some fmt32 ∧ demo.clear Slot.v (hold demo .v) [vreg .v 2, ⟨.h, 1⟩] [⟨vreg .v 1, fpLat (count demo .v)⟩] ∧ count demo .v = 16)
    ∧ demo.clear Slot.w (hold demo .w) [vreg .w 2] [⟨vreg .w 15, funLat (count demo .w)⟩] :=
  ⟨⟨by decide, clear_demo .., by decide⟩, clear_demo ..⟩

theorem witness_TileIntegerResults :
    ((demoForm 4).kore.form = .int16 ∧ (demoForm 4).kore.form.fp.isNone = true ∧ count (demoForm 4) .v * 4 ≤ 2048
      ∧ (demoForm 4).clear Slot.v (hold (demoForm 4) .v) [vreg .v 2, vreg .v 3, vreg .v 1] [⟨vreg .v 1, intLat (count (demoForm 4) .v)⟩])
    ∧ (0 : Fin 4).val ≠ 3 :=
  ⟨⟨by decide, by decide, by decide, clear_demoForm ..⟩, by decide⟩

theorem witness_TileSelectionResults :
    demo.clear Slot.w (hold demo .w) [vreg .w 2, vreg .w 3, vreg .w 1] [⟨vreg .w 1, intLat (count demo .w)⟩]
    ∧ (demoForm 4).kore.form.fp = none ∧ demo.kore.form.fp = some fmt32 := ⟨clear_demo .., by decide, by decide⟩

theorem witness_TileMovementResults :
    demo.clear Slot.v (hold demo .v) [vreg .v 2] [⟨vreg .v 1, intLat (count demo .v)⟩] ∧ demo.kore.form.fp = some fmt32
    ∧ demo.clear Slot.w 1 [vreg .w 2] [⟨⟨.h, 9⟩, 2⟩] := ⟨clear_demo .., by decide, clear_demo ..⟩

/-- Lines of numbers, of one NaN, and of integers. -/
theorem witness_LinesReduce :
    (demo.kore.form.fp = some fmt32 ∧ [word 0x3F800000, word 0xBF800000] ≠ []
      ∧ (∀ y ∈ [word 0x3F800000, word 0xBF800000], (fmt32.dec (low fmt32 y)).isNan = false) ∧ (fmt32.dec (low fmt32 (word 0x7F800001))).isNan = true)
    ∧ (demoForm 4).kore.form.fp = none ∧ Form.int16.fp = none := by decide +kernel

/-- A block of one 1.0 and 31 zeros. -/
theorem witness_QuantisesToNearest :
    let ys : List Nat := 0x3F800000 :: List.replicate 31 0
    let zs : List ℚ := 1 :: List.replicate 31 0
    ys.length = 32 ∧ (∀ y ∈ ys, y < 2 ^ 32) ∧ ys.map (fun y => value fmt32 (flush32 y).1) = zs.map some ∧ (∃ z ∈ zs, (1 : ℚ) = |z|)
      ∧ (∀ z ∈ zs, |z| ≤ 1) ∧ (0 : ℚ) < 1 := by
  intro ys zs
  have h1 : (flush32 0x3F800000).1 = 0x3F800000 := by decide
  have h0 : (flush32 0).1 = 0 := by decide
  refine ⟨by decide, by decide, ?_, ⟨1, List.mem_cons_self, by norm_num⟩, fun z hz => ?_, by norm_num⟩
  · simp only [ys, zs, List.map_cons, List.map_replicate, h1, h0, value_one, value_zero]
  · rcases List.mem_cons.mp hz with rfl | h
    · norm_num
    · rw [(List.mem_replicate.mp h).2]; norm_num

theorem witness_TileReductions :
    demo.clear Slot.v (hold demo .v) [vreg .v 1] [⟨vreg .v 2, redLat (count demo .v)⟩]
    ∧ (cvtOk .fp32 (demoForm 4).kore.form .rtz false (count (demoForm 4) .v) = true
      ∧ (demoForm 4).clear Slot.v (hold (demoForm 4) .v) [vreg .v 1] [⟨vreg .v 2, fpLat (count (demoForm 4) .v)⟩]) :=
  ⟨clear_demo .., by decide, clear_demoForm ..⟩

/-- A tile of 64 bytes at H1 = 0x1000, and at its last place. -/
theorem witness_TileTransfers :
    (demo.clear Slot.v 1 [⟨.h, 1⟩] [⟨vreg .v 3, 5⟩] ∧ demo.sound [⟨.h, 1⟩] ∧ demo.tileFree .v (tileAt demo ⟨.p0, 1⟩ (BitVec.ofInt 7 (-1))) .r true)
    ∧ (demo.clear Slot.w 1 [vreg .w 3, ⟨.h, 1⟩] [] ∧ demo.tileFree .w (tileAt demo ⟨.p1, 1⟩ 63) .w true)
    ∧ demo.tileFree .v (spadBytes - 64) .w false :=
  ⟨⟨clear_demo .., sound_demo _ (by decide), tileFree_of (by decide +kernel)⟩, ⟨clear_demo .., tileFree_of (by decide +kernel)⟩,
    tileFree_of (by decide +kernel)⟩

theorem witness_GathersAndScatters :
    (demoForm 0).clear Slot.v 1 [⟨.h, 1⟩] [⟨vreg .v 6, 6⟩] ∧ (demoForm 0).sound [⟨.h, 1⟩] ∧ (demoForm 0).gatherFree .v ⟨.p0, 1⟩ 3 102 .r
    ∧ (demoForm 0).gatherFree .v ⟨.p0, 1⟩ 2 104 .w := by
  have h : ∀ a ∈ (demoForm 0).gatherAddrs ⟨.p0, 1⟩ 3, a + (demoForm 0).kore.eb ≤ spadBytes
      ∧ takesB (demoForm 0) .v .own a (demoForm 0).kore.eb 1 .r 102 = true := by decide +kernel
  have g : ∀ a ∈ (demoForm 0).gatherAddrs ⟨.p0, 1⟩ 2, a + (demoForm 0).kore.eb ≤ spadBytes
      ∧ takesB (demoForm 0) .v .own a (demoForm 0).kore.eb 1 .w 104 = true := by decide +kernel
  exact ⟨clear_demoForm .., sound_demoForm _ _ (by decide),
    ⟨rfl, by decide, by decide, by decide, fun a ha => ⟨(h a ha).1, takes_of (h a ha).2⟩, by decide +kernel⟩,
    rfl, by decide, by decide, by decide, fun a ha => ⟨(g a ha).1, takes_of (g a ha).2⟩, by decide +kernel⟩

theorem witness_RecordTransfers :
    (demo.kore.form ∈ [Form.fp32, .fp16, .bf16, .int16, .int32] ∧ demo.clear Slot.v 1 [⟨.h, 1⟩] [⟨vreg .v 2, 6⟩] ∧ demo.sound [⟨.h, 1⟩]
      ∧ 0x1000 % 16 = 0 ∧ 0x1000 + 128 * 1 ≤ spadBytes ∧ ∀ j < 1, demo.chunkFree .v 0x1000 128 j (102 + j) .r false)
    ∧ ((24 : Fin 128) ≠ 0 ∧ demo.clear Slot.v 2 [vreg .v 1, ⟨.h, 1⟩] []
      ∧ (recBytesOf demo.kore.form ((List.range 16).map (elem demo .v 1))).1.length ≤ 128
      ∧ ∀ j < chunks 128, demo.chunkFree .v 0x1000 128 j (104 + j) .w false ∧ ∀ u ∈ demo.recUses .v 0x1000 j (104 + j), demo.grants .own u) := by
  have h : ∀ j < chunks 128, ∀ u ∈ demo.recUses .v 0x1000 j (104 + j), grantsB demo .own u = true := by decide +kernel
  refine ⟨⟨by decide, clear_demo .., sound_demo _ (by decide), by decide, by decide, fun j hj => ?_⟩, by decide, clear_demo .., by decide +kernel,
    fun j hj => ⟨?_, fun u hu => grants_of (h j hj u hu)⟩⟩
  · obtain rfl : j = 0 := by omega
    exact ⟨takes_of (by decide +kernel), fun e => by cases e⟩
  · obtain rfl : j = 0 := by simp only [chunks] at hj; omega
    exact ⟨takes_of (by decide +kernel), fun e => by cases e⟩

/-! ### Engine commands and slot C -/

theorem witness_EngineCommandsIssue :
    demo.ctx.q = .primary ∧ demo.clear .e 1 [⟨.h, 1⟩] [] ∧ demo.sound [⟨.h, 1⟩] ∧ (demo.rd ⟨.h, 1⟩).val.toNat = 0x1000 ∧ 0x1000 % 64 = 0
    ∧ (∀ j < 4, demo.takes .e .own (0x1000 + 16 * j) 16 16 .r (101 + j)) ∧ ∀ j < 4, demo.takes .e .own (0x1FFC0 + 16 * j) 16 16 .r (101 + j) :=
  ⟨rfl, clear_demo .., sound_demo _ (by decide), by decide, by decide, fun j hj => takes_of (by
      have : ∀ j < 4, takesB demo .e .own (0x1000 + 16 * j) 16 16 .r (101 + j) = true := by decide +kernel
      exact this j hj), fun j hj => takes_of (by
      have : ∀ j < 4, takesB demo .e .own (0x1FFC0 + 16 * j) 16 16 .r (101 + j) = true := by decide +kernel
      exact this j hj)⟩

theorem witness_EngineStatusQuery :
    demo.clear .e 1 [⟨.h, 1⟩] [⟨⟨.h, 1⟩, 4⟩] ∧ demo.sound [⟨.h, 1⟩] ∧ demo.cmds = [] := ⟨clear_demo .., sound_demo _ (by decide), rfl⟩

theorem witness_BranchesIssue : mayBranch demo ∧ demo.clear .c 1 [⟨.h, 1⟩] [] ∧ demo.sound [⟨.h, 1⟩] :=
  ⟨⟨rfl, by decide⟩, clear_demo .., sound_demo _ (by decide)⟩

theorem witness_BranchesLand :
    ({ seq0 with pend := true, branch := some (0, 0x10000000080) } : SeqState).pend = true
    ∧ (let s : State := { demo with
        cores := [(0, { core0 with prim := { seq0 with branch := some (2, 0x10000000080), delay := 2 } })], ctx := { demo.ctx with delayed := true } }
      s.ctx.delayed = true ∧ s.cur.branch = some (1 + 1, 0x10000000080) ∧ s.cur.skipTo = none ∧ s.ctx.q = .primary ∧ s.clear .c 1 [] []) :=
  ⟨rfl, rfl, rfl, rfl, rfl, Nat.zero_le 100, fun w hw => (by cases hw), fun w hw => (by cases hw)⟩

theorem witness_LoopsIssue :
    demo.ctx.len ≤ (6 : BitVec 16).toNat ∧ demo.cur.loops.length < 6 ∧ (∀ e ∈ demo.cur.loops, e.stop ≠ demo.ctx.pc) ∧ demo.clear .c 1 [⟨.h, 1⟩] []
    ∧ demo.sound [⟨.h, 1⟩] := ⟨by decide, by decide, by decide, clear_demo .., sound_demo _ (by decide)⟩

theorem witness_LoopsStep :
    let e : LoopEnt := ⟨8, 16, 3, 1, false, false⟩
    (e.stop = 16 ∧ e.rev = false ∧ e.index + 1 < e.count) ∧ (let f := { e with rev := true }
      f.stop = 16 ∧ f.rev = true ∧ 0 < f.index) ∧ (let f := { e with index := 2 }
      f.stop = 16 ∧ f.count ≤ f.index + 1) := by decide

theorem witness_LoopIndexRegisters : (5 : Nat) < 6 ∧ (0x17 : Fin 128).val = 0x12 + 5 ∧ demo.clear .c 1 [] [⟨⟨.h, 9⟩, 2⟩] :=
  ⟨by decide, by decide, clear_demo ..⟩

theorem witness_SystemRegisterReads :
    demo.cur.frozen = none ∧ demo.accesses = [] ∧ (1 : Fin 128).val = 0x01 ∧ demo.clear .c 1 [] [⟨⟨.h, 9⟩, 2⟩] := ⟨by decide, rfl, by decide, clear_demo ..⟩

theorem witness_SystemRegisterWrites :
    ((0x11 : Fin 128).val ∈ [0x05, 0x06, 0x07, 0x08, 0x09, 0x0E, 0x0F, 0x11] ∧ demo.clear .c 1 [⟨.h, 1⟩] [] ∧ demo.sound [⟨.h, 1⟩])
    ∧ (demo2.ctx.q = .secondary ∧ (0x0D : Fin 128).val = 0x0D ∧ (demo2.rd ⟨.h, 1⟩).val.toNat % 4096 = 0
      ∧ (demo2.rd ⟨.h, 1⟩).val.toNat + 0xAC1F < spadBytes ∧ demo2.clear .c 1 [⟨.h, 1⟩] [])
    ∧ (3 ∈ [0x02, 0x03, 0x04] ∧ demo.kore.fitsAt 3 (demo.rd ⟨.h, 2⟩).val (demo.now + 5) = true)
    ∧ demo.kore.fitsAt 2 (BitVec.ofNat 64 Form.int16.code) (demo.now + 5) = true
    ∧ demo.kore.fitsAt 4 (BitVec.ofNat 64 ((7 : Fin 32).val * 64 + (63 : Fin 64).val)) (demo.now + 5) = true
    ∧ (demo.ctx.q = .primary ∧ (0x1C : Fin 128).val ∈ [0x00, 0x01, 0x0A, 0x0B, 0x0C, 0x0D, 0x10, 0x12, 0x13, 0x14, 0x15, 0x16, 0x17, 0x18, 0x19,
      0x1A, 0x1B, 0x1C, 0x1D, 0x1E])
    ∧ (demo2.ctx.q = .secondary ∧ (0x1E : Fin 128).val ∈ [0x00, 0x01, 0x0A, 0x10, 0x12, 0x13, 0x14, 0x15, 0x16, 0x17, 0x18, 0x19, 0x1A, 0x1B, 0x1C,
      0x1D, 0x1E])
    ∧ (0x0B : Fin 128).val = 0x0B ∧ (demo2.rd ⟨.h, 1⟩).val.toNat < spadBytes :=
  ⟨⟨by decide, clear_demo .., sound_demo _ (by decide)⟩, ⟨rfl, by decide, by decide, by decide, clear_demo2 ..⟩, ⟨by decide, by decide +kernel⟩,
    by decide +kernel, by decide +kernel, ⟨rfl, by decide⟩, ⟨rfl, by decide⟩, by decide, by decide⟩

theorem witness_HoldsIssue :
    (demo.ctx.q = .primary ∧ (3 : BitVec 16).getLsbD (demo.ctx.core % 16) = true
      ∧ ∀ c, c / 16 = demo.ctx.core / 16 → ∀ m t, (demo.core c).prim.hold = .sync m t →
        m = 3 ∨ (m.getLsbD (demo.ctx.core % 16) = false ∧ (t = demo.now → (3 : BitVec 16).getLsbD (c % 16) = false)))
    ∧ (let s : State := { demo with cores := [(0, core0), (2, { core0 with prim := { seq0 with hold := .sync 12 100 } })] }
      (12 : BitVec 16).getLsbD (s.ctx.core % 16) = false ∧ (3 : BitVec 16).getLsbD (2 % 16) = false ∧ (s.core 2).prim.hold = .sync 12 s.now)
    ∧ (let v := (demo.rd ⟨.h, 1⟩).val.toNat
      v % 2 ^ 32 ≠ 0xFFFFFFFF ∧ v % 2 ^ 32 / 2 ^ 21 % 2 ^ 10 = 0 ∧ (v % 2 ^ 32 < 2 ^ 31 → v % 2 ^ 32 % 2 ^ 21 < spadBytes) ∧ v % 2 ^ 32 % 16 = 0)
    ∧ demo.clear .c 1 [⟨.h, 1⟩] [] ∧ demo.sound [⟨.h, 1⟩] := by
  refine ⟨⟨rfl, by decide, fun c _ m t h => ?_⟩, by decide, by decide, clear_demo .., sound_demo _ (by decide)⟩
  exfalso
  have : (demo.core c).prim.hold = .none := by
    show (sget Core.init [(0, core0)] c).prim.hold = .none
    simp only [sget]
    split
    · rfl
    · split <;> rfl
  rw [this] at h; cases h

theorem witness_WatchTakesItem :
    demo.ctx.q = .primary ∧ demo.clear .c 1 [] [] ∧ (demo.cur.queue.filter fun e => e.eff.isWatch).length < 4 ∧ demo.moorOf demo.ctx.core = some 0 :=
  ⟨rfl, clear_demo .., by decide, by decide⟩

theorem witness_MovesBetweenFiles :
    (File.a ∉ [File.v, .w] ∧ File.h ∉ [File.v, .w] ∧ demo.clear .c 1 [⟨.h, 1⟩] [⟨⟨.a, 1⟩, 2⟩])
    ∧ demo.clear .c (demo.kore.rows .v) [⟨.v, 2⟩] [⟨⟨.w, 2⟩, demo.kore.rows .v + 1⟩] := ⟨⟨by decide, by decide, clear_demo ..⟩, clear_demo ..⟩

theorem witness_EndsIssue :
    demo.clear .c 1 [] [] ∧ demo2.clear .c 1 [] [] ∧ ∃ m, demo.moorOf demo.ctx.core = some m ∧ (demo.moor m).loose = false :=
  ⟨clear_demo .., clear_demo2 .., 0, by decide, by decide⟩

/-! ### Traps, fetch and landing -/

theorem canon_demo : demo.Canon := ⟨rfl, rfl, by decide +kernel, rfl⟩

/-- The state of an outcome, and that it is one. -/
def nextOf : Out State → State
  | .next t => t
  | _ => State.reset
def isNext : Out State → Bool
  | .next _ => true
  | _ => false
theorem next_of {o : Out State} (h : isNext o = true) : o = .next (nextOf o) := by
  cases o <;> first | rfl | cases h

theorem witness_TrapsAreTaken :
    demo.Canon ∧ (⟨0x20, some 7, 5, false⟩ : Trap).cause < 256 ∧ demo.moorOf 0 = some 0 := ⟨canon_demo, by decide, by decide⟩

theorem witness_FaultRecords : demo.moorOf 0 = some 0 ∧ (demo.compl.filter fun e => e.kind == 0x82).length < 16 := by decide

theorem witness_PreciseTrapsNullify :
    ([⟨0x09, some 2, 0, false⟩, ⟨0x05, some 0, 1, false⟩] : List Trap) ≠ []
    ∧ (let s : State := { demo with cores := [(0, { core0 with busy := core0.busy.setIfInBounds 0 101 })] }
      s.ctx.q = .primary ∧ s.reqTraps ⟨.a, 1, [], [⟨⟨.a, 1⟩, 1⟩], [], false⟩ ≠ []) := by decide +kernel

/-- `ADD A2,A1,A3` beside a `SYSWR` of `CCNT`, which traps, and a `FMTSET` after it. -/
theorem witness_BundleNullified :
    let add : Instr := .add .a (.own 2) 1 (.own 3)
    let bad : Instr := .syswr ⟨.p0, 1⟩ 0
    let s : State := { demo with issuing := [add, bad] ++ [.fmtset .fp32] }
    let run (i : Instr) (u : State) := nextOf (exec i { u with trapped := none })
    let u := run add s
    let v := run bad u
    let tr : Trap := ⟨0x07, some 7, 0, false⟩
    s.issuing = [add] ++ bad :: [.fmtset .fp32] ∧ Chain [add] s u ∧ exec bad { u with trapped := none } = .next v ∧ v.trapped = some tr
      ∧ tr.kept = false ∧ tr.cause ≠ causeWait ∧ ¬(tr.cause = 5 ∧ tr.info = 4) ∧ Chain [.fmtset .fp32] v (run (.fmtset .fp32) v) :=
  ⟨rfl, .cons (next_of (by decide +kernel)) (by decide +kernel) (.nil _), next_of (by decide +kernel), by decide +kernel, rfl, by decide, by decide,
    .cons (next_of (by decide +kernel)) (by decide +kernel) (.nil _)⟩

/-- A core whose slot A is busy, whose H ports are taken in the next cycle, or that awaits a result for A2 then. -/
def demoBusy (b : Nat) (q : List QEntry) : State := { demo with cores := [(0, { core0 with prim := { seq0 with queue := q }, busy := core0.busy.setIfInBounds 0 b })] }
def pending (t : Nat) (r : RRef) : QEntry := ⟨t, .reg r (word 1), 0, none, none, false, 0, none, 99⟩

theorem witness_ScheduleFaults :
    (let s := demoBusy 101 [];
     s.ctx.q = .primary ∧ s.now < s.kore.busy.getD (slotIx .a) 0)
    ∧ (let s := demoBusy 100 [pending 101 ⟨.h, 3⟩, pending 101 ⟨.h, 4⟩];
     ¬(s.now < s.kore.busy.getD (slotIx .a) 0) ∧ 2 ≤ s.kore.hWrites (s.now + 1))
    ∧ (let s := demoBusy 100 [pending 101 ⟨.a, 2⟩];
     ¬(s.now < s.kore.busy.getD (slotIx .a) 0) ∧ (∃ e ∈ s.cur.queue, e.eff.dest = some ⟨.a, 2⟩ ∧ e.due = s.now + 1)) := by
  refine ⟨by decide, by decide, by decide, pending 101 ⟨.a, 2⟩, by decide, by decide, by decide⟩

theorem witness_ShadowReads :
    let s : State := { demo2 with cores := [(0, { core0 with prim := SeqState.init, sec := { seq0 with queue := [pending 103 ⟨.a, 1⟩] } })] }
    s.ctx.q = .secondary ∧ pending 103 ⟨.a, 1⟩ ∈ s.cur.queue ∧ ¬(s.now < s.kore.busy.getD (slotIx .a) 0 ∨ s.now < s.kore.busy2.getD (slotIx .a) 0)
      ∧ (pending 103 ⟨.a, 1⟩).eff.dest = some (own .a (1 : Fin 32)) ∧ (pending 103 ⟨.a, 1⟩).issued < s.now
      ∧ (∀ f ∈ s.cur.queue, ¬(f.eff.dest = some ⟨.a, 2⟩ ∧ f.due = s.now + 1 ∧ f.varLat = false))
      ∧ (pending 101 ⟨.a, 2⟩).due = s.now + 1 ∧ (pending 101 ⟨.a, 2⟩).varLat = false ∧ s.now < 101 := by decide

theorem witness_AddressFaults :
    (demo.ctx.q = .primary ∧ demo.clear .m 1 [⟨.m, 1⟩] [⟨⟨.m, 7⟩, 4⟩])
    ∧ (let s : State := { demo with cores := [(0, { core0 with prim := { seq0 with m := seq0.m.setIfInBounds 1 (word 0x1FFF9) } })] }
      let a := offAddr s ⟨.m, 1⟩ 0 8
      a < spadBytes ∧ spadBytes < a + 8 ∧ a % 8 ≠ 0 ∧ (∃ spt, s.resolve s.via (s.moorOf s.ctx.core) s.ctx.core a 1 .r false = .ok spt
        ∧ (resOf spt.pa).isSome = true ∧ ∀ u ∈ spt.uses 8 (s.now + 2), s.grants .own u))
    ∧ (let s : State := { demo with cores := [(0, { core0 with prim := { seq0 with m := seq0.m.setIfInBounds 1 (word 0x20000) } })] }
      let a := offAddr s ⟨.m, 1⟩ 0 8
      a % 8 = 0 ∧ spadBytes < a + 8)
    ∧ (let s : State := { demo with cores := [(0, { core0 with prim := { seq0 with m := seq0.m.setIfInBounds 1 ⟨64, 63, true⟩ } })] }
      s.takes .m .own (offAddr s ⟨.m, 1⟩ 0 8) 8 1 .r 102 ∧ offAddr s ⟨.m, 1⟩ 0 8 % 8 = 0 ∧ (s.rd ⟨.m, 1⟩).poi = true) :=
  ⟨⟨rfl, clear_demo ..⟩, ⟨by decide, by decide, by decide, ⟨spadBase + 0x1FFF9, none⟩, by decide +kernel, by decide +kernel, fun u hu => grants_of (by
      revert u; decide +kernel)⟩, ⟨by decide, by decide⟩, takes_of (by decide +kernel), by decide, by decide⟩

/-- At the pc of core 0 stands a bundle of one `ADD A2,A1,H1.p0` (R86, R87): header 0x8001, syllable 0x02208500. -/
def demoBundle : State := { demo with
  mem := [(hbmBase + 0x40, 0x01), (hbmBase + 0x41, 0x80), (hbmBase + 0x43, 0x85), (hbmBase + 0x44, 0x20), (hbmBase + 0x45, 0x02)] }

theorem canon_demoBundle : demoBundle.Canon := ⟨by decide, rfl, by decide +kernel, rfl⟩

theorem due_demoBundle : Due demoBundle 0 .primary ⟨hbmBase + 0x40, none⟩ 0x8001 [.add .a (.own 2) 1 (.h .p0 1)] where
  core := by decide
  canon := canon_demoBundle
  place := by decide +kernel
  stands :=
    { parcel := by decide +kernel, sig := by decide, rsv := by decide, pres := by decide, fits := by decide +kernel, lamp := by decide +kernel, count := by decide,
      syls := by
        intro k hk
        obtain rfl : k = 0 := by simpa using hk
        exact ⟨by decide +kernel, by decide +kernel⟩
      ports := by decide, dests := by decide }
  fits := fun h => by cases h

theorem witness_BundlesFetch : Due demoBundle 0 .primary ⟨hbmBase + 0x40, none⟩ 0x8001 [.add .a (.own 2) 1 (.h .p0 1)] :=
  due_demoBundle

theorem witness_StepRunsDecodedBundle :
    let s : State := { demoBundle with agenda := [⟨.plain, .bundleFetch 0⟩] }
    ∃ u t, s.agenda = ⟨.plain, issueEvent 0 .primary⟩ :: []
      ∧ Due { s with agenda := [], ev := .plain } 0 .primary ⟨hbmBase + 0x40, none⟩ 0x8001 [.add .a (.own 2) 1 (.h .p0 1)]
      ∧ exec (issueEvent 0 .primary) { s with agenda := [], ev := .plain } = .next u
      ∧ Chain (issuesOf (s.seq 0 .primary).resolve [.add .a (.own 2) 1 (.h .p0 1)]) u t ∧ t.cur.stepping = false ∧ t.ctx = u.ctx := by
  intro s
  refine ⟨nextOf (exec (.bundleFetch 0) { s with agenda := [], ev := .plain }),
    nextOf (exec (.add .a (.own 2) 1 (.h .p0 1)) { nextOf (exec (.bundleFetch 0) { s with agenda := [], ev := .plain }) with trapped := none }),
    rfl, due_demoBundle, next_of (by decide +kernel), ?_, by decide +kernel, by decide +kernel⟩
  exact .cons (next_of (by decide +kernel)) (by decide +kernel) (.nil _)

theorem witness_FetchFaults :
    (0 < nCores ∧ demo.Canon ∧ demo.fetchTr 0 .primary (demo.seq 0 .primary).resolve.pc.toNat = .ok ⟨hbmBase + 0x40, none⟩
      ∧ demo.num (hbmBase + 0x40) 2 / 2 ^ 14 ≠ 2)
    ∧ (let s : State := { demo with mem := [(hbmBase + 0x41, 0x80)] }
      s.num (hbmBase + 0x40) 2 / 2 ^ 14 = 2 ∧ s.num (hbmBase + 0x40) 2 % 256 = 0)
    ∧ (let s : State := { demo with
        cores := [(0, { core0 with prim := { seq0 with pc := 0x1000000007A } })], mem := [(hbmBase + 0x7A, 0x03), (hbmBase + 0x7B, 0x80)] }
      s.fetchTr 0 .primary (s.seq 0 .primary).resolve.pc.toNat = .ok ⟨hbmBase + 0x7A, none⟩ ∧ s.num (hbmBase + 0x7A) 2 / 2 ^ 14 = 2
        ∧ 32 < 0x1000000007A % 64 / 2 + parcels (s.num (hbmBase + 0x7A) 2)) :=
  ⟨⟨by decide, canon_demo, by decide +kernel, by decide +kernel⟩, by decide +kernel, by decide +kernel, by decide +kernel, by decide +kernel⟩

theorem witness_FetchTranslation :
    0x1FFFF < spadBytes ∧
    (let e : BitVec 64 := 0xF800100000000000
      let s : State := { demo with moorings := State.reset.moorings.setIfInBounds 0 { moor0 with pins := [⟨0x10000000000, e, 1⟩] } }
      spadBytes ≤ 0x100001FFFF0 ∧ 0x100001FFFF0 + 1 < 2 ^ 56 ∧ s.moorOf 0 = some 0 ∧ (s.moor 0).lens = 0
        ∧ (s.moor 0).pins = [⟨0x10000000000, e, 1⟩] ∧ 0x100001FFFF0 + 1 < 0x10000000000 + 2 ^ 21 ∧ e.toNat / 2 ^ 63 % 2 = 1
        ∧ e.toNat / 2 ^ 56 % 8 = 0 ∧ e.toNat % 2 ^ 8 = 0 ∧ e.toNat / 2 ^ 8 % 2 ^ 48 * 256 % 2 ^ 21 = 0) := by decide +kernel

theorem landing_of (s : State) (c : Nat) (q : Seq) (h : s.Canon) (hc : c < nCores) (hf : (s.seq c .primary).frozen = none) : Landing s c q :=
  ⟨hc, h, fun _ => hf⟩

theorem canon_demoBusy (b : Nat) (q : List QEntry) (h : swf Core.init 0 (demoBusy b q).cores = true) : (demoBusy b q).Canon := ⟨rfl, rfl, h, rfl⟩

theorem witness_ResultsLand :
    let s := demoBusy 0 [pending 100 ⟨.a, 2⟩, pending 101 ⟨.m, 2⟩]
    Landing s 0 .primary ∧ pending 100 ⟨.a, 2⟩ ∈ (s.seq 0 .primary).queue ∧ lands s (pending 100 ⟨.a, 2⟩) = true
      ∧ (pending 100 ⟨.a, 2⟩).eff = .reg ⟨.a, 2⟩ (word 1) ∧ (∀ f ∈ (s.seq 0 .primary).queue, lands s f = true → f = pending 100 ⟨.a, 2⟩ ∨ f.eff.dest ≠ some ⟨.a, 2⟩)
      ∧ (let u := demoBusy 0 [pending 100 ⟨.m, 31⟩];
     Landing u 0 .primary ∧ ∀ f ∈ (u.seq 0 .primary).queue, lands u f = true → f.eff.rank < 2)
      ∧ ∀ e ∈ (s.seq 0 .primary).queue, ∀ v, e.eff ≠ .sys 0x0B v := by
  refine ⟨landing_of _ _ _ (canon_demoBusy _ _ (by decide +kernel)) (by decide) rfl, by decide, by decide, rfl, by decide,
    ⟨landing_of _ _ _ (canon_demoBusy _ _ (by decide +kernel)) (by decide) rfl, by decide⟩, ?_⟩
  intro e he v h
  have this : e ∈ [pending 100 ⟨.a, 2⟩, pending 101 ⟨.m, 2⟩] := he
  simp only [List.mem_cons, List.not_mem_nil, or_false] at this
  rcases this with rfl | rfl <;> cases h

theorem witness_WatchItemsLand :
    let e : QEntry := ⟨100, .watch 6 0x1234, 0, none, none, false, 0, none, 76⟩
    let s := demoBusy 0 [e]
    Landing s 0 .primary ∧ e ∈ (s.seq 0 .primary).queue ∧ lands s e = true
      ∧ ∀ f ∈ (s.seq 0 .primary).queue, lands s f = true → f.eff.isWatch = true → f = e :=
  ⟨landing_of _ _ _ (canon_demoBusy _ _ (by decide +kernel)) (by decide) rfl, by decide, by decide, by decide⟩

theorem witness_SharedResultsLand :
    (let s := demoBusy 0 [pending 100 ⟨.h, 31⟩];
     Landing s 0 .primary ∧ pending 100 ⟨.h, 31⟩ ∈ (s.seq 0 .primary).queue ∧ lands s (pending 100 ⟨.h, 31⟩) = true
        ∧ ∀ f ∈ (s.seq 0 .primary).queue, lands s f = true → f = pending 100 ⟨.h, 31⟩ ∨ f.eff.dest ≠ some ⟨.h, 31⟩)
    ∧ (let s : State := { demo with cores := [(0, { core0 with
          prim := { seq0 with queue := [pending 100 ⟨.h, 1⟩, pending 100 ⟨.h, 2⟩] }, sec := { seq0 with queue := [pending 100 ⟨.h, 3⟩] } })] }
      Landing s 0 .secondary ∧ (s.seq 0 .primary).frozen = none ∧ 2 ≤ ((s.seq 0 .primary).queue.filter fun f => f.isH && lands s f).length
        ∧ pending 100 ⟨.h, 3⟩ ∈ (s.seq 0 .secondary).queue) :=
  ⟨⟨landing_of _ _ _ (canon_demoBusy _ _ (by decide +kernel)) (by decide) rfl, by decide, by decide, by decide⟩,
    landing_of _ _ _ ⟨rfl, rfl, by decide +kernel, rfl⟩ (by decide) rfl, rfl, by decide, by decide⟩

theorem witness_SystemRegistersLand :
    let e : QEntry := ⟨100, .sys 0x03 0x47, 0, none, none, false, 0, none, 95⟩
    let s := demoBusy 0 [e]
    Landing s 0 .primary ∧ (s.seq 0 .primary).queue = [e] ∧ lands s e = true ∧ s.now ≤ e.due ∧ s.accesses = []
      ∧ 0x03 ∈ [0x02, 0x03, 0x04, 0x05, 0x06, 0x07, 0x08, 0x09, 0x0D, 0x0E, 0x0F, 0x11]
      ∧ (let d : QEntry := ⟨100, .sys 0x0D 0x2000, 0, none, none, false, 0, none, 99⟩
        let u : State := { demo2 with cores := [(0, { core0 with prim := SeqState.init, sec := { seq0 with queue := [d] } })] }
        Landing u 0 .secondary ∧ (u.seq 0 .secondary).queue = [d] ∧ lands u d = true ∧ u.primSys 0 = []) :=
  ⟨landing_of _ _ _ (canon_demoBusy _ _ (by decide +kernel)) (by decide) rfl, rfl, by decide, by decide, rfl, by decide,
    landing_of _ _ _ ⟨rfl, rfl, by decide +kernel, rfl⟩ (by decide) rfl, rfl, by decide, by decide⟩

/-! ### Accesses that perform, and what ends a hold -/

/-- Core 0 in cycle 100 with one access, an entry of its primary for M7 that waits for it, and words in its scratchpad at 0x100. -/
def demoAcc (a : Access) : State := { demo with
  cores := [(0, { core0 with prim := { seq0 with queue := [⟨102, .reg ⟨.m, 7⟩ Reg.zero, 0, none, some 5, false, 0, some .own, 98⟩] }, recv := [⟨3, 100⟩] })]
  accesses := [a]
  mem := [(spadBase + 0x100, 0x81), (spadBase + 0x101, 0x7F), (spadBase + 0x107, 0x80)] }

def accOf (k : AKind) (write : Bool) (pa : Nat) : Access := ⟨5, 100, .seq 0 .primary, .phys pa, k, write, false, .own, 2, 98, 5⟩

theorem canon_demoAcc0 : (demoAcc (accOf .ebbld false 0)).Canon := ⟨by decide, rfl, by decide +kernel, rfl⟩
theorem canon_demoAcc (a : Access) : (demoAcc a).Canon := ⟨canon_demoAcc0.mem, rfl, canon_demoAcc0.cores, rfl⟩

theorem performs_demoAcc (k : AKind) (w : Bool) (pa : Nat) (hf : (demoAcc (accOf k w pa)).stands (accOf k w pa) = false) :
    Performs (demoAcc (accOf k w pa)) (accOf k w pa) 0 .primary where
  canon := canon_demoAcc _
  found := rfl
  owner := rfl
  now := by
    simp only [State.performs, hf]
    rfl
  clean := rfl
  alone := fun b hb _ _ => by simpa [demoAcc] using hb

theorem witness_LoadsPerform :
    let a := accOf (.load 4 true (some (.phys (spadBase + 0x40))) 1) false (spadBase + 0x100);
    Performs (demoAcc a) a 0 .primary ∧ 4 ∈ [1, 2, 4, 8] ∧ ∃ e ∈ ((demoAcc a).seq 0 .primary).queue, e.held = some a.link :=
  ⟨performs_demoAcc _ _ _ (by decide +kernel), by decide, ⟨102, .reg ⟨.m, 7⟩ Reg.zero, 0, none, some 5, false, 0, some .own, 98⟩, by decide, rfl⟩

theorem witness_StoresPerform :
    (let a := accOf (.store [1, 2] [false, true] none) true (spadBase + 0x102);
    Performs (demoAcc a) a 0 .primary ∧ [false, true].length = ([1, 2] : List Byte).length)
    ∧ (let a := accOf (.store [1, 2, 3, 4] [false, false, false, false] (some (.phys (spadBase + 0x40), [24]))) true (spadBase + 0x100);
    Performs (demoAcc a) a 0 .primary) :=
  ⟨⟨performs_demoAcc _ _ _ (by decide +kernel), rfl⟩, performs_demoAcc _ _ _ (by decide +kernel)⟩

theorem witness_AtomsPerform :
    let a := accOf (.atom .cas true (word 1) (word 0x8000000000007F81)) true (spadBase + 0x100);
    Performs (demoAcc a) a 0 .primary ∧ (demoAcc a).anyPoison (spadBase + 0x100) 8 = false :=
  ⟨performs_demoAcc _ _ _ (by decide +kernel), by decide +kernel⟩

theorem witness_EbbAccessesPerform :
    (let a := accOf .ebbld false (spadBase + 0x100);
      Performs (demoAcc a) a 0 .primary)
    ∧ (let a := accOf (.ebbRead (word 1) true) true (spadBase + 0x100);
      Performs (demoAcc a) a 0 .primary ∧ a.wait = false ∧ a.id < (demoAcc a).nextId)
    ∧ (let a := accOf (.ebbWrite (word 0x3F800000) 0x010003E440800000 false false) true (spadBase + 0x100);
      Performs (demoAcc a) a 0 .primary)
    ∧ (0x010003E440800000 / 2 ^ 60 = 0 ∧ 0x010003E440800000 / 2 ^ 32 % 2 ^ 24 = 996 ∧ factorOk (0x010003E440800000 / 2 ^ 56 % 16) 0x3F7F0000 = true) :=
  ⟨performs_demoAcc _ _ _ (by decide +kernel), ⟨performs_demoAcc _ _ _ (by decide +kernel), rfl, by decide⟩,
    performs_demoAcc _ _ _ (by decide +kernel), by decide +kernel⟩

theorem witness_GaugeWords : (10 : Nat) < 2 ^ 32 ∧ 4 + 6 < 2 ^ 32 ∧ 10 ≠ 0 ∧ 4 + 5 < 10 ∧ 4 + 6 = 10 ∧ 10 < 4 + 7 ∧ 2 < 256 := by decide

theorem witness_OpenAccessesWait :
    (let a : Access := ⟨5, 100, .seq 0 .secondary, .phys (spadBase + 0x100), .load 4 false none 0, false, false, .own, 2, 98, 5⟩;
      let s : State := { demoAcc a with holds := [⟨100, 100, .spad 0 16, none, .prim, 98, 0x10⟩] };
      s.Canon ∧ s.findAccess a.id = some a ∧ a.t = s.now ∧ s.secWaits a = true)
    ∧ (let a : Access := ⟨5, 90, .seq 0 .primary, .phys (poolBase + 0x20), .load 4 false none 0, false, true, .pool, 2, 80, 5⟩;
      (demoAcc a).Canon ∧ (demoAcc a).findAccess a.id = some a ∧ (demoAcc a).served a = true ∧ (demoAcc a).errs = []
        ∧ ∀ b ∈ (demoAcc a).accesses, b.link = a.link → b.owner = a.owner → b = a) :=
  ⟨⟨⟨by decide, rfl, by decide +kernel, rfl⟩, rfl, rfl, by decide +kernel⟩, canon_demoAcc _, rfl, by decide +kernel, rfl,
    fun b hb _ _ => by simpa [demoAcc] using hb⟩

theorem witness_SendsLand :
    (let a : Access := ⟨5, 100, .seq 3 .primary, .phys (spadBase + 0x100), .send [7, 8] false 3 0, true, false, .own, 2, 88, 5⟩;
      (demoAcc a).Canon ∧ (demoAcc a).findAccess a.id = some a ∧ a.t = (demoAcc a).now ∧ ⟨3, (demoAcc a).now⟩ ∈ ((demoAcc a).core 0).recv
        ∧ ((demoAcc a).core 0).prim.run = .running)
    ∧ (let a : Access := ⟨5, 100, .seq 4 .primary, .phys (spadBase + 0x100), .send [7, 8] false 4 0, true, false, .own, 2, 88, 5⟩;
      (demoAcc a).findAccess a.id = some a ∧ ⟨4, (demoAcc a).now⟩ ∉ ((demoAcc a).core 0).recv ∧ (demoAcc a).moorOf 0 = some 0
        ∧ ((demoAcc a).moor 0).st = .running ∧ ((demoAcc a).moor 0).loose = false)
    ∧ (let s : State := { demo with cores := [(0, { core0 with prim := { seq0 with run := .ended }, recv := [⟨3, 100⟩] })] }
      ⟨3, s.now⟩ ∈ (s.core 0).recv ∧ (s.core 0).prim.run ≠ .running ∧ (s.core 0).prim.recorded = false) :=
  ⟨⟨canon_demoAcc _, rfl, rfl, by decide, rfl⟩, ⟨rfl, by decide, by decide, by decide, by decide⟩, by decide⟩

/-- Two cores of cluster 0, each with a hold, in cycle `now`. -/
def demoHold (now : Nat) (h0 h1 : Hold) : State := { demo with
  now := now
  cores := [(0, { core0 with prim := { seq0 with hold := h0 } }), (1, { core0 with prim := { seq0 with hold := h1 } })] }

theorem canon_demoHold (n : Nat) (h0 h1 : Hold) (h : swf Core.init 0 (demoHold n h0 h1).cores = true) : (demoHold n h0 h1).Canon := ⟨rfl, rfl, h, rfl⟩

theorem witness_BarriersComplete :
    let s := demoHold 106 (.sync 3 98) (.sync 3 100);
    Barrier s 0 3 ∧ ∀ i < 16, (3 : BitVec 16).getLsbD i = true → ∃ t, arrived s (16 * 0 + i) 3 t ∧ t + 6 ≤ s.now := by
  intro s
  refine ⟨⟨canon_demoHold _ _ _ (by decide +kernel), by decide, fun i hi m t h => ?_, ⟨0, by decide, 98, by rfl⟩⟩, fun i hi h => ?_⟩
  · have : ∀ i < 16, (s.core (16 * 0 + i)).prim.hold = if i = 0 then .sync 3 98 else if i = 1 then .sync 3 100 else .none := by decide +kernel
    rw [this i hi] at h
    split at h
    · cases h; rfl
    · split at h <;> cases h; rfl
  · have : ∀ i < 16, (3 : BitVec 16).getLsbD i = true → i = 0 ∨ i = 1 := by decide
    rcases this i hi h with rfl | rfl
    · exact ⟨98, ⟨rfl, rfl, rfl⟩, by decide⟩
    · exact ⟨100, ⟨rfl, rfl, rfl⟩, by decide⟩

theorem witness_BarriersTimeOut :
    let s := demoHold 65636 (.sync 3 100) .none;
    Barrier s 0 3 ∧ arrived s (16 * 0 + 0) 3 100 ∧ 100 + 65536 ≤ s.now ∧ (∀ t, ¬arrived s (16 * 0 + 1) 3 t) ∧ s.moorOf (16 * 0) = some 0
      ∧ (s.moor 0).loose = false ∧ (s.moor 0).st = .running 
      ∧ ∀ k < 16, (3 : BitVec 16).getLsbD k = true → (s.core (16 * 0 + k)).prim.faulted = false ∧ (s.core (16 * 0 + k)).prim.recorded = false := by
  intro s
  refine ⟨⟨canon_demoHold _ _ _ (by decide +kernel), by decide, fun i hi m t h => ?_, ⟨0, by decide, 100, by rfl⟩⟩, ⟨rfl, rfl, rfl⟩, by decide,
    fun t h => ?_, by decide, by decide, by decide, by decide +kernel⟩
  · have : ∀ i < 16, (s.core (16 * 0 + i)).prim.hold = if i = 0 then .sync 3 100 else .none := by decide +kernel
    rw [this i hi] at h
    split at h <;> cases h; rfl
  · have := h.1
    have e : (s.core (16 * 0 + 1)).prim.hold = .none := by rfl
    rw [e] at this; cases this

theorem witness_WaitsForGauges :
    (let s := demoHold 106 (.waitg 0x100 0 100 300 0) .none;
      s.Canon ∧ (s.seq 0 .primary).hold = .waitg 0x100 0 100 300 0 ∧ 100 < s.now ∧ s.now ≤ 300
        ∧ (s.num (s.pollPa 0 .primary (0x100 : BitVec 32).toNat + 8) 4 + 2 ^ 32 - (0 : BitVec 32).toNat) % 2 ^ 32 < 2 ^ 31)
    ∧ (let s := demoHold 301 (.waitg 0x100 9 100 300 0) .none;
      s.Canon ∧ 300 < s.now ∧ s.moorOf 0 = some 0 ∧ (s.moor 0).loose = false ∧ (s.moor 0).st = .running)
    ∧ (let s : State := { demo2 with
        now := 301, cores := [(0, { core0 with prim := SeqState.init, sec := { seq0 with hold := .waitg 0x100 9 100 300 0 } })] }
      s.Canon ∧ (s.seq 0 .secondary).hold = .waitg 0x100 9 100 300 0 ∧ 300 < s.now) :=
  ⟨⟨canon_demoHold _ _ _ (by decide +kernel), rfl, by decide, by decide, by decide +kernel⟩,
    ⟨canon_demoHold _ _ _ (by decide +kernel), by decide, by decide, by decide, by decide⟩, ⟨rfl, rfl, by decide +kernel, rfl⟩, rfl, by decide⟩

theorem witness_FencesRelease :
    (let s := demoHold 106 (.fence .package 100 0) .none;
      s.Canon ∧ (s.seq 0 .primary).hold = .fence .package 100 0 ∧ 100 + 1 + 0 ≤ s.now ∧ s.accesses = [] ∧ (s.seq 0 .primary).queue = [] ∧ s.cmds = [])
    ∧ (let a : Access := ⟨5, 108, .seq 0 .primary, .phys (spadBase + 0x100), .load 4 false none 0, false, false, .own, 2, 98, 5⟩;
      let s : State := { demoHold 106 (.fence .core 100 0) .none with accesses := [a] };
      (s.seq 0 .primary).hold = .fence .core 100 0 ∧ FScope.core ∈ [FScope.core, .cluster, .package, .domain] ∧ a ∈ s.accesses ∧ a.issued < 100 ∧ a.space = .own
        ∧ ∀ d p x y, a.kind ≠ .send d p x y)
    ∧ (let s := demoHold 106 (.tfence 100 0) .none;
      s.Canon ∧ (s.seq 0 .primary).hold = .tfence 100 0 ∧ 100 + 1 + 0 ≤ s.now ∧ (s.seq 0 .primary).queue = [] ∧ s.accesses = []
        ∧ (s.seq 0 .primary).flags.toNat &&& ((s.seq 0 .primary).trapen.toNat + 512) = 0)
    ∧ (let s : State := { demo with
        now := 106, cores := [(0, { core0 with prim := { seq0 with hold := .tfence 100 0, flags := 1, trapen := 1 } })] }
      s.Canon ∧ (s.seq 0 .primary).flags.toNat &&& ((s.seq 0 .primary).trapen.toNat + 512) ≠ 0)
    ∧ (let s := demoBusy 0 [pending 101 ⟨.a, 2⟩]
      let u : State := { s with cores := [(0, { core0 with prim := { seq0 with hold := .tfence 100 0, queue := [pending 101 ⟨.a, 2⟩] } })] }
      (u.seq 0 .primary).hold = .tfence 100 0 ∧ pending 101 ⟨.a, 2⟩ ∈ (u.seq 0 .primary).queue ∧ (pending 101 ⟨.a, 2⟩).eff.dest ≠ none)
    ∧ (∀ e ∈ [(⟨102, .sys 0x02 0, 0, none, none, false, 0, none, 97⟩ : QEntry)], e.eff.dest = none) :=
  ⟨⟨canon_demoHold _ _ _ (by decide +kernel), rfl, by decide, rfl, rfl, rfl⟩, ⟨rfl, by decide, by decide, by decide, rfl, fun _ _ _ _ h => by cases h⟩,
    ⟨canon_demoHold _ _ _ (by decide +kernel), rfl, by decide, rfl, rfl, by decide⟩, ⟨⟨rfl, rfl, by decide +kernel, rfl⟩, by decide⟩, by decide, by decide⟩

theorem witness_WatchdogReports :
    let s : State := { demo2 with now := 1048676 };
    s.Canon ∧ (s.seq 0 .secondary).run = .running ∧ (s.seq 0 .secondary).lastIssue + 2 ^ 20 ≤ s.now :=
  ⟨⟨rfl, rfl, by decide +kernel, rfl⟩, rfl, by decide⟩

/-! ### Engine commands -/

/-- A command of core 0 with a block of 64 bytes, START in cycle 100 and no gauge, but for what the number `b` adds. -/
def cmd0 (i : Instr) (cls : EClass) (inst opc : Nat) (st : CmdSt) (b : Nat) : Cmd where
  id := 3
  core := 0
  q := .primary
  mooring := some 0
  cls := cls
  inst := inst
  opc := opc
  instr := i
  issued := 60
  pc := 0x10000000000
  block := 0x1000
  fmt := 0
  sndbase := 0
  blk := natBytes 64 (100 + 0xFFFFFFFF * 2 ^ 64 + b)
  blkPoi := []
  start := 100
  st := st
  fl := 0
  code := 0
  doneBytes := 0
  budgetEnd := 0
  work := []
  data := []
  poi := []
  ended := false

/-- v as a field of a block from byte k on. -/
def field (k v : Nat) : Nat := v * 256 ^ k

def demoCmd (c : Cmd) : State := { demo with cmds := [c], nextId := 20 }

theorem canon_demoCmd (c : Cmd) : (demoCmd c).Canon := ⟨rfl, rfl, canon_demo.cores, rfl⟩

theorem works_of (s : State) (c : Cmd) (hs : s.Canon) (hc : s.cmds = [c]) (hm : s.moorOf c.core = some 0) (hn : (s.moor 0).loose = false)
    (hr : (s.moor 0).st = .running) (h : (!c.ended && c.mooring == some 0 && c.q == .primary && decide (c.inst < 32) && decide (c.opc < 128)) = true) :
    Works s c 0 := by
  simp only [Bool.and_eq_true, Bool.not_eq_true', beq_iff_eq, decide_eq_true_eq] at h
  exact ⟨hs, by simp [State.cmd, hc], fun d hd _ => by simpa [hc] using hd, h.1.1.1.1, h.1.1.1.2, hm, h.1.1.2, hn, hr, h.1.2, h.2⟩

theorem works_demoCmd (c : Cmd) (hc : c.core = 0)
    (h : (!c.ended && c.mooring == some 0 && c.q == .primary && decide (c.inst < 32) && decide (c.opc < 128)) = true) : Works (demoCmd c) c 0 :=
  works_of _ _ (canon_demoCmd c) rfl (by rw [hc]; exact (by decide : demo.moorOf 0 = some 0)) (by exact (by decide : (demo.moor 0).loose = false))
    (by exact (by decide : (demo.moor 0).st = .running)) h

/-- Its gauge, at 0x100 of the scratchpad, has not reached generation 5; and one that has, with a status. -/
theorem witness_HeadsAreChecked :
    (let c : Cmd := { cmd0 (.nmc ⟨.p0, 1⟩) .nm 0 0x20 .waiting 0 with blk := natBytes 64 (100 + field 8 0x100 + field 12 5) };
      Starts (demoCmd c) c 0 ∧ c.gaddr ≠ 0xFFFFFFFF
        ∧ 2 ^ 31 ≤ ((demoCmd c).num (headWord (demoCmd c) c + 8) 4 + 2 ^ 32 - c.gen % 2 ^ 32) % 2 ^ 32)
    ∧ (let c : Cmd := { cmd0 (.nmc ⟨.p0, 1⟩) .nm 0 0x20 .waiting 0 with blk := natBytes 64 (100 + field 8 0x100) };
      let s : State := { demoCmd c with mem := [(spadBase + 0x10C, 1)] };
      Starts s c 0 ∧ (s.num (headWord s c + 8) 4 + 2 ^ 32 - c.gen % 2 ^ 32) % 2 ^ 32 < 2 ^ 31 ∧ s.num (headWord s c + 12) 1 ≠ 0) :=
  ⟨⟨⟨works_demoCmd _ rfl (by decide), rfl, by decide +kernel, rfl, by decide⟩, by decide +kernel, by decide +kernel⟩,
    ⟨works_of _ _ ⟨by decide, rfl, canon_demo.cores, rfl⟩ rfl (by decide) (by decide) (by decide) (by decide), rfl, by decide +kernel, rfl, by decide⟩,
    by decide +kernel, by decide +kernel⟩

/-- A mooring whose lens table has one valid entry, for two pages of 64 KiB in HBM. -/
def demoLens (c : Cmd) : State := { demoCmd c with
  moorings := State.reset.moorings.setIfInBounds 0 { moor0 with lens := 0x10000010000, nodeAt := 9999 }
  mem := [(hbmBase + 0x10003, 0x40), (hbmBase + 0x10005, 0x01), (hbmBase + 0x10008, 0x01), (hbmBase + 0x1000D, 0x02), (hbmBase + 0x10012, 0x02),
    (hbmBase + 0x10015, 0x10), (hbmBase + 0x1001A, 0x03), (hbmBase + 0x1001D, 0x10)] }

theorem witness_CommandsBegin :
    (let c := { cmd0 (.nmc ⟨.p0, 1⟩) .nm 0 0x20 .waiting 0 with work := [0, hbmBase, 0] };
      Starts (demoCmd c) c 0 ∧ HeadOk (demoCmd c) c ∧ (((demoCmd c).chan (c.work.getD 0 0)).nmq.filter fun b => b.mooring == 0).length < 16)
    ∧ (let c := cmd0 (.stepadv ⟨.p0, 4⟩ 1) .pkg 0 0x29 .waiting 0;
      Starts (demoCmd c) c 0 ∧ HeadOk (demoCmd c) c)
    ∧ (let c := { cmd0 (.publish ⟨.p0, 6⟩) .pkg 0 0x21 .waiting 0 with data := [0, 0] };
      let s := demoLens c;
      Starts s c 0 ∧ HeadOk s c ∧ listIndices c.data = [0] ∧ s.lensPa 0 0 = some (hbmBase + 0x10000) ∧ (s.lens 0 0).isSome = true
        ∧ s.frozenAt (hbmBase + 0x10000 + 13) = false ∧ s.pubMeets 0 (some c.id) [0] = false ∧ s.nodeList 0 = []) :=
  ⟨⟨⟨works_demoCmd _ rfl (by decide), rfl, by decide +kernel, rfl, by decide⟩, .inl (by decide +kernel), by decide⟩,
    ⟨⟨works_demoCmd _ rfl (by decide), rfl, by decide +kernel, rfl, by decide⟩, .inl (by decide +kernel)⟩,
    ⟨works_of _ _ ⟨by decide, rfl, canon_demo.cores, rfl⟩ rfl (by decide) (by decide) (by decide) (by decide), rfl, by decide +kernel, rfl, by decide⟩,
    .inl (by decide +kernel), by decide, by decide +kernel, by decide +kernel, by decide +kernel, by decide +kernel⟩

theorem witness_BudgetsExpire :
    let c := { cmd0 (.cpy ⟨.p0, 4⟩ 0 2) .copy 0 0x10 .running 0 with budgetEnd := 100 };
    Works (demoCmd c) c 0 ∧ c.st = .running ∧ 0 < c.budgetEnd ∧ c.budgetEnd ≤ (demoCmd c).now :=
  ⟨works_demoCmd _ rfl (by decide), rfl, by decide, by decide⟩

/-- A `CPYMC` of 256 bytes from the pool to cores 0 and 3, delivered from cycle 132 on, in the cycle before. -/
def mcCmd : Cmd := { cmd0 (.cpymc ⟨.p0, 3⟩ 0 0) .copy 0 0x11 .running
    (field 16 0x200000000 + field 24 0x400 + field 28 256 + field 32 9 + field 36 0x100 + field 40 32) with
  data := List.replicate 256 7, poi := List.replicate 256 false }

theorem witness_MulticastDelivers :
    (let s : State := { demoCmd mcCmd with now := 131 };
      Works s mcCmd 0 ∧ s.now + 1 = mcCmd.start + mcCmd.mc.d ∧ s.inHbm mcCmd mcCmd.mc.src .r = some false
        ∧ s.mcSplit mcCmd mcCmd.mc = false ∧ s.engMeets mcCmd.id (s.mcUses mcCmd mcCmd.mc (mcCmd.start + mcCmd.mc.d)) = false ∧ mcCmd.mc.gauge ≠ 0xFFFFFFFF ∧ mcTargets mcCmd = [0, 3])
    ∧ (let s : State := { demoCmd mcCmd with now := 131, holds := [⟨133, 133, .spad 3 8, none, .prim, 120, 0⟩] };
      Works s mcCmd 0 ∧ s.mcSplit mcCmd mcCmd.mc = false ∧ s.engMeets mcCmd.id (s.mcUses mcCmd mcCmd.mc (mcCmd.start + mcCmd.mc.d)) = true)
    ∧ (let c : Cmd := { mcCmd with blk := natBytes 64 (100 + 0xFFFFFFFF * 2 ^ 64 + (field 16 0x200000000 + field 24 0xFFC0 + field 28 128 + field 32 1
          + field 36 0x100 + field 40 32)) };
      let s : State := { demoLens c with now := 131, mem := [(hbmBase + 0x10004, 0x01), (hbmBase + 0x10008, 0x01), (hbmBase + 0x1000D, 0x02)] };
      Works s c 0 ∧ s.now + 1 = c.start + c.mc.d ∧ s.inHbm c c.mc.src .r = some false ∧ s.mcSplit c c.mc = true)
    ∧ (let s : State := { demoCmd mcCmd with now := 133 };
      Works s mcCmd 0 ∧ s.now = mcCmd.start + mcCmd.mc.d + 1 ∧ 1 < mcChunks mcCmd ∧ mcCmd.data.length = mcCmd.mc.bytes
        ∧ mcCmd.poi.length = mcCmd.mc.bytes ∧ mcCmd.mc.doff + mcCmd.mc.bytes ≤ spadBytes ∧ (s.moor 0).lens = 0)
    ∧ (let c : Cmd := { mcCmd with blk := natBytes 64 (100 + 0xFFFFFFFF * 2 ^ 64 + (field 16 0x200000000 + field 24 0x400 + field 28 256 + field 32 8
          + field 36 0x100 + field 40 32)) };
      mcTargets c = [3] ∧ c.data.length = c.mc.bytes) :=
  ⟨⟨works_of _ _ ⟨rfl, rfl, canon_demo.cores, rfl⟩ rfl (by decide) (by decide) (by decide) (by decide), by decide +kernel, by decide +kernel,
      by decide +kernel, by decide +kernel, by decide +kernel, by decide +kernel⟩,
    ⟨works_of _ _ ⟨rfl, rfl, canon_demo.cores, rfl⟩ rfl (by decide) (by decide) (by decide) (by decide), by decide +kernel, by decide +kernel⟩,
    ⟨works_of _ _ ⟨by decide, rfl, canon_demo.cores, rfl⟩ rfl (by decide) (by decide) (by decide) (by decide), by decide +kernel, by decide +kernel,
      by decide +kernel⟩,
    ⟨works_of _ _ ⟨rfl, rfl, canon_demo.cores, rfl⟩ rfl (by decide) (by decide) (by decide) (by decide), by decide +kernel, by decide +kernel,
      by decide +kernel, by decide +kernel, by decide +kernel, rfl⟩, by decide +kernel, by decide +kernel⟩

theorem witness_EliminationsEnd :
    let w : Sweep := ⟨3, 3, 1, 0x100, 4, 0x200, 0xFFFFFFFF, false, List.replicate 3 ⟨0x3F800000, false, 24⟩, List.replicate 3 24, 0, 100, [], 0, false⟩;
    let c := cmd0 (.arrsweep ⟨.p0, 0⟩ false) .mesh 0 0x04 .running 0;
    let s : State := { demoCmd c with cores := [(0, { core0 with mesh := { Mesh.init with sweep := some w } })] };
    s.Canon ∧ (s.mesh c.core).sweep = some w ∧ w.due = s.now ∧ s.cmd w.cmd = some c ∧ w.stopping = false ∧ w.next + 1 < (elimOrder w.m w.n).length :=
  ⟨⟨rfl, rfl, by decide +kernel, rfl⟩, rfl, rfl, rfl, rfl, by decide⟩

/-- Offsets 1, 3 and 4 of eight elements, two a cycle; the first has been pushed. -/
theorem witness_OffsetsArePushed :
    let c := { cmd0 (.sixrun ⟨.p0, 2⟩ 1 false) .six 0 0x12 .running (field 20 8) with start := 96, work := [1], data := [0x1A] };
    let s := demoCmd c;
    s.Canon ∧ s.sixCmds c.core = [c] ∧ (∀ d ∈ s.cmds, d.id = c.id → d = c) ∧ c.six.count = 8 ∧ 8 ≤ 8 * c.data.length ∧ c.start + 4 ≤ s.now
      ∧ (let offs := (List.range 8).filter fun i => (c.data.getD (i / 8) 0).getLsbD (i % 8);
        1 + 0 ≤ offs.length ∧ (s.core c.core).q0.length + 0 ≤ 256 ∧ s.now < c.start + 4 + (1 + 1) / 2 ^ (1 : Fin 4).val) :=
  ⟨canon_demoCmd _, by decide +kernel, fun d hd _ => by simpa [demoCmd] using hd, by decide +kernel, by decide, by decide, by decide, by decide, by decide⟩

/-- A region of two words in two granules; the second is swept in this cycle. -/
theorem witness_SweepsMergeGranules :
    let r : Region := ⟨0x200000008, 2, true, false, true, 0, Vector.replicate 16 0x3F7F0000⟩;
    let c := { cmd0 (.ebbsweep ⟨.p0, 5⟩ 0) .pkg 0 0x2A .running 0 with work := [1, 996, 99, 100] };
    let s : State := { demoCmd c with moorings := State.reset.moorings.setIfInBounds 0 { moor0 with regions := [r] } };
    Works s c 0 ∧ (s.moor 0).regions[(0 : Fin 16).val]? = some r ∧ c.work = 1 :: 996 :: [99, 100] ∧ ([99, 100] : List Nat)[1]? = some s.now
      ∧ (r.wordsIn 1).2 = 1 ∧ 1 + 1 = r.granules ∧ (s.moor 0).lens = 0 ∧ (⟨0x200000000, 2, true, false, true, 0, Vector.replicate 16 0⟩ : Region).wordsIn 0 = (0x200000000, 2)
      ∧ (let a : Access := ⟨9, 100, .cmd 3, .phys 0, .eng stepTail 0, false, false, .own, 6, 100, 3⟩
        ({ s with accesses := [a] } : State).findAccess a.id = some a ∧ a.owner = .cmd c.id ∧ a.t = s.now) :=
  ⟨works_of _ _ ⟨rfl, rfl, canon_demo.cores, rfl⟩ rfl (by decide) (by decide) (by decide) (by decide), by decide, rfl, by decide, by decide, by decide,
    rfl, by decide, by decide⟩

theorem witness_BlocksPerform :
    let b : NmBlk := ⟨3, 0, 0, 90, 40, some 100⟩;
    let c := { cmd0 (.nmc ⟨.p0, 5⟩) .nm 0 0x20 .running (field 16 2 + field 20 4 + field 24 0x10000000100 + field 40 0x40000000 + field 44 0xFFFFFFFF) with
      work := [0, hbmBase + 0x100, 0] }
    let s : State := { demoCmd c with channels := [(0, { Channel.init with nmq := [b] })] };
    Works s c 0 ∧ c.work = [0, hbmBase + 0x100, 0] ∧ b ∈ (s.chan 0).nmq ∧ b.cmd = c.id ∧ b.runAt = some s.now ∧ c.nm.form = 0 ∧ c.nm.op ∈ [2, 3]
      ∧ c.nm.gauge = 0xFFFFFFFF ∧ s.frozenIn (hbmBase + 0x100) (4 * c.nm.count) = false ∧ s.errs = [] ∧ s.poison = [] :=
  ⟨works_of _ _ ⟨rfl, rfl, canon_demo.cores, by decide +kernel⟩ rfl (by decide) (by decide) (by decide) (by decide), rfl, by decide, rfl, rfl,
    by decide +kernel, by decide +kernel, by decide +kernel, by decide +kernel, rfl, rfl⟩

def drain0 : Drain := ⟨(List.range 32).map fun i => hbmBase + 0x200000 + 65536 * i, hbmBase + 0x400000,
  (List.range 32).map fun i => hbmBase + 0x600000 + 65536 * i, 996, 1, 1, 0⟩

theorem witness_DrainsCopy :
    (let s : State := { demo with now := 93311, moorings := State.reset.moorings.setIfInBounds 0 { moor0 with drain := some drain0 } };
      s.Canon ∧ (s.moor 0).drain = some drain0 ∧ drain0.nextPage = 0 ∧ 0 < drain0.pages ∧ s.now + 1 = (drain0.f0 + 8 * (0 + 1)) * frameCycles
        ∧ ∀ i < 32, ∀ k < 32, drain0.pieces.getD (32 * 0 + i) 0 % 65536 = 0 ∧ drain0.dest.getD (32 * 0 + i) 0 % 65536 = 0
          ∧ drain0.pieces.getD (32 * 0 + i) 0 ≠ drain0.dest.getD (32 * 0 + k) 0
          ∧ (i ≠ k → drain0.dest.getD (32 * 0 + i) 0 ≠ drain0.dest.getD (32 * 0 + k) 0))
    ∧ (let d := { drain0 with nextPage := 1 };
      let s : State := { demo with moorings := State.reset.moorings.setIfInBounds 0 { moor0 with drain := some d } };
      s.Canon ∧ (s.moor 0).drain = some d ∧ d.nextPage = d.pages) :=
  ⟨⟨⟨rfl, rfl, canon_demo.cores, rfl⟩, rfl, rfl, by decide, by decide, by decide +kernel⟩, ⟨rfl, rfl, canon_demo.cores, rfl⟩, rfl, rfl⟩

/-- A group of this device alone gathers two words. -/
theorem witness_CollectivesComplete :
    let c := { cmd0 (.coll ⟨.p0, 3⟩ 2 .allGather .fp32) .coll 2 0x18 .running
      (field 16 1 + field 20 2 + field 24 0x10000000100 + field 32 0x200 + field 40 0x100) with data := List.replicate 8 3 }
    let s : State := { demoCmd c with moorings := State.reset.moorings.setIfInBounds 0 { moor0 with groups := [(1, [ownDeviceId])] } };
    Works s c 0 ∧ c.cls = .coll ∧ c.st = .running ∧ rankOf (s.members 0 c.coll.group) = some 0 ∧ 0 < (s.members 0 c.coll.group).length
      ∧ 0 < c.coll.count ∧ c.coll.count % (s.members 0 c.coll.group).length = 0 ∧ c.data.length = 4 * (c.coll.count / (s.members 0 c.coll.group).length)
      ∧ s.frozenRange (s.placePa (s.engPlace c c.coll.dst .w) (4 * c.coll.count) true) (4 * c.coll.count) = false ∧ c.coll.gauge ≠ 0xFFFFFFFF
      ∧ c.coll.dst + 4 * c.coll.count ≤ spadBytes ∧ (s.moor 0).lens = 0 ∧ s.accesses = [] ∧ s.holds = [] := by
  intro c s
  have hm : s.members 0 c.coll.group = [ownDevice] := by rfl
  refine ⟨works_of _ _ ⟨rfl, rfl, canon_demo.cores, rfl⟩ rfl (by decide) (by decide) (by decide) (by decide), rfl, rfl, ?_, ?_, by decide +kernel, ?_, ?_,
    by decide +kernel, by decide +kernel, by decide +kernel, rfl, rfl, rfl⟩
  all_goals rw [hm]
  · simp [rankOf, List.idxOf?]
  · decide
  · exact Nat.mod_one _
  · have : c.coll.count = 2 := by decide +kernel
    rw [this]; rfl

theorem witness_LensFlips :
    let a : Access := ⟨9, 100, .cmd 3, .phys 0, .eng stepLens 0, false, false, .own, 6, 100, 3⟩
    let c := cmd0 (.coll ⟨.p0, 3⟩ 2 .allGather .fp32) .coll 2 0x18 .running 0
    let s : State := { demoLens c with accesses := [a] };
    Works s c 0 ∧ c.cls = .coll ∧ c.st = .running ∧ c.coll.lens ≠ 0xFFFF ∧ s.lensPa 0 c.coll.lens = some (hbmBase + 0x10000)
      ∧ s.frozenAt (hbmBase + 0x10000 + 13) = false ∧ s.findAccess a.id = some a ∧ a.owner = .cmd c.id ∧ a.t = s.now :=
  ⟨works_of _ _ ⟨by decide, rfl, canon_demo.cores, rfl⟩ rfl (by decide) (by decide) (by decide) (by decide), rfl, rfl, by decide +kernel,
    by decide +kernel, by decide +kernel, rfl, rfl, rfl⟩

theorem witness_RemoteCommandsComplete :
    (let c := { cmd0 (.rst ⟨.p2, 8⟩ 5) .cloys 5 0x1A .running (field 36 16 + field 40 0x100) with budgetEnd := 100 };
      Works (demoCmd c) c 0 ∧ c.st = .running ∧ c.cls = .cloys ∧ c.opc = 0x1A ∧ c.rem.gauge ≠ 0xFFFFFFFF ∧ (demoCmd c).holds = []
        ∧ c.budgetEnd ≤ (demoCmd c).now)
    ∧ (let c := { cmd0 (.rld ⟨.p2, 8⟩ 5) .cloys 5 0x19 .running (field 16 0x100000400 + field 36 16 + field 40 0x100) with work := [0] };
      let s : State := { demoCmd c with moorings := State.reset.moorings.setIfInBounds 0 { moor0 with
        pins := ⟨0x100000000, 0xF000000100000000, 0⟩ :: moor0.pins } }
      Works s c 0 ∧ c.opc = 0x19 ∧ c.work = [0] ∧ 0 + 4 < c.rem.bytes ∧ s.engSpot c (c.rem.loc + 0) 4 .w = some ⟨spadBase + 0x400, none⟩
        ∧ resOf (spadBase + 0x400) = some (.spad 0 0) ∧ s.engMeets c.id ((Spot.mk (spadBase + 0x400) none).uses 4 s.now) = false) :=
  ⟨⟨works_demoCmd _ rfl (by decide), rfl, rfl, rfl, by decide +kernel, rfl, by decide⟩,
    works_of _ _ ⟨rfl, rfl, canon_demo.cores, rfl⟩ rfl (by decide) (by decide) (by decide) (by decide), rfl, rfl, by decide +kernel, by decide +kernel,
    by decide +kernel, by decide +kernel⟩

theorem witness_LinksCarry :
    (let c := cmd0 (.coll ⟨.p0, 3⟩ 2 .allReduce .fp32) .coll 2 0x18 .running 0;
      let s : State := { demoCmd c with now := 54000 };
      Tidy Plane.init s.planes ∧ (s.plane 3).lost = false ∧ (s.plane 3).lastCarry + 54000 ≤ s.now ∧ Works s c 0 ∧ c.cls = .coll ∧ c.st = .running
        ∧ s.cmds = [c] ∧ s.boot = .up)
    ∧ ((List.replicate 248 (0 : Byte)).length = 248 ∧ leNat (((List.replicate 248 (0 : Byte)).drop 4).take 2) = (demo.plane 3).rxSeq % 2 ^ 16)
    ∧ ([] : List Byte).length ≠ 256
    ∧ (let s : State := { demo with planes := [(3, { Plane.init with heldBack := [⟨none, none, 5, 3, [1, 2]⟩] })] };
      Tidy Plane.init s.planes ∧ (s.plane 3).heldBack = (⟨none, none, 5, 3, [1, 2]⟩ : Held) :: [] ∧ (⟨none, none, 5, 3, [1, 2]⟩ : Held).cmd = none ∧ 240 ≤ (s.plane 3).quota)
    ∧ (let body : List Byte := natBytes 248 (field 6 kindStore + field 8 (spadBase + 0x100) + field 16 4 + field 28 7);
      let s : State := { demo with exports := [(0, spadBase + 17)] };
      body.length = 248 ∧ leNat ((body.drop 4).take 2) = (s.plane 3).rxSeq % 2 ^ 16 ∧ leNat ((body.drop 6).take 2) = kindStore
        ∧ leNat ((body.drop 8).take 8) = spadBase + 0x100 ∧ leNat ((body.drop 16).take 4) = 4 ∧ (spadBase + 0x100) / 64 = (spadBase + 0x100 + 4 - 1) / 64
        ∧ spadBase + 0x100 < hbmBase ∧ (s.plane 3).inq = [] ∧ s.exported (spadBase + 0x100) 4 = true ∧ demo.exported (spadBase + 0x100) 4 = false) :=
  ⟨⟨rfl, rfl, by decide, works_of _ _ ⟨rfl, rfl, canon_demo.cores, rfl⟩ rfl (by decide) (by decide) (by decide) (by decide), rfl, rfl, rfl, rfl⟩,
    by decide +kernel, by decide, ⟨rfl, rfl, by decide⟩, by decide +kernel⟩

/-! ### Records, tasks and nodes -/

/-- Cycle 100 with another mooring 0, and words of memory. -/
def demoM (k : Mooring) (mem : Memory) : State := { demo with moorings := State.reset.moorings.setIfInBounds 0 k, mem := mem }

theorem canon_demoM (k : Mooring) (mem : Memory) (h : mem.wf = true) : (demoM k mem).Canon := ⟨h, rfl, canon_demo.cores, rfl⟩

/-- A record for mooring 0 without input (R283): REQID 1, a deadline of 1,000 µs; and with another reserved byte. -/
def recBody (b3 : Byte) : List Byte := [0xA1, 0xE7, 0x00, b3] ++ natBytes 6 1 ++ [0, 0] ++ natBytes 4 1000 ++ natBytes 16 0
def goodRec : List Byte := recBody 0 ++ tagOf 0 (recBody 0)
/-- The same with a tag of which every byte is another. -/
def forged : List Byte := recBody 0 ++ (tagOf 0 (recBody 0)).map (· ^^^ 1)

def moorT : Mooring := { moor0 with istride := 64, t0 := 10368 }

/-- The Pilot listens on port 5000 at address 7. -/
def demoR : State := { demoM moorT [] with ipAddrs := [(0, 7)], udpPort := 5000 }

/-- A frame to that address and port: Ethernet, IPv6, UDP. -/
def frameTo (body : List Byte) : List Byte :=
  List.replicate 12 1 ++ [0x86, 0xDD, 0x60, 0, 0, 0] ++ beBytes 2 (8 + body.length) ++ [17, 64] ++ beBytes 16 9 ++ beBytes 16 7 ++ beBytes 2 1234
    ++ beBytes 2 5000 ++ beBytes 2 (8 + body.length) ++ [0, 0] ++ body
def srcOf : RecSrc := .ethernet 0 (List.replicate 6 1) (beBytes 16 9) 1234 (beBytes 16 7)

theorem arrives_of (b : List Byte) (h : 3 ≤ b.length) (hm : recMooring b = 0) : Arrives demoR b := by
  refine ⟨rfl, ⟨rfl, fun e he => ?_⟩, h, by rw [hm]; decide, by rw [hm]; exact (by decide : (demoR.moor 0).loaded = true)⟩
  cases he

theorem good_tag : TagOk demoR goodRec := by rfl

theorem forged_tag : ¬TagOk demoR forged := by
  intro h
  have e : (tagOf 0 (recBody 0)).map (· ^^^ 1) = tagOf 0 (recBody 0) := h
  have : ∀ x : Byte, x ^^^ 1 ≠ x := by decide
  generalize hl : tagOf 0 (recBody 0) = l at e
  cases l with
  | nil => cases hl
  | cons a l => exact this a (List.cons.inj e).1

theorem witness_RecordsAreChecked :
    demoR.recordIn 0 (frameTo (recBody 1)) = some (srcOf, recBody 1) ∧ demoR.recordIn 0 (frameTo forged) = some (srcOf, forged)
    ∧ demoR.recordIn 0 (frameTo goodRec) = some (srcOf, goodRec) ∧ demoR.boot = .up ∧ Tidy 0 demoR.drops ∧ demoR.arrivals = []
    ∧ demoR.recordIn 0 (frameTo (recBody 1)).dropLast = none :=
  ⟨by decide +kernel, by rfl, by rfl, rfl, rfl, rfl, by decide +kernel⟩

theorem witness_RecordFates :
    (Arrives demoR (recBody 1) ∧ ¬FormOk demoR (recBody 1))
    ∧ (Arrives demoR forged ∧ FormOk demoR forged ∧ ¬TagOk demoR forged)
    ∧ (Arrives demoR goodRec ∧ FormOk demoR goodRec ∧ TagOk demoR goodRec
      ∧ (∀ hi, (demoR.moor 0).hiReq = some hi → hi < recField goodRec 4 6) ∧ recField goodRec 2 1 / 8 % 2 = 0 ∧ demoR.room 0 100 = some (0, 0)
      ∧ moorT.loose = false ∧ moorT.looseNext = false ∧ demoR.thermalHold = false ∧ 0 < moorT.bcap
      ∧ moorT.t0 + 0 * moorT.period + moorT.k + moorT.replyb ≤ 100 + recField goodRec 12 4 * 2700)
    ∧ (let k := { moorT with hiReq := some 5000 };
      ((demoM k []).moor 0).hiReq = some 5000 ∧ recField goodRec 4 6 ≤ 5000 ∧ 4095 < 5000 - recField goodRec 4 6) :=
  ⟨⟨arrives_of _ (by decide) (by decide), fun h => absurd h.2.2.2.1 (by decide)⟩,
    ⟨arrives_of _ (by exact (by decide : 3 ≤ 48)) (by rfl), ⟨by rfl, by rfl, by rfl, by rfl, by rfl, by exact (by decide : 1000 ≠ 0), .inr (by exact (by decide : 16 ≤ 64))⟩, forged_tag⟩,
    ⟨arrives_of _ (by exact (by decide : 3 ≤ 48)) (by rfl), ⟨by rfl, by rfl, by rfl, by rfl, by rfl, by exact (by decide : 1000 ≠ 0), .inr (by exact (by decide : 16 ≤ 64))⟩, good_tag,
      fun hi h => absurd (show (none : Option Nat) = some hi from h) (by simp), by rfl, by decide +kernel, rfl, rfl, rfl, by decide, by exact (by decide : 22068 ≤ 2700100)⟩,
    rfl, by exact (by decide : 1 ≤ 5000), by exact (by decide : 4095 < 4999)⟩

def req0 : Req := ⟨1, false, false, [1, 2, 3], 0, 100, 1000, 0, .host 0 9, false⟩

theorem witness_SealsWriteSlots :
    (let k : Mooring := { moorT with t0 := 2800, inarea := 0x200000400, slots := [⟨0, 0, req0⟩] };
      let s := demoM k [];
      s.Canon ∧ (s.moor 0).loaded = true ∧ 0 < (s.moor 0).period ∧ s.now + (s.moor 0).lead = (s.moor 0).t0 + 0 * (s.moor 0).period ∧ (s.moor 0).bulk = []
        ∧ (s.moor 0).bcap = 1 ∧ (((s.moor 0).slots.find? fun p => p.task == 0 && p.slot == 0).map (·.req)) = some req0
        ∧ s.moorPa 0 0x200000400 = some (poolBase + 0x400) ∧ 0x200000400 % 65536 + 19 ≤ 65536)
    ∧ (let k : Mooring := { moorT with t0 := 2800, inarea := 0x200000400 };
      (((demoM k []).moor 0).slots.find? fun p => p.task == 0 && p.slot == 0).map (·.req) = none) :=
  ⟨⟨canon_demoM _ _ rfl, rfl, by decide, by decide, rfl, rfl, by decide, by decide +kernel, by decide⟩, by decide⟩

/-- A command stream of which node 1 counts a DELAY of 5. -/
def moorN : Mooring := { moorT with stream := 0x10000020000, entry := 1, lens := 0 }
def memN : Memory := [(hbmBase + 0x20048, 5)]

theorem witness_TasksStart :
    let s := demoM { moorN with t0 := 100, st := .idle } memN;
    (s.moor 0).loaded = true ∧ 0 < (s.moor 0).period ∧ s.now = (s.moor 0).t0 + 0 * (s.moor 0).period ∧ (s.moor 0).st = .idle ∧ s.boot = .up
      ∧ s.withheld 0 = false ∧ ∃ r, s.moorBytes 0 ((s.moor 0).stream + 64 * (s.moor 0).entry) 64 = some r ∧ leNat ((r.drop 8).take 8) ≠ 0 := by
  intro s
  refine ⟨rfl, by decide, by decide, rfl, rfl, by decide, (s.moorBytes 0 ((s.moor 0).stream + 64 * (s.moor 0).entry) 64).getD [], ?_, ?_⟩
  · decide +kernel
  · decide +kernel

theorem witness_TasksComplete :
    (let k := { moorT with atEnd := true, launched := [], slots := [⟨0, 0, req0⟩] };
      let s := demoM k [];
      Running s 0 ∧ s.taskDone 0 = true ∧ s.now ≤ (s.moor 0).started + (s.moor 0).k ∧ (s.moor 0).bcap = 1 ∧ (s.moor 0).slots = [⟨0, 0, req0⟩] ∧ (s.moor 0).task = 0
        ∧ req0.answered = false ∧ req0.src = .host 0 9 ∧ (s.moor 0).preempt = [])
    ∧ (let s := demoM { moorT with k := 40 } [];
      Running s 0 ∧ (s.moor 0).started + (s.moor 0).k < s.now) :=
  ⟨⟨⟨canon_demoM _ _ rfl, by decide, rfl, rfl⟩, by decide, by decide, by decide, rfl, rfl, rfl, rfl, rfl⟩, ⟨canon_demoM _ _ rfl, by decide, rfl, rfl⟩, by decide⟩

theorem witness_TasksAreDiscarded :
    (let s := demoM { moorT with launched := [⟨0, 99, 50, 0x10000000000, 0, true, false⟩] } [];
      Running s 0 ∧ s.moorOf 0 = some 0 ∧ ⟨0, 99, 50, 0x10000000000, 0, true, false⟩ ∈ (s.moor 0).launched ∧ (s.core 0).prim.run = .running
        ∧ (s.core 0).prim.faulted = false ∧ (s.core 0).prim.recorded = false ∧ 99 + 1 = s.now)
    ∧ (let s := demoM { moorT with st := .ending 100 } [];
      s.Canon ∧ (s.moor 0).st = .ending 100 ∧ 100 ≤ s.now ∧ ∃ l ∈ (s.moor 0).launched, l.begun = true ∧ l.core ∈ s.coreIds) :=
  ⟨⟨⟨canon_demoM _ _ rfl, by decide, rfl, rfl⟩, by decide, by decide, rfl, rfl, rfl, by decide⟩, canon_demoM _ _ rfl, rfl, by decide,
    ⟨0, 9000, 50, 0x10000000000, 0, true, false⟩, by decide, rfl, by decide⟩

/-- Node 0 of the stream executes. -/
def demoN (k : Mooring) (mem : Memory) : State := { demoM k mem with ev := .node 0 }
theorem atNode_of (k : Mooring) (mem : Memory) (h : mem.wf = true) (hn : k.node = 0) (hr : k.st = .running ∧ k.atEnd = false) (hw : k.waiting = none) :
    AtNode (demoN k mem) 0 0 := ⟨⟨h, rfl, canon_demo.cores, rfl⟩, by decide, rfl, hn, hr, hw⟩

/-- The record of node 1. -/
def rec1 (s : State) : List Byte := (nodeBytes s 0 1).getD []

/-- LTAB entries of cluster 0: cores 1 and 2 have an image; then with another offset, and with a reserved byte. -/
def memL (off rsv : Byte) : Memory :=
  memN ++ [(hbmBase + 0x30065, 1), (hbmBase + 0x300C5, 1)] ++ (if off = 0 then [] else [(hbmBase + 0x300C8, off)])
    ++ (if rsv = 0 then [] else [(hbmBase + 0x300CC, rsv)])

def ents (s : State) : List LEnt := (s.ltab 0 1 0x10000030000).getD []

theorem witness_LaunchNodes :
    (let s := demoN moorN (memL 0 0);
      AtNode s 0 0 ∧ nodeBytes s 0 1 = some (rec1 s) ∧ nodeDelay (rec1 s) ≠ 0 ∧ (2 : BitVec 64) &&& ~~~(s.moor 0).cmask ≠ 0
        ∧ (1 : BitVec 64) &&& ~~~(s.moor 0).cmask = 0 ∧ s.ltab 0 1 0x10000030000 = some (ents s) ∧ (∀ e ∈ ents s, e.clean = true)
        ∧ (∀ e ∈ ents s, ∀ f ∈ ents s, e.image ≠ 0 → f.image ≠ 0 → e.core / 16 = f.core / 16 → e.offset = f.offset)
        ∧ (∀ e ∈ ents s, e.image ≠ 0 → s.coreRuns 0 e.core = false ∧ s.tooSoon 0 e = false) ∧ ∃ e ∈ ents s, e.image ≠ 0 ∧ e.core = 2)
    ∧ (let s := demoN moorN (memL 7 0);
      s.ltab 0 1 0x10000030000 = some (ents s) ∧ ∃ e ∈ ents s, ∃ f ∈ ents s, e.image ≠ 0 ∧ f.image ≠ 0 ∧ e.core / 16 = f.core / 16 ∧ e.offset ≠ f.offset)
    ∧ (let s := demoN moorN (memL 0 3);
      s.ltab 0 1 0x10000030000 = some (ents s) ∧ ∃ e ∈ ents s, e.clean = false)
    ∧ (let s := demoN { moorN with launched := [⟨2, 9000, 50, 0x10000000000, 0, false, false⟩] } (memL 0 0);
      s.ltab 0 1 0x10000030000 = some (ents s) ∧ ∃ e ∈ ents s, e.image ≠ 0 ∧ s.coreRuns 0 e.core = true) := by
  refine ⟨⟨atNode_of _ _ (by decide) rfl ⟨rfl, rfl⟩ rfl, ?_⟩, ?_, ?_, ?_⟩ <;> decide +kernel

theorem witness_TimelineNodes :
    let s := demoN moorN memN;
    AtNode s 0 0 ∧ nodeBytes s 0 1 = some (rec1 s) ∧ nodeDelay (rec1 s) ≠ 0 ∧ (255 < nChannels ∧ (2 ^ 255 : BitVec 256).getLsbD 255 = true ∧ 255 ∉ (s.moor 0).chans)
      ∧ ∀ c < nChannels, (1 : BitVec 256).getLsbD c = true → c ∈ (s.moor 0).chans ∧ (∃ w < nWindows, mapCode (s.chan c).map w = 0) ∧ (s.chan c).tl 0 = none
        ∧ (s.chan c).backlog = false := by
  intro s
  refine ⟨atNode_of _ _ (by decide) rfl ⟨rfl, rfl⟩ rfl, by decide +kernel, by decide +kernel, by decide +kernel, fun c hc h => ?_⟩
  have : ∀ c < nChannels, (1 : BitVec 256).getLsbD c = true → c = 0 := by decide +kernel
  obtain rfl := this c hc h
  exact ⟨by decide, ⟨1, by decide, by decide +kernel⟩, rfl, rfl⟩

/-- Channel 0 in a disturb backlog since its first window. -/
theorem witness_TimelineBacklog :
    let s : State := { demoN moorN memN with channels := [(0, { Channel.init with backlog := true, backlogFrom := 0 })] }
    s.Canon ∧ (1 : BitVec 256).getLsbD 0 = true ∧ (s.chan 0).backlog = true ∧ (s.chan 0).backlogFrom ≤ clockOf s.now / windowClocks
      ∧ 0 ∈ (s.moor 0).chans ∧ ∃ w < nWindows, mapCode (s.chan 0).map w = 0 :=
  ⟨⟨by decide, rfl, canon_demo.cores, by decide +kernel⟩, by decide, rfl, by decide, by decide, 1, by decide, by decide +kernel⟩

theorem witness_PublishNodes :
    let s := demoN { moorN with lens := 0x10000010000 } ([(hbmBase + 0x10008, 0x01), (hbmBase + 0x1000D, 0x02)] ++ memN);
    AtNode s 0 0 ∧ nodeBytes s 0 1 = some (rec1 s) ∧ nodeDelay (rec1 s) ≠ 0 ∧ s.before.moorBytes 0 0x200000200 2 = some [0, 0] ∧ listIndices [0, 0] = [0]
      ∧ s.lensPa 0 0 = some (hbmBase + 0x10000) ∧ (s.lens 0 0).isSome = true ∧ spadBytes ≤ 0x200000200 ∧ (sramWindow 0x200000200).isSome = true
      ∧ sramWindow 0x200000200 = sramWindow (0x200000200 + 1) ∧ s.pubMeets 0 none [0] = false ∧ s.frozenAt (hbmBase + 0x10000 + 13) = false ∧ (s.moor 0).stream % 64 = 0
      ∧ s.moorPa 0 ((s.moor 0).stream + 64 * (0 + 1)) = some (hbmBase + 0x20040) := by
  refine ⟨atNode_of _ _ (by decide) rfl ⟨rfl, rfl⟩ rfl, ?_⟩; decide +kernel

theorem witness_WaitNodes :
    (let s := demoN { moorN with launched := [] } memN;
      AtNode s 0 0 ∧ (s.moorPa 0 0x200000100).isSome = true ∧ s.coresDone 0 = true
        ∧ s.moorPa 0 0x200000100 = some (poolBase + 0x100) ∧ (s.num (poolBase + 0x100 + 8) 4 + 2 ^ 32 - 0) % 2 ^ 32 < 2 ^ 31)
    ∧ (let w : WaitNode := ⟨1, 0x200000100, 0, 500⟩;
      let s := demoM { moorN with waiting := some w } memN;
      (s.moor 0).node = 0 ∧ (s.moor 0).st = .running ∧ (s.moor 0).atEnd = false ∧ (s.moor 0).waiting = some w ∧ nodeBytes s 0 1 = some (rec1 s)
        ∧ nodeDelay (rec1 s) ≠ 0 ∧ s.moorPa 0 w.gaddr = some (poolBase + 0x100) ∧ (s.num (poolBase + 0x100 + 8) 4 + 2 ^ 32 - w.gen.toNat) % 2 ^ 32 < 2 ^ 31)
    ∧ (let w : WaitNode := ⟨0, 0, 0, 500⟩;
      let s := demoM { moorN with waiting := some w, launched := [] } memN;
      (∀ l ∈ (s.moor 0).launched, l.begun = true ∧ (s.core l.core).prim.run ≠ .running) ∧ s.cmds = [] ∧ nodeBytes s 0 1 = some (rec1 s))
    ∧ (let w : WaitNode := ⟨0, 0, 0, 99⟩;
      let s := demoM { moorN with waiting := some w } memN;
      (s.moor 0).waiting = some w ∧ w.limit < s.now ∧ ∃ l ∈ (s.moor 0).launched, l.begun = true ∧ (s.core l.core).prim.run = .running)
    ∧ (let w : WaitNode := ⟨1, 0x200000100, 5, 99⟩;
      let s := demoM { moorN with waiting := some w } memN;
      s.moorPa 0 w.gaddr = some (poolBase + 0x100) ∧ 2 ^ 31 ≤ (s.num (poolBase + 0x100 + 8) 4 + 2 ^ 32 - w.gen.toNat) % 2 ^ 32) := by
  refine ⟨⟨atNode_of _ _ (by decide) rfl ⟨rfl, rfl⟩ rfl, ?_⟩, ?_, ?_, ?_, ?_⟩ <;> decide +kernel

def chkRanges : Vector (BitVec 96) 3 := #v[0x10000200000 + BitVec.ofNat 96 (2 ^ 64), 0, 0]

theorem witness_CheckpointAndStepNodes :
    (let s := demoN { moorN with drain := some drain0 } memN;
      AtNode s 0 0 ∧ nodeBytes s 0 1 = some (rec1 s) ∧ nodeDelay (rec1 s) ≠ 0 ∧ (s.moor 0).drain.isSome = true)
    ∧ (let s := demoN { moorN with pins := ⟨0x10000000000, 0xF800100000000000, 2⟩ :: moor0.pins } memN;
      AtNode s 0 0 ∧ (s.moor 0).drain = none ∧ chkRanges[1] = 0 ∧ chkRanges[2] = 0 ∧ chkRanges[0].toNat % 2 ^ 64 = 0x10000200000
        ∧ chkRanges[0].toNat / 2 ^ 64 = 1 ∧ 0x10000200000 % 0x200000 = 0 ∧ 0x10000400000 % 0x200000 = 0 ∧ 0x10000200000 + 0x200000 * 1 ≤ 0x10000400000
        ∧ s.pieces 0 0x10000200000 1 = some ((s.pieces 0 0x10000200000 1).getD []) ∧ s.hbmPa 0 0x10000400000 = some (hbmBase + 0x400000)
        ∧ s.pieces 0 (0x10000400000 + 0x200000) 1 = some ((s.pieces 0 (0x10000400000 + 0x200000) 1).getD []))
    ∧ (let s := demoN { moorN with regions := [] } memN;
      (s.moor 0).stepns = [] ∧ ∀ x ∈ (s.moor 0).regions, x.active = false) := by
  refine ⟨⟨atNode_of _ _ (by decide) rfl ⟨rfl, rfl⟩ rfl, ?_⟩, ⟨atNode_of _ _ (by decide) rfl ⟨rfl, rfl⟩ rfl, ?_⟩, ?_⟩ <;> decide +kernel

theorem witness_GotoAndEndNodes :
    (let s := demoN { moorN with preempt := [8] } memN;
      AtNode s 0 0 ∧ Tidy 0 (s.moor 0).gotos ∧ nodeBytes s 0 1 = some (rec1 s) ∧ nodeDelay (rec1 s) ≠ 0 ∧ nodeBytes s 0 (1 : BitVec 32).toNat = some (rec1 s)
        ∧ sget 0 (s.moor 0).gotos 0 < (2 : BitVec 32).toNat)
    ∧ (let s := demoN { moorN with gotos := [(0, 2)] } memN;
      Tidy 0 (s.moor 0).gotos ∧ (2 : BitVec 32) ≠ 0 ∧ (2 : BitVec 32).toNat ≤ sget 0 (s.moor 0).gotos 0) :=
  ⟨⟨atNode_of _ _ (by decide) rfl ⟨rfl, rfl⟩ rfl, rfl, by decide +kernel, by decide +kernel, by decide +kernel, by decide⟩, rfl, by decide, by decide⟩

theorem witness_NodePreemptions :
    let s := demoM { moorN with preempt := [8], nodesRun := 1, nodeAt := 100 } memN;
    s.Canon ∧ (s.moor 0).st = .running ∧ (s.moor 0).preempt ≠ [] ∧ 0 < (s.moor 0).nodesRun ∧ (s.moor 0).nodeAt = s.now ∧ (s.moor 0).waiting = none
      ∧ (s.moor 0).atEnd = false ∧ ∃ l ∈ (s.moor 0).launched, l.begun = true ∧ (s.core l.core).prim.run = .running :=
  ⟨canon_demoM _ _ (by decide), rfl, by decide, by decide, rfl, rfl, rfl, ⟨0, 9000, 50, 0x10000000000, 0, true, false⟩, by decide, rfl, rfl⟩

/-! ### Stopping and going on; the host -/

/-- Core 0 of mooring 0 with another sequencer, a record at 0x2000 of its scratchpad, and words of memory. -/
def demoC (x : SeqState) (k : Mooring) (mem : Memory) : State := { demoM k mem with cores := [(0, { core0 with prim := x, ctxbase := 0x2000 })] }

theorem canon_demoC (x : SeqState) (k : Mooring) (mem : Memory) (h : mem.wf = true) (hc : swf Core.init 0 (demoC x k mem).cores = true) :
    (demoC x k mem).Canon := ⟨h, rfl, hc, rfl⟩

theorem witness_ForcedPreemptionsLand :
    (let x : SeqState := { seq0 with pend := true, lastPc := 0x10000000030, loops := [⟨0x10000000040, 0x10000000030, 3, 0, false, true⟩] };
      let s := demoC x { moor0 with preempt := [8] } [];
      s.Canon ∧ (s.moor 0).st = .running ∧ (s.moor 0).preempt ≠ [] ∧ s.eligible 0 = true ∧ ∃ c ∈ s.taskCores 0, (s.core c).prim.atPre = true
        ∧ (s.core c).prim.frozen = none ∧ (s.core c).prim.nextAt ≤ s.now ∧ (s.core c).prim.hold = .none)
    ∧ (demo.moor 0).preempt = [] :=
  ⟨⟨canon_demoC _ _ _ rfl (by decide +kernel), rfl, by decide, by decide +kernel, 0, by decide, by decide, rfl, by decide, rfl⟩, by decide⟩

theorem resumes_of (x : SeqState) (k : Mooring) (mem : Memory) (h : mem.wf = true) (hc : swf Core.init 0 (demoC x k mem).cores = true) (f seq : Nat)
    (st : Option Nat) (hf : k.frozen = some f ∧ f ≤ 100 ∧ (100 - f) % 10368 = 0) (ha : k.resuming = some ⟨seq, st, 100⟩) (hv : k.vwrite = none)
    (hs : (demoC x k mem).sweepStops 0 = false) (hl : k.loose = false) (hb : ∀ l ∈ k.launched, l.begun = true) : Resumes (demoC x k mem) 0 f seq st :=
  ⟨canon_demoC _ _ _ h hc, by decide, hf, ⟨100, ha, Nat.le_refl 100⟩, fun v e => (by rw [show (demoC x k mem).moor 0 = k from rfl, hv] at e; cases e),
    ⟨hs, rfl⟩, hl, hb⟩

/-- VALID of the record is set. -/
def memR : Memory := [(spadBase + 0x200B, 1)]
def seqFrozen : SeqState := { seq0 with frozen := some 100 }

theorem witness_TasksResume :
    (let s := demoC seqFrozen { moor0 with st := .nodeStopped, frozen := some 100, resuming := some ⟨8, none, 100⟩, savedH := [(0, core0.h.toList.take 4)] } [];
      Resumes s 0 100 8 none ∧ (s.moor 0).st = .nodeStopped ∧ (∀ l ∈ (s.moor 0).launched, l.core < nCores) ∧ ((s.moor 0).savedH.map (·.1)).Nodup)
    ∧ (let s := demoC seqFrozen { moor0 with st := .parked, frozen := some 100, resuming := some ⟨8, none, 100⟩ } memR;
      Resumes s 0 100 8 none ∧ (s.moor 0).st = .parked ∧ s.taskCores 0 = [0] ∧ s.recAt 0 .primary = spadBase + 0x2000
        ∧ (s.readRecord 0 .primary).ok = true)
    ∧ (let s := demoC seqFrozen { moor0 with st := .parked, frozen := some 100, resuming := some ⟨8, some 0, 100⟩ } [];
      Resumes s 0 100 8 (some 0) ∧ (s.moor 0).st = .parked ∧ 0 ∈ s.taskCores 0 ∧ (s.readRecord 0 .primary).ok = false) :=
  ⟨⟨resumes_of _ _ _ rfl (by decide +kernel) _ _ _ ⟨rfl, by decide, by decide⟩ rfl rfl (by decide +kernel) rfl (by decide), rfl, by decide, by decide⟩,
    ⟨resumes_of _ _ _ (by decide) (by decide +kernel) _ _ _ ⟨rfl, by decide, by decide⟩ rfl rfl (by decide +kernel) rfl (by decide), rfl, by decide, rfl,
      by decide +kernel⟩,
    resumes_of _ _ _ rfl (by decide +kernel) _ _ _ ⟨rfl, by decide, by decide⟩ rfl rfl (by decide +kernel) rfl (by decide), rfl, by decide,
    by decide +kernel⟩

theorem witness_ParkedRequestsEnd :
    let k (d : Nat) : Mooring := { moor0 with st := .parked, forced := true, frozen := some 90, slots := [⟨0, 0, { req0 with arrival := 0, deadline := d }⟩] };
    let s := demoM (k 8) [];
    (s.moor 0).st = .parked ∧ 0 < (s.moor 0).k ∧ (s.moor 0).frozen = some 90 ∧ 90 ≤ 10458 ∧ (s.moor 0).resuming = none ∧ (s.moor 0).vwrite = none
      ∧ s.now ≤ 10458 ∧ 10458 < s.now + 10368 ∧ (10458 - 90) % 10368 = 0 ∧ (s.moor 0).slots = [⟨0, 0, { req0 with arrival := 0, deadline := 8 }⟩]
      ∧ 0 + 8 * 2700 < (s.moor 0).started + (s.moor 0).k + (10458 - 90) + (s.moor 0).replyb
      ∧ ((demoM (k 9) []).moor 0).started + ((demoM (k 9) []).moor 0).k + (10458 - 90) + ((demoM (k 9) []).moor 0).replyb ≤ 0 + 9 * 2700
      ∧ (let u := demoM { k 1 with st := .running, frozen := none, forced := false, loose := true } [];
        (u.moor 0).st = .running ∧ 0 < u.now ∧ (u.moor 0).loose = true ∧ 0 + 1 * 2700 < u.now + (u.moor 0).replyb) := by
  decide +kernel

theorem witness_StreamerWrites :
    (let s : State := { demo with cores := [(0, { core0 with ctxbase := 0x2000, dirty := 2 })] };
      s.Canon ∧ s.streamItem 0 = some (1, spadBase + 0x2000) ∧ 1 < 224)
    ∧ (let s : State := { demo with cores := [(0, { core0 with ctxbase := 0x2000, dirty := 2 ^ 223 })] };
      s.streamItem 0 = some (223, spadBase + 0x2000) ∧ 112 ≤ 223) :=
  ⟨⟨⟨rfl, rfl, by decide +kernel, rfl⟩, by decide +kernel, by decide⟩, by decide +kernel, by decide⟩

/-- A submission entry for a mooring, with an ARG and a payload. -/
def entry0 (m : BitVec 8) (arg : BitVec 64) (p : List Byte) : SubEntry := ⟨8, m, 0, BitVec.ofNat 32 p.length, arg, List.replicate 44 0, p⟩

theorem entry_of (s : State) (m : BitVec 8) (arg : BitVec 64) (p : List Byte) (b a : Bool) (n : Nat) (h : s.Canon)
    (hu : s.boot = .up ∧ s.subHead = 8 ∧ s.subTail = 9)
    (hl : p.length = n) (hn : n < 2 ^ 32) (hm : if b then m.toNat < nMoorings else m = 0) (ha : a = false → arg = 0) : Entry s (entry0 m arg p) b a n :=
  ⟨h, hu.1, ⟨hu.2.1.symm, by rw [hu.2.1, hu.2.2]; decide⟩, ⟨hl, by
    show (BitVec.ofNat 32 p.length).toNat = n
    rw [hl, BitVec.toNat_ofNat]; exact Nat.mod_eq_of_lt hn⟩, ⟨rfl, fun x hx => (List.mem_replicate.mp hx).2⟩, hm, ha⟩

theorem witness_EntriesAreChecked :
    State.reset.boot ≠ .up ∧ demo.boot = .up ∧ demo.arrivals = [] ∧ (entry0 0 0 []).seq = demo.subHead ∧ demo.subHead < demo.subTail
    ∧ ({ entry0 0 0 [] with seq := 9 } : SubEntry).seq ≠ demo.subHead ∧ State.reset.subTail ≤ State.reset.subHead ∧ ({ entry0 0 0 [] with rsv := 1 } : SubEntry).rsv ≠ 0 ∧ ({ entry0 0 0 [] with len := 1 } : SubEntry).len.toNat ≠ 0
    ∧ (∃ b ∈ ({ entry0 0 0 [] with tail := [0, 1] } : SubEntry).tail, b ≠ 0) ∧ Instr.stepTask (entry0 0 0 []) ∈ [Instr.hostLaunchRecord (entry0 0 0 []), .resumeParkedTask (entry0 0 0 []), .stepTask (entry0 0 0 [])] := by
  decide

theorem witness_HostRecords : Entry demoR (entry0 0 0 goodRec) true false 48 ∧ 48 ≤ 4032 ∧ Arrives demoR (entry0 0 0 goodRec).payload :=
  ⟨entry_of _ _ _ _ _ _ _ ⟨rfl, rfl, canon_demo.cores, rfl⟩ ⟨rfl, rfl, rfl⟩ rfl (by decide) (by decide) (fun _ => rfl), by decide, arrives_of _ (by exact (by decide : 3 ≤ 48)) (by rfl)⟩

theorem witness_ParkedTaskCommands :
    (let s := demoC seqFrozen { moor0 with st := .parked, frozen := some 100 } memR;
      (s.moor 0).resuming = none ∧ Entry s (entry0 0 0 []) true false 0 ∧ (s.moor 0).vwrite = none ∧ (s.moor 0).st = .parked ∧ s.recordsOk 0 = true
        ∧ Entry s (entry0 0 0 []) true true 0 ∧ (0 : BitVec 64).toNat ∈ s.taskCores 0 ∧ Entry s (entry0 0 5 []) true true 0 ∧ (5 : BitVec 64).toNat ∉ s.taskCores 0)
    ∧ (let s := demoC seqFrozen { moor0 with st := .parked, frozen := some 100 } [];
      (s.moor 0).st = .parked ∧ s.recordsOk 0 = false ∧ Entry s (entry0 0 0 []) true false 0)
    ∧ ((demo.moor 0).resuming = none ∧ Entry demo (entry0 0 0 []) true false 0 ∧ (demo.moor 0).st = .running) := by
  have hc : swf Core.init 0 (demoC seqFrozen moor0 []).cores = true := by decide +kernel
  refine ⟨⟨rfl, entry_of _ _ _ _ _ _ _ (canon_demoC _ _ _ (by decide) hc) ⟨rfl, rfl, rfl⟩ rfl (by decide) (by decide) (fun _ => rfl), rfl, rfl, by decide +kernel,
      entry_of _ _ _ _ _ _ _ (canon_demoC _ _ _ (by decide) hc) ⟨rfl, rfl, rfl⟩ rfl (by decide) (by decide) (fun h => by cases h), by decide,
      entry_of _ _ _ _ _ _ _ (canon_demoC _ _ _ (by decide) hc) ⟨rfl, rfl, rfl⟩ rfl (by decide) (by decide) (fun h => by cases h), by decide⟩,
    ⟨rfl, by decide +kernel, entry_of _ _ _ _ _ _ _ (canon_demoC _ _ _ rfl hc) ⟨rfl, rfl, rfl⟩ rfl (by decide) (by decide) (fun _ => rfl)⟩,
    by decide, entry_of _ _ _ _ _ _ _ canon_demo ⟨rfl, rfl, rfl⟩ rfl (by decide) (by decide) (fun _ => rfl), by decide⟩

theorem witness_ErrorLogCommands :
    Tidy (0, 0) demo.counters ∧ Entry demo (entry0 0 0 []) false false 0 ∧ Entry demo (entry0 0 0xFFFF []) false true 0
    ∧ (Entry demo (entry0 0 0x180 []) false true 0 ∧ (0x180 : BitVec 64).toNat ≤ 0x180)
    ∧ (Entry demo (entry0 0 0x181 []) false true 0 ∧ 0x180 < (0x181 : BitVec 64).toNat ∧ (0x181 : BitVec 64).toNat ≠ 0xFFFF) :=
  ⟨rfl, entry_of _ _ _ _ _ _ _ canon_demo ⟨rfl, rfl, rfl⟩ rfl (by decide) (by decide) (fun _ => rfl),
    entry_of _ _ _ _ _ _ _ canon_demo ⟨rfl, rfl, rfl⟩ rfl (by decide) (by decide) (fun h => by cases h),
    ⟨entry_of _ _ _ _ _ _ _ canon_demo ⟨rfl, rfl, rfl⟩ rfl (by decide) (by decide) (fun h => by cases h), by decide⟩,
    entry_of _ _ _ _ _ _ _ canon_demo ⟨rfl, rfl, rfl⟩ rfl (by decide) (by decide) (fun h => by cases h), by decide, by decide⟩

/-- The payload of a load of mooring 1 with cluster 1 (R333). -/
def load1 : List Byte := natBytes 512 (field 0 0x10000020000 + field 8 1 + field 12 1 + field 16 10368 + field 24 9000 + field 36 2700 + field 40 2700
  + field 48 0x200000400 + field 56 64 + field 60 64 + field 64 0x200000800 + field 72 0x200000C00 + field 84 996 + field 104 2 + field 128 1 + field 192 5)
def pin1 : List Byte := natBytes 24 (0x10000000000 + field 8 0xF800100000000000 + field 16 1)

theorem natBytes_length (n v : Nat) : (natBytes n v).length = n := by
  induction n generalizing v with
  | zero => rfl
  | succ n ih => simp [natBytes, ih]

theorem witness_MooringLoads :
    (Entry demo (entry0 1 0 load1) true false 512 ∧ (1 : BitVec 8).toNat = 1 ∧ demo.loadOk 1 ⟨load1⟩ [pin1] [] [] = true)
    ∧ demo.loadOk 1 ⟨load1⟩ [] [] [] = false :=
  ⟨⟨entry_of _ _ _ _ _ _ _ canon_demo ⟨rfl, rfl, rfl⟩ (natBytes_length ..) (by decide) (by decide) (fun _ => rfl), by decide, by decide +kernel⟩, by decide +kernel⟩

theorem witness_MooringLimits : demo.loadOk 1 ⟨load1⟩ [pin1] [] [] = true := by decide +kernel

/-- A stream for core 1023, whose secondary is idle; and core 0 of `demo2`, whose secondary runs. -/
theorem witness_SecondaryStreamCommands :
    (let p := natBytes 128 (0x10000000000 + field 64 7);
      Entry demo (entry0 0 1023 p) false true 128 ∧ 1023 < nCores ∧ leNat ((p.drop 8).take 56) = 0 ∧ leNat ((p.drop 0).take 8) < 2 ^ 56
        ∧ (demo.core 1023).sec.run ≠ .running ∧ Entry demo (entry0 0 1023 []) false true 0)
    ∧ (demo2.core 0).sec.run = .running ∧ Entry demo2 (entry0 0 0 []) false true 0 := by
  have h2 : demo2.Canon := ⟨rfl, rfl, by decide +kernel, rfl⟩
  exact ⟨⟨entry_of _ _ _ _ _ _ _ canon_demo ⟨rfl, rfl, rfl⟩ (natBytes_length ..) (by decide) (by decide) (fun h => by cases h), by decide, by decide +kernel,
      by decide +kernel, by decide, entry_of _ _ _ _ _ _ _ canon_demo ⟨rfl, rfl, rfl⟩ rfl (by decide) (by decide) (fun h => by cases h)⟩,
    rfl, entry_of _ _ _ _ _ _ _ h2 ⟨rfl, rfl, rfl⟩ rfl (by decide) (by decide) (fun h => by cases h)⟩

theorem witness_ModeAndPreemptionCommands :
    (Entry demo (entry0 0 1 []) true true 0 ∧ (demo.moor 0).loaded = true ∧ (1 : BitVec 64).toNat ≤ 1)
    ∧ (Entry demo (entry0 0 2 []) true true 0 ∧ 1 < (2 : BitVec 64).toNat) ∧ (Entry demo (entry0 1 0 []) true true 0 ∧ (demo.moor 1).loaded = false)
    ∧ (Entry demo (entry0 0 0 []) true false 0 ∧ (demo.moor 0).st = .running) ∧ (Entry demo (entry0 11 0 []) true false 0 ∧ (demo.moor 11).st ≠ .running) :=
  ⟨⟨entry_of _ _ _ _ _ _ _ canon_demo ⟨rfl, rfl, rfl⟩ rfl (by decide) (by decide) (fun h => by cases h), by decide, by decide⟩,
    ⟨entry_of _ _ _ _ _ _ _ canon_demo ⟨rfl, rfl, rfl⟩ rfl (by decide) (by decide) (fun h => by cases h), by decide⟩,
    ⟨entry_of _ _ _ _ _ _ _ canon_demo ⟨rfl, rfl, rfl⟩ rfl (by decide) (by decide) (fun h => by cases h), by decide⟩,
    ⟨entry_of _ _ _ _ _ _ _ canon_demo ⟨rfl, rfl, rfl⟩ rfl (by decide) (by decide) (fun _ => rfl), by decide⟩,
    entry_of _ _ _ _ _ _ _ canon_demo ⟨rfl, rfl, rfl⟩ rfl (by decide) (by decide) (fun _ => rfl), by decide⟩

theorem witness_HostAccesses :
    ((spadBase + 0x20) % 16 + ([1, 2] : List Byte).length ≤ 16 ∧ (resOf (spadBase + 0x20)).isSome = true)
    ∧ ((hbmBase + 0x20) % 64 + ([1, 2] : List Byte).length ≤ 64 ∧ hbmBase ≤ hbmBase + 0x20 ∧ hbmBase + 0x20 + 2 ≤ hbmBase + hbmBytes) := by decide +kernel

theorem witness_MooringRegisters :
    (let s := demoM { moor0 with st := .idle } [];
      s.Canon ∧ (0x15000 : BitVec 64).toNat % 4096 = 0 ∧ (0x15000 : BitVec 64).toNat + 0xAC20 ≤ spadBytes ∧ s.moorOf 0 = some 0
        ∧ (s.moor 0).st.active = false ∧ (s.core 0).sec.run ≠ .running ∧ (0x10000010000 : BitVec 64).toNat % 128 = 0 ∧ spadBytes ≤ (0x10000010000 : BitVec 64).toNat)
    ∧ ((0x15800 : BitVec 64).toNat % 4096 ≠ 0 ∧ spadBytes < (0x16000 : BitVec 64).toNat + 0xAC20 ∧ (∃ k, demo.moorOf 0 = some k ∧ (demo.moor k).st = .running)) :=
  ⟨⟨canon_demoM _ _ rfl, by decide, by decide, by decide, by decide, by decide, by decide, by decide⟩, by decide, by decide, 0, by decide, by decide⟩

/-- The signatures of an image pass or fail as the vendor's keys say (log 14): where they pass, an image that meets the hypotheses exists. -/
theorem witness_PilotRegisters :
    demo.Canon ∧ (∀ w < 48, mapCode defaultMap w < 14) ∧ (∃ w < 48, 14 ≤ mapCode (#v[0xE, 0, 0] : Vector (BitVec 64) 3) w)
    ∧ (1200 ≤ 1600 ∧ demo.watts.1 ≤ 1200 * demo.watts.2) ∧ (1600 < 1601)
    ∧ (∀ (b e d : List Byte), e.length = 64 → ed25519Ok (fusedKey 0) b e = true → d.length = 3309 → mlDsaOk (fusedKey 1) b d = true → ∃ i : FwImage, i.kind = .routines
      ∧ i.digest = sha384 i.body ∧ i.ed25519.length = 64 ∧ ed25519Ok (fusedKey 0) i.body i.ed25519 = true ∧ i.mldsa.length = 3309 ∧ mlDsaOk (fusedKey 1) i.body i.mldsa = true
      ∧ sget 0 demo.fuses 1 ≤ i.version) ∧ (63 : Nat) < 64
    ∧ (⟨.routines, 0, 0, [], [], []⟩ : FwImage).ed25519.length ≠ 64 :=
  ⟨canon_demo, by decide +kernel, ⟨0, by decide, by decide +kernel⟩, by decide +kernel, by decide,
    fun b e d h1 h2 h3 h4 => ⟨⟨.routines, 0, sha384 b, e, d, b⟩, rfl, rfl, h1, h2, h3, h4, Nat.zero_le _⟩, by decide, by decide⟩

theorem witness_HostRegisters :
    demo.Canon ∧ Tidy Plane.init demo.planes ∧ Tidy 0 (demo.chan 0).store ∧ (65535 : BitVec 64).toNat < 65536 ∧ (8 ≤ (63 : BitVec 64).toNat ∧ (63 : BitVec 64).toNat ≤ 63)
    ∧ 8191 < (8192 : BitVec 64).toNat ∧ (64 ≤ (65535 : BitVec 64).toNat ∧ (65535 : BitVec 64).toNat ≤ 65535)
    ∧ (240 ≤ (104880 : BitVec 64).toNat ∧ (104880 : BitVec 64).toNat ≤ 104880 ∧ (104880 : BitVec 64).toNat % 240 = 0)
    ∧ (4 ≤ (0x10000000C : BitVec 64).toNat % 64 ∧ (0x10000000C : BitVec 64).toNat % 64 ≤ 12)
    ∧ (let s : State := { demo with compl := [⟨0x83, 0, 1, []⟩], complHead := 4 };
      s.complHead ≤ (5 : BitVec 64).toNat ∧ (5 : BitVec 64).toNat ≤ s.complHead + s.compl.length) ∧ (0x40000010 : BitVec 64).toNat < 2 ^ 32
    ∧ (let s : State := { demo with subRing := 0x100000004 }
      s.subTail ≤ (24 : BitVec 64).toNat ∧ (24 : BitVec 64).toNat ≤ s.subHead + ringSize s.subRing) ∧ (8 : BitVec 64).toNat < demo.subTail :=
  ⟨canon_demo, rfl, rfl, by decide, by decide, by decide, by decide, by decide, by decide, by decide, by decide, by decide, by decide⟩

/-- An echo request (type 128) for the address 1, and a solicitation of it. -/
def icmp (typ : Byte) : List Byte := List.replicate 12 0 ++ [0x86, 0xDD] ++ List.replicate 4 0 ++ [0, 8, 58, 255] ++ List.replicate 16 0 ++ List.replicate 15 0 ++ [1]
  ++ [typ, 0, 0, 0, 0, 0, 0, 0] ++ List.replicate 15 0 ++ [1]

theorem witness_FramesAreAnswered :
    (let s : State := { demo with ipAddrs := [(0, 1)] };
      ForPilot s (icmp 128) 128 38 ∧ ForPilot s (icmp 135) 135 62)
    ∧ (demo.boot = .up ∧ (∀ i, (i, beNum (icmp 128) 38 16) ∉ demo.ipAddrs)) ∧ State.reset.boot ≠ .up :=
  ⟨⟨⟨rfl, by decide, by decide, 0, by decide +kernel⟩, ⟨rfl, by decide, by decide, 0, by decide +kernel⟩⟩, ⟨rfl, fun i h => by cases h⟩, by decide⟩

theorem witness_HealthAndAttestation :
    (List.replicate 32 (7 : Byte)).length = 32 ∧ (∃ i ∈ ({ demo with images := [⟨.management, 1, 0, [], [], []⟩] } : State).images, i.kind = .management)
    ∧ (∀ i ∈ demo.images, i.kind ≠ .management) ∧ demo.boot = .up :=
  ⟨rfl, ⟨_, List.mem_singleton.mpr rfl, rfl⟩, fun i h => (by cases h), rfl⟩

theorem witness_PowerOnResets :
    (let i : FwImage := ⟨.pilot, 1, 0, [], [], []⟩;
      ({ demo with flash := [i] } : State).flash = [i] ∧ i.kind = .pilot) ∧ (∀ i ∈ demo.flash, i.kind ≠ .pilot)
    ∧ (∀ i : FwImage, i.digest = sha384 i.body → i.ed25519.length = 64 → ed25519Ok (fusedKey 0) i.body i.ed25519 = true → i.mldsa.length = 3309 → mlDsaOk (fusedKey 1) i.body i.mldsa = true →
      demo.fwFails i = 0) :=
  ⟨⟨rfl, rfl⟩, fun i h => (by cases h), fun i h1 h2 h3 h4 h5 => by simp [State.fwFails, h1, h2, h3, h4, h5, demo, State.reset, sget]⟩

theorem witness_ThermalEvents :
    demo.boot = .up ∧ (demo.moor 0).st = .running ∧ (let s : State := { demoM { moorT with t0 := 100, st := .idle } [] with thermalHold := true }
      s.thermalHold = true ∧ (s.moor 0).startNow s.now = some 0) := by decide +kernel

theorem witness_FrameBoundaries :
    (let s : State := { demoM { moor0 with st := .idle } [] with now := 10368, channels := [(0, { Channel.init with newMap := some #v[1, 2, 3] })] };
      s.Canon ∧ (s.chan 0).newMap = some #v[1, 2, 3] ∧ s.mapFree (s.chan 0).map #v[1, 2, 3] = true)
    ∧ (let s : State := { demo with now := 10368 * 8334, channels := [(0, { Channel.init with newMap := some #v[1, 2, 3] })] };
      s.Canon ∧ s.mapFree (s.chan 0).map #v[1, 2, 3] = false ∧ s.now / 10368 % (s.chan 0).refw = 0) ∧ (demo.chan 0).newMap = none :=
  ⟨⟨⟨rfl, rfl, canon_demo.cores, by decide +kernel⟩, rfl, by decide +kernel⟩, ⟨⟨rfl, rfl, canon_demo.cores, by decide +kernel⟩, by decide +kernel, by decide⟩, rfl⟩


/-! ### Timelines and channels -/

/-- Mooring 0 has rows 2 to 17 and the words 0 to 15 of channel 0, of which words 4 and 5 count a DELAY of 5. -/
def chan0 (tl : Tl) (banks : List (Nat × Bank)) : Channel := { Channel.init with
  tlrgn := Channel.init.tlrgn.setIfInBounds 0 (16 * 65536 + 2)
  tlstore := Channel.init.tlstore.setIfInBounds 0 (16 * 65536)
  store := [(4, 5 * 2 ^ 48), (5, 5 * 2 ^ 48)]
  tls := [tl]
  banks := banks }

/-- Cycle 270 is clock 160: clock 32 of window 1, which is mooring 0's. -/
def demoT (k : Channel) (mem : Memory) : State := { demo with now := 270, channels := [(0, k)], mem := mem, ev := .tl 0 0 }

/-- The timeline stands at word 3, with its clock 32. -/
def tl0 (reps : List Rep) (started : Nat) : Tl := ⟨0, 3, started, 1, 32, 160, reps, 0, false⟩

theorem atWord_of (k : Channel) (mem : Memory) (tl : Tl) (hm : mem.wf = true) (hc : (swf Channel.init 0 [(0, k)] && k.tl 0 == some tl && decide (tl.nmxEnd ≤ 160)) = true) :
    AtWord (demoT k mem) 0 0 tl 160 := by
  simp only [Bool.and_eq_true, beq_iff_eq, decide_eq_true_eq] at hc
  exact ⟨⟨hm, rfl, canon_demo.cores, hc.1.1⟩, rfl, by decide, by decide, hc.1.2, by exact (by decide : clockOf 270 = 160), hc.2⟩

def overB (c : Option Nat) (n x : Nat) : Bool := match c with
  | some a => decide (a + n ≤ x)
  | none => true
theorem over_of {c : Option Nat} {n x : Nat} (h : overB c n x = true) : Over c n x := by
  intro a e
  subst e
  simpa [overB] using h
theorem not_over_of {c : Option Nat} {n x : Nat} (h : overB c n x = false) : ¬Over c n x := by
  intro g
  cases c with
  | none => cases h
  | some a => simp only [overB, decide_eq_false_iff_not] at h; exact h (g a rfl)

def anyB (k : Channel) (pc b x : Nat) : Bool := overB (k.pch pc).ref (k.p tRFC) x && overB (k.bank pc b).sb (k.p tRFCsb) x
theorem any_of {k : Channel} {pc b x : Nat} (h : anyB k pc b x = true) : AnyOk k pc b x := by
  simp only [anyB, Bool.and_eq_true] at h
  exact ⟨over_of h.1, over_of h.2⟩
theorem activate_of {k : Channel} {pc b x : Nat} (h : (k.pch pc).acts = []) : ActivateOk k pc b x := by
  unfold ActivateOk
  rw [h]
  exact ⟨fun a h => (by cases h), Nat.zero_lt_succ _⟩
theorem column_of {k : Channel} {pc b x : Nat} {r : Bool} (h : (overB (k.bank pc b).act (k.p tRCD) x && (k.pch pc).cols.isEmpty && overB (k.pch pc).crd 6 x
    && overB (k.pch pc).wr (k.p tWTR) x && anyB k pc b x) = true) : ColumnOk k pc b x r := by
  simp only [Bool.and_eq_true, List.isEmpty_iff] at h
  refine ⟨over_of h.1.1.1.1, ?_, over_of h.1.1.2, fun _ => over_of h.1.2, any_of h.2⟩
  rw [h.1.1.1.2]
  exact fun a h => by cases h
theorem precharge_of {k : Channel} {pc b x : Nat} (h : (overB (k.bank pc b).act (k.p tRAS) x && overB (k.bank pc b).wrc (k.p tWR) x
    && overB (k.bank pc b).rdc (k.p tRTP) x && anyB k pc b x) = true) : PrechargeOk k pc b x := by
  simp only [Bool.and_eq_true] at h
  exact ⟨over_of h.1.1.1, over_of h.1.1.2, over_of h.1.2, any_of h.2⟩

theorem later_of {s : State} {ch pos x : Nat} {tl : Tl} (h : ((seekTl (s.chan ch) tl pos).due != x) = true) : DueLater s ch tl pos x := by
  unfold DueLater
  simpa using h

/-- Bank 1 with row 9 open since clock a. -/
def bank1 (a : Nat) : List (Nat × Bank) := [(1, { Bank.init with row := some 9, act := some a })]
/-- Bank 1 closed at clock a. -/
def shut1 (a : Nat) : List (Nat × Bank) := [(1, { Bank.init with pre := some a })]

theorem rowIs_demo (banks : List (Nat × Bank)) (mem : Memory) (st : Nat) : RowIs (demoT (chan0 (tl0 [] st) banks) mem) 0 0 (tl0 [] st) 7 9 :=
  ⟨7, rfl, by decide, by show 7 < (chan0 (tl0 [] 50) []).rcount 0; decide, by show 9 = (chan0 (tl0 [] 50) []).rbase 0 + 7; decide⟩

theorem witness_Activates :
    (let k := chan0 (tl0 [] 50) (shut1 100)
      let s := demoT k []
      AtWord s 0 0 (tl0 [] 50) 160 ∧ RowIs s 0 0 (tl0 [] 50) 7 9 ∧ (k.bank 0 1).row = none ∧ k.rowClk ≠ some 160 ∧ Over (k.bank 0 1).closed (k.p tRP) 160
        ∧ Over (k.bank 0 1).act (k.p tRC) 160 ∧ ActivateOk k 0 1 160 ∧ AnyOk k 0 1 160
        ∧ s.runsPast 0 160 (160 + maxOf [k.p tRCD, k.p tRAS, k.p tRC, k.p tRRDS, k.p tRRDL, k.p tFAW]) = false ∧ DueLater s 0 (tl0 [] 50) 4 160)
    ∧ (let k := chan0 (tl0 [] 50) (bank1 130)
      AtWord (demoT k []) 0 0 (tl0 [] 50) 160 ∧ ((demoT k []).moor 0).st = .running ∧ (k.bank 0 1).row ≠ none ∧ (k.bank 0 1).closeAt = none)
    ∧ (let k := chan0 (tl0 [] 50) (shut1 150)
      AtWord (demoT k []) 0 0 (tl0 [] 50) 160 ∧ (k.bank 0 1).row = none ∧ k.rowClk ≠ some 160 ∧ ¬Over (k.bank 0 1).closed (k.p tRP) 160) :=
  ⟨⟨atWord_of _ _ _ rfl (by decide +kernel), rowIs_demo .., by decide, by decide, over_of (by decide), over_of (by decide), activate_of (by decide), any_of (by decide),
      by decide +kernel, later_of (by decide +kernel)⟩,
    ⟨atWord_of _ _ _ rfl (by decide +kernel), by decide, by decide, by decide⟩,
    ⟨atWord_of _ _ _ rfl (by decide +kernel), by decide, by decide, not_over_of (by decide)⟩⟩

theorem witness_Precharges :
    (let k := chan0 (tl0 [] 50) (bank1 100)
      let s := demoT k []
      AtWord s 0 0 (tl0 [] 50) 160 ∧ k.rowClk ≠ some 160 ∧ (k.bank 0 1).isOpen = true ∧ PrechargeOk k 0 1 160 ∧ s.runsPast 0 160 (160 + k.p tRP) = false
        ∧ DueLater s 0 (tl0 [] 50) 4 160 ∧ (k.bank 0 2).isOpen = false ∧ AnyOk k 0 2 160
        ∧ ∀ i < 16, AnyOk k 0 i 160 ∧ ((k.bank 0 i).isOpen = true → PrechargeOk k 0 i 160))
    ∧ (let k := chan0 (tl0 [] 50) (bank1 130)
      AtWord (demoT k []) 0 0 (tl0 [] 50) 160 ∧ k.rowClk ≠ some 160 ∧ ((demoT k []).moor 0).st = .running ∧ (k.bank 0 1).isOpen = true
        ∧ ¬Over (k.bank 0 1).act (k.p tRAS) 160) := by
  refine ⟨⟨atWord_of _ _ _ rfl (by decide +kernel), by decide, by decide, precharge_of (by decide), by decide +kernel, later_of (by decide +kernel), by decide, any_of (by decide), fun i hi => ?_⟩,
    atWord_of _ _ _ rfl (by decide +kernel), by decide, by decide, by decide, not_over_of (by decide)⟩
  have h : ∀ i < 16, anyB (chan0 (tl0 [] 50) (bank1 100)) 0 i 160 = true
      ∧ (overB ((chan0 (tl0 [] 50) (bank1 100)).bank 0 i).act ((chan0 (tl0 [] 50) (bank1 100)).p tRAS) 160
        && overB ((chan0 (tl0 [] 50) (bank1 100)).bank 0 i).wrc ((chan0 (tl0 [] 50) (bank1 100)).p tWR) 160
        && overB ((chan0 (tl0 [] 50) (bank1 100)).bank 0 i).rdc ((chan0 (tl0 [] 50) (bank1 100)).p tRTP) 160
        && anyB (chan0 (tl0 [] 50) (bank1 100)) 0 i 160) = true := by decide +kernel
  exact ⟨any_of (h i hi).1, fun _ => precharge_of (h i hi).2⟩

/-- Column 3 of row 7 (absolute 9) in bank 1 of pseudo-channel 0, and the first line of the copy unit 0. -/
def col0 (land : BitVec 19) : TlCol := ⟨0, 0, 1, 7, 3, land⟩
def pa0 : Nat := hbmAddr 0 0 1 9 3

theorem colIs_demo (a st : Nat) (mem : Memory) : ColIs (demoT (chan0 (tl0 [] st) (bank1 a)) mem) 0 0 (tl0 [] st) (col0 0) pa0 (bufKey (copyUnit 0 0) 0) false :=
  ⟨9, 3, 0, rowIs_demo .., rfl, by decide, rfl, by decide, by decide +kernel, rfl, rfl, rfl⟩

/-- The same with the first line of the collective unit 0, on the I/O die. -/
theorem colIs_io (a st : Nat) (mem : Memory) :
    ColIs (demoT (chan0 (tl0 [] st) (bank1 a)) mem) 0 0 (tl0 [] st) (col0 0x10000) pa0 (bufKey (collUnit 0) 0) true :=
  ⟨9, 3, 0, rowIs_demo .., rfl, by decide, rfl, by decide, by decide +kernel, rfl, rfl, rfl⟩

theorem witness_ColumnReads :
    (let k := chan0 (tl0 [] 50) (bank1 130)
      let s := demoT k []
      AtWord s 0 0 (tl0 [] 50) 160 ∧ ColIs s 0 0 (tl0 [] 50) (col0 0) pa0 (bufKey (copyUnit 0 0) 0) false
        ∧ ColIs s 0 0 (tl0 [] 50) (col0 0x10000) pa0 (bufKey (collUnit 0) 0) true ∧ k.colClk ≠ some 160 ∧ ColumnOk k 0 1 160 true
        ∧ 160 % 128 ≤ 103 ∧ DueLater s 0 (tl0 [] 50) 4 160 ∧ s.runsPast 0 160 (160 + maxOf [k.p tCCDS, k.p tCCDL, k.p tRTP]) = false
        ∧ s.runsPast 0 160 (max (max (160 + k.p tRTP) (((k.bank 0 1).act.map (· + k.p tRAS)).getD 0) + k.p tRP) (160 + max (k.p tCCDS) (k.p tCCDL))) = false)
    ∧ (let k := chan0 (tl0 [] 50) (bank1 150)
      AtWord (demoT k []) 0 0 (tl0 [] 50) 160 ∧ ColIs (demoT k []) 0 0 (tl0 [] 50) (col0 0) pa0 (bufKey (copyUnit 0 0) 0) false
        ∧ ((demoT k []).moor 0).st = .running ∧ k.colClk ≠ some 160 ∧ ¬Over (k.bank 0 1).act (k.p tRCD) 160) :=
  ⟨⟨atWord_of _ _ _ rfl (by decide +kernel), colIs_demo .., colIs_io .., by decide, column_of (by decide), by decide, later_of (by decide +kernel), by decide +kernel, by decide +kernel⟩,
    atWord_of _ _ _ rfl (by decide +kernel), colIs_demo .., by decide, by decide, not_over_of (by decide)⟩

/-- Descriptors of sector 3: none, raw at 8, packed at 8. -/
theorem witness_CompressedReads :
    (∀ mem ∈ ([[], [(hbmBase + 9 * 2 ^ 25 + 2 ^ 21 + 7, 0x42)], [(hbmBase + 9 * 2 ^ 25 + 2 ^ 21 + 7, 0x82)]] : List Memory),
      let k := chan0 (tl0 [] 50) (bank1 130)
      let s := demoT k mem
      AtWord s 0 0 (tl0 [] 50) 160 ∧ ColIs s 0 0 (tl0 [] 50) (col0 0) pa0 (bufKey (copyUnit 0 0) 0) false ∧ k.colClk ≠ some 160 ∧ ColumnOk k 0 1 160 true
        ∧ 160 % 128 ≤ 103 ∧ DueLater s 0 (tl0 [] 50) 4 160 ∧ s.runsPast 0 160 (160 + maxOf [6, 4 + k.p tCCDS, 4 + k.p tCCDL, k.p tRTP]) = false ∧ s.poison = [] ∧ s.errs = [])
    ∧ (∀ e ∈ ([([], 0), ([(hbmBase + 9 * 2 ^ 25 + 2 ^ 21 + 7, 0x42)], 0x4200), ([(hbmBase + 9 * 2 ^ 25 + 2 ^ 21 + 7, 0x82)], 0x8200)] : List (Memory × Nat)),
      (demoT (chan0 (tl0 [] 50) (bank1 130)) e.1).num (pa0 / 4096 * 4096 + 2 * (pa0 / 64 % 64)) 2 = e.2 ∧ e.2 % 64 = 0)
    ∧ (0x4200 / 2 ^ 14 = 1 ∧ 8 ≤ 0x4200 / 64 % 256 ∧ 16 * (0x4200 / 64 % 256) + 64 ≤ 4096)
    ∧ (0x8200 / 2 ^ 14 = 2 ∧ 8 ≤ 0x8200 / 64 % 256 ∧ 16 * (0x8200 / 64 % 256) + 18 ≤ 4096) := by
  have hr : ∀ m ∈ ([[], [(hbmBase + 9 * 2 ^ 25 + 2 ^ 21 + 7, 0x42)], [(hbmBase + 9 * 2 ^ 25 + 2 ^ 21 + 7, 0x82)]] : List Memory),
      let k := chan0 (tl0 [] 50) (bank1 130)
      (demoT k m).runsPast 0 160 (160 + maxOf [6, 4 + k.p tCCDS, 4 + k.p tCCDL, k.p tRTP]) = false := by decide +kernel
  refine ⟨fun mem hm => ?_, by decide +kernel, by decide, by decide⟩
  exact ⟨atWord_of _ _ _ ((by decide +kernel : ∀ m ∈ ([[], [(hbmBase + 9 * 2 ^ 25 + 2 ^ 21 + 7, 0x42)], [(hbmBase + 9 * 2 ^ 25 + 2 ^ 21 + 7, 0x82)]] : List Memory), m.wf = true) mem hm)
      (by decide +kernel), colIs_demo .., by decide, column_of (by decide), by decide, later_of (by exact (by decide +kernel : ((seekTl (chan0 (tl0 [] 50) (bank1 130)) (tl0 [] 50) 4).due != 160) = true)),
    hr mem hm, rfl, rfl⟩

theorem witness_ColumnWrites :
    (let k := chan0 (tl0 [] 50) (bank1 130)
      let s := demoT k []
      let close := max (160 + k.p tWR) (((k.bank 0 1).act.map (· + k.p tRAS)).getD 0)
      let ends (e : Nat) : Nat := maxOf [e, 160 + k.p tWTR, 160 + k.p tCCDS, 160 + k.p tCCDL]
      AtWord s 0 0 (tl0 [] 50) 160 ∧ ColIs s 0 0 (tl0 [] 50) (col0 0) pa0 (bufKey (copyUnit 0 0) 0) false ∧ (tl0 [] 50).started ≤ cyc (160 - 16)
        ∧ s.frozenIn pa0 64 = false ∧ k.colClk ≠ some 160 ∧ ColumnOk k 0 1 160 false ∧ DueLater s 0 (tl0 [] 50) 4 160 ∧ s.runsPast 0 160 (ends (160 + k.p tWR)) = false
        ∧ s.runsPast 0 160 (ends (close + k.p tRP)) = false)
    ∧ (let k := chan0 (tl0 [] 250) (bank1 130)
      AtWord (demoT k []) 0 0 (tl0 [] 250) 160 ∧ ColIs (demoT k []) 0 0 (tl0 [] 250) (col0 0) pa0 (bufKey (copyUnit 0 0) 0) false ∧ cyc (160 - 16) < (tl0 [] 250).started
        ∧ ((demoT k []).moor 0).st = .running)
    ∧ (let s : State := { demoT (chan0 (tl0 [] 50) (bank1 130)) [] with
        moorings := State.reset.moorings.setIfInBounds 0 { moor0 with drain := some ⟨[pa0 / pieceSize * pieceSize], 0, [], 0, 0, 1, 0⟩ } }
      AtWord s 0 0 (tl0 [] 50) 160 ∧ ColIs s 0 0 (tl0 [] 50) (col0 0) pa0 (bufKey (copyUnit 0 0) 0) false ∧ s.frozenIn pa0 64 = true ∧ (s.moor 0).st = .running) := by
  refine ⟨⟨atWord_of _ _ _ rfl (by decide +kernel), colIs_demo .., by decide, by decide +kernel, by decide, column_of (by decide), later_of (by decide +kernel), by decide +kernel, by decide +kernel⟩,
    ⟨atWord_of _ _ _ rfl (by decide +kernel), colIs_demo .., by decide, by decide⟩, ?_, ?_, by decide +kernel, by decide⟩
  · exact ⟨⟨rfl, rfl, canon_demo.cores, by decide +kernel⟩, rfl, by decide, by decide, by decide, by decide, by decide⟩
  · exact ⟨9, 3, 0, ⟨7, rfl, by decide, by show 7 < (chan0 (tl0 [] 50) []).rcount 0; decide, rfl⟩, by decide, by decide, by decide, by decide, by decide +kernel, rfl, rfl, rfl⟩

/-- A map of which every window is the house's; clock 20 is in cycle 34. -/
def houseMap : Vector (BitVec 64) 3 := Vector.replicate 3 0xCCCCCCCCCCCCCCCC
def demoH (k : Channel) : State := { demo with now := 34, channels := [(0, k)], ev := .tl 0 12 }
theorem atHouse_demo : AtHouse (demoH { Channel.init with map := houseMap }) 0 20 := ⟨⟨rfl, rfl, canon_demo.cores, by decide +kernel⟩, rfl, by decide⟩

theorem witness_HouseWords :
    (let k := { Channel.init with map := houseMap }
      let s := demoH k
      AtHouse s 0 20 ∧ (∀ i < 16, (k.bank 0 i).isOpen = false ∧ Over (k.bank 0 i).closed (k.p tRP) 20 ∧ AnyOk k 0 i 20 ∧ 20 ≤ (k.bank 0 i).refreshed + k.p tREFI)
        ∧ s.runsPast 0 20 (20 + k.p tRFC) = false ∧ ActivateOk k 0 3 20 ∧ s.runsPast 0 20 (20 + maxOf [k.p tRFCsb, k.p tRRDS, k.p tRRDL, k.p tFAW]) = false
        ∧ Over (k.pch 0).scrub (2048 * 6144) 20)
    ∧ AtWord (demoT (chan0 (tl0 [] 50) []) []) 0 0 (tl0 [] 50) 160 ∧ ((demoT (chan0 (tl0 [] 50) []) []).moor 0).st = .running := by
  refine ⟨⟨atHouse_demo, fun i hi => ?_, by decide +kernel, activate_of rfl, by decide +kernel, over_of rfl⟩, atWord_of _ _ _ rfl (by decide +kernel), by decide⟩
  exact ⟨rfl, over_of rfl, any_of rfl, by exact (by decide : 20 ≤ 0 + 6240)⟩

theorem witness_NearMemorySlots :
    (let c := cmd0 (.nmc ⟨.p0, 1⟩) .nm 0 0x40 .running (field 44 0xFFFFFFFF)
      let b : NmBlk := ⟨3, 0, 5, 200, 50, none⟩
      let k := { chan0 (tl0 [] 50) [] with nmq := [b] }
      let s := { demoT k [] with cmds := [c] }
      AtWord s 0 0 (tl0 [] 50) 160 ∧ k.rowClk ≠ some 160 ∧ k.quietAt 160 = true ∧ 160 % 128 + (60 : BitVec 18).toNat ≤ 128 ∧ k.nmq = [b] ∧ b.mooring = 0
        ∧ b.index = (5 : BitVec 6).toNat ∧ b.entered < s.now ∧ b.runAt = none ∧ s.cmd b.cmd = some c ∧ c.nm.gauge = 0xFFFFFFFF
        ∧ DueLater s 0 { tl0 [] 50 with nmxEnd := 160 + 60 } 4 160)
    ∧ (let k := chan0 (tl0 [] 50) (bank1 130)
      AtWord (demoT k []) 0 0 (tl0 [] 50) 160 ∧ k.rowClk ≠ some 160 ∧ ((demoT k []).moor 0).st = .running ∧ k.quietAt 160 = false) :=
  ⟨⟨⟨⟨rfl, rfl, canon_demo.cores, by decide +kernel⟩, rfl, by decide, by decide, by decide, by decide, by decide⟩, by decide, by decide +kernel, by decide, rfl, rfl, by decide,
      by exact (by decide : 200 < 270), rfl, rfl, by decide +kernel, later_of (by decide +kernel)⟩,
    atWord_of _ _ _ rfl (by decide +kernel), by decide, by decide, by decide +kernel⟩

/-- A repeat from word 4 on, with n bodies left. -/
def rep0 (n : Nat) : Rep := ⟨4, n, 1, 2, 3, 0, 0, 0⟩

theorem witness_PseudoWords :
    (let k := chan0 (tl0 [] 50) []
      let s := demoT k []
      AtWord s 0 0 (tl0 [] 50) 160 ∧ DueLater s 0 { tl0 [] 50 with oclk := 32 + 1024 } 4 160
        ∧ ((tl0 [] 50).reps.length < 2 ∧ k.word 0 4 = some (5 * 2 ^ 48) ∧ 5 * 2 ^ 48 % 2 ^ 29 = 0
          ∧ DueLater s 0 { tl0 [] 50 with reps := [⟨5, 4, (BitVec.ofNat 18 (5 * 2 ^ 48 / 2 ^ 46)).toInt, 0, 0, 0, 0, 0⟩] } 5 160)
        ∧ (16 * (0 : BitVec 17).toNat < spadBytes ∧ (∀ u ∈ (s.placeSpot (.virt (spadBase + 16 * 0) (some 0) (spadBase + 16 * 0)) 16).uses 16 (s.now + 2), s.meets u = []) ∧ (tl0 [] 50).bad = false ∧ DueLater s 0 (tl0 [] 50) 4 160)
        ∧ (tl0 [] 50).reps = [] ∧ ∀ b ∈ k.nmq, b.mooring ≠ 0)
    ∧ (let s := demoT (chan0 (tl0 [rep0 2] 50) []) []
      AtWord s 0 0 (tl0 [rep0 2] 50) 160 ∧ DueLater s 0 (tl0 [⟨4, 1, 1, 2, 3, 1, 2, 3⟩] 50) 4 160)
    ∧ (let s := demoT (chan0 (tl0 [rep0 1] 50) []) []
      AtWord s 0 0 (tl0 [rep0 1] 50) 160 ∧ DueLater s 0 (tl0 [] 50) 4 160) :=
  ⟨⟨atWord_of _ _ _ rfl (by decide +kernel), later_of (by decide +kernel), ⟨by decide, by decide +kernel, by decide, later_of (by decide +kernel)⟩,
      ⟨by decide, fun u _ => rfl, rfl, later_of (by decide +kernel)⟩, rfl, fun b h => by cases h⟩,
    ⟨atWord_of _ _ _ rfl (by decide +kernel), later_of (by decide +kernel)⟩, atWord_of _ _ _ rfl (by decide +kernel), later_of (by decide +kernel)⟩

def openReq (w : Bool) : OpenReq := ⟨hbmBase, w, [1, 2, 3, 4], false, 4, .host, 0⟩
def land0 : Landing := ⟨5, 270, 7, List.replicate 64 9, false, pa0, 0⟩

theorem witness_ChannelEvents :
    (let k := chan0 (tl0 [] 50) [(1, { Bank.init with row := some 9, act := some 100, closeAt := some 155 })];
      (demoT k []).Canon ∧ (((demoT k []).chan 0).bank 0 1).closeAt = some 155 ∧ 155 ≤ clockOf (demoT k []).now)
    ∧ (let k (a : Nat) := chan0 (tl0 [] 50) [(1, { Bank.init with row := some 9, act := some a, cleanup := true })];
      (demoT (k 100) []).Canon ∧ ((k 100).bank 0 1).cleanup = true ∧ ((k 100).bank 0 1).isOpen = true ∧ (k 100).rowClk ≠ some 160 ∧ PrechargeOk (k 100) 0 1 160
        ∧ (demoT (k 150) []).Canon ∧ ((k 150).bank 0 1).isOpen = true ∧ ¬PrechargeOk (k 150) 0 1 160)
    ∧ (let k := chan0 (tl0 [] 50) (bank1 130)
      let s := demoT k []
      s.Canon ∧ clockOf s.now / 128 = 1 ∧ s.windowOwner 0 1 ≠ s.windowOwner 0 (1 + 1) ∧ k.houseNow = false ∧ k.backlog = false
        ∧ ∃ b, (s.chan 0).banks = [(1, b)] ∧ b.isOpen = true ∧ b.cleanup = false ∧ b.actOwner < nMoorings ∧ (s.moor b.actOwner).st = .running)
    ∧ (∀ e ∈ (chan0 (tl0 [] 50) (shut1 100)).banks, e.2.isOpen = false)
    ∧ (∀ w : Bool, let s : State := { demoT { Channel.init with openq := [openReq w] } [] with now := 2177 }
      s.Canon ∧ s.openNow 0 (clockOf s.now) = some (openReq w) ∧ (openReq w).who = .host ∧ s.errs = [] ∧ s.poison = [] ∧ s.frozenIn (openReq w).addr (openReq w).n = false)
    ∧ (let s := demoT { Channel.init with landings := [land0] } []
      s.Canon ∧ land0 ∈ (s.chan 0).landings ∧ (∀ x ∈ (s.chan 0).landings, x.id = land0.id → x = land0) ∧ land0.t = s.now ∧ Tidy 0 s.bufs ∧ land0.data.length = 64) := by
  have hc : ∀ k mem, mem.wf = true → swf Channel.init 0 [(0, k)] = true → (demoT k mem).Canon := fun k mem h1 h2 => ⟨h1, rfl, canon_demo.cores, h2⟩
  refine ⟨⟨hc _ _ rfl (by decide +kernel), rfl, by decide⟩,
    ⟨hc _ _ rfl (by decide +kernel), rfl, rfl, by decide, precharge_of (by decide), hc _ _ rfl (by decide +kernel), rfl, fun h => (not_over_of (by decide) h.1)⟩,
    ⟨hc _ _ rfl (by decide +kernel), by decide, by decide +kernel, rfl, rfl, _, rfl, rfl, rfl, by decide, by decide⟩, by decide, fun w => ?_,
    ⟨hc _ _ rfl (by decide +kernel), List.mem_singleton.mpr rfl, fun x hx _ => List.mem_singleton.mp hx, rfl, rfl, rfl⟩⟩
  cases w <;> exact ⟨⟨rfl, rfl, canon_demo.cores, by decide +kernel⟩, by decide +kernel, rfl, rfl, rfl, by decide +kernel⟩

/-! ### Encodings, memory and the form of the state -/

theorem witness_EncodingsRoundTrip :
    (Instr.add .a (.own 2) 1 (.h .p0 1)).wf = true ∧ encodeSyl (.add .a (.own 2) 1 (.h .p0 1)) = some (.a, 0x02208500)
    ∧ (Instr.act ⟨0, 0, 0⟩ 7).wf = true ∧ encodeTimeline (.act ⟨0, 0, 0⟩ 7) = some 0x040000000E000000
    ∧ (Instr.nodeEnd 0).wf = true ∧ encodeNode (.nodeEnd 0) = some 0x0F := by decide

theorem witness_EncodingsAreUnique :
    0x02208500 < 2 ^ 32 ∧ decodeSyl .a 0x02208500 = some (.add .a (.own 2) 1 (.h .p0 1))
    ∧ 0x040000000E000000 < 2 ^ 64 ∧ decodeTimeline 0x040000000E000000 = some (.act ⟨0, 0, 0⟩ 7) := by decide

theorem witness_MemoryReadsBack :
    demo.Canon ∧ [true, false].length = [(1 : Byte), 2].length ∧ [true, false][0]? = some true ∧ (∀ b ∈ [false, false], b = false)
    ∧ ∀ i < [(1 : Byte), 2].length, poisonUnit (0x100 + i) ≠ poisonUnit 0x200 :=
  ⟨canon_demo, rfl, rfl, by decide, by decide⟩

theorem witness_StepKeepsForm : State.reset.Formed ∧ ∃ t, step State.reset = .next t :=
  ⟨⟨⟨rfl, rfl, rfl, rfl⟩, rfl, rfl, rfl, fun m => (by
    show Tidy 0 ((Vector.replicate 12 Mooring.init).getD m Mooring.init).gotos
    by_cases h : m < 12 <;> simp [Vector.getD, Array.getD, h, Mooring.init, Tidy, swf]), fun c => rfl⟩, _, next_of (by decide +kernel)⟩

theorem witness_CycleCounter :
    demo.agenda = [] ∧ demo.phase < 8 ∧ (∃ t, step demo = .next t) ∧ 8 ≤ ({ demo with phase := 8 } : State).phase
    ∧ demo.clear .c 1 [⟨.h, 1⟩] [] :=
  ⟨rfl, by decide, ⟨_, next_of (by decide +kernel)⟩, by decide, clear_demo ..⟩

/-! ### Worked values of the spec -/

/-- R134: 1 dated 996 with factor entry 1 of 0.99609375, read in step 1,000; and a merge-add of 0.125. -/
theorem test_ebb_words :
    (ebbRead 0x010003E441000000 1000 fun i => if i = 1 then 0x3F7F0000 else 0x3F800000).w = 0x40FC05FC
    ∧ (ebbMergeAdd 0x010003E441000000 0x3E000000 1000 fun i => if i = 1 then 0x3F7F0000 else 0x3F800000).1 = 0x010003E8410002FE := by decide +kernel

/-- The scalar results to land: cycle, register and value. -/
def lands (o : Out State) : List (Nat × RRef × Word) :=
  (nextOf o).cur.queue.filterMap fun e => match e.eff with
    | .reg r v => some (e.due, r, v.val)
    | _ => none

/-- R66 on `demo` (A1 = 5, B1 = 2, H1 = 0x1000, cycle 100): a result of latency L lands L cycles later, in the file that DH chooses. -/
theorem test_scalar_results :
    lands (exec (.add .a (.own 2) 1 (.h .p0 1)) demo) = [(101, ⟨.a, 2⟩, 0x1005)]
    ∧ lands (exec (.sub .b (.own 2) 1 (.h .p0 1)) demo) = [(101, ⟨.b, 2⟩, 0xFFFFFFFFFFFFF002)]
    ∧ lands (exec (.addImm .b 4 1 (BitVec.ofInt 15 (-3))) demo) = [(101, ⟨.b, 4⟩, 0xFFFFFFFFFFFFFFFF)]
    ∧ lands (exec (.clz .a (.h 3) 1) demo) = [(101, ⟨.h, 3⟩, 61)]
    ∧ lands (exec (.clz .a (.h 3) 9) demo) = [(101, ⟨.h, 3⟩, 64)] := by decide +kernel

/-- R64, R66: a second result for one register in one cycle is a schedule fault, and the first still lands. -/
theorem test_two_results :
    let s := nextOf (exec (.fmul .b (.own 4) 1 (.own 1) .rne .f32) demo)
    (nextOf (exec (.addImm .b 4 1 1) { s with now := 102 })).trapped.isSome = true
    ∧ (nextOf (exec (.addImm .b 4 1 1) { s with now := 101 })).trapped.isSome = false := by decide +kernel

/-- R370: one rounding in `FMA`; the soundings of R142. -/
theorem test_single_rounding :
    fmt32.mul .rne 0x3F800800 0x3F800800 = (0x3F801000, fNX)
    ∧ fmt32.add .rne 0x3F801000 0xBF801000 = (0, 0) ∧ fmt32.soundAdd (fmt32.sop 0x3F801000 24) (fmt32.sop 0xBF801000 24) 0 = 0
    ∧ fmt32.fma .rne 0x3F800800 0x3F800800 0xBF801000 = (0x33800000, 0) ∧ fmt32.soundFma 0x3F800800 0x3F800800 0xBF801000 24 24 24 0x33800000 = 0 := by
  decide +kernel

/-- R372, R375: results without NX, and the worked `FDECAY`. -/
theorem test_functions :
    fmt32.exp2 .rne 0x40400000 = (0x41000000, 0) ∧ fmt32.log2 .rne 0x3E800000 = (0xC0000000, 0) ∧ fmt32.sqrt .rne 0x40100000 = (0x3FC00000, 0)
    ∧ fdecay ⟨0x3F7F0000, 24, 0⟩ 4 = ⟨0x3F7C05FC, 24, fNX⟩ := by decide +kernel

/-- R122: the table of angle codes. -/
theorem test_angle_codes :
    rom 0 = (131072, 0) ∧ rom 8192 = (92682, 92682) ∧ rom 16384 = (0, 131072) ∧ rom 57344 = (92682, -92682) := by decide +kernel

/-- R174, R175: the worked cell, applied and reversed in P8; its accumulator and ρ. -/
theorem test_mesh_cell :
    (let r := (applyCell 8 8192 false ⟨0x3F800000, false, 8⟩ ⟨0x3F000000, false, 8⟩).1;
      (r.1.bits, r.2.bits) = (0x3EB50000, 0x3F880000))
    ∧ (let r := backCell 8 ⟨8192, 0, 0, false, false⟩ ⟨0x3EB50000, false, 8⟩ ⟨0x3F880000, false, 8⟩ ⟨0, false, 8⟩ ⟨0x3F800000, false, 8⟩;
      (r.2.1.1.1.bits, r.2.1.1.2.bits) = (0x3F800000, 0x3F000000) ∧ (r.2.1.2.1.bits, r.2.1.2.2.bits) = (0x3F350000, 0x3F350000) ∧ r.1.acc = 0x5A80000000)
    ∧ rho 8192 = 0x3F800012 := by decide +kernel

/-- R212: descriptor 0x8200 with the bytes 00 3C 10 7F at byte 128; a zero sector; and a malformed one. -/
theorem test_compressed_sectors :
    let s : State := { demo with mem := [(hbmBase + 1, 0x82), (hbmBase + 4, 0x40), (hbmBase + 129, 0x3C), (hbmBase + 130, 0x10), (hbmBase + 131, 0x7F)] }
    s.expandSector hbmBase 0 = ([0x00, 0x3C, 0x01, 0x3C, 0xFF, 0x3B, 0x07, 0x3C] ++ (List.replicate 28 [0x00, 0x3C]).flatten, false, false)
    ∧ s.expandSector hbmBase 1 = (List.replicate 64 0, false, false) ∧ (s.expandSector hbmBase 2).2 = (true, true) := by decide +kernel

end Sys2Proof.Tests
end

section
/-! SUPPORT. Rules for the state's operations: what cores, a mooring, the entries and memory read after an update or a fold of updates. -/

namespace Sys2Proof.Machine
open Config

/-! ### Cores under updates of single cores -/

/-- A key that a map lists no value for reads as the default. -/
theorem sget_of_not_mem {α : Type} {d : α} {n : Nat} : ∀ {l : List (Nat × α)}, n ∉ l.map (·.1) → sget d l n = d
  | [], _ => rfl
  | (k, v) :: l, h => by
    simp only [List.map_cons, List.mem_cons, not_or] at h
    simp only [sget, h.1, if_false, sget_of_not_mem h.2, ite_self]

/-- The keys of a map in canonical form stand above its bound, and none stands twice. -/
theorem keys_of_swf {α : Type} [DecidableEq α] {d : α} : ∀ {l : List (Nat × α)} {b : Nat}, swf d b l = true →
    (∀ n ∈ l.map (·.1), b ≤ n) ∧ (l.map (·.1)).Nodup
  | [], _, _ => ⟨by simp, List.nodup_nil⟩
  | (k, v) :: l, b, h => by
    simp only [swf, Bool.and_eq_true, decide_eq_true_eq] at h
    obtain ⟨⟨hb, -⟩, hl⟩ := h
    obtain ⟨hge, hnd⟩ := keys_of_swf hl
    refine ⟨fun n hn => ?_, List.nodup_cons.2 ⟨fun hk => absurd (hge k hk) (by omega), hnd⟩⟩
    rcases List.mem_cons.1 hn with rfl | hn
    · exact hb
    · exact Nat.le_trans (by omega) (hge n hn)

theorem State.core_updCore {s : State} (h : Tidy Core.init s.cores) (c d : Nat) (f : Core → Core) :
    (s.updCore c f).core d = if d = c then f (s.core c) else s.core d := by
  split
  · subst d; exact sget_sset_self h _
  · exact sget_sset_other h _ ‹_›

theorem State.tidy_updCore {s : State} (h : Tidy Core.init s.cores) (c : Nat) (f : Core → Core) : Tidy Core.init (s.updCore c f).cores :=
  tidy_sset h c _

theorem State.updSeq_primary (s : State) (c : Nat) (f : SeqState → SeqState) :
    s.updSeq c .primary f = s.updCore c fun k => { k with prim := f k.prim } := rfl

/-- A core that runs is among those that are not in their reset state. -/
theorem State.mem_coreIds_of_running {s : State} {c : Nat} (h : (s.core c).prim.run = .running) : c ∈ s.coreIds := by
  by_contra hc
  rw [State.core, sget_of_not_mem hc] at h
  cases h

theorem State.core_of_cores {s t : State} (h : t.cores = s.cores) (c : Nat) : t.core c = s.core c := by simp only [State.core, h]

/-! ### Folds over cores -/

/-- What every step of a fold keeps, the fold keeps. -/
theorem foldl_keeps {α β γ : Type} (π : α → γ) {F : α → β → α} (h : ∀ a b, π (F a b) = π a) : ∀ (l : List β) (a : α), π (l.foldl F a) = π a
  | [], _ => rfl
  | b :: l, a => (foldl_keeps π h l (F a b)).trans (h a b)

/-- In cycle n, each step of a fold changes the core under its key as g says, and no other core. -/
def StepsCores {β : Type} (n : Nat) (key : β → Nat) (g : β → Core → Core) (F : State → β → State) : Prop :=
  ∀ t b, t.now = n → (F t b).now = n ∧ (F t b).cores = (t.updCore (key b) (g b)).cores

namespace StepsCores
variable {β : Type} {n : Nat} {key : β → Nat} {g : β → Core → Core} {F : State → β → State}

/-- One step: its state is tidy, and its cores read as after the update. -/
theorem step (h : StepsCores n key g F) {s : State} (hn : s.now = n) (ht : Tidy Core.init s.cores) (b : β) :
    Tidy Core.init (F s b).cores ∧ ∀ d, (F s b).core d = if d = key b then g b (s.core (key b)) else s.core d := by
  obtain ⟨-, hc⟩ := h s b hn
  exact ⟨hc ▸ State.tidy_updCore ht _ _, fun d => (State.core_of_cores hc d).trans (State.core_updCore ht _ _ _)⟩

theorem now (h : StepsCores n key g F) : ∀ {l : List β} {s : State}, s.now = n → (l.foldl F s).now = n
  | [], _, hn => hn
  | b :: l, s, hn => now h (l := l) (s := F s b) (h s b hn).1

theorem tidy (h : StepsCores n key g F) : ∀ {l : List β} {s : State}, s.now = n → Tidy Core.init s.cores → Tidy Core.init (l.foldl F s).cores
  | [], _, _, ht => ht
  | b :: l, s, hn, ht => tidy h (l := l) (s := F s b) (h s b hn).1 (h.step hn ht b).1

/-- What the steps keep of every core, the fold keeps. -/
theorem core_keeps {γ : Type} (h : StepsCores n key g F) (π : Core → γ) (hg : ∀ b k, π (g b k) = π k) (d : Nat) :
    ∀ {l : List β} {s : State}, s.now = n → Tidy Core.init s.cores → π ((l.foldl F s).core d) = π (s.core d)
  | [], _, _, _ => rfl
  | b :: l, s, hn, ht => by
    have hs := h.step hn ht b
    rw [List.foldl_cons, core_keeps h π hg d (h s b hn).1 hs.1, hs.2]
    split
    · subst d; exact hg b _
    · rfl

theorem core_other (h : StepsCores n key g F) {d : Nat} :
    ∀ {l : List β} {s : State}, s.now = n → Tidy Core.init s.cores → d ∉ l.map key → (l.foldl F s).core d = s.core d
  | [], _, _, _, _ => rfl
  | b :: l, s, hn, ht, hd => by
    simp only [List.map_cons, List.mem_cons, not_or] at hd
    have hs := h.step hn ht b
    rw [List.foldl_cons, core_other h (h s b hn).1 hs.1 hd.2, hs.2, if_neg hd.1]

/-- A core whose key stands once is changed once. -/
theorem core_self (h : StepsCores n key g F) {x : β} {l : List β} {s : State} (hn : s.now = n) (ht : Tidy Core.init s.cores)
    (hd : (l.map key).Nodup) (hx : x ∈ l) : (l.foldl F s).core (key x) = g x (s.core (key x)) := by
  induction l generalizing s with
  | nil => cases hx
  | cons b l ih =>
    rw [List.map_cons, List.nodup_cons] at hd
    have hs := h.step hn ht b
    rw [List.foldl_cons]
    rcases List.mem_cons.1 hx with rfl | hx
    · rw [core_other h (h s x hn).1 hs.1 hd.1, hs.2, if_pos rfl]
    · have hne : key x ≠ key b := fun e => hd.1 (e ▸ List.mem_map_of_mem hx)
      rw [ih (h s b hn).1 hs.1 hd.2 hx, hs.2, if_neg hne]

/-- The same where the cores themselves are the keys. -/
theorem core_self_id {g : Nat → Core → Core} {F : State → Nat → State} (h : StepsCores n id g F) {c : Nat} {l : List Nat} {s : State}
    (hn : s.now = n) (ht : Tidy Core.init s.cores) (hd : l.Nodup) (hc : c ∈ l) : (l.foldl F s).core c = g c (s.core c) :=
  h.core_self hn ht (by simpa using hd) hc

end StepsCores

/-- A fold of updates of single cores. -/
theorem stepsCores_updCore {β : Type} (n : Nat) (key : β → Nat) (g : β → Core → Core) :
    StepsCores n key g fun t b => t.updCore (key b) (g b) := fun _ _ hn => ⟨hn, rfl⟩

/-! ### Moorings, completions and memory -/

theorem State.moor_updMoor {m : Nat} (hm : m < nMoorings) (s : State) (f : Mooring → Mooring) : (s.updMoor m f).moor m = f (s.moor m) := by
  simp only [State.updMoor, State.moor, State.setMoor, Vector.getD, Array.getD]
  have : m < 12 := hm
  simp [this]

theorem State.moor_of_moorings {s t : State} (h : t.moorings = s.moorings) (m : Nat) : t.moor m = s.moor m := by simp only [State.moor, h]

/-- The pre-emption requests that wait are served: each gets its entry, and none waits any more. -/
theorem State.servePreempt_fields {m : Nat} (hm : m < nMoorings) (s : State) :
    (s.servePreempt m).compl = s.compl ++ (s.moor m).preempt.map (Spec.doneEntry m)
      ∧ (s.servePreempt m).moor m = { s.moor m with preempt := [] } ∧ (s.servePreempt m).now = s.now ∧ (s.servePreempt m).cores = s.cores := by
  have key : ∀ (l : List Nat) (t : State), l.foldl (fun t q => t.complete 0x83 m q []) t
      = { t with compl := t.compl ++ l.map (Spec.doneEntry m) } := by
    intro l
    induction l with
    | nil => intro t; simp
    | cons q l ih =>
      intro t
      rw [List.foldl_cons, ih]
      simp [State.complete, Spec.doneEntry]
  unfold State.servePreempt
  rw [key]
  exact ⟨rfl, State.moor_updMoor hm s fun k => { k with preempt := [] }, rfl, rfl⟩

theorem State.faultRecord_fields (s : State) (m task c cause : Nat) (p : Bool) (i x e : Word) :
    (s.faultRecord m task c cause p i x e).now = s.now ∧ (s.faultRecord m task c cause p i x e).cores = s.cores
      ∧ (s.faultRecord m task c cause p i x e).moorings = s.moorings := by
  unfold State.faultRecord
  split <;> exact ⟨rfl, rfl, rfl⟩

/-- A byte after a write of a list of bytes. -/
theorem Memory.get_write {m : Memory} (h : m.wf = true) (a : Nat) (bs : List Byte) (x : Nat) :
    (m.write a bs).get x = Spec.overlay m.get a bs x := by
  unfold Spec.overlay
  induction bs generalizing m a with
  | nil => rw [if_neg (by simp only [List.length_nil]; omega)]; rfl
  | cons b l ih =>
    simp only [Memory.write, List.length_cons]
    rw [ih (Memory.wf_set h a b)]
    by_cases hx : x = a
    · subst x
      rw [if_neg (by omega), if_pos (by omega), Memory.get_set_self h]
      simp
    · rw [Memory.get_set_other h b hx]
      by_cases hr : a + 1 ≤ x ∧ x < a + 1 + l.length
      · obtain ⟨j, rfl⟩ := Nat.exists_eq_add_of_le hr.1
        rw [if_pos hr, if_pos (by omega), show a + 1 + j - (a + 1) = j by omega, show a + 1 + j - a = j + 1 by omega]
        simp
      · rw [if_neg hr, if_neg (by omega)]

theorem writes_of_mem {s t : State} (h : s.mem.wf = true) {a : Nat} {bs : List Byte} (ht : t.mem = s.mem.write a bs) :
    Spec.Writes s t a bs := fun x => by
  rw [State.byte, ht, Memory.get_write h]; rfl

theorem leNat_lt (l : List Byte) : leNat l < 256 ^ l.length := by
  induction l with
  | nil => simp [leNat]
  | cons b l ih =>
    have := b.isLt
    simp only [leNat, List.length_cons, Nat.pow_succ]
    omega

theorem Rec.num_lt (r : Rec) (off n : Nat) : r.num off n < 256 ^ n :=
  Nat.lt_of_lt_of_le (leNat_lt _) (Nat.pow_le_pow_right (by decide) (by simp))

end Sys2Proof.Machine
end

section
/-! SUPPORT. The streamer (O46, R324), and the requests that a stopped task can no longer answer (O46, R3, R57). -/

namespace Sys2Proof.Machine
open Config Sys2Proof.Spec

/-! ### The streamer (R324) -/

/-- An item that the streamer writes is dirty, and stands in the core's record. -/
theorem State.dirty_of_streamItem {s : State} {c i a : Nat} (h : s.streamItem c = some (i, a)) :
    (s.core c).dirty.getLsbD i = true ∧ s.recAt c .primary = a := by
  unfold State.streamItem at h
  simp only at h
  split at h
  · cases h
  · obtain ⟨j, hj, he⟩ := Option.map_eq_some_iff.1 h
    cases he
    have hp := List.find?_some hj
    rw [Bool.and_eq_true] at hp
    exact ⟨hp.1, rfl⟩

/-- The bytes that item i of a record holds: a value or a state byte (R311). -/
def SeqState.itemBytes (x : SeqState) (i : Nat) : List Byte :=
  if i < 112 then natBytes 8 ((fileRegs x).getD (i % 112) Reg.zero).val.toNat
  else [BitVec.ofNat 8 ((fileRegs x).getD (i % 112) Reg.zero).stateByte]

theorem exec_contextStreamerWrite {s : State} {c i a : Nat} (hc : c < nCores) (h : s.streamItem c = some (i, a)) :
    exec (.contextStreamerWrite c) s = .next ((s.putClean (a + (streamPlace i).1) ((s.core c).prim.itemBytes i)).updCore c
      fun k => { k with dirty := k.dirty &&& ~~~(BitVec.ofNat 224 (2 ^ i)) }) := by
  show execContextStreamerWrite c s = _
  unfold execContextStreamerWrite
  rw [if_pos hc, h]
  rfl

/-- Marking item i clean leaves every other item's mark. -/
theorem getLsbD_clean (d : BitVec 224) (i : Nat) {j : Nat} (hj : j < 224) :
    (d &&& ~~~(BitVec.ofNat 224 (2 ^ i))).getLsbD j = (d.getLsbD j && decide (j ≠ i)) := by
  rw [BitVec.getLsbD_and, BitVec.getLsbD_not, BitVec.getLsbD_ofNat, Nat.testBit_two_pow]
  simp [hj, eq_comm]

theorem streamerWrites : Spec.StreamerWrites := by
  intro s c i a hs hc hi hlt
  obtain ⟨hd, ha⟩ := State.dirty_of_streamItem hi
  refine ⟨hd, ha, _, exec_contextStreamerWrite hc hi, ?_⟩
  generalize ht : s.putClean (a + (streamPlace i).1) ((s.core c).prim.itemBytes i) = t
  have hcores : t.cores = s.cores := by rw [← ht]; rfl
  have hmem : t.mem = s.mem.write (a + (streamPlace i).1) ((s.core c).prim.itemBytes i) := by rw [← ht]; rfl
  have hcore := State.core_updCore (s := t) (hcores ▸ hs.cores) c
  simp only [State.core_of_cores hcores] at hcore
  refine ⟨fun h => writes_of_mem hs.mem ?_, fun h => writes_of_mem hs.mem ?_, fun j hj => ?_, ?_, ?_, fun d hne => ?_⟩
  · have hm : i % 112 = i := Nat.mod_eq_of_lt h
    rw [State.updCore_mem, hmem]
    simp only [streamPlace, SeqState.itemBytes, h, if_true, hm, Nat.add_assoc]
  · have hm : i % 112 = i - 112 := by omega
    rw [State.updCore_mem, hmem]
    simp only [streamPlace, SeqState.itemBytes, Nat.not_lt.2 h, if_false, hm, Nat.add_assoc]
  · rw [hcore, if_pos rfl]
    exact getLsbD_clean _ i hj
  · rw [hcore, if_pos rfl]
  · rw [hcore, if_pos rfl]
  · rw [hcore, if_neg hne]

/-! ### Requests of a task that stands still (R3, R57) -/

/-- The earliest cycle at the phase of the stop, once VALID is written. -/
theorem Mooring.earliest_eq {k : Mooring} {f t : Nat} (hf : k.frozen = some f) (hv : ∀ v, k.vwrite = some v → v < t) :
    k.earliest t = t + (10368 - (t - f) % 10368) % 10368 := by
  unfold Mooring.earliest
  have hb : ∀ b, b ≤ t → Nat.max t b = t := fun b h => Nat.max_eq_left h
  cases h : k.vwrite with
  | none => simp only [hf, Option.getD_some, hb t (Nat.le_refl t), frameCycles]
  | some v => simp only [hf, Option.getD_some, hb (v + 1) (hv v h), frameCycles]

/-- The only request that waits, in the only slot. -/
theorem Mooring.openSlots_single {k : Mooring} {p : Placed} {n : Nat} (hb : k.bcap = 1) (hs : k.slots = [p]) (ht : p.task = n)
    (h0 : p.slot = 0) (ha : p.req.answered = false) : k.openSlots n = [p] := by
  simp [Mooring.openSlots, hb, hs, ht, h0, ha, List.range_succ]

theorem State.lateRequests_stopped {s : State} {m : Nat} (hst : (s.moor m).st = .parked ∨ (s.moor m).st = .nodeStopped)
    (hr : (s.moor m).resuming = none) :
    s.lateRequests m = ((s.moor m).openSlots (s.moor m).task).filter fun p =>
      let done := (s.moor m).started + (s.moor m).k + ((s.moor m).earliest s.now - (s.moor m).frozen.getD 0)
      decide (p.req.deadlineAt < done + (s.moor m).replyb) && decide (0 < done) := by
  unfold State.lateRequests
  rcases hst with h | h <;> simp only [h, hr]

theorem State.lateRequests_running {s : State} {m : Nat} (hst : (s.moor m).st = .running) :
    s.lateRequests m = ((s.moor m).openSlots (s.moor m).task).filter fun p =>
      let done := if (s.moor m).loose then s.now else 0
      decide (p.req.deadlineAt < done + (s.moor m).replyb) && decide (0 < done) := by
  unfold State.lateRequests
  simp only [hst]

/-- A reply to the host is an entry of its ring; it names the mooring and the status. -/
theorem State.reply_host {s : State} {m status mm seq info : Nat} {r : Req} {out : List Byte} (h : r.src = .host mm seq) :
    s.reply m status r info out = s.complete 0x81 mm seq (s.replyBytes m status r info out)
      ∧ (s.replyBytes m status r info out).getD 2 0 = BitVec.ofNat 8 (16 * m + status) := by
  constructor
  · unfold State.reply; rw [h]
  · simp [State.replyBytes, replyBody, natBytes]

/-- A request that is late is answered with status 4, and keeps its slot. -/
theorem exec_deadlineCheck_late {s : State} {m mm seq : Nat} {p : Placed} (hm : m < nMoorings) (hs : (s.moor m).slots = [p])
    (hl : s.lateRequests m = [p]) (hsrc : p.req.src = .host mm seq) :
    ∃ t b, exec (.parkedRequestDeadlineCheck m) s = .next t ∧ t.compl = s.compl ++ [⟨0x81, mm, seq, b⟩]
      ∧ b.getD 2 0 = BitVec.ofNat 8 (16 * m + 4) ∧ (t.moor m).slots = [{ p with req := { p.req with answered := true } }]
      ∧ (t.moor m).st = (s.moor m).st ∧ t.mem = s.mem := by
  obtain ⟨hr, hb⟩ := State.reply_host (s := s) (m := m) (status := 4) (info := 0) (out := []) hsrc
  refine ⟨_, _, (if_pos hm).trans rfl, ?_, hb, ?_, ?_, ?_⟩ <;> simp only [hl, List.foldl_cons, List.foldl_nil, hr]
  · rfl
  · rw [State.moor_updMoor hm, State.moor_of_moorings (State.complete_moorings _ _ _ _ _), hs]
    simp
  · rw [State.moor_updMoor hm, State.moor_of_moorings (State.complete_moorings _ _ _ _ _)]
  · rfl

/-- Where no request is late, the check leaves the entries and the slots as they are. -/
theorem exec_deadlineCheck_inTime {s : State} {m : Nat} (hm : m < nMoorings) (hl : s.lateRequests m = []) :
    ∃ t, exec (.parkedRequestDeadlineCheck m) s = .next t ∧ t.compl = s.compl ∧ (t.moor m).slots = (s.moor m).slots := by
  refine ⟨_, (if_pos hm).trans rfl, ?_, ?_⟩ <;> simp only [hl, List.foldl_nil]
  · rfl
  · rw [State.moor_updMoor hm]
    simp

theorem parkedRequestsEnd : Spec.ParkedRequestsEnd := by
  constructor
  · intro s m f r mm seq p hm hst hk hf _ hr hv hle hlt hph hfn hb hs ht h0 ha hsrc
    have he : (s.moor m).earliest s.now = r := by
      rw [Mooring.earliest_eq hf fun v e => by rw [hv] at e; cases e]
      omega
    have hl := State.lateRequests_stopped hst hr
    rw [Mooring.openSlots_single hb hs ht h0 ha, he, hf, Option.getD_some] at hl
    have hd : p.req.deadlineAt = p.req.arrival + p.req.deadline * 2700 := rfl
    refine ⟨fun h => exec_deadlineCheck_late hm hs ?_ hsrc, fun h => ?_⟩
    · rw [hl]
      rw [List.filter_cons_of_pos (by simp only [Bool.and_eq_true, decide_eq_true_eq]; omega)]
      rfl
    · rw [← hs]
      refine exec_deadlineCheck_inTime hm ?_
      rw [hl]
      rw [List.filter_cons_of_neg (by simp only [Bool.and_eq_true, decide_eq_true_eq]; omega)]
      rfl
  · intro s m mm seq p hm hst hn hb hs ht h0 ha hsrc
    have hl := State.lateRequests_running hst
    rw [Mooring.openSlots_single hb hs ht h0 ha] at hl
    have hd : p.req.deadlineAt = p.req.arrival + p.req.deadline * 2700 := rfl
    refine ⟨fun hlo h => hst ▸ exec_deadlineCheck_late hm hs ?_ hsrc, fun hlo => ?_⟩
    · rw [hl, hlo]
      simp only [if_true]
      rw [List.filter_cons_of_pos (by simp only [Bool.and_eq_true, decide_eq_true_eq]; omega)]
      rfl
    · rw [← hs]
      refine exec_deadlineCheck_inTime hm ?_
      rw [hl, hlo]
      simp

end Sys2Proof.Machine
end

section
/-! SUPPORT. A parked or stopped task goes on (O46, R57, R314): its state before its cores go on, then its cores. -/

namespace Sys2Proof.Machine
open Config Sys2Proof.Spec

/-! ### The cores of a task -/

theorem State.nodup_coreIds {s : State} (h : Tidy Core.init s.cores) : s.coreIds.Nodup := (keys_of_swf h).2

theorem State.nodup_begunCores {s : State} (h : Tidy Core.init s.cores) (m : Nat) : (s.begunCores m).Nodup :=
  (State.nodup_coreIds h).filter _

theorem State.mem_taskCores {s : State} {m c : Nat} : c ∈ s.taskCores m ↔
    (s.core c).prim.run = .running ∧ ∃ l ∈ (s.moor m).launched, l.core = c ∧ l.begun = true := by
  simp only [State.taskCores, List.mem_filter, Bool.and_eq_true, beq_iff_eq, List.any_eq_true]
  exact ⟨fun h => h.2, fun h => ⟨State.mem_coreIds_of_running h.1, h⟩⟩

theorem State.mem_begunCores {s : State} {m c : Nat} : c ∈ s.begunCores m ↔
    c ∈ s.coreIds ∧ ∃ l ∈ (s.moor m).launched, l.core = c ∧ l.used = true := by
  simp only [State.begunCores, List.mem_filter, Bool.and_eq_true, beq_iff_eq, List.any_eq_true]

/-- The cores of a task whose primary runs are among those that the task has started. -/
theorem State.mem_begunCores_of_taskCores {s : State} {m c : Nat} (h : c ∈ s.taskCores m) : c ∈ s.begunCores m := by
  obtain ⟨hr, l, hl, hc, hb⟩ := State.mem_taskCores.1 h
  exact State.mem_begunCores.2 ⟨State.mem_coreIds_of_running hr, l, hl, hc, by simp [Launched.used, hb]⟩

/-- Where every launched core has begun, a started core whose primary runs is one of the task's. -/
theorem State.mem_taskCores_of_begun {s : State} {m c : Nat} (hb : ∀ l ∈ (s.moor m).launched, l.begun = true) (h : c ∈ s.begunCores m)
    (hr : (s.core c).prim.run = .running) : c ∈ s.taskCores m := by
  obtain ⟨-, l, hl, hc, -⟩ := State.mem_begunCores.1 h
  exact State.mem_taskCores.2 ⟨hr, l, hl, hc, hb l hl⟩

/-! ### What a task's operations on channels, commands and holds leave alone -/

/-- Two states with the same cycle, memory, entries and moorings. -/
structure State.SameRest (s t : State) : Prop where
  now : t.now = s.now
  mem : t.mem = s.mem
  compl : t.compl = s.compl
  moorings : t.moorings = s.moorings

/-- Two states that agree in their cores as well. -/
structure State.SameTasks (s t : State) : Prop extends State.SameRest s t where
  cores : t.cores = s.cores

namespace State.SameRest

theorem trans {s t u : State} (h : s.SameRest t) (k : t.SameRest u) : s.SameRest u :=
  ⟨k.now.trans h.now, k.mem.trans h.mem, k.compl.trans h.compl, k.moorings.trans h.moorings⟩

theorem foldl {β : Type} {F : State → β → State} (h : ∀ (t : State) (b : β), t.SameRest (F t b)) :
    ∀ (l : List β) (s : State), s.SameRest (l.foldl F s)
  | [], _ => ⟨rfl, rfl, rfl, rfl⟩
  | b :: l, s => (h s b).trans (foldl h l (F s b))

theorem moor {s t : State} (h : s.SameRest t) (m : Nat) : t.moor m = s.moor m := State.moor_of_moorings h.moorings m

end State.SameRest

namespace State.SameTasks

theorem trans {s t u : State} (h : s.SameTasks t) (k : t.SameTasks u) : s.SameTasks u :=
  ⟨h.toSameRest.trans k.toSameRest, k.cores.trans h.cores⟩

theorem foldl {β : Type} {F : State → β → State} (h : ∀ (t : State) (b : β), t.SameTasks (F t b)) (l : List β) (s : State) :
    s.SameTasks (l.foldl F s) :=
  ⟨.foldl (fun t b => (h t b).toSameRest) l s, foldl_keeps State.cores (fun t b => (h t b).cores) l s⟩

end State.SameTasks

theorem State.sameRest_updCore (s : State) (c : Nat) (f : Core → Core) : s.SameRest (s.updCore c f) := ⟨rfl, rfl, rfl, rfl⟩
theorem State.sameTasks_updChan (s : State) (c : Nat) (f : Channel → Channel) : s.SameTasks (s.updChan c f) := ⟨⟨rfl, rfl, rfl, rfl⟩, rfl⟩

theorem State.sameTasks_rehold (s : State) (cs : List Nat) : s.SameTasks (s.rehold cs) := by
  refine State.SameTasks.foldl (fun t a => ?_) _ _
  unfold State.reholdOne
  split <;> exact ⟨⟨rfl, rfl, rfl, rfl⟩, rfl⟩

/-- Timelines that go on change, beside the channels, only the list of the banks that they had left open. -/
theorem State.resumeTls_eq (s : State) (m frames : Nat) :
    ∃ u, s.SameTasks u ∧ s.resumeTls m frames = u.updMoor m fun k => { k with heldRows := [] } :=
  ⟨_, (State.SameTasks.foldl (fun t _ => t.sameTasks_updChan _ _) _ s).trans
    (State.SameTasks.foldl (fun t _ => t.sameTasks_updChan _ _) _ _), rfl⟩

/-- Where every launched core has begun, none is due to start. -/
theorem State.startCores_of_begun {s : State} {m : Nat} (h : ∀ l ∈ (s.moor m).launched, l.begun = true) : s.startCores m = s := by
  unfold State.startCores
  rw [List.filter_eq_nil_iff.2 fun l hl => by simp [h l hl]]
  rfl

/-! ### A task goes on (R57, R314) -/

/-- A timed task that stood still from cycle f on, before its cores go on: its times have moved, its timelines run, and its cores have
`H0` to `H3` back. -/
def State.movedTask (s : State) (m f : Nat) : State :=
  (s.moor m).savedH.foldl State.restoreH
    (((s.shiftTask m (s.begunCores m) f (s.now - f)).shiftStarts m f (s.now - f)).resumeTls m ((s.now - f) / frameCycles))

/-- A core goes on where it stood. -/
def State.thaw (s : State) (c : Nat) : State := s.updSeq c .primary fun x => { x with frozen := none }

/-- A mooring whose task goes on. -/
def Mooring.goesOn (k : Mooring) : Mooring :=
  { k with st := .running, frozen := none, resuming := none, forced := false, vwrite := none, savedH := [] }

/-- The last part of a resumption: the mooring goes on, and the submission entry is done. -/
def State.endResume (s : State) (m : Nat) (cs : List Nat) (seq : Nat) : State :=
  (((s.updMoor m Mooring.goesOn).rehold cs).startCores m).complete 0x83 m seq []

theorem State.resumeTask_eq {s : State} {m f seq when_ : Nat} (hl : (s.moor m).loose = false) (hf : (s.moor m).frozen = some f) :
    s.resumeTask m ⟨seq, none, when_⟩ = (if (s.moor m).st = .parked then (s.begunCores m).foldl (fun t c => t.restoreCore m c) (s.movedTask m f)
      else (s.begunCores m).foldl State.thaw (s.movedTask m f)).endResume m (s.begunCores m) seq := by
  unfold State.resumeTask
  simp only [hl, hf, Option.getD_some, Bool.false_eq_true, if_false]
  rfl

theorem State.endResume_fields {s : State} {m : Nat} (hm : m < nMoorings) (hb : ∀ l ∈ (s.moor m).launched, l.begun = true) (cs : List Nat)
    (seq : Nat) : (s.endResume m cs seq).cores = s.cores ∧ (s.endResume m cs seq).mem = s.mem
      ∧ (s.endResume m cs seq).compl = s.compl ++ [doneEntry m seq] ∧ (s.endResume m cs seq).moor m = (s.moor m).goesOn := by
  have h := (s.updMoor m Mooring.goesOn).sameTasks_rehold cs
  have hk : ((s.updMoor m Mooring.goesOn).rehold cs).moor m = (s.moor m).goesOn := (h.moor m).trans (State.moor_updMoor hm s _)
  unfold State.endResume
  rw [State.startCores_of_begun (by rw [hk]; exact hb)]
  exact ⟨h.cores, h.mem, congrArg (· ++ _) h.compl, hk⟩

theorem State.shiftTask_fields {m : Nat} (hm : m < nMoorings) (s : State) (cs : List Nat) (f d : Nat) :
    (s.shiftTask m cs f d).now = s.now ∧ (s.shiftTask m cs f d).mem = s.mem ∧ (s.shiftTask m cs f d).compl = s.compl
      ∧ (s.shiftTask m cs f d).cores = (cs.foldl (fun t c => t.updCore c fun k => k.shift f d) s).cores
      ∧ (s.shiftTask m cs f d).moor m = (s.moor m).shift d := by
  generalize hu : cs.foldl (fun t c => t.updCore c fun k => k.shift f d) s = u
  have hk : s.SameRest u := hu ▸ .foldl (fun t c => t.sameRest_updCore c _) cs s
  unfold State.shiftTask
  rw [hu]
  exact ⟨hk.now, hk.mem, hk.compl, rfl, (State.moor_updMoor hm u fun k => k.shift d).trans (congrArg (·.shift d) (hk.moor m))⟩

theorem State.shiftTask_core {s : State} (ht : Tidy Core.init s.cores) {m : Nat} (hm : m < nMoorings) (f d : Nat) {c : Nat}
    (hc : c ∈ s.begunCores m) : (s.shiftTask m (s.begunCores m) f d).core c = (s.core c).shift f d := by
  rw [State.core_of_cores (State.shiftTask_fields hm s _ f d).2.2.2.1]
  exact (stepsCores_updCore s.now id fun _ k => k.shift f d).core_self_id rfl ht (State.nodup_begunCores ht m) hc

/-- What a shift keeps of every core. -/
theorem State.shiftTask_core_keeps {γ : Type} (π : Core → γ) {s : State} (ht : Tidy Core.init s.cores) {m : Nat} (hm : m < nMoorings)
    (cs : List Nat) (f d c : Nat) (hπ : ∀ k : Core, π (k.shift f d) = π k) : π ((s.shiftTask m cs f d).core c) = π (s.core c) := by
  rw [State.core_of_cores (State.shiftTask_fields hm s cs f d).2.2.2.1]
  exact (stepsCores_updCore s.now id fun _ k => k.shift f d).core_keeps π (fun _ => hπ) c rfl ht

/-- `H` of a core with `H0` to `H3` from a list. -/
def restoredH (l : List Reg) (h : Vector Reg 32) : Vector Reg 32 :=
  Vector.ofFn fun i : Fin 32 => if i.val < 4 then l.getD i.val Reg.zero else h.getD i.val Reg.zero

theorem stepsCores_restoreH (n : Nat) :
    StepsCores n Prod.fst (fun (x : Nat × List Reg) k => { k with h := restoredH x.2 k.h }) State.restoreH := fun _ _ hn => ⟨hn, rfl⟩

theorem stepsCores_thaw (n : Nat) : StepsCores n id (fun _ k => { k with prim := { k.prim with frozen := none } }) State.thaw :=
  fun _ _ hn => ⟨hn, rfl⟩

theorem State.sameRest_thaw (cs : List Nat) (s : State) : s.SameRest (cs.foldl State.thaw s) :=
  .foldl (F := State.thaw) (fun _ _ => ⟨rfl, rfl, rfl, rfl⟩) cs s

/-- The state of a timed task before its cores go on. -/
structure Moved (s u : State) (m d : Nat) : Prop where
  now : u.now = s.now
  mem : u.mem = s.mem
  compl : u.compl = s.compl
  moor : u.moor m = { (s.moor m).shift d with heldRows := [] }
  tidy : Tidy Core.init u.cores
  ctxbase : ∀ c, (u.core c).ctxbase = (s.core c).ctxbase
  prim : ∀ c ∈ s.begunCores m, (u.core c).prim = (s.core c).prim.shift d
  savedH : ((s.moor m).savedH.map (·.1)).Nodup → ∀ x ∈ (s.moor m).savedH, (u.core x.1).h = restoredH x.2 (s.core x.1).h

theorem State.movedTask_moved {s : State} (ht : Tidy Core.init s.cores) {m : Nat} (hm : m < nMoorings) (f : Nat) :
    Moved s (s.movedTask m f) m (s.now - f) := by
  generalize hd : s.now - f = d
  obtain ⟨an, am, ac, acs, amo⟩ := State.shiftTask_fields hm s (s.begunCores m) f d
  obtain ⟨u, hu, he⟩ := State.resumeTls_eq ((s.shiftTask m (s.begunCores m) f d).shiftStarts m f d) m (d / frameCycles)
  have hv : s.movedTask m f = (s.moor m).savedH.foldl State.restoreH (u.updMoor m fun k => { k with heldRows := [] }) := by
    rw [← he, ← hd]; rfl
  rw [hv]
  generalize hw : u.updMoor m (fun k => { k with heldRows := [] }) = w
  have wn : w.now = s.now := by rw [← hw]; exact hu.now.trans an
  have wc : w.cores = (s.shiftTask m (s.begunCores m) f d).cores := by rw [← hw]; exact hu.cores
  have wt : Tidy Core.init w.cores := by
    rw [wc, acs]
    exact (stepsCores_updCore s.now id fun _ k => k.shift f d).tidy rfl ht
  have hk : w.SameRest ((s.moor m).savedH.foldl State.restoreH w) := .foldl (F := State.restoreH) (fun _ _ => ⟨rfl, rfl, rfl, rfl⟩) _ w
  have st := stepsCores_restoreH s.now
  refine ⟨hk.now.trans wn, ?_, ?_, ?_, st.tidy wn wt, fun c => ?_, fun c hc => ?_, fun hnd x hx => ?_⟩
  · rw [hk.mem, ← hw]; exact hu.mem.trans am
  · rw [hk.compl, ← hw]; exact hu.compl.trans ac
  · rw [hk.moor, ← hw, State.moor_updMoor hm, hu.moor]
    exact congrArg (fun k : Mooring => { k with heldRows := [] }) amo
  · rw [st.core_keeps Core.ctxbase (fun _ _ => rfl) c wn wt, State.core_of_cores wc]
    exact State.shiftTask_core_keeps Core.ctxbase ht hm _ f d c fun _ => rfl
  · rw [st.core_keeps Core.prim (fun _ _ => rfl) c wn wt, State.core_of_cores wc, State.shiftTask_core ht hm f d hc]
    rfl
  · rw [st.core_self wn wt hnd hx, State.core_of_cores wc]
    exact congrArg (restoredH x.2) (State.shiftTask_core_keeps Core.h ht hm _ f d x.1 fun _ => rfl)

/-! ### When the resumption comes -/

theorem State.resumesNow_of_resumes {s : State} {m f seq : Nat} {step : Option Nat} (h : Resumes s m f seq step) : s.resumesNow m = true := by
  obtain ⟨t, hr, ht⟩ := h.asked
  obtain ⟨hf, -, hp⟩ := h.frozen
  have he : (s.moor m).earliest s.now = s.now := by
    rw [Mooring.earliest_eq hf h.written, hp]
    rfl
  simp [State.resumesNow, hr, ht, he, h.free]

theorem exec_preemptedTaskResume {s : State} {m f seq : Nat} {step : Option Nat} (h : Resumes s m f seq step) :
    ∃ t, exec (.preemptedTaskResume m) s = .next (if s.recordsOk m then s.resumeTask m ⟨seq, step, t⟩
      else (s.updMoor m fun k => { k with resuming := none }).complete 0x84 m seq []) := by
  obtain ⟨t, hr, -⟩ := h.asked
  refine ⟨t, ?_⟩
  show execPreemptedTaskResume m s = _
  unfold execPreemptedTaskResume
  rw [if_pos h.mooring, hr]
  simp only [State.resumesNow_of_resumes h, if_true]

/-- What a resumption leaves, from the state in which its cores have gone on. -/
theorem State.endResume_running {s u v : State} {m f seq : Nat} (h : Resumes s m f seq none) (hu : Moved s u m (s.now - f))
    (hmo : v.moorings = u.moorings) :
    let t := v.endResume m (s.begunCores m) seq
    t.cores = v.cores ∧ t.mem = v.mem ∧ doneEntry m seq ∈ t.compl ∧ t.moor m = { (s.moor m).shift (s.now - f) with heldRows := [] }.goesOn := by
  have hk : v.moor m = { (s.moor m).shift (s.now - f) with heldRows := [] } := (State.moor_of_moorings hmo m).trans hu.moor
  have hb : ∀ l ∈ (v.moor m).launched, l.begun = true := by
    rw [hk]
    intro l hl
    obtain ⟨l, hl', rfl⟩ := List.mem_map.1 hl
    exact h.begun l hl'
  obtain ⟨ec, em, ecl, emo⟩ := State.endResume_fields h.mooring hb (s.begunCores m) seq
  exact ⟨ec, em, by rw [ecl]; simp, emo.trans (congrArg _ hk)⟩

/-! ### A task stopped between two nodes -/

theorem vector_getD_fin {α : Type} {n : Nat} (v : Vector α n) (i : Fin n) (d : α) : v.getD i d = v[i] := by
  simp [Vector.getD, Array.getD]

theorem nodeStopped_resumes {s : State} {m f seq : Nat} (h : Resumes s m f seq none) (hst : (s.moor m).st = .nodeStopped)
    (hnd : ((s.moor m).savedH.map (·.1)).Nodup) :
    ∃ t, exec (.preemptedTaskResume m) s = .next t ∧ (t.moor m).st = .running ∧ (t.moor m).frozen = none ∧ (t.moor m).resuming = none
      ∧ doneEntry m seq ∈ t.compl ∧ (t.moor m).started = (s.moor m).started + (s.now - f) ∧ (t.moor m).nodeAt = (s.moor m).nodeAt + (s.now - f)
      ∧ (t.moor m).node = (s.moor m).node ∧ t.mem = s.mem
      ∧ (∀ c ∈ s.taskCores m, (t.core c).prim = { (s.core c).prim.shift (s.now - f) with frozen := none })
      ∧ ∀ x ∈ (s.moor m).savedH, (t.core x.1).h = restoredH x.2 (s.core x.1).h := by
  have ht := h.canon.cores
  obtain ⟨w, he⟩ := exec_preemptedTaskResume h
  have hok : s.recordsOk m = true := by simp [State.recordsOk, hst]
  rw [if_pos hok, State.resumeTask_eq h.normal h.frozen.1, if_neg (by rw [hst]; decide)] at he
  have hu := State.movedTask_moved ht h.mooring f
  generalize s.movedTask m f = u at he hu
  have hk := State.sameRest_thaw (s.begunCores m) u
  obtain ⟨ec, em, ed, emo⟩ := State.endResume_running h hu hk.moorings
  have st := stepsCores_thaw s.now
  refine ⟨_, he, by rw [emo]; rfl, by rw [emo]; rfl, by rw [emo]; rfl, ed, by rw [emo]; rfl, by rw [emo]; rfl, by rw [emo]; rfl,
    by rw [em, hk.mem, hu.mem], fun c hc => ?_, fun x hx => ?_⟩
  · have hb := State.mem_begunCores_of_taskCores hc
    rw [State.core_of_cores ec, st.core_self_id hu.now hu.tidy (State.nodup_begunCores ht m) hb]
    exact congrArg (fun x : SeqState => { x with frozen := none }) (hu.prim c hb)
  · rw [State.core_of_cores ec, st.core_keeps Core.h (fun _ _ => rfl) x.1 hu.now hu.tidy, hu.savedH hnd x hx]

/-! ### A parked task -/

/-- A running core goes on from its record, whose VALID is cleared. -/
theorem State.restoreCore_running {s : State} (ht : Tidy Core.init s.cores) {m c : Nat} (hr : (s.core c).prim.run = .running) :
    (∃ l, ((s.restoreCore m c).core c).prim = { (s.readRecord c .primary).restore (s.core c).prim s.now with lamps := l })
      ∧ (s.restoreCore m c).mem = s.mem.write (s.recAt c .primary + 0xB) [0] ∧ (s.restoreCore m c).now = s.now
      ∧ (s.restoreCore m c).compl = s.compl ∧ (s.restoreCore m c).moorings = s.moorings ∧ Tidy Core.init (s.restoreCore m c).cores
      ∧ ∀ d, d ≠ c → (s.restoreCore m c).core d = s.core d := by
  unfold State.restoreCore
  rw [if_neg (fun h => h hr)]
  simp only [State.updSeq_primary]
  generalize hg : s.updCore c (fun k => { k with prim := (s.readRecord c .primary).restore k.prim s.now }) = u
  have uc : ∀ d, u.core d = if d = c then _ else s.core d := fun d => by rw [← hg]; exact State.core_updCore ht c d _
  have ut : Tidy Core.init u.cores := by rw [← hg]; exact State.tidy_updCore ht c _
  generalize u.lampsOf (.pins m) c = lam
  generalize hw : u.updCore c (fun k => { k with prim := { k.prim with lamps := lam k.prim.lampSrc } }) = w
  have wc : ∀ d, w.core d = if d = c then _ else u.core d := fun d => by rw [← hw]; exact State.core_updCore ut c d _
  have wt : Tidy Core.init w.cores := by rw [← hw]; exact State.tidy_updCore ut c _
  have wr : w.recAt c .primary = s.recAt c .primary := by
    unfold State.recAt
    rw [wc, if_pos rfl, uc, if_pos rfl]
  have hs : ∀ d, (w.clearValid c .primary).core d = w.core d := fun d => rfl
  have wm : w.mem = s.mem := by rw [← hw, ← hg]; rfl
  have wf : w.now = s.now ∧ w.compl = s.compl ∧ w.moorings = s.moorings := by rw [← hw, ← hg]; exact ⟨rfl, rfl, rfl⟩
  refine ⟨⟨lam ((s.readRecord c .primary).restore (s.core c).prim s.now).lampSrc, ?_⟩, ?_, wf.1, wf.2.1, wf.2.2, wt, fun d hd => ?_⟩
  · rw [hs, wc, if_pos rfl, uc, if_pos rfl]
  · rw [← wr, ← wm]; rfl
  · rw [hs, wc, if_neg hd, uc, if_neg hd]

/-- Cores that have issued `DONE` take nothing from their records. -/
theorem foldl_restoreCore_done (m : Nat) : ∀ {l : List Nat} {s : State}, Tidy Core.init s.cores → (∀ d ∈ l, (s.core d).prim.run ≠ .running) →
    l.foldl (fun t c => t.restoreCore m c) s = l.foldl State.thaw s
  | [], _, _, _ => rfl
  | c :: l, s, ht, hl => by
    have hc : s.restoreCore m c = s.thaw c := if_pos (hl c (by simp))
    have st := (stepsCores_thaw s.now).step rfl ht c
    rw [List.foldl_cons, List.foldl_cons, hc]
    refine foldl_restoreCore_done m st.1 fun d hd => ?_
    have hr := hl d (by simp [hd])
    rw [st.2]
    split
    · subst d; exact hr
    · exact hr

/-- Of the started cores only c runs: c alone takes its state from its record. -/
theorem foldl_restoreCore {u : State} (ht : Tidy Core.init u.cores) (m : Nat) {c : Nat} {l : List Nat} (hc : c ∈ l) (hd : l.Nodup)
    (hr : (u.core c).prim.run = .running) (ho : ∀ d ∈ l, d ≠ c → (u.core d).prim.run ≠ .running) :
    let v := l.foldl (fun t c => t.restoreCore m c) u
    (∃ lamps, (v.core c).prim = { (u.readRecord c .primary).restore (u.core c).prim u.now with lamps := lamps })
      ∧ v.mem = u.mem.write (u.recAt c .primary + 0xB) [0] ∧ v.compl = u.compl ∧ v.moorings = u.moorings := by
  obtain ⟨l1, l2, rfl⟩ := List.append_of_mem hc
  have hne : (∀ d ∈ l1, d ≠ c) ∧ ∀ d ∈ l2, d ≠ c := by
    rw [List.nodup_append] at hd
    exact ⟨fun d h e => hd.2.2 d h c (by simp) e, fun d h e => (List.nodup_cons.1 hd.2.1).1 (e ▸ h)⟩
  have stay : ∀ (l : List Nat) (s : State), Tidy Core.init s.cores → (∀ d ∈ l, d ≠ c) → (l.foldl State.thaw s).core c = s.core c :=
    fun l s hs hl => (stepsCores_thaw s.now).core_other rfl hs fun h => hl c (by simpa using h) rfl
  simp only [List.foldl_append, List.foldl_cons]
  rw [foldl_restoreCore_done m ht fun d h => ho d (by simp [h]) (hne.1 d h)]
  generalize hw : l1.foldl State.thaw u = w
  have hwu : u.SameRest w := hw ▸ State.sameRest_thaw l1 u
  have wcore : w.core c = u.core c := hw ▸ stay l1 u ht hne.1
  have wt : Tidy Core.init w.cores := hw ▸ (stepsCores_thaw u.now).tidy rfl ht
  have wrun : ∀ d, (w.core d).prim.run = (u.core d).prim.run := fun d =>
    hw ▸ (stepsCores_thaw u.now).core_keeps (fun k => k.prim.run) (fun _ _ => rfl) d rfl ht
  have wrec : w.recAt c .primary = u.recAt c .primary := by unfold State.recAt; rw [wcore]
  obtain ⟨⟨lamps, hp⟩, hm, -, hcl, hmo, hti, hoth⟩ := State.restoreCore_running (m := m) wt (wcore ▸ hr)
  have hrr : w.readRecord c .primary = u.readRecord c .primary := by unfold State.readRecord State.bytes; rw [wrec, hwu.mem]
  rw [foldl_restoreCore_done m hti fun d h => by
    rw [hoth d (hne.2 d h), wrun]
    exact ho d (by simp [h]) (hne.2 d h)]
  have hk := State.sameRest_thaw l2 (w.restoreCore m c)
  refine ⟨⟨lamps, ?_⟩, ?_, hk.compl.trans (hcl.trans hwu.compl), hk.moorings.trans (hmo.trans hwu.moorings)⟩
  · rw [stay l2 _ hti hne.2, hp, hrr, wcore, hwu.now]
  · rw [hk.mem, hm, wrec, hwu.mem]

theorem parked_resumes {s : State} {m f seq c : Nat} (h : Resumes s m f seq none) (hst : (s.moor m).st = .parked) (hc : s.taskCores m = [c])
    (hok : (s.readRecord c .primary).ok = true) :
    ∃ t, exec (.preemptedTaskResume m) s = .next t ∧ (t.moor m).st = .running ∧ (t.moor m).frozen = none ∧ doneEntry m seq ∈ t.compl
      ∧ t.mem = s.mem.write (s.recAt c .primary + 0xB) [0]
      ∧ ∃ x lamps, (t.core c).prim = { (s.readRecord c .primary).restore x s.now with lamps := lamps } := by
  have ht := h.canon.cores
  obtain ⟨w, he⟩ := exec_preemptedTaskResume h
  have hrec : s.recordsOk m = true := by simp [State.recordsOk, hc, hok]
  rw [if_pos hrec, State.resumeTask_eq h.normal h.frozen.1, if_pos hst] at he
  have hu := State.movedTask_moved ht h.mooring f
  generalize s.movedTask m f = u at he hu
  have hct : c ∈ s.taskCores m := by rw [hc]; simp
  have hcb := State.mem_begunCores_of_taskCores hct
  have hrun : ∀ d ∈ s.begunCores m, (u.core d).prim.run = (s.core d).prim.run := fun d hd => by rw [hu.prim d hd]; rfl
  have hrec : u.recAt c .primary = s.recAt c .primary := by unfold State.recAt; rw [hu.ctxbase]
  have hrr : u.readRecord c .primary = s.readRecord c .primary := by unfold State.readRecord State.bytes; rw [hrec, hu.mem]
  have ho : ∀ d ∈ s.begunCores m, d ≠ c → (u.core d).prim.run ≠ .running := fun d hd hne hr => by
    have := State.mem_taskCores_of_begun h.begun hd ((hrun d hd).symm.trans hr)
    rw [hc, List.mem_singleton] at this
    exact hne this
  obtain ⟨⟨lamps, hp⟩, hm, hcl, hmo⟩ :=
    foldl_restoreCore hu.tidy m hcb (State.nodup_begunCores ht m) ((hrun c hcb).trans (State.mem_taskCores.1 hct).1) ho
  obtain ⟨ec, em, ed, emo⟩ := State.endResume_running h hu hmo
  refine ⟨_, he, by rw [emo]; rfl, by rw [emo]; rfl, ed, ?_, (u.core c).prim, lamps, ?_⟩
  · rw [em, hm, hrec, hu.mem]
  · rw [State.core_of_cores ec, hp, hrr, hu.now]

/-- A register that a record holds. -/
theorem Rec.regs_val (r : Rec) {n : Nat} (lo : Nat) (i : Fin n) :
    ((r.regs n lo).getD i Reg.zero).val.toNat = r.num (0x200 + 8 * (lo + i)) 8 := by
  rw [vector_getD_fin]
  simp only [Rec.regs, Fin.getElem_fin, Vector.getElem_ofFn, Rec.reg, BitVec.toNat_ofNat]
  exact Nat.mod_eq_of_lt (r.num_lt _ _)

/-- An M register that a record holds: its sounding is not kept (R62). -/
theorem Rec.regs_val_m (r : Rec) {n : Nat} (lo : Nat) (i : Fin n) :
    (((r.regs n lo).map fun x => { x with snd := 63 }).getD i Reg.zero).val.toNat = r.num (0x200 + 8 * (lo + i)) 8 := by
  rw [← r.regs_val lo i, vector_getD_fin, vector_getD_fin]
  simp

theorem tasksResume : Spec.TasksResume := by
  refine ⟨?_, ?_, ?_⟩
  · intro s m f seq h hst _ hnd
    obtain ⟨t, he, h1, h2, h3, h4, h5, h6, h7, h8, hp, hh⟩ := nodeStopped_resumes h hst hnd
    refine ⟨t, he, h1, h2, h3, h4, h5, h6, h7, h8, fun c hc => ?_, fun x hx i => ?_⟩
    · rw [hp c hc]
      exact ⟨(State.mem_taskCores.1 hc).1, rfl, rfl, rfl, rfl, rfl⟩
    · rw [hh x hx, vector_getD_fin]
      simp [restoredH]
  · intro s m f seq c a r h hst hc ha hr hok
    subst ha hr
    obtain ⟨t, he, h1, h2, h3, hm, x, lamps, hp⟩ := parked_resumes h hst hc hok
    refine ⟨t, he, h1, h2, h3, writes_of_mem h.canon.mem hm, ?_⟩
    rw [hp]
    generalize s.readRecord c .primary = r
    refine ⟨rfl, rfl, BitVec.toNat_ofNat _ _, rfl, rfl, BitVec.toNat_ofNat _ _, ?_, fun i => ⟨?_, ?_, ?_⟩, fun i => ?_⟩
    · exact (BitVec.toNat_ofNat _ _).trans (Nat.mod_eq_of_lt (Nat.lt_trans (r.num_lt _ _) (by decide)))
    · exact (r.regs_val 0 i).trans (by rw [Nat.zero_add])
    · exact (r.regs_val 32 i).trans (congrArg (r.num · 8) (by omega))
    · exact (r.regs_val_m 64 i).trans (congrArg (r.num · 8) (by omega))
    · exact (r.regs_val 96 i).trans (congrArg (r.num · 8) (by omega))
  · intro s m f seq c r step h hst hc hr hbad
    obtain ⟨w, he⟩ := exec_preemptedTaskResume h
    have hrec : s.recordsOk m = false := by
      simp only [State.recordsOk, hst, bne_self_eq_false, Bool.false_or, List.all_eq_false]
      exact ⟨c, hc, by rw [hr, hbad]; decide⟩
    rw [hrec, if_neg Bool.false_ne_true] at he
    have hk : ((s.updMoor m fun k => { k with resuming := none }).complete 0x84 m seq []).moor m = { s.moor m with resuming := none } :=
      State.moor_updMoor h.mooring s fun k => { k with resuming := none }
    exact ⟨_, he, by rw [hk]; exact hst, by rw [hk], rfl, rfl, rfl⟩

end Sys2Proof.Machine
end

section
/-! SUPPORT. A forced pre-emption lands (O46, R56, R306, R325): the causes at the landing cores, the park, the sweeps; and O46 itself. -/

namespace Sys2Proof.Machine
open Config Sys2Proof.Spec

/-! ### Where a forced pre-emption lands (R56, R58) -/

/-- A request lands where the task runs and has nothing outstanding, at the cores that stand at a marked iteration. -/
theorem State.mem_landingAt {s : State} {m c : Nat} : c ∈ s.landingAt m ↔
    ((s.moor m).preempt ≠ [] ∧ (s.moor m).st = .running ∧ s.eligible m = true) ∧ c ∈ s.taskCores m ∧ (s.core c).prim.atPre = true
      ∧ (s.core c).prim.frozen = none ∧ (s.core c).prim.nextAt ≤ s.now ∧ (s.core c).prim.hold = .none := by
  unfold State.landingAt
  simp only [List.isEmpty_eq_false_iff]
  split
  · have hh : ∀ h : Hold, (match h with | .none => true | _ => false) = true ↔ h = .none := fun h => by cases h <;> simp
    rename_i hg
    simp only [List.mem_filter, Bool.and_eq_true, decide_eq_true_eq, Option.isNone_iff_eq_none, and_assoc]
    constructor
    · rintro ⟨h1, h2, h3, h4, h5⟩
      exact ⟨hg.1, hg.2.1, hg.2.2, h1, h2, h3, h4, (hh _).1 h5⟩
    · rintro ⟨-, -, -, h1, h2, h3, h4, h5⟩
      exact ⟨h1, h2, h3, h4, (hh _).2 h5⟩
  · rename_i hg
    exact ⟨fun h => (List.not_mem_nil h).elim, fun h => absurd h.1 hg⟩

theorem State.nodup_landingAt {s : State} (ht : Tidy Core.init s.cores) (m : Nat) : (s.landingAt m).Nodup := by
  unfold State.landingAt
  simp only
  split
  · exact ((State.nodup_coreIds ht).filter _).filter _
  · exact List.nodup_nil

/-- A core at which a forced pre-emption lands records CAUSE 0x14 at its last bundle (R306). -/
def SeqState.landed (x : SeqState) : SeqState := x.cause ⟨0x14, none, 0, true⟩ x.lastPc

/-- The landing at one core, with its fault record. -/
def State.landAt (m task : Nat) (t : State) (c : Nat) : State :=
  (t.updSeq c .primary SeqState.landed).faultRecord m task c 0x14 true 0 ((t.core c).prim.lastPc.setWidth 64) (t.core c).engst

theorem stepsCores_landAt (m task n : Nat) : StepsCores n id (fun _ k => { k with prim := k.prim.landed }) (State.landAt m task) :=
  fun t c hn => by
    obtain ⟨h1, h2, -⟩ := State.faultRecord_fields (t.updSeq c .primary SeqState.landed) m task c 0x14 true 0
      ((t.core c).prim.lastPc.setWidth 64) (t.core c).engst
    exact ⟨h1.trans hn, h2⟩

theorem State.landAt_moorings (m task : Nat) (t : State) (c : Nat) : (t.landAt m task c).moorings = t.moorings :=
  (State.faultRecord_fields _ _ _ _ _ _ _ _ _).2.2

/-- All landings of one cycle: a core's course stays, and a core at which the request lands holds its cause. -/
theorem State.foldl_landAt {s : State} (ht : Tidy Core.init s.cores) (m task : Nat) :
    let u := (s.landingAt m).foldl (State.landAt m task) s
    u.now = s.now ∧ u.moorings = s.moorings ∧ Tidy Core.init u.cores
      ∧ (∀ c, (u.core c).prim.run = (s.core c).prim.run ∧ (u.core c).prim.pc = (s.core c).prim.pc
        ∧ (u.core c).prim.nextAt = (s.core c).prim.nextAt ∧ (u.core c).prim.queue = (s.core c).prim.queue)
      ∧ ∀ c ∈ s.landingAt m, (u.core c).prim = (s.core c).prim.landed := by
  have st := stepsCores_landAt m task s.now
  refine ⟨st.now rfl, foldl_keeps State.moorings (State.landAt_moorings m task) _ s, st.tidy rfl ht, fun c => ?_, fun c hc => ?_⟩
  · simpa only [Prod.mk.injEq] using st.core_keeps (fun k : Core => (k.prim.run, k.prim.pc, k.prim.nextAt, k.prim.queue)) (fun _ _ => rfl) c
      (l := s.landingAt m) rfl ht
  · rw [st.core_self_id rfl ht (State.nodup_landingAt ht m) hc]

theorem trapRegs_landed (x : SeqState) : TrapRegs x.landed x.lastPc 0x14 0 0 false where
  xpc := by
    show (x.lastPc.setWidth 64).toNat = _
    rw [BitVec.toNat_setWidth]
    exact Nat.mod_eq_of_lt (Nat.lt_trans x.lastPc.isLt (by decide))
  xcause := (by decide : (xcauseWord ⟨0x14, none, 0, true⟩).toNat = 0 + 0x14)
  xinfo := rfl

theorem exec_forcedPreemptionLanding_next {s : State} {m : Nat} (hm : m < nMoorings) (hl : s.landingAt m ≠ []) :
    exec (.forcedPreemptionLanding m) s = .next ((s.begunCores m).foldl State.stopSweep
      (((s.landingAt m).foldl (State.landAt m (s.moor m).task) s).parkTask m s.now true)) := by
  show execForcedPreemptionLanding m s = _
  unfold execForcedPreemptionLanding
  simp only [if_pos hm, List.isEmpty_iff, if_neg hl]
  rfl

theorem exec_forcedPreemptionLanding_none {s : State} {m : Nat} (hm : m < nMoorings) (hl : s.landingAt m = []) :
    exec (.forcedPreemptionLanding m) s = .next s := by
  show execForcedPreemptionLanding m s = _
  unfold execForcedPreemptionLanding
  simp only [if_pos hm, hl, List.isEmpty_nil, if_true]

/-! ### Parking (R313, R325) -/

theorem State.sameTasks_cleanNow (s : State) (ch : Nat) : s.SameTasks (s.cleanNow ch) := by
  unfold State.cleanNow
  simp only
  split <;> exact ⟨⟨rfl, rfl, rfl, rfl⟩, rfl⟩

/-- Timelines that are held change neither the cycle nor entries, cores or the requests that wait. -/
theorem State.holdTls_fields {m : Nat} (hm : m < nMoorings) (s : State) : (s.holdTls m).now = s.now ∧ (s.holdTls m).compl = s.compl
    ∧ (s.holdTls m).cores = s.cores ∧ ((s.holdTls m).moor m).preempt = (s.moor m).preempt := by
  unfold State.holdTls
  refine List.foldlRecOn (motive := fun t : State => t.now = s.now ∧ t.compl = s.compl ∧ t.cores = s.cores
    ∧ (t.moor m).preempt = (s.moor m).preempt) _ _ ⟨rfl, rfl, rfl, rfl⟩ fun t ⟨h1, h2, h3, h4⟩ e _ => ?_
  have step : ∀ (rows : Mooring → List (Nat × Nat × Bank)) (u : State), (t.updMoor m fun k => { k with heldRows := rows k }).SameTasks u →
      u.now = s.now ∧ u.compl = s.compl ∧ u.cores = s.cores ∧ (u.moor m).preempt = (s.moor m).preempt := fun rows u hu =>
    ⟨hu.now.trans h1, hu.compl.trans h2, hu.cores.trans h3, by rw [hu.moor, State.moor_updMoor hm]; exact h4⟩
  simp only
  split
  · exact step _ _ ⟨⟨rfl, rfl, rfl, rfl⟩, rfl⟩
  · exact step _ _ ((State.sameTasks_updChan _ _ _).trans (State.sameTasks_cleanNow _ _))

/-- The stop of one core of a parked task. -/
def State.parkStep (f : Nat) (late : Bool) (t : State) (c : Nat) : State :=
  if (t.core c).prim.run == .running then t.parkCore c f late else t.parkDone c f

/-- A core that stands still from cycle f on after a forced pre-emption of cycle n: its record is written from the next cycle on. -/
def Core.parkedLate (n f c : Nat) (k : Core) : Core :=
  if k.prim.run == .running then
    { k with
      prim := { k.prim with frozen := some f, flags := 0 }, dirty := 0
      recwr := k.recordWrites (spadBase + c * spadBytes + k.ctxbase.toNat + recOff .primary) f (n + 1) }
  else { k with prim := { k.prim with frozen := some f } }

theorem stepsCores_parkStep (n f : Nat) : StepsCores n id (Core.parkedLate n f) (State.parkStep f true) := fun t c hn => by
  subst hn
  unfold State.parkStep Core.parkedLate State.updCore
  simp only [id]
  split <;> exact ⟨rfl, rfl⟩

theorem Core.parkedLate_prim (n f c : Nat) {k : Core} (hr : k.prim.run = .running) :
    (k.parkedLate n f c).prim = { k.prim with frozen := some f, flags := 0 } := by
  simp [Core.parkedLate, hr]

theorem le_maxOf {l : List Nat} {x : Nat} (h : x ∈ l) : x ≤ maxOf l := by
  have key : ∀ (l : List Nat) (a : Nat), a ≤ l.foldl Nat.max a ∧ ∀ x ∈ l, x ≤ l.foldl Nat.max a := by
    intro l
    induction l with
    | nil => intro a; simp
    | cons b l ih =>
      intro a
      obtain ⟨h1, h2⟩ := ih (Nat.max a b)
      refine ⟨Nat.le_trans (Nat.le_max_left a b) h1, fun x hx => ?_⟩
      rcases List.mem_cons.1 hx with rfl | hx
      · exact Nat.le_trans (Nat.le_max_right a x) h1
      · exact h2 x hx
  exact (key l 0).2 x h

/-- VALID of a record is written last, after the cycle before that of the first piece (R325). -/
theorem Core.lt_recordEnd_parkedLate (n f c : Nat) {k : Core} (hr : k.prim.run = .running) : n < (k.parkedLate n f c).recordEnd := by
  have hw : (k.parkedLate n f c).recwr = k.recordWrites (spadBase + c * spadBytes + k.ctxbase.toNat + recOff .primary) f (n + 1) := by
    simp [Core.parkedLate, hr]
  unfold Core.recordEnd
  rw [hw]
  unfold Core.recordWrites
  simp only [List.map_append, List.map_cons, List.map_nil]
  refine Nat.lt_of_lt_of_le ?_ (le_maxOf (List.mem_append_right _ (List.mem_singleton_self _)))
  omega

/-- The cores of a task are parked, each once. -/
theorem State.foldl_parkStep {s u : State} (ht : Tidy Core.init s.cores) (hn : u.now = s.now) (hc : u.cores = s.cores) (m f : Nat) :
    let v := (s.begunCores m).foldl (State.parkStep f true) u
    u.SameRest v ∧ Tidy Core.init v.cores ∧ ∀ c ∈ s.begunCores m, v.core c = (s.core c).parkedLate s.now f c := by
  have st := stepsCores_parkStep s.now f
  have ut : Tidy Core.init u.cores := hc ▸ ht
  refine ⟨.foldl (fun t c => ?_) _ u, st.tidy hn ut, fun c hcm => ?_⟩
  · unfold State.parkStep
    split <;> exact ⟨rfl, rfl, rfl, rfl⟩
  · rw [st.core_self_id hn ut (State.nodup_begunCores ht m) hcm, State.core_of_cores hc]

/-- The mooring of a task that a forced pre-emption parks, with the cycle in which VALID is written. -/
def Mooring.parkedLate (f n : Nat) (k : Mooring) : Mooring := { k with st := .parked, frozen := some f, forced := true, vwrite := some n }

/-- What a forced pre-emption leaves of a task with a running core: the task is parked, VALID is still to come, its requests are served. -/
theorem State.parkTask_forced {s : State} (ht : Tidy Core.init s.cores) {m : Nat} (hm : m < nMoorings) (f : Nat) :
    let t := s.parkTask m f true
    (∃ n, (t.moor m).st = .parked ∧ (t.moor m).frozen = some f ∧ (t.moor m).forced = true ∧ (t.moor m).preempt = []
        ∧ (t.moor m).vwrite = some n ∧ ∀ c ∈ s.begunCores m, (s.core c).prim.run = .running → s.now < n)
      ∧ (∀ q ∈ (s.moor m).preempt, doneEntry m q ∈ t.compl) ∧ t.now = s.now ∧ Tidy Core.init t.cores
      ∧ ∀ c ∈ s.begunCores m, t.core c = (s.core c).parkedLate s.now f c := by
  generalize hu : (if (s.moor m).loose then s else s.holdTls m).unhold (s.begunCores m) = u
  obtain ⟨un, -, uc, up⟩ : u.now = s.now ∧ u.compl = s.compl ∧ u.cores = s.cores ∧ (u.moor m).preempt = (s.moor m).preempt := by
    rw [← hu]
    split
    · exact ⟨rfl, rfl, rfl, rfl⟩
    · exact State.holdTls_fields hm s
  obtain ⟨hk, vt, vcore⟩ := State.foldl_parkStep ht un uc m f
  generalize hv : (s.begunCores m).foldl (State.parkStep f true) u = v at hk vt vcore
  have he : s.parkTask m f true = (v.updMoor m (Mooring.parkedLate f (maxOf ((s.begunCores m).map fun c => (v.core c).recordEnd)))).servePreempt m := by
    rw [← hv, ← hu]; rfl
  obtain ⟨pc, pm, pn, pcs⟩ := State.servePreempt_fields hm
    (v.updMoor m (Mooring.parkedLate f (maxOf ((s.begunCores m).map fun c => (v.core c).recordEnd))))
  rw [State.moor_updMoor hm] at pc pm
  simp only
  rw [he, pm, pc, pn]
  refine ⟨⟨_, rfl, rfl, rfl, rfl, rfl, fun c hc hr => ?_⟩, fun q hq => ?_, hk.now.trans un, pcs ▸ vt, fun c hc => ?_⟩
  · refine Nat.lt_of_lt_of_le (Core.lt_recordEnd_parkedLate s.now f c hr) (le_maxOf (List.mem_map.2 ⟨c, hc, ?_⟩))
    rw [vcore c hc]
  · refine List.mem_append_right _ (List.mem_map.2 ⟨q, ?_, rfl⟩)
    show q ∈ (v.moor m).preempt
    rw [hk.moor, up]
    exact hq
  · exact (State.core_of_cores pcs c).trans (vcore c hc)

/-! ### The landing -/

theorem stepsCores_stopSweep (n : Nat) : StepsCores n id (fun _ k => { k with mesh := { k.mesh with
    sweep := k.mesh.sweep.map fun w => if w.next < w.b.elims then { w with stopping := true } else w } }) State.stopSweep :=
  fun _ _ hn => ⟨hn, rfl⟩

theorem State.sameRest_stopSweep (cs : List Nat) (s : State) : s.SameRest (cs.foldl State.stopSweep s) :=
  .foldl (F := State.stopSweep) (fun _ _ => ⟨rfl, rfl, rfl, rfl⟩) cs s

/-- A core of the task, still running after the landings, stands still with its course as it was. -/
theorem State.foldl_stopSweep_prim {u v : State} {n f c : Nat} (vt : Tidy Core.init v.cores) (hr : (u.core c).prim.run = .running)
    (hv : v.core c = (u.core c).parkedLate n f c) (cs : List Nat) :
    ((cs.foldl State.stopSweep v).core c).prim = { (u.core c).prim with frozen := some f, flags := 0 } := by
  rw [(stepsCores_stopSweep v.now).core_keeps Core.prim (fun _ _ => rfl) c rfl vt, hv, Core.parkedLate_prim _ _ _ hr]

theorem forcedPreemptionsLand : Spec.ForcedPreemptionsLand := by
  constructor
  · intro s m hs hm hst hpre hel ⟨c0, hc0, hat0, hfz0, hnx0, hh0⟩
    have hgate := And.intro hpre (And.intro hst hel)
    have hc0l : c0 ∈ s.landingAt m := State.mem_landingAt.2 ⟨hgate, hc0, hat0, hfz0, hnx0, hh0⟩
    rw [exec_forcedPreemptionLanding_next hm (List.ne_nil_of_mem hc0l)]
    obtain ⟨un, umo, ut, ukeeps, uland⟩ := State.foldl_landAt hs.cores m (s.moor m).task
    generalize (s.landingAt m).foldl (State.landAt m (s.moor m).task) s = u at un umo ut ukeeps uland
    have hmoor : u.moor m = s.moor m := State.moor_of_moorings umo m
    have urun : ∀ c ∈ s.taskCores m, (u.core c).prim.run = .running := fun c hc => (ukeeps c).1.trans (State.mem_taskCores.1 hc).1
    have ubegun : ∀ c ∈ s.taskCores m, c ∈ u.begunCores m := fun c hc =>
      State.mem_begunCores_of_taskCores (State.mem_taskCores.2 ⟨urun c hc, hmoor ▸ (State.mem_taskCores.1 hc).2⟩)
    obtain ⟨⟨n, h1, h2, h3, h4, h5, h6⟩, hcompl, -, vt, hv⟩ := State.parkTask_forced ut hm s.now
    generalize u.parkTask m s.now true = v at h1 h2 h3 h4 h5 h6 hcompl vt hv
    have hw := State.sameRest_stopSweep (s.begunCores m) v
    have wprim := fun c (hc : c ∈ s.taskCores m) => State.foldl_stopSweep_prim vt (urun c hc) (hv c (ubegun c hc)) (s.begunCores m)
    refine ⟨_, n, rfl, by rw [hw.moor]; exact h1, by rw [hw.moor]; exact h2, by rw [hw.moor]; exact h3, by rw [hw.moor]; exact h4,
      by rw [hw.moor]; exact h5, un ▸ h6 c0 (ubegun c0 hc0) (urun c0 hc0), fun q hq => ?_, fun c hc => ?_, fun c hc hat hfz hnx hh => ?_⟩
    · rw [hw.compl]
      exact hcompl q (hmoor ▸ hq)
    · rw [wprim c hc]
      exact ⟨rfl, (ukeeps c).2⟩
    · rw [wprim c hc, uland c (State.mem_landingAt.2 ⟨hgate, hc, hat, hfz, hnx, hh⟩)]
      obtain ⟨hxpc, hcause, hinfo⟩ := trapRegs_landed (s.core c).prim
      exact ⟨hxpc, hcause, hinfo⟩
  · intro s m hm h
    refine exec_forcedPreemptionLanding_none hm (List.eq_nil_iff_forall_not_mem.2 fun c hc => ?_)
    obtain ⟨⟨hpre, hst, hel⟩, -⟩ := State.mem_landingAt.1 hc
    rcases h with h | h | h
    · exact hpre h
    · exact h hst
    · rw [h] at hel; cases hel

/-- Settles O46: a landing, a resumption, the end of requests, and the streamer, each from the lemmas about its event. -/
theorem preemptionAndResumption : Obligations.PreemptionAndResumption :=
  ⟨forcedPreemptionsLand, tasksResume, parkedRequestsEnd, streamerWrites⟩

end Sys2Proof.Machine
end

section
/-! SUPPORT. What taking a trap and what a fault without a bundle leave: the work that stands, the trap registers, the fate of the task. -/

namespace Sys2Proof.Machine
open Config Sys2Proof.Spec

/-! ### Cores and sequencers after an update -/

theorem State.core_updCore_of_ne {s : State} {c : Nat} {f : Core → Core} (h : f (s.core c) ≠ Core.init) :
    (s.updCore c f).core c = f (s.core c) := State.core_setCore h _ _

/-- A sequencer that an update brings out of its reset state reads as the update says. -/
theorem State.seq_updSeq_of_ne {s : State} {c : Nat} {q : Seq} {f : SeqState → SeqState} (h : f (s.seq c q) ≠ SeqState.init) :
    (s.updSeq c q f).seq c q = f (s.seq c q) := by
  unfold State.updSeq State.setSeq
  rw [State.seq, State.core_setCore (Core.ne_init_of_seq (q := q) (by rwa [Core.seq_setSeq])), Core.seq_setSeq]

theorem State.seq_updSeq {s : State} (ht : Tidy Core.init s.cores) (c : Nat) (q : Seq) (f : SeqState → SeqState) :
    (s.updSeq c q f).seq c q = f (s.seq c q) := by
  unfold State.updSeq State.setSeq State.setCore
  rw [State.seq, State.core, sget_sset_self ht, Core.seq_setSeq]

theorem State.updSeq_eq_updCore (s : State) (c : Nat) (q : Seq) (f : SeqState → SeqState) :
    s.updSeq c q f = s.updCore c fun k => k.setSeq q (f (k.seq q)) := rfl

theorem State.cur_updCur_of_ne {s : State} {f : SeqState → SeqState} (h : f s.cur ≠ SeqState.init) : (s.updCur f).cur = f s.cur :=
  State.seq_updSeq_of_ne h

theorem State.seq_of_cores {s t : State} (h : t.cores = s.cores) (c : Nat) (q : Seq) : t.seq c q = s.seq c q := by
  rw [State.seq, State.core_of_cores h, State.seq]

theorem State.moorOf_of_moorings {s t : State} (h : t.moorings = s.moorings) (c : Nat) : t.moorOf c = s.moorOf c := by
  simp only [State.moorOf, h]

theorem ownerGo_lt {ms : Vector Mooring 12} {g m : Nat} : ∀ {fuel i : Nat}, ownerGo ms g fuel i = some m → m < i + fuel
  | 0, _, h => by cases h
  | fuel + 1, i, h => by
    simp only [ownerGo] at h
    split at h
    · cases h; omega
    · have := ownerGo_lt h
      omega

/-- The mooring that owns a core is one of the twelve. -/
theorem State.moorOf_lt {s : State} {c m : Nat} (h : s.moorOf c = some m) : m < nMoorings := by
  have : nMoorings = 12 := rfl
  have := ownerGo_lt h
  omega

/-! ### The work that a trap leaves -/

/-- Two states with the same clock, memory, accesses, holds, commands and channels, in the same event. -/
structure State.SameWork (s t : State) : Prop where
  now : t.now = s.now
  mem : t.mem = s.mem
  poison : t.poison = s.poison
  accesses : t.accesses = s.accesses
  holds : t.holds = s.holds
  cmds : t.cmds = s.cmds
  channels : t.channels = s.channels
  nextId : t.nextId = s.nextId
  ctx : t.ctx = s.ctx
  agenda : t.agenda = s.agenda

namespace State.SameWork

theorem trans {s t u : State} (h : s.SameWork t) (k : t.SameWork u) : s.SameWork u :=
  ⟨k.now.trans h.now, k.mem.trans h.mem, k.poison.trans h.poison, k.accesses.trans h.accesses, k.holds.trans h.holds, k.cmds.trans h.cmds,
    k.channels.trans h.channels, k.nextId.trans h.nextId, k.ctx.trans h.ctx, k.agenda.trans h.agenda⟩

theorem foldl {β : Type} {F : State → β → State} (h : ∀ (t : State) (b : β), t.SameWork (F t b)) :
    ∀ (l : List β) (s : State), s.SameWork (l.foldl F s)
  | [], _ => ⟨rfl, rfl, rfl, rfl, rfl, rfl, rfl, rfl, rfl, rfl⟩
  | b :: l, s => (h s b).trans (foldl h l (F s b))

end State.SameWork

theorem State.sameWork_refl (s : State) : s.SameWork s := ⟨rfl, rfl, rfl, rfl, rfl, rfl, rfl, rfl, rfl, rfl⟩
theorem State.sameWork_updCore (s : State) (c : Nat) (f : Core → Core) : s.SameWork (s.updCore c f) :=
  ⟨rfl, rfl, rfl, rfl, rfl, rfl, rfl, rfl, rfl, rfl⟩
theorem State.sameWork_updSeq (s : State) (c : Nat) (q : Seq) (f : SeqState → SeqState) : s.SameWork (s.updSeq c q f) :=
  ⟨rfl, rfl, rfl, rfl, rfl, rfl, rfl, rfl, rfl, rfl⟩
theorem State.sameWork_updMoor (s : State) (m : Nat) (f : Mooring → Mooring) : s.SameWork (s.updMoor m f) :=
  ⟨rfl, rfl, rfl, rfl, rfl, rfl, rfl, rfl, rfl, rfl⟩

theorem State.sameWork_faultRecord (s : State) (m task c cause : Nat) (p : Bool) (i x e : Word) :
    s.SameWork (s.faultRecord m task c cause p i x e) := by
  unfold State.faultRecord
  split <;> exact ⟨rfl, rfl, rfl, rfl, rfl, rfl, rfl, rfl, rfl, rfl⟩

theorem State.sameWork_beginDiscard (s : State) (m code : Nat) : s.SameWork (s.beginDiscard m code) := by
  unfold State.beginDiscard
  split
  any_goals exact s.sameWork_updMoor m _
  exact s.sameWork_refl

theorem State.faultRecord_trapped (s : State) (m task c cause : Nat) (p : Bool) (i x e : Word) :
    (s.faultRecord m task c cause p i x e).trapped = s.trapped := by
  unfold State.faultRecord
  split <;> rfl

theorem State.beginDiscard_trapped (s : State) (m code : Nat) : (s.beginDiscard m code).trapped = s.trapped := by
  unfold State.beginDiscard
  split <;> rfl

theorem State.beginDiscard_cores (s : State) (m code : Nat) : (s.beginDiscard m code).cores = s.cores := by
  unfold State.beginDiscard
  split <;> rfl

theorem State.beginDiscard_compl (s : State) (m code : Nat) : (s.beginDiscard m code).compl = s.compl := by
  unfold State.beginDiscard
  split <;> rfl

/-- A task that stands is to be discarded eight cycles after this one (R319). -/
theorem State.beginDiscard_st {s : State} {m : Nat} (hm : m < nMoorings) (code : Nat)
    (h : (s.moor m).st ∈ [TaskSt.running, .parking, .parked, .nodeStopped]) : ((s.beginDiscard m code).moor m).st = .ending (s.now + 8) := by
  unfold State.beginDiscard
  split
  any_goals rw [State.moor_updMoor hm]
  simp_all

/-- A discard that has begun stays as it is. -/
theorem State.beginDiscard_of_ending {s : State} {m d : Nat} (code : Nat) (h : (s.moor m).st = .ending d) : s.beginDiscard m code = s := by
  unfold State.beginDiscard
  rw [h]

/-! ### Taking a trap (R306 to R310) -/

theorem State.sameWork_takeTrapAt (s : State) (c : Nat) (q : Seq) (t : Trap) (xpc : Addr) (k : Option Nat) :
    s.SameWork (s.takeTrapAt c q t xpc k) := by
  have h0 : s.SameWork { s.updSeq c q fun x => x.cause t xpc with trapped := some t } := ⟨rfl, rfl, rfl, rfl, rfl, rfl, rfl, rfl, rfl, rfl⟩
  unfold State.takeTrapAt
  cases q with
  | secondary => exact (h0.trans (State.sameWork_updSeq _ _ _ _)).trans (State.sameWork_faultRecord _ _ _ _ _ _ _ _ _)
  | primary =>
    simp only
    split
    · exact h0.trans (State.sameWork_updSeq _ _ _ _)
    · split
      · exact ((h0.trans (State.sameWork_updSeq _ _ _ _)).trans (State.sameWork_updMoor _ _ _)).trans (State.sameWork_faultRecord _ _ _ _ _ _ _ _ _)
      · exact (((h0.trans (State.sameWork_updSeq _ _ _ _)).trans (State.sameWork_updCore _ _ _)).trans
          (State.sameWork_faultRecord _ _ _ _ _ _ _ _ _)).trans (State.sameWork_beginDiscard _ _ _)

theorem State.takeTrapAt_trapped (s : State) (c : Nat) (q : Seq) (t : Trap) (xpc : Addr) (k : Option Nat) :
    (s.takeTrapAt c q t xpc k).trapped = some t := by
  unfold State.takeTrapAt
  cases q with
  | secondary => exact State.faultRecord_trapped _ _ _ _ _ _ _ _ _
  | primary =>
    simp only
    split
    · rfl
    · split
      · exact State.faultRecord_trapped _ _ _ _ _ _ _ _ _
      · rw [State.beginDiscard_trapped, State.faultRecord_trapped]
        rfl

/-- The trap of a secondary stream leaves the moorings alone. -/
theorem State.takeTrapAt_moorings_secondary (s : State) (c : Nat) (t : Trap) (xpc : Addr) (k : Option Nat) :
    (s.takeTrapAt c .secondary t xpc k).moorings = s.moorings := (State.faultRecord_fields _ _ _ _ _ _ _ _ _).2.2

/-- A cause that is not 0 leaves `XCAUSE` other than at reset. -/
theorem SeqState.ne_init_of_xcause {x : SeqState} (h : x.xcause ≠ 0) : x ≠ SeqState.init := by
  rintro rfl
  exact h rfl

/-- What becomes of a sequencer after its trap registers are written (R310): it stops, or goes on to the end of the cycle in which its task parks. -/
def State.trapTurn (s : State) (c : Nat) (q : Seq) (t : Trap) (k : Option Nat) (x : SeqState) : SeqState :=
  match q, s.moorOf c with
  | .secondary, _ => { x with run := .parked, restK := k }
  | .primary, none => { x with run := .ended }
  | .primary, some m =>
    if (s.moor m).loose || t.cause == 0x13 then { x with restK := k, frozen := if t.cause = 0x10 then some s.now else x.frozen }
    else { x with run := .ended, restK := k, recorded := true }

/-- Only whether the sequencer runs, and what its record needs, may have changed. -/
theorem State.trapTurn_eq (s : State) (c : Nat) (q : Seq) (t : Trap) (k : Option Nat) (x : SeqState) :
    ∃ r k' f b, s.trapTurn c q t k x = { x with run := r, restK := k', frozen := f, recorded := b } := by
  unfold State.trapTurn
  split
  · exact ⟨.parked, k, x.frozen, x.recorded, rfl⟩
  · exact ⟨.ended, x.restK, x.frozen, x.recorded, rfl⟩
  · split
    · exact ⟨x.run, k, _, x.recorded, rfl⟩
    · exact ⟨.ended, k, x.frozen, true, rfl⟩

/-- Cores that only an update behind the sequencers has changed. -/
theorem State.seq_recordNow {s : State} (c stop : Nat) : (s.recordNow c stop).seq c .primary = s.seq c .primary := by
  unfold State.recordNow
  rw [State.seq, State.core_updCore_of_ne]
  · rfl
  · intro h
    cases congrArg Core.recwr h

theorem State.seq_takeTrapAt {s : State} {c : Nat} {q : Seq} {t : Trap} {xpc : Addr} {k : Option Nat} (hx : xcauseWord t ≠ 0) :
    (s.takeTrapAt c q t xpc k).seq c q = s.trapTurn c q t k ((s.seq c q).cause t xpc) := by
  have hne : ∀ {x : SeqState}, x.xcause = xcauseWord t → x ≠ SeqState.init := fun h => SeqState.ne_init_of_xcause (h ▸ hx)
  have h1 : ({ s.updSeq c q fun x => x.cause t xpc with trapped := some t } : State).seq c q = (s.seq c q).cause t xpc :=
    (State.seq_of_cores (s := s.updSeq c q fun x => x.cause t xpc) rfl c q).trans (State.seq_updSeq_of_ne (hne rfl))
  -- An update that keeps `XCAUSE` leaves the sequencer readable.
  have h2 : ∀ f : SeqState → SeqState, (∀ x, (f x).xcause = x.xcause) →
      (({ s.updSeq c q fun x => x.cause t xpc with trapped := some t } : State).updSeq c q f).seq c q = f ((s.seq c q).cause t xpc) :=
    fun f hf => by rw [State.seq_updSeq_of_ne (by rw [h1]; exact hne (hf _)), h1]
  unfold State.takeTrapAt State.trapTurn
  cases q with
  | secondary =>
    rw [State.seq_of_cores (State.faultRecord_fields _ _ _ _ _ _ _ _ _).2.1]
    exact h2 _ fun _ => rfl
  | primary =>
    simp only
    cases s.moorOf c with
    | none => exact h2 _ fun _ => rfl
    | some m =>
      simp only
      split
      · rw [State.seq_of_cores (State.faultRecord_fields _ _ _ _ _ _ _ _ _).2.1, State.seq_of_cores (State.updMoor_cores _ _ _)]
        exact h2 _ fun _ => rfl
      · rw [State.seq_of_cores (State.beginDiscard_cores _ _ _), State.seq_of_cores (State.faultRecord_fields _ _ _ _ _ _ _ _ _).2.1,
          State.seq_recordNow]
        exact h2 _ fun _ => rfl

/-- The task of a primary that traps parks at the end of the cycle, or is discarded (R310, R319). -/
theorem State.takeTrapAt_fate {s : State} {c m : Nat} (h : s.moorOf c = some m) (t : Trap) (xpc : Addr) (k : Option Nat) :
    Fate s (s.takeTrapAt c .primary t xpc k) m t.cause := by
  have hm := State.moorOf_lt h
  unfold Fate State.takeTrapAt
  simp only [h, Bool.or_eq_true, beq_iff_eq]
  split
  · rw [State.moor_of_moorings (State.faultRecord_fields _ _ _ _ _ _ _ _ _).2.2, State.moor_updMoor hm]
  · intro hst
    rw [State.beginDiscard_st hm, (State.sameWork_faultRecord _ _ _ _ _ _ _ _ _).now]
    · rfl
    · rw [State.moor_of_moorings (State.faultRecord_fields _ _ _ _ _ _ _ _ _).2.2]
      exact hst

/-- The trap registers hold what the trap wrote (R306, R307). -/
theorem SeqState.trapRegs_cause (x : SeqState) {t : Trap} (xpc : Addr) (hc : t.cause < 256) :
    TrapRegs (x.cause t xpc) xpc t.cause (t.slot.getD 0 % 8) t.info.toNat t.slot.isSome where
  xpc := by
    show (xpc.setWidth 64).toNat = _
    rw [BitVec.toNat_setWidth]
    exact Nat.mod_eq_of_lt (Nat.lt_trans xpc.isLt (by decide))
  xcause := by
    show (xcauseWord t).toNat = _
    unfold xcauseWord
    rw [BitVec.toNat_ofNat]
    cases t.slot with
    | none => simp; omega
    | some k => simp; omega
  xinfo := rfl

theorem xcauseWord_ne_zero {t : Trap} (hc : t.cause < 256) (h0 : 0 < t.cause) : xcauseWord t ≠ 0 := by
  intro e
  have h1 : (xcauseWord t).toNat = _ := (SeqState.init.trapRegs_cause 0 hc).xcause
  rw [e] at h1
  change 0 = _ at h1
  omega

theorem State.trapRegs_takeTrapAt {s : State} {c : Nat} {q : Seq} {t : Trap} {xpc : Addr} {k : Option Nat} (hc : t.cause < 256)
    (h0 : 0 < t.cause) : TrapRegs ((s.takeTrapAt c q t xpc k).seq c q) xpc t.cause (t.slot.getD 0 % 8) t.info.toNat t.slot.isSome := by
  have hr := (s.seq c q).trapRegs_cause xpc hc
  rw [State.seq_takeTrapAt (xcauseWord_ne_zero hc h0)]
  obtain ⟨r, k', f, b, h⟩ := s.trapTurn_eq c q t k ((s.seq c q).cause t xpc)
  rw [h]
  exact ⟨hr.xpc, hr.xcause, hr.xinfo⟩

end Sys2Proof.Machine
end

section
/-! SUPPORT. Slot C: `SYSRD` and the registers of O19 and O20, the clock along a step (R52), what a hold, a branch, a loop and an end leave when they
issue. -/

namespace Sys2Proof.Machine
open Config Spec

/-! ### Syllables that trap -/

theorem lowest_cons_of_le {t : Trap} {l : List Trap} (h : ∀ u ∈ l, t.cause ≤ u.cause) : lowest (t :: l) = some t := by
  have hmem : ∀ {l : List Trap} {u : Trap}, lowest l = some u → u ∈ l := by
    intro l
    induction l with
    | nil => intro u hu; cases hu
    | cons a l ih =>
      intro u hu
      simp only [lowest] at hu
      cases hl : lowest l with
      | none => simp_all
      | some b =>
        rw [hl] at hu
        simp only at hu
        split at hu <;> cases hu
        · exact List.mem_cons_of_mem _ (ih hl)
        · exact List.mem_cons_self
  simp only [lowest]
  cases hl : lowest l with
  | none => rfl
  | some u =>
    simp only
    rw [if_neg (Nat.not_lt.2 (h u (hmem hl)))]

theorem mem_of_mem_trapIf {c : Bool} {t u : Trap} (h : u ∈ trapIf c t) : u ∈ [t] := by
  cases c
  · cases h
  · exact h

/-- A syllable that does not wait takes the lowest of its causes. -/
theorem State.issue_of_trap {s : State} {r : Req0} {go : State → State} {t : Trap} (hw : s.mustWait r = false)
    (ht : lowest (s.reqTraps r) = some t) : s.issue r go = .next (s.raise t) := by
  simp [State.issue, hw, ht]

/-! ### System registers -/

@[simp] theorem State.holding_now (s : State) (sl : Slot) (n : Nat) : (s.holding sl n).now = s.now := by rw [State.holding_eq]

/-- A clear `SYSRD` leaves its value in flight. -/
theorem exec_sysrd {s : State} {d : Fin 32} {n : Fin 128} (hc : s.clear .c 1 [] [⟨⟨.h, d.val⟩, 2⟩]) :
    exec (.sysrd d n) s = .next ((s.holding .c 1).push
      (inFlight s 2 (.reg ⟨.h, d.val⟩ ⟨s.sysValue s.ctx.core s.ctx.q n.val, 63, false⟩))) := by
  change execSysrd d n s = _
  unfold execSysrd
  rw [State.issue_of_clear hc rfl fun _ => rfl, State.result, State.holding_now]
  rfl

theorem sysReads_of_value {s : State} {n : Nat} {v : Word} (h : s.sysValue s.ctx.core s.ctx.q n = v) : SysReads s n v := by
  rintro d k rfl hc
  rw [exec_sysrd hc, h]

/-- Settles O19: `SYSRD` delivers what the stack, outermost level first, holds at the register's level. -/
theorem loopIndexRegisters : Obligations.LoopIndexRegisters := by
  intro s k hk
  refine sysReads_of_value ?_
  have hv : s.sysValue s.ctx.core s.ctx.q (0x12 + k) = BitVec.ofNat 64 (s.cur.loopIndex k) := by
    unfold State.sysValue
    simp (disch := omega) only [if_neg, if_pos, Nat.add_sub_cancel_left]
    rfl
  rw [hv]
  congr 1
  unfold SeqState.loopIndex
  split
  · rename_i h
    simp [List.getElem?_reverse h, List.getD]
    cases s.cur.loops[s.cur.loops.length - 1 - k]? <;> rfl
  · rename_i h
    simp [List.getElem?_eq_none (l := s.cur.loops.reverse) (by simpa using h)]

/-! ### The clock along a step (R52) -/

theorem State.taskFault_now (s : State) (m : Nat) (i : Word) : (s.taskFault m i).now = s.now :=
  ((s.sameWork_faultRecord _ _ _ _ _ _ _ _).trans (State.sameWork_beginDiscard _ m 0)).now

theorem State.moorFault_now (s : State) (m : Nat) (i : Word) : (s.moorFault m i).now = s.now := by
  unfold State.moorFault
  split
  · rfl
  · exact s.taskFault_now m i

theorem State.nodePush_now (s : State) (m : Nat) : (s.nodePush m).now = s.now := by
  unfold State.nodePush
  simp only
  split
  · rfl
  · split
    · rfl
    · exact s.moorFault_now m _

theorem State.tlPush_now (s : State) (ch : Nat) (t : Tl) : (s.tlPush ch t).now = s.now := by
  unfold State.tlPush
  split
  · rfl
  · exact (State.moorFault_now _ _ _).trans ((State.sameTasks_cleanNow _ ch).now)

theorem State.enterTimelines_now (s : State) : s.enterTimelines.now = s.now := by
  unfold State.enterTimelines
  split
  · rfl
  · refine foldl_keeps State.now (fun t e => foldl_keeps State.now (fun u l => ?_) _ t) _ s
    split
    · exact u.tlPush_now _ _
    · rfl

theorem State.enterChannels_now (s : State) : s.enterChannels.now = s.now := by
  unfold State.enterChannels
  split
  · rfl
  · exact State.enterTimelines_now _

theorem State.startDue_now (s : State) : s.startDue.now = s.now := by
  refine foldl_keeps State.now (fun t m => ?_) _ s
  have h : (t.startCores m).now = t.now := foldl_keeps State.now (by intros; rfl) _ t
  split
  any_goals exact h
  rfl

theorem State.timingFault_now (s : State) (c : Nat) (q : Seq) (code : Nat) (xpc : Addr) : (s.timingFault c q code xpc).now = s.now := by
  cases q with
  | secondary => rfl
  | primary => exact (s.sameWork_takeTrapAt _ _ _ _ _).now

theorem State.recordCause_now (s : State) (c : Nat) : (s.recordCause c).now = s.now := by
  unfold State.recordCause
  simp only
  split
  · rfl
  · rw [State.updCore_now, State.putClean_now]

theorem State.looseFault_now (s : State) (m c : Nat) (t : Trap) (xpc : Addr) : (s.looseFault m c t xpc).now = s.now := by
  have h := ((s.sameWork_updSeq c .primary fun x => x.cause t xpc).trans
    (State.sameWork_faultRecord _ m (s.moor m).task c t.cause true t.info (xpc.setWidth 64) (s.core c).engst)).now
  unfold State.looseFault
  simp only
  split
  · exact h
  · exact (State.recordCause_now _ c).trans h
  · exact (s.sameWork_takeTrapAt _ _ _ _ _).now

theorem State.coreFault_now (s : State) (c code : Nat) : (s.coreFault c code).now = s.now := by
  unfold State.coreFault
  split
  · simp only
    split
    · rfl
    · split
      · exact s.looseFault_now _ _ _ _
      · exact (((s.sameWork_updSeq c .primary _).trans (State.sameWork_faultRecord _ _ _ _ _ _ _ _ _)).trans
          (State.sameWork_beginDiscard _ _ _)).now
  · rfl

theorem State.leaveOpen_now (s : State) (c : Cmd) : (s.leaveOpen c).now = s.now := by
  unfold State.leaveOpen
  refine (foldl_keeps State.now (by intros; rfl) _ _).trans ?_
  split <;> rfl

theorem State.engineFault_now (s : State) (id code : Nat) : (s.engineFault id code).now = s.now := by
  unfold State.engineFault
  split
  · rfl
  · rename_i c _
    simp only
    split
    · rfl
    · have h : (if c.cls = .copy then s.leaveOpen c else s).now = s.now := by
        split
        · exact s.leaveOpen_now c
        · rfl
      generalize (if c.cls = .copy then s.leaveOpen c else s) = u at h
      split
      · exact (State.coreFault_now _ _ _).trans h
      · exact (State.timingFault_now _ _ _ _ _).trans h

theorem State.judgeBuffers_now (s : State) : s.judgeBuffers.now = s.now := by
  unfold State.judgeBuffers
  simp only
  split
  · rfl
  · exact (foldl_keeps State.now (by intros; rfl) _ _).trans (foldl_keeps State.now (fun t id => t.engineFault_now id 5) _ s)

theorem State.holdMarks_now (s : State) : s.holdMarks.now = s.now := by
  unfold State.holdMarks
  simp only
  split <;> rfl

theorem State.enterOutside_now (s : State) : s.enterOutside.now = s.now := by
  unfold State.enterOutside
  dsimp only
  exact s.startDue_now

theorem State.enterControl_now (s : State) : s.enterControl.now = s.now := by
  unfold State.enterControl
  exact foldl_keeps State.now State.nodePush_now _ _

/-- The next part of a cycle begins in the same cycle. -/
theorem State.enter_now (s : State) : s.enter.now = s.now := by
  unfold State.enter
  split
  · exact s.enterOutside_now
  split
  · rfl
  split
  · rfl
  split
  · exact s.enterControl_now
  split
  · exact s.holdMarks_now
  split
  · exact s.enterChannels_now
  split
  · exact s.judgeBuffers_now
  · rfl

/-- `CCNT` and every other register that is neither writable nor the secondary's own cannot be written: a protection fault (R83). -/
theorem exec_syswr_readOnly {s : State} {h : HRd} {n : Fin 128} (hc : s.clear .c 1 [h.ref] []) (hw : sysWritable s.ctx.q n.val = false) :
    exec (.syswr h n) s = .next (s.raise ⟨0x07, some 7, 0, false⟩) := by
  have hn : ¬(n.val = 2 ∨ n.val = 3 ∨ n.val = 4) := by
    rintro (h | h | h) <;> rw [h] at hw <;> cases hw
  change execSyswr h n s = _
  unfold execSyswr
  simp only [if_neg hn, hw, Bool.not_false, Bool.true_or, trapIf_true]
  refine State.issue_of_trap (State.not_mustWait hc fun _ => rfl) ?_
  rw [State.reqTraps_of_clear hc]
  refine lowest_cons_of_le fun u hu => ?_
  obtain rfl : u = .poison .c := by
    exact List.eq_of_mem_singleton (mem_of_mem_trapIf hu)
  decide

theorem step_of_cons {s : State} {e : Ev} {l : List Ev} (h : s.agenda = e :: l) : step s = runEvent e { s with agenda := l } := by
  unfold step
  rw [h]

theorem step_of_part {s : State} (ha : s.agenda = []) (hp : s.phase < lastPart) :
    step s = .next { s with phase := s.phase + 1 }.enter := by
  unfold step
  rw [ha]
  exact if_pos hp

theorem step_of_end {s : State} (ha : s.agenda = []) (hp : lastPart ≤ s.phase) : step s = .next s.tick := by
  unfold step
  rw [ha]
  exact if_neg (Nat.not_lt.2 hp)

/-- Settles O20: `CCNT` is the clock, which no part of a cycle changes and its end counts up. -/
theorem cycleCounter : Obligations.CycleCounter := by
  refine ⟨rfl, fun s => sysReads_of_value rfl, fun s t ha hp h => ?_, fun s ha hp => ⟨s.tick, step_of_end ha hp, rfl⟩,
    fun s h n hn hc => exec_syswr_readOnly hc ?_⟩
  · rw [step_of_part ha hp] at h
    cases h
    exact State.enter_now _
  · rw [hn]
    cases s.ctx.q <;> rfl

end Sys2Proof.Machine
end

section
/-! SUPPORT. Slot C: what branches, loops, holds, ends, `WATCH` and `XMOV` leave when they issue (O18, O22, O23, O24), and where the bundle after a
branch or a loop stands (O18). -/

namespace Sys2Proof.Machine
open Config Sys2Proof.Spec

/-! ### Two updates of one core -/

/-- A second write under a key takes the place of the first. -/
theorem sset_sset {α : Type} [DecidableEq α] {d x : α} (hx : x ≠ d) (y : α) (n : Nat) :
    ∀ l : List (Nat × α), sset d (sset d l n x) n y = sset d l n y
  | [] => by simp [sset, hx]
  | (k, v) :: l => by
    rcases Nat.lt_trichotomy n k with h | rfl | h
    · simp [sset, hx, h]
    · simp [sset, hx]
    · have h1 : ¬n < k := by omega
      have h2 : ¬n = k := by omega
      simp [sset, h1, h2, sset_sset hx y n l]

theorem State.setCore_setCore {k : Core} (hk : k ≠ Core.init) (s : State) (c : Nat) (k' : Core) : (s.setCore c k).setCore c k' = s.setCore c k' := by
  simp only [State.setCore, sset_sset hk]

theorem Core.setSeq_setSeq (k : Core) (q : Seq) (x y : SeqState) : (k.setSeq q x).setSeq q y = k.setSeq q y := by cases q <;> rfl

/-- Two updates of the issuing sequencer, of which the first brings it out of its reset state, are one. -/
theorem State.updCur_updCur {s : State} {f g : SeqState → SeqState} (hf : f s.cur ≠ SeqState.init) :
    (s.updCur f).updCur g = s.updCur fun x => g (f x) := by
  have hk : (s.kore.setSeq s.ctx.q (f s.cur)) ≠ Core.init := Core.ne_init_of_seq (q := s.ctx.q) (by rwa [Core.seq_setSeq])
  have hc : (s.updCur f).seq s.ctx.core s.ctx.q = f s.cur := State.seq_updSeq_of_ne hf
  have hd : (s.updCur f).core s.ctx.core = s.kore.setSeq s.ctx.q (f s.cur) := State.core_setCore hk _ _
  show (s.updCur f).setCore s.ctx.core (((s.updCur f).core s.ctx.core).setSeq s.ctx.q (g ((s.updCur f).seq s.ctx.core s.ctx.q))) = _
  rw [hc, hd, Core.setSeq_setSeq]
  exact State.setCore_setCore hk _ _ _

/-- A syllable of slot C that meets no cause of its own on sound registers changes its sequencer as its effect says. -/
theorem controls_of_ctl {i : Instr} {s : State} {reads : List RRef} {traps : List Trap} {go : State → State} {f : SeqState → SeqState}
    (he : exec i s = s.ctl reads traps go) (ht : s.sound reads → traps = []) (hg : go (s.holding .c 1) = (s.holding .c 1).updCur f) :
    Controls i s reads f := fun hc hs =>
  he.trans ((State.issue_of_clear hc (ht hs) fun _ => rfl).trans (congrArg _ hg))

/-! ### Branches (R82, R352) -/

theorem State.branchTraps_of_mayBranch {s : State} (h : mayBranch s) : s.branchTraps = [] := by
  obtain ⟨hd, hl⟩ := h
  unfold State.branchTraps
  rw [trapIf_eq_nil]
  simp only [hd, Bool.false_or, List.any_eq_false, Bool.or_eq_true, beq_iff_eq, not_or]
  exact hl

theorem State.target_eq (s : State) (off : Int) : s.target off = Spec.target s off := by
  unfold State.target Spec.target
  rw [BitVec.ofInt_add, BitVec.ofInt_natCast, BitVec.ofNat_toNat, BitVec.setWidth_eq]

theorem branchesIssue : Spec.BranchesIssue := by
  intro s hb
  have ht := State.branchTraps_of_mayBranch hb
  have hp : ∀ {h : HRd}, s.sound [h.ref] → s.branchTraps ++ s.poisonTraps .c [h.ref] = [] := fun hs => by
    rw [ht, State.poisonTraps_of_sound hs, List.append_nil]
  -- A branch without a write of its own changes the course of its sequencer.
  have hg : ∀ (taken taken' : Bool) (dest dest' : Addr), taken = taken' → dest = dest' →
      ((s.holding .c 1).updCur fun x => x.branchTo taken dest) = (s.holding .c 1).updCur (branches taken' dest' []) := by
    rintro taken - dest - rfl rfl
    congr 1
    funext x
    simp only [SeqState.branchTo, branches, List.append_nil]
  have hbs : ∀ (h : HRd) (n : Fin 64) (ge : Bool) (off : BitVec 11), exec (.bsnd h n ge off) s =
      s.ctl [h.ref] (s.branchTraps ++ s.poisonTraps .c [h.ref]) fun t =>
        t.updCur fun x => x.branchTo (decide ((s.rd h.ref).snd.toNat < n.val) != ge) (s.target off.toInt) := fun _ _ _ _ => rfl
  refine ⟨fun off => ?_, fun h off => ?_, fun h n off => ?_, fun h n off => ?_, fun off => ?_, ?_⟩
  · exact controls_of_ctl (go := fun t => t.updCur fun x => x.branchTo true (s.target off.toInt)) rfl (fun _ => ht)
      (hg _ _ _ _ rfl (s.target_eq _))
  · exact controls_of_ctl (go := fun t => t.updCur fun x => x.branchTo ((s.rd h.ref).val != 0) (s.target off.toInt)) rfl hp
      (hg _ _ _ _ (by simp [bne, beq_eq_decide]) (s.target_eq _))
  · exact controls_of_ctl (hbs h n false off) hp (hg _ _ _ _ (Bool.xor_false _) (s.target_eq _))
  · have hge : (decide ((s.rd h.ref).snd.toNat < n.val) != true) = decide (n.val ≤ (s.rd h.ref).snd.toNat) := by
      rw [Bool.bne_true, ← decide_not, decide_eq_decide, Nat.not_lt]
    exact controls_of_ctl (hbs h n true off) hp (hg _ _ _ _ hge (s.target_eq _))
  · -- `CALL` pushes its write of `LNK` before it branches.
    refine controls_of_ctl (go := fun t =>
      (t.effect 1 (.sys 0x0E (BitVec.ofNat 64 s.delayAddrs.2.2))).updCur fun x => x.branchTo true (s.target off.toInt)) rfl (fun _ => ht) ?_
    simp only [State.effect, State.push]
    rw [State.updCur_updCur fun h => by simpa [SeqState.init] using congrArg SeqState.queue h]
    congr 1
    funext x
    rw [State.holding_now, State.target_eq]
    rfl
  · exact controls_of_ctl (go := fun t => t.updCur fun x => x.branchTo true (s.cur.lnk.setWidth 56)) rfl (fun _ => ht) (hg _ _ _ _ rfl rfl)

/-- R48: the entries that a branch leaves on the stack hold its target, and are the outer ones. -/
theorem popOutside_spec (t : Addr) : ∀ l : List LoopEnt, (popOutside t l).IsSuffix l ∧ ∀ e ∈ (popOutside t l).head?, e.start ≤ t ∧ t ≤ e.stop
  | [] => ⟨List.suffix_refl _, by simp [popOutside]⟩
  | e :: l => by
    unfold popOutside
    split
    · rename_i h
      exact ⟨List.suffix_refl _, by simpa using h⟩
    · obtain ⟨h1, h2⟩ := popOutside_spec t l
      exact ⟨h1.trans (List.suffix_cons e l), h2⟩

/-- What the issue of its bundle makes of a sequencer (R32, R45, R82). -/
def State.moveOn (s : State) (x : SeqState) : SeqState :=
  { x with
    lastPc := s.ctx.pc, lastIssue := s.now, pc := x.skipTo.getD s.ctx.next, skipTo := none, nextAt := s.now + 1 + s.ctx.idle, pend := true,
    restK := none, watchdog := false, ownBr := false
    branch := if s.ctx.delayed then x.branch.map fun b => (b.1 - 1, b.2) else x.branch
    delay := if s.ctx.delayed then x.delay - 1 else x.delay }

theorem State.advance_eq (s : State) : s.advance = { s.updCur s.moveOn with ctx := { s.ctx with delayed := false } } := rfl

theorem State.advance_seq (s : State) : s.advance.seq s.ctx.core s.ctx.q = s.moveOn s.cur := by
  refine State.cur_updCur_of_ne (f := s.moveOn) fun h => ?_
  cases congrArg SeqState.pend h

/-- A syllable of slot C that does not wait takes the lowest of its own causes. -/
theorem State.ctl_of_trap {s : State} {reads : List RRef} {traps : List Trap} {go : State → State} {t : Trap} (hc : s.clear .c 1 reads [])
    (ht : lowest traps = some t) : s.ctl reads traps go = .next (s.raise t) :=
  State.issue_of_trap (State.not_mustWait hc fun _ => rfl) ((congrArg lowest (State.reqTraps_of_clear hc)).trans ht)

theorem branchesLand : Spec.BranchesLand := by
  refine ⟨fun x t hp hb => ?_, fun s n t hd hb hk => ?_, fun s off hq hd hc => ?_⟩
  · have hr : x.resolve = { x with pend := false, pc := t, branch := none, loops := popOutside t x.loops } := by
      unfold SeqState.resolve
      simp only [hp, if_true, hb]
    rw [hr]
    exact ⟨rfl, rfl, rfl, popOutside_spec t x.loops⟩
  · rw [State.advance_seq]
    simp only [State.moveOn, hd, if_true, hb, hk]
    exact ⟨rfl, rfl⟩
  · have he : exec (.br .always off) s = s.ctl [] s.branchTraps fun t => t.updCur fun x => x.branchTo true (s.target off.toInt) := rfl
    have ht : s.branchTraps = [.sched .c 7] := by
      unfold State.branchTraps
      simp only [hd, Bool.true_or, trapIf_true]
    rw [he]
    exact State.ctl_of_trap hc (congrArg lowest ht)

/-! ### Loops (R44, R45) -/

/-- What follows an address in a stream depends on no core. -/
theorem State.after_holding (s : State) (sl : Slot) (n c : Nat) (q : Seq) (va : Nat) : (s.holding sl n).after c q va = s.after c q va := by
  rw [State.holding_eq]
  rfl

/-- The stack and the way that a `LOOP` of a count leaves. -/
def State.loopTo (s : State) (count : Nat) (rev pre : Bool) (stop : Addr) (x : SeqState) : SeqState :=
  if count = 0 then { x with skipTo := some (BitVec.ofNat 56 (s.after s.ctx.core s.ctx.q stop.toNat)) }
  else { x with
    loops := ⟨s.ctx.next, stop, count, if rev then count - 1 else 0, rev, pre && decide (s.ctx.q = .primary)⟩ :: x.loops
    queue := x.queue ++ [inFlight s 1 (.push s.cur.loops.length)] }

/-- The effect of a `LOOP` of a count, on the state in which its unit is held. -/
def State.loopEffect (s : State) (count : Nat) (rev pre : Bool) (stop : Addr) (t : State) : State :=
  if count = 0 then t.updCur fun x => { x with skipTo := some (BitVec.ofNat 56 (t.after t.ctx.core t.ctx.q stop.toNat)) }
  else (t.updCur fun x => { x with
    loops := ⟨s.ctx.next, stop, count, if rev then count - 1 else 0, rev, pre && s.ctx.q == .primary⟩ :: x.loops }).effect 1
      (.push s.cur.loops.length)

theorem State.loopEffect_holding (s : State) (count : Nat) (rev pre : Bool) (stop : Addr) :
    s.loopEffect count rev pre stop (s.holding .c 1) = (s.holding .c 1).updCur (s.loopTo count rev pre stop) := by
  unfold State.loopEffect State.loopTo
  simp only [State.after_holding, State.holding_ctx]
  split
  · rfl
  · simp only [State.effect, State.push]
    rw [State.updCur_updCur fun h => by cases congrArg SeqState.loops h]
    congr 1
    funext x
    rw [State.updCur_now, State.holding_now]
    rfl

theorem loopsIssue : Spec.LoopsIssue := by
  intro s n rev pre endOff reads count stop hlen hdepth hend
  have hstop : s.ctx.pc + BitVec.ofNat 56 (2 * endOff.toNat) = stop := BitVec.eq_of_toNat_eq (by simp [stop, BitVec.toNat_add])
  have he : exec (.loop n rev pre endOff) s = s.ctl reads (trapIf (decide (endOff.toNat < s.ctx.len)) (.illegal .c)
      ++ trapIf (decide (6 ≤ s.cur.loops.length) || s.cur.loops.any fun e => e.stop == s.ctx.pc) (.sched .c 7)
      ++ s.poisonTraps .c reads) (s.loopEffect count rev pre (s.ctx.pc + BitVec.ofNat 56 (2 * endOff.toNat))) := by
    cases n <;> rfl
  rw [hstop] at he
  refine controls_of_ctl he (fun hs => ?_) (s.loopEffect_holding count rev pre stop)
  rw [State.poisonTraps_of_sound hs, List.append_nil, List.append_eq_nil_iff]
  simp only [trapIf_eq_nil, Bool.or_eq_false_iff, decide_eq_false_iff_not, List.any_eq_false, beq_iff_eq]
  exact ⟨by omega, by omega, hend⟩

theorem loopsStep : Spec.LoopsStep := by
  intro x e l p
  refine ⟨fun h => ?_, fun h hr hi => ?_, fun h hr hi => ?_, fun h hi => ?_⟩ <;> rw [SeqState.resolveLoops]
  · rw [if_pos h]
  · simp [h, hr, hi]
  · simp [h, hr, hi]
  · cases hr : e.rev <;> simp_all

/-- Settles O18: what each transfer leaves at its issue, and how the next bundle's place follows from it. -/
theorem branchesAndLoops : Obligations.BranchesAndLoops := ⟨⟨branchesIssue, loopsIssue⟩, branchesLand, loopsStep⟩

/-! ### Holds (R49, R249, R273, R317) -/

/-- No mask of a `SYNC` that is held in the cluster stands against a new one. -/
theorem State.otherMasks_eq_nil {s : State} {core : Nat} {mask : BitVec 16}
    (h : ∀ c, c / 16 = core / 16 → ∀ m t, (s.core c).prim.hold = .sync m t →
      m = mask ∨ (m.getLsbD (core % 16) = false ∧ (t = s.now → mask.getLsbD (c % 16) = false))) : s.otherMasks core mask = [] := by
  have h16 : coresPerCluster = 16 := rfl
  unfold State.otherMasks maskCores
  rw [List.filterMap_eq_nil_iff, h16]
  intro c hc
  obtain ⟨i, hi, rfl⟩ := List.mem_map.1 hc
  have hi : i < 16 := List.mem_range.1 (List.mem_filter.1 hi).1
  have hq : (core / 16 * 16 + i) / 16 = core / 16 := by omega
  cases hh : (s.core (core / 16 * 16 + i)).prim.hold with
  | sync m t =>
    simp only
    rw [if_neg]
    rintro ⟨hne, hmeet⟩
    rcases h _ hq m t hh with rfl | ⟨h1, h2⟩
    · exact hne rfl
    · simp only [h1, Bool.false_or, Bool.and_eq_true, beq_iff_eq] at hmeet
      exact Bool.false_ne_true ((h2 hmeet.1).symm.trans hmeet.2)
  | _ => rfl

/-- Settles O22: each hold, from the one rule for slot C. -/
theorem holdsIssue : Obligations.HoldsIssue := by
  refine ⟨fun s mask hq hm hall => ?_, fun s h limit => ?_, fun s sc => ?_,
    fun s => controls_of_ctl (go := fun t => t.updCur fun x => { x with hold := .tfence s.now s.ctx.idle }) rfl (fun _ => rfl) rfl⟩
  · have ho := State.otherMasks_eq_nil hall
    refine controls_of_ctl (go := fun t => match s.otherMasks s.ctx.core mask with
      | [] => t.updCur fun x => { x with hold := .sync mask s.now }
      | ms => (t.updCur fun x => { x with hold := .sync mask s.now }).faultAll
          (maskCores s.ctx.core (ms.foldl (fun a b => a ||| b) mask))) rfl (fun _ => ?_) ?_
    · have hp : s.secondaryProt .c = [] := by
        unfold State.secondaryProt
        rw [hq]
      have h16 : coresPerCluster = 16 := rfl
      rw [hp, List.nil_append, trapIf_eq_nil, h16, hm, Bool.not_true]
    · simp only [ho]
  · intro v ga hmulti hspace hown hal
    have hbad : (ga == 0xFFFFFFFF || bits ga 21 10 != 0 || (!(bit ga 31) && decide (spadBytes ≤ ga % 2 ^ 21))) = false := by
      have hga : ga < 2 ^ 32 := Nat.mod_lt _ (by decide)
      simp only [bit, bits, Bool.or_eq_false_iff, beq_eq_false_iff_ne, bne_eq_false_iff_eq, Bool.and_eq_false_iff, Bool.not_eq_false',
        beq_iff_eq, decide_eq_false_iff_not]
      refine ⟨⟨hmulti, hspace⟩, ?_⟩
      by_cases hlo : ga < 2 ^ 31
      · exact .inr (Nat.not_le.2 (hown hlo))
      · left; omega
    refine controls_of_ctl (go := fun t => t.updCur fun x => { x with
      hold := .waitg (BitVec.ofNat 32 ga) (BitVec.ofNat 32 (v / 2 ^ 32)) s.now (s.now + limit.toNat) s.ctx.idle }) rfl (fun hs => ?_) rfl
    rw [State.poisonTraps_of_sound hs, hbad, trapIf_false, List.nil_append, List.nil_append, trapIf_eq_nil, bne_eq_false_iff_eq]
    exact hal
  · exact controls_of_ctl (go := fun t => t.updCur fun x => { x with hold := .fence sc s.now s.ctx.idle }) rfl (fun _ => rfl) rfl

/-! ### Ends (R34, R317) -/

/-- The fate of a task is read from its mooring and the clock. -/
theorem fate_of_eq {s s' t : State} {m cause : Nat} (hm : s'.moor m = s.moor m) (hn : s'.now = s.now) (h : Fate s' t m cause) : Fate s t m cause := by
  unfold Fate at h ⊢
  rwa [hm, hn] at h

/-- A stop trap, once the bundle's unit is held: the bundle stands, and the next one is the resume point (R306, R317). -/
theorem State.stopsWith_stopTrap {s : State} {cause : Nat} {info : Word} (h0 : 0 < cause) (hc : cause < 256) :
    StopsWith s ((s.holding .c 1).stopTrap ⟨cause, some 7, info, true⟩) cause info.toNat := by
  generalize hu : (s.holding .c 1).advance = u
  have hctx : u.ctx.core = s.ctx.core ∧ u.ctx.q = s.ctx.q ∧ u.ctx.pc = s.ctx.pc := by
    subst hu
    rw [State.advance_eq, State.holding_ctx]
    exact ⟨rfl, rfl, rfl⟩
  have hw : u.now = s.now ∧ u.mem = s.mem ∧ u.accesses = s.accesses ∧ u.cmds = s.cmds ∧ u.moorings = s.moorings := by
    subst hu
    rw [State.advance_eq, State.holding_eq]
    exact ⟨rfl, rfl, rfl, rfl, rfl⟩
  have hcur : u.seq s.ctx.core s.ctx.q = (s.holding .c 1).moveOn s.cur := by
    subst hu
    have h := State.advance_seq (s.holding .c 1)
    rwa [State.holding_cur _ _ Nat.one_pos, State.holding_ctx] at h
  obtain ⟨hcore, hq, hpc⟩ := hctx
  obtain ⟨hnow, hmem, hacc, hcmds, hmoor⟩ := hw
  generalize ht : (⟨cause, some 7, info, true⟩ : Trap) = t
  have hstop : (s.holding .c 1).stopTrap t = u.takeTrapAt s.ctx.core s.ctx.q t s.ctx.pc none := by
    subst hu ht
    rw [← hcore, ← hq, ← hpc]
    rfl
  have hc' : t.cause < 256 := by rw [← ht]; exact hc
  have h0' : 0 < t.cause := by rw [← ht]; exact h0
  have hregs := State.trapRegs_takeTrapAt (s := u) (c := s.ctx.core) (q := s.ctx.q) (xpc := s.ctx.pc) (k := none) hc' h0'
  have hseq := State.seq_takeTrapAt (s := u) (c := s.ctx.core) (q := s.ctx.q) (xpc := s.ctx.pc) (k := none) (xcauseWord_ne_zero hc' h0')
  have hsame := u.sameWork_takeTrapAt s.ctx.core s.ctx.q t s.ctx.pc none
  have hown : u.moorOf s.ctx.core = s.moorOf s.ctx.core := State.moorOf_of_moorings hmoor _
  have htrap := u.takeTrapAt_trapped s.ctx.core s.ctx.q t s.ctx.pc none
  rw [hstop]
  generalize hv : u.takeTrapAt s.ctx.core s.ctx.q t s.ctx.pc none = v at *
  have hvcur : v.cur = v.seq s.ctx.core s.ctx.q := by rw [State.cur, hsame.ctx, hcore, hq]
  rw [hcur] at hseq
  obtain ⟨r, k, f, b, hturn⟩ := u.trapTurn_eq s.ctx.core s.ctx.q t none (((s.holding .c 1).moveOn s.cur).cause t s.ctx.pc)
  have hcur' := hvcur.trans (hseq.trans hturn)
  have hnext : (s.holding .c 1).now = s.now ∧ (s.holding .c 1).ctx = s.ctx := ⟨State.holding_now s .c 1, State.holding_ctx s .c 1⟩
  subst ht
  refine ⟨hvcur ▸ hregs, by rw [hcur']; rfl, hsame.accesses.trans hacc, hsame.cmds.trans hcmds, ?_, ?_, ?_, ?_⟩
  · rw [hcur']
    show s.cur.skipTo.getD (s.holding .c 1).ctx.next = _
    rw [hnext.2]
  · rw [hcur']
    show (s.holding .c 1).now + 1 + (s.holding .c 1).ctx.idle = _
    rw [hnext.1, hnext.2]
  · rw [htrap, BitVec.ofNat_toNat, BitVec.setWidth_eq]
  · cases hq' : s.ctx.q with
    | secondary =>
      rw [hq'] at hv hseq hvcur
      refine ⟨?_, ?_, hsame.mem.trans hmem⟩
      · rw [hvcur, hseq]
        rfl
      · rw [← hv, State.takeTrapAt_moorings_secondary, hmoor]
    | primary =>
      rw [hq'] at hv hseq hvcur
      cases ho : s.moorOf s.ctx.core with
      | none =>
        show v.cur.run = .ended
        rw [hvcur, hseq]
        unfold State.trapTurn
        rw [hown, ho]
      | some m =>
        refine ⟨fate_of_eq (State.moor_of_moorings hmoor m) hnow ?_, hsame.mem.trans hmem⟩
        rw [← hv]
        exact State.takeTrapAt_fate (hown.trans ho) _ _ _

/-- What `DONE` makes of its sequencer (R34, R362). -/
def SeqState.done (x : SeqState) : SeqState :=
  { x with run := .ended, loops := [], iters := Vector.replicate 8 none, branch := none, delay := 0 }

theorem State.doneCur {s : State} : (s.updCur SeqState.done).cur = s.cur.done :=
  State.cur_updCur_of_ne fun h => by cases congrArg SeqState.run h

/-- `BRK` stops its stream: in the secondary, and in the primary of a loose task (R317, R354). -/
def State.brkStops (s : State) : Bool :=
  match s.ctx.q with
  | .secondary => true
  | .primary => match s.moorOf s.ctx.core with
    | some m => (s.moor m).loose
    | none => false

theorem State.brkStops_iff {s : State} :
    s.brkStops = true ↔ s.ctx.q = .secondary ∨ ∃ m, s.moorOf s.ctx.core = some m ∧ (s.moor m).loose = true := by
  unfold State.brkStops
  cases s.ctx.q <;> cases s.moorOf s.ctx.core <;> simp

/-- Settles O24: `TRAP` and `BRK` are stop traps, and `DONE` is one update of its sequencer. -/
theorem endsIssue : Obligations.EndsIssue := by
  intro s hc
  have hi : ∀ {i : Instr} {go : State → State}, exec i s = s.ctl [] [] go → exec i s = .next (go (s.holding .c 1)) := fun he =>
    he.trans (State.issue_of_clear hc rfl fun _ => rfl)
  refine ⟨fun code => ?_, fun tag => ?_, ?_⟩
  · have he : exec (.trap code) s = s.ctl [] [] fun t => t.stopTrap ⟨0x11, some 7, code.setWidth 64, true⟩ := rfl
    have h := State.stopsWith_stopTrap (s := s) (cause := 0x11) (info := code.setWidth 64) (by decide) (by decide)
    rw [BitVec.toNat_setWidth_of_le (by decide)] at h
    exact ⟨_, hi he, h⟩
  · have he : exec (.brk tag) s = s.ctl [] [] fun t => if s.brkStops then t.stopTrap ⟨0x12, some 7, tag.setWidth 64, true⟩ else t := rfl
    have h := State.stopsWith_stopTrap (s := s) (cause := 0x12) (info := tag.setWidth 64) (by decide) (by decide)
    rw [BitVec.toNat_setWidth_of_le (by decide)] at h
    refine ⟨_, hi he, ?_⟩
    by_cases hb : s.brkStops = true
    · rw [if_pos (State.brkStops_iff.1 hb), if_pos hb]
      exact h
    · rw [if_neg fun h => hb (State.brkStops_iff.2 h), if_neg hb]
  · have he : exec .doneI s = s.ctl [] [] fun t => match s.ctx.q with
        | .primary => t.updCur SeqState.done
        | .secondary => (t.updCur SeqState.done).complete 0x83 0 0 (natBytes 2 s.ctx.core ++ natBytes 62 0) := rfl
    have hcur := State.doneCur (s := s.holding .c 1)
    rw [State.holding_cur _ _ Nat.one_pos] at hcur
    have hrest : (s.holding .c 1).accesses = s.accesses ∧ (s.holding .c 1).cmds = s.cmds ∧ (s.holding .c 1).moorings = s.moorings
        ∧ (s.holding .c 1).compl = s.compl := by
      rw [State.holding_eq]
      exact ⟨rfl, rfl, rfl, rfl⟩
    obtain ⟨hacc, hcmds, hmoor, hcompl⟩ := hrest
    refine ⟨_, hi he, ?_⟩
    have hiters : ∀ k < 8, s.cur.done.iters.getD k none = none := fun k hk => by simp [SeqState.done, Vector.getD, Array.getD]
    cases hq : s.ctx.q with
    | primary => 
      rw [hcur]
      exact ⟨rfl, rfl, hiters, rfl, rfl, hacc, hcmds, hmoor, hcompl⟩
    | secondary =>
      have hcur' : ((s.holding .c 1).updCur SeqState.done |>.complete 0x83 0 0 (natBytes 2 s.ctx.core ++ natBytes 62 0)).cur = s.cur.done := hcur
      rw [hcur']
      exact ⟨rfl, rfl, hiters, rfl, rfl, hacc, hcmds, hmoor, congrArg (· ++ _) hcompl⟩

/-! ### `WATCH` (R59, R298) and `XMOV` (R63, R159) -/

/-- The item that a core takes, and the queue that it leaves; nothing else changes. -/
theorem State.takeItem_fields (s : State) (c : Nat) :
    (s.takeItem c).2.cores = s.cores ∧ (s.takeItem c).2.now = s.now ∧ (s.takeItem c).2.mem = s.mem ∧ (s.takeItem c).2.ctx = s.ctx
      ∧ match s.moorOf c with
        | none => (s.takeItem c).1 = nullItem ∧ (s.takeItem c).2.moorings = s.moorings
        | some m => (s.takeItem c).1 = (s.moor m).watchq.head?.getD nullItem
            ∧ (m < nMoorings → ((s.takeItem c).2.moor m).watchq = (s.moor m).watchq.tail) := by
  unfold State.takeItem
  cases s.moorOf c with
  | none => exact ⟨rfl, rfl, rfl, rfl, rfl, rfl⟩
  | some m =>
    simp only
    cases hq : (s.moor m).watchq with
    | nil => exact ⟨rfl, rfl, rfl, rfl, rfl, fun _ => by rw [hq]; rfl⟩
    | cons i l => exact ⟨rfl, rfl, rfl, rfl, rfl, fun hm => by rw [State.moor_updMoor hm]; rfl⟩

theorem watchTakesItem : Spec.WatchTakesItem := by
  intro s hq hc hlen
  have he : exec .watch s = s.ctl [] (s.secondaryProt .c ++ trapIf (decide (4 ≤ (s.cur.queue.filter fun e => e.eff.isWatch).length)) (.sched .c 9))
      fun t => ((t.takeItem s.ctx.core).2.effect 24 (.watch s.cur.wcnt.toNat (t.takeItem s.ctx.core).1)).updCur
        fun x => { x with wcnt := x.wcnt + 1 } := rfl
  have hno : s.secondaryProt .c ++ trapIf (decide (4 ≤ (s.cur.queue.filter fun e => e.eff.isWatch).length)) (.sched .c 9) = [] := by
    unfold State.secondaryProt
    simp only [hq, List.nil_append, trapIf_eq_nil, decide_eq_false_iff_not]
    omega
  refine ⟨_, he.trans (State.issue_of_clear hc hno fun _ => rfl), ?_⟩
  obtain ⟨hcores, hnow, hmem, hctx, hitem⟩ := (s.holding .c 1).takeItem_fields s.ctx.core
  have hmoor : (s.holding .c 1).moorings = s.moorings := by rw [State.holding_eq]
  rw [State.moorOf_of_moorings hmoor] at hitem
  generalize (s.holding .c 1).takeItem s.ctx.core = p at *
  have hcur : p.2.cur = s.cur := by
    rw [State.cur, State.seq_of_cores hcores, hctx]
    exact State.holding_cur s .c Nat.one_pos
  have hnew : ((p.2.effect 24 (.watch s.cur.wcnt.toNat p.1)).updCur fun x => { x with wcnt := x.wcnt + 1 }).cur =
      { s.cur with queue := s.cur.queue ++ [inFlight s 24 (.watch s.cur.wcnt.toNat p.1)], wcnt := s.cur.wcnt + 1 } := by
    rw [State.cur_updCur_of_ne]
    all_goals rw [State.effect, State.push_cur, hcur, hnow, State.holding_now]
    · rfl
    · intro h
      simpa [SeqState.init] using congrArg SeqState.queue h
  refine ⟨?_, ?_, ?_⟩
  · exact hmem.trans (by rw [State.holding_eq])
  · exact hnow.trans (State.holding_now s .c 1)
  · cases hm : s.moorOf s.ctx.core with
    | none =>
      rw [hm] at hitem
      obtain ⟨hnull, hsame⟩ := hitem
      rw [hnew, hnull]
      exact ⟨hsame.trans hmoor, rfl⟩
    | some m =>
      rw [hm] at hitem
      obtain ⟨hhead, htail⟩ := hitem
      rw [State.moor_of_moorings hmoor] at hhead htail
      rw [hnew, hhead]
      exact ⟨htail, rfl⟩

/-- A clear syllable with one effect to come leaves it in flight. -/
theorem State.issue_effect {s : State} {sl : Slot} {n : Nat} {reads : List RRef} {writes : List WriteAt} (hc : s.clear sl n reads writes)
    (lat : Nat) (e : QEff) :
    s.issue ⟨sl, n, reads, writes, [], false⟩ (fun t => t.effect lat e) = .next ((s.holding sl n).push (inFlight s lat e)) := by
  rw [State.issue_of_clear hc rfl fun _ => rfl, State.effect, State.holding_now]
  rfl

theorem File.vw_eq_none {fl : File} (h : fl ∉ [File.v, .w]) : File.vw fl = none := by
  cases fl with
  | v => exact absurd (by decide) h
  | w => exact absurd (by decide) h
  | _ => rfl

theorem File.vw_file (f : VW) : File.vw f.file = some f := by cases f <;> rfl

theorem movesBetweenFiles : Spec.MovesBetweenFiles := by
  refine ⟨?_, ?_, ?_, ?_⟩
  · intro s df sf d r hd hs dst src hc
    change execXmov df d sf r s = _
    unfold execXmov
    simp only [File.vw_eq_none hd, File.vw_eq_none hs]
    exact State.issue_effect hc 2 _
  · intro s df sf d r hd n dst hc
    change execXmov df d sf.file r s = _
    unfold execXmov
    simp only [File.vw_file, File.vw_eq_none hd]
    exact State.issue_effect hc (n + 1) _
  · intro s df sf d r hs n src hc
    change execXmov df.file d sf r s = _
    unfold execXmov
    simp only [File.vw_file, File.vw_eq_none hs]
    exact State.issue_effect hc (n + 1) _
  · intro s df sf d r n hc
    change execXmov df.file d sf.file r s = _
    unfold execXmov
    simp only [File.vw_file]
    exact State.issue_effect hc (n + 1) _

/-- Settles O23: `WATCH` takes its item before its effect waits; each form of `XMOV` is one effect in flight. -/
theorem watchAndMoves : Obligations.WatchAndMoves := ⟨watchTakesItem, movesBetweenFiles⟩

end Sys2Proof.Machine
end

section
/-! SUPPORT. Fetching a bundle (R85 to R96, R209): what its header, its syllables and its place are, what a failed check raises, and the step that
issues its syllables (O29, O30, O31). -/

namespace Sys2Proof.Machine
open Config Sys2Proof.Spec

/-! ### The step to the next bundle keeps the results in flight -/

theorem SeqState.setReg_queue (x : SeqState) (fl : File) (n : Nat) (v : Reg) : (x.setReg fl n v).queue = x.queue := by cases fl <;> rfl

theorem SeqState.stepIters_queue (x : SeqState) (level : Nat) (rev : Bool) : (x.stepIters level rev).queue = x.queue := by
  refine foldl_keeps SeqState.queue (fun y i => ?_) _ x
  split
  · split
    · exact SeqState.setReg_queue _ _ _ _
    · rfl
  · rfl

theorem SeqState.resolveLoops_queue (x : SeqState) (p : Addr) : ∀ l : List LoopEnt, (x.resolveLoops p l).queue = x.queue
  | [] => rfl
  | e :: l => by
    have ih := SeqState.resolveLoops_queue x p l
    unfold SeqState.resolveLoops
    split
    · rfl
    · split <;> split
      · exact SeqState.stepIters_queue _ _ _
      · exact ih
      · exact SeqState.stepIters_queue _ _ _
      · exact ih

theorem SeqState.resolve_queue (x : SeqState) : x.resolve.queue = x.queue := by
  unfold SeqState.resolve
  split
  · simp only
    split
    · rfl
    · exact SeqState.resolveLoops_queue _ _ _
  · rfl

/-! ### Headers (R86, R87) -/

theorem slotsOf_eq_slots (p : Nat) : slotsOf (hdrOf p).pres = slots (p % 256) := by
  simp [slotsOf, slots, hdrOf, bits, bit, allSlots]

theorem hdrOf_len (p : Nat) : (hdrOf p).len = parcels p := by
  unfold Hdr.len parcels
  rw [slotsOf_eq_slots]
  simp [hdrOf, bit, bits]

/-! ### Syllables (R64, R65, R88, R89, R91) -/

/-- The word of slot k of a bundle, from the stream or from the lamp entry. -/
def State.sylWord (s : State) (lamps : List (Nat × BitVec 256)) (pa p k : Nat) : Nat :=
  if p / 2 ^ 12 % 2 = 1 then
    ((sget 0 lamps (s.num (pa + 2) 2)).extractLsb' (32 * slotIx ((slots (p % 256)).getD k .a)) 32).toNat
  else s.num (pa + 2 + 4 * k) 4

theorem map_eq_range_map {α β : Type} (l : List α) (d : α) (g : α → β) : l.map g = (List.range l.length).map fun k => g (l.getD k d) := by
  refine List.ext_getElem (by simp) fun i h1 h2 => ?_
  simp only [List.length_map] at h1
  simp [h1]

/-- The words of a bundle that stands, slot by slot; its lamp parcel has no reserved bit set. -/
theorem sylsAt_of_stands {s : State} {x : SeqState} {va pa p : Nat} {is : List Instr} (h : Stands s x.lamps va pa p is) :
    (s.sylsAt x pa (hdrOf p)).syls = (List.range is.length).map (fun k => ((slots (p % 256)).getD k .a, s.sylWord x.lamps pa p k))
      ∧ (s.sylsAt x pa (hdrOf p)).lampBad = false := by
  have hl : (hdrOf p).lamp = decide (p / 2 ^ 12 % 2 = 1) := by simp [hdrOf, bit, bits, beq_eq_decide]
  unfold State.sylsAt State.sylWord
  simp only [hl, slotsOf_eq_slots, decide_eq_true_eq]
  by_cases hlamp : p / 2 ^ 12 % 2 = 1
  · have hnum := h.lamp hlamp
    have hlo : bits (s.num (pa + 2) 2) 0 9 = s.num (pa + 2) 2 := by
      simp only [bits, Nat.pow_zero, Nat.div_one]
      omega
    have hhi : bits (s.num (pa + 2) 2) 9 7 = 0 := by
      simp only [bits]
      omega
    rw [if_pos hlamp, hlo, hhi, h.count, map_eq_range_map _ .a]
    simp only [if_pos hlamp]
    exact ⟨trivial, rfl⟩
  · rw [if_neg hlamp, h.count]
    simp only [if_neg hlamp]
    exact ⟨trivial, trivial⟩

/-- Every word of a bundle that stands is one of its syllables. -/
theorem decodes_of_stands {s : State} {lamps : List (Nat × BitVec 256)} {va pa p : Nat} {is : List Instr} (h : Stands s lamps va pa p is)
    {k : Nat} (hk : k < is.length) : s.sylWord lamps pa p k ≠ 0 ∧ decodeSyl ((slots (p % 256)).getD k .a) (s.sylWord lamps pa p k) = some is[k] := by
  obtain ⟨h0, hd⟩ := h.syls k hk
  exact ⟨h0, hd.trans (List.getElem?_eq_getElem hk)⟩

theorem bad_of_stands {s : State} {x : SeqState} {va pa p : Nat} {is : List Instr} (h : Stands s x.lamps va pa p is) :
    (s.sylsAt x pa (hdrOf p)).bad = [] := by
  unfold Fetched.bad
  rw [(sylsAt_of_stands h).1, List.map_eq_nil_iff, List.filter_eq_nil_iff]
  rintro _ hm
  obtain ⟨k, hk, rfl⟩ := List.mem_map.1 hm
  obtain ⟨h0, hd⟩ := decodes_of_stands h (List.mem_range.1 hk)
  simp only [hd, Option.isNone_some, Bool.or_false, beq_iff_eq]
  exact h0

/-- The syllables of a bundle that stands, in slot order. -/
theorem instrs_of_stands {s : State} {x : SeqState} {va pa p : Nat} {is : List Instr} (h : Stands s x.lamps va pa p is) :
    (s.sylsAt x pa (hdrOf p)).instrs.map (·.2) = is := by
  unfold Fetched.instrs
  rw [(sylsAt_of_stands h).1, List.filterMap_map, List.map_filterMap]
  have hf : ∀ k ∈ List.range is.length, (((fun q : Slot × Nat => (decodeSyl q.1 q.2).map fun i => (q.1, i)) ∘
      fun k => ((slots (p % 256)).getD k .a, s.sylWord x.lamps pa p k)) k).map (·.2) = is[k]? := fun k hk => by
    have hk := List.mem_range.1 hk
    simp only [Function.comp, (decodes_of_stands h hk).2, Option.map_some, List.getElem?_eq_getElem hk]
  rw [List.filterMap_congr hf]
  have hs : (List.range is.length).map (fun k => is[k]?) = is.map some :=
    List.ext_getElem (by simp) fun i h1 h2 => by simp
  calc (List.range is.length).filterMap (fun k => is[k]?) = ((List.range is.length).map fun k => is[k]?).filterMap id := by
        rw [List.filterMap_map]; rfl
    _ = is := by rw [hs, List.filterMap_map]; simp

/-- No read port is named twice where the ports of the syllables differ. -/
theorem portClash_eq_nil {l : List (Slot × Instr)} (h : ((l.map (·.2)).filterMap portOf).Nodup) : portClash l = [] := by
  unfold portClash
  rw [List.map_eq_nil_iff, List.filter_eq_nil_iff]
  intro a _
  split
  · simp
  · rename_i k hk
    have hc := List.nodup_iff_count_le_one.1 h k
    rw [List.count_filterMap, List.countP_map, List.countP_eq_length_filter] at hc
    simp only [decide_eq_true_eq, Nat.not_le]
    exact Nat.lt_succ_of_le hc

theorem hClash_eq_nil {l : List (Slot × Instr)} (h : ((l.map (·.2)).filter fun i => decide (hDests i ≠ 0)).length ≤ 2) : hClash l = [] := by
  unfold hClash
  have he : (l.filter fun p => hDests p.2 != 0).length = ((l.map (·.2)).filter fun i => decide (hDests i ≠ 0)).length := by
    rw [List.filter_map, List.length_map]
    congr 2
    funext a
    exact (decide_not (p := hDests a.2 = 0)).symm
  simp only [he]
  rw [if_neg (by omega)]

theorem illegal_of_stands {s : State} {x : SeqState} {va pa p : Nat} {is : List Instr} (h : Stands s x.lamps va pa p is) :
    (s.sylsAt x pa (hdrOf p)).illegal = 0 := by
  unfold Fetched.illegal
  simp only [bad_of_stands h, portClash_eq_nil ((instrs_of_stands h).symm ▸ h.ports), hClash_eq_nil ((instrs_of_stands h).symm ▸ h.dests), (sylsAt_of_stands h).2]
  rfl

/-! ### The fetch -/

/-- A sequencer at its next bundle, before its header is read: a failed check is taken here. -/
def State.atBundle (s : State) (c : Nat) (q : Seq) : State :=
  let x := (s.seq c q).resolve
  { s.setSeq c q x with ctx := ⟨c, q, x.pc, 0, 1, x.pc, false, 0, false, x.restK.getD 0⟩, issuing := [], trapped := none }

/-- A bundle whose header and syllables pass stands ready to issue. -/
def State.readied (s : State) (c : Nat) (q : Seq) (p : Nat) (is : List Instr) (ports : BitVec 3) : State :=
  let x := (s.seq c q).resolve
  let s1 := { s.atBundle c q with ctx := ctxAt c q x p, issuing := issuesOf x is }
  match q with
  | .primary => s1.updCore c fun k => { k with
      primAt := s.now, primSlots := BitVec.ofNat 8 (hdrOf p).pres, primPorts := ports
      dirty := k.dirty ||| dirtyBits (s.core c).prim k.prim }
  | .secondary => s1

theorem map_filter_multi (l : List (Slot × Instr)) : (l.filter fun r => isMulti r.2).map (·.2) = (l.map (·.2)).filter isMulti :=
  (List.filter_map (f := fun r : Slot × Instr => r.2) (p := isMulti)).symm

theorem issuesOf_eq (x : SeqState) (is : List Instr) : issuesOf x is = if x.restK.isSome then is.filter isMulti else is := rfl

theorem ctxAt_eq (c : Nat) (q : Seq) (x : SeqState) (p : Nat) :
    (⟨c, q, x.pc, (hdrOf p).idle, (hdrOf p).len, BitVec.ofNat 56 ((hdrOf p).next x.pc.toNat), (hdrOf p).lamp, (hdrOf p).pres,
      decide (0 < x.delay) && !x.ownBr, x.restK.getD 0⟩ : Ctx) = ctxAt c q x p := by
  unfold ctxAt Hdr.next
  rw [hdrOf_len]
  simp [hdrOf, bit, bits]

/-- The framing check of a header (R90): its signature, and that the bundle ends on its line. -/
def misframed (p pc : Nat) : Prop := (hdrOf p).sig ≠ 2 ∨ 32 < pc % 64 / 2 + (hdrOf p).len

theorem misframed_iff (p pc : Nat) (hp : p < 2 ^ 16) : misframed p pc ↔ p / 2 ^ 14 ≠ 2 ∨ 32 < pc % 64 / 2 + parcels p := by
  have hsig : (hdrOf p).sig = p / 2 ^ 14 := by
    simp only [hdrOf, bits]
    omega
  unfold misframed
  rw [hsig, hdrOf_len]

theorem reserved_iff (p : Nat) : ((hdrOf p).rsv || (hdrOf p).pres == 0) = true ↔ p / 2 ^ 13 % 2 = 1 ∨ p % 256 = 0 := by
  simp [hdrOf, bit, bits]

section
variable {s : State} {c : Nat} {q : Seq} {sp : Spot} (hplace : s.fetchTr c q (s.seq c q).resolve.pc.toNat = .ok sp)
include hplace

theorem State.fetchBundle_of_misframed (hf : misframed (s.num sp.pa 2) (s.seq c q).resolve.pc.toNat) :
    s.fetchBundle c q = (s.atBundle c q).raise ⟨0x03, none, BitVec.ofNat 64 (s.num sp.pa 2), false⟩ := by
  unfold State.fetchBundle
  dsimp only
  rw [hplace]
  exact if_pos hf

theorem State.fetchBundle_of_reserved (hf : ¬misframed (s.num sp.pa 2) (s.seq c q).resolve.pc.toNat)
    (hr : ((hdrOf (s.num sp.pa 2)).rsv || (hdrOf (s.num sp.pa 2)).pres == 0) = true) :
    s.fetchBundle c q = (s.atBundle c q).raise ⟨0x04, none, 0, false⟩ := by
  unfold State.fetchBundle
  dsimp only
  rw [hplace]
  exact (if_neg hf).trans (if_pos hr)

end

theorem State.fetchBundle_of_due {s : State} {c : Nat} {q : Seq} {sp : Spot} {p : Nat} {is : List Instr} (h : Due s c q sp p is) :
    ∃ ports, s.fetchBundle c q = s.readied c q p is ports := by
  obtain ⟨-, -, hplace, hst, -⟩ := h
  have hf : ¬misframed p (s.seq c q).resolve.pc.toNat := by
    have := hst.sig
    have := hst.fits
    rw [misframed_iff p _ (by omega)]
    omega
  have hr : ¬((hdrOf p).rsv || (hdrOf p).pres == 0) = true := by
    have := hst.rsv
    have := hst.pres
    rw [reserved_iff]
    omega
  have hil : ¬(s.sylsAt (s.seq c q).resolve sp.pa (hdrOf p)).illegal ≠ 0 := not_not_intro (illegal_of_stands hst)
  have hrun : (if (s.seq c q).resolve.restK.isSome
      then (s.sylsAt (s.seq c q).resolve sp.pa (hdrOf p)).instrs.filter fun r => isMulti r.2
      else (s.sylsAt (s.seq c q).resolve sp.pa (hdrOf p)).instrs).map (·.2) = issuesOf (s.seq c q).resolve is := by
    rw [issuesOf_eq, apply_ite (List.map _), map_filter_multi, instrs_of_stands hst]
  refine ⟨portMask (s.sylsAt (s.seq c q).resolve sp.pa (hdrOf p)).instrs, ?_⟩
  unfold State.fetchBundle
  dsimp only
  rw [hplace]
  dsimp only
  rw [hst.parcel]
  refine (if_neg hf).trans ((if_neg hr).trans ((if_neg hil).trans ?_))
  rw [hrun, ctxAt_eq]
  cases q <;> rfl

/-! ### Fetching a bundle -/

theorem State.readied_fields (s : State) (c : Nat) (q : Seq) (p : Nat) (is : List Instr) (ports : BitVec 3) :
    (s.readied c q p is ports).trapped = none ∧ (s.readied c q p is ports).issuing = issuesOf (s.seq c q).resolve is
      ∧ (s.readied c q p is ports).ctx = ctxAt c q (s.seq c q).resolve p ∧ (s.readied c q p is ports).mem = s.mem
      ∧ (s.readied c q p is ports).accesses = s.accesses ∧ (s.readied c q p is ports).now = s.now := by
  cases q <;> exact ⟨rfl, rfl, rfl, rfl, rfl, rfl⟩

theorem State.seq_atBundle {s : State} (ht : Tidy Core.init s.cores) (c : Nat) (q : Seq) : (s.atBundle c q).seq c q = (s.seq c q).resolve :=
  State.seq_updSeq ht c q fun _ => (s.seq c q).resolve

theorem State.tidy_atBundle {s : State} (ht : Tidy Core.init s.cores) (c : Nat) (q : Seq) : Tidy Core.init (s.atBundle c q).cores :=
  tidy_sset ht c _

theorem State.seq_readied {s : State} (ht : Tidy Core.init s.cores) (c : Nat) (q : Seq) (p : Nat) (is : List Instr) (ports : BitVec 3) :
    (s.readied c q p is ports).seq c q = (s.seq c q).resolve := by
  rw [← State.seq_atBundle ht c q]
  cases q with
  | primary =>
    unfold State.readied State.seq
    dsimp only
    rw [State.core_updCore (by exact s.tidy_atBundle ht c .primary), if_pos rfl]
    rfl
  | secondary => rfl

/-- A bundle that is due issues: in the secondary, since no slot or port of the primary's is in its way. -/
theorem State.exec_issueEvent_of_due {s : State} {c : Nat} {q : Seq} {sp : Spot} {p : Nat} {is : List Instr} (h : Due s c q sp p is) :
    ∃ ports, exec (issueEvent c q) s = .next (s.readied c q p is ports) := by
  obtain ⟨ports, hf⟩ := State.fetchBundle_of_due h
  refine ⟨ports, ?_⟩
  cases q with
  | primary =>
    change execBundleFetch c s = _
    rw [execBundleFetch, if_pos h.core, hf]
  | secondary =>
    have hfits : ∀ t, s.secondaryFits t c = true := fun t => by
      have := h.fits rfl
      unfold State.secondaryFits
      simp only
      rw [if_neg (by tauto)]
    change execSecondaryBundleIssue c s = _
    simp only [execSecondaryBundleIssue, if_pos h.core, hfits, Bool.or_true, if_true, hf]

/-- Settles O29: the header and every syllable pass their checks, so that the bundle stands ready to issue. -/
theorem bundlesFetch : Obligations.BundlesFetch := by
  intro s c q sp p is h
  obtain ⟨ports, he⟩ := State.exec_issueEvent_of_due h
  obtain ⟨htr, hiss, hctx, hmem, hacc, hnow⟩ := s.readied_fields c q p is ports
  refine ⟨_, he, htr, hiss, hctx, hmem, hacc, hnow, ?_⟩
  rw [State.seq_readied h.canon.cores, SeqState.resolve_queue]

/-! ### What a fetch checks -/

theorem Memory.length_read (m : Memory) : ∀ (n a : Nat), (m.read a n).length = n
  | 0, _ => rfl
  | n + 1, a => congrArg (· + 1) (Memory.length_read m n (a + 1))

theorem State.num_lt (s : State) (a n : Nat) : s.num a n < 256 ^ n := by
  have h := leNat_lt (s.bytes a n)
  rwa [State.bytes, Memory.length_read] at h

/-- A trap leaves the results in flight alone. -/
theorem State.queue_takeTrapAt {s : State} {c : Nat} {q : Seq} {t : Trap} {xpc : Addr} {k : Option Nat} (hx : xcauseWord t ≠ 0) :
    ((s.takeTrapAt c q t xpc k).seq c q).queue = (s.seq c q).queue := by
  rw [State.seq_takeTrapAt hx]
  obtain ⟨r, k', f, b, h⟩ := s.trapTurn_eq c q t k ((s.seq c q).cause t xpc)
  rw [h]
  rfl

/-- A precise trap: its registers are written, and what the sequencer has in flight stays (R306). -/
theorem State.seq_raise {s : State} (ht : Tidy Core.init s.cores) {t : Trap} (hc : t.cause < 256) (h0 : 0 < t.cause) :
    ((s.raise t).seq s.ctx.core s.ctx.q).queue = s.cur.queue ∧ ((s.raise t).seq s.ctx.core s.ctx.q).xpc.toNat = s.ctx.pc.toNat := by
  refine ⟨?_, (State.trapRegs_takeTrapAt hc h0).xpc⟩
  exact (State.queue_takeTrapAt (xcauseWord_ne_zero hc h0)).trans
    (Eq.trans (congrArg SeqState.queue (State.seq_updSeq ht s.ctx.core s.ctx.q fun x => { x with pc := s.ctx.pc, nextAt := s.now + 1, pend := false })) rfl)

theorem State.sameWork_raise (s : State) (t : Trap) : s.SameWork (s.raise t) :=
  (s.sameWork_updSeq _ _ _).trans (State.sameWork_takeTrapAt _ _ _ _ _ _)

theorem State.raise_trapped (s : State) (t : Trap) : (s.raise t).trapped = some t := State.takeTrapAt_trapped _ _ _ _ _ _

/-- A fetch that fails a check is the precise trap of that check at the bundle. -/
theorem State.fetch_raises {s : State} {c : Nat} {t : Trap} (hcore : c < nCores) (hcanon : s.Canon) (hc : t.cause < 256) (h0 : 0 < t.cause)
    (hf : s.fetchBundle c .primary = (s.atBundle c .primary).raise t) :
    ∃ u, exec (.bundleFetch c) s = .next u ∧ u.trapped = some t ∧ u.accesses = s.accesses ∧ u.holds = s.holds
      ∧ (u.seq c .primary).queue = (s.seq c .primary).queue ∧ (u.seq c .primary).xpc.toNat = (s.seq c .primary).resolve.pc.toNat := by
  have hw := (s.atBundle c .primary).sameWork_raise t
  obtain ⟨hq, hx⟩ := State.seq_raise (s.tidy_atBundle hcanon.cores c .primary) hc h0
  refine ⟨_, ?_, State.raise_trapped _ t, hw.accesses, hw.holds, hq.trans ?_, hx⟩
  · change execBundleFetch c s = _
    rw [execBundleFetch, if_pos hcore, hf]
  · exact (congrArg SeqState.queue (State.seq_atBundle hcanon.cores c .primary)).trans (SeqState.resolve_queue _)

theorem fetchFaults : Spec.FetchFaults := by
  intro s c sp hcore hcanon x pc hplace p raises
  have hp : p < 2 ^ 16 := s.num_lt sp.pa 2
  have hmis := misframed_iff p pc hp
  refine ⟨fun h => ?_, fun _ h => ?_, fun h1 h2 h3 => ?_⟩
  · exact State.fetch_raises hcore hcanon (by decide : 3 < 256) (by decide : 0 < 3) (State.fetchBundle_of_misframed hplace (hmis.2 (.inl h)))
  · exact State.fetch_raises hcore hcanon (by decide : 3 < 256) (by decide : 0 < 3) (State.fetchBundle_of_misframed hplace (hmis.2 (.inr h)))
  · refine State.fetch_raises hcore hcanon (by decide : 4 < 256) (by decide : 0 < 4) (State.fetchBundle_of_reserved hplace ?_ ((reserved_iff p).2 h3))
    rw [hmis]
    omega

/-- A valid leaf without reserved bits, aligned to its page (R210). -/
theorem leafTr_of_valid {e va size : Nat} (p : Perm) (hv : e / 2 ^ 63 % 2 = 1) (hr : e / 2 ^ 56 % 8 = 0) (hb : e % 2 ^ 8 = 0)
    (ha : e / 2 ^ 8 % 2 ^ 48 * 256 % size = 0) :
    leafTr e va size p = if entPerm e p then .ok (e / 2 ^ 8 % 2 ^ 48 * 256 + va % size) else .prot := by
  have hv' : entV e = true := beq_iff_eq.2 hv
  have hc : entClean e = true := by
    simp only [entClean, bits, Bool.and_eq_true, beq_iff_eq]
    omega
  have ha' : entPA e % size = 0 := ha
  unfold leafTr
  rw [hv', hc, ha', if_neg (by decide)]
  rfl

/-- Of two adjacent bytes of one pinned page the second translates as the first does. -/
theorem fetchTranslation : Spec.FetchTranslation := by
  intro s c va q
  refine ⟨fun h => if_pos h, ?_⟩
  intro m k l hlo hhi hm hlens hpins size e hb ht hv hr he ha
  have hpage : ∀ a, spadBytes ≤ a → a < 2 ^ 56 → k.vbase ≤ a → a < k.vbase + size →
      s.plainTr (.pins m) c a .x = if e / 2 ^ 59 % 2 = 1 then .ok (e / 2 ^ 8 % 2 ^ 48 * 256 + a % size) else .prot := fun a h1 h2 h3 h4 => by
    have hin : k.vbase ≤ a ∧ a < k.vbase + pageBytes k.psize := ⟨h3, h4⟩
    unfold State.plainTr State.pageTr
    rw [if_neg (by omega), if_neg (by omega)]
    dsimp only
    rw [hpins, pinTr, if_pos hin]
    refine (leafTr_of_valid .x hv hr he ha).trans (if_congr ?_ rfl rfl)
    exact beq_iff_eq
  unfold State.fetchTr
  rw [if_neg (by omega), hm]
  unfold State.resolve State.lenses
  simp only [hlens, if_true, List.filter_nil, hpage va hlo (by omega) hb (by omega), show va + 2 - 1 = va + 1 from rfl,
    hpage (va + 1) (by omega) hhi (by omega) ht]
  by_cases hx : e / 2 ^ 59 % 2 = 1
  · simp only [if_pos hx]
    rfl
  · simp only [if_neg hx]

/-- Settles O31: the trap of each check, and the page of a pinned mapping. -/
theorem fetchChecks : Obligations.FetchChecks := ⟨fetchFaults, fetchTranslation⟩

/-! ### A step that issues a bundle -/

theorem issueGo_of_chain {l : List Instr} {s t : State} (h : Chain l s t) (m : Met) : issueGo l m s = .next (t, m) := by
  induction h with
  | nil s => rfl
  | @cons i l s u t he hu _ ih => simp only [issueGo, he, hu, ih]

/-- A bundle none of whose syllables traps issues, and its sequencer moves on. -/
theorem State.issueAll_of_chain {s pre t : State} (h : Chain s.issuing s t) (hs : t.cur.stepping = false) :
    s.issueAll pre = .next { t with issuing := [] }.advance := by
  have hst : ({ t with issuing := [] } : State).advance.cur.stepping = false := (congrArg SeqState.stepping (State.advance_seq _)).trans hs
  unfold State.issueAll
  simp only [issueGo_of_chain h, State.issued, State.endStep, hst]
  rfl

theorem runEvent_of_fetched {s u : State} {c : Nat} {q : Seq} {ev : EvCtx} (he : exec (issueEvent c q) { s with ev := ev } = .next u)
    (hu : u.trapped = none) : ∃ pre, runEvent ⟨ev, issueEvent c q⟩ s = u.issueAll pre := by
  unfold runEvent
  cases q with
  | primary => exact ⟨s, by simp only [he]; simp only [issueEvent, hu]; rfl⟩
  | secondary => exact ⟨s.updSeq c .secondary fun x => x.resolve, by simp only [he]; simp only [issueEvent, hu]⟩

/-- Settles O30: the fetch leaves the syllables of O29 to issue, none of which traps, so that the sequencer moves on. -/
theorem stepRunsDecodedBundle : Obligations.StepRunsDecodedBundle := by
  intro s u t c q sp p is ev l hag hdue hex hch hstep hctx
  obtain ⟨ports, he⟩ := State.exec_issueEvent_of_due hdue
  obtain ⟨htr, hiss, hctx', -⟩ := State.readied_fields { s with agenda := l, ev := ev } c q p is ports
  obtain rfl : u = _ := Host.Outcome.next.inj (hex.symm.trans he)
  obtain ⟨pre, hrun⟩ := runEvent_of_fetched (s := { s with agenda := l }) he htr
  have hadv : ({ t with issuing := [] } : State).advance.cur = State.moveOn { t with issuing := [] } t.cur := State.advance_seq { t with issuing := [] }
  refine ⟨_, ?_, rfl, fun hsk => ?_, ?_, ?_, ?_, rfl, rfl, ?_, rfl⟩
  · rw [step_of_cons hag, hrun]
    exact State.issueAll_of_chain (hiss ▸ hch) hstep
  · rw [hadv, ← hctx]
    show t.cur.skipTo.getD t.ctx.next = t.ctx.next
    rw [hsk]
    rfl
  · rw [hadv, ← hctx]
    rfl
  · rw [hadv, ← hctx]
    rfl
  · rw [hadv]
    rfl
  · rw [hadv]
    rfl

end Sys2Proof.Machine
end

section
/-! SUPPORT. Results that land (R42, R66, R78, R155, R315): what an entry does to its core, which entries land, and what stands after all of them
(O32). -/

namespace Sys2Proof.Machine
open Config Sys2Proof.Spec

/-! ### One entry in its core -/

/-- A deferred write of `FMT`, `SHV` or `SHW` that no longer keeps R74. -/
def Core.lateBad (k : Core) (now : Nat) (e : QEntry) : Bool :=
  match e.eff with
  | .sys n v => decide (e.due < now) && (n == 2 || n == 3 || n == 4) && !(k.fitsAt n v now)
  | _ => false

/-- The flags and the loss event of an entry. -/
def SeqState.landFlags (x : SeqState) (e : QEntry) : SeqState :=
  ({ x with flags := x.flags ||| e.flags ||| flagIf e.eff.poisons fPZ } : SeqState).lose e.loss

/-- An entry in its core: its effect, its flags, its loss event. -/
def Core.landEntry (k : Core) (q : Seq) (e : QEntry) : Core :=
  (k.landEff q e.eff).setSeq q (((k.landEff q e.eff).seq q).landFlags e)

/-- The core after an entry has landed. -/
def Core.landAt (now : Nat) (q : Seq) (e : QEntry) (k : Core) : Core :=
  if k.lateBad now e then k.setSeq q { k.seq q with flags := (k.seq q).flags ||| fTF } else k.landEntry q e

theorem State.lateSysBad_eq (s : State) (c : Nat) (e : QEntry) : s.lateSysBad c e = (s.core c).lateBad s.now e := by
  unfold State.lateSysBad Core.lateBad
  cases e.eff <;> rfl

theorem State.tableWrite_fields (s : State) (m pa : Nat) (b : List Byte) : (s.tableWrite m pa b).now = s.now ∧ (s.tableWrite m pa b).cores = s.cores := by
  unfold State.tableWrite
  split
  · exact ⟨rfl, rfl⟩
  · split <;> exact ⟨rfl, rfl⟩

theorem State.writeRegion_fields (s : State) (m i : Nat) : (s.writeRegion m i).now = s.now ∧ (s.writeRegion m i).cores = s.cores := by
  unfold State.writeRegion
  split
  · exact State.tableWrite_fields _ _ _ _
  · exact ⟨rfl, rfl⟩

theorem State.readRegions_fields (s : State) (m : Nat) : (s.readRegions m).now = s.now ∧ (s.readRegions m).cores = s.cores := by
  unfold State.readRegions
  exact ⟨foldl_keeps State.now (fun t i => (t.writeRegion_fields m i).1) _ _, foldl_keeps State.cores (fun t i => (t.writeRegion_fields m i).2) _ _⟩

/-- The entries that land one after the other change their own core alone. -/
theorem stepsCores_landOne (n c : Nat) (q : Seq) : StepsCores n (fun _ => c) (Core.landAt n q) (fun t e => t.landOne c q e) := by
  rintro s e rfl
  show (s.landOne c q e).now = s.now ∧ (s.landOne c q e).cores = _
  unfold State.landOne
  by_cases hl : s.lateSysBad c e = true
  · refine ⟨by rw [if_pos hl]; rfl, ?_⟩
    rw [if_pos hl]
    unfold State.updCore Core.landAt
    rw [if_pos (s.lateSysBad_eq c e ▸ hl)]
    rfl
  · have hk : (s.updCore c (Core.landAt s.now q e)).cores = (s.updCore c fun k => k.landEntry q e).cores := by
      unfold State.updCore Core.landAt
      rw [if_neg (s.lateSysBad_eq c e ▸ hl)]
    rw [hk, if_neg hl]
    dsimp only
    split
    · exact State.readRegions_fields _ _
    · exact ⟨rfl, rfl⟩
    · exact ⟨rfl, rfl⟩

/-! ### What an entry leaves alone -/

theorem SeqState.pushIters_keeps {γ : Type} (π : SeqState → γ) (h : ∀ (x : SeqState) i b, π { x with iters := x.iters.setIfInBounds i b } = π x)
    (hm : ∀ (x : SeqState) i v, π (x.setReg .m i v) = π x) (x : SeqState) (level index : Nat) : π (x.pushIters level index) = π x := by
  refine foldl_keeps π (fun y i => ?_) _ x
  split
  · split
    · rw [hm, h]
    · rfl
  · rfl

/-- What an `ITSET` binding or a push may change: iterators and M registers. -/
theorem SeqState.landEff_bind_keeps {γ : Type} (π : SeqState → γ) (h : ∀ (x : SeqState) l, π { x with iters := l } = π x)
    (hm : ∀ (x : SeqState) i v, π (x.setReg .m i v) = π x) (x : SeqState) {f : QEff} (hf : 2 ≤ f.rank) : π (x.landEff f) = π x := by
  cases f with
  | iter i b =>
    unfold SeqState.landEff
    dsimp only
    split
    · exact (hm _ _ _).trans (h _ _)
    · exact h _ _
  | push level => exact SeqState.pushIters_keeps π (fun y i b => h y _) hm x level _
  | reg _ _ | vec _ _ _ _ _ | sys _ _ | bnet _ _ _ | watch _ _ | engq _ _ _ _ | vz _ _ _ _ _ => exact absurd hf (by simp [QEff.rank])

theorem SeqState.landFlags_reg (x : SeqState) (e : QEntry) (fl : File) (n : Nat) : (x.landFlags e).reg fl n = x.reg fl n := by
  unfold SeqState.landFlags SeqState.lose
  cases e.loss <;> cases fl <;> rfl

@[simp] theorem Core.setSeq_h (k : Core) (q : Seq) (x : SeqState) : (k.setSeq q x).h = k.h := by cases q <;> rfl

/-- A change of a sequencer that leaves a register alone. -/
theorem Core.reg_setSeq (k : Core) (q : Seq) {x : SeqState} {r : RRef} (h : x.reg r.file r.num = (k.seq q).reg r.file r.num) :
    (k.setSeq q x).reg q r = k.reg q r := by
  unfold Core.reg
  rw [Core.setSeq_h, Core.seq_setSeq]
  split
  · rfl
  · exact h

theorem Core.reg_landEntry (k : Core) (q : Seq) (e : QEntry) (r : RRef) : (k.landEntry q e).reg q r = (k.landEff q e.eff).reg q r :=
  Core.reg_setSeq _ q (SeqState.landFlags_reg _ e _ _)

/-- A register of a scalar file that exists. -/
def RRef.scalar (r : RRef) : Prop := r.file ∈ [File.a, .b, .m, .f, .h] ∧ r.num < (if r.file = .f then 16 else 32)

/-- What a register keeps of a value: an M register no sounding (R62). -/
def RRef.kept (r : RRef) (v : Reg) : Reg := if r.file = .m then { v with snd := 63 } else v

/-- The register that a result names takes it (R62, R66). -/
theorem Core.reg_setReg_self (k : Core) (q : Seq) {r : RRef} (hr : r.scalar) (v : Reg) : (k.setReg q r v).reg q r = r.kept v := by
  obtain ⟨fl, n⟩ := r
  obtain ⟨hf, hn⟩ := hr
  unfold Core.setReg Core.reg RRef.kept
  simp only [List.mem_cons, List.not_mem_nil, or_false] at hf hn
  rcases hf with rfl | rfl | rfl | rfl | rfl <;> simp only [Core.seq_setSeq, SeqState.reg, SeqState.setReg] <;> simp_all [Vector.getD]

theorem getD_setIfInBounds_ne {α : Type} {k n n' : Nat} (xs : Vector α k) (x d : α) (h : n' ≠ n) : (xs.setIfInBounds n' x).getD n d = xs.getD n d := by
  by_cases hk : n < k
  · simp [Vector.getD, Array.getD, hk, h]
  · simp [Vector.getD, Array.getD, hk]

theorem SeqState.reg_setReg_ne (x : SeqState) {fl fl' : File} {n n' : Nat} (h : fl' = fl → n' ≠ n) (v : Reg) :
    (x.setReg fl' n' v).reg fl n = x.reg fl n := by
  by_cases hf : fl' = fl
  · subst hf
    cases fl' with
    | a | b | m | f => exact getD_setIfInBounds_ne _ _ _ (h rfl)
    | v | w | h => rfl
  · unfold SeqState.setReg
    split
    · cases fl with
      | a => exact absurd rfl hf
      | _ => rfl
    · cases fl with
      | b => exact absurd rfl hf
      | _ => rfl
    · cases fl with
      | m => exact absurd rfl hf
      | _ => rfl
    · cases fl with
      | f => exact absurd rfl hf
      | _ => rfl
    · rfl

theorem Core.reg_setReg_ne (k : Core) (q : Seq) {r r' : RRef} (hne : r' ≠ r) (v : Reg) : (k.setReg q r' v).reg q r = k.reg q r := by
  obtain ⟨fl, n⟩ := r
  obtain ⟨fl', n'⟩ := r'
  have hn : fl' = fl → n' ≠ n := fun h e => hne (by rw [h, e])
  unfold Core.setReg
  dsimp only
  split
  · unfold Core.reg
    cases fl with
    | h => exact getD_setIfInBounds_ne _ _ _ (hn rfl)
    | _ => rfl
  · exact Core.reg_setSeq k q (SeqState.reg_setReg_ne _ hn v)

theorem Core.reg_setVreg (k : Core) (q : Seq) (f : VW) (n : Nat) (x : VReg) (r : RRef) : (k.setVreg f n x).reg q r = k.reg q r := by
  cases f <;> cases q <;> rfl

theorem SeqState.reg_sysWrite (x : SeqState) (n : Nat) (v : Word) (fl : File) (m : Nat) : (x.sysWrite n v).reg fl m = x.reg fl m := by
  unfold SeqState.sysWrite
  dsimp only
  split_ifs <;> cases fl <;> rfl

theorem Core.reg_sysWrite (k : Core) (q : Seq) (n : Nat) (v : Word) (r : RRef) : (k.sysWrite q n v).reg q r = k.reg q r := by
  unfold Core.sysWrite
  split_ifs
  any_goals cases q <;> rfl
  exact Core.reg_setSeq k q (SeqState.reg_sysWrite _ n v _ _)

/-- An entry with another destination leaves a register alone; an M register also needs that no binding and no push takes effect. -/
theorem Core.reg_landEff_ne (k : Core) (q : Seq) {f : QEff} {r : RRef} (hd : f.dest ≠ some r) (hm : r.file = .m → f.rank < 2) :
    (k.landEff q f).reg q r = k.reg q r := by
  have hbind : 2 ≤ f.rank → (k.setSeq q ((k.seq q).landEff f)).reg q r = k.reg q r := fun h2 =>
    Core.reg_setSeq k q (SeqState.landEff_bind_keeps (fun x => x.reg r.file r.num) (fun x l => by cases r.file <;> rfl)
      (fun x i v => SeqState.reg_setReg_ne x (fun e => absurd (hm e.symm) (by omega)) v) _ h2)
  cases f with
  | reg r' v => exact k.reg_setReg_ne q (fun e => hd (congrArg some e)) v
  | vec f r' lo n v => exact k.reg_setVreg q f r' _ r
  | sys n v => exact k.reg_sysWrite q n v r
  | bnet cfg st ctl => exact Core.reg_setSeq k q (by cases r.file <;> rfl)
  | iter i b => exact hbind (Nat.le_refl 2)
  | watch n item => exact Core.reg_setSeq k q (by cases r.file <;> rfl)
  | push level => exact hbind (Nat.le_succ 2)
  | engq _ _ _ _ | vz _ _ _ _ _ => rfl

/-! ### Flags of an entry (R315) -/

theorem or_and_of_and {w : Nat} {a m : BitVec w} (b : BitVec w) (h : a &&& m = m) : (a ||| b) &&& m = m := by
  refine BitVec.eq_of_getLsbD_eq fun i _ => ?_
  have hi := congrArg (BitVec.getLsbD · i) h
  simp only [BitVec.getLsbD_and, BitVec.getLsbD_or] at hi ⊢
  cases hm : m.getLsbD i with
  | false => simp
  | true =>
    rw [hm, Bool.and_true] at hi
    rw [hi]
    rfl

/-- The flags of an entry: its own, and PZ where it brings poison. -/
def QEntry.sets (e : QEntry) : BitVec 10 := e.flags ||| flagIf e.eff.poisons fPZ

theorem SeqState.landFlags_flags (x : SeqState) (e : QEntry) : ∃ w, (x.landFlags e).flags = x.flags ||| (e.sets ||| w) := by
  unfold SeqState.landFlags SeqState.lose QEntry.sets
  cases e.loss with
  | none => exact ⟨0#10, by rw [BitVec.or_zero, BitVec.or_assoc]⟩
  | some p => exact ⟨fSL, by simp only [BitVec.or_assoc]⟩

theorem SeqState.setReg_flags (x : SeqState) (fl : File) (n : Nat) (v : Reg) : (x.setReg fl n v).flags = x.flags := by cases fl <;> rfl

theorem Core.landEff_flags (k : Core) (q : Seq) {f : QEff} (h : f.rank ≠ 0) : ((k.landEff q f).seq q).flags = (k.seq q).flags := by
  have hbind : 2 ≤ f.rank → ((k.setSeq q ((k.seq q).landEff f)).seq q).flags = (k.seq q).flags := fun h2 => by
    rw [Core.seq_setSeq]
    exact SeqState.landEff_bind_keeps SeqState.flags (fun _ _ => rfl) (fun _ _ _ => rfl) _ h2
  cases f with
  | reg r' v =>
    unfold Core.landEff Core.setReg
    dsimp only
    split
    · cases q <;> rfl
    · rw [Core.seq_setSeq, SeqState.setReg_flags]
  | vec f r' lo n v => cases f <;> cases q <;> rfl
  | sys n v => exact absurd rfl h
  | iter i b => exact hbind (Nat.le_refl 2)
  | push level => exact hbind (Nat.le_succ 2)
  | bnet _ _ _ | watch _ _ => exact (congrArg SeqState.flags (Core.seq_setSeq _ _ _)).trans rfl
  | engq _ _ _ _ | vz _ _ _ _ _ => rfl

theorem and_self_of_or {w : Nat} (a b m : BitVec w) : (a ||| (m ||| b)) &&& m = m := by
  rw [BitVec.or_comm, BitVec.or_assoc]
  exact or_and_of_and _ BitVec.and_self

theorem Core.landEntry_flags (k : Core) (q : Seq) {e : QEntry} (h : e.eff.rank ≠ 0) :
    ∃ w, ((k.landEntry q e).seq q).flags = (k.seq q).flags ||| (e.sets ||| w) := by
  unfold Core.landEntry
  rw [Core.seq_setSeq, ← k.landEff_flags q h]
  exact SeqState.landFlags_flags _ e

theorem Core.landAt_of_rank {k : Core} {q : Seq} {e : QEntry} {now : Nat} (h : e.eff.rank ≠ 0) : Core.landAt now q e k = k.landEntry q e := by
  unfold Core.landAt Core.lateBad
  cases he : e.eff with
  | sys n v => exact absurd (he ▸ rfl) h
  | _ => rfl

/-! ### Which entries land (R42, R66) -/

theorem settleEntry_eff (now : Nat) (e : QEntry) : (settleEntry now e).eff.dest = e.eff.dest ∧ (settleEntry now e).eff.rank = e.eff.rank := by
  unfold settleEntry
  split
  · split
    · rename_i f r n eb raw he
      rw [he]
      cases f <;> exact ⟨rfl, rfl⟩
    · exact ⟨rfl, rfl⟩
  · exact ⟨rfl, rfl⟩

theorem settleEntry_of_not_ready {now : Nat} {e : QEntry} (h : e.ready now = false) : settleEntry now e = e := by
  unfold settleEntry
  rw [h]
  rfl

/-- Only a raw `VLDZ` record settles. -/
theorem settleEntry_of_rank {now : Nat} {e : QEntry} (h : ∀ f r n eb raw, e.eff ≠ .vz f r n eb raw) : settleEntry now e = e := by
  unfold settleEntry
  split
  · split
    · exact absurd ‹_› (h _ _ _ _ _)
    · rfl
  · rfl

theorem settleEntry_ready (now t : Nat) (e : QEntry) : (settleEntry now e).ready t = e.ready t := by
  unfold settleEntry
  split
  · split <;> rfl
  · rfl

theorem deferSys_eff (now : Nat) (ns : List Nat) (e : QEntry) : (deferSys now ns e).eff = e.eff := by
  unfold deferSys
  split
  · split <;> rfl
  · rfl

theorem deferSys_ready {now : Nat} {ns : List Nat} {e : QEntry} (h : (deferSys now ns e).ready now = true) : e.ready now = true := by
  unfold deferSys at h
  split at h
  · split at h
    · simp [QEntry.ready] at h
    · exact h
  · exact h

/-- A sequencer's entry as it stands at the start of the cycle: a secondary write that meets a primary one deferred, a `VLDZ` record settled. -/
def State.turnEntry (s : State) (c : Nat) (q : Seq) (e : QEntry) : QEntry :=
  settleEntry s.now (match q with
    | .primary => e
    | .secondary => deferSys s.now (s.primSys c) e)

theorem State.turnEntry_eff (s : State) (c : Nat) (q : Seq) (e : QEntry) :
    (s.turnEntry c q e).eff.dest = e.eff.dest ∧ (s.turnEntry c q e).eff.rank = e.eff.rank := by
  unfold State.turnEntry
  obtain ⟨hd, hr⟩ := settleEntry_eff s.now (match q with
    | .primary => e
    | .secondary => deferSys s.now (s.primSys c) e)
  rw [hd, hr]
  cases q with
  | primary => exact ⟨rfl, rfl⟩
  | secondary => exact ⟨congrArg _ (deferSys_eff _ _ _), congrArg _ (deferSys_eff _ _ _)⟩

theorem State.turnEntry_ready {s : State} {c : Nat} {q : Seq} {e : QEntry} (h : (s.turnEntry c q e).ready s.now = true) : lands s e = true := by
  unfold State.turnEntry at h
  rw [settleEntry_ready] at h
  cases q with
  | primary => exact h
  | secondary => exact deferSys_ready h

/-- A result stands as it is. -/
theorem State.turnEntry_of_reg {s : State} {c : Nat} {q : Seq} {e : QEntry} {r : RRef} {v : Reg} (h : e.eff = .reg r v) : s.turnEntry c q e = e := by
  have hs : settleEntry s.now e = e := settleEntry_of_rank fun f r n eb raw he => by
    rw [h] at he
    cases he
  cases q with
  | primary => exact hs
  | secondary =>
    have hd : deferSys s.now (s.primSys c) e = e := by
      unfold deferSys
      rw [h]
    exact (congrArg (settleEntry s.now) hd).trans hs

/-! ### The order of landing -/

/-- An H result that gives way: no write port is left to it, or a primary result takes its register. -/
def QEntry.givesWay (free : Nat) (taken : List RRef) (e : QEntry) : Bool :=
  e.isH && (free == 0 || (match e.eff.dest with
    | some d => taken.contains d
    | none => false))

section
variable {now : Nat} {taken : List RRef}

theorem splitLand_cons_stays {free : Nat} {e : QEntry} (h : (e.ready now && !e.givesWay free taken) = false) (l : List QEntry) :
    splitLand now free taken (e :: l) = ((splitLand now free taken l).1, e :: (splitLand now free taken l).2) := by
  rw [splitLand]
  by_cases hr : e.ready now = true
  · rw [hr, Bool.true_and, Bool.not_eq_false', QEntry.givesWay, Bool.and_eq_true] at h
    rw [hr, if_neg (by decide), if_pos h.1]
    exact if_pos h.2
  · rw [Bool.eq_false_iff.2 hr, if_pos (by decide)]

theorem splitLand_cons_lands {free : Nat} {e : QEntry} (h : (e.ready now && !e.givesWay free taken) = true) (l : List QEntry) :
    splitLand now free taken (e :: l) = (e :: (splitLand now (if e.isH then free - 1 else free) taken l).1,
      (splitLand now (if e.isH then free - 1 else free) taken l).2) := by
  rw [Bool.and_eq_true, Bool.not_eq_true', QEntry.givesWay] at h
  obtain ⟨hr, hg⟩ := h
  rw [splitLand, hr, if_neg (by decide)]
  by_cases hh : e.isH = true
  · rw [hh, Bool.true_and] at hg
    simp only [hh, if_true]
    exact if_neg fun h' => Bool.false_ne_true (hg.symm.trans h')
  · simp only [Bool.eq_false_iff.2 hh, Bool.false_eq_true, if_false]

theorem mem_splitLand_fst {e : QEntry} : ∀ {l : List QEntry} {free : Nat}, e ∈ (splitLand now free taken l).1 → e ∈ l ∧ e.ready now = true
  | [], _, h => by cases h
  | f :: l, free, h => by
    cases hc : f.ready now && !f.givesWay free taken with
    | false =>
      rw [splitLand_cons_stays hc] at h
      exact ⟨List.mem_cons_of_mem _ (mem_splitLand_fst h).1, (mem_splitLand_fst h).2⟩
    | true =>
      rw [splitLand_cons_lands hc] at h
      rcases List.mem_cons.1 h with rfl | h
      · exact ⟨List.mem_cons_self, (Bool.and_eq_true _ _ ▸ hc).1⟩
      · exact ⟨List.mem_cons_of_mem _ (mem_splitLand_fst h).1, (mem_splitLand_fst h).2⟩

/-- A result for a register of the sequencer's own gives way to none. -/
theorem mem_splitLand_of_own {e : QEntry} (hr : e.ready now = true) (hh : e.isH = false) :
    ∀ {l : List QEntry} {free : Nat}, e ∈ l → e ∈ (splitLand now free taken l).1
  | f :: l, free, h => by
    cases hc : f.ready now && !f.givesWay free taken with
    | false =>
      rw [splitLand_cons_stays hc]
      refine mem_splitLand_of_own hr hh ((List.mem_cons.1 h).resolve_left fun e => ?_)
      subst e
      rw [hr, QEntry.givesWay, hh] at hc
      cases hc
    | true =>
      rw [splitLand_cons_lands hc]
      rcases List.mem_cons.1 h with rfl | h
      · exact List.mem_cons_self
      · exact List.mem_cons_of_mem _ (mem_splitLand_of_own hr hh h)

/-- With a port for every entry, all that are ready land. -/
theorem splitLand_of_free : ∀ {l : List QEntry} {free : Nat}, l.length ≤ free →
    splitLand now free [] l = (l.filter fun e => e.ready now, l.filter fun e => !e.ready now)
  | [], _, _ => rfl
  | e :: l, free, h => by
    rw [List.length_cons] at h
    have hg : e.givesWay free [] = false := by
      have h0 : (free == 0) = false := beq_false_of_ne (by omega)
      unfold QEntry.givesWay
      rw [h0]
      cases e.eff.dest <;> simp
    cases hr : e.ready now with
    | false =>
      rw [splitLand_cons_stays (by rw [hr]; rfl), splitLand_of_free (by omega)]
      simp [hr]
    | true =>
      rw [splitLand_cons_lands (by rw [hr, hg]; rfl), splitLand_of_free (by split <;> omega)]
      simp [hr]

/-- Without a port, an H result stays. -/
theorem mem_splitLand_snd {e : QEntry} (hh : e.isH = true) : ∀ {l : List QEntry}, e ∈ l → e ∈ (splitLand now 0 taken l).2
  | f :: l, h => by
    cases hc : f.ready now && !f.givesWay 0 taken with
    | false =>
      rw [splitLand_cons_stays hc]
      rcases List.mem_cons.1 h with rfl | h
      · exact List.mem_cons_self
      · exact List.mem_cons_of_mem _ (mem_splitLand_snd hh h)
    | true =>
      rw [splitLand_cons_lands hc, show (if f.isH = true then 0 - 1 else 0) = 0 from ite_self 0]
      refine mem_splitLand_snd hh ((List.mem_cons.1 h).resolve_left fun e => ?_)
      subst e
      rw [QEntry.givesWay, hh] at hc
      simp at hc

end

/-! ### All the results of a cycle -/

/-- The entries of a sequencer that land in this cycle, and those that stay. -/
def State.landing (s : State) (c : Nat) (q : Seq) : List QEntry × List QEntry :=
  let hs := match q with
    | .primary => []
    | .secondary => s.primH c
  splitLand s.now (match q with
    | .primary => (s.seq c q).queue.length
    | .secondary => 2 - hs.length) (hs.filterMap fun e => e.eff.dest) ((s.seq c q).queue.map (s.turnEntry c q))

/-- The entries that stay alone are left in the queue. -/
def State.staying (s : State) (c : Nat) (q : Seq) : State := s.updSeq c q fun y => { y with queue := (s.landing c q).2 }

/-- The state in which every entry has landed, before the primary's changes of its registers are noted. -/
def State.landed (s : State) (c : Nat) (q : Seq) : State :=
  (byRank (s.landing c q).1).foldl (fun t e => t.landOne c q e) (s.staying c q)

theorem State.land_eq {s : State} {c : Nat} {q : Seq} (hf : q = .primary → (s.seq c .primary).frozen = none) :
    s.land c q = match q with
      | .primary => (s.landed c .primary).updCore c fun k => { k with dirty := k.dirty ||| dirtyBits (s.seq c .primary) k.prim }
      | .secondary => s.landed c .secondary := by
  unfold State.land
  cases q with
  | primary =>
    dsimp only
    rw [hf rfl]
    rfl
  | secondary =>
    dsimp only
    rw [show ((s.seq c .secondary).frozen.isSome && Seq.secondary == Seq.primary) = false from Bool.and_false _]
    rfl

theorem State.land_fields {s : State} {c : Nat} {q : Seq} (hf : q = .primary → (s.seq c .primary).frozen = none) :
    (s.land c q).mem = (s.landed c q).mem ∧ (s.land c q).poison = (s.landed c q).poison ∧ (s.land c q).accesses = (s.landed c q).accesses
      ∧ (s.land c q).now = (s.landed c q).now ∧ (s.land c q).moorings = (s.landed c q).moorings := by
  rw [State.land_eq hf]
  cases q <;> exact ⟨rfl, rfl, rfl, rfl, rfl⟩

theorem State.tidy_updSeq {s : State} (ht : Tidy Core.init s.cores) (c : Nat) (q : Seq) (f : SeqState → SeqState) :
    Tidy Core.init (s.updSeq c q f).cores := tidy_sset ht c _

theorem State.tidy_landed {s : State} (ht : Tidy Core.init s.cores) (c : Nat) (q : Seq) : Tidy Core.init (s.landed c q).cores :=
  (stepsCores_landOne s.now c q).tidy rfl (State.tidy_updSeq ht c q _)

theorem State.land_core {s : State} {c : Nat} {q : Seq} (ht : Tidy Core.init s.cores) (hf : q = .primary → (s.seq c .primary).frozen = none) :
    (∃ b, (s.land c q).core c = { (s.landed c q).core c with dirty := b }) ∧ ∀ d, d ≠ c → (s.land c q).core d = (s.landed c q).core d := by
  rw [State.land_eq hf]
  cases q with
  | primary =>
    refine ⟨⟨_, (State.core_updCore (s.tidy_landed ht c .primary) _ _ _).trans (if_pos rfl)⟩, fun d hd => ?_⟩
    exact (State.core_updCore (s.tidy_landed ht c .primary) _ _ _).trans (if_neg hd)
  | secondary => exact ⟨⟨_, rfl⟩, fun _ _ => rfl⟩

theorem State.landed_core_other {s : State} (ht : Tidy Core.init s.cores) {c d : Nat} (q : Seq) (hd : d ≠ c) : (s.landed c q).core d = s.core d := by
  unfold State.landed
  refine ((stepsCores_landOne s.now c q).core_other (s := s.staying c q) rfl (State.tidy_updSeq ht c q _) fun h => ?_).trans (sget_sset_other ht _ hd)
  obtain ⟨-, -, h⟩ := List.mem_map.1 h
  exact hd h.symm

theorem SeqState.landFlags_queue (x : SeqState) (e : QEntry) : (x.landFlags e).queue = x.queue := by
  unfold SeqState.landFlags SeqState.lose
  cases e.loss <;> rfl

/-- A write of a system register leaves what is not one alone. -/
theorem SeqState.sysWrite_fields (x : SeqState) (n : Nat) (v : Word) :
    (x.sysWrite n v).queue = x.queue ∧ (x.sysWrite n v).a = x.a ∧ (x.sysWrite n v).m = x.m := by
  unfold SeqState.sysWrite
  dsimp only
  split_ifs <;> exact ⟨rfl, rfl, rfl⟩

theorem Core.sysWrite_fields (k : Core) (q : Seq) (n : Nat) (v : Word) : ((k.sysWrite q n v).seq q).queue = (k.seq q).queue
    ∧ ((k.sysWrite q n v).seq q).a = (k.seq q).a ∧ ((k.sysWrite q n v).seq q).m = (k.seq q).m ∧ (k.sysWrite q n v).h = k.h := by
  unfold Core.sysWrite
  split_ifs
  any_goals cases q <;> exact ⟨rfl, rfl, rfl, rfl⟩
  rw [Core.seq_setSeq, Core.setSeq_h]
  obtain ⟨h1, h2, h3⟩ := (k.seq q).sysWrite_fields n v
  exact ⟨h1, h2, h3, rfl⟩

theorem Core.landEff_queue (k : Core) (q : Seq) (f : QEff) : ((k.landEff q f).seq q).queue = (k.seq q).queue := by
  have hbind : 2 ≤ f.rank → ((k.setSeq q ((k.seq q).landEff f)).seq q).queue = (k.seq q).queue := fun h2 => by
    rw [Core.seq_setSeq]
    exact SeqState.landEff_bind_keeps SeqState.queue (fun _ _ => rfl) (fun _ _ _ => rfl) _ h2
  cases f with
  | reg r' v =>
    unfold Core.landEff Core.setReg
    dsimp only
    split
    · cases q <;> rfl
    · rw [Core.seq_setSeq, SeqState.setReg_queue]
  | vec f r' lo n v => cases f <;> cases q <;> rfl
  | sys n v => exact (k.sysWrite_fields q n v).1
  | iter i b => exact hbind (Nat.le_refl 2)
  | push level => exact hbind (Nat.le_succ 2)
  | bnet _ _ _ | watch _ _ => exact (congrArg SeqState.queue (Core.seq_setSeq _ _ _)).trans rfl
  | engq _ _ _ _ | vz _ _ _ _ _ => rfl

theorem Core.landAt_queue (now : Nat) (q : Seq) (e : QEntry) (k : Core) : ((Core.landAt now q e k).seq q).queue = (k.seq q).queue := by
  unfold Core.landAt
  split
  · exact (congrArg SeqState.queue (Core.seq_setSeq _ _ _)).trans rfl
  · unfold Core.landEntry
    rw [Core.seq_setSeq, SeqState.landFlags_queue, Core.landEff_queue]

/-- What has not landed stays. -/
theorem State.landed_queue {s : State} (ht : Tidy Core.init s.cores) (c : Nat) (q : Seq) : ((s.landed c q).seq c q).queue = (s.landing c q).2 := by
  unfold State.landed State.seq
  refine ((stepsCores_landOne s.now c q).core_keeps (fun k => (k.seq q).queue) (Core.landAt_queue s.now q) c (s := s.staying c q) rfl (State.tidy_updSeq ht c q _)).trans ?_
  exact congrArg SeqState.queue (State.seq_updSeq ht c q fun y => { y with queue := (s.landing c q).2 })

/-- In one cycle the system registers come first. -/
theorem byRank_eq (es : List QEntry) :
    byRank es = (es.filter fun e => e.eff.rank == 0) ++ [1, 2, 3].flatMap fun r => es.filter fun e => e.eff.rank == r := rfl

theorem mem_byRank {es : List QEntry} {e : QEntry} (h : e ∈ byRank es) : e ∈ es := by
  obtain ⟨r, -, hr⟩ := List.mem_flatMap.1 h
  exact (List.mem_filter.1 hr).1

/-- The last of several results for a register stands, with the flags of each. -/
theorem foldl_landOne_reg {now : Nat} {q : Seq} {r : RRef} {v : Reg} {e : QEntry} (hr : r.scalar) (he : e.eff = .reg r v) {l : List QEntry}
    (hrank : ∀ f ∈ l, f.eff.rank ≠ 0) (hother : ∀ f ∈ l, f = e ∨ f.eff.dest ≠ some r) (hm : r.file = .m → ∀ f ∈ l, f.eff.rank < 2)
    {c : Nat} {s : State} (hn : s.now = now) (ht : Tidy Core.init s.cores)
    (h : e ∈ l ∨ (s.core c).reg q r = r.kept v ∧ ((s.core c).seq q).flags &&& e.sets = e.sets) :
    let k := (l.foldl (fun t e => t.landOne c q e) s).core c
    k.reg q r = r.kept v ∧ (k.seq q).flags &&& e.sets = e.sets := by
  induction l generalizing s with
  | nil => exact h.resolve_left List.not_mem_nil
  | cons f l ih =>
    have hs := stepsCores_landOne now c q
    obtain ⟨ht', hc⟩ := hs.step hn ht f
    have hf := hrank f List.mem_cons_self
    have hcore : (s.landOne c q f).core c = (s.core c).landEntry q f := ((hc c).trans (if_pos rfl)).trans (Core.landAt_of_rank hf)
    obtain ⟨w, hw⟩ := (s.core c).landEntry_flags q hf
    refine ih (fun g hg => hrank g (List.mem_cons_of_mem _ hg)) (fun g hg => hother g (List.mem_cons_of_mem _ hg))
      (fun e g hg => hm e g (List.mem_cons_of_mem _ hg)) (hs s f hn).1 ht' ?_
    rw [or_iff_not_imp_left]
    intro hel
    rw [hcore, hw, Core.reg_landEntry]
    by_cases hfe : f = e
    · subst hfe
      rw [he]
      exact ⟨Core.reg_setReg_self _ q hr v, and_self_of_or _ _ _⟩
    · obtain ⟨h1, h2⟩ := h.resolve_left fun hmem => (List.mem_cons.1 hmem).elim (fun e => hfe e.symm) hel
      rw [Core.reg_landEff_ne _ q ((hother f List.mem_cons_self).resolve_left hfe) (fun e => hm e f List.mem_cons_self), h1]
      exact ⟨rfl, or_and_of_and _ h2⟩

theorem State.reg_landed {s : State} {c : Nat} {q : Seq} (ht : Tidy Core.init s.cores) {e : QEntry} {r : RRef} {v : Reg} (hr : r.scalar)
    (he : e.eff = .reg r v) (hmem : e ∈ (s.landing c q).1) (hother : ∀ f ∈ (s.landing c q).1, f = e ∨ f.eff.dest ≠ some r)
    (hm : r.file = .m → ∀ f ∈ (s.landing c q).1, f.eff.rank < 2) :
    ((s.landed c q).core c).reg q r = r.kept v ∧ ((s.landed c q).seq c q).flags &&& e.sets = e.sets := by
  have hB : ∀ f, f ∈ [1, 2, 3].flatMap (fun r => (s.landing c q).1.filter fun e => e.eff.rank == r) → f ∈ (s.landing c q).1 ∧ f.eff.rank ≠ 0 :=
    fun f hf => by
      obtain ⟨n, hn, hf⟩ := List.mem_flatMap.1 hf
      obtain ⟨hf, hfr⟩ := List.mem_filter.1 hf
      refine ⟨hf, ?_⟩
      rw [beq_iff_eq.1 hfr]
      rintro rfl
      simp at hn
  have hs := stepsCores_landOne s.now c q
  unfold State.landed State.seq
  rw [byRank_eq, List.foldl_append]
  refine foldl_landOne_reg hr he (fun f hf => (hB f hf).2) (fun f hf => hother f (hB f hf).1) (fun h f hf => hm h f (hB f hf).1)
    (hs.now rfl) (hs.tidy rfl (State.tidy_updSeq ht c q _)) (.inl ?_)
  refine List.mem_flatMap.2 ⟨1, by simp, List.mem_filter.2 ⟨hmem, ?_⟩⟩
  rw [he]
  rfl

/-- Of the results that are due, the last for a register is what stands in it. -/
theorem State.reg_land {s : State} {c : Nat} {q : Seq} (ht : Tidy Core.init s.cores) (hfz : q = .primary → (s.seq c .primary).frozen = none)
    {e : QEntry} {r : RRef} {v : Reg} (hr : r.scalar) (he : e.eff = .reg r v) (hmem : e ∈ (s.landing c q).1)
    (hother : ∀ f ∈ (s.seq c q).queue, lands s f = true → f = e ∨ f.eff.dest ≠ some r)
    (hm : r.file = .m → ∀ f ∈ (s.seq c q).queue, lands s f = true → f.eff.rank < 2) :
    ((s.land c q).core c).reg q r = r.kept v ∧ ((s.land c q).seq c q).flags &&& e.sets = e.sets := by
  have hl : ∀ f ∈ (s.landing c q).1, ∃ g ∈ (s.seq c q).queue, lands s g = true ∧ s.turnEntry c q g = f := fun f hf => by
    obtain ⟨hf, hready⟩ := mem_splitLand_fst hf
    obtain ⟨g, hg, rfl⟩ := List.mem_map.1 hf
    exact ⟨g, hg, State.turnEntry_ready hready, rfl⟩
  obtain ⟨b, hb⟩ := (State.land_core ht hfz).1
  unfold State.seq
  rw [hb]
  have key := State.reg_landed (c := c) ht hr he hmem (fun f hf => by
      obtain ⟨g, hg, hgl, rfl⟩ := hl f hf
      rcases hother g hg hgl with rfl | h
      · exact .inl (State.turnEntry_of_reg he)
      · exact .inr ((s.turnEntry_eff c q g).1 ▸ h))
    (fun h f hf => by
      obtain ⟨g, hg, hgl, rfl⟩ := hl f hf
      exact (s.turnEntry_eff c q g).2 ▸ hm h g hg hgl)
  cases q <;> exact key

/-! ### Results of the own registers -/

theorem fPZ_testBit {f : BitVec 10} (h : f &&& fPZ = fPZ) : f.toNat / 256 % 2 = 1 := by
  have h8 : f.getLsbD 8 = true := by
    have h8 := congrArg (BitVec.getLsbD · 8) h
    rw [show fPZ = 256#10 from rfl] at h8
    simpa using h8
  rw [BitVec.getLsbD, Nat.testBit_eq_decide_div_mod_eq, decide_eq_true_eq] at h8
  exact h8

theorem and_left_of_or {w : Nat} {f a b : BitVec w} (h : f &&& (a ||| b) = a ||| b) : f &&& a = a := by
  have ha : (a ||| b) &&& a = a := or_and_of_and b BitVec.and_self
  rw [← ha, ← BitVec.and_assoc, h]

/-- A result that lands, of its own or of the H registers, with what it leaves in `FLAGS`. -/
theorem State.exec_resultLanding_reg {s : State} {c : Nat} {q : Seq} (hl : Spec.Landing s c q) {e : QEntry} {r : RRef} {v : Reg} (hr : r.scalar)
    (he : e.eff = .reg r v) (hmem : e ∈ (s.landing c q).1)
    (hother : ∀ f ∈ (s.seq c q).queue, lands s f = true → f = e ∨ f.eff.dest ≠ some r)
    (hm : r.file = .m → ∀ f ∈ (s.seq c q).queue, lands s f = true → f.eff.rank < 2) :
    ∃ t, exec (.resultLanding c q) s = .next t ∧ (t.core c).reg q r = r.kept v ∧ (t.seq c q).flags &&& e.flags = e.flags
      ∧ (v.poi = true → (t.seq c q).flags.toNat / 256 % 2 = 1) := by
  obtain ⟨hc, hcanon, hfz⟩ := hl
  obtain ⟨h1, h2⟩ := State.reg_land hcanon.cores hfz hr he hmem hother hm
  refine ⟨s.land c q, ?_, h1, and_left_of_or h2, fun hp => fPZ_testBit ?_⟩
  · change execResultLanding c q s = _
    rw [execResultLanding, if_pos hc]
  · have hpz : flagIf e.eff.poisons fPZ = fPZ := by
      rw [he]
      exact if_pos hp
    unfold QEntry.sets at h2
    rw [hpz, BitVec.or_comm] at h2
    exact and_left_of_or h2

theorem State.mem_landing_of_own {s : State} {c : Nat} {q : Seq} {e : QEntry} {r : RRef} {v : Reg} (hq : e ∈ (s.seq c q).queue)
    (hl : lands s e = true) (he : e.eff = .reg r v) (hr : r.file ≠ .h) : e ∈ (s.landing c q).1 := by
  refine mem_splitLand_of_own hl ?_ (List.mem_map.2 ⟨e, hq, State.turnEntry_of_reg he⟩)
  unfold QEntry.isH
  rw [he]
  exact beq_false_of_ne hr

/-- The primary lands every result that is due. -/
theorem State.landing_primary (s : State) (c : Nat) :
    s.landing c .primary = (((s.seq c .primary).queue.filter (lands s)).map (settleEntry s.now), (s.seq c .primary).queue.filter fun e => !lands s e) := by
  unfold State.landing
  dsimp only
  rw [List.filterMap_nil, splitLand_of_free (by rw [List.length_map]), List.filter_map, List.filter_map]
  have hr : ((fun e : QEntry => e.ready s.now) ∘ s.turnEntry c .primary) = lands s := funext fun e => settleEntry_ready _ _ e
  have hn : ((fun e : QEntry => !e.ready s.now) ∘ s.turnEntry c .primary) = fun e => !lands s e :=
    funext fun e => congrArg not (settleEntry_ready _ _ e)
  rw [hr, hn]
  refine Prod.ext rfl (List.map_congr_left (g := id) (fun e he => ?_) |>.trans (List.map_id _))
  exact settleEntry_of_not_ready (Bool.not_eq_true' _ ▸ (List.mem_filter.1 he).2)

theorem State.landOne_fields {s : State} {c : Nat} {q : Seq} {e : QEntry} (h : ∀ v, e.eff ≠ .sys 0x0B v) :
    (s.landOne c q e).mem = s.mem ∧ (s.landOne c q e).poison = s.poison ∧ (s.landOne c q e).accesses = s.accesses := by
  unfold State.landOne
  split
  · exact ⟨rfl, rfl, rfl⟩
  · dsimp only
    split
    · exact absurd ‹_› (h _)
    · exact ⟨rfl, rfl, rfl⟩
    · exact ⟨rfl, rfl, rfl⟩

theorem State.landed_fields {s : State} {c : Nat} {q : Seq} (h : ∀ e ∈ (s.landing c q).1, ∀ v, e.eff ≠ .sys 0x0B v) :
    (s.landed c q).mem = s.mem ∧ (s.landed c q).poison = s.poison ∧ (s.landed c q).accesses = s.accesses := by
  unfold State.landed
  refine List.foldlRecOn (motive := fun t : State => t.mem = s.mem ∧ t.poison = s.poison ∧ t.accesses = s.accesses) _ _ ⟨rfl, rfl, rfl⟩
    fun t ht e he => ?_
  obtain ⟨h1, h2, h3⟩ := State.landOne_fields (s := t) (c := c) (q := q) (h e (mem_byRank he))
  exact ⟨h1.trans ht.1, h2.trans ht.2.1, h3.trans ht.2.2⟩

theorem settleEntry_sys {now n : Nat} {e : QEntry} {v : Word} (h : (settleEntry now e).eff = .sys n v) : e.eff = .sys n v := by
  unfold settleEntry at h
  split at h
  · split at h
    · cases h
    · exact h
  · exact h

theorem ownResultsLand : Spec.ResultsLand := by
  refine ⟨fun s c q e r v hl hq he heff hf hn hother hm => ?_, fun s c hl hsys => ?_⟩
  · have hr : r.scalar := ⟨List.mem_append_left [File.h] hf, hn⟩
    have hh : r.file ≠ .h := by
      intro e
      rw [e] at hf
      simp at hf
    exact State.exec_resultLanding_reg hl hr heff (State.mem_landing_of_own hq he heff hh) hother hm
  · obtain ⟨hc, hcanon, hfz⟩ := hl
    obtain ⟨⟨b, hb⟩, hother⟩ := State.land_core hcanon.cores hfz
    obtain ⟨hmem, hpoi, hacc, hnow, -⟩ := State.land_fields hfz
    obtain ⟨hmem', hpoi', hacc'⟩ := State.landed_fields (s := s) (c := c) (q := .primary) fun e he v hv => by
      rw [State.landing_primary] at he
      obtain ⟨f, hf, rfl⟩ := List.mem_map.1 he
      exact hsys f (List.mem_filter.1 hf).1 v (settleEntry_sys hv)
    refine ⟨s.land c .primary, ?_, ?_, hmem.trans hmem', hpoi.trans hpoi', hacc.trans hacc',
      hnow.trans ((stepsCores_landOne s.now c .primary).now rfl), fun d hd => (hother d hd).trans (State.landed_core_other hcanon.cores _ hd)⟩
    · change execResultLanding c .primary s = _
      rw [execResultLanding, if_pos hc]
    · rw [State.seq, hb]
      exact (State.landed_queue hcanon.cores c .primary).trans (congrArg Prod.snd (State.landing_primary s c))

/-! ### Results of H and of the system registers -/

theorem sharedResultsLand : Spec.SharedResultsLand := by
  refine ⟨fun s c e n v hl hq he heff hother => ?_, fun s c e n v hl hfz hports hq heff => ?_⟩
  · have hr : RRef.scalar ⟨.h, n.val⟩ := ⟨List.mem_append_right [File.a, .b, .m, .f] List.mem_cons_self, n.isLt⟩
    have hmem : e ∈ (s.landing c .primary).1 := by
      rw [State.landing_primary]
      exact List.mem_map.2 ⟨e, List.mem_filter.2 ⟨hq, he⟩, State.turnEntry_of_reg (s := s) (c := c) (q := .primary) heff⟩
    obtain ⟨t, ht, hreg, -⟩ := State.exec_resultLanding_reg hl hr heff hmem hother (fun h => by cases h)
    exact ⟨t, ht, hreg⟩
  · obtain ⟨hc, hcanon, hfz'⟩ := hl
    refine ⟨s.land c .secondary, ?_, ?_⟩
    · change execResultLanding c .secondary s = _
      rw [execResultLanding, if_pos hc]
    · rw [State.land_eq hfz', State.landed_queue hcanon.cores]
      have h0 : 2 - (s.primH c).length = 0 := by
        have : s.primH c = (s.seq c .primary).queue.filter fun f => f.isH && lands s f := by
          unfold State.primH
          dsimp only
          rw [hfz]
          rfl
        rw [this]
        omega
      unfold State.landing
      dsimp only
      rw [h0]
      refine mem_splitLand_snd ?_ (List.mem_map.2 ⟨e, hq, State.turnEntry_of_reg heff⟩)
      unfold QEntry.isH
      rw [heff]
      rfl

/-- A queue of one write of a system register, which is due. -/
theorem State.landing_of_sys {s : State} {c : Nat} {q : Seq} {e : QEntry} {n : Nat} {v : Word} (hq : (s.seq c q).queue = [e]) (hl : lands s e = true)
    (he : e.eff = .sys n v) (hp : q = .secondary → s.primSys c = []) : s.landing c q = ([e], []) := by
  have ht : s.turnEntry c q e = e := by
    have hs : settleEntry s.now e = e := settleEntry_of_rank fun f r n eb raw h => by
      rw [he] at h
      cases h
    cases q with
    | primary => exact hs
    | secondary =>
      have hd : deferSys s.now (s.primSys c) e = e := by
        unfold deferSys
        rw [he, hp rfl]
        rfl
      exact (congrArg (settleEntry s.now) hd).trans hs
  have hw : ∀ free taken, (e.ready s.now && !e.givesWay free taken) = true := fun free taken => by
    have hr : e.ready s.now = true := hl
    unfold QEntry.givesWay QEntry.isH
    rw [hr, he]
    rfl
  unfold State.landing
  dsimp only
  rw [hq, List.map_cons, List.map_nil, ht, splitLand_cons_lands (hw _ _)]
  rfl

/-- A write of a system register without flags or loss event is that write alone. -/
theorem Core.landEntry_sys {k : Core} {q : Seq} {e : QEntry} {n : Nat} {v : Word} (he : e.eff = .sys n v) (hf : e.flags = 0) (hl : e.loss = none) :
    k.landEntry q e = k.sysWrite q n v := by
  have hx : ∀ x : SeqState, x.landFlags e = x := fun x => by
    unfold SeqState.landFlags
    rw [hl, hf, he]
    simp [SeqState.lose, QEff.poisons, flagIf]
  unfold Core.landEntry
  rw [hx, he]
  generalize hk : k.landEff q (.sys n v) = k'
  have : k' = k.sysWrite q n v := hk.symm
  rw [← this]
  cases q <;> rfl

theorem setWidth_setWidth_and {n : Nat} (hn : n ≤ 64) (v : Word) : (v.setWidth n).setWidth 64 = v &&& BitVec.ofNat 64 (2 ^ n - 1) := by
  have h2 : 2 ^ n ≤ 2 ^ 64 := Nat.pow_le_pow_right (by decide) hn
  have hpos := Nat.two_pow_pos n
  refine BitVec.eq_of_toNat_eq ?_
  have h1 : (2 ^ n - 1) % 2 ^ 64 = 2 ^ n - 1 := Nat.mod_eq_of_lt (by omega)
  rw [BitVec.toNat_and, BitVec.toNat_setWidth, BitVec.toNat_setWidth, BitVec.toNat_ofNat, h1, Nat.and_two_pow_sub_one_eq_mod]
  exact Nat.mod_eq_of_lt (Nat.lt_of_lt_of_le (Nat.mod_lt _ hpos) h2)

theorem ofNat_mod_eq_and {n : Nat} (hn : n ≤ 64) (v : Word) : BitVec.ofNat 64 (v.toNat % 2 ^ n) = v &&& BitVec.ofNat 64 (2 ^ n - 1) := by
  rw [← setWidth_setWidth_and hn]
  refine BitVec.eq_of_toNat_eq ?_
  rw [BitVec.toNat_ofNat, BitVec.toNat_setWidth, BitVec.toNat_setWidth]

/-- What a system register holds after a write. -/
theorem State.sysValue_of_sysWrite {s : State} {c : Nat} {q : Seq} {k : Core} {b : BitVec 224} {n : Nat} {v : Word}
    (hk : s.core c = { k.sysWrite q n v with dirty := b }) (ha : s.accesses = [])
    (hn : n ∈ [0x02, 0x03, 0x04, 0x05, 0x06, 0x07, 0x08, 0x09, 0x0D, 0x0E, 0x0F, 0x11]) : s.sysValue c q n = keeps n v := by
  have hx : (s.core c).seq q = (k.sysWrite q n v).seq q := by
    rw [hk]
    cases q <;> rfl
  have hf : s.flagsNow c q = ((k.sysWrite q n v).seq q).flags := by
    unfold State.flagsNow State.seq
    rw [ha, ← hx]
    rfl
  unfold State.sysValue
  simp only [hf, hk]
  simp only [List.mem_cons, List.not_mem_nil, or_false] at hn
  rcases hn with rfl | rfl | rfl | rfl | rfl | rfl | rfl | rfl | rfl | rfl | rfl | rfl
  · rfl
  · rfl
  · rfl
  · exact (congrArg (fun x : SeqState => x.flags.setWidth 64) (Core.seq_setSeq k q _)).trans (setWidth_setWidth_and (n := 10) (by decide) v)
  · exact (congrArg (fun x : SeqState => x.trapen.setWidth 64) (Core.seq_setSeq k q _)).trans (setWidth_setWidth_and (n := 9) (by decide) v)
  · exact (congrArg (fun x : SeqState => x.sndthr.setWidth 64) (Core.seq_setSeq k q _)).trans (setWidth_setWidth_and (n := 6) (by decide) v)
  · exact congrArg SeqState.sndloss (Core.seq_setSeq k q _)
  · exact congrArg SeqState.sndbase (Core.seq_setSeq k q _)
  · exact setWidth_setWidth_and (n := 56) (by decide) v
  · exact (congrArg SeqState.lnk (Core.seq_setSeq k q _)).trans (ofNat_mod_eq_and (n := 56) (by decide) v)
  · exact (congrArg SeqState.xpc (Core.seq_setSeq k q _)).trans (ofNat_mod_eq_and (n := 56) (by decide) v)
  · exact congrArg SeqState.xinfo (Core.seq_setSeq k q _)

theorem systemRegistersLand : Spec.SystemRegistersLand := by
  intro s c q e n v ⟨hc, hcanon, hfz⟩ hq hl he hflags hloss hdue hacc hprim hn
  have hland := State.landing_of_sys hq hl he hprim
  have hne : ∀ v, e.eff ≠ .sys 0x0B v := fun w hw => by
    rw [he] at hw
    cases hw
    simp at hn
  have hb : byRank [e] = [e] := by
    rw [byRank_eq]
    simp [he, QEff.rank]
  have hlate : ∀ k : Core, k.lateBad s.now e = false := fun k => by
    unfold Core.lateBad
    rw [he]
    simp only [decide_eq_false (Nat.not_lt.2 hdue), Bool.false_and]
  have hcore : (s.landed c q).core c = ((s.core c).setSeq q { s.seq c q with queue := [] }).sysWrite q n v := by
    have h := ((stepsCores_landOne s.now c q).step (s := s.staying c q) rfl (State.tidy_updSeq hcanon.cores c q _) e).2 c
    unfold State.landed
    rw [hland, hb]
    refine (h.trans (if_pos rfl)).trans ?_
    unfold Core.landAt
    rw [hlate, if_neg (by decide), Core.landEntry_sys he hflags hloss]
    have hs : (s.staying c q).core c = (s.core c).setSeq q { s.seq c q with queue := (s.landing c q).2 } := sget_sset_self hcanon.cores _
    rw [hs, hland]
  obtain ⟨⟨b, hk⟩, -⟩ := State.land_core hcanon.cores hfz
  rw [hcore] at hk
  have ha : (s.land c q).accesses = [] := by
    rw [(State.land_fields hfz).2.2.1, (State.landed_fields fun f hf => ?_).2.2, hacc]
    rw [hland] at hf
    exact List.mem_singleton.1 hf ▸ hne
  obtain ⟨fq, fa, fm, fh⟩ := Core.sysWrite_fields ((s.core c).setSeq q { s.seq c q with queue := [] }) q n v
  rw [Core.seq_setSeq] at fq fa fm
  have hx : (s.land c q).seq c q = (((s.core c).setSeq q { s.seq c q with queue := [] }).sysWrite q n v).seq q := by
    rw [State.seq, hk]
    cases q <;> rfl
  rw [Core.setSeq_h] at fh
  refine ⟨s.land c q, ?_, State.sysValue_of_sysWrite hk ha hn, hx ▸ fq, hx ▸ fa, hx ▸ fm, hk ▸ fh⟩
  change execResultLanding c q s = _
  rw [execResultLanding, if_pos hc]

/-! ### Items of watches (R59, R443) -/

theorem Core.landEntry_watch {k : Core} {q : Seq} {e : QEntry} {n : Nat} {item : Word} (he : e.eff = .watch n item) :
    ((k.landEntry q e).seq q).wt = (k.seq q).wt.setIfInBounds (n % 4) item := by
  have hx : ∀ x : SeqState, (x.landFlags e).wt = x.wt := fun x => by
    unfold SeqState.landFlags SeqState.lose
    cases e.loss <;> rfl
  unfold Core.landEntry
  rw [Core.seq_setSeq, hx, he]
  exact congrArg SeqState.wt (Core.seq_setSeq k q _)

theorem State.landOne_watch {s : State} (ht : Tidy Core.init s.cores) {c : Nat} {q : Seq} {e : QEntry} {n : Nat} {item : Word}
    (he : e.eff = .watch n item) : Tidy Core.init (s.landOne c q e).cores
      ∧ ((s.landOne c q e).seq c q).wt = (s.seq c q).wt.setIfInBounds (n % 4) item ∧ (s.landOne c q e).mem = s.mem
      ∧ (s.landOne c q e).moorings = s.moorings := by
  have hr : e.eff.rank ≠ 0 := by
    rw [he]
    exact Nat.one_ne_zero
  obtain ⟨ht', hc⟩ := (stepsCores_landOne s.now c q).step rfl ht e
  refine ⟨ht', ?_, ?_⟩
  · rw [State.seq, hc c, if_pos rfl, Core.landAt_of_rank hr, Core.landEntry_watch he]
    rfl
  · unfold State.landOne
    rw [he]
    split <;> exact ⟨rfl, rfl⟩

/-- An item that lands once or more often stands in its watch register. -/
theorem foldl_landOne_watch {c n : Nat} {q : Seq} {e : QEntry} {item : Word} (he : e.eff = .watch n item) (m : Nat) {s : State}
    (ht : Tidy Core.init s.cores) :
    let t := (List.replicate (m + 1) e).foldl (fun t e => t.landOne c q e) s
    (t.seq c q).wt = (s.seq c q).wt.setIfInBounds (n % 4) item ∧ t.mem = s.mem ∧ t.moorings = s.moorings := by
  induction m generalizing s with
  | zero => exact (State.landOne_watch ht he).2
  | succ m ih =>
    obtain ⟨ht', gw, g2, g3⟩ := State.landOne_watch (c := c) (q := q) ht he
    obtain ⟨h1, h2, h3⟩ := ih ht'
    rw [List.replicate_succ, List.foldl_cons]
    refine ⟨?_, h2.trans g2, h3.trans g3⟩
    rw [h1, gw]
    simp

/-- An item of a watch register that lands in this cycle. -/
def QEntry.itemDue (now : Nat) (e : QEntry) : Bool := e.eff.isWatch && e.ready now

/-- The items that land now leave the queue. -/
def State.itemsTaken (s : State) (c : Nat) : State := s.updSeq c .primary fun y => { y with queue := y.queue.filter fun e => !e.itemDue s.now }

theorem exec_watchItemLanding {s : State} {c : Nat} (hc : c < nCores) (hf : (s.seq c .primary).frozen = none) :
    exec (.watchItemLanding c) s = .next (((s.seq c .primary).queue.filter (QEntry.itemDue s.now)).foldl (fun t e => t.landOne c .primary e)
      (s.itemsTaken c)) := by
  change execWatchItemLanding c s = _
  rw [execWatchItemLanding, if_pos hc]
  dsimp only
  rw [hf]
  rfl

theorem watchItemsLand : Spec.WatchItemsLand := by
  intro s c n e item ⟨hc, hcanon, hfz⟩ hq hl he hflags hloss hone
  have hdue : e.itemDue s.now = true := by
    have hr : e.ready s.now = true := hl
    rw [QEntry.itemDue, hr, he]
    rfl
  have hmem : e ∈ (s.seq c .primary).queue.filter (QEntry.itemDue s.now) := List.mem_filter.2 ⟨hq, hdue⟩
  have hrep := List.eq_replicate_of_mem (l := (s.seq c .primary).queue.filter (QEntry.itemDue s.now)) (a := e) fun f hf => by
    obtain ⟨hf, hw⟩ := List.mem_filter.1 hf
    obtain ⟨h1, h2⟩ := Bool.and_eq_true_iff.1 hw
    exact hone f hf h2 h1
  obtain ⟨m, hm⟩ := Nat.exists_eq_succ_of_ne_zero (List.length_pos_of_mem hmem).ne'
  have hex := exec_watchItemLanding hc (hfz rfl)
  rw [hrep, hm] at hex
  have ht : Tidy Core.init (s.itemsTaken c).cores := State.tidy_updSeq hcanon.cores c .primary _
  have hs : (s.itemsTaken c).seq c .primary = { s.seq c .primary with queue := (s.seq c .primary).queue.filter fun e => !e.itemDue s.now } :=
    State.seq_updSeq hcanon.cores c .primary fun y => { y with queue := y.queue.filter fun e => !e.itemDue s.now }
  obtain ⟨hwt, hmem', hmoor⟩ := foldl_landOne_watch (c := c) (q := .primary) he m ht
  have hqueue := (stepsCores_landOne s.now c .primary).core_keeps (fun k => (k.seq .primary).queue) (Core.landAt_queue s.now .primary) c
    (l := List.replicate (m + 1) e) (s := s.itemsTaken c) rfl ht
  rw [hs] at hwt
  refine ⟨_, hex, ?_, fun k hk hkn => ?_, fun hin => ?_, hmem', hmoor⟩
  · rw [hwt]
    have h4 : n % 4 < 4 := Nat.mod_lt _ (by decide)
    simp [Vector.getD, Array.getD, h4]
  · rw [hwt]
    exact getD_setIfInBounds_ne _ _ _ (Ne.symm hkn)
  · have hin' : e ∈ ((s.itemsTaken c).seq c .primary).queue := hqueue ▸ hin
    rw [hs] at hin'
    have := (List.mem_filter.1 hin').2
    rw [hdue] at this
    cases this

/-- Settles O32: the landings of results, of items, of H results and of system registers. -/
theorem resultsLand : Obligations.ResultsLand :=
  ⟨⟨ownResultsLand, watchItemsLand⟩, sharedResultsLand, systemRegistersLand⟩

end Sys2Proof.Machine
end

section
/-! SUPPORT. Syllables that bring accesses to perform (R50, R199, R200, R348, R363, R364, R384, R385, R401, R405): what the issue leaves as it was,
step by step of its effect, and the operations of the bank ALU, the exchange between cores and `ITSET` (O11). -/

namespace Sys2Proof.Machine
open Config Sys2Proof.Spec

/-! ### The effect of a syllable, step by step -/

/-- A state that a syllable has brought accesses to: it differs in them, in its cores and in the bank-cycles held. -/
def State.broughtTo (s : State) (accs : List Access) (cs : List (Nat × Core)) (hs : List HoldRec) : State :=
  { s with cores := cs, holds := hs, accesses := s.accesses ++ accs, nextId := s.nextId + accs.length }

/-- A syllable so far: it has brought accesses and results to come, and held units and bank-cycles. -/
structure State.Brings (s t : State) (accs : List Access) (es : List QEntry) : Prop where
  frame : ∃ cs hs, t = s.broughtTo accs cs hs
  cur : t.cur = { s.cur with queue := s.cur.queue ++ es }

theorem State.walkTime_eq_walk (s : State) (sp : Space) (va : Nat) : s.walkTime sp va = walk s sp va := by
  unfold State.walkTime walk
  cases s.ctx.q <;> cases sp <;> rfl

theorem State.brings_holding (s : State) (sl : Slot) {n : Nat} (hn : 0 < n) : s.Brings (s.holding sl n) [] [] where
  frame := by
    refine ⟨(s.holding sl n).cores, s.holds, ?_⟩
    unfold State.broughtTo
    rw [List.append_nil]
    exact s.holding_eq sl n
  cur := by rw [s.holding_cur sl hn, List.append_nil]

namespace State.Brings
variable {s t : State} {accs : List Access} {es : List QEntry}

theorem adds (h : s.Brings t accs es) : Adds s t accs es := by
  obtain ⟨⟨cs, hs, rfl⟩, hcur⟩ := h
  exact ⟨rfl, rfl, hcur, rfl, rfl, rfl, rfl, rfl⟩

theorem now (h : s.Brings t accs es) : t.now = s.now := h.adds.2.2.2.2.1
theorem ctx (h : s.Brings t accs es) : t.ctx = s.ctx := h.adds.2.2.2.1
theorem nextId (h : s.Brings t accs es) : t.nextId = s.nextId + accs.length := h.adds.2.1
theorem waitsIn (h : s.Brings t accs es) (sp : Space) : t.waitsIn sp = s.waitsIn sp := by
  obtain ⟨⟨cs, hs, rfl⟩, -⟩ := h
  rfl

/-- Bank-cycles that the syllable holds. -/
theorem withHolds (h : s.Brings t accs es) (hs : List HoldRec) : s.Brings { t with holds := hs } accs es := by
  obtain ⟨⟨cs, hs', rfl⟩, hcur⟩ := h
  exact ⟨⟨cs, hs, rfl⟩, hcur⟩

theorem holdSent (h : s.Brings t accs es) (sp : Space) (us : List Use) (i : Nat) : s.Brings (t.holdSent sp us i) accs es := by
  unfold State.holdSent
  split
  · exact h
  · split
    · exact h
    · dsimp only
      split
      · exact h.withHolds _
      · exact h.withHolds _

theorem withAccess (h : s.Brings t accs es) (a : Access) :
    s.Brings { t with accesses := t.accesses ++ [a], nextId := t.nextId + 1 } (accs ++ [a]) es := by
  obtain ⟨⟨cs, hs, rfl⟩, hcur⟩ := h
  refine ⟨⟨cs, hs, ?_⟩, hcur⟩
  unfold State.broughtTo
  rw [List.length_append, ← List.append_assoc]
  rfl

/-- An access that the syllable brings. -/
theorem addAccess (h : s.Brings t accs es) (tt va : Nat) (kind : AKind) (write : Bool) (sp : Space) (sl : Slot) (link : Nat) :
    s.Brings (t.addAccess tt va kind write (s.waitsIn sp) sp sl link) (accs ++ [acc s accs.length tt va kind write sp sl link]) es := by
  have hacc : acc s accs.length tt va kind write sp sl link = ⟨t.nextId, tt + t.walkTime sp va, t.owner, t.vplace va (if write then .w else .r), kind, write,
      s.waitsIn sp, sp, slotIx sl, t.now, link⟩ := by
    unfold acc
    rw [← State.walkTime_eq_walk]
    obtain ⟨⟨cs, hs, rfl⟩, -⟩ := h
    rfl
  rw [hacc]
  exact h.withAccess _

/-- A change of the core that leaves its sequencers alone. -/
theorem updCore (h : s.Brings t accs es) {f : Core → Core} (hne : f t.kore ≠ Core.init) (hf : ∀ k q, (f k).seq q = k.seq q) :
    s.Brings (t.updCore t.ctx.core f) accs es := by
  refine ⟨?_, ?_⟩
  · obtain ⟨⟨cs, hs, rfl⟩, -⟩ := h
    exact ⟨_, hs, rfl⟩
  · rw [← h.cur]
    show ((t.updCore t.ctx.core f).core t.ctx.core).seq t.ctx.q = _
    rw [State.core_updCore_of_ne hne, hf]
    rfl

/-- A result of the syllable. -/
theorem push (h : s.Brings t accs es) (e : QEntry) : s.Brings (t.push e) accs (es ++ [e]) := by
  refine ⟨?_, ?_⟩
  · obtain ⟨⟨cs, hs, rfl⟩, -⟩ := h
    exact ⟨_, hs, rfl⟩
  · rw [State.push_cur, h.cur, List.append_assoc]

/-- A result that waits for an access. -/
theorem pushHeld (h : s.Brings t accs es) (sp : Space) (d : RRef) (due link : Nat) :
    s.Brings (t.pushHeld sp d due link) accs (es ++ [Spec.held s sp d due link]) := by
  have := h.push (Spec.held s sp d due link)
  unfold State.pushHeld
  rw [h.waitsIn, h.now]
  exact this

end State.Brings

/-! ### What a granted access meets: nothing -/

/-- Bank-cycles that are granted give a primary access no schedule fault. -/
theorem State.useTraps_of_grants {s : State} {sl : Slot} {sp : Space} {us : List Use}
    (h : s.ctx.q = .primary → s.waitsIn sp = false → ∀ u ∈ us, s.grants sp u) : s.useTraps sl sp us = [] := by
  unfold State.useTraps
  cases hq : s.ctx.q with
  | secondary => rfl
  | primary =>
    dsimp only
    cases hw : s.waitsIn sp with
    | true => rfl
    | false =>
      have g := h hq hw
      have h4 : (us.any fun u => !(s.meets u).isEmpty || (u.res.isVault && s.latFail.contains (s.ctx.core, 4))) = false := by
        rw [List.any_eq_false]
        intro u hu
        obtain ⟨g1, g2, -, -⟩ := g u hu
        simpa [g1] using g2
      have h5 : (us.any fun u => u.offWheel s.ctx.core) = false := by
        rw [List.any_eq_false]
        intro u hu
        rw [(g u hu).2.2.1]
        decide
      have h6 : (us.any fun u => u.offLateral sp (s.ctx.core / coresPerCluster)) = false := by
        rw [List.any_eq_false]
        intro u hu
        rw [(g u hu).2.2.2]
        decide
      rw [h4, h5, h6]
      rfl

theorem State.ebbTraps_of_inRegion {s : State} {sp : Space} {off : Nat} (h : s.inRegion sp off) (sl : Slot) : s.ebbTraps sl sp off = [] := by
  obtain ⟨r, hr⟩ := h
  unfold State.ebbTraps
  dsimp only
  rw [hr]
  rfl

theorem State.rmwTraps_of_mayModify {s : State} {sp : Space} {off n : Nat} (h : s.mayModify sp off n) : s.rmwTraps sp off n = [] := by
  obtain ⟨hr, hw⟩ := h
  obtain ⟨spt, hc, -⟩ := State.mcheck_of_takes (sl := .m) (e := 0) hw
  unfold State.rmwTraps
  dsimp only
  rw [State.accTraps_of_takes hr, if_pos hw.1, hc]
  rfl

theorem State.rmwWaits_of_mayModify {s : State} {sp : Space} {off n : Nat} (h : s.mayModify sp off n) :
    s.useWaits sp (s.rmwUses sp off n) = false := State.useWaits_of_takes h.2

theorem State.lockTraps_of_lockFree {s : State} {sp : Space} {off : Nat} (h : s.lockFree sp off) : s.lockTraps sp (s.rmwUses sp off 8) = [] := by
  unfold State.lockTraps
  cases hq : s.ctx.q with
  | secondary => rfl
  | primary =>
    dsimp only
    split
    · rfl
    · rename_i hw
      rw [trapIf_eq_nil, List.any_eq_false]
      intro u hu hany
      obtain ⟨r, hr, hb⟩ := List.any_eq_true.1 hany
      simp only [Bool.and_eq_true, beq_iff_eq, Bool.not_eq_true', decide_eq_true_eq] at hb
      obtain ⟨⟨⟨⟨⟨h1, h2⟩, h3⟩, h4⟩, h5⟩, h6⟩ := hb
      exact h hq (Bool.eq_false_iff.2 hw) u hu r hr h2 h1 h3 h4 h5 h6

theorem atomReach_eq (pool : Bool) : atomReach (poolSpace pool) = if pool then 11 else 3 := by cases pool <;> rfl
theorem reach_eq (sp : Space) : spaceReach sp = reach sp := by cases sp <;> rfl
theorem loadLat_eq (sp : Space) : spaceLd sp = loadLat sp := by cases sp <;> rfl
theorem State.addrX_eq (s : State) (a : Fin 32) (b : RRef) (sc : Bool) (n : Nat) : s.addrX a b sc n = sumAddr s (own .m a) b sc n := rfl

/-! ### The bank ALU -/

/-- A merge-add that the syllable brings. -/
theorem State.Brings.mergeGo {s t : State} {accs : List Access} {es : List QEntry} (h : s.Brings t accs es) (sp : Space) (off : Nat) (x : Reg)
    (ret : Bool) (link : Nat) :
    s.Brings (t.mergeGo sp off x ret link)
      (accs ++ [acc s accs.length (s.now + atomReach sp) (spaceVa s.ctx.core sp off) (.ebbRead x ret) true sp .m link]) es := by
  have hheld : s.Brings (t.holdUses sp (t.rmwUses sp off 8)) accs es := h.holdSent sp _ 0
  unfold State.mergeGo
  dsimp only
  rw [h.now, h.ctx, h.waitsIn]
  refine State.Brings.addAccess ?_ _ _ _ _ _ _ _
  split
  · exact hheld
  · split
    · exact hheld
    · exact hheld.withHolds _

theorem State.holding_nextId (s : State) (sl : Slot) (n : Nat) : (s.holding sl n).nextId = s.nextId := by rw [s.holding_eq]

/-- An operation whose address, banks, region and granules are free meets nothing. -/
theorem State.mergeTraps_eq_nil {s : State} {sp : Space} {off : Nat} {rs : List RRef} (hsound : s.sound rs) (hmod : s.mayModify sp off 8)
    (hreg : s.inRegion sp off) (hlock : s.lockFree sp off) :
    s.rmwTraps sp off 8 ++ s.ebbTraps .m sp off ++ s.lockTraps sp (s.rmwUses sp off 8) ++ s.poisonTraps .m rs = [] := by
  rw [State.rmwTraps_of_mayModify hmod, State.ebbTraps_of_inRegion hreg, State.lockTraps_of_lockFree hlock, State.poisonTraps_of_sound hsound]
  rfl

/-- A syllable that meets nothing takes effect. -/
theorem exec_of_issue {i : Instr} {s : State} {r : Req0} {go : State → State} (he : exec i s = s.issue r go)
    (hc : s.clear r.slot r.busy r.reads r.writes) (ht : r.traps = []) (hw : s.ctx.q = .secondary → r.waits = false) {P : State → Prop}
    (h : P (go (s.holding r.slot r.busy))) : ∃ t, exec i s = .next t ∧ P t := ⟨_, he.trans (State.issue_of_clear hc ht hw), h⟩

section
variable (s : State)

theorem exec_ebbadd (o : SOpnd) (a : Fin 32) (pool : Bool) : exec (.ebbadd o a pool) s =
    s.issue ⟨.m, 1, [o.data, own .m a, o.opnd], [], s.rmwTraps (poolSpace pool) (s.addrX a o.opnd true 8) 8
        ++ s.ebbTraps .m (poolSpace pool) (s.addrX a o.opnd true 8)
        ++ s.lockTraps (poolSpace pool) (s.rmwUses (poolSpace pool) (s.addrX a o.opnd true 8) 8) ++ s.poisonTraps .m [own .m a, o.opnd],
      s.useWaits (poolSpace pool) (s.rmwUses (poolSpace pool) (s.addrX a o.opnd true 8) 8)⟩
    fun t => t.mergeGo (poolSpace pool) (s.addrX a o.opnd true 8) (s.rd o.data) false t.nextId := rfl

theorem exec_ebbld (d : Dst 32) (a : Fin 32) (b : Src 32) (sp : Space) : exec (.ebbld d a b sp) s =
    s.issue ⟨.m, 1, [own .m a, b.ref .m], [⟨d.ref .m, spaceLd sp + 24⟩], s.loadTraps sp (s.addrX a (b.ref .m) true 8) 8 false 0 0
        ++ s.ebbTraps .m sp (s.addrX a (b.ref .m) true 8) ++ s.poisonTraps .m [own .m a, b.ref .m],
      s.useWaits sp (s.loadUses sp (s.addrX a (b.ref .m) true 8) 8 false 0)⟩
    fun t => ((t.holdUses sp (s.loadUses sp (s.addrX a (b.ref .m) true 8) 8 false 0)).addAccess (t.now + spaceReach sp)
      (spaceVa t.ctx.core sp (s.addrX a (b.ref .m) true 8)) .ebbld false (t.waitsIn sp) sp .m t.nextId).pushHeld sp (d.ref .m)
      (t.now + (spaceLd sp + 24)) t.nextId := rfl

theorem exec_gauge (o : SReg) (a : Fin 32) (pool : Bool) : exec (.gauge o a pool) s =
    s.issue ⟨.m, 1, [o.ref, own .m a], [], s.armTraps (poolSpace pool) (s.rd (own .m a)).val.toNat (s.now + spaceReach (poolSpace pool))
        ++ s.poisonTraps .m [o.ref, own .m a],
      s.useWaits (poolSpace pool) (s.accUses .m (poolSpace pool) (s.rd (own .m a)).val.toNat 16 .w (s.now + spaceReach (poolSpace pool)))⟩
    fun t => (t.holdUses (poolSpace pool) (s.accUses .m (poolSpace pool) (s.rd (own .m a)).val.toNat 16 .w
        (s.now + spaceReach (poolSpace pool)))).addAccess (s.now + spaceReach (poolSpace pool))
      (spaceVa t.ctx.core (poolSpace pool) (s.rd (own .m a)).val.toNat) (.gauge ((s.rd o.ref).val.setWidth 32)) true
      (t.waitsIn (poolSpace pool)) (poolSpace pool) .m t.nextId := rfl

end

/-- The reads and the effect of `ATOM`, for its two kinds. -/
def State.atomGo (s : State) (sp : Space) (off : Nat) (d x : RRef) (w64 : Bool) (op : AtomOp) (lat : Nat) (t : State) : State :=
  (if op == .ebb then t.mergeGo sp off (s.rd x) true t.nextId
    else (t.holdUses sp (s.rmwUses sp off (if w64 then 8 else 4))).addAccess (t.now + atomReach sp) (spaceVa t.ctx.core sp off)
      (.atom op w64 (s.rd x) (s.rd d)) true (t.waitsIn sp) sp .m t.nextId).pushHeld sp d (t.now + lat) t.nextId

theorem exec_atom (s : State) (d : Dst 32) (a : Fin 32) (b : Src 32) (pool w64 : Bool) (op : AtomOp) :
    let sp := poolSpace pool
    let off := (s.rd (own .m a)).val.toNat
    let lat := atomReach sp + (if op == .ebb then 24 else 0) + (if pool then 10 else 3)
    exec (.atom d a b pool w64 op) s =
      s.issue ⟨.m, 1, own .m a :: b.ref .m :: (if op == .cas then [d.ref .m] else []), [⟨d.ref .m, lat⟩],
        s.rmwTraps sp off (if w64 then 8 else 4)
          ++ (if op == .ebb then s.ebbTraps .m sp off ++ s.lockTraps sp (s.rmwUses sp off (if w64 then 8 else 4)) else [])
          ++ s.poisonTraps .m [own .m a],
        s.useWaits sp (s.rmwUses sp off (if w64 then 8 else 4))⟩ (s.atomGo sp off (d.ref .m) (b.ref .m) w64 op lat) := rfl

theorem State.Brings.atomGo {s t : State} (h : s.Brings t [] []) (sp : Space) (off : Nat) (d x : RRef) (w64 : Bool) (op : AtomOp) (lat : Nat) :
    s.Brings (s.atomGo sp off d x w64 op lat t)
      [acc s 0 (s.now + atomReach sp) (spaceVa s.ctx.core sp off) (if op = .ebb then .ebbRead (s.rd x) true else .atom op w64 (s.rd x) (s.rd d)) true
        sp .m s.nextId] [Spec.held s sp d (s.now + lat) s.nextId] := by
  have hid : t.nextId = s.nextId := h.nextId
  unfold State.atomGo
  rw [hid, h.now, h.ctx, h.waitsIn]
  refine State.Brings.pushHeld (es := []) ?_ sp d _ _
  by_cases hop : op = .ebb
  · rw [if_pos hop, if_pos (beq_iff_eq.2 hop)]
    exact h.mergeGo sp off _ true _
  · rw [if_neg hop, if_neg (fun e => hop (beq_iff_eq.1 e))]
    exact State.Brings.addAccess (accs := []) (h.holdSent sp _ 0) _ _ _ _ _ _ _

/-- A gauge word that is taken meets nothing, its port included. -/
theorem State.armTraps_of_takes {s : State} {sp : Space} {off t : Nat} (h : s.takes .m sp off 16 16 .w t) : s.armTraps sp off t = [] := by
  obtain ⟨spt, -, hg, -⟩ := State.mcheck_of_takes (e := 0) h
  have hport : s.useTraps .m sp (portUse s.ctx.core 2 sp t) = [] :=
    State.useTraps_of_grants fun hq hw u hu => hg hq hw u (List.mem_append_right _ hu)
  unfold State.armTraps
  dsimp only
  rw [State.accTraps_of_takes h, hport]
  rfl

theorem bankOperationsSchedule : Spec.BankOperationsSchedule := by
  refine ⟨fun s d a b pool w64 op hwf => ?_, fun s o a pool => ?_, fun s d a b sp => ?_, fun s o a pool => ?_⟩
  · intro sp n off reads t0 due hc hsound hmod hebb
    have ht0 : t0 = s.now + atomReach sp := congrArg (s.now + ·) (atomReach_eq pool).symm
    have hdue : due = s.now + (atomReach sp + (if op == .ebb then 24 else 0) + (if pool then 10 else 3)) := by
      have : due = t0 + (if op = .ebb then 24 else 0) + (if pool then 10 else 3) := rfl
      rw [this, ht0]
      simp only [beq_iff_eq, Nat.add_assoc]
    have hreads : reads = own .m a :: b.ref .m :: (if op == .cas then [d.ref .m] else []) := by
      simp only [beq_iff_eq]
      rfl
    rw [hreads, hdue, Nat.add_sub_cancel_left] at hc
    rw [hdue, ht0]
    refine exec_of_issue (exec_atom s d a b pool w64 op) hc ?_ (fun _ => State.rmwWaits_of_mayModify hmod)
      ((s.brings_holding .m Nat.one_pos).atomGo sp off (d.ref .m) (b.ref .m) w64 op _).adds
    have hrmw : s.rmwTraps (poolSpace pool) (s.rd (own .m a)).val.toNat (if w64 then 8 else 4) = [] := State.rmwTraps_of_mayModify hmod
    dsimp only
    rw [hrmw, State.poisonTraps_of_sound hsound, List.append_nil, List.nil_append]
    split
    · rename_i hop
      have hop := beq_iff_eq.1 hop
      obtain ⟨hreg, hlock⟩ := hebb hop
      subst hop
      have h64 : w64 = true := hwf
      rw [h64]
      exact List.append_eq_nil_iff.2 ⟨State.ebbTraps_of_inRegion hreg .m, State.lockTraps_of_lockFree hlock⟩
    · rfl
  · intro sp off hc hsound hmod hreg hlock
    have hb := (s.brings_holding .m Nat.one_pos).mergeGo sp off (s.rd o.data) false s.nextId
    rw [show atomReach sp = if pool then 11 else 3 from atomReach_eq pool] at hb
    refine exec_of_issue (exec_ebbadd s o a pool) hc (State.mergeTraps_eq_nil hsound hmod hreg hlock)
      (fun _ => State.rmwWaits_of_mayModify hmod) ?_
    rw [State.holding_nextId]
    exact hb.adds
  · intro off hc hsound hload hreg
    have h0 := s.brings_holding .m Nat.one_pos
    have hb := ((h0.holdSent sp (s.loadUses sp off 8 false 0) 0).addAccess (s.now + spaceReach sp) (spaceVa s.ctx.core sp off) .ebbld false
      sp .m s.nextId).pushHeld sp (d.ref .m) (s.now + (spaceLd sp + 24)) s.nextId
    rw [reach_eq, loadLat_eq] at hb
    rw [← loadLat_eq] at hc
    refine exec_of_issue (exec_ebbld s d a b sp) hc ?_ (fun _ => State.loadUses_of_mayLoad hload) ?_
    · dsimp only
      rw [State.poisonTraps_of_sound hsound, List.append_nil]
      exact List.append_eq_nil_iff.2 ⟨State.loadTraps_of_mayLoad hload 0, State.ebbTraps_of_inRegion hreg .m⟩
    · dsimp only
      rw [h0.now, h0.ctx, h0.waitsIn, State.holding_nextId, reach_eq, loadLat_eq]
      exact hb.adds
  · intro sp off hc hsound htakes
    have h0 := s.brings_holding .m Nat.one_pos
    have hb := (h0.holdSent sp (s.accUses .m sp off 16 .w (s.now + reach sp)) 0).addAccess (s.now + reach sp) (spaceVa s.ctx.core sp off)
      (.gauge ((s.rd o.ref).val.setWidth 32)) true sp .m s.nextId
    rw [← reach_eq] at htakes
    refine exec_of_issue (exec_gauge s o a pool) hc ?_ (fun _ => State.useWaits_of_takes htakes) ?_
    · refine List.append_eq_nil_iff.2 ⟨State.armTraps_of_takes htakes, State.poisonTraps_of_sound hsound .m⟩
    · dsimp only
      rw [h0.ctx, h0.waitsIn, State.holding_nextId, reach_eq]
      exact hb.adds

/-! ### Exchange between cores, and bindings -/

section
variable (s : State)

theorem exec_itset (it : Fin 8) (a : Fin 32) (b : Src 32) (level : Fin 8) : exec (.itset it a b level) s =
    s.issue ⟨.m, 1, [own .m a, b.ref .m], [], [], false⟩ fun t => t.effect 1 (.iter it.val
      ⟨(s.rd (own .m a)).val, (s.rd (b.ref .m)).val.setWidth 32, level.val, false, s.poisonOf [own .m a, b.ref .m]⟩) := rfl

theorem exec_recv (a : Fin 32) (k : Fin 128) : exec (.recv a k) s =
    s.issue ⟨.m, 1, [own .m a], [], s.secondaryProt .m ++ trapIf (s.kore.recv.any fun r => r.cycle == s.now + k.val) (.sched .m 1)
      ++ s.poisonTraps .m [own .m a], false⟩
    fun t => t.updCore t.ctx.core fun x => { x with recv := x.recv ++ [⟨s.peer ((s.rd (own .m a)).val.toNat % 16), s.now + k.val⟩] } := rfl

/-- Where the bytes of a `SEND` land, or the trap. -/
def State.sendSpot (tgt off n : Nat) : Chk :=
  if spadBytes < off + (if off % n = 0 then n else 1) then .bad (.transl .m off)
  else match s.resolve s.via (s.moorOf s.ctx.core) tgt off (if off % n = 0 then n else 1) .w false with
    | .ok sp => if sp.inSram then .ok sp else .bad (.transl .m off)
    | .transl _ => .bad (.transl .m off)
    | .prot _ => .bad (.prot .m off)

def Chk.usesAt (k : Chk) (n t : Nat) : List Use :=
  match k with
  | .ok sp => sp.uses n t
  | .bad _ => []

def Chk.traps : Chk → List Trap
  | .bad tr => [tr]
  | .ok _ => []

theorem exec_send (o : SOpnd) (a : Fin 32) (sz : Size) :
    let n := sizeBytes sz
    let tgt := s.peer ((s.rd (own .m a)).val.toNat % 16)
    let off := (s.rd o.opnd).val.toNat
    exec (.send o a sz) s =
      s.issue ⟨.m, 1, [o.data, own .m a, o.opnd], [], s.secondaryProt .m ++ (s.sendSpot tgt off n).traps ++ trapIf (off % n != 0) (.misal .m off)
        ++ s.poisonTraps .m [own .m a, o.opnd] ++ s.useTraps .m .own ((s.sendSpot tgt off n).usesAt n (s.now + 12)), false⟩ fun t =>
      { t.addHold .prim ((s.sendSpot tgt off n).usesAt n (s.now + 12)) with
        accesses := t.accesses ++ [⟨t.nextId, s.now + 12, t.owner, .virt (spadVa tgt off) (s.moorOf s.ctx.core) (spadVa tgt off),
          .send (natBytes n (s.rd o.data).val.toNat) (s.rd o.data).poi t.ctx.core tgt, true, false, .own, 2, t.now, t.nextId⟩]
        nextId := t.nextId + 1 } := rfl

end

/-- The bank-cycles of an access are those of its cycle. -/
theorem Spot.uses_t {sp : Spot} {n t : Nat} {u : Use} (h : u ∈ sp.uses n t) : u.t = t := by
  have hat : ∀ pa, u ∈ Machine.usesAt pa n t → u.t = t := fun pa hu => by
    obtain ⟨g, -, hg⟩ := List.mem_filterMap.1 hu
    obtain ⟨r, -, rfl⟩ := Option.map_eq_some_iff.1 hg
    rfl
  unfold Spot.uses at h
  rcases List.mem_append.1 h with h | h
  · exact hat _ h
  · split at h
    · exact hat _ h
    · cases h

theorem exchangeAndBindings : Spec.ExchangeAndBindings := by
  refine ⟨fun s it a b level hc => ?_, fun s a k hq hc hsound hrecv => ?_, fun s o a sz spt hq => ?_⟩
  · exact (exec_itset s it a b level).trans (State.issue_effect hc 1 _)
  · have h0 := s.brings_holding .m Nat.one_pos
    have hprot : s.secondaryProt .m = [] := by
      unfold State.secondaryProt
      rw [hq]
    have harm : (s.kore.recv.any fun r => r.cycle == s.now + k.val) = false := List.any_eq_false.2 fun r hr => by simpa using hrecv r hr
    refine exec_of_issue (P := fun t => Adds s t [] [] ∧ t.kore.recv = _) (exec_recv s a k) hc ?_ (fun _ => rfl) ?_
    · dsimp only
      rw [hprot, harm, State.poisonTraps_of_sound hsound]
      rfl
    · dsimp only
      have hne : ({ (s.holding .m 1).kore with
          recv := (s.holding .m 1).kore.recv ++ [⟨s.peer ((s.rd (own .m a)).val.toNat % 16), s.now + k.val⟩] } : Core) ≠ Core.init := fun e => by
        simpa [Core.init] using congrArg Core.recv e
      refine ⟨(h0.updCore hne fun k q => by cases q <;> rfl).adds, ?_⟩
      show (((s.holding .m 1).updCore (s.holding .m 1).ctx.core _).core (s.holding .m 1).ctx.core).recv = _
      rw [State.core_updCore_of_ne hne]
      show ((s.holding .m 1).core (s.holding .m 1).ctx.core).recv ++ _ = _
      rw [h0.ctx, State.holding_core s .m Nat.one_pos, hq]
      rfl
  · intro n off target hc hsound hin hal hres hsram hgrants
    have h0 := s.brings_holding .m Nat.one_pos
    have hspot : s.sendSpot (s.peer ((s.rd (own .m a)).val.toNat % 16)) (s.rd o.opnd).val.toNat (sizeBytes sz) = .ok spt := by
      show s.sendSpot target off n = .ok spt
      unfold State.sendSpot
      rw [if_pos hal, if_neg (by omega), hres]
      exact if_pos hsram
    have hmis : ((s.rd o.opnd).val.toNat % sizeBytes sz != 0) = false := (bne_eq_false_iff_eq).2 hal
    have hprot : s.secondaryProt .m = [] := by
      unfold State.secondaryProt
      rw [hq]
    have hown : (s.holding .m 1).owner = .seq s.ctx.core .primary := by
      unfold State.owner
      rw [h0.ctx, hq]
    refine exec_of_issue (P := fun t => Adds s t [_] [] ∧ ∀ u ∈ spt.uses n (s.now + 12), ∃ h ∈ t.holds, h.t = s.now + 12 ∧ h.res = u.res ∧ h.own = .prim)
      (exec_send s o a sz) hc ?_ (fun _ => rfl) ?_
    · dsimp only
      rw [hprot, hspot, hmis, State.poisonTraps_of_sound hsound]
      exact State.useTraps_of_grants fun _ _ => hgrants
    · dsimp only
      rw [hspot, hown, h0.ctx, h0.now, State.holding_nextId]
      refine ⟨?_, fun u hu => ?_⟩
      · have := (h0.withHolds ((s.holding .m 1).addHold .prim (spt.uses n (s.now + 12))).holds).withAccess ⟨s.nextId, s.now + 12,
          .seq s.ctx.core .primary, .virt (spadVa target off) (s.moorOf s.ctx.core) (spadVa target off),
          .send (natBytes n (s.rd o.data).val.toNat) (s.rd o.data).poi s.ctx.core target, true, false, .own, 2, s.now, s.nextId⟩
        dsimp only at this
        rw [State.holding_nextId] at this
        exact this.adds
      · have ht : u.t = s.now + 12 := Spot.uses_t hu
        refine ⟨⟨u.t, u.t, u.res, none, .prim, (s.holding .m 1).now, u.gran⟩, List.mem_append_right _ (List.mem_map.2 ⟨u, hu, rfl⟩), ht, rfl, rfl⟩

/-- Settles O11: the bank ALU, the exchange between cores, and `ITSET`. -/
theorem banksAndExchange : Obligations.BanksAndExchange := ⟨bankOperationsSchedule, exchangeAndBindings⟩

end Sys2Proof.Machine
end

section
/-! SUPPORT. Slot E (R102, R103, R250, R346, R366): what the issue of an engine command leaves, and the status that `ENGQ` reads (O17). -/

namespace Sys2Proof.Machine
open Config Sys2Proof.Spec

/-! ### The issue of a command -/

theorem State.holdSent_cores (s : State) (sp : Space) (us : List Use) (i : Nat) : (s.holdSent sp us i).cores = s.cores := by
  unfold State.holdSent
  split
  · rfl
  · split
    · rfl
    · dsimp only
      split <;> rfl

theorem State.holding_fmt (s : State) (sl : Slot) {n : Nat} (hn : 0 < n) : (s.holding sl n).kore.fmt = s.kore.fmt := by
  unfold State.kore
  rw [State.holding_ctx, State.holding_core s sl hn]
  split <;> rfl

/-- The state in which the unit and the bank-cycles of a command are held. -/
def State.engineHeld (s : State) (a : Nat) : State := (s.holding .e 1).holdUses .own (s.blockUses a)

theorem State.brings_engineHeld (s : State) (a : Nat) : s.Brings (s.engineHeld a) [] [] := (s.brings_holding .e Nat.one_pos).holdSent .own _ 0

theorem State.engineHeld_fmt (s : State) (a : Nat) : (s.engineHeld a).kore.fmt = s.kore.fmt := by
  have hctx : (s.engineHeld a).ctx = (s.holding .e 1).ctx := (s.brings_engineHeld a).ctx.trans (s.holding_ctx .e 1).symm
  have hcores : (s.engineHeld a).cores = (s.holding .e 1).cores := State.holdSent_cores _ _ _ _
  rw [← s.holding_fmt .e Nat.one_pos, State.kore, hctx, State.core_of_cores hcores]
  rfl

theorem useWaits_flatMap (s : State) (sp : Space) (f : Nat → List Use) (l : List Nat) (h : ∀ j ∈ l, s.useWaits sp (f j) = false) :
    s.useWaits sp (l.flatMap f) = false := by
  induction l with
  | nil => exact s.useWaits_nil sp
  | cons j l ih =>
    rw [List.flatMap_cons, State.useWaits_append, h j List.mem_cons_self, ih fun k hk => h k (List.mem_cons_of_mem _ hk)]
    rfl

/-- A block of the own scratchpad that is aligned, and whose granules find their banks. -/
structure State.BlockFree (s : State) (a : Nat) : Prop where
  aligned : a % 64 = 0
  within : a ≤ 0x1FFC0
  granules : ∀ j < 4, s.takes .e .own (a + 16 * j) 16 16 .r (s.now + 1 + j)

theorem State.blockTraps_of_free {s : State} {a : Nat} (h : s.BlockFree a) : s.blockTraps a = [] := by
  unfold State.blockTraps
  rw [if_pos ⟨h.aligned, h.within⟩, List.flatMap_eq_nil_iff]
  exact fun j hj => State.accTraps_of_takes (h.granules j (List.mem_range.1 hj))

theorem State.blockWaits_of_free {s : State} {a : Nat} (h : s.BlockFree a) : s.useWaits .own (s.blockUses a) = false :=
  useWaits_flatMap s .own _ _ fun j hj => State.useWaits_of_takes (h.granules j (List.mem_range.1 hj))

/-- A command whose block is free issues. -/
theorem State.engine_of_free {s : State} {h : HRd} {any : Bool} (hq : any = true ∨ s.ctx.q = .primary) (hc : s.clear .e 1 [h.ref] [])
    (hs : s.sound [h.ref]) (hb : s.BlockFree (s.rd h.ref).val.toNat) (cls : EClass) (inst opc : Nat) (i : Instr) :
    s.engine h cls inst opc i any =
      .next ((s.engineHeld (s.rd h.ref).val.toNat).addCmd cls inst opc i (s.rd h.ref).val.toNat) := by
  have hprot : (if any then [] else s.secondaryProt .e) = [] := by
    rcases hq with rfl | hq
    · rfl
    · unfold State.secondaryProt
      rw [hq, ite_self]
  have hlow : decide (0x1FFC0 < (s.rd h.ref).val.toNat) = false := decide_eq_false (Nat.not_lt.2 hb.within)
  have hmis : ((s.rd h.ref).val.toNat % 64 != 0) = false := bne_eq_false_iff_eq.2 hb.aligned
  have he : s.engine h cls inst opc i any = s.issue ⟨.e, 1, [h.ref], [], [], s.useWaits .own (s.blockUses (s.rd h.ref).val.toNat)⟩
      fun t => (t.holdUses .own (s.blockUses (s.rd h.ref).val.toNat)).addCmd cls inst opc i (s.rd h.ref).val.toNat := by
    have hin : (s.rd h.ref).val.toNat % 64 = 0 ∧ (s.rd h.ref).val.toNat ≤ 0x1FFC0 := ⟨hb.aligned, hb.within⟩
    unfold State.engine
    dsimp only
    rw [if_pos hin, hprot, hlow, hmis, State.poisonTraps_of_sound hs, State.blockTraps_of_free hb]
    rfl
  rw [he]
  exact State.issue_of_clear hc rfl fun _ => State.blockWaits_of_free hb

/-- A command that has not ended is kept. -/
theorem mem_keepCmds {core inst : Nat} {cls : EClass} {l : List Cmd} {d : Cmd} (hd : d ∈ l) (he : d.ended = false) : d ∈ keepCmds core cls inst l := by
  refine List.mem_filter.2 ⟨hd, ?_⟩
  rw [he]
  rfl

/-- The command of a syllable of slot E, waiting for its START. -/
def State.newCmd (s : State) (cls : EClass) (inst opc : Nat) (i : Instr) (a : Nat) : Cmd :=
  ⟨s.nextId, s.ctx.core, s.ctx.q, s.moorOf s.ctx.core, cls, inst, opc, i, s.now, s.ctx.pc, a, s.kore.fmt, s.cur.sndbase,
    [], [], 0, .waiting, 0, 0, 0, 0, [], [], [], false⟩

/-- What an engine syllable adds to a state in which its unit is held. -/
theorem State.Brings.addCmd {s u : State} (h : s.Brings u [] []) (hf : u.kore.fmt = s.kore.fmt) (cls : EClass) (inst opc : Nat) (i : Instr) (a : Nat) :
    u.addCmd cls inst opc i a = { u with
      cmds := keepCmds s.ctx.core cls inst s.cmds ++ [s.newCmd cls inst opc i a]
      accesses := s.accesses ++ (List.range 4).map (Spec.blockRead s a)
      nextId := s.nextId + 5 } := by
  have hcur : u.cur.sndbase = s.cur.sndbase := by rw [h.cur]
  unfold State.addCmd State.newCmd
  dsimp only
  rw [hf, hcur]
  obtain ⟨⟨cs, hs, rfl⟩, -⟩ := h
  unfold State.broughtTo
  rw [List.append_nil]
  rfl

/-- A syllable that is an engine command, but for what it may put into the queues of the copy engines. -/
theorem command_of_engine {i : Instr} {h : HRd} {cls : EClass} {inst opc : Nat} {any : Bool}
    (he : ∀ s t, s.engine h cls inst opc i any = .next t → ∃ cp, exec i s = .next { t with copies := cp }) : Command i h cls inst opc any := by
  intro s hq a hc hs hal hle htakes
  have hb : s.BlockFree a := ⟨hal, hle, htakes⟩
  have hbr := s.brings_engineHeld a
  obtain ⟨cp, hex⟩ := he s _ (State.engine_of_free hq hc hs hb cls inst opc i)
  rw [hbr.addCmd (s.engineHeld_fmt a)] at hex
  have hcur : (s.engineHeld a).cur = s.cur := by rw [hbr.cur, List.append_nil]
  refine ⟨_, s.newCmd cls inst opc i a, hex, ?_, hcur, List.mem_append_right _ List.mem_cons_self, rfl, rfl, rfl, rfl, rfl, rfl, rfl, rfl, rfl, rfl, rfl,
    rfl, rfl, rfl, rfl, rfl, fun d hd hend => List.mem_append_left _ (mem_keepCmds hd hend), rfl, rfl⟩
  obtain ⟨cs, hs', e⟩ := hbr.frame
  rw [e]
  exact ⟨rfl, rfl, rfl, rfl, rfl, rfl, rfl⟩

theorem command_of_eq {i : Instr} {h : HRd} {cls : EClass} {inst opc : Nat} {any : Bool}
    (he : ∀ s, exec i s = s.engine h cls inst opc i any) : Command i h cls inst opc any :=
  command_of_engine fun s t ht => ⟨t.copies, (he s).trans ht⟩

theorem State.enterOpen_eq (s : State) (id : Nat) : ∃ cp, s.enterOpen id = { s with copies := cp } := by
  unfold State.enterOpen
  split
  · split
    · exact ⟨_, rfl⟩
    · exact ⟨s.copies, rfl⟩
  · exact ⟨s.copies, rfl⟩

theorem command_cpy (h : HRd) (n : Fin 2) (r : Fin 64) : Command (.cpy h n r) h .copy n.val 0x10 true := by
  refine command_of_engine fun s t ht => ?_
  obtain ⟨cp, hcp⟩ := t.enterOpen_eq s.nextId
  refine ⟨cp, ?_⟩
  change execCpy h n r s = _
  unfold execCpy
  rw [ht]
  exact congrArg _ hcp

theorem engineCommandsIssue : Spec.EngineCommandsIssue := by
  intro h
  refine ⟨?_, ?_, ?_, ?_, ?_, fun m rev dc => ?_, fun r => ?_, fun n r => command_cpy h n r, fun n r => ?_, fun n => ?_, fun r l => ?_, fun n o f => ?_,
    fun p => ?_, fun p => ?_, ?_, ?_, ?_, fun k => ?_, fun r => ?_⟩
  all_goals exact command_of_eq fun _ => rfl

/-! ### `ENGQ` -/

theorem exec_engq (s : State) (h : HRd) (cls : EClass) (n : Fin 32) : exec (.engq h cls n) s =
    s.issue ⟨.e, 1, [h.ref], [⟨h.ref, 4⟩], s.poisonTraps .e [h.ref], false⟩ fun t =>
      t.effect 4 (.engq h.ref cls.code n.val ((s.rd h.ref).val.toNat % 2 ^ 32)) := rfl

/-- The command that a core, a unit and a block address name. -/
def Cmd.isOf (core cls inst : Nat) (c : Cmd) : Bool := c.core == core && c.cls.code == cls && c.inst == inst

theorem State.statusWord_eq (s : State) (core cls inst block : Nat) : s.statusWord core cls inst block =
    match (lastEight (s.cmds.filter (Cmd.isOf core cls inst))).reverse.find? fun c => c.block == block with
    | none => 0
    | some c => BitVec.ofNat 64 (2 ^ 63 + c.st.code * 2 ^ 60 + c.fl.toNat % 64 * 2 ^ 40 + c.code % 256 * 2 ^ 32 + c.doneBytes % 2 ^ 32) := rfl

theorem mem_of_mem_lastEight {α : Type} {l : List α} {a : α} (h : a ∈ lastEight l) : a ∈ l := List.mem_of_mem_drop h

theorem lastEight_concat {α : Type} (l : List α) (a : α) : lastEight (l ++ [a]) = l.drop (l.length - 7) ++ [a] := by
  unfold lastEight
  rw [List.length_append, List.length_singleton, List.drop_append_of_le_length (by omega)]
  rfl

/-- The most recent command is that of its own block address. -/
theorem State.statusWord_last {s : State} {c : Cmd} {l : List Cmd} (h : s.cmds = l ++ [c]) : s.statusWord c.core c.cls.code c.inst c.block =
    BitVec.ofNat 64 (2 ^ 63 + c.st.code * 2 ^ 60 + c.fl.toNat % 64 * 2 ^ 40 + c.code % 256 * 2 ^ 32 + c.doneBytes % 2 ^ 32) := by
  have hc : c.isOf c.core c.cls.code c.inst = true := by simp [Cmd.isOf]
  rw [State.statusWord_eq, h, List.filter_append, List.filter_cons_of_pos hc, List.filter_nil, lastEight_concat, List.reverse_append,
    List.reverse_singleton, List.singleton_append, List.find?_cons_of_pos (by simp)]

theorem CmdSt.code_lt (st : CmdSt) : st.code < 8 := by cases st <;> decide

theorem engineStatusQuery : Spec.EngineStatusQuery := by
  refine ⟨fun s h cls n hc hs => ?_, fun s core cls inst block hno => ?_, fun s c l hl => ?_⟩
  · rw [exec_engq, State.poisonTraps_of_sound hs]
    exact State.issue_effect hc 4 _
  · have hnone : ((lastEight (s.cmds.filter (Cmd.isOf core cls inst))).reverse.find? fun c => c.block == block) = none := by
      rw [List.find?_eq_none]
      intro c hc hb
      obtain ⟨hm, hof⟩ := List.mem_filter.1 (mem_of_mem_lastEight (List.mem_reverse.1 hc))
      simp only [Cmd.isOf, Bool.and_eq_true, beq_iff_eq] at hof hb
      exact hno c hm ⟨hof.1.1, hof.1.2, hof.2, hb⟩
    rw [State.statusWord_eq, hnone]
  · have hst := c.st.code_lt
    have hfl := Nat.mod_lt c.fl.toNat (by decide : 0 < 64)
    have hcode := Nat.mod_lt c.code (by decide : 0 < 256)
    have hdone := Nat.mod_lt c.doneBytes (by decide : 0 < 2 ^ 32)
    intro w
    have hw : w = 2 ^ 63 + c.st.code * 2 ^ 60 + c.fl.toNat % 64 * 2 ^ 40 + c.code % 256 * 2 ^ 32 + c.doneBytes % 2 ^ 32 := by
      show (s.statusWord c.core c.cls.code c.inst c.block).toNat = _
      rw [State.statusWord_last hl, BitVec.toNat_ofNat, Nat.mod_eq_of_lt]
      omega
    have hcase : (match c.st with
        | .none => 0
        | .waiting => 1
        | .running => 2
        | .done => 3
        | .faulted => 4
        | .part => 5) = c.st.code := by cases c.st <;> rfl
    refine ⟨?_, ?_, ?_, ?_, ?_, Eq.trans ?_ hcase.symm⟩ <;> omega

/-- Settles O17: the commands of slot E, and the status that `ENGQ` reads. -/
theorem engineSyllables : Obligations.EngineSyllables := ⟨engineCommandsIssue, engineStatusQuery⟩

end Sys2Proof.Machine
end

section
/-! SUPPORT. Faults of operands (R37, R65, R66, R81, R198, R306, R308, R322): the schedule and shadow-read faults of a syllable, and the address
faults of a load (O28). -/

namespace Sys2Proof.Machine
open Config Sys2Proof.Spec

/-! ### The lowest cause of several traps -/

/-- A lower cause later in the list goes before. -/
theorem lowest_append_of_lt {l : List Trap} {t : Trap} {r : List Trap} (hl : ∀ u ∈ l, t.cause < u.cause) (hr : ∀ u ∈ r, t.cause ≤ u.cause) :
    lowest (l ++ t :: r) = some t := by
  induction l with
  | nil => exact lowest_cons_of_le hr
  | cons u l ih =>
    rw [List.cons_append, lowest, ih fun v hv => hl v (List.mem_cons_of_mem _ hv)]
    exact if_pos (hl u List.mem_cons_self)

theorem cause_of_mem_trapIf {c : Bool} {t u : Trap} (h : u ∈ trapIf c t) : u.cause = t.cause :=
  congrArg Trap.cause (List.mem_singleton.1 (mem_of_mem_trapIf h))

/-! ### Schedule faults (R65, R66, R81) -/

theorem exec_add (s : State) (sl : AB) (d : Dst 32) (a : Fin 32) (b : Src 32) : ∃ go, exec (.add sl d a b) s =
    s.issue ⟨sl.slot, 1, [own sl.file a, b.ref sl.file], [⟨d.ref sl.file, 1⟩], [], false⟩ go :=
  ⟨fun t => t.result (d.ref sl.file) 1 ⟨s.val (own sl.file a) + s.val (b.ref sl.file), 63, s.poisonOf [own sl.file a, b.ref sl.file]⟩ 0 none, rfl⟩

theorem mustWait_primary {s : State} (hq : s.ctx.q = .primary) (r : Req0) : s.mustWait r = false := by
  unfold State.mustWait
  rw [hq]

/-- The causes that a syllable of the primary meets in the schedule, in their order. -/
theorem reqTraps_primary {s : State} (hq : s.ctx.q = .primary) (r : Req0) : s.reqTraps r =
    trapIf (decide (s.now < s.kore.busy.getD (slotIx r.slot) 0)) (.sched r.slot 1)
      ++ trapIf (r.writes.any fun w => w.ref.file == .h && decide (2 ≤ s.kore.hWrites (s.now + w.lat))) (.sched r.slot 2)
      ++ trapIf (r.writes.any fun w => s.cur.queue.any fun e => e.eff.dest == some w.ref && e.due == s.now + w.lat) (.sched r.slot 3) ++ r.traps := by
  unfold State.reqTraps State.schedTraps State.landTraps
  have hsec : (Seq.primary == Seq.secondary) = false := rfl
  rw [hq]
  simp only [hsec, Bool.and_false, Bool.not_false, Bool.and_true]

theorem scheduleFaults : Spec.ScheduleFaults := by
  intro s sl d a b hq busy full twice fault
  obtain ⟨go, he⟩ := exec_add s sl d a b
  have key : ∀ k, lowest (s.reqTraps ⟨sl.slot, 1, [own sl.file a, b.ref sl.file], [⟨d.ref sl.file, 1⟩], [], false⟩) = some (.sched sl.slot k) → fault k :=
    fun k hk => he.trans (State.issue_of_trap (mustWait_primary hq _) hk)
  rw [reqTraps_primary hq] at key
  dsimp only at key
  have hf : (([⟨d.ref sl.file, 1⟩] : List WriteAt).any fun w => w.ref.file == .h && decide (2 ≤ s.kore.hWrites (s.now + w.lat))) = true ↔ full := by
    simp [full]
  have ht : (([⟨d.ref sl.file, 1⟩] : List WriteAt).any fun w => s.cur.queue.any fun e => e.eff.dest == some w.ref && e.due == s.now + w.lat) = true
      ↔ twice := by
    simp [twice]
  refine ⟨fun hb => key 1 ?_, fun hb hfull => key 2 ?_, fun hb hfull htwice => key 3 ?_⟩
  · rw [decide_eq_true hb, trapIf_true, List.append_nil, List.append_assoc, List.singleton_append]
    refine lowest_cons_of_le fun u hu => ?_
    rcases List.mem_append.1 hu with hu | hu <;> exact (cause_of_mem_trapIf hu).ge
  · rw [decide_eq_false hb, hf.2 hfull, trapIf_false, trapIf_true, List.append_nil, List.nil_append, List.singleton_append]
    exact lowest_cons_of_le fun u hu => (cause_of_mem_trapIf hu).ge
  · rw [decide_eq_false hb, Bool.eq_false_iff.2 fun h => hfull (hf.1 h), ht.2 htwice]
    rfl

/-! ### Shadow reads (R37) -/

/-- Whether a syllable of the secondary that holds its unit for a cycle waits for it (R41). -/
theorem mustWait_secondary {s : State} (hq : s.ctx.q = .secondary) {r : Req0} (hb : r.busy = 1) (hw : r.waits = false) : s.mustWait r = true ↔
    s.now < s.kore.busy.getD (slotIx r.slot) 0 ∨ s.now < s.kore.busy2.getD (slotIx r.slot) 0 := by
  unfold State.mustWait
  rw [hq, hb, hw]
  simp only [Nat.lt_irrefl, decide_false, Bool.false_and, Bool.or_false, decide_eq_true_eq]
  exact lt_max_iff

theorem reqTraps_secondary {s : State} (hq : s.ctx.q = .secondary) (r : Req0) : s.reqTraps r = s.shadowTraps r
    ++ trapIf (r.writes.any fun w => s.cur.queue.any fun e => e.eff.dest == some w.ref && e.due == s.now + w.lat && !e.varLat) (.sched r.slot 3)
    ++ r.traps := by
  unfold State.reqTraps State.landTraps
  rw [hq]
  simp only [beq_self_eq_true, Bool.and_true]

/-- A shadow read has the higher cause. -/
theorem cause_of_mem_shadowTraps {s : State} {r : Req0} {u : Trap} (h : u ∈ s.shadowTraps r) : u.cause = 0x0A := by
  unfold State.shadowTraps at h
  split at h
  · rw [List.mem_singleton.1 h]
    rfl
  · cases h

/-- The first register of a syllable has a result in flight. -/
theorem shadowTraps_of_pending {s : State} {r : Req0} {x : RRef} {l : List RRef} (hr : r.reads = x :: l) (hp : s.cur.pending s.now x = true) :
    s.shadowTraps r = [.shadow r.slot x] := by
  have : (r.reads ++ r.writes.map (·.ref)).find? (s.cur.pending s.now) = some x := by
    rw [hr, List.cons_append, List.find?_cons_of_pos hp]
  unfold State.shadowTraps
  rw [this]

theorem shadowReads : Spec.ShadowReads := by
  intro s sl d a b e hq hmem meets busy
  obtain ⟨go, he⟩ := exec_add s sl d a b
  have hwait := mustWait_secondary hq (r := ⟨sl.slot, 1, [own sl.file a, b.ref sl.file], [⟨d.ref sl.file, 1⟩], [], false⟩) rfl rfl
  have hland : (([⟨d.ref sl.file, 1⟩] : List WriteAt).any fun w => s.cur.queue.any fun e => e.eff.dest == some w.ref && e.due == s.now + w.lat && !e.varLat)
      = true ↔ ∃ f ∈ s.cur.queue, meets f := by
    simp [meets, and_assoc]
  have htrap : ∀ {t : Trap}, ¬busy → lowest (s.shadowTraps ⟨sl.slot, 1, [own sl.file a, b.ref sl.file], [⟨d.ref sl.file, 1⟩], [], false⟩
      ++ trapIf (([⟨d.ref sl.file, 1⟩] : List WriteAt).any fun w => s.cur.queue.any fun e => e.eff.dest == some w.ref && e.due == s.now + w.lat && !e.varLat)
        (.sched sl.slot 3)) = some t → exec (.add sl d a b) s = .next (s.raise t) := fun hb ht => by
    refine he.trans (State.issue_of_trap (Bool.eq_false_iff.2 fun h => hb (hwait.1 h)) ?_)
    rw [reqTraps_secondary hq, List.append_nil]
    exact ht
  refine ⟨fun hb => ⟨{ s with trapped := some ⟨causeWait, none, 0, false⟩ }, he.trans ?_, rfl, rfl⟩, fun hb hm => htrap hb ?_, fun hb hno hd hi => htrap hb ?_⟩
  · unfold State.issue
    rw [if_pos (hwait.2 hb)]
  · rw [hland.2 ⟨e, hmem, hm⟩]
    exact lowest_append_of_lt (fun u hu => (cause_of_mem_shadowTraps hu).symm ▸ (by decide : 5 < 0x0A)) fun u hu => absurd hu List.not_mem_nil
  · have hp : s.cur.pending s.now (own sl.file a) = true := List.any_eq_true.2 ⟨e, hmem, by simp [hd, hi]⟩
    rw [Bool.eq_false_iff.2 fun h => (hland.1 h).elim fun f hf => hno f hf.1 hf.2, shadowTraps_of_pending rfl hp]
    cases sl <;> rfl

/-! ### Address faults of a load (R195, R198, R204, R207, R322) -/

theorem offset_eq (s : State) (base : Fin 32) (off : BitVec 11) (n : Nat) : s.addrI base off n = offAddr s (own .m base) off n := by
  unfold State.addrI offAddr
  rw [BitVec.toNat_add, BitVec.toNat_ofInt]
  show _ = ((((s.rd (own .m base)).val.toNat : Int) + off.toInt * n) % 2 ^ 64).toNat
  have h1 := Int.emod_nonneg (off.toInt * n) (by decide : (2 ^ 64 : Int) ≠ 0)
  have h2 := Int.emod_lt_of_pos (off.toInt * n) (by decide : (0 : Int) < 2 ^ 64)
  have h3 := Int.emod_add_emod (s.rd (own .m base)).val.toNat (2 ^ 64) (off.toInt * n)
  omega

theorem exec_ldOffset (s : State) (d base : Fin 32) (sz : Size) (sp : Space) (off : BitVec 11) : ∃ go, exec (.ldOffset d base sz sp off) s =
    s.issue ⟨.m, 1, [own .m base], [⟨own .m d, spaceLd sp⟩], s.loadTraps sp (s.addrI base off (sizeBytes sz)) (sizeBytes sz) false 0 0
      ++ s.poisonTraps .m [own .m base], s.useWaits sp (s.loadUses sp (s.addrI base off (sizeBytes sz)) (sizeBytes sz) false 0)⟩ go :=
  ⟨fun t => t.loadGo sp (s.addrI base off (sizeBytes sz)) (sizeBytes sz) false false (own .m d) 0 (spaceLd sp), rfl⟩

/-- A load of the primary from its own scratchpad meets no cause but those of its access. -/
theorem loadTraps_own {s : State} (hq : s.ctx.q = .primary) (off n i e : Nat) :
    s.loadTraps .own off n false i e = s.accTraps .m .own off n n .r (s.now + 2 + i) e := by
  unfold State.loadTraps State.vaultProt State.anyTraps
  rw [hq]
  simp only [reduceCtorEq, false_and, if_false, Bool.false_eq_true, List.append_nil, List.nil_append]
  rfl

theorem addressFaults : Spec.AddressFaults := by
  intro s d base sz off hq hc n a trap
  obtain ⟨go, he⟩ := exec_ldOffset s d base sz .own off
  have key : ∀ {t : Trap}, lowest (s.accTraps .m .own a n n .r (s.now + 2) 0 ++ s.poisonTraps .m [own .m base]) = some t →
      exec (.ldOffset d base sz .own off) s = .next (s.raise t) := fun {t} ht => by
    refine he.trans (State.issue_of_trap (mustWait_primary hq _) ?_)
    rw [State.reqTraps_of_clear hc, offset_eq, loadTraps_own hq]
    exact ht
  refine ⟨fun hout => key ?_, fun hin hmis hspt => key ?_, fun htakes hal hpoi => key ?_⟩
  · have hbad : s.mcheck .m .own a (if a % n = 0 then n else 1) .r 0 = .bad (Trap.at 0x06 .m (a % 2 ^ 56 + 0 * 2 ^ 59)) := if_pos hout
    unfold State.accTraps
    rw [hbad, List.append_assoc, List.singleton_append]
    refine lowest_append_of_lt (fun u hu => (cause_of_mem_trapIf hu).symm ▸ (by decide : 6 < 8))
      fun u hu => (cause_of_mem_trapIf hu).symm ▸ (by decide : 6 ≤ 9)
  · obtain ⟨spt, hres, hsram, hgrants⟩ := hspt
    have hok : s.mcheck .m .own a 1 .r 0 = .ok spt := by
      have hwin : ¬spaceBytes .own < a + 1 := Nat.not_lt.2 hin
      unfold State.mcheck
      dsimp only
      rw [if_neg hwin, if_neg (fun h => nomatch h.1), if_neg (fun h => nomatch h.2.1), show spaceVa s.ctx.core .own a = a from rfl, hres]
      exact if_pos hsram
    have huse : s.useTraps .m .own (s.spotUses .m .own spt n (s.now + 2)) = [] := State.useTraps_of_grants fun _ _ => hgrants
    have hmis' : (a % n != 0) = true := bne_iff_ne.2 hmis
    unfold State.accTraps
    rw [if_neg hmis, hok, hmis']
    dsimp only
    rw [huse, trapIf_true, List.append_nil, List.singleton_append]
    exact lowest_cons_of_le fun u hu => (cause_of_mem_trapIf hu).symm ▸ (by decide : 8 ≤ 9)
  · have hpo : s.poisonOf [own .m base] = true := List.any_eq_true.2 ⟨_, List.mem_singleton_self _, hpoi⟩
    have hacc : s.accTraps .m .own a n n .r (s.now + 2) 0 = [] := State.accTraps_of_takes ⟨hal, htakes.2⟩
    unfold State.poisonTraps
    rw [hacc, hpo]
    rfl

/-- Settles O28: the schedule, shadow-read and address faults. -/
theorem operandFaults : Obligations.OperandFaults := ⟨⟨scheduleFaults, shadowReads⟩, addressFaults⟩

end Sys2Proof.Machine
end

section
/-! SUPPORT. Values that another core receives (R50, R200, R405): a `SEND` that no reception awaits, at a core whose trap is already recorded
(O37). -/

namespace Sys2Proof.Machine
open Config Sys2Proof.Spec

/-- A `SEND` from core 4 to core 0 that lands in cycle 100. -/
def straySend : Access := ⟨5, 100, .seq 4 .primary, .phys (spadBase + 0x100), .send [7, 8] false 4 0, true, false, .own, 2, 88, 5⟩

/-- Core 0 has armed no reception; it carries the mark of a recorded trap, while its `XCAUSE` is 0 and its task runs. -/
def strayState : State := { State.reset with
  now := 100
  cores := [(0, { Core.init with prim := { SeqState.init with recorded := true } })]
  moorings := State.reset.moorings.setIfInBounds 0 { Mooring.init with loaded := true, cmask := 1, st := .running }
  accesses := [straySend] }

theorem canon_strayState : strayState.Canon := ⟨rfl, rfl, by decide +kernel, by decide +kernel⟩

/-- The outcome of the landing, as far as O37 speaks of it: the trap registers of the target stay as they were. -/
theorem exec_straySend : ∃ u, exec (.sendLanding straySend.id) strayState = .next u ∧ (u.core 0).prim.xcause.toNat = 0 := by
  refine ⟨_, rfl, ?_⟩
  decide +kernel

/-- Refutes O37: a `SEND` that no reception awaits, at a core whose trap is already recorded: the fault of the target's task leaves `XCAUSE` of that
core as it was, though the core bears no mark of an earlier fault without a bundle. -/
theorem not_openAccessesAndSends : ¬ Obligations.OpenAccessesAndSends := by
  unfold Obligations.OpenAccessesAndSends
  rintro ⟨-, -, h⟩
  obtain ⟨t, he, -, -, hx⟩ := h strayState straySend [7, 8] false 4 0 0 canon_strayState rfl rfl rfl (.inl (by decide +kernel)) (by decide +kernel)
    (by decide +kernel) (by decide +kernel)
  obtain ⟨u, hu, hu0⟩ := exec_straySend
  obtain rfl : t = u := Host.Outcome.next.inj (he.symm.trans hu)
  rcases hx with hx | hx
  · rw [hu0] at hx
    exact absurd hx (by decide)
  · exact absurd hx (by decide +kernel)

end Sys2Proof.Machine
end

section
/-! SUPPORT. What ends the holds of sequencers (R38, R49, R61, R241, R249, R273, R317, R412, R442): O38. -/

namespace Sys2Proof.Machine
open Config Sys2Proof.Spec

/-! ### Who owns a core -/

/-- What an update of a mooring keeps of every mooring, each of them keeps. -/
theorem State.moor_updMoor_keeps {γ : Type} (π : Mooring → γ) (s : State) (m d : Nat) (f : Mooring → Mooring) (hf : ∀ k, π (f k) = π k) :
    π ((s.updMoor m f).moor d) = π (s.moor d) := by
  by_cases h : d = m ∧ m < nMoorings
  · obtain ⟨rfl, hm⟩ := h
    rw [State.moor_updMoor hm, hf]
  · show π ((s.moorings.setIfInBounds m (f (s.moor m))).getD d Mooring.init) = π (s.moorings.getD d Mooring.init)
    generalize f (s.moor m) = k
    congr 1
    by_cases hd : d < 12
    · have hne : m ≠ d := by
        rintro rfl
        exact h ⟨rfl, hd⟩
      simp [Vector.getD, Array.getD, hd, hne]
    · simp [Vector.getD, Array.getD, hd]

theorem ownerGo_congr {ms ns : Vector Mooring 12} {g : Nat}
    (h : ∀ d, (ns.getD d Mooring.init).loaded = (ms.getD d Mooring.init).loaded ∧ (ns.getD d Mooring.init).cmask = (ms.getD d Mooring.init).cmask) :
    ∀ fuel m, ownerGo ns g fuel m = ownerGo ms g fuel m
  | 0, _ => rfl
  | fuel + 1, m => by simp only [ownerGo, (h m).1, (h m).2, ownerGo_congr h fuel (m + 1)]

/-- The owner of a core is read from the clusters of the loaded moorings. -/
theorem State.moorOf_congr {s t : State} (h : ∀ d, (t.moor d).loaded = (s.moor d).loaded ∧ (t.moor d).cmask = (s.moor d).cmask) (c : Nat) :
    t.moorOf c = s.moorOf c := ownerGo_congr h _ _

theorem State.moorOf_updMoor (s : State) (m c : Nat) (f : Mooring → Mooring) (hl : ∀ k, (f k).loaded = k.loaded)
    (hc : ∀ k, (f k).cmask = k.cmask) : (s.updMoor m f).moorOf c = s.moorOf c :=
  State.moorOf_congr (fun d => ⟨s.moor_updMoor_keeps Mooring.loaded m d f hl, s.moor_updMoor_keeps Mooring.cmask m d f hc⟩) c

theorem State.beginDiscard_cases (s : State) (m code : Nat) :
    s.beginDiscard m code = s ∨ s.beginDiscard m code = s.updMoor m fun k => { k with st := .ending (s.now + 8), faultCode := code } := by
  unfold State.beginDiscard
  split
  any_goals exact .inr rfl
  exact .inl rfl

theorem State.moorOf_beginDiscard (s : State) (m code c : Nat) : (s.beginDiscard m code).moorOf c = s.moorOf c := by
  rcases s.beginDiscard_cases m code with h | h <;> rw [h]
  exact s.moorOf_updMoor m c _ (by intros; rfl) (by intros; rfl)

theorem State.beginDiscard_loose (s : State) (m code d : Nat) : ((s.beginDiscard m code).moor d).loose = (s.moor d).loose := by
  rcases s.beginDiscard_cases m code with h | h <;> rw [h]
  exact s.moor_updMoor_keeps Mooring.loose m d _ (by intros; rfl)

theorem State.looseCore_of_moorOf {s : State} {c m : Nat} (h : s.moorOf c = some m) : s.looseCore c = (s.moor m).loose := by
  simp only [State.looseCore, h]

/-! ### The members of a mask -/

theorem maskCores_eq (g : Nat) (mask : BitVec 16) :
    maskCores (g * coresPerCluster) mask = ((List.range 16).filter fun i => mask.getLsbD i).map fun i => 16 * g + i := by
  have h16 : coresPerCluster = 16 := rfl
  unfold maskCores
  rw [h16, Nat.mul_div_cancel _ (by decide), Nat.mul_comm]

theorem mem_maskCores {g c : Nat} {mask : BitVec 16} :
    c ∈ maskCores (g * coresPerCluster) mask ↔ ∃ i < 16, mask.getLsbD i = true ∧ c = 16 * g + i := by
  rw [maskCores_eq]
  simp only [List.mem_map, List.mem_filter, List.mem_range]
  constructor
  · rintro ⟨i, ⟨hi, hm⟩, rfl⟩
    exact ⟨i, hi, hm, rfl⟩
  · rintro ⟨i, hi, hm, rfl⟩
    exact ⟨i, ⟨hi, hm⟩, rfl⟩

theorem nodup_maskCores (g : Nat) (mask : BitVec 16) : (maskCores (g * coresPerCluster) mask).Nodup := by
  rw [maskCores_eq]
  exact (List.nodup_range.filter _).map fun a b h => Nat.add_left_cancel h

theorem eraseDups_of_all_eq {α : Type} [BEq α] [LawfulBEq α] {a : α} : ∀ {l : List α}, l ≠ [] → (∀ x ∈ l, x = a) → l.eraseDups = [a]
  | [], h, _ => absurd rfl h
  | x :: l, _, h => by
    obtain rfl := h x (List.mem_cons_self ..)
    rw [List.eraseDups_cons, List.filter_eq_nil_iff.2]
    · rfl
    · intro y hy
      simp [h y (List.mem_cons_of_mem _ hy)]

/-- The only barrier of a cluster. -/
theorem State.masksOf_eq {s : State} {g : Nat} {mask : BitVec 16} (h : Barrier s g mask) : s.masksOf g = [mask] := by
  have hall : ∀ {i : Nat}, i < 16 → 16 * g + i ∈ maskCores (g * coresPerCluster) 0xFFFF := fun {i} hi =>
    mem_maskCores.2 ⟨i, hi, by interval_cases i <;> rfl, rfl⟩
  obtain ⟨i, hi, t, ht⟩ := h.some
  refine eraseDups_of_all_eq (List.ne_nil_of_mem (List.mem_filterMap.2 ⟨_, hall hi, by rw [ht]⟩)) fun m hm => ?_
  obtain ⟨c, hc, hcm⟩ := List.mem_filterMap.1 hm
  obtain ⟨k, hk, -, rfl⟩ := mem_maskCores.1 hc
  split at hcm
  · rename_i m' t' hold
    cases hcm
    exact h.only k hk m t' hold
  · cases hcm

theorem State.arrival_eq {s : State} {c : Nat} {mask : BitVec 16} {t : Nat} (h : arrived s c mask t) : s.arrival mask c = some t := by
  obtain ⟨hh, hr, hf⟩ := h
  unfold State.arrival SeqState.live
  rw [hh, hr, hf]
  simp

theorem State.arrival_eq_none {s : State} {c : Nat} {mask : BitVec 16} (h : ∀ t, ¬arrived s c mask t) : s.arrival mask c = none := by
  unfold State.arrival
  split
  · rename_i m t hh
    refine if_neg ?_
    rintro ⟨rfl, hl⟩
    simp only [SeqState.live, Bool.and_eq_true, beq_iff_eq, Option.isNone_iff_eq_none] at hl
    exact h t ⟨hh, hl.1, hl.2⟩
  · rfl

/-! ### Barriers complete (R49, R412) -/

theorem foldl_max_le {b : Nat} : ∀ {l : List (Option Nat)} {n : Nat}, n ≤ b → (∀ o ∈ l, o.getD 0 ≤ b) →
    l.foldl (fun n o => Nat.max n (o.getD 0)) n ≤ b
  | [], _, hn, _ => hn
  | o :: l, n, hn, h => foldl_max_le (l := l) (n := Nat.max n (o.getD 0)) (Nat.max_le.2 ⟨hn, h o (List.mem_cons_self ..)⟩)
      fun p hp => h p (List.mem_cons_of_mem _ hp)

theorem State.syncDone_of_arrived {s : State} {g : Nat} {mask : BitVec 16} (hsome : ∃ i < 16, mask.getLsbD i = true)
    (h : ∀ i < 16, mask.getLsbD i = true → ∃ t, arrived s (16 * g + i) mask t ∧ t + 6 ≤ s.now) : s.syncDone g mask = true := by
  have hall : ∀ o ∈ (maskCores (g * coresPerCluster) mask).map (s.arrival mask), ∃ t, o = some t ∧ t + 6 ≤ s.now := by
    intro o ho
    obtain ⟨c, hc, rfl⟩ := List.mem_map.1 ho
    obtain ⟨i, hi, hm, rfl⟩ := mem_maskCores.1 hc
    obtain ⟨t, ha, ht⟩ := h i hi hm
    exact ⟨t, State.arrival_eq ha, ht⟩
  obtain ⟨i, hi, hm⟩ := hsome
  obtain ⟨t, -, ht⟩ := h i hi hm
  unfold State.syncDone State.lastArrival
  dsimp only
  rw [if_pos (List.all_eq_true.2 fun o ho => by obtain ⟨t, rfl, -⟩ := hall o ho; rfl)]
  refine decide_eq_true ?_
  have := foldl_max_le (b := s.now - 6) (Nat.zero_le _) fun o ho => by
    obtain ⟨t, rfl, ht⟩ := hall o ho
    exact Nat.le_sub_of_add_le ht
  omega

/-- A primary that goes on in cycle n. -/
def Core.goesOn (n : Nat) (k : Core) : Core := { k with prim := { k.prim with hold := .none, nextAt := n } }

theorem stepsCores_releaseAt (n : Nat) : StepsCores n id (fun _ => Core.goesOn n) fun u c => u.releaseAt c .primary u.now := by
  rintro t c rfl
  exact ⟨rfl, rfl⟩

theorem barriersComplete : Spec.BarriersComplete := by
  intro s g mask hb harr
  have hmem : ∀ {i}, i < 16 → mask.getLsbD i = true → 16 * g + i ∈ maskCores (g * coresPerCluster) mask :=
    fun {i} hi hm => mem_maskCores.2 ⟨i, hi, hm, rfl⟩
  -- A mask without members holds nobody: the barrier then lets nobody go.
  have hexec : exec (.syncBarrierComplete g) s = .next (if s.syncDone g mask then
      (maskCores (g * coresPerCluster) mask).foldl (fun u c => u.releaseAt c .primary u.now) s else s) := by
    show execSyncBarrierComplete g s = _
    unfold execSyncBarrierComplete
    rw [if_pos hb.cluster, State.masksOf_eq hb]
    rfl
  by_cases hsome : ∃ i < 16, mask.getLsbD i = true
  · rw [State.syncDone_of_arrived hsome harr, if_pos rfl] at hexec
    refine ⟨_, hexec, foldl_keeps State.mem (by intros; rfl) _ _, foldl_keeps State.moorings (by intros; rfl) _ _, fun i hi hm => ?_, fun c hc => ?_⟩
    · rw [(stepsCores_releaseAt s.now).core_self_id rfl hb.canon.cores (nodup_maskCores g mask) (hmem hi hm)]
      exact ⟨rfl, rfl, rfl⟩
    · refine (stepsCores_releaseAt s.now).core_other rfl hb.canon.cores ?_
      rw [List.map_id]
      intro hin
      obtain ⟨i, hi, hm, rfl⟩ := mem_maskCores.1 hin
      have := hc (by omega)
      rw [show (16 * g + i) % 16 = i by omega, hm] at this
      cases this
  · have hnil : maskCores (g * coresPerCluster) mask = [] := List.eq_nil_iff_forall_not_mem.2 fun c hc => by
      obtain ⟨i, hi, hm, -⟩ := mem_maskCores.1 hc
      exact hsome ⟨i, hi, hm⟩
    rw [hnil, List.foldl_nil, ite_self] at hexec
    exact ⟨s, hexec, rfl, rfl, fun i hi hm => absurd ⟨i, hi, hm⟩ hsome, fun _ _ => rfl⟩

/-! ### Barriers time out (R61, R319, R412) -/

/-- A member that holds at its barrier issues nothing more (R319). -/
def SeqState.stopAtSync (x : SeqState) : SeqState :=
  match x.hold with
  | .sync _ _ => { x with hold := .stopped }
  | _ => x

/-- The timing fault of a core whose bundle is not at fault (R318, R330). -/
def SeqState.faultAlone (x : SeqState) : SeqState :=
  if x.faulted || x.recorded then x else { x.cause ⟨0x20, none, BitVec.ofNat 64 0, true⟩ 0 with faulted := true }

theorem SeqState.stopAtSync_marks (x : SeqState) : x.stopAtSync.faulted = x.faulted ∧ x.stopAtSync.recorded = x.recorded := by
  unfold SeqState.stopAtSync
  split <;> exact ⟨rfl, rfl⟩

theorem SeqState.faultAlone_eq {x : SeqState} (hf : x.faulted = false) (hr : x.recorded = false) :
    x.faultAlone = { x.cause ⟨0x20, none, BitVec.ofNat 64 0, true⟩ 0 with faulted := true } := by
  unfold SeqState.faultAlone
  rw [hf, hr]
  rfl

/-- A task in normal mode that stands, or whose discard has begun in this cycle. -/
structure State.Stands (s : State) (m : Nat) : Prop where
  tidy : Tidy Core.init s.cores
  timed : (s.moor m).loose = false
  st : (s.moor m).st = .running ∨ (s.moor m).st = .ending (s.now + 8)

/-- The fault of the members, of one after the other. -/
theorem State.faultAll_cons (s : State) (c : Nat) (cs : List Nat) : s.faultAll (c :: cs) = (s.faultAll [c]).faultAll cs := rfl

theorem State.core_updSeq_primary {s : State} (ht : Tidy Core.init s.cores) (c d : Nat) (f : SeqState → SeqState) :
    (s.updSeq c .primary f).core d = if d = c then { s.core c with prim := f (s.core c).prim } else s.core d :=
  State.core_updCore ht c d fun k => { k with prim := f k.prim }

theorem State.faultAll_one {s : State} {c m : Nat} (h : s.Stands m) (hm : s.moorOf c = some m)
    (hf : (s.core c).prim.faulted = false ∧ (s.core c).prim.recorded = false) :
    (s.faultAll [c]).Stands m ∧ s.SameWork (s.faultAll [c]) ∧ ((s.faultAll [c]).moor m).st = .ending (s.now + 8)
      ∧ (∀ d, (s.faultAll [c]).moorOf d = s.moorOf d)
      ∧ ∀ d, (s.faultAll [c]).core d = if d = c then { s.core c with prim := (s.core c).prim.stopAtSync.faultAlone } else s.core d := by
  obtain ⟨ht, hloose, hst⟩ := h
  obtain ⟨hfaulted, hrec⟩ := hf
  have hlt := State.moorOf_lt hm
  -- The hold of the member, then the fault that it meets.
  let u := s.updSeq c .primary SeqState.stopAtSync
  let v := u.updSeq c .primary SeqState.faultAlone
  let w := v.faultRecord m (s.moor m).task c 0x20 false (BitVec.ofNat 64 0) 0 (u.core c).engst
  have hidle : (s.moor m).st ≠ .idle := by
    rcases hst with h | h <;> rw [h] <;> exact nofun
  have he : s.faultAll [c] = w.beginDiscard m 0 := by
    show State.faultAll s [c] = _
    unfold State.faultAll
    rw [List.foldl_cons, List.foldl_nil]
    dsimp only
    rw [hm, hfaulted, if_neg Bool.false_ne_true]
    simp only [hloose, Bool.false_eq_true, if_false]
    show u.coreFault c 0 = _
    unfold State.coreFault
    rw [show u.moorOf c = some m from hm]
    show (if (s.moor m).st = .idle then u else if (s.moor m).loose then _ else _) = _
    rw [if_neg hidle, hloose, if_neg Bool.false_ne_true]
    rfl
  have hmoors : w.moorings = s.moorings := (State.faultRecord_fields _ _ _ _ _ _ _ _ _).2.2
  have hwm : w.moor m = s.moor m := State.moor_of_moorings hmoors m
  have hwork : s.SameWork w :=
    ((s.sameWork_updSeq c .primary _).trans (State.sameWork_updSeq _ _ _ _)).trans (State.sameWork_faultRecord _ _ _ _ _ _ _ _ _)
  have hcores : (w.beginDiscard m 0).cores = v.cores := (State.beginDiscard_cores _ _ _).trans (State.faultRecord_fields _ _ _ _ _ _ _ _ _).2.1
  have hend : ((w.beginDiscard m 0).moor m).st = .ending (s.now + 8) := by
    rcases hst with h | h
    · rw [State.beginDiscard_st hlt 0 (by rw [hwm, h]; simp), hwork.now]
    · rw [State.beginDiscard_of_ending 0 (hwm ▸ h), hwm, h]
  have htu : Tidy Core.init u.cores := State.tidy_updSeq ht _ _ _
  rw [he]
  have hall : s.SameWork (w.beginDiscard m 0) := hwork.trans (State.sameWork_beginDiscard _ _ _)
  refine ⟨⟨hcores ▸ State.tidy_updSeq htu _ _ _, ?_, .inr (by rw [hall.now, hend])⟩, hall, hend, fun d => ?_, fun d => ?_⟩
  · rw [State.beginDiscard_loose, hwm, hloose]
  · rw [State.moorOf_beginDiscard, State.moorOf_of_moorings hmoors]
  · rw [State.core_of_cores hcores]
    rw [State.core_updSeq_primary htu, State.core_updSeq_primary ht, State.core_updSeq_primary ht, if_pos rfl]
    split <;> rfl

/-- Every member in the list meets the fault once. -/
theorem State.faultAll_late {m : Nat} : ∀ {cs : List Nat} {s : State}, s.Stands m → cs.Nodup → (∀ c ∈ cs, s.moorOf c = some m
    ∧ (s.core c).prim.faulted = false ∧ (s.core c).prim.recorded = false) → s.SameWork (s.faultAll cs)
      ∧ (cs ≠ [] ∨ (s.moor m).st = .ending (s.now + 8) → ((s.faultAll cs).moor m).st = .ending (s.now + 8))
      ∧ (∀ c ∈ cs, ((s.faultAll cs).core c).prim = (s.core c).prim.stopAtSync.faultAlone) ∧ ∀ d ∉ cs, (s.faultAll cs).core d = s.core d
  | [], s, _, _, _ => ⟨s.sameWork_refl, fun h => h.resolve_left fun h => h rfl, nofun, fun _ _ => rfl⟩
  | c :: cs, s, hs, hnd, hcs => by
    obtain ⟨hc, hnd⟩ := List.nodup_cons.1 hnd
    obtain ⟨hm, hf⟩ := hcs c (List.mem_cons_self ..)
    obtain ⟨hs1, hw1, hst1, ho1, hk1⟩ := State.faultAll_one hs hm hf
    have hne : ∀ {d}, d ∈ cs → d ≠ c := fun hd e => hc (e ▸ hd)
    obtain ⟨hw, hst, hin, hout⟩ := State.faultAll_late hs1 hnd fun d hd => by
      rw [ho1, hk1, if_neg (hne hd)]
      exact hcs d (List.mem_cons_of_mem _ hd)
    rw [State.faultAll_cons]
    refine ⟨hw1.trans hw, fun _ => ?_, fun d hd => ?_, fun d hd => ?_⟩
    · rw [hst (.inr (by rw [hw1.now, hst1])), hw1.now]
    · rcases List.mem_cons.1 hd with rfl | hd
      · rw [hout d hc, hk1, if_pos rfl]
      · rw [hin d hd, hk1, if_neg (hne hd)]
    · obtain ⟨h1, h2⟩ := not_or.1 (mt List.mem_cons.2 hd)
      rw [hout d h2, hk1, if_neg h1]

theorem SeqState.trapRegs_faultAlone {x : SeqState} (hf : x.faulted = false) (hr : x.recorded = false) : TrapRegs x.faultAlone 0 0x20 0 0 false := by
  rw [SeqState.faultAlone_eq hf hr]
  obtain ⟨h1, h2, h3⟩ := x.trapRegs_cause (t := ⟨0x20, none, BitVec.ofNat 64 0, true⟩) 0 (by decide)
  exact ⟨h1, h2, h3⟩

theorem State.syncLate_of_absent {s : State} {g i j t0 m : Nat} {mask : BitVec 16} (hi : i < 16) (hj : j < 16) (hmi : mask.getLsbD i = true)
    (hmj : mask.getLsbD j = true) (ha : arrived s (16 * g + i) mask t0) (ht : t0 + 65536 ≤ s.now) (hn : ∀ t, ¬arrived s (16 * g + j) mask t)
    (hm : s.moorOf (16 * g) = some m) (hl : (s.moor m).loose = false) : s.syncLate g mask = true := by
  have hlast : s.lastArrival g mask = none := by
    unfold State.lastArrival
    dsimp only
    refine if_neg fun h => ?_
    have := List.all_eq_true.1 h _ (List.mem_map_of_mem (mem_maskCores.2 ⟨j, hj, hmj, rfl⟩))
    rw [State.arrival_eq_none hn] at this
    cases this
  have hin : t0 ∈ (maskCores (g * coresPerCluster) mask).filterMap (s.arrival mask) :=
    List.mem_filterMap.2 ⟨_, mem_maskCores.2 ⟨i, hi, hmi, rfl⟩, State.arrival_eq ha⟩
  obtain ⟨t, hmin⟩ := Option.isSome_iff_exists.1 (List.isSome_min?_of_mem hin)
  have hle : t ≤ t0 := (List.min?_eq_some_iff.1 hmin).2 t0 hin
  have h16 : coresPerCluster = 16 := rfl
  unfold State.syncLate
  rw [hlast, show s.firstArrival g mask = some t from hmin, h16, Nat.mul_comm, State.looseCore_of_moorOf hm, hl]
  simp only [Option.isNone_none, Bool.true_and, Bool.not_false, Bool.and_true, decide_eq_true_eq]
  omega

theorem barriersTimeOut : Spec.BarriersTimeOut := by
  intro s g m mask i j t0 hb hi hj hmi hmj ha ht hn hm hl hst hmem
  have howner : ∀ {c}, c / 16 = g → s.moorOf c = some m := fun {c} hc => by
    rw [← hm]
    unfold State.moorOf
    have h16 : coresPerCluster = 16 := rfl
    rw [h16, hc, Nat.mul_div_cancel_left _ (by decide)]
  have hs : s.Stands m := ⟨hb.canon.cores, hl, .inl hst⟩
  have hin16 : ∀ {k}, k < 16 → mask.getLsbD k = true → 16 * g + k ∈ maskCores (g * coresPerCluster) mask :=
    fun {k} hk hmk => mem_maskCores.2 ⟨k, hk, hmk, rfl⟩
  obtain ⟨hw, hend, hin, -⟩ := State.faultAll_late hs (nodup_maskCores g mask) fun c hc => by
    obtain ⟨k, hk, hmk, rfl⟩ := mem_maskCores.1 hc
    exact ⟨howner (by omega), hmem k hk hmk⟩
  have hregs : ∀ {k}, k < 16 → mask.getLsbD k = true →
      TrapRegs ((s.faultAll (maskCores (g * coresPerCluster) mask)).core (16 * g + k)).prim 0 0x20 0 0 false := fun {k} hk hmk => by
    obtain ⟨hf, hr⟩ := hmem k hk hmk
    obtain ⟨hf', hr'⟩ := (s.core (16 * g + k)).prim.stopAtSync_marks
    rw [hin _ (hin16 hk hmk)]
    exact SeqState.trapRegs_faultAlone (hf'.trans hf) (hr'.trans hr)
  refine ⟨s.faultAll (maskCores (g * coresPerCluster) mask), ?_, hend (.inl (List.ne_nil_of_mem (hin16 hi hmi))), ?_, hregs hi hmi, hregs hj hmj,
    hw.mem⟩
  · show execSyncTimeout g s = _
    unfold execSyncTimeout
    rw [if_pos hb.cluster, State.masksOf_eq hb, List.foldl_cons, List.foldl_nil,
      if_pos (State.syncLate_of_absent hi hj hmi hmj ha ht hn hm hl)]
  · obtain ⟨hf, hr⟩ := hmem i hi hmi
    obtain ⟨hf', hr'⟩ := (s.core (16 * g + i)).prim.stopAtSync_marks
    rw [hin _ (hin16 hi hmi), SeqState.faultAlone_eq (hf'.trans hf) (hr'.trans hr)]
    show (s.core (16 * g + i)).prim.stopAtSync.hold = _
    unfold SeqState.stopAtSync
    rw [ha.1]

end Sys2Proof.Machine
end

section
/-! SUPPORT. What ends the holds of sequencers, continued: gauges, fences and the watchdog (O38). -/

namespace Sys2Proof.Machine
open Config Sys2Proof.Spec

/-- The release of a hold: only the hold and the next cycle of the sequencer change. -/
theorem State.goesOn_releaseAt {s : State} (ht : Tidy Core.init s.cores) (c : Nat) (q : Seq) (n : Nat) : GoesOn s (s.releaseAt c q n) c q n := by
  have hx : (s.releaseAt c q n).seq c q = { s.seq c q with hold := .none, nextAt := n } := State.seq_updSeq ht c q _
  have hk : (s.releaseAt c q n).core c = (s.core c).setSeq q { s.seq c q with hold := .none, nextAt := n } :=
    (State.core_updCore ht c c fun k => k.setSeq q { k.seq q with hold := .none, nextAt := n }).trans (if_pos rfl)
  refine ⟨?_, ?_, ?_, ?_, ?_, fun r => ?_, fun d hd => ?_, rfl, rfl⟩
  any_goals rw [hx]
  · rw [hk]
    cases q <;> cases r <;> rfl
  · exact (State.core_updCore ht c d fun k => k.setSeq q { k.seq q with hold := .none, nextAt := n }).trans (if_neg hd)

/-! ### `WAITG` (R249, R442) -/

theorem waitsForGauges : Spec.WaitsForGauges := by
  intro s c q ga gen t limit idle hc hs hh word
  have hgo := s.goesOn_releaseAt hs.cores c q (Nat.max s.now (t + 1 + idle))
  have hdead : (q = .primary → s.looseCore c = false) → limit < s.now → exec (.waitgDeadline c q) s =
      .next ((s.releaseAt c q (Nat.max s.now (t + 1 + idle))).timingFault c q 0 (s.seq c q).lastPc) := by
    intro hl hlim
    have hd : s.deadlines c q = true := by
      cases q with
      | primary => simp only [State.deadlines, hl rfl, Bool.not_false]
      | secondary => rfl
    show execWaitgDeadline c q s = _
    unfold execWaitgDeadline
    rw [if_pos hc, hh]
    exact if_pos ⟨hlim, hd⟩
  refine ⟨fun ht hlim hreach => ⟨_, ?_, hgo⟩, fun hlim hq => ?_, fun hlim hq m hm hl hst => ?_⟩
  · have hr : s.waitgReached c q = true := by
      simp only [State.waitgReached, hh, genReached, Nat.mod_eq_of_lt gen.isLt, Bool.and_eq_true, decide_eq_true_eq]
      exact ⟨ht, hreach⟩
    show execWaitgRelease c q s = _
    unfold execWaitgRelease
    rw [if_pos hc, hh]
    refine if_pos ?_
    rw [hr, decide_eq_true hlim]
    rfl
  · subst hq
    refine ⟨_, hdead nofun hlim, ?_⟩
    have hx : ((s.releaseAt c .secondary (Nat.max s.now (t + 1 + idle))).timingFault c .secondary 0 (s.seq c .secondary).lastPc).seq c .secondary
        = { s.seq c .secondary with hold := .none, nextAt := Nat.max s.now (t + 1 + idle), flags := (s.seq c .secondary).flags ||| fTF } := by
      refine (State.seq_updSeq (s := s.releaseAt c .secondary _) (State.tidy_updSeq hs.cores _ _ _) c .secondary _).trans ?_
      rw [State.releaseAt, State.seq_updSeq hs.cores]
    rw [hx]
    exact ⟨rfl, rfl, rfl, rfl⟩
  · subst hq
    refine ⟨_, hdead (fun _ => (State.looseCore_of_moorOf hm).trans hl) hlim, ?_, State.trapRegs_takeTrapAt (by decide) (by decide)⟩
    have hfate := State.takeTrapAt_fate (s := s.releaseAt c .primary (Nat.max s.now (t + 1 + idle))) hm ⟨0x20, none, BitVec.ofNat 64 0, true⟩
      (s.seq c .primary).lastPc none
    unfold Fate at hfate
    rw [show (s.releaseAt c .primary (Nat.max s.now (t + 1 + idle))).moor m = s.moor m from rfl, hl, if_neg (by decide)] at hfate
    exact hfate (by rw [hst]; exact List.mem_cons_self ..)

/-! ### `FENCE` (R38, R241, R273) -/

theorem State.fenceFree_of_done {s : State} {c : Nat} {q : Seq} {sc : FScope} {t : Nat}
    (ha : ∀ a ∈ s.accesses, a.owner = .seq c q → t ≤ a.issued) (he : ∀ e ∈ (s.seq c q).queue, t ≤ e.issued) (hk : ∀ k ∈ s.cmds, k.ended = true) :
    s.fenceFree c q sc t = true := by
  unfold State.fenceFree
  simp only [Bool.and_eq_true, Bool.not_eq_true', List.any_eq_false]
  refine ⟨⟨fun a h => ?_, fun e h => ?_⟩, fun k h => ?_⟩
  · simp only [beq_iff_eq, decide_eq_true_eq]
    intro ⟨⟨⟨ho, hi⟩, _⟩, _⟩
    exact absurd (ha a h ho) (Nat.not_le.2 hi)
  · simp only [scopeEntry, Bool.and_eq_true, decide_eq_true_eq, not_and]
    exact fun hi => absurd (he e h) (Nat.not_le.2 hi)
  · simp only [scopeCmd, hk k h, Bool.not_true, Bool.false_and, Bool.false_eq_true, not_false_eq_true]

/-- An access to the own scratchpad that was issued before a fence keeps it. -/
theorem State.fenceFree_of_own {s : State} {c : Nat} {sc : FScope} {t : Nat} {a : Access} (hsc : sc ∈ [FScope.core, .cluster, .package, .domain])
    (ha : a ∈ s.accesses) (ho : a.owner = .seq c .primary) (hi : a.issued < t) (hsp : a.space = .own) (hk : ∀ d p x y, a.kind ≠ .send d p x y) :
    s.fenceFree c .primary sc t = false := by
  have hcov : scopeCovers sc .primary .own = true := by
    simp only [List.mem_cons, List.not_mem_nil, or_false] at hsc
    rcases hsc with rfl | rfl | rfl | rfl <;> rfl
  have hsend : a.kind.isSend = false := by
    unfold AKind.isSend
    split
    · rename_i d p x y h
      exact absurd h (hk d p x y)
    · rfl
  unfold State.fenceFree
  rw [List.any_eq_true.2 ⟨a, ha, by simp [ho, hi, hsend, hsp, hcov]⟩]
  rfl

/-! ### `TFENCE` (R317) -/

theorem SeqState.allLanded_iff {x : SeqState} : x.allLanded = true ↔ ∀ e ∈ x.queue, e.eff.dest = none := by
  simp [SeqState.allLanded]

/-- The flags that trap, as the bits of R317: those that `TRAPEN` names, and TF. -/
theorem toNat_trapBits (flags : BitVec 10) (en : BitVec 9) : (trapBits flags en).toNat = flags.toNat &&& (en.toNat + 512) := by
  have hor : (en.setWidth 10 ||| fTF).toNat = en.toNat + 512 := by
    have hadd : en.setWidth 10 ||| fTF = en.setWidth 10 + fTF := by
      symm
      refine BitVec.add_eq_or_of_and_eq_zero _ _ ?_
      ext i hi
      interval_cases i <;> simp [fTF]
    have hlt : en.toNat < 512 := en.isLt
    have htf : fTF.toNat = 512 := rfl
    rw [hadd, BitVec.toNat_add, htf, BitVec.toNat_setWidth]
    omega
  rw [trapBits, BitVec.toNat_and, hor]

/-- The flag trap of a `TFENCE` (R317, log 25). -/
def flagTrap (b : BitVec 10) : Trap := ⟨0x10, some 7, b.setWidth 64, true⟩

theorem flagTrap_cause (b : BitVec 10) : (flagTrap b).cause < 256 ∧ 0 < (flagTrap b).cause :=
  ⟨show 0x10 < 256 by decide, show 0 < 0x10 by decide⟩

theorem fencesRelease : Spec.FencesRelease := by
  refine ⟨fun s c q sc t idle hc hs hh hnow ha he hk => ⟨_, ?_, s.goesOn_releaseAt hs.cores c q s.now⟩,
    fun s c sc t idle a hc hh hsc ha ho hi hsp hk => ?_, fun s c q t idle hc hs hh hnow he ha => ?_, fun s c q t idle e hc hh he hd => ?_⟩
  · show execFenceRelease c q s = _
    unfold execFenceRelease
    rw [if_pos hc, hh]
    exact if_pos ⟨hnow, State.fenceFree_of_done ha he hk⟩
  · show execFenceRelease c .primary s = _
    unfold execFenceRelease
    rw [if_pos hc, hh]
    exact if_neg fun h => Bool.false_ne_true ((State.fenceFree_of_own hsc ha ho hi hsp hk).symm.trans h.2)
  · have hflags : s.flagsNow c q = (s.seq c q).flags := by
      unfold State.flagsNow
      rw [ha]
      rfl
    have hb := toNat_trapBits (s.seq c q).flags (s.seq c q).trapen
    have hexec : exec (.tfenceRelease c q) s = if trapBits (s.seq c q).flags (s.seq c q).trapen = 0 then .next (s.releaseAt c q s.now) else
        .next ((s.releaseAt c q s.now).takeTrapAt c q (flagTrap (trapBits (s.seq c q).flags (s.seq c q).trapen))
          (s.seq c q).lastPc none) := by
      show execTfenceRelease c q s = _
      unfold execTfenceRelease
      dsimp only
      rw [if_pos hc, hh, hflags]
      exact if_pos ⟨hnow, SeqState.allLanded_iff.2 he⟩
    intro hit
    refine ⟨fun h0 => ⟨_, hexec.trans (if_pos ?_), s.goesOn_releaseAt hs.cores c q s.now⟩, fun h0 => ⟨_, hexec.trans (if_neg ?_), ?_⟩⟩
    · exact BitVec.eq_of_toNat_eq (hb.trans h0)
    · intro h
      rw [h] at hb
      exact h0 hb.symm
    · have hx : (s.releaseAt c q s.now).seq c q = { s.seq c q with hold := .none, nextAt := s.now } := State.seq_updSeq hs.cores c q _
      have hregs : TrapRegs _ (s.seq c q).lastPc 0x10 7 _ true := State.trapRegs_takeTrapAt (s := s.releaseAt c q s.now) (c := c) (q := q) (k := none)
        (t := (flagTrap (trapBits (s.seq c q).flags (s.seq c q).trapen))) (flagTrap_cause _).1 (flagTrap_cause _).2
      have hinfo : ((trapBits (s.seq c q).flags (s.seq c q).trapen).setWidth 64).toNat = hit := by
        rw [BitVec.toNat_setWidth, hb]
        refine Nat.mod_eq_of_lt (Nat.lt_of_le_of_lt Nat.and_le_left ?_)
        exact Nat.lt_trans (s.seq c q).flags.isLt (by decide)
      refine ⟨hinfo ▸ hregs, ?_⟩
      rw [State.seq_takeTrapAt (xcauseWord_ne_zero (flagTrap_cause _).1 (flagTrap_cause _).2), hx]
      obtain ⟨r, k, f, b, h⟩ := (s.releaseAt c q s.now).trapTurn_eq c q
        (flagTrap (trapBits (s.seq c q).flags (s.seq c q).trapen)) none
        (({ s.seq c q with hold := .none, nextAt := s.now } : SeqState).cause
          (flagTrap (trapBits (s.seq c q).flags (s.seq c q).trapen)) (s.seq c q).lastPc)
      rw [h]
      exact ⟨rfl, rfl⟩
  · show execTfenceRelease c q s = _
    unfold execTfenceRelease
    dsimp only
    rw [if_pos hc, hh]
    exact if_neg fun h => hd (SeqState.allLanded_iff.1 h.2 e he)

/-! ### The watchdog (R61) -/

theorem watchdogReports : Spec.WatchdogReports := by
  intro s c hc hs hr hl
  have hexec : exec (.secondaryWatchdog c) s =
      if s.stalled c then .next (s.updSeq c .secondary fun x => { x with watchdog := true }) else .next s := by
    show execSecondaryWatchdog c s = _
    unfold execSecondaryWatchdog
    rw [if_pos hc]
  by_cases hw : (s.seq c .secondary).watchdog = true
  · have hst : s.stalled c = false := by
      unfold State.stalled
      dsimp only
      rw [hw, Bool.not_true, Bool.and_false, Bool.false_and]
    refine ⟨s, by rw [hexec, hst, if_neg Bool.false_ne_true], ?_, rfl, rfl, rfl⟩
    rw [← hw]
  · have hst : s.stalled c = true := by
      unfold State.stalled
      dsimp only
      rw [hr, Bool.eq_false_iff.2 hw, decide_eq_true (show _ + watchdogLimit ≤ _ from hl)]
      rfl
    refine ⟨_, hexec.trans (if_pos hst), State.seq_updSeq hs.cores c .secondary _, ?_, rfl, rfl⟩
    show Core.seq ((s.updCore c fun k => { k with sec := { k.sec with watchdog := true } }).core c) .primary = _
    rw [State.core_updCore hs.cores, if_pos rfl]
    rfl

/-- Settles O38: each hold's end, from what its release changes in the sequencer. -/
theorem holdsEnd : Obligations.HoldsEnd := ⟨barriersComplete, barriersTimeOut, waitsForGauges, fencesRelease, watchdogReports⟩

end Sys2Proof.Machine
end

section
/-! SUPPORT. The seal of a task whose input area lies in a frozen range (R288, R305): O43. -/

namespace Sys2Proof.Machine
open Config Sys2Proof.Spec

/-- Mooring 0 seals its task 0 in cycle 100, with a request of one byte in its slot; its drain keeps the page of the input area frozen. -/
def frozenSealMooring : Mooring := { Mooring.init with
  loaded := true, period := 100, bcap := 1, t0 := 100, inarea := 0x200000000, istride := 64
  pins := [⟨0x200000000, 0xF000000200000000, 0⟩]
  slots := [⟨0, 0, ⟨1, false, false, [1], 0, 0, 1000, 0, .host 0 9, false⟩⟩]
  drain := some ⟨[poolBase], 0, [], 0, 1, 0, 0⟩ }

def frozenSeal : State := { State.reset with
  now := 100
  moorings := State.reset.moorings.setIfInBounds 0 frozenSealMooring }

theorem canon_frozenSeal : frozenSeal.Canon := ⟨rfl, rfl, rfl, by decide +kernel⟩

/-- The outcome of the seal: the input area stays as it was, as R305 asks. -/
theorem exec_frozenSeal : ∃ u, exec (.taskSeal 0) frozenSeal = .next u ∧ u.byte poolBase = 0 := by
  refine ⟨_, rfl, ?_⟩
  decide +kernel

/-- Refutes O43: the seal of a task whose input area lies in a range that a checkpoint keeps frozen writes no slot (R305), and the statement
does not keep such ranges out. -/
theorem not_requestsAndTasks : ¬ Obligations.RequestsAndTasks := by
  unfold Obligations.RequestsAndTasks
  rintro ⟨-, h, -⟩
  obtain ⟨t, he, hw, -⟩ := h frozenSeal 0 0 poolBase _ (by decide) canon_frozenSeal rfl (by decide) (by decide) rfl rfl rfl (by decide +kernel)
    (by decide +kernel)
  obtain ⟨u, hu, hu0⟩ := exec_frozenSeal
  obtain rfl : t = u := Host.Outcome.next.inj (he.symm.trans hu)
  have h1 : t.byte poolBase = 1 := (hw poolBase).trans (by decide +kernel)
  exact absurd (hu0.symm.trans h1) (by decide)

end Sys2Proof.Machine
end

section
/-! SUPPORT. How tasks end (R34, R61, R286, R292, R319): O44. -/

namespace Sys2Proof.Machine
open Config Sys2Proof.Spec

/-! ### A task is complete (R286), or late (R61) -/

/-- A reply changes neither the moorings nor the cores, memory or accesses. -/
theorem State.reply_fields (s : State) (m status : Nat) (r : Req) (info : Nat) (out : List Byte) :
    (s.reply m status r info out).moorings = s.moorings ∧ (s.reply m status r info out).cores = s.cores
      ∧ (s.reply m status r info out).mem = s.mem ∧ (s.reply m status r info out).accesses = s.accesses := by
  unfold State.reply
  split <;> exact ⟨rfl, rfl, rfl, rfl⟩

/-- A fault of a task that no core raises leads to its discard (R319). -/
theorem State.moorFault_st {s : State} {m : Nat} (hm : m < nMoorings) (xinfo : Word) (hst : (s.moor m).st = .running) :
    ((s.moorFault m xinfo).moor m).st = .ending (s.now + 8) ∧ s.SameWork (s.moorFault m xinfo) := by
  have hw := s.sameWork_faultRecord m (s.moor m).task 0xFFFF 0x20 false xinfo 0 0
  unfold State.moorFault State.taskFault
  rw [if_neg (by rw [hst]; exact nofun)]
  refine ⟨?_, hw.trans (State.sameWork_beginDiscard _ _ _)⟩
  rw [State.beginDiscard_st hm, hw.now]
  rw [State.moor_of_moorings (State.faultRecord_fields _ _ _ _ _ _ _ _ _).2.2, hst]
  exact List.mem_cons_self ..

theorem length_natBytes : ∀ n v : Nat, (natBytes n v).length = n
  | 0, _ => rfl
  | n + 1, v => congrArg (· + 1) (length_natBytes n (v / 256))

theorem leNat_natBytes : ∀ n v : Nat, leNat (natBytes n v) = v % 256 ^ n
  | 0, v => (Nat.mod_one v).symm
  | n + 1, v => by
    have h : (BitVec.ofNat 8 v).toNat = v % 256 := BitVec.toNat_ofNat v 8
    rw [natBytes, leNat, leNat_natBytes n (v / 256), h, Nat.pow_succ', Nat.mod_mul]

theorem take_natBytes_append (n v : Nat) (l : List Byte) : (natBytes n v ++ l).take n = natBytes n v := by
  rw [List.take_append_of_le_length (Nat.le_of_eq (length_natBytes n v).symm), List.take_of_length_le (Nat.le_of_eq (length_natBytes n v))]

theorem drop_natBytes_append (n v : Nat) (l : List Byte) : (natBytes n v ++ l).drop n = l := by
  rw [List.drop_append_of_le_length (Nat.le_of_eq (length_natBytes n v).symm), List.drop_of_length_le (Nat.le_of_eq (length_natBytes n v)),
    List.nil_append]

/-- The fields of a reply that name the mooring, the status and the request (R286). -/
theorem State.replyBytes_fields (s : State) (m status : Nat) (r : Req) (info : Nat) (out : List Byte) :
    leNat ((s.replyBytes m status r info out).take 2) = 0xE7A2
      ∧ leNat (((s.replyBytes m status r info out).drop 4).take 6) = r.reqid % 2 ^ 48 := by
  have hbody : s.replyBytes m status r info out = natBytes 2 0xE7A2 ++ ([BitVec.ofNat 8 (16 * m + status), 0] ++ (natBytes 6 r.reqid ++
      (natBytes 2 0 ++ natBytes 4 info ++ natBytes 8 out.length ++ natBytes 8 r.reply.toNat ++ out
        ++ tagOf (s.moor m).key (replyBody m status r info out)))) := by
    simp only [State.replyBytes, replyBody, List.append_assoc]
  rw [hbody]
  constructor
  · rw [take_natBytes_append, leNat_natBytes]
    decide
  · rw [show 4 = 2 + 2 from rfl, ← List.drop_drop, drop_natBytes_append]
    show leNat ((natBytes 6 r.reqid ++ _).take 6) = _
    rw [take_natBytes_append, leNat_natBytes]
    rfl

theorem tasksComplete : Spec.TasksComplete := by
  refine ⟨fun s m mm seq p h hd hk hb hs ht h0 ha hsrc hp => ?_, fun s m h hk => ?_⟩
  · have hover : (s.moor m).overdue s.now = false := by
      unfold Mooring.overdue
      rw [decide_eq_false (Nat.not_lt.2 hk), Bool.and_false]
    have hopen := Mooring.openSlots_single hb hs ht h0 ha
    obtain ⟨hr, hstatus⟩ := State.reply_host (s := s) (m := m) (status := 1) (info := 0) (out := s.output m p.slot) hsrc
    obtain ⟨hmagic, hreq⟩ := s.replyBytes_fields m 1 p.req 0 (s.output m p.slot)
    refine ⟨_, s.replyBytes m 1 p.req 0 (s.output m p.slot), (if_pos h.mooring).trans ((if_neg (Bool.eq_false_iff.1 hover)).trans
      (if_pos ⟨h.runs, hd⟩)), ?_⟩
    unfold State.finishTask
    dsimp only
    rw [hopen, List.foldl_cons, List.foldl_nil, hr]
    generalize hu : (s.complete 0x81 mm seq (s.replyBytes m 1 p.req 0 (s.output m p.slot))).updMoor m _ = u
    have hum : u.moor m = { s.moor m with st := .idle, launched := [], slots := (s.moor m).slots.filter fun p => p.task != (s.moor m).task } := by
      rw [← hu, State.moor_updMoor h.mooring]
      rfl
    have hserve : u.servePreempt m = u.updMoor m fun k => { k with preempt := [] } := by
      unfold State.servePreempt
      rw [hum, hp]
      rfl
    rw [hserve, State.moor_updMoor h.mooring, hum]
    refine ⟨rfl, ?_, ?_, ?_, hmagic, hstatus, hreq⟩
    · show (s.moor m).slots.filter _ = []
      rw [hs, List.filter_cons_of_neg (by simp [ht])]
      rfl
    · rw [← hu]
      rfl
    · rw [← hu]
      rfl
  · have hover : (s.moor m).overdue s.now = true := by
      unfold Mooring.overdue
      rw [h.runs, h.normal, decide_eq_true hk]
      rfl
    obtain ⟨h1, h2⟩ := State.moorFault_st h.mooring 0 h.runs
    exact ⟨_, (if_pos h.mooring).trans (if_pos hover), h1, h2.mem⟩

/-! ### The cycle limit of a launch (R34) -/

theorem cycleLimitFaults (s : State) (m c : Nat) (l : Launched) (h : Running s m) (hc : c < nCores) (ho : s.moorOf c = some m)
    (hl : l ∈ (s.moor m).launched) (hlc : l.core = c) (hb : l.begun = true) (hr : (s.core c).prim.run = .running)
    (hf : (s.core c).prim.faulted = false) (hrec : (s.core c).prim.recorded = false) (hlim : l.limit + 1 = s.now) :
    ∃ t, exec (.launchCycleLimit m c) s = .next t ∧ (t.moor m).st = .ending (s.now + 8) ∧ TrapRegs (t.core c).prim 0 0x20 0 0 false
      ∧ t.mem = s.mem := by
  have hlate : s.lateCore m c = true := by
    have h1 : s.coreRuns m c = true := List.any_eq_true.2 ⟨l, hl, by simp [hlc, hb, hr]⟩
    have h2 : ((s.moor m).launched.any fun l => l.core == c && decide (l.limit + 1 = s.now)) = true :=
      List.any_eq_true.2 ⟨l, hl, by simp [hlc, hlim]⟩
    unfold State.lateCore
    rw [h.normal, h.runs, h1, h2]
    rfl
  have hexec : exec (.launchCycleLimit m c) s = .next (s.coreFault c 0) := (if_pos ⟨h.mooring, hc⟩).trans (by rw [if_pos hlate])
  have hfault : s.coreFault c 0 = ((s.updSeq c .primary SeqState.faultAlone).faultRecord m (s.moor m).task c 0x20 false (BitVec.ofNat 64 0) 0
      (s.core c).engst).beginDiscard m 0 := by
    unfold State.coreFault
    rw [ho]
    dsimp only
    rw [if_neg (by rw [h.runs]; exact nofun), h.normal, if_neg Bool.false_ne_true]
    rfl
  have hw := (s.sameWork_updSeq c .primary SeqState.faultAlone).trans
    (State.sameWork_faultRecord _ m (s.moor m).task c 0x20 false (BitVec.ofNat 64 0) 0 (s.core c).engst)
  refine ⟨_, hexec, ?_, ?_, ?_⟩
  · rw [hfault, State.beginDiscard_st h.mooring, hw.now]
    rw [State.moor_of_moorings (State.faultRecord_fields _ _ _ _ _ _ _ _ _).2.2]
    show (s.moor m).st ∈ _
    rw [h.runs]
    exact List.mem_cons_self ..
  · rw [hfault, State.core_of_cores (State.beginDiscard_cores _ _ _), State.core_of_cores (State.faultRecord_fields _ _ _ _ _ _ _ _ _).2.1,
      State.core_updSeq_primary h.canon.cores, if_pos rfl]
    exact SeqState.trapRegs_faultAlone hf hrec
  · rw [hfault]
    exact (hw.trans (State.sameWork_beginDiscard _ _ _)).mem

/-! ### Discard (R319) -/

/-- The cores of a state stay, and its sequencers have at most the accesses of before. -/
structure State.Sheds (s t : State) : Prop where
  cores : t.cores = s.cores
  accesses : ∀ a ∈ t.accesses, ∀ c q, a.owner = .seq c q → a ∈ s.accesses

namespace State.Sheds

theorem trans {s t u : State} (h : s.Sheds t) (k : t.Sheds u) : s.Sheds u :=
  ⟨k.cores.trans h.cores, fun a ha c q ho => h.accesses a (k.accesses a ha c q ho) c q ho⟩

theorem foldl {β : Type} {F : State → β → State} (h : ∀ (t : State) (b : β), t.Sheds (F t b)) : ∀ (l : List β) (s : State), s.Sheds (l.foldl F s)
  | [], _ => ⟨rfl, fun _ h _ _ _ => h⟩
  | b :: l, s => (h s b).trans (foldl h l (F s b))

end State.Sheds

theorem State.sheds_of_eq {s t : State} (hc : t.cores = s.cores) (ha : t.accesses = s.accesses) : s.Sheds t := ⟨hc, fun _ h _ _ _ => ha ▸ h⟩

theorem State.sheds_discardCmd (s : State) (c : Cmd) : s.Sheds (s.discardCmd c) := by
  have h : s.Sheds ((s.dropWork c.id).endCmd c.id .faulted) := ⟨rfl, fun _ ha _ _ _ => (List.mem_filter.1 ha).1⟩
  unfold State.discardCmd
  dsimp only
  split
  · exact h.trans (State.sheds_of_eq rfl rfl)
  · exact h

theorem State.sheds_updMoor (s : State) (m : Nat) (f : Mooring → Mooring) : s.Sheds (s.updMoor m f) := State.sheds_of_eq rfl rfl

theorem State.sheds_stopTl (s : State) (ch m : Nat) : s.Sheds (s.stopTl ch m) := by
  unfold State.stopTl State.cleanNow
  dsimp only
  split <;> exact State.sheds_of_eq rfl rfl

/-- A write of the unit's table may still be to come, but it is no access of a sequencer. -/
theorem State.sheds_tableWrite (s : State) (m pa : Nat) (b : List Byte) : s.Sheds (s.tableWrite m pa b) := by
  unfold State.tableWrite
  split
  · exact State.sheds_of_eq rfl rfl
  · split
    · refine ⟨rfl, fun a ha c q ho => (List.mem_append.1 ha).resolve_right fun h => ?_⟩
      rw [List.mem_singleton.1 h] at ho
      cases ho
    · exact State.sheds_of_eq rfl rfl

theorem State.sheds_writeRegion (s : State) (m i : Nat) : s.Sheds (s.writeRegion m i) := by
  unfold State.writeRegion
  split
  · exact s.sheds_tableWrite _ _ _
  · exact State.sheds_of_eq rfl rfl

theorem State.sheds_updRegion (s : State) (m i : Nat) (f : Region → Region) : s.Sheds (s.updRegion m i f) :=
  (State.sheds_of_eq (s := s) (t := s.updMoor m fun k => { k with regions := k.regions.modify i f }) rfl rfl).trans (State.sheds_writeRegion _ _ _)

theorem State.sheds_reply (s : State) (m status : Nat) (r : Req) (info : Nat) (out : List Byte) : s.Sheds (s.reply m status r info out) :=
  State.sheds_of_eq (s.reply_fields m status r info out).2.1 (s.reply_fields m status r info out).2.2.2

theorem State.sheds_dropFlits (s : State) (m : Nat) : s.Sheds (s.dropFlits m) := by
  unfold State.dropFlits
  exact .foldl (by intros; exact State.sheds_of_eq rfl rfl) _ _

/-- A core whose primary the discard has stopped. -/
structure Core.Stopped (k : Core) : Prop where
  run : k.prim.run = .ended
  queue : k.prim.queue = []
  q0 : k.q0 = []

/-- What writes the pieces of a record leaves the other cores. -/
theorem State.cutRecord_cores {s : State} (ht : Tidy Core.init s.cores) (c : Nat) :
    Tidy Core.init (s.cutRecord c).cores ∧ ∀ d, d ≠ c → (s.cutRecord c).core d = s.core d := by
  have hp : (s.writePieces c).cores = (s.updCore c fun k => { k with recwr := k.recwr.filter fun p => decide (s.now < p.1) }).cores := by
    unfold State.writePieces
    exact foldl_keeps State.cores (by intros; rfl) _ _
  have hcut : (s.cutRecord c).cores = (s.writePieces c).cores := by
    unfold State.cutRecord
    dsimp only
    split <;> rfl
  refine ⟨hcut.trans hp ▸ State.tidy_updCore ht _ _, fun d hd => ?_⟩
  rw [State.core_of_cores (hcut.trans hp), State.core_updCore ht, if_neg hd]

/-- What a discard records of a core before it stops it (R310, R319). -/
def State.discardRecord (s0 : State) (m c : Nat) : State :=
  if (s0.core c).prim.recorded then s0.cutRecord c
  else if (s0.core c).prim.faulted then
    if (s0.core c).recwr.isEmpty then (s0.cutRecord c).writeRecord c .primary ((s0.core c).prim.frozen.getD ((s0.cutRecord c).now + 1)) else s0.cutRecord c
  else ((s0.cutRecord c).updSeq c .primary fun y => y.cause ⟨0x21, none, 0, true⟩ y.lastPc).faultRecord m ((s0.cutRecord c).moor m).task c 0x21 false 0
    ((s0.core c).prim.lastPc.setWidth 64) ((s0.cutRecord c).core c).engst

theorem State.discardRecord_cores {s : State} (ht : Tidy Core.init s.cores) (m c : Nat) :
    Tidy Core.init (s.discardRecord m c).cores ∧ ∀ d, d ≠ c → (s.discardRecord m c).core d = s.core d := by
  obtain ⟨htu, hu⟩ := State.cutRecord_cores ht c
  obtain ⟨t, he⟩ : ∃ t, s.discardRecord m c = t := ⟨_, rfl⟩
  rw [he]
  unfold State.discardRecord at he
  split at he
  · exact he ▸ ⟨htu, hu⟩
  · split at he
    · split at he
      · have hc : t.cores = (s.cutRecord c).cores := by
          rw [← he]
          exact State.putClean_cores _ _ _
        exact ⟨hc ▸ htu, fun d hd => (State.core_of_cores hc d).trans (hu d hd)⟩
      · exact he ▸ ⟨htu, hu⟩
    · have hc : t.cores = ((s.cutRecord c).updSeq c .primary fun y => y.cause ⟨0x21, none, 0, true⟩ y.lastPc).cores := by
        rw [← he]
        exact (State.faultRecord_fields _ _ _ _ _ _ _ _ _).2.1
      refine ⟨hc ▸ State.tidy_updSeq htu _ _ _, fun d hd => ?_⟩
      rw [State.core_of_cores hc, State.core_updSeq_primary htu, if_neg hd, hu d hd]

/-- A core whose primary a discard of cycle n stops. -/
def Core.discarded (n : Nat) (y : Core) : Core :=
  { y with
    prim := { y.prim with run := .ended, queue := [], hold := .none, faulted := false, recorded := false, frozen := none, stepping := false, branch := none, delay := 0 }
    q0 := [], recv := [], recwr := []
    mesh := { y.mesh with
      sweep := none, gang := 0, gangPlan := 0, lastStart := Nat.min y.mesh.lastStart (n + 1)
      plan := y.mesh.plan.upTo (n + 1), live := y.mesh.live.upTo (n + 1) } }

theorem State.discardCore_eq (s : State) (m c : Nat) : s.discardCore m c = (s.discardRecord m c).updCore c (Core.discarded (s.cutRecord c).now) := by
  unfold State.discardCore State.discardRecord
  rfl

/-- A discard stops the primary of a core, and changes no other core. -/
theorem State.discardCore_cores {s : State} (ht : Tidy Core.init s.cores) (m c : Nat) :
    Tidy Core.init (s.discardCore m c).cores ∧ ((s.discardCore m c).core c).Stopped ∧ ∀ d, d ≠ c → (s.discardCore m c).core d = s.core d := by
  obtain ⟨htu, hu⟩ := State.discardRecord_cores ht m c
  rw [State.discardCore_eq]
  refine ⟨State.tidy_updCore htu _ _, ?_, fun d hd => ?_⟩
  · rw [State.core_updCore htu, if_pos rfl]
    exact ⟨rfl, rfl, rfl⟩
  · rw [State.core_updCore htu, if_neg hd, hu d hd]

theorem State.discardCores_stopped (m : Nat) : ∀ {l : List Nat} {s : State}, Tidy Core.init s.cores →
    ∀ c, c ∈ l ∨ (s.core c).Stopped → ((l.foldl (fun t c => t.discardCore m c) s).core c).Stopped
  | [], _, _, _, h => h.resolve_left nofun
  | b :: l, s, ht, c, h => by
    obtain ⟨ht', hb, ho⟩ := State.discardCore_cores ht m b
    refine State.discardCores_stopped m ht' c ?_
    by_cases hcb : c = b
    · exact .inr (hcb ▸ hb)
    · rw [ho c hcb]
      exact h.imp_left fun hc => (List.mem_cons.1 hc).resolve_left hcb

/-- The end of a discard: the slots of the task go, with status 4. -/
theorem State.failSlots_moor {s : State} {m : Nat} (hm : m < nMoorings) (n info : Nat) :
    (s.failSlots m n info).moor m = { s.moor m with slots := (s.moor m).slots.filter fun p => p.task != n } := by
  have h := foldl_keeps State.moorings (fun t (p : Placed) => (t.reply_fields m 4 p.req info []).1) ((s.moor m).openSlots n) s
  unfold State.failSlots
  rw [State.moor_updMoor hm, State.moor_of_moorings h]

theorem State.sheds_failSlots (s : State) (m n info : Nat) : s.Sheds (s.failSlots m n info) :=
  (State.Sheds.foldl (fun t (p : Placed) => t.sheds_reply m 4 p.req info []) _ s).trans (State.sheds_of_eq rfl rfl)

/-- The state of a discard after the cores of the task have stopped, and their accesses are dropped. -/
def State.stopCores (s : State) (m : Nat) : State :=
  let s1 := (s.discardCores m).foldl (fun t c => t.discardCore m c) (s.unhold (s.discardCores m))
  { s1.dropFlits m with accesses := s1.accesses.filter fun a => a.owner != .late (some m) && !((s.discardCores m).any fun c => a.owner == .seq c .primary) }

theorem State.stopCores_stopped {s : State} (ht : Tidy Core.init s.cores) {m c : Nat} (hc : c ∈ s.discardCores m) :
    ((s.stopCores m).core c).Stopped ∧ ∀ a ∈ (s.stopCores m).accesses, a.owner ≠ .seq c .primary := by
  constructor
  · show (sget Core.init (State.dropFlits _ m).cores c).Stopped
    rw [(State.sheds_dropFlits _ m).cores]
    exact State.discardCores_stopped m (s := s.unhold (s.discardCores m)) ht c (.inl hc)
  · intro a ha he
    have hf := (List.mem_filter.1 ha).2
    rw [List.any_eq_true.2 ⟨c, hc, by simp [he]⟩, Bool.not_true, Bool.and_false] at hf
    cases hf

/-- The commands, timelines and sweeps of a discarded task stop. -/
def State.stopWork (s : State) (m : Nat) (cmds : List Cmd) : State :=
  let s3 := cmds.foldl State.discardCmd s
  let s4 := (s3.channels.filter fun e => (e.2.tl m).isSome).foldl (fun t e => t.stopTl e.1 m) s3
  let s5 := s4.channels.foldl (fun t e => t.updChan e.1 fun c => c.discard m (cmds.map (·.id))) s4
  (List.range 16).foldl (fun t i => if ((t.moor m).regions.getD i Region.off).sw then t.updRegion m i fun r => { r with sw := false } else t) s5

/-- The requests of the host that waited for a discarded task end with it. -/
def State.answerHost (s : State) (m : Nat) (k : Mooring) : State :=
  let s7 := k.preempt.foldl (fun t q => t.complete 0x84 m q []) s
  match k.resuming with
  | some r => s7.complete 0x84 m r.seq []
  | none => s7

theorem State.sheds_stopWork (s : State) (m : Nat) (cmds : List Cmd) : s.Sheds (s.stopWork m cmds) := by
  have h3 : s.Sheds (cmds.foldl State.discardCmd s) := .foldl (fun t c => t.sheds_discardCmd c) _ _
  unfold State.stopWork
  dsimp only
  generalize cmds.foldl State.discardCmd s = s3 at h3 ⊢
  have h4 := h3.trans (.foldl (fun t (e : Nat × Channel) => t.sheds_stopTl e.1 m) (s3.channels.filter fun e => (e.2.tl m).isSome) s3)
  generalize (s3.channels.filter fun e => (e.2.tl m).isSome).foldl (fun t e => t.stopTl e.1 m) s3 = s4 at h4 ⊢
  refine .trans (h4.trans (.foldl ?_ _ _)) (.foldl ?_ _ _)
  · intro t e
    exact State.sheds_of_eq rfl rfl
  · intro t i
    split
    · exact t.sheds_updRegion m i _
    · exact State.sheds_of_eq rfl rfl

theorem State.sheds_answerHost (s : State) (m : Nat) (k : Mooring) : s.Sheds (s.answerHost m k) := by
  have h : s.Sheds (k.preempt.foldl (fun t q => t.complete 0x84 m q []) s) := .foldl (by intros; exact State.sheds_of_eq rfl rfl) _ _
  unfold State.answerHost
  dsimp only
  split
  · exact h.trans (State.sheds_of_eq rfl rfl)
  · exact h

/-- The work that a discarded task's commands had in flight. -/
def State.workOf (s : State) (m : Nat) : List Cmd := s.cmds.filter fun c => !c.ended && c.mooring == some m && c.q == .primary

/-- A mooring whose task is discarded is free. -/
def Mooring.freed (x : Mooring) : Mooring :=
  { x with
    st := .idle, frozen := none, launched := [], waiting := none, preempt := [], resuming := none, forced := false, vwrite := none, stepns := []
    heldRows := [], savedH := [] }

theorem State.discardTask_eq (s : State) (m : Nat) : s.discardTask m =
    ((((s.stopCores m).stopWork m (s.workOf m)).answerHost m (s.moor m)).updMoor m Mooring.freed).failSlots m (s.moor m).task (s.moor m).faultCode := by
  unfold State.discardTask State.answerHost State.stopWork State.stopCores State.workOf
  rfl

/-- What follows the stop of the cores stops no more cores, and adds no access of a sequencer. -/
theorem State.sheds_discardTask (s : State) (m : Nat) : (s.stopCores m).Sheds (s.discardTask m) := by
  rw [State.discardTask_eq]
  exact ((((s.stopCores m).sheds_stopWork m _).trans (State.sheds_answerHost _ m _)).trans (State.sheds_updMoor _ m _)).trans (State.sheds_failSlots _ _ _ _)

theorem State.discardTask_moor {s : State} {m : Nat} (hm : m < nMoorings) :
    ((s.discardTask m).moor m).st = .idle ∧ ((s.discardTask m).moor m).launched = []
      ∧ ∀ p ∈ ((s.discardTask m).moor m).slots, p.task ≠ (s.moor m).task := by
  rw [State.discardTask_eq, State.failSlots_moor hm, State.moor_updMoor hm]
  refine ⟨rfl, rfl, fun p hp => ?_⟩
  simpa using (List.mem_filter.1 hp).2

theorem tasksAreDiscarded : Spec.TasksAreDiscarded := by
  refine ⟨cycleLimitFaults, fun s m d hs hm hst hd => ?_⟩
  have hexec : exec (.taskDiscard m) s = .next (s.discardTask m) := by
    refine (if_pos hm).trans ?_
    rw [Mooring.discardsNow, hst]
    exact congrArg Host.Outcome.next (if_pos (decide_eq_true hd))
  obtain ⟨h1, h2, h3⟩ := State.discardTask_moor (s := s) hm
  refine ⟨_, hexec, h1, h2, h3, fun l hl hb hin => ?_⟩
  have hc : l.core ∈ s.discardCores m := by
    refine List.mem_filter.2 ⟨hin, ?_⟩
    rw [List.any_eq_true.2 ⟨l, hl, by simp [Launched.used, hb]⟩, Bool.true_or]
  obtain ⟨hstop, hacc⟩ := State.stopCores_stopped hs.cores hc
  have hsh := s.sheds_discardTask m
  rw [State.core_of_cores hsh.cores]
  exact ⟨hstop.run, hstop.queue, hstop.q0, fun a ha he => hacc a (hsh.accesses a ha _ _ he) he⟩

/-- Settles O44: a task's end is its replies, a fault that begins its discard, or the discard itself. -/
theorem tasksEnd : Obligations.TasksEnd := ⟨tasksComplete, tasksAreDiscarded⟩

end Sys2Proof.Machine
end

section
/-! SUPPORT. What the nodes of a command stream do (R294 to R297): O45, its common part and the nodes without cores. -/

namespace Sys2Proof.Machine
open Config Sys2Proof.Spec

/-! ### A mooring's reads -/

/-- Two updates of a mooring are one. -/
theorem State.updMoor_updMoor {m : Nat} (hm : m < nMoorings) (s : State) (f g : Mooring → Mooring) :
    (s.updMoor m f).updMoor m g = s.updMoor m fun k => g (f k) := by
  show State.setMoor _ m (g ((s.updMoor m f).moor m)) = _
  rw [State.moor_updMoor hm]
  simp only [State.updMoor, State.setMoor, Vector.setIfInBounds_setIfInBounds]

theorem State.moorPa_congr {s t : State} {m : Nat} (h : (t.moor m).pins = (s.moor m).pins) (va : Nat) : t.moorPa m va = s.moorPa m va := by
  unfold State.moorPa
  rw [h]

theorem State.moorRead_congr {s t : State} {m : Nat} (h : (t.moor m).pins = (s.moor m).pins) (hm : t.mem = s.mem) :
    ∀ fuel va n : Nat, t.moorRead m va fuel n = s.moorRead m va fuel n
  | 0, _, _ => rfl
  | fuel + 1, va, n => by
    have hb : ∀ pa k, t.bytes pa k = s.bytes pa k := fun pa k => by rw [State.bytes, hm, State.bytes]
    simp only [State.moorRead, State.moorPa_congr h, State.moorRead_congr h hm fuel, hb]

/-- A mooring's bytes are read through its pinned mappings. -/
theorem State.moorBytes_congr {s t : State} {m : Nat} (h : (t.moor m).pins = (s.moor m).pins) (hm : t.mem = s.mem) (va n : Nat) :
    t.moorBytes m va n = s.moorBytes m va n := State.moorRead_congr h hm _ _ _

theorem State.lensPa_congr {s t : State} {m : Nat} (h : (t.moor m).pins = (s.moor m).pins) (hl : (t.moor m).lens = (s.moor m).lens) (i : Nat) :
    t.lensPa m i = s.lensPa m i := by
  unfold State.lensPa
  dsimp only
  rw [hl, State.moorPa_congr h]

/-! ### Numbers in a record -/

theorem leNat_append : ∀ l r : List Byte, leNat (l ++ r) = leNat l + 256 ^ l.length * leNat r
  | [], r => by simp [leNat]
  | b :: l, r => by
    rw [List.cons_append, leNat, leNat, leNat_append l r, List.length_cons, Nat.pow_succ']
    ring

/-- A field of a record's number is the number of its bytes. -/
theorem bytesOf_leNat (l : List Byte) (lo n : Nat) : bytesOf (leNat l) lo n = leNat ((l.drop lo).take n) := by
  have hdrop : leNat l / 256 ^ lo = leNat (l.drop lo) := by
    have h := leNat_append (l.take lo) (l.drop lo)
    rw [List.take_append_drop, List.length_take] at h
    rw [h]
    rcases Nat.le_total lo l.length with hlo | hlo
    · have hlt := leNat_lt (l.take lo)
      rw [List.length_take, Nat.min_eq_left hlo] at hlt
      rw [Nat.min_eq_left hlo, Nat.add_mul_div_left _ _ (Nat.pow_pos (by decide)), Nat.div_eq_of_lt hlt, Nat.zero_add]
    · have hlt := leNat_lt l
      rw [List.take_of_length_le hlo, List.drop_of_length_le hlo]
      simp only [leNat, Nat.mul_zero, Nat.add_zero]
      exact Nat.div_eq_of_lt (Nat.lt_of_lt_of_le hlt (Nat.pow_le_pow_right (by decide) hlo))
  have htake : ∀ r : List Byte, leNat r % 256 ^ n = leNat (r.take n) := by
    intro r
    have h := leNat_append (r.take n) (r.drop n)
    rw [List.take_append_drop, List.length_take] at h
    rw [h]
    rcases Nat.le_total n r.length with hn | hn
    · have hlt := leNat_lt (r.take n)
      rw [List.length_take, Nat.min_eq_left hn] at hlt
      rw [Nat.min_eq_left hn, Nat.add_mul_mod_self_left, Nat.mod_eq_of_lt hlt]
    · have hlt := leNat_lt r
      rw [List.take_of_length_le hn, List.drop_of_length_le hn]
      simp only [leNat, Nat.mul_zero, Nat.add_zero]
      exact Nat.mod_eq_of_lt (Nat.lt_of_lt_of_le hlt (Nat.pow_le_pow_right (by decide) hn))
  have hpow : ∀ k, 2 ^ (8 * k) = 256 ^ k := fun k => by rw [Nat.pow_mul]
  unfold bytesOf bits
  rw [hpow, hpow, hdrop, htake]

/-! ### The stream goes on, or faults -/

/-- The mooring's node counter goes up as a node executes. -/
def State.ran (s : State) (m : Nat) : State := s.updMoor m fun k => { k with nodesRun := k.nodesRun + 1 }

/-- What a change of a mooring's state that leaves its clock, memory, entries and cores is. -/
theorem State.nodeRun_eq {s : State} {m n : Nat} (h : AtNode s m n) (f : Nat → Nat → State → State) : s.nodeRun f = .next (f m n (s.ran m)) := by
  obtain ⟨-, -, hev, hnode, ⟨hst, hend⟩, hw⟩ := h
  unfold State.nodeRun
  rw [hev]
  have hgo : (s.moor m).nodesGo s.now = true := by
    unfold Mooring.nodesGo
    rw [hend, hst]
    rfl
  dsimp only
  rw [hgo, hw, hnode]
  rfl

theorem State.ran_moor {m : Nat} (hm : m < nMoorings) (s : State) : (s.ran m).moor m = { s.moor m with nodesRun := (s.moor m).nodesRun + 1 } :=
  State.moor_updMoor hm _ _

/-- The stream goes on to a record that its DELAY puts off. -/
theorem State.nodeSeek_eq {t : State} {m n : Nat} {r : List Byte} (hm : m < nMoorings) (hr : nodeBytes t m n = some r) (hd : nodeDelay r ≠ 0) :
    t.nodeSeek m n = t.updMoor m fun k => { k with node := n, nodeAt := t.now + nodeDelay r } := by
  have hrec : ∀ u : State, u.mem = t.mem → (u.moor m).pins = (t.moor m).pins → (u.moor m).stream = (t.moor m).stream → (u.moor m).node = n →
      u.nodeRec m = some (leNat r) := fun u hmem hp hs hn => by
    unfold State.nodeRec
    rw [hs, hn, State.moorBytes_congr hp hmem]
    exact congrArg (Option.map leNat) hr
  have hb : bytesOf (leNat r) 8 8 = nodeDelay r := bytesOf_leNat _ _ _
  unfold State.nodeSeek
  dsimp only
  rw [hrec (t.updMoor m fun k => { k with node := n }) rfl (t.moor_updMoor_keeps Mooring.pins m m _ (by intros; rfl))
    (t.moor_updMoor_keeps Mooring.stream m m _ (by intros; rfl)) (by rw [State.moor_updMoor hm])]
  dsimp only
  rw [hb, if_neg (by omega), State.updMoor_updMoor hm]

/-- A record of the stream is read through the pinned mappings. -/
theorem nodeBytes_congr {s t : State} {m : Nat} (h : (t.moor m).pins = (s.moor m).pins) (hs : (t.moor m).stream = (s.moor m).stream)
    (hm : t.mem = s.mem) (n : Nat) : nodeBytes t m n = nodeBytes s m n := by
  unfold nodeBytes
  rw [hs, State.moorBytes_congr h hm]

/-- A task whose node may execute, with the clock and the records of a state. -/
structure State.AtNodeOf (s t : State) (m : Nat) : Prop where
  now : t.now = s.now
  mem : t.mem = s.mem
  pins : (t.moor m).pins = (s.moor m).pins
  stream : (t.moor m).stream = (s.moor m).stream
  runs : (t.moor m).st = .running ∧ (t.moor m).atEnd = false
  waits : (t.moor m).waiting = none

theorem State.atNodeOf_ran {s : State} {m n : Nat} (h : AtNode s m n) : s.AtNodeOf (s.ran m) m := by
  refine ⟨rfl, rfl, ?_, ?_, ?_, ?_⟩
  all_goals rw [State.ran_moor h.mooring]
  · exact h.runs
  · exact h.waits

/-- From a state in which the task's node executes, the stream goes on to another record. -/
theorem State.AtNodeOf.seeks {s t : State} {m n : Nat} {r : List Byte} (h : s.AtNodeOf t m) (hm : m < nMoorings) (hr : nodeBytes s m n = some r)
    (hd : nodeDelay r ≠ 0) : SeeksNode s (t.nodeSeek m n) m n r ∧ t.nodeSeek m n = t.updMoor m fun k => { k with node := n, nodeAt := s.now + nodeDelay r } := by
  have he : t.nodeSeek m n = t.updMoor m fun k => { k with node := n, nodeAt := s.now + nodeDelay r } := by
    rw [State.nodeSeek_eq hm ((nodeBytes_congr h.pins h.stream h.mem n).trans hr) hd, h.now]
  refine ⟨?_, he⟩
  rw [he]
  constructor
  all_goals rw [State.moor_updMoor hm]
  · exact h.runs
  · exact h.waits

/-- The fields of a fault record that name the task, the core and the information (R336). -/
theorem faultPayload_fields (task core cause : Nat) (parked : Bool) (xinfo xpc engst : Word) (ccnt : Nat) :
    let p := faultPayload task core cause parked xinfo xpc engst ccnt
    leNat (p.take 8) = task % 2 ^ 64 ∧ leNat ((p.drop 8).take 2) = core % 2 ^ 16 ∧ leNat ((p.drop 16).take 8) = xinfo.toNat := by
  intro p
  have hp : p = natBytes 8 task ++ (natBytes 2 core ++ ([BitVec.ofNat 8 cause, if parked then 1 else 0] ++ (natBytes 4 0 ++
      (natBytes 8 xinfo.toNat ++ (natBytes 8 xpc.toNat ++ natBytes 8 engst.toNat ++ natBytes 8 ccnt ++ natBytes 16 0))))) := by
    simp only [p, faultPayload, List.append_assoc]
  have h16 : p.drop 16 = natBytes 8 xinfo.toNat ++ (natBytes 8 xpc.toNat ++ natBytes 8 engst.toNat ++ natBytes 8 ccnt ++ natBytes 16 0) := by
    rw [hp, show 16 = 8 + (2 + (2 + 4)) from rfl, ← List.drop_drop, drop_natBytes_append, ← List.drop_drop, drop_natBytes_append, ← List.drop_drop]
    exact drop_natBytes_append 4 0 _
  refine ⟨?_, ?_, ?_⟩
  · rw [hp, take_natBytes_append, leNat_natBytes]
    rfl
  · rw [hp, drop_natBytes_append, take_natBytes_append, leNat_natBytes]
    rfl
  · rw [h16, take_natBytes_append, leNat_natBytes]
    exact Nat.mod_eq_of_lt xinfo.isLt

/-- A node fault ends the task, with a record that names the node and the reason (R297, R448). -/
theorem State.nodeFaults {s t : State} {m n reason : Nat} (hm : m < nMoorings) (hn : t.now = s.now) (hmem : t.mem = s.mem) (hc : t.compl = s.compl)
    (htask : (t.moor m).task = (s.moor m).task) (hst : (t.moor m).st = .running) (hr : reason < 256) : NodeFaults s (t.nodeFault m n reason) m n reason := by
  obtain ⟨h1, h2⟩ := State.moorFault_st hm (BitVec.ofNat 64 (0x12 + reason * 2 ^ 8 + n % 2 ^ 24 * 2 ^ 40)) hst
  refine ⟨hn ▸ h1, fun he => ?_, h2.mem.trans hmem⟩
  have hcompl : (t.nodeFault m n reason).compl =
      [⟨0x82, m, 0, faultPayload (s.moor m).task 0xFFFF 0x20 false (BitVec.ofNat 64 (0x12 + reason * 2 ^ 8 + n % 2 ^ 24 * 2 ^ 40)) 0 0 (t.now % 2 ^ 64)⟩] := by
    unfold State.nodeFault State.moorFault State.taskFault
    rw [if_neg (by rw [hst]; exact nofun), State.beginDiscard_compl]
    unfold State.faultRecord
    rw [if_pos (by rw [hc, he]; decide), htask]
    dsimp only
    rw [hc, he]
    rfl
  obtain ⟨hp1, hp2, hp3⟩ := faultPayload_fields (s.moor m).task 0xFFFF 0x20 false (BitVec.ofNat 64 (0x12 + reason * 2 ^ 8 + n % 2 ^ 24 * 2 ^ 40)) 0 0
    (t.now % 2 ^ 64)
  refine ⟨_, hcompl, hp1, hp2, hp3.trans ?_⟩
  rw [BitVec.toNat_ofNat, Nat.mod_eq_of_lt]
  have := Nat.mod_lt n (show 0 < 2 ^ 24 by decide)
  omega

/-- The same for a node that executes. -/
theorem State.nodeFaults_ran {s : State} {m n reason : Nat} (h : AtNode s m n) (hr : reason < 256) :
    NodeFaults s ((s.ran m).nodeFault m n reason) m n reason :=
  State.nodeFaults h.mooring rfl rfl rfl (by rw [State.ran_moor h.mooring]) (by rw [State.ran_moor h.mooring]; exact h.runs.1) hr

end Sys2Proof.Machine
end

section
/-! SUPPORT. The nodes that wait, jump, step, checkpoint and end, and a node pre-emption (R55, R295, R302, R304, R334): O45. -/

namespace Sys2Proof.Machine
open Config Sys2Proof.Spec

/-! ### `WAITN` -/

/-- From a state that waits at a node, the stream goes on; only its mooring changes. -/
theorem State.seeksNode_of_waiting {s : State} {m n : Nat} {r : List Byte} (hm : m < nMoorings)
    (hst : (s.moor m).st = .running ∧ (s.moor m).atEnd = false) (hr : nodeBytes s m n = some r) (hd : nodeDelay r ≠ 0) :
    ∃ f, (s.updMoor m fun k => { k with waiting := none }).nodeSeek m n = s.updMoor m f
      ∧ SeeksNode s ((s.updMoor m fun k => { k with waiting := none }).nodeSeek m n) m n r := by
  have h : s.AtNodeOf (s.updMoor m fun k => { k with waiting := none }) m := by
    refine ⟨rfl, rfl, s.moor_updMoor_keeps Mooring.pins m m _ (by intros; rfl), s.moor_updMoor_keeps Mooring.stream m m _ (by intros; rfl), ?_, ?_⟩
    · rw [State.moor_updMoor hm]
      exact hst
    · rw [State.moor_updMoor hm]
  obtain ⟨h1, h2⟩ := h.seeks hm hr hd
  exact ⟨_, h2.trans (State.updMoor_updMoor hm _ _ _), h1⟩

theorem State.coresDone_of {s : State} {m : Nat} (hl : ∀ l ∈ (s.moor m).launched, l.begun = true ∧ (s.core l.core).prim.run ≠ .running)
    (hc : ∀ c ∈ s.cmds, c.mooring = some m → c.q = .primary → c.ended = true) : s.coresDone m = true := by
  unfold State.coresDone
  rw [Bool.and_eq_true, List.all_eq_true, List.all_eq_true]
  refine ⟨fun l hin => ?_, fun c hin => ?_⟩
  · rw [Bool.not_eq_true', State.coreRuns, List.any_eq_false]
    intro x hx
    obtain ⟨hb, hr⟩ := hl x hx
    by_cases he : x.core = l.core
    · simp [hb, he ▸ hr]
    · simp [he]
  · by_cases hm : c.mooring = some m
    · cases hq : c.q with
      | primary => simp [hc c hin hm hq]
      | secondary => simp
    · simp [hm]

theorem State.coresDone_of_running {s : State} {m : Nat} {l : Launched} (hl : l ∈ (s.moor m).launched) (hb : l.begun = true)
    (hr : (s.core l.core).prim.run = .running) : s.coresDone m = false := by
  have hruns : s.coreRuns m l.core = true := List.any_eq_true.2 ⟨l, hl, by simp [hb, hr]⟩
  unfold State.coresDone
  rw [Bool.and_eq_false_iff]
  exact .inl (List.all_eq_false.2 ⟨l, hl, by simp [hruns]⟩)

theorem genReached_iff {a g : Nat} (hg : g < 2 ^ 32) : genReached a g = true ↔ (a + 2 ^ 32 - g) % 2 ^ 32 < 2 ^ 31 := by
  unfold genReached
  rw [Nat.mod_eq_of_lt hg, decide_eq_true_eq]

def Mooring.withWaiting (o : Option WaitNode) (k : Mooring) : Mooring := { k with waiting := o }

/-- The stream waits at its node; whether the wait is met is the matter of an event of its own. -/
def State.waitsAt (s : State) (m : Nat) (w : WaitNode) : State :=
  { (s.ran m).updMoor m (Mooring.withWaiting (some w)) with agenda := s.agenda ++ [plainEv (.waitnRelease m)] }

theorem State.waitsAt_moor {m : Nat} (hm : m < nMoorings) (s : State) (w : WaitNode) :
    (s.waitsAt m w).moor m = Mooring.withWaiting (some w) { s.moor m with nodesRun := (s.moor m).nodesRun + 1 } := by
  rw [← State.ran_moor hm]
  exact State.moor_updMoor hm (s.ran m) _

theorem waitNodes : Spec.WaitNodes := by
  refine ⟨fun s m n delay gaddr limit gen mode h hg => ?_, fun s m n w r hm hn hst hend hw hr hd h0 h1 => ?_,
    fun s m n w hm hn hst hend hw hlim => ?_⟩
  · have hpa : ¬(mode = 1 ∧ ((s.ran m).moorPa m gaddr.toNat).isNone = true) := by
      rintro ⟨h1, h2⟩
      rw [State.moorPa_congr (State.atNodeOf_ran h).pins] at h2
      have h3 := hg h1
      rw [Option.isNone_iff_eq_none.1 h2] at h3
      cases h3
    have hexec : exec (.waitn delay mode gen gaddr limit) s = .next (s.waitsAt m ⟨mode.toNat, gaddr.toNat, gen, s.now + limit.toNat⟩) := by
      show execWaitn delay mode gen gaddr limit s = _
      unfold execWaitn
      rw [State.nodeRun_eq h]
      exact congrArg Host.Outcome.next (if_neg hpa)
    have hk := State.waitsAt_moor h.mooring s ⟨mode.toNat, gaddr.toNat, gen, s.now + limit.toNat⟩
    exact ⟨_, hexec, rfl, (congrArg Mooring.node hk).trans h.node, congrArg Mooring.waiting hk, rfl⟩
  · have hmet : s.waitMet m w = true := by
      unfold State.waitMet
      by_cases hmode : w.mode = 0
      · rw [if_pos hmode]
        exact State.coresDone_of (h0 hmode).1 (h0 hmode).2
      · obtain ⟨pa, hpa, hgen⟩ := h1 hmode
        rw [if_neg hmode, hpa]
        exact (genReached_iff w.gen.isLt).2 hgen
    have hgo : (s.moor m).nodesGo s.now = true := by
      unfold Mooring.nodesGo
      rw [hend, hst]
      rfl
    have hexec : exec (.waitnRelease m) s = .next ((s.updMoor m fun k => { k with waiting := none }).nodeSeek m (n + 1)) := by
      refine (if_pos hm).trans ?_
      rw [hw]
      dsimp only
      rw [hgo, hmet, hn]
      rfl
    obtain ⟨f, he, hseek⟩ := State.seeksNode_of_waiting hm ⟨hst, hend⟩ hr hd
    refine ⟨_, hexec, hseek, ?_, ?_⟩ <;> rw [he] <;> rfl
  · have hexec : s.waitMet m w = false → exec (.waitnLimit m) s = .next (s.nodeFault m n (if w.mode = 0 then 4 else 1)) := fun hmet => by
      refine (if_pos hm).trans ?_
      rw [hw]
      dsimp only
      rw [show (s.moor m).nodesGo s.now = true by unfold Mooring.nodesGo; rw [hend, hst]; rfl, hmet, decide_eq_true hlim, hn]
      rfl
    constructor
    · rintro hmode ⟨l, hl, hb, hr⟩
      refine ⟨_, (hexec ?_).trans (by rw [if_pos hmode]), State.nodeFaults hm rfl rfl rfl rfl hst (by decide)⟩
      unfold State.waitMet
      rw [if_pos hmode, State.coresDone_of_running hl hb hr]
    · intro hmode hgen
      have hne : w.mode ≠ 0 := by omega
      refine ⟨_, (hexec ?_).trans (by rw [if_neg hne]), State.nodeFaults hm rfl rfl rfl rfl hst (by decide)⟩
      unfold State.waitMet
      rw [if_neg hne]
      cases hpa : s.moorPa m w.gaddr with
      | none => rfl
      | some pa =>
        refine Bool.eq_false_iff.2 fun h => ?_
        have := (genReached_iff w.gen.isLt).1 h
        have := hgen pa hpa
        omega

/-! ### `CHKPTN` and `STEPN` (R302, R304) -/

theorem State.hbmPa_congr {s t : State} {m : Nat} (h : (t.moor m).pins = (s.moor m).pins) (va : Nat) : t.hbmPa m va = s.hbmPa m va := by
  unfold State.hbmPa
  rw [State.moorPa_congr h]

theorem State.pieces_congr {s t : State} {m : Nat} (h : (t.moor m).pins = (s.moor m).pins) (va n : Nat) : t.pieces m va n = s.pieces m va n := by
  unfold State.pieces
  simp only [State.hbmPa_congr h]

/-- The fields of a record with one range. -/
theorem chkOf_one (rs : Vector (BitVec 96) 3) (dest : BitVec 64) :
    chkOf 1 rs dest = ⟨1, [(rs[0].toNat % 2 ^ 64, rs[0].toNat / 2 ^ 64)], rs[1] == 0 && rs[2] == 0, dest.toNat⟩ := by
  have hl : rs.toList = [rs[0], rs[1], rs[2]] := by
    refine List.ext_getElem (by simp) fun i h1 h2 => ?_
    simp only [List.length_cons, List.length_nil] at h2
    interval_cases i <;> simp
  unfold chkOf
  rw [hl]
  simp [BitVec.toNat_ushiftRight, Nat.shiftRight_eq_div_pow]

/-- A range that a checkpoint may take. -/
theorem chkOk_one {va k dest : Nat} (hva : va % 0x200000 = 0) (hk : 0 < k) (hd : dest % 0x200000 = 0)
    (hout : dest + 0x200000 * (k + 1) ≤ va ∨ va + 0x200000 * k ≤ dest) : (ChkB.mk 1 [(va, k)] true dest).ok = true := by
  simp only [ChkB.ok, ChkB.pages, pageSize, hva, hd, List.foldl_cons, List.foldl_nil, List.all_cons, List.all_nil, Nat.zero_add, Bool.and_eq_true,
    decide_eq_true_eq, Bool.or_eq_true, beq_self_eq_true, Bool.and_true, true_and]
  exact ⟨⟨Nat.le_refl 1, by decide⟩, hk, hout.imp_right decide_eq_true⟩

def Mooring.withDrain (f : Mooring → Drain) (k : Mooring) : Mooring := { k with drain := some (f k) }

/-- The drain of a checkpoint of n pages that begins with the frame after cycle c. -/
def drainOf (ps ds : List Nat) (h n c : Nat) (k : Mooring) : Drain := ⟨ps, h, ds, k.gstep.toNat % 2 ^ 24, n, c / 10368 + 1, 0⟩

theorem checkpointNode {s : State} {m n : Nat} {delay dest : BitVec 64} {rs : Vector (BitVec 96) 3} {r : List Byte} (h : AtNode s m n)
    (hr : nodeBytes s m (n + 1) = some r) (hd : nodeDelay r ≠ 0) (ps ds : List Nat) (q : Nat) (hdr : (s.moor m).drain = none) (h1 : rs[1] = 0)
    (h2 : rs[2] = 0) (hva : rs[0].toNat % 2 ^ 64 % 0x200000 = 0) (hk : 0 < rs[0].toNat / 2 ^ 64) (hdest : dest.toNat % 0x200000 = 0)
    (hout : dest.toNat + 0x200000 * (rs[0].toNat / 2 ^ 64 + 1) ≤ rs[0].toNat % 2 ^ 64 ∨ rs[0].toNat % 2 ^ 64 + 0x200000 * (rs[0].toNat / 2 ^ 64) ≤ dest.toNat)
    (hps : s.pieces m (rs[0].toNat % 2 ^ 64) (rs[0].toNat / 2 ^ 64) = some ps) (hq : s.hbmPa m dest.toNat = some q)
    (hds : s.pieces m (dest.toNat + 0x200000) (rs[0].toNat / 2 ^ 64) = some ds) :
    ∃ t, exec (.chkptn delay 1 rs dest) s = .next t ∧ SeeksNode s t m (n + 1) r ∧ t.mem = s.mem
      ∧ (t.moor m).drain = some (drainOf ps ds q (rs[0].toNat / 2 ^ 64) s.now (s.moor m)) := by
  have hat := State.atNodeOf_ran h
  have hran := State.ran_moor h.mooring s
  have hchk : chkOf 1 rs dest = ⟨1, [(rs[0].toNat % 2 ^ 64, rs[0].toNat / 2 ^ 64)], true, dest.toNat⟩ := by
    rw [chkOf_one, h1, h2]
    rfl
  have hfreeze : (s.ran m).freeze m (chkOf 1 rs dest) =
      .ok ((s.ran m).updMoor m (Mooring.withDrain (drainOf ps ds q (rs[0].toNat / 2 ^ 64) s.now))) := by
    unfold State.freeze
    rw [hran, if_neg (by simp [hdr]), hchk, chkOk_one hva hk hdest hout]
    have hp : pageSize = 0x200000 := rfl
    have hsum : (ChkB.mk 1 [(rs[0].toNat % 2 ^ 64, rs[0].toNat / 2 ^ 64)] true dest.toNat).pages = rs[0].toNat / 2 ^ 64 := Nat.zero_add _
    rw [Bool.not_true, if_neg Bool.false_ne_true, hsum, hp, State.hbmPa_congr hat.pins, State.pieces_congr hat.pins, hq, hds]
    simp only [List.map_cons, List.map_nil, State.pieces_congr hat.pins, hps]
    simp only [List.any_cons, List.any_nil, Option.isNone_some, Bool.or_false, Bool.false_eq_true, if_false, List.filterMap_cons, List.filterMap_nil, id,
      List.flatten_cons, List.flatten_nil, List.append_nil]
    rfl
  have hat2 : s.AtNodeOf ((s.ran m).updMoor m (Mooring.withDrain (drainOf ps ds q (rs[0].toNat / 2 ^ 64) s.now))) m := by
    refine ⟨rfl, rfl, ?_, ?_, ?_, ?_⟩
    all_goals rw [State.moor_updMoor h.mooring]
    · exact hat.pins
    · exact hat.stream
    · exact hat.runs
    · exact hat.waits
  obtain ⟨hs, he⟩ := hat2.seeks h.mooring hr hd
  refine ⟨_, ?_, hs, by rw [he]; rfl, ?_⟩
  · show execChkptn delay 1 rs dest s = _
    unfold execChkptn
    rw [State.nodeRun_eq h, hfreeze]
  · rw [he, State.moor_updMoor h.mooring, State.moor_updMoor h.mooring, hran]
    rfl

theorem stepNodes {s : State} {m n : Nat} {delay : BitVec 64} {inc : BitVec 8} {r : List Byte} (h : AtNode s m n)
    (hr : nodeBytes s m (n + 1) = some r) (hd : nodeDelay r ≠ 0) (hs : (s.moor m).stepns = []) (ha : ∀ x ∈ (s.moor m).regions, x.active = false) :
    ∃ t u, exec (.stepn delay inc) s = .next t ∧ SeeksNode s t m (n + 1) r ∧ t.mem = s.mem ∧ (t.moor m).gstep = (s.moor m).gstep
      ∧ (t.moor m).stepns = [(n, inc.toNat)]
      ∧ exec (.stepn delay inc) { t with ev := .stepEnd m n } = .next u ∧ (u.moor m).stepns = [] ∧ u.mem = s.mem
      ∧ (u.moor m).gstep.toNat = ((s.moor m).gstep.toNat + inc.toNat) % 2 ^ 24 := by
  have hat := State.atNodeOf_ran h
  have hran := State.ran_moor h.mooring s
  have hat2 : s.AtNodeOf ((s.ran m).updMoor m fun k => { k with stepns := k.stepns ++ [(n, inc.toNat)] }) m := by
    refine ⟨rfl, rfl, ?_, ?_, ?_, ?_⟩
    all_goals rw [State.moor_updMoor h.mooring]
    · exact hat.pins
    · exact hat.stream
    · exact hat.runs
    · exact hat.waits
  obtain ⟨hseek, he⟩ := hat2.seeks h.mooring hr hd
  have hexec : exec (.stepn delay inc) s = .next (((s.ran m).updMoor m fun k => { k with stepns := k.stepns ++ [(n, inc.toNat)] }).nodeSeek m (n + 1)) := by
    have hev := h.ev
    show execStepn delay inc s = _
    unfold execStepn
    rw [hev]
    exact State.nodeRun_eq h _
  generalize ht : ((s.ran m).updMoor m fun k => { k with stepns := k.stepns ++ [(n, inc.toNat)] }).nodeSeek m (n + 1) = t at hexec hseek he
  have hk : t.moor m = { s.moor m with
      nodesRun := (s.moor m).nodesRun + 1, stepns := [(n, inc.toNat)], node := n + 1, nodeAt := s.now + nodeDelay r } := by
    rw [he, State.moor_updMoor h.mooring, State.moor_updMoor h.mooring, hran]
    simp only [hs, List.nil_append]
  have hmem : t.mem = s.mem := by
    rw [he]
    rfl
  -- The event at the end of the cycle takes the increment from the list, and no active region bars it.
  have hadv : ∀ u : State, (u.moor m).gstep = (s.moor m).gstep → (u.moor m).regions = (s.moor m).regions →
      u.advanced m inc.toNat = some (((s.moor m).gstep.toNat + inc.toNat) % 2 ^ 24) := fun u hg hreg => by
    unfold State.advanced
    dsimp only
    rw [hg, hreg, if_neg]
    rw [Bool.not_eq_true, List.any_eq_false]
    intro x hx
    simp [ha x hx]
  have hstep : exec (.stepn delay inc) { t with ev := .stepEnd m n } =
      .next ((({ t with ev := .stepEnd m n } : State).updMoor m fun k => { k with stepns := k.stepns.drop 1 }).setGstep m
        (((s.moor m).gstep.toNat + inc.toNat) % 2 ^ 24)) := by
    have hm : ({ t with ev := .stepEnd m n } : State).moor m = t.moor m := rfl
    show Host.Outcome.next (State.stepNode _ m n inc.toNat) = _
    unfold State.stepNode
    dsimp only
    rw [hadv _ (by rw [State.moor_updMoor h.mooring, hm, hk]) (by rw [State.moor_updMoor h.mooring, hm, hk])]
  refine ⟨t, _, hexec, hseek, hmem, by rw [hk], by rw [hk], hstep, ?_, hmem, ?_⟩
  · rw [State.setGstep, State.moor_updMoor h.mooring, State.moor_updMoor h.mooring]
    show (t.moor m).stepns.drop 1 = []
    rw [hk]
    rfl
  · rw [State.setGstep, State.moor_updMoor h.mooring]
    show (BitVec.ofNat 64 _).toNat = _
    rw [BitVec.toNat_ofNat]
    have := Nat.mod_lt ((s.moor m).gstep.toNat + inc.toNat) (show 0 < 2 ^ 24 by decide)
    omega

theorem checkpointAndStepNodes : Spec.CheckpointAndStepNodes := by
  intro s m n delay dest inc rs r h hr hd
  refine ⟨fun hdr => ⟨_, ?_, State.nodeFaults_ran h (reason := 7) (by decide)⟩,
    fun ps ds q hdr h1 h2 => checkpointNode h hr hd ps ds q hdr h1 h2, stepNodes h hr hd⟩
  have hfreeze : (s.ran m).freeze m (chkOf 1 rs dest) = .error 7 := by
    unfold State.freeze
    rw [State.ran_moor h.mooring]
    exact if_pos hdr
  show execChkptn delay 1 rs dest s = _
  unfold execChkptn
  rw [State.nodeRun_eq h, hfreeze]

/-! ### `GOTO` and `END` (R295, R334) -/

/-- The count of a `GOTO` at node n is v. -/
def Mooring.withGoto (n v : Nat) (k : Mooring) : Mooring := { k with gotos := sset 0 k.gotos n v }

/-- A `GOTO` with a count notes it, and the stream goes on to one of its two records. -/
theorem State.gotoSeeks {s : State} {m n v x : Nat} {r : List Byte} (h : AtNode s m n) (hg : Tidy 0 (s.moor m).gotos) (hr : nodeBytes s m x = some r)
    (hd : nodeDelay r ≠ 0) :
    let t := ((s.ran m).updMoor m (Mooring.withGoto n v)).nodeSeek m x
    SeeksNode s t m x r ∧ t.mem = s.mem ∧ sget 0 (t.moor m).gotos n = v := by
  have hat := State.atNodeOf_ran h
  have hat2 : s.AtNodeOf ((s.ran m).updMoor m (Mooring.withGoto n v)) m := by
    refine ⟨rfl, rfl, ?_, ?_, ?_, ?_⟩
    all_goals rw [State.moor_updMoor h.mooring]
    · exact hat.pins
    · exact hat.stream
    · exact hat.runs
    · exact hat.waits
  obtain ⟨hs, he⟩ := hat2.seeks h.mooring hr hd
  refine ⟨hs, by rw [he]; rfl, ?_⟩
  rw [he, State.moor_updMoor h.mooring, State.moor_updMoor h.mooring, State.ran_moor h.mooring]
  exact sget_sset_self hg _

theorem State.servePreempt_mem (s : State) (m : Nat) : (s.servePreempt m).mem = s.mem := by
  unfold State.servePreempt
  exact foldl_keeps State.mem (by intros; rfl) _ _

theorem gotoAndEndNodes : Spec.GotoAndEndNodes := by
  intro s m n delay target count r q h hg hr hd hq hdq c
  have hgran : (s.ran m).moor m = { s.moor m with nodesRun := (s.moor m).nodesRun + 1 } := State.ran_moor h.mooring s
  have hcount : ∀ {k : Nat}, k < count.toNat → count ≠ 0 := fun hk h0 => by
    rw [h0] at hk
    cases hk
  -- A count other than 0 is noted at the node, and the comparison with it decides.
  have hexec : count ≠ 0 → exec (.goto delay target count) s = .next (((s.ran m).updMoor m
      (Mooring.withGoto n (if decide (c < count.toNat) then c + 1 else 0))).nodeSeek m (if decide (c < count.toNat) = true then target.toNat else n + 1)) := by
    intro h0
    show execGoto delay target count s = _
    unfold execGoto
    rw [State.nodeRun_eq h]
    dsimp only
    rw [if_neg h0, hgran]
    simp only [h0, false_or]
    rfl
  refine ⟨fun h0 => ?_, fun hlt => ?_, fun h0 hle => ?_, ?_⟩
  · obtain ⟨hs, he⟩ := (State.atNodeOf_ran h).seeks h.mooring hq hdq
    refine ⟨_, ?_, hs, by rw [he]; rfl⟩
    show execGoto delay target count s = _
    unfold execGoto
    rw [State.nodeRun_eq h]
    dsimp only
    rw [if_pos h0, if_pos (.inl h0)]
  · have he := hexec (hcount hlt)
    rw [decide_eq_true hlt, if_pos rfl, if_pos rfl] at he
    exact ⟨_, he, State.gotoSeeks h hg hq hdq⟩
  · have he := hexec h0
    rw [decide_eq_false (Nat.not_lt.2 hle), if_neg Bool.false_ne_true, if_neg Bool.false_ne_true] at he
    exact ⟨_, he, State.gotoSeeks h hg hr hd⟩
  · generalize hu : (s.ran m).updMoor m (fun k => { k with atEnd := true }) = u
    have hexec : exec (.nodeEnd delay) s = .next (u.servePreempt m) := by
      show execNodeEnd delay s = _
      unfold execNodeEnd
      rw [State.nodeRun_eq h, hu]
    have hk : u.moor m = { s.moor m with nodesRun := (s.moor m).nodesRun + 1, atEnd := true } := by
      rw [← hu, State.moor_updMoor h.mooring, hgran]
    obtain ⟨hcompl, hmoor, -, -⟩ := State.servePreempt_fields h.mooring u
    have hum : u.mem = s.mem := by rw [← hu]; rfl
    have huc : u.compl = s.compl := by rw [← hu]; rfl
    refine ⟨_, hexec, ?_, ?_, ?_, (u.servePreempt_mem m).trans hum, ?_⟩
    · rw [hmoor, hk]
    · rw [hmoor, hk]
      exact h.runs.1
    · rw [hmoor]
    · rw [hcompl, hk, huc]
      rfl

/-! ### Node pre-emption (R55, R334) -/

/-- Timelines that are held leave memory, and of their mooring everything but the rows that it is to open again. -/
theorem State.holdTls_keeps {γ : Type} {m : Nat} (hm : m < nMoorings) (π : Mooring → γ) (hπ : ∀ k rows, π { k with heldRows := rows } = π k) (s : State) :
    (s.holdTls m).mem = s.mem ∧ π ((s.holdTls m).moor m) = π (s.moor m) := by
  unfold State.holdTls
  refine List.foldlRecOn (motive := fun t : State => t.mem = s.mem ∧ π (t.moor m) = π (s.moor m)) _ _ ⟨rfl, rfl⟩ fun t ⟨h1, h2⟩ e _ => ?_
  have step : ∀ (rows : Mooring → List (Nat × Nat × Bank)) (u : State), (t.updMoor m fun k => { k with heldRows := rows k }).SameTasks u →
      u.mem = s.mem ∧ π (u.moor m) = π (s.moor m) := fun rows u hu => ⟨hu.mem.trans h1, by rw [hu.moor, State.moor_updMoor hm, hπ, h2]⟩
  simp only
  split
  · exact step _ _ ⟨⟨rfl, rfl, rfl, rfl⟩, rfl⟩
  · exact step _ _ ((State.sameTasks_updChan _ _ _).trans (State.sameTasks_cleanNow _ _))

/-- The state in which a task that stops between two nodes holds its timelines, where it is timed. -/
def State.heldTls (s : State) (m : Nat) : State := if (s.moor m).loose then s else s.holdTls m

theorem State.heldTls_fields {m : Nat} (hm : m < nMoorings) (s : State) : (s.heldTls m).now = s.now ∧ (s.heldTls m).mem = s.mem
    ∧ (s.heldTls m).compl = s.compl ∧ (s.heldTls m).cores = s.cores ∧ ((s.heldTls m).moor m).preempt = (s.moor m).preempt
    ∧ ((s.heldTls m).moor m).node = (s.moor m).node := by
  unfold State.heldTls
  split
  · exact ⟨rfl, rfl, rfl, rfl, rfl, rfl⟩
  · obtain ⟨h1, h2, h3, h4⟩ := s.holdTls_fields hm
    obtain ⟨h5, h6⟩ := s.holdTls_keeps hm Mooring.node fun _ _ => rfl
    exact ⟨h1, h5, h2, h3, h4, h6⟩

/-- A mooring whose task stops between two nodes (R55). -/
def Mooring.nodeStops (now : Nat) (hs : List (Nat × List Reg)) (k : Mooring) : Mooring :=
  { k with st := .nodeStopped, frozen := some now, savedH := hs, vwrite := none, forced := false }

def Core.frozenAt (n : Nat) (k : Core) : Core := { k with prim := { k.prim with frozen := some n } }

theorem nodePreemptions : Spec.NodePreemptions := by
  intro s m hs hm hst hp hn hat hw hend
  obtain ⟨hnow, hmem, hcompl, hcores, hpre, hnode⟩ := s.heldTls_fields hm
  let saved := ((s.moor m).launched.filter (·.begun)).map fun l => (l.core, ((s.core l.core).h.toList).take 4)
  let stopped := (s.begunCores m).foldl (fun t c => t.updSeq c .primary fun x => { x with frozen := some s.now }) ((s.heldTls m).unhold (s.begunCores m))
  have hexec : exec (.nodePreemption m) s = .next ((stopped.updMoor m (Mooring.nodeStops s.now saved)).servePreempt m) := by
    refine (if_pos hm).trans (if_pos ⟨?_, hst, hn, hat, hw, hend⟩)
    rw [List.isEmpty_eq_false_iff]
    exact hp
  have hsteps : StepsCores s.now id (fun _ => Core.frozenAt s.now) fun t c => t.updSeq c .primary fun x => { x with frozen := some s.now } :=
    stepsCores_updCore s.now id fun _ => Core.frozenAt s.now
  have hkm : stopped.moorings = (s.heldTls m).moorings := foldl_keeps State.moorings (by intros; rfl) _ _
  have hmoor : (stopped.updMoor m (Mooring.nodeStops s.now saved)).moor m = Mooring.nodeStops s.now saved ((s.heldTls m).moor m) := by
    rw [State.moor_updMoor hm, State.moor_of_moorings hkm]
  obtain ⟨hc, hk, -, hco⟩ := State.servePreempt_fields hm (stopped.updMoor m (Mooring.nodeStops s.now saved))
  have hsc : stopped.compl = s.compl := (foldl_keeps State.compl (by intros; rfl) _ _).trans hcompl
  have hsm : stopped.mem = s.mem := (foldl_keeps State.mem (by intros; rfl) _ _).trans hmem
  refine ⟨_, hexec, ?_, ?_, ?_, ?_, ?_, (State.servePreempt_mem _ m).trans hsm, fun l hl hb => ?_, fun l hl hb hr => ?_⟩
  · rw [hk, hmoor]
    rfl
  · rw [hk, hmoor]
    rfl
  · rw [hk, hmoor]
    exact hnode
  · rw [hk]
  · rw [hc, hmoor]
    show stopped.compl ++ ((s.heldTls m).moor m).preempt.map _ = _
    rw [hsc, hpre]
    rfl
  · rw [hk, hmoor]
    exact List.mem_map_of_mem (List.mem_filter.2 ⟨hl, hb⟩)
  · have hin : l.core ∈ s.begunCores m :=
      List.mem_filter.2 ⟨State.mem_coreIds_of_running hr, List.any_eq_true.2 ⟨l, hl, by simp [Launched.used, hb]⟩⟩
    have hcore := hsteps.core_self_id (s := (s.heldTls m).unhold (s.begunCores m)) hnow (show Tidy Core.init (s.heldTls m).cores from hcores ▸ hs.cores)
      ((keys_of_swf hs.cores).2.filter _) hin
    have hsame : ((s.heldTls m).unhold (s.begunCores m)).core l.core = s.core l.core := State.core_of_cores hcores _
    have ht : ((stopped.updMoor m (Mooring.nodeStops s.now saved)).servePreempt m).core l.core = Core.frozenAt s.now (s.core l.core) := by
      rw [State.core_of_cores hco]
      exact hcore.trans (by rw [hsame])
    rw [ht]
    exact ⟨rfl, rfl⟩

end Sys2Proof.Machine
end

section
/-! SUPPORT. The nodes that start timelines and publish (R219, R234, R261, R400): O45. -/

namespace Sys2Proof.Machine
open Config Sys2Proof.Spec

/-! ### Timelines begin (R219) -/

theorem State.chan_setChan {s : State} (h : Tidy Channel.init s.channels) (c d : Nat) (k : Channel) :
    (s.setChan c k).chan d = if d = c then k else s.chan d := by
  split
  · subst d; exact sget_sset_self h _
  · exact sget_sset_other h _ ‹_›

theorem State.tidy_setChan {s : State} (h : Tidy Channel.init s.channels) (c : Nat) (k : Channel) : Tidy Channel.init (s.setChan c k).channels :=
  tidy_sset h c _

/-- A timeline of mooring m begins at a word in cycle n, from a cycle on. -/
def Channel.begun (k : Channel) (m word n from_ : Nat) : Channel :=
  { k with tls := k.tls ++ [⟨m, word, n, windowFrom from_, k.delayAt m word, k.ownerClock m (windowFrom from_) (k.delayAt m word), [], 0, false⟩] }

/-- The first window that begins at or after a cycle (R214). -/
theorem windowFrom_spec (t : Nat) : t ≤ cyc (windowFrom t * windowClocks) ∧ ∀ w < windowFrom t, cyc (w * windowClocks) < t := by
  have hw : windowClocks = 128 := rfl
  unfold windowFrom cyc clockOf
  rw [hw]
  split
  · rename_i h
    obtain ⟨h1, h2⟩ := h
    refine ⟨by omega, fun w hlt => by omega⟩
  · rename_i h
    refine ⟨by omega, fun w hlt => ?_⟩
    by_cases h2 : 16 * t / 27 % 128 = 0
    · have h1 : (27 * (16 * t / 27) + 15) / 16 ≠ t := fun e => h ⟨e, h2⟩
      omega
    · omega

/-- A channel on which a timeline of mooring m may begin in window w. -/
structure Channel.Begins (k : Channel) (m w : Nat) : Prop where
  free : k.tl m = none
  back : k.backlog = false ∨ w < k.backlogFrom

theorem State.tlBegin_eq {u : State} {ch m : Nat} (h : (u.chan ch).Begins m (clockOf u.now / windowClocks)) (word from_ : Nat) :
    u.tlBegin ch m word from_ = u.setChan ch ((u.chan ch).begun m word u.now from_) := by
  have hb : ((u.chan ch).backlog && decide ((u.chan ch).backlogFrom ≤ clockOf u.now / windowClocks)) = false := by
    rcases h.back with hb | hb
    · rw [hb, Bool.false_and]
    · rw [decide_eq_false (Nat.not_le.2 hb), Bool.and_false]
  unfold State.tlBegin
  dsimp only
  rw [h.free, hb]
  rfl

/-- The timelines of a node begin, each on its channel; everything else stays. -/
theorem State.foldl_tlBegin {m word from_ : Nat} : ∀ {cs : List Nat} {u : State}, Tidy Channel.init u.channels → cs.Nodup →
    (∀ c ∈ cs, (u.chan c).Begins m (clockOf u.now / windowClocks)) →
    let v := cs.foldl (fun u c => u.tlBegin c m word from_) u
    v.now = u.now ∧ v.mem = u.mem ∧ v.moorings = u.moorings ∧ (∀ c ∈ cs, v.chan c = (u.chan c).begun m word u.now from_)
      ∧ ∀ c ∉ cs, v.chan c = u.chan c
  | [], _, _, _, _ => ⟨rfl, rfl, rfl, nofun, fun _ _ => rfl⟩
  | c :: cs, u, ht, hnd, hb => by
    obtain ⟨hc, hnd⟩ := List.nodup_cons.1 hnd
    have he := State.tlBegin_eq (hb c (List.mem_cons_self ..)) word from_
    have hch := State.chan_setChan ht c (k := (u.chan c).begun m word u.now from_)
    have hne : ∀ {d}, d ∈ cs → d ≠ c := fun hd e => hc (e ▸ hd)
    rw [List.foldl_cons, he]
    obtain ⟨h1, h2, h3, h4, h5⟩ := State.foldl_tlBegin (m := m) (word := word) (from_ := from_) (cs := cs)
      (State.tidy_setChan ht c ((u.chan c).begun m word u.now from_)) hnd fun d hd => by
        rw [hch, if_neg (hne hd)]
        exact hb d (List.mem_cons_of_mem _ hd)
    refine ⟨h1, h2, h3, fun d hd => ?_, fun d hd => ?_⟩
    · rcases List.mem_cons.1 hd with rfl | hd
      · rw [h5 d hc, hch, if_pos rfl]
      · rw [h4 d hd, hch, if_neg (hne hd)]
        rfl
    · obtain ⟨hd1, hd2⟩ := not_or.1 (mt List.mem_cons.2 hd)
      rw [h5 d hd2, hch, if_neg hd1]

/-! ### A backlog faults the timeline (R234) -/

/-- The task of a mooring stands or has been faulted in this cycle, with the records of a state. -/
structure State.StandsAt (s u : State) (m : Nat) : Prop where
  tidy : Tidy Channel.init u.channels
  now : u.now = s.now
  mem : u.mem = s.mem
  pins : (u.moor m).pins = (s.moor m).pins
  stream : (u.moor m).stream = (s.moor m).stream
  st : (u.moor m).st = .running ∨ (u.moor m).st = .ending (s.now + 8)

/-- A fault of a task that stands leaves what its mooring maps and where its stream lies. -/
theorem State.standsAt_moorFault {s u : State} {m : Nat} (hm : m < nMoorings) (h : s.StandsAt u m) (x : Word) :
    s.StandsAt (u.moorFault m x) m ∧ ((u.moorFault m x).moor m).st = .ending (s.now + 8) ∧ (u.moorFault m x).channels = u.channels := by
  have hf := u.faultRecord_fields m (u.moor m).task 0xFFFF 0x20 false x 0 0
  have hw := u.sameWork_faultRecord m (u.moor m).task 0xFFFF 0x20 false x 0 0
  generalize hv : u.faultRecord m (u.moor m).task 0xFFFF 0x20 false x 0 0 = v at hf hw
  have hvm : v.moor m = u.moor m := State.moor_of_moorings hf.2.2 m
  have he : u.moorFault m x = v.beginDiscard m 0 := by
    unfold State.moorFault State.taskFault
    rw [hv, if_neg]
    rcases h.st with h | h <;> rw [h] <;> exact nofun
  have hst : ((v.beginDiscard m 0).moor m).st = .ending (s.now + 8) := by
    rcases h.st with hr | hr
    · rw [State.beginDiscard_st hm 0 (by rw [hvm, hr]; exact List.mem_cons_self ..), hw.now, h.now]
    · rw [State.beginDiscard_of_ending 0 (hvm ▸ hr), hvm, hr]
  have hk : ∀ {γ : Type} (π : Mooring → γ), (∀ k st c, π { k with st := st, faultCode := c } = π k) → π ((v.beginDiscard m 0).moor m) = π (u.moor m) := by
    intro γ π hπ
    rcases v.beginDiscard_cases m 0 with hb | hb <;> rw [hb]
    · rw [hvm]
    · rw [State.moor_updMoor hm, hπ, hvm]
  have hwork := hw.trans (v.sameWork_beginDiscard m 0)
  rw [he]
  exact ⟨⟨hwork.channels ▸ h.tidy, hwork.now.trans h.now, hwork.mem.trans h.mem, (hk Mooring.pins fun _ _ _ => rfl).trans h.pins,
    (hk Mooring.stream fun _ _ _ => rfl).trans h.stream, .inr hst⟩, hst, hwork.channels⟩

theorem State.stopTl_fields {u : State} (ht : Tidy Channel.init u.channels) (ch m : Nat) : Tidy Channel.init (u.stopTl ch m).channels
    ∧ (u.stopTl ch m).now = u.now ∧ (u.stopTl ch m).mem = u.mem ∧ (u.stopTl ch m).moorings = u.moorings ∧ ∀ d, d ≠ ch → (u.stopTl ch m).chan d = u.chan d := by
  have key : ∀ f : Channel → Channel, Tidy Channel.init ((u.updChan ch f).cleanNow ch).channels ∧ ((u.updChan ch f).cleanNow ch).now = u.now
      ∧ ((u.updChan ch f).cleanNow ch).mem = u.mem ∧ ((u.updChan ch f).cleanNow ch).moorings = u.moorings
      ∧ ∀ d, d ≠ ch → ((u.updChan ch f).cleanNow ch).chan d = u.chan d := by
    intro f
    have hc : ((u.updChan ch f).cleanNow ch).channels = (u.updChan ch f).channels := by
      unfold State.cleanNow
      dsimp only
      split <;> rfl
    have hs := (u.sameTasks_updChan ch f).trans (State.sameTasks_cleanNow (u.updChan ch f) ch)
    refine ⟨hc ▸ State.tidy_setChan ht ch _, hs.now, hs.mem, hs.moorings, fun d hd => ?_⟩
    rw [State.chan, hc]
    exact (State.chan_setChan ht ch d _).trans (if_neg hd)
  exact key _

/-- A timeline that may not begin faults its task. -/
theorem State.standsAt_tlFault {s u : State} {m : Nat} (hm : m < nMoorings) (h : s.StandsAt u m) (ch word rule : Nat) :
    s.StandsAt (u.tlFault ch m word rule) m ∧ ((u.tlFault ch m word rule).moor m).st = .ending (s.now + 8)
      ∧ ∀ d, d ≠ ch → (u.tlFault ch m word rule).chan d = u.chan d := by
  obtain ⟨h1, h2, h3, h4, h5⟩ := State.stopTl_fields h.tidy ch m
  have hmo := State.moor_of_moorings h4 m
  obtain ⟨g1, g2, g3⟩ := State.standsAt_moorFault (u := u.stopTl ch m) hm
    ⟨h1, h2.trans h.now, h3.trans h.mem, (congrArg Mooring.pins hmo).trans h.pins, (congrArg Mooring.stream hmo).trans h.stream,
      by rw [hmo]; exact h.st⟩ (chanInfo 0x10 ch word rule)
  refine ⟨g1, g2, fun d hd => ?_⟩
  rw [State.tlFault, State.chan, g3]
  exact h5 d hd

/-- A channel whose map has not returned from a disturb backlog in window w. -/
def Channel.taken (k : Channel) (w : Nat) : Prop := k.backlog = true ∧ k.backlogFrom ≤ w

/-- A timeline begins, or faults its task; on a channel with a backlog it faults. -/
theorem State.standsAt_tlBegin {s u : State} {m : Nat} (hm : m < nMoorings) (h : s.StandsAt u m) (ch word from_ : Nat) :
    s.StandsAt (u.tlBegin ch m word from_) m
      ∧ ((u.chan ch).taken (clockOf s.now / windowClocks) ∨ (u.moor m).st = .ending (s.now + 8) → ((u.tlBegin ch m word from_).moor m).st = .ending (s.now + 8))
      ∧ ∀ d, d ≠ ch → (u.tlBegin ch m word from_).chan d = u.chan d := by
  obtain ⟨v, he⟩ : ∃ v, u.tlBegin ch m word from_ = v := ⟨_, rfl⟩
  rw [he]
  unfold State.tlBegin at he
  dsimp only at he
  split at he
  · obtain ⟨h1, h2, h3⟩ := State.standsAt_tlFault hm h ch noWord ruleBusy
    exact he ▸ ⟨h1, fun _ => h2, h3⟩
  · split at he
    · obtain ⟨h1, h2, h3⟩ := State.standsAt_tlFault hm h ch noWord ruleTaken
      exact he ▸ ⟨h1, fun _ => h2, h3⟩
    · rename_i hb
      subst he
      refine ⟨⟨State.tidy_setChan h.tidy ch _, h.now, h.mem, h.pins, h.stream, h.st⟩, fun hor => hor.resolve_left fun ht => hb ?_,
        fun d hd => (State.chan_setChan h.tidy ch d _).trans (if_neg hd)⟩
      rw [ht.1, h.now, decide_eq_true ht.2]
      rfl

theorem State.standsAt_foldl {s : State} {m word from_ : Nat} (hm : m < nMoorings) : ∀ {cs : List Nat} {u : State}, s.StandsAt u m → cs.Nodup →
    let v := cs.foldl (fun u c => u.tlBegin c m word from_) u
    s.StandsAt v m ∧ ((∃ c ∈ cs, (u.chan c).taken (clockOf s.now / windowClocks)) ∨ (u.moor m).st = .ending (s.now + 8) → (v.moor m).st = .ending (s.now + 8))
  | [], _, h, _ => ⟨h, fun hor => hor.resolve_left fun ⟨_, hc, _⟩ => nomatch hc⟩
  | c :: cs, u, h, hnd => by
    obtain ⟨hc, hnd⟩ := List.nodup_cons.1 hnd
    obtain ⟨h1, h2, h3⟩ := State.standsAt_tlBegin hm h c word from_
    obtain ⟨g1, g2⟩ := State.standsAt_foldl (word := word) (from_ := from_) hm h1 hnd
    refine ⟨g1, fun hor => g2 ?_⟩
    rcases hor with ⟨d, hd, ht⟩ | hst
    · rcases List.mem_cons.1 hd with rfl | hd
      · exact .inr (h2 (.inl ht))
      · refine .inl ⟨d, hd, ?_⟩
        rw [h3 d fun e => hc (e ▸ hd)]
        exact ht
    · exact .inr (h2 (.inr hst))

/-! ### The `TIMELINE` node -/

/-- The channels that a node names. -/
def chansOf (chs : BitVec 256) : List Nat := (List.range nChannels).filter fun c => chs.getLsbD c

theorem mem_chansOf {chs : BitVec 256} {c : Nat} : c ∈ chansOf chs ↔ c < nChannels ∧ chs.getLsbD c = true := by
  unfold chansOf
  rw [List.mem_filter, List.mem_range]

theorem nodup_chansOf (chs : BitVec 256) : (chansOf chs).Nodup := List.nodup_range.filter _

/-- A channel that a task may not start its timeline on. -/
def State.foreign (s : State) (m c : Nat) : Bool := !(s.moor m).chans.contains c || (ownedIn (s.chan c).map m).isEmpty

theorem State.foreign_iff {s : State} {m c : Nat} : s.foreign m c = false ↔ c ∈ (s.moor m).chans ∧ ∃ w < nWindows, mapCode (s.chan c).map w = m := by
  have hown : (ownedIn (s.chan c).map m).isEmpty = false ↔ ∃ w < nWindows, mapCode (s.chan c).map w = m := by
    rw [List.isEmpty_eq_false_iff_exists_mem]
    simp only [ownedIn, List.mem_filter, List.mem_range, beq_iff_eq]
  unfold State.foreign
  rw [Bool.or_eq_false_iff, hown, Bool.not_eq_false', List.contains_iff_mem]

theorem exec_timeline {s : State} {m n : Nat} (h : AtNode s m n) (delay soff : BitVec 64) (chs : BitVec 256) (word : BitVec 16) :
    exec (.timeline delay chs word soff) s = .next (if (chansOf chs).any (s.foreign m) then (s.ran m).nodeFault m n 3
      else ((chansOf chs).foldl (fun u c => u.tlBegin c m word.toNat (u.now + soff.toNat)) (s.ran m)).nodeSeek m (n + 1)) := by
  have hf : (s.ran m).foreign m = s.foreign m := by
    funext c
    unfold State.foreign
    rw [State.ran_moor h.mooring]
    rfl
  show execTimeline delay chs word soff s = _
  unfold execTimeline
  rw [State.nodeRun_eq h, ← hf]
  rfl

/-- The cycle from which the timelines of a node count is that of the node. -/
theorem State.foldl_tlBegin_now {m word k : Nat} : ∀ (cs : List Nat) (u : State), (∀ t ch, (State.tlBegin t ch m word (t.now + k)).now = t.now) →
    cs.foldl (fun u c => u.tlBegin c m word (u.now + k)) u = cs.foldl (fun t c => t.tlBegin c m word (u.now + k)) u
  | [], _, _ => rfl
  | c :: cs, u, h => by
    rw [List.foldl_cons, List.foldl_cons, State.foldl_tlBegin_now cs _ h, h]

theorem State.tlBegin_now (u : State) (ch m word from_ : Nat) : (u.tlBegin ch m word from_).now = u.now := by
  have hfault : ∀ w r, (u.tlFault ch m w r).now = u.now := fun w r => by
    have h1 : (u.stopTl ch m).now = u.now := ((u.sameTasks_updChan ch _).trans (State.sameTasks_cleanNow _ ch)).now
    unfold State.tlFault State.moorFault State.taskFault
    split
    · exact h1
    · rw [(State.sameWork_beginDiscard _ _ _).now, (State.sameWork_faultRecord _ _ _ _ _ _ _ _ _).now, h1]
  unfold State.tlBegin
  dsimp only
  split
  · exact hfault _ _
  · split
    · exact hfault _ _
    · rfl

theorem timelineNodes : Spec.TimelineNodes := by
  intro s m n delay soff chs word r h hr hd
  have hat := State.atNodeOf_ran h
  have hexec := exec_timeline h delay soff chs word
  rw [State.foldl_tlBegin_now _ _ fun t ch => State.tlBegin_now t ch m _ _, show (s.ran m).now = s.now from rfl] at hexec
  have hgo : (∀ c < nChannels, chs.getLsbD c = true → c ∈ (s.moor m).chans ∧ ∃ w < nWindows, mapCode (s.chan c).map w = m) →
      (chansOf chs).any (s.foreign m) = false := fun hall => by
    rw [List.any_eq_false]
    intro c hc
    obtain ⟨h1, h2⟩ := mem_chansOf.1 hc
    rw [State.foreign_iff.2 (hall c h1 h2)]
    exact Bool.false_ne_true
  refine ⟨fun c hc hbit hnot => ⟨_, hexec.trans ?_, State.nodeFaults_ran h (reason := 3) (by decide)⟩, fun hall => ?_, fun ⟨c, hc, hbit, htaken⟩ hall => ?_⟩
  · rw [if_pos]
    refine List.any_eq_true.2 ⟨c, mem_chansOf.2 ⟨hc, hbit⟩, ?_⟩
    rw [← Bool.not_eq_false, State.foreign_iff]
    exact fun hin => hnot hin.1
  · obtain ⟨h1, h2, h3, h4, h5⟩ := State.foldl_tlBegin (m := m) (word := word.toNat) (from_ := s.now + soff.toNat) (u := s.ran m) h.canon.channels
      (nodup_chansOf chs) fun c hc => by
        obtain ⟨hc1, hc2⟩ := mem_chansOf.1 hc
        exact ⟨(hall c hc1 hc2).2.2.1, (hall c hc1 hc2).2.2.2⟩
    have hmo := State.moor_of_moorings h3 m
    generalize hv : (chansOf chs).foldl (fun t c => t.tlBegin c m word.toNat (s.now + soff.toNat)) (s.ran m) = v at *
    have hat2 : s.AtNodeOf v m :=
      ⟨h1, h2, (congrArg Mooring.pins hmo).trans hat.pins, (congrArg Mooring.stream hmo).trans hat.stream, by rw [hmo]; exact hat.runs,
        (congrArg Mooring.waiting hmo).trans hat.waits⟩
    obtain ⟨hs, he⟩ := hat2.seeks h.mooring hr hd
    have hchan : ∀ c, (v.nodeSeek m (n + 1)).chan c = v.chan c := fun c => by
      rw [he]
      rfl
    refine ⟨_, hexec.trans (by rw [hgo fun c hc hb => ⟨(hall c hc hb).1, (hall c hc hb).2.1⟩, if_neg Bool.false_ne_true]), hs, ?_, fun c hc hb => ?_,
      fun c hc hb => ?_⟩
    · rw [he]
      exact h2
    · obtain ⟨w1, w2⟩ := windowFrom_spec (s.now + soff.toNat)
      rw [hchan, h4 c (mem_chansOf.2 ⟨hc, hb⟩)]
      exact ⟨_, rfl, rfl, rfl, rfl, rfl, w1, w2, rfl, rfl⟩
    · rw [hchan, h5 c fun hin => ?_]
      · rfl
      · rw [(mem_chansOf.1 hin).2] at hb
        cases hb
  · have hstands : s.StandsAt (s.ran m) m := ⟨h.canon.channels, rfl, rfl, hat.pins, hat.stream, .inl hat.runs.1⟩
    obtain ⟨h1, h2⟩ := State.standsAt_foldl (word := word.toNat) (from_ := s.now + soff.toNat) h.mooring hstands (nodup_chansOf chs)
    have he := State.nodeSeek_eq h.mooring ((nodeBytes_congr h1.pins h1.stream h1.mem (n + 1)).trans hr) hd
    refine ⟨_, hexec.trans (by rw [hgo hall, if_neg Bool.false_ne_true]), ?_, ?_⟩
    · rw [he, State.moor_updMoor h.mooring]
      exact h2 (.inl ⟨c, mem_chansOf.2 ⟨hc, hbit⟩, htaken⟩)
    · rw [he]
      exact h1.mem

end Sys2Proof.Machine
end

section
/-! SUPPORT. The node that publishes (R261, R400): O45. What translation reads of a state, and a record that a write leaves alone. -/

namespace Sys2Proof.Machine
open Config Sys2Proof.Spec

/-! ### What translation reads -/

/-- Two states that translate alike: memory, the roots of the page tables, and what each mooring maps. -/
structure State.SameMap (s t : State) : Prop where
  mem : t.mem = s.mem
  ptroots : t.ptroots = s.ptroots
  pins : ∀ m, (t.moor m).pins = (s.moor m).pins
  lens : ∀ m, (t.moor m).lens = (s.moor m).lens
  loaded : ∀ m, (t.moor m).loaded = (s.moor m).loaded
  cmask : ∀ m, (t.moor m).cmask = (s.moor m).cmask

namespace State.SameMap
variable {s t : State}

theorem num (h : s.SameMap t) (a n : Nat) : t.num a n = s.num a n := by rw [State.num, State.bytes, h.mem, State.num, State.bytes]

theorem lensOf (h : s.SameMap t) (m i : Nat) : t.lens m i = s.lens m i := by
  simp only [State.lens, State.lensPa_congr (h.pins m) (h.lens m), h.num]

theorem lenses (h : s.SameMap t) (m : Nat) : t.lenses m = s.lenses m := by
  have hl : t.lens m = s.lens m := funext (h.lensOf m)
  simp only [State.lenses, h.lens, hl]

theorem plainTr (h : s.SameMap t) (via : Via) (core va : Nat) (p : Perm) : t.plainTr via core va p = s.plainTr via core va p := by
  cases via <;> simp only [State.plainTr, State.pageTr, State.walkTr, h.pins, h.ptroots, h.mem]

theorem resolve (h : s.SameMap t) (via : Via) (m : Option Nat) (core va n : Nat) (p : Perm) (dark : Bool) :
    t.resolve via m core va n p dark = s.resolve via m core va n p dark := by
  cases m <;> simp only [State.resolve, h.plainTr, h.lenses]

theorem placeAt (h : s.SameMap t) (via : Via) (core va : Nat) (p : Perm) : t.placeAt via core va p = s.placeAt via core va p := by
  simp only [State.placeAt, State.moorOf_congr fun d => ⟨h.loaded d, h.cmask d⟩, h.resolve]

theorem placePa (h : s.SameMap t) (p : Place) (n : Nat) (dark : Bool) : t.placePa p n dark = s.placePa p n dark := by
  cases p with
  | phys pa => rfl
  | virt va m pa => cases m <;> simp only [State.placePa, h.lenses]

theorem gaugePlace (h : s.SameMap t) (c : Cmd) (ga : Nat) (p : Perm) : t.gaugePlace c ga p = s.gaugePlace c ga p := by
  simp only [State.gaugePlace, State.engPlace, h.placeAt]

theorem headCode (h : s.SameMap t) (c : Cmd) : t.headCode c = s.headCode c := by
  simp only [State.headCode, h.gaugePlace, h.placePa, h.num]

end State.SameMap

/-- An update of a mooring that keeps what it maps. -/
theorem State.sameMap_updMoor (s : State) (m : Nat) (f : Mooring → Mooring) (hp : ∀ k, (f k).pins = k.pins) (hl : ∀ k, (f k).lens = k.lens)
    (ho : ∀ k, (f k).loaded = k.loaded) (hc : ∀ k, (f k).cmask = k.cmask) : s.SameMap (s.updMoor m f) :=
  ⟨rfl, rfl, fun d => s.moor_updMoor_keeps Mooring.pins m d f hp, fun d => s.moor_updMoor_keeps Mooring.lens m d f hl,
    fun d => s.moor_updMoor_keeps Mooring.loaded m d f ho, fun d => s.moor_updMoor_keeps Mooring.cmask m d f hc⟩

theorem State.sameMap_ran (s : State) (m : Nat) : s.SameMap (s.ran m) :=
  s.sameMap_updMoor m _ (by intros; rfl) (by intros; rfl) (by intros; rfl) (by intros; rfl)

theorem State.sameMap_listNode (s : State) (m : Nat) (l : List Nat) : s.SameMap (s.listNode m l) := by
  unfold State.listNode
  exact s.sameMap_updMoor m _ (by intros; rfl) (by intros; rfl) (by intros; rfl) (by intros; rfl)

theorem State.pubMeets_congr {s t : State} (h : s.SameMap t) (hn : t.now = s.now) (hc : t.cmds = s.cmds) (m : Nat) (id : Option Nat) (l : List Nat) :
    t.pubMeets m id l = s.pubMeets m id l := by
  simp only [State.pubMeets, State.pubNow, hc, hn, h.headCode]

/-- Whether an address lies in a frozen range is read from the drains of the moorings. -/
theorem State.frozenAt_iff (s : State) (pa : Nat) : s.frozenAt pa = true ↔ ∃ m < nMoorings, ∃ d, (s.moor m).drain = some d ∧ d.pieces.contains (pa / pieceSize * pieceSize) = true := by
  have hget : ∀ m (hm : m < 12), s.moor m = s.moorings[m] := fun m hm => by simp [State.moor, Vector.getD, Array.getD, hm]
  unfold State.frozenAt
  rw [List.any_eq_true]
  constructor
  · rintro ⟨k, hk, hp⟩
    obtain ⟨m, hm, rfl⟩ := List.getElem_of_mem hk
    have hm12 : m < 12 := by simpa using hm
    refine ⟨m, hm12, ?_⟩
    rw [hget m hm12]
    simp only [Vector.getElem_toList] at hp
    split at hp
    · rename_i d hd
      exact ⟨d, hd, hp⟩
    · cases hp
  · rintro ⟨m, hm, d, hd, hp⟩
    have hm12 : m < 12 := hm
    refine ⟨s.moorings[m], by simp, ?_⟩
    rw [← hget m hm12, hd]
    exact hp

theorem State.frozenAt_congr {s t : State} (h : ∀ m, (t.moor m).drain = (s.moor m).drain) (pa : Nat) : t.frozenAt pa = s.frozenAt pa := by
  rw [Bool.eq_iff_iff, State.frozenAt_iff, State.frozenAt_iff]
  simp only [h]

/-! ### A record that a write leaves alone -/

theorem Memory.read_congr {m n : Memory} : ∀ {k a : Nat}, (∀ x, a ≤ x → x < a + k → n.get x = m.get x) → n.read a k = m.read a k
  | 0, _, _ => rfl
  | k + 1, a, h => by
    rw [Memory.read, Memory.read, h a (Nat.le_refl a) (by omega), Memory.read_congr (k := k) (a := a + 1) fun x h1 h2 => h x (by omega) (by omega)]

/-- A record of a stream that begins at a multiple of its size lies in one page. -/
theorem nodeBytes_eq {s : State} {m n : Nat} (h : (s.moor m).stream % 64 = 0) :
    nodeBytes s m n = (s.moorPa m ((s.moor m).stream + 64 * n)).map fun pa => s.bytes pa 64 := by
  have hk : inPage ((s.moor m).stream + 64 * n) 64 = 64 := by
    unfold inPage
    exact Nat.min_eq_left (by omega)
  unfold nodeBytes State.moorBytes
  simp only [State.moorRead, hk, Nat.sub_self, if_true, show ¬((64 : Nat) = 0) by decide, if_false]
  cases s.moorPa m ((s.moor m).stream + 64 * n) with
  | none => rfl
  | some pa => exact congrArg some (List.append_nil _)

/-- A write of another place leaves a record as it was. -/
theorem nodeBytes_of_writes {s t : State} {m n a : Nat} {b : Byte} (hp : (t.moor m).pins = (s.moor m).pins) (hs : (t.moor m).stream = (s.moor m).stream)
    (h64 : (s.moor m).stream % 64 = 0) (hw : Writes s t a [b])
    (hout : ∀ q, s.moorPa m ((s.moor m).stream + 64 * n) = some q → ¬(q ≤ a ∧ a < q + 64)) : nodeBytes t m n = nodeBytes s m n := by
  rw [nodeBytes_eq h64, nodeBytes_eq (hs ▸ h64), hs, State.moorPa_congr hp]
  cases hq : s.moorPa m ((s.moor m).stream + 64 * n) with
  | none => rfl
  | some q =>
    refine congrArg some (Memory.read_congr fun x h1 h2 => ?_)
    have hx := hw x
    rw [overlay, if_neg] at hx
    · exact hx
    · rintro ⟨h3, h4⟩
      rw [List.length_singleton] at h4
      exact hout q hq ⟨by omega, by omega⟩

/-! ### The `PUBLISHN` node -/

theorem State.num_one (s : State) (a : Nat) : BitVec.ofNat 8 (s.num a 1) = s.byte a := by
  show BitVec.ofNat 8 ((s.byte a).toNat + 256 * 0) = _
  rw [Nat.mul_zero, Nat.add_zero, BitVec.ofNat_toNat, BitVec.setWidth_eq]

theorem State.flip_one {s : State} {m i pa : Nat} (h : s.lensPa m i = some pa) :
    s.flip m [i] = s.putBytes (pa + 13) [s.byte (pa + 13) ^^^ 1] (s.poisons (pa + 13) 1) := by
  unfold State.flip
  rw [List.foldl_cons, List.foldl_nil, h]
  dsimp only
  rw [State.num_one]

theorem publishNodes : Spec.PublishNodes := by
  intro s m n i pa delay list r b h hr hd hb hbi hi hpa hlens hsp hwin hsame hmeet hfro h64 hout
  have hat := State.atNodeOf_ran h
  have hmap := s.sameMap_ran m
  have hbefore : (s.ran m).before.moorBytes m list.toNat (2 * (1 : BitVec 16).toNat) = some b :=
    (State.moorBytes_congr (s := s.before) (t := (s.ran m).before) hat.pins rfl _ _).trans hb
  let t1 := (s.ran m).listNode m [i]
  have hmap1 : (s.ran m).SameMap t1 := (s.ran m).sameMap_listNode m [i]
  have hpa0 : (s.ran m).lensPa m i = some pa := (State.lensPa_congr (hmap.pins m) (hmap.lens m) i).trans hpa
  have hpa1 : t1.lensPa m i = some pa := (State.lensPa_congr (hmap1.pins m) (hmap1.lens m) i).trans hpa0
  have hok : (s.ran m).pubOk m [i] = true := by
    unfold State.pubOk
    simp [hi, hmap.lensOf, hlens]
  have hfrozen : (s.ran m).pubFrozen m [i] = false := by
    unfold State.pubFrozen
    simp only [List.any_cons, List.any_nil, Bool.or_false, hpa0]
    exact (State.frozenAt_congr (fun d => s.moor_updMoor_keeps Mooring.drain m d _ (by intros; rfl)) _).trans hfro
  have hexec : exec (.publishn delay 1 list) s = .next ((t1.flip m [i]).nodeSeek m (n + 1)) := by
    show execPublishn delay 1 list s = _
    unfold execPublishn
    rw [State.nodeRun_eq h]
    dsimp only
    rw [hbefore]
    dsimp only
    rw [hbi, if_neg, if_neg, if_neg]
    · rw [hfrozen]
      exact Bool.false_ne_true
    · rw [State.pubMeets_congr hmap rfl rfl, hmeet]
      exact Bool.false_ne_true
    · have hlen : sramWindow (list.toNat + 2 * (1 : BitVec 16).toNat - 1) = sramWindow (list.toNat + 1) := rfl
      rw [hok, hlen, hsame, ← Option.not_isSome, ← hsame, hwin, decide_eq_false (Nat.not_lt.2 hsp), bne_self_eq_false]
      exact Bool.false_ne_true
  generalize ht2 : t1.flip m [i] = t2 at hexec
  rw [State.flip_one hpa1] at ht2
  have hmoor : t2.moorings = t1.moorings := by rw [← ht2]; rfl
  have hm2 : t2.moor m = t1.moor m := State.moor_of_moorings hmoor m
  have hw : Writes s t2 (pa + 13) [s.byte (pa + 13) ^^^ 1] := writes_of_mem h.canon.mem (by rw [← ht2]; rfl)
  have hp2 : (t2.moor m).pins = (s.moor m).pins := by rw [hm2, hmap1.pins, hmap.pins]
  have hs2 : (t2.moor m).stream = (s.moor m).stream := by
    rw [hm2]
    exact (State.moor_updMoor_keeps Mooring.stream _ m m _ (by intros; rfl)).trans hat.stream
  have he := State.nodeSeek_eq h.mooring ((nodeBytes_of_writes hp2 hs2 h64 hw hout).trans hr) hd
  have hk : ∀ {γ : Type} (π : Mooring → γ), (∀ k a l, π { k with pubAt := a, pubn := l } = π k) → π (t2.moor m) = π ((s.ran m).moor m) := fun π hπ => by
    rw [hm2]
    exact State.moor_updMoor_keeps π _ m m _ fun k => hπ k _ _
  refine ⟨_, hexec, ⟨?_, ?_, ?_, ?_⟩, ?_⟩
  · rw [he, State.moor_updMoor h.mooring]
  · rw [he, State.moor_updMoor h.mooring]
    show t2.now + _ = _
    rw [← ht2]
    rfl
  · rw [he, State.moor_updMoor h.mooring]
    exact ⟨(hk Mooring.st fun _ _ _ => rfl).trans hat.runs.1, (hk Mooring.atEnd fun _ _ _ => rfl).trans hat.runs.2⟩
  · rw [he, State.moor_updMoor h.mooring]
    exact (hk Mooring.waiting fun _ _ _ => rfl).trans hat.waits
  · rw [he]
    exact hw

end Sys2Proof.Machine
end

section
/-! SUPPORT. The node that launches cores (R295, R296): O45. -/

namespace Sys2Proof.Machine
open Config Sys2Proof.Spec

/-! ### The entries of an LTAB -/

/-- The cores of a set of clusters, in the order of an LTAB. -/
def tableCores (cmask : BitVec 64) : List Nat := (clustersOf cmask).flatMap fun g => (List.range coresPerCluster).map fun i => coresPerCluster * g + i

theorem mem_tableCores {cmask : BitVec 64} {c : Nat} : c ∈ tableCores cmask ↔ c < nCores ∧ cmask.getLsbD (c / 16) = true := by
  have h16 : coresPerCluster = 16 := rfl
  have hn : nCores = 16 * nClusters := rfl
  unfold tableCores clustersOf
  simp only [List.mem_flatMap, List.mem_filter, List.mem_range, List.mem_map, h16, hn]
  constructor
  · rintro ⟨g, ⟨hg, hb⟩, i, hi, rfl⟩
    rw [show (16 * g + i) / 16 = g by omega]
    exact ⟨by omega, hb⟩
  · rintro ⟨hc, hb⟩
    exact ⟨c / 16, ⟨by omega, hb⟩, c % 16, by omega, by omega⟩

theorem nodup_tableCores (cmask : BitVec 64) : (tableCores cmask).Nodup := by
  have h16 : coresPerCluster = 16 := rfl
  unfold tableCores
  rw [List.nodup_flatMap]
  refine ⟨fun g _ => List.nodup_range.map fun a b h => Nat.add_left_cancel h, ?_⟩
  refine List.Pairwise.imp ?_ (List.nodup_range.filter (fun g => cmask.getLsbD g))
  intro g g' hne c h1 h2
  obtain ⟨i, hi, rfl⟩ := List.mem_map.1 h1
  obtain ⟨j, hj, he⟩ := List.mem_map.1 h2
  rw [List.mem_range, h16] at hi hj
  rw [h16] at he
  omega

/-- The entry of a core as its bytes give it. -/
def entryOf (core at_ : Nat) (b : List Byte) : LEnt :=
  ⟨core, leNat ((b.drop 0).take 8), leNat ((b.drop 8).take 4), leNat ((b.drop 12).take 20) == 0, at_ + 32⟩

theorem filterMap_id_of_all_some {α : Type} : ∀ {l : List (Option α)}, l.any (·.isNone) = false → l = (l.filterMap id).map some
  | [], _ => rfl
  | none :: _, h => by simp at h
  | some a :: l, h => by
    rw [List.any_cons, Bool.or_eq_false_iff] at h
    rw [List.filterMap_cons]
    exact congrArg (some a :: ·) (filterMap_id_of_all_some h.2)

/-- Entry i of an LTAB is that of the i-th core, and its bytes are mapped. -/
theorem State.ltab_spec {s : State} {m at_ : Nat} {cmask : BitVec 64} {es : List LEnt} (h : s.ltab m cmask at_ = some es) :
    es.map LEnt.core = tableCores cmask
      ∧ ∀ i e, es[i]? = some e → ∃ b, s.moorBytes m (at_ + 96 * i) 96 = some b ∧ e = entryOf ((tableCores cmask).getD i 0) (at_ + 96 * i) b := by
  have hl : (List.range (tableCores cmask).length).map (fun i => (s.moorBytes m (at_ + 96 * i) 96).map (entryOf ((tableCores cmask).getD i 0) (at_ + 96 * i)))
      = es.map some := by
    unfold State.ltab at h
    dsimp only at h
    split at h
    · cases h
    · rename_i hany
      have he := Option.some.inj h
      rw [← he]
      exact filterMap_id_of_all_some (Bool.eq_false_iff.2 hany)
  have hlen : es.length = (tableCores cmask).length := by
    have := congrArg List.length hl
    simpa using this.symm
  have hi : ∀ i e, es[i]? = some e → ∃ b, s.moorBytes m (at_ + 96 * i) 96 = some b ∧ e = entryOf ((tableCores cmask).getD i 0) (at_ + 96 * i) b := by
    intro i e he
    have hlt : i < (tableCores cmask).length := hlen ▸ (List.getElem?_eq_some_iff.1 he).1
    have hget := congrArg (·[i]?) hl
    simp only [List.getElem?_map, List.getElem?_range hlt, he, Option.map_some, Option.some.injEq] at hget
    obtain ⟨b, hb, hbe⟩ := Option.map_eq_some_iff.1 hget
    exact ⟨b, hb, hbe.symm⟩
  refine ⟨List.ext_getElem? fun i => ?_, hi⟩
  rw [List.getElem?_map]
  cases he : es[i]? with
  | none =>
    rw [List.getElem?_eq_none_iff, hlen] at he
    rw [List.getElem?_eq_none_iff.2 he]
    rfl
  | some e =>
    obtain ⟨b, -, rfl⟩ := hi i e he
    have hlt : i < (tableCores cmask).length := hlen ▸ (List.getElem?_eq_some_iff.1 he).1
    show some ((tableCores cmask).getD i 0) = _
    rw [List.getD_eq_getElem?_getD, List.getElem?_eq_getElem hlt]
    rfl

theorem State.ltab_congr {s t : State} {m : Nat} (hp : (t.moor m).pins = (s.moor m).pins) (hm : t.mem = s.mem) (cmask : BitVec 64) (at_ : Nat) :
    t.ltab m cmask at_ = s.ltab m cmask at_ := by
  unfold State.ltab
  simp only [State.moorBytes_congr hp hm]

theorem sameOffsets_iff {l : List LEnt} :
    sameOffsets l = true ↔ ∀ e ∈ l, ∀ f ∈ l, e.core / 16 = f.core / 16 → e.offset = f.offset := by
  have h16 : coresPerCluster = 16 := rfl
  unfold sameOffsets
  simp only [List.all_eq_true, Bool.or_eq_true, bne_iff_ne, beq_iff_eq, h16]
  exact ⟨fun h e he f hf hc => (h e he f hf).resolve_left fun hne => hne hc, fun h e he f hf => (Classical.em _).symm.imp_right (h e he f hf)⟩

/-! ### Cores start (R296) -/

/-- A core whose primary has started in a cycle, with the image and the arguments of a launch. -/
structure Core.Started (k : Core) (s : State) (m : Nat) (l : Launched) : Prop where
  run : k.prim.run = .running
  pc : k.prim.pc = l.image
  nextAt : k.prim.nextAt = s.now
  tbase : k.prim.tbase = (s.moor m).started
  q0 : k.q0 = []
  h : k.h = Vector.ofFn fun i => argReg (s.argsAt m l.argAt) i.val

/-- What the start of cores reads of a state: its clock, memory, and what the mooring maps. -/
structure State.StartsLike (s t : State) (m : Nat) : Prop where
  tidy : Tidy Core.init t.cores
  now : t.now = s.now
  mem : t.mem = s.mem
  was : t.memWas = s.memWas
  pins : (t.moor m).pins = (s.moor m).pins
  started : (t.moor m).started = (s.moor m).started

theorem State.argsAt_congr {s t : State} {m : Nat} (hp : (t.moor m).pins = (s.moor m).pins) (hw : t.memWas = s.memWas) (va : Nat) :
    t.argsAt m va = s.argsAt m va := by
  unfold State.argsAt
  rw [State.moorBytes_congr (s := s.before) (t := t.before) hp hw]

theorem State.startPrimary_core {s t : State} {m : Nat} (h : s.StartsLike t m) (l : Launched) :
    ((t.startPrimary m l).core l.core).Started s m l ∧ ∀ d, d ≠ l.core → (t.startPrimary m l).core d = t.core d := by
  constructor
  · unfold State.startPrimary
    rw [State.core_updCore h.tidy, if_pos rfl, h.now, h.started, State.argsAt_congr h.pins h.was]
    exact ⟨rfl, rfl, rfl, rfl, rfl, rfl⟩
  · intro d hd
    unfold State.startPrimary
    rw [State.core_updCore h.tidy, if_neg hd]

theorem State.tidy_startPrimary {t : State} (h : Tidy Core.init t.cores) (m : Nat) (l : Launched) : Tidy Core.init (t.startPrimary m l).cores := by
  unfold State.startPrimary
  exact State.tidy_updCore h _ _

/-- The entries of some cores are marked as begun. -/
def Launched.begin (cs : List Nat) (x : Launched) : Launched := if x.core ∈ cs then { x with begun := true } else x

def Mooring.begins (cs : List Nat) (k : Mooring) : Mooring := { k with launched := k.launched.map (Launched.begin cs) }

theorem Mooring.begins_begins (c : Nat) (cs : List Nat) (k : Mooring) : (k.begins [c]).begins cs = k.begins (c :: cs) := by
  unfold Mooring.begins
  simp only [List.map_map]
  congr 1
  refine List.map_congr_left fun x _ => ?_
  by_cases h1 : x.core = c <;> by_cases h2 : x.core ∈ cs <;> simp [Launched.begin, h1, h2]

theorem Mooring.begins_nil (k : Mooring) : k.begins [] = k := by
  have : Launched.begin [] = id := funext fun x => if_neg (List.not_mem_nil)
  unfold Mooring.begins
  rw [this, List.map_id]

/-- One core of a launch starts. -/
def State.startOne (m : Nat) (t : State) (l : Launched) : State := (t.startPrimary m l).updMoor m (Mooring.begins [l.core])

theorem State.startCores_eq (s : State) (m : Nat) :
    s.startCores m = ((s.moor m).launched.filter fun l => !l.begun && decide (l.due ≤ s.now)).foldl (State.startOne m) s := by
  have hf : ∀ c : Nat, Launched.begin [c] = fun x : Launched => if x.core = c then { x with begun := true } else x := fun c => by
    funext x
    simp only [Launched.begin, List.mem_singleton]
  have hg : ∀ l : Launched, Mooring.begins [l.core] = fun k : Mooring => { k with
      launched := k.launched.map fun x => if x.core = l.core then { x with begun := true } else x } := fun l => by
    funext k
    unfold Mooring.begins
    rw [hf]
  unfold State.startCores State.startOne
  simp only [hg]

theorem State.startOne_like {s t : State} {m : Nat} (hm : m < nMoorings) (h : s.StartsLike t m) (l : Launched) :
    s.StartsLike (State.startOne m t l) m ∧ (State.startOne m t l).moor m = (t.moor m).begins [l.core] := by
  have hk : (State.startOne m t l).moor m = (t.moor m).begins [l.core] := State.moor_updMoor hm _ _
  exact ⟨⟨State.tidy_startPrimary h.tidy m l, h.now, h.mem, h.was, (congrArg Mooring.pins hk).trans h.pins, (congrArg Mooring.started hk).trans h.started⟩, hk⟩

/-- The cores of a list of launches start: a core that stands once in it has the image and arguments of its launch. -/
theorem State.foldl_startOne {s : State} {m : Nat} (hm : m < nMoorings) : ∀ {ls : List Launched} {t : State}, s.StartsLike t m →
    let v := ls.foldl (State.startOne m) t
    s.StartsLike v m ∧ v.moor m = (t.moor m).begins (ls.map Launched.core)
      ∧ (∀ l, (l ∈ ls ∨ (t.core l.core).Started s m l) → (∀ x ∈ ls, x.core = l.core → x = l) → (v.core l.core).Started s m l)
      ∧ ∀ c, (∀ l ∈ ls, l.core ≠ c) → v.core c = t.core c
  | [], t, h => ⟨h, (t.moor m).begins_nil.symm, fun l hor _ => hor.resolve_left nofun, fun _ _ => rfl⟩
  | b :: ls, t, h => by
    obtain ⟨h1, hk1⟩ := State.startOne_like hm h b
    obtain ⟨hb, ho⟩ := State.startPrimary_core h b
    obtain ⟨g1, g2, g3, g4⟩ := State.foldl_startOne hm (ls := ls) h1
    refine ⟨g1, ?_, fun l hor huniq => ?_, fun c hc => ?_⟩
    · rw [List.foldl_cons, g2, hk1, Mooring.begins_begins]
      rfl
    · refine g3 l ?_ fun x hx => huniq x (List.mem_cons_of_mem _ hx)
      by_cases he : b.core = l.core
      · exact .inr (huniq b (List.mem_cons_self ..) he ▸ hb)
      · refine hor.imp (fun hin => (List.mem_cons.1 hin).resolve_left fun e => he (e ▸ rfl)) fun hs => ?_
        rw [show (State.startOne m t b).core l.core = t.core l.core from ho _ (Ne.symm he)]
        exact hs
    · rw [List.foldl_cons, g4 c fun l hl => hc l (List.mem_cons_of_mem _ hl)]
      exact ho c (Ne.symm (hc b (List.mem_cons_self ..)))

/-! ### The `LAUNCH` node -/

/-- The launch of an entry, with a limit of some cycles. -/
def State.launchOf (s : State) (m cycles : Nat) (e : LEnt) : Launched :=
  ⟨e.core, s.now + cycles, s.now + e.offset, BitVec.ofNat 56 e.image, e.argAt, false, (s.moor m).launched.any fun l => l.core == e.core && l.used⟩

/-- A mooring after its node has put the launches of the entries in the place of what stood for their cores. -/
def Mooring.relaunch (go : List LEnt) (ls : List Launched) (k : Mooring) : Mooring :=
  { k with launched := (k.launched.filter fun l => !(go.any fun e => e.core == l.core)) ++ ls }

/-- Launches change neither the stream nor its state. -/
theorem Mooring.relaunched (k : Mooring) (go : List LEnt) (ls : List Launched) (cs : List Nat) :
    ((Mooring.relaunch go ls k).begins cs).stream = k.stream ∧ ((Mooring.relaunch go ls k).begins cs).st = k.st
      ∧ ((Mooring.relaunch go ls k).begins cs).atEnd = k.atEnd ∧ ((Mooring.relaunch go ls k).begins cs).waiting = k.waiting := ⟨rfl, rfl, rfl, rfl⟩

/-- The entries that name an image. -/
def started (es : List LEnt) : List LEnt := es.filter fun e => e.image != 0

theorem mem_started {es : List LEnt} {e : LEnt} : e ∈ started es ↔ e ∈ es ∧ e.image ≠ 0 := by
  unfold started
  rw [List.mem_filter, bne_iff_ne]

theorem exec_launch {s : State} {m n : Nat} (h : AtNode s m n) (delay cmask ltab cycles : BitVec 64) :
    exec (.launch delay cmask ltab cycles) s = .next (if cmask &&& ~~~(s.moor m).cmask ≠ 0 then (s.ran m).nodeFault m n 3
      else match s.ltab m cmask ltab.toNat with
        | none => (s.ran m).nodeFault m n 3
        | some es =>
          if !(es.all (·.clean)) || !sameOffsets (started es) then (s.ran m).nodeFault m n 3
          else if (started es).any fun e => s.coreRuns m e.core then (s.ran m).nodeFault m n 7
          else if (started es).any (s.tooSoon m) then (s.ran m).nodeFault m n 3
          else (((s.ran m).updMoor m (Mooring.relaunch (started es) ((started es).map (s.launchOf m cycles.toNat)))).startCores m).nodeSeek m (n + 1)) := by
  have hk := State.ran_moor h.mooring s
  have hruns : (s.ran m).coreRuns m = s.coreRuns m := by
    funext c
    unfold State.coreRuns
    rw [hk]
    rfl
  have hsoon : (s.ran m).tooSoon m = s.tooSoon m := by
    funext e
    unfold State.tooSoon
    rw [hk]
    rfl
  have hof : (s.ran m).launchOf m cycles.toNat = s.launchOf m cycles.toNat := by
    funext e
    unfold State.launchOf
    rw [hk]
    rfl
  have hmask : ((s.ran m).moor m).cmask = (s.moor m).cmask := by rw [hk]
  show execLaunch delay cmask ltab cycles s = _
  unfold execLaunch
  rw [State.nodeRun_eq h, ← hruns, ← hsoon, ← hof, ← hmask, ← State.ltab_congr (State.atNodeOf_ran h).pins rfl]
  rfl

/-- Where every entry is in order, the node launches its cores, and the stream goes on. -/
theorem launchStarts {s : State} {m n : Nat} {cmask ltab cycles : BitVec 64} {r : List Byte} {es : List LEnt} (h : AtNode s m n)
    (hr : nodeBytes s m (n + 1) = some r) (hd : nodeDelay r ≠ 0) (hl : s.ltab m cmask ltab.toNat = some es) :
    let t := (((s.ran m).updMoor m (Mooring.relaunch (started es) ((started es).map (s.launchOf m cycles.toNat)))).startCores m).nodeSeek m (n + 1)
    SeeksNode s t m (n + 1) r ∧ t.mem = s.mem
      ∧ (∀ e ∈ es, e.image ≠ 0 → ∃ l ∈ (t.moor m).launched, l.core = e.core ∧ l.image = BitVec.ofNat 56 e.image ∧ l.limit = s.now + cycles.toNat
          ∧ l.due = s.now + e.offset ∧ l.argAt = e.argAt ∧ l.begun = decide (e.offset = 0))
      ∧ (∀ e ∈ es, e.image ≠ 0 → e.offset = 0 → (t.core e.core).Started s m (s.launchOf m cycles.toNat e))
      ∧ (∀ l ∈ (s.moor m).launched, l.begun = true → (∀ e ∈ es, e.image ≠ 0 → e.core ≠ l.core) → l ∈ (t.moor m).launched)
      ∧ ∀ c, (∀ l ∈ (s.moor m).launched, l.core ≠ c) → (∀ e ∈ es, e.image ≠ 0 → e.core ≠ c) → t.core c = s.core c := by
  intro t
  have hat := State.atNodeOf_ran h
  have hcores : es.map LEnt.core = tableCores cmask := (State.ltab_spec hl).1
  have huniq : ∀ e ∈ es, ∀ f ∈ es, e.core = f.core → e = f := fun e he f hf hef =>
    List.inj_on_of_nodup_map (hcores ▸ nodup_tableCores cmask) he hf hef
  obtain ⟨u, hue⟩ : ∃ u, (s.ran m).updMoor m (Mooring.relaunch (started es) ((started es).map (s.launchOf m cycles.toNat))) = u := ⟨_, rfl⟩
  have hu : u.moor m = Mooring.relaunch (started es) ((started es).map (s.launchOf m cycles.toNat)) ((s.ran m).moor m) :=
    hue ▸ State.moor_updMoor h.mooring _ _
  have hran := State.ran_moor h.mooring s
  have huc : u.cores = s.cores := by rw [← hue]; rfl
  have hun : u.now = s.now := by rw [← hue]; rfl
  have hlike : s.StartsLike u m :=
    ⟨huc ▸ h.canon.cores, hun, by rw [← hue]; rfl, by rw [← hue]; rfl, by rw [hu]; exact hat.pins, by rw [hu, hran]; rfl⟩
  have hul : (u.moor m).launched = ((s.moor m).launched.filter fun l => !((started es).any fun e => e.core == l.core))
      ++ (started es).map (s.launchOf m cycles.toNat) := by
    rw [hu, hran]
    rfl
  obtain ⟨due, hd'⟩ : ∃ due, ((u.moor m).launched.filter fun l => !l.begun && decide (l.due ≤ u.now)) = due := ⟨_, rfl⟩
  rw [hun] at hd'
  -- Of the launches that are due, that of a core of the node is the node's own.
  have hnew : ∀ e ∈ started es, s.launchOf m cycles.toNat e ∈ (u.moor m).launched := fun e he => by
    rw [hul]
    exact List.mem_append_right _ (List.mem_map_of_mem he)
  have hown : ∀ e ∈ started es, ∀ x ∈ (u.moor m).launched, x.core = e.core → x = s.launchOf m cycles.toNat e := fun e he x hx hxe => by
    rw [hul] at hx
    rcases List.mem_append.1 hx with hx | hx
    · have := (List.mem_filter.1 hx).2
      rw [List.any_eq_true.2 ⟨e, he, by simp [hxe]⟩] at this
      cases this
    · obtain ⟨f, hf, rfl⟩ := List.mem_map.1 hx
      rw [huniq f (mem_started.1 hf).1 e (mem_started.1 he).1 hxe]
  have hdue : ∀ e ∈ started es, (e.core ∈ due.map Launched.core ↔ e.offset = 0) := fun e he => by
    rw [List.mem_map]
    constructor
    · rintro ⟨x, hx, hxe⟩
      rw [← hd'] at hx
      obtain ⟨hx1, hx2⟩ := List.mem_filter.1 hx
      rw [hown e he x hx1 hxe, Bool.and_eq_true, decide_eq_true_eq] at hx2
      have : s.now + e.offset ≤ s.now := hx2.2
      omega
    · intro h0
      refine ⟨_, hd' ▸ List.mem_filter.2 ⟨hnew e he, ?_⟩, rfl⟩
      rw [Bool.and_eq_true, decide_eq_true_eq]
      exact ⟨rfl, show s.now + e.offset ≤ s.now by omega⟩
  obtain ⟨g1, g2, g3, g4⟩ := State.foldl_startOne h.mooring (ls := due) hlike
  have hstart : u.startCores m = due.foldl (State.startOne m) u := by rw [State.startCores_eq, hun, hd']
  rw [← hstart] at g1 g2 g3 g4
  have hat2 : s.AtNodeOf (u.startCores m) m := by
    obtain ⟨k1, k2, k3, k4⟩ := ((s.ran m).moor m).relaunched (started es) ((started es).map (s.launchOf m cycles.toNat)) (due.map Launched.core)
    rw [← hu, ← g2] at k1 k2 k3 k4
    exact ⟨g1.now, g1.mem, g1.pins, k1.trans hat.stream, ⟨k2.trans hat.runs.1, k3.trans hat.runs.2⟩, k4.trans hat.waits⟩
  obtain ⟨hs, he⟩ := hat2.seeks h.mooring hr hd
  have ht : t = (u.startCores m).updMoor m fun k => { k with node := n + 1, nodeAt := s.now + nodeDelay r } := by
    rw [← he, ← hue]
  rw [he, ← ht] at hs
  have htl : (t.moor m).launched = (u.moor m).launched.map (Launched.begin (due.map Launched.core)) := by
    rw [ht, State.moor_updMoor h.mooring, g2]
    rfl
  have htc : ∀ c, t.core c = (u.startCores m).core c := fun c => by
    rw [ht]
    rfl
  have htm : t.mem = s.mem := by
    rw [ht]
    exact g1.mem
  clear_value t
  have hin' : ∀ x, x ∈ due ↔ x ∈ (u.moor m).launched ∧ (!x.begun && decide (x.due ≤ s.now)) = true := fun x => by
    rw [← hd', List.mem_filter]
  refine ⟨hs, htm, fun e hin hi => ?_, fun e hin hi h0 => ?_, fun l hin hb hno => ?_, fun c h1 h2 => ?_⟩
  · have hgo := mem_started.2 ⟨hin, hi⟩
    refine ⟨_, htl ▸ List.mem_map_of_mem (hnew e hgo), ?_⟩
    unfold Launched.begin
    rw [show (s.launchOf m cycles.toNat e).core = e.core from rfl]
    by_cases h0 : e.offset = 0
    · rw [if_pos ((hdue e hgo).2 h0), decide_eq_true h0]
      exact ⟨rfl, rfl, rfl, rfl, rfl, rfl⟩
    · rw [if_neg fun hc => h0 ((hdue e hgo).1 hc), decide_eq_false h0]
      exact ⟨rfl, rfl, rfl, rfl, rfl, rfl⟩
  · have hgo := mem_started.2 ⟨hin, hi⟩
    rw [htc]
    refine g3 (s.launchOf m cycles.toNat e) (.inl ((hin' _).2 ⟨hnew e hgo, ?_⟩)) fun x hx hxe => hown e hgo x ((hin' x).1 hx).1 hxe
    rw [Bool.and_eq_true, decide_eq_true_eq]
    exact ⟨rfl, show s.now + e.offset ≤ s.now by omega⟩
  · rw [htl]
    refine List.mem_map.2 ⟨l, ?_, ?_⟩
    · rw [hul]
      refine List.mem_append_left _ (List.mem_filter.2 ⟨hin, ?_⟩)
      rw [Bool.not_eq_true', List.any_eq_false]
      intro e hgo
      rw [beq_iff_eq]
      exact hno e (mem_started.1 hgo).1 (mem_started.1 hgo).2
    · unfold Launched.begin
      split
      · rw [← hb]
      · rfl
  · rw [htc, g4 c fun x hx hxc => ?_]
    · exact State.core_of_cores huc c
    · have hx1 := ((hin' x).1 hx).1
      rw [hul] at hx1
      rcases List.mem_append.1 hx1 with hx1 | hx1
      · exact h1 x (List.mem_filter.1 hx1).1 hxc
      · obtain ⟨f, hf, rfl⟩ := List.mem_map.1 hx1
        exact h2 f (mem_started.1 hf).1 (mem_started.1 hf).2 hxc

/-- The registers of `H` of a core that has started: its arguments, and zeros. -/
theorem Core.Started.regs {k : Core} {s : State} {m : Nat} {l : Launched} (h : k.Started s m l) {b : List Byte}
    (hb : s.before.moorBytes m l.argAt 64 = some b) (i : Fin 32) :
    (k.h.getD i Reg.zero).val = if i < 8 then BitVec.ofNat 64 (leNat ((b.drop (8 * i)).take 8)) else 0 := by
  have hi : (k.h.getD i Reg.zero).val = (s.argsAt m l.argAt).getD i 0 := by
    rw [h.h]
    simp [Vector.getD, Array.getD, argReg]
  rw [hi, State.argsAt, hb]
  split
  · rename_i h8
    have h8 : i.val < 8 := h8
    simp [h8]
  · rename_i h8
    have h8 : ¬ i.val < 8 := h8
    simp [h8]

theorem launchNodes : Spec.LaunchNodes := by
  intro s m n delay cmask ltab cycles r es h hr hd
  have hexec := exec_launch h delay cmask ltab cycles
  refine ⟨fun hbad => ⟨_, hexec.trans (by rw [if_pos hbad]), State.nodeFaults_ran h (by decide)⟩, fun hgood hl => ?_, fun i e b hl hi hb => ?_⟩
  · rw [if_neg (not_not.2 hgood), hl] at hexec
    dsimp only at hexec
    -- The node's two checks of its entries, as the statement has them.
    have hchecks : (!(es.all (·.clean)) || !sameOffsets (started es)) = false ↔ (∀ e ∈ es, e.clean = true)
        ∧ ∀ e ∈ es, ∀ f ∈ es, e.image ≠ 0 → f.image ≠ 0 → e.core / 16 = f.core / 16 → e.offset = f.offset := by
      rw [Bool.or_eq_false_iff, Bool.not_eq_false', Bool.not_eq_false', List.all_eq_true, sameOffsets_iff]
      simp only [mem_started]
      exact and_congr_right fun _ => ⟨fun h e he f hf h1 h2 => h e ⟨he, h1⟩ f ⟨hf, h2⟩, fun h e he f hf => h e he.1 f hf.1 he.2 hf.2⟩
    refine ⟨fun hbad => ⟨_, hexec.trans ?_, State.nodeFaults_ran h (reason := 3) (by decide)⟩, fun hclean hoff ⟨e, he, hi, hrun⟩ =>
      ⟨_, hexec.trans ?_, State.nodeFaults_ran h (reason := 7) (by decide)⟩, fun hclean hoff hfree => ?_⟩
    · rw [if_pos]
      rw [← Bool.not_eq_false, hchecks]
      rintro ⟨h1, h2⟩
      rcases hbad with ⟨e, he, hc⟩ | ⟨e, he, f, hf, he0, hf0, hcl, hne⟩
      · rw [h1 e he] at hc
        cases hc
      · exact hne (h2 e he f hf he0 hf0 hcl)
    · rw [hchecks.2 ⟨hclean, hoff⟩, if_neg Bool.false_ne_true, if_pos (List.any_eq_true.2 ⟨e, mem_started.2 ⟨he, hi⟩, hrun⟩)]
    · have hruns : ((started es).any fun e => s.coreRuns m e.core) = false := by
        rw [List.any_eq_false]
        intro e he
        rw [(hfree e (mem_started.1 he).1 (mem_started.1 he).2).1]
        exact Bool.false_ne_true
      have hsoon : (started es).any (s.tooSoon m) = false := by
        rw [List.any_eq_false]
        intro e he
        rw [(hfree e (mem_started.1 he).1 (mem_started.1 he).2).2]
        exact Bool.false_ne_true
      obtain ⟨h1, h2, h3, h4, h5, h6⟩ := launchStarts (cycles := cycles) h hr hd hl
      refine ⟨_, hexec.trans ?_, h1, h2, h3, fun e he hi h0 => ?_, h5, h6⟩
      · rw [hchecks.2 ⟨hclean, hoff⟩, if_neg Bool.false_ne_true, hruns, if_neg Bool.false_ne_true, hsoon, if_neg Bool.false_ne_true]
      · have hst := h4 e he hi h0
        exact ⟨hst.run, hst.pc, hst.nextAt, hst.tbase, hst.q0, fun b hb => hst.regs hb⟩
  · obtain ⟨hcores, hent⟩ := State.ltab_spec hl
    obtain ⟨b', hb', rfl⟩ := hent i e hi
    obtain rfl : b' = b := Option.some.inj (hb'.symm.trans hb)
    have hmem : (tableCores cmask).getD i 0 ∈ tableCores cmask := by
      have h := List.mem_map_of_mem (f := LEnt.core) (List.mem_of_getElem? hi)
      rwa [hcores] at h
    obtain ⟨h1, h2⟩ := mem_tableCores.1 hmem
    exact ⟨h1, h2, rfl, rfl, rfl⟩

/-- Settles O45: what each node does, from the rules for a stream that goes on and one that faults. -/
theorem commandStreamNodes : Obligations.CommandStreamNodes :=
  ⟨launchNodes, timelineNodes, publishNodes, waitNodes, checkpointAndStepNodes, gotoAndEndNodes, nodePreemptions⟩

end Sys2Proof.Machine
end

section
/-! SUPPORT. The checks of a launch record and its admission (R282 to R285, R289): O47. -/

namespace Sys2Proof.Machine
open Config Sys2Proof.Spec

/-! ### What admission changes -/

/-- Requests that are decided change neither memory, cores nor the rings' heads. -/
structure State.Decides (s t : State) : Prop where
  mem : t.mem = s.mem
  cores : t.cores = s.cores
  subHead : t.subHead = s.subHead

namespace State.Decides

theorem trans {s t u : State} (h : s.Decides t) (k : t.Decides u) : s.Decides u :=
  ⟨k.mem.trans h.mem, k.cores.trans h.cores, k.subHead.trans h.subHead⟩

theorem foldl {β : Type} {F : State → β → State} (h : ∀ (t : State) (b : β), t.Decides (F t b)) : ∀ (l : List β) (s : State), s.Decides (l.foldl F s)
  | [], _ => ⟨rfl, rfl, rfl⟩
  | b :: l, s => (h s b).trans (foldl h l (F s b))

end State.Decides

theorem State.decides_reply (s : State) (m status : Nat) (r : Req) (info : Nat) (out : List Byte) : s.Decides (s.reply m status r info out) := by
  unfold State.reply
  split <;> exact ⟨rfl, rfl, rfl⟩

theorem State.decides_updMoor (s : State) (m : Nat) (f : Mooring → Mooring) : s.Decides (s.updMoor m f) := ⟨rfl, rfl, rfl⟩

theorem State.decides_admitOne (s : State) (m : Nat) (r : Req) : s.Decides (s.admitOne m r) := by
  unfold State.admitOne
  dsimp only
  split
  · exact s.decides_reply m 2 r 0 []
  · split
    · split
      · exact s.decides_updMoor m _
      · exact s.decides_reply m 2 r _ []
    · split
      · split
        · exact s.decides_updMoor m _
        · exact s.decides_reply m 2 r _ []
      · exact s.decides_reply m 2 r 0 []

theorem State.decides_decideLast (s : State) : s.Decides s.decideLast := by
  unfold State.decideLast State.decideArrivals
  split
  · exact ⟨rfl, rfl, rfl⟩
  · have h := State.Decides.foldl (fun t (x : Nat × Req) => t.decides_admitOne x.1 x.2) (byDeadline s.arrivals) { s with arrivals := [] }
    exact ⟨h.mem, h.cores, h.subHead⟩

theorem State.decides_check (s : State) (src : RecSrc) (r : LRec) : s.Decides (s.check src r) := by
  unfold State.check
  dsimp only
  split
  · exact ⟨rfl, rfl, rfl⟩
  · split
    · exact s.decides_updMoor _ _
    · split
      · exact s.decides_updMoor _ _
      · split
        · exact s.decides_reply _ 3 _ 0 []
        · exact ⟨rfl, rfl, rfl⟩

/-- Without records still to check and without requests still to decide, nothing is decided. -/
theorem State.decideLast_none {s : State} (ha : s.arrivals = []) : s.decideLast = s := by
  have h : s.decideArrivals = s := by
    unfold State.decideArrivals
    rw [ha]
    show { s with arrivals := [] } = s
    rw [← ha]
  unfold State.decideLast
  rw [h, ite_self]

/-- A request that came alone is decided at once. -/
theorem State.decideLast_one {s : State} {m : Nat} {q : Req} (hag : ∀ e ∈ s.agenda, isRecord e.instr = false) (ha : s.arrivals = [(m, q)]) :
    s.decideLast = State.admitOne { s with arrivals := [] } m q := by
  unfold State.decideLast State.decideArrivals
  rw [if_neg, ha]
  · rfl
  · rw [Bool.not_eq_true, List.any_eq_false]
    exact fun e he => Bool.eq_false_iff.1 (hag e he)

/-! ### Where a request can go (R289) -/

theorem State.withheldUntil_congr {s t : State} (hc : t.channels = s.channels) (hn : t.now = s.now)
    (hm : ∀ j, (t.moor j).st = (s.moor j).st ∧ (t.moor j).started = (s.moor j).started ∧ (t.moor j).k = (s.moor j).k) (m : Nat) :
    t.withheldUntil m = s.withheldUntil m := by
  unfold State.withheldUntil
  simp only [hc, hn, fun j => (hm j).1, fun j => (hm j).2.1, fun j => (hm j).2.2]

theorem Mooring.roomFrom_congr {k l : Mooring} (ht : l.t0 = k.t0) (hp : l.period = k.period) (hs : l.slots = k.slots) (hb : l.bcap = k.bcap) (from_ : Nat) :
    ∀ fuel n, l.roomFrom from_ fuel n = k.roomFrom from_ fuel n
  | 0, _ => rfl
  | fuel + 1, n => by
    have h1 : l.startOf n = k.startOf n := by simp only [Mooring.startOf, ht, hp]
    have h2 : l.freeSlot n = k.freeSlot n := by simp only [Mooring.freeSlot, hs, hb]
    simp only [Mooring.roomFrom, h1, h2, Mooring.roomFrom_congr ht hp hs hb from_ fuel]

/-- The earliest task with room is read from the mooring's times and slots, and from the maps that withhold tasks. -/
theorem State.room_congr {s t : State} {m : Nat} (hu : t.withheldUntil m = s.withheldUntil m) (ht : (t.moor m).t0 = (s.moor m).t0)
    (hp : (t.moor m).period = (s.moor m).period) (hl : (t.moor m).lead = (s.moor m).lead) (hs : (t.moor m).slots = (s.moor m).slots)
    (hb : (t.moor m).bcap = (s.moor m).bcap) (c : Nat) : t.room m c = s.room m c := by
  have hf : (t.moor m).firstOpen c = (s.moor m).firstOpen c := by simp only [Mooring.firstOpen, hl, ht, hp]
  unfold State.room
  simp only [hu, hb, hp, hs, hf, Mooring.roomFrom_congr ht hp hs hb]

/-! ### The fate of a record -/

theorem inLen_eq (b : List Byte) : LRec.inLen ⟨b⟩ = recInput b := by
  unfold LRec.inLen LRec.inaddr recInput
  simp only [beq_iff_eq]
  rfl

theorem formOk_iff {s : State} {b : List Byte} : LRec.formOk ⟨b⟩ (s.moor (recMooring b)).istride = true ↔ FormOk s b := by
  unfold LRec.formOk FormOk LRec.inaddr
  rw [inLen_eq]
  simp only [Bool.and_eq_true, Bool.or_eq_true, beq_iff_eq, bne_iff_ne, decide_eq_true_eq, and_assoc]
  rfl

/-- The request that a record describes. -/
def reqOf (b : List Byte) (src : RecSrc) (now : Nat) : Req := LRec.req ⟨b⟩ src now

theorem not_formOk_iff {s : State} {b : List Byte} : (!LRec.formOk ⟨b⟩ (s.moor (recMooring b)).istride) = true ↔ ¬FormOk s b := by
  rw [← formOk_iff, Bool.not_eq_true', Bool.not_eq_true]

theorem not_tagOk_iff {s : State} {b : List Byte} :
    (b.drop (32 + recInput b) != tagOf (s.moor (recMooring b)).key (LRec.body ⟨b⟩)) = true ↔ ¬TagOk s b := by
  unfold LRec.body TagOk
  rw [bne_iff_ne, inLen_eq]

/-- The checks of a record that arrives, one after the other (R285). -/
theorem State.check_eq {s : State} {b : List Byte} (h : Arrives s b) (src : RecSrc) : s.check src ⟨b⟩ =
    if (!LRec.formOk ⟨b⟩ (s.moor (recMooring b)).istride) = true then s.updMoor (recMooring b) fun k => { k with malformed := k.malformed + 1 }
    else if (b.drop (32 + recInput b) != tagOf (s.moor (recMooring b)).key (LRec.body ⟨b⟩)) = true then
      s.updMoor (recMooring b) fun k => { k with tagFail := k.tagFail + 1 }
    else if (s.moor (recMooring b)).duplicate (recField b 4 6) then s.reply (recMooring b) 3 (reqOf b src s.now) 0 []
    else { s.updMoor (recMooring b) fun k => k.markReq (recField b 4 6) with arrivals := [(recMooring b, reqOf b src s.now)] } := by
  obtain ⟨-, ⟨harr, -⟩, hlong, hmoor, hload⟩ := h
  have hthere : (!(decide (LRec.mooring ⟨b⟩ < nMoorings) && (s.moor (LRec.mooring ⟨b⟩)).loaded && decide (3 ≤ b.length))) = false := by
    rw [show LRec.mooring ⟨b⟩ = recMooring b from rfl, decide_eq_true hmoor, hload, decide_eq_true hlong]
    rfl
  unfold State.check
  dsimp only
  rw [hthere, if_neg Bool.false_ne_true, inLen_eq, harr]
  rfl

theorem Mooring.duplicate_iff {k : Mooring} {q : Nat} :
    k.duplicate q = true ↔ ∃ hi, k.hiReq = some hi ∧ q ≤ hi ∧ (4095 < hi - q ∨ k.bitmap.getLsbD (hi - q) = true) := by
  unfold Mooring.duplicate
  cases k.hiReq with
  | none => simp
  | some hi =>
    simp only [Option.some.injEq, exists_eq_left']
    by_cases h1 : hi < q
    · rw [if_pos h1]
      simp [Nat.not_le.2 h1]
    · rw [if_neg h1]
      by_cases h2 : 4095 < hi - q
      · simp [h2, Nat.not_lt.1 h1]
      · simp [h2, Nat.not_lt.1 h1]

/-- A REQID above every one before is no duplicate, and becomes the highest. -/
theorem Mooring.markReq_new {k : Mooring} {q : Nat} (h : ∀ hi, k.hiReq = some hi → hi < q) :
    k.duplicate q = false ∧ (k.markReq q).hiReq = some q := by
  unfold Mooring.duplicate Mooring.markReq
  cases hh : k.hiReq with
  | none => exact ⟨rfl, rfl⟩
  | some hi =>
    have := h hi hh
    simp [this]

/-- Marking a REQID changes nothing that admission reads. -/
theorem Mooring.markReq_keeps {γ : Type} (π : Mooring → γ) (h : ∀ k hi bm, π { k with hiReq := hi, bitmap := bm } = π k) (k : Mooring) (q : Nat) :
    π (k.markReq q) = π k := by
  unfold Mooring.markReq
  cases hh : k.hiReq with
  | none => exact h _ _ _
  | some hi =>
    dsimp only
    split
    · exact h _ _ _
    · exact h k (some hi) _

/-- A reply is one frame, or one entry of the completion ring. -/
theorem State.reply_count (s : State) (m status : Nat) (r : Req) (info : Nat) (out : List Byte) :
    (s.reply m status r info out).frames.length + (s.reply m status r info out).compl.length = s.frames.length + s.compl.length + 1
      ∧ (s.reply m status r info out).arrivals = s.arrivals := by
  unfold State.reply
  split
  · refine ⟨?_, rfl⟩
    dsimp only
    rw [List.length_append, List.length_singleton]
    omega
  · refine ⟨?_, rfl⟩
    dsimp only [State.complete]
    rw [List.length_append, List.length_singleton]
    omega

/-- A request that a task has room for, and in time, takes its slot (R289). -/
theorem State.admitOne_placed {s : State} {m n i : Nat} {q : Req} (ha : s.admits m = true) (hb : q.bulk = false) (hroom : s.room m q.arrival = some (n, i))
    (hd : (s.moor m).replyBy n ≤ q.deadlineAt) : s.admitOne m q = s.place m n i q := by
  unfold State.admitOne
  dsimp only
  rw [ha, hb, hroom]
  exact if_pos hd

/-- The state in which a request is decided: its REQID is marked. -/
def State.marked (s : State) (m q : Nat) : State := { s.updMoor m fun k => k.markReq q with arrivals := [] }

theorem State.marked_moor {s : State} {m : Nat} (hm : m < nMoorings) (q : Nat) : (s.marked m q).moor m = (s.moor m).markReq q :=
  State.moor_updMoor hm s fun k => k.markReq q

theorem State.marked_keeps {γ : Type} (π : Mooring → γ) (hπ : ∀ k hi bm, π { k with hiReq := hi, bitmap := bm } = π k) (s : State) (m q j : Nat) :
    π ((s.marked m q).moor j) = π (s.moor j) :=
  State.moor_updMoor_keeps π s m j (fun k => k.markReq q) fun k => Mooring.markReq_keeps π hπ k q

/-- Marking a REQID leaves the room of every task as it was. -/
theorem State.marked_room (s : State) (m q c : Nat) : (s.marked m q).room m c = s.room m c := by
  refine State.room_congr ?_ ?_ ?_ ?_ ?_ ?_ c
  · exact State.withheldUntil_congr (s := s) (t := s.marked m q) rfl rfl (fun j => ⟨State.marked_keeps Mooring.st (fun _ _ _ => rfl) s m q j,
      State.marked_keeps Mooring.started (fun _ _ _ => rfl) s m q j, State.marked_keeps Mooring.k (fun _ _ _ => rfl) s m q j⟩) m
  · exact State.marked_keeps Mooring.t0 (fun _ _ _ => rfl) s m q m
  · exact State.marked_keeps Mooring.period (fun _ _ _ => rfl) s m q m
  · exact State.marked_keeps Mooring.lead (fun _ _ _ => rfl) s m q m
  · exact State.marked_keeps Mooring.slots (fun _ _ _ => rfl) s m q m
  · exact State.marked_keeps Mooring.bcap (fun _ _ _ => rfl) s m q m

/-- The fate of a record that an instruction checks and decides, in a state that differs from s in the ring's head only. -/
theorem recordFates {s u : State} {i : Instr} {b : List Byte} {src : RecSrc} (hi : exec i s = .next (u.check src ⟨b⟩).decideLast)
    (hu : ∃ n, u = { s with subHead := n }) (h : Arrives s b) : RecordFates s i b := by
  obtain ⟨head, hu⟩ := hu
  have harr := h.alone.1
  have hm := h.mooring.1
  have harrives : Arrives u b := by
    rw [hu]
    exact ⟨h.up, h.alone, h.long, h.mooring⟩
  have hmu : u.moor (recMooring b) = s.moor (recMooring b) := by
    rw [hu]
    rfl
  have hnf : (!LRec.formOk ⟨b⟩ (u.moor (recMooring b)).istride) = true ↔ ¬FormOk s b := by
    rw [hu]
    exact not_formOk_iff (s := s)
  have hnt : (b.drop (32 + recInput b) != tagOf (u.moor (recMooring b)).key (LRec.body ⟨b⟩)) = true ↔ ¬TagOk s b := by
    rw [hu]
    exact not_tagOk_iff (s := s)
  have hcheck := State.check_eq harrives src
  unfold RecordFates
  intro m k
  refine ⟨fun hf => ?_, fun hf ht => ?_, fun hf ht hdup => ?_, fun hf ht hnew hbulk hloose hnext hheat hcap n i_ hroom hdead => ?_⟩
  · rw [hcheck, if_pos (hnf.2 hf), State.decideLast_none (by rw [hu]; exact harr)] at hi
    subst hu
    refine ⟨_, hi, ?_, ?_, rfl, rfl⟩
    all_goals rw [State.moor_updMoor hm]
    all_goals rfl
  · rw [hcheck, if_neg (mt hnf.1 (not_not.2 hf)), if_pos (hnt.2 ht), State.decideLast_none (by rw [hu]; exact harr)] at hi
    subst hu
    refine ⟨_, hi, ?_, ?_, rfl, rfl⟩
    all_goals rw [State.moor_updMoor hm]
    all_goals rfl
  · obtain ⟨hcount, ha⟩ := State.reply_count u (recMooring b) 3 (reqOf b src u.now) 0 []
    rw [hcheck, if_neg (mt hnf.1 (not_not.2 hf)), if_neg (mt hnt.1 (not_not.2 ht)), hmu, if_pos (Mooring.duplicate_iff.2 hdup), State.decideLast_none (ha.trans (by rw [hu]; exact harr))] at hi
    subst hu
    have hmo := State.moor_of_moorings (State.reply_fields { s with subHead := head } (recMooring b) 3 (reqOf b src s.now) 0 []).1 (recMooring b)
    exact ⟨_, hi, congrArg Mooring.slots hmo, hcount, congrArg Mooring.bitmap hmo⟩
  · obtain ⟨hdup, hhi⟩ := Mooring.markReq_new hnew
    rw [hcheck, if_neg (mt hnf.1 (not_not.2 hf)), if_neg (mt hnt.1 (not_not.2 ht)), hmu, if_neg (Bool.eq_false_iff.1 hdup), State.decideLast_one (by rw [hu]; exact h.alone.2) rfl] at hi
    subst hu
    obtain ⟨v, hv⟩ : ∃ v : State, v = ({ s with subHead := head } : State).marked (recMooring b) (recField b 4 6) := ⟨_, rfl⟩
    have hvm : v.moor m = (s.moor m).markReq (recField b 4 6) := by
      rw [hv]
      exact State.marked_moor hm _
    have hkeep : ∀ {γ : Type} (π : Mooring → γ), (∀ k hi bm, π { k with hiReq := hi, bitmap := bm } = π k) → π (v.moor m) = π (s.moor m) := by
      intro γ π hπ
      rw [hv]
      exact State.marked_keeps π hπ { s with subHead := head } _ _ _
    have hadm : v.admits m = true := by
      unfold State.admits
      rw [hkeep Mooring.loose (fun _ _ _ => rfl), hkeep Mooring.looseNext (fun _ _ _ => rfl), hkeep Mooring.bcap (fun _ _ _ => rfl), hloose, hnext,
        show v.thermalHold = s.thermalHold by rw [hv]; rfl, hheat, decide_eq_true hcap]
      rfl
    have hvroom : v.room m s.now = some (n, i_) := by
      rw [hv, State.marked_room]
      exact hroom
    have hrb : (v.moor m).replyBy n ≤ (reqOf b src s.now).deadlineAt := by
      unfold Mooring.replyBy Mooring.startOf
      rw [hkeep Mooring.t0 (fun _ _ _ => rfl), hkeep Mooring.period (fun _ _ _ => rfl), hkeep Mooring.k (fun _ _ _ => rfl),
        hkeep Mooring.replyb (fun _ _ _ => rfl)]
      exact hdead
    have hb : (reqOf b src s.now).bulk = false := by
      show (recField b 2 1 / 8 % 2 == 1) = false
      rw [hbulk]
      rfl
    have hplace := State.admitOne_placed hadm hb hvroom hrb
    have hexec : exec i s = .next (v.place m n i_ (reqOf b src s.now)) := by
      rw [hi, ← hplace, hv]
      rfl
    have hpm : (v.place m n i_ (reqOf b src s.now)).moor m = { v.moor m with slots := (v.moor m).slots ++ [⟨n, i_, reqOf b src s.now⟩] } :=
      State.moor_updMoor hm _ _
    refine ⟨_, ⟨n, i_, reqOf b src s.now⟩, hexec, ?_, rfl, rfl, rfl, rfl, rfl, rfl, ?_, ?_, ?_⟩
    · rw [hpm, hkeep Mooring.slots (fun _ _ _ => rfl)]
    · rw [hpm]
      show (v.moor m).hiReq = _
      rw [hvm, hhi]
    · show v.frames = s.frames
      rw [hv]
      rfl
    · show v.compl = s.compl
      rw [hv]
      rfl

end Sys2Proof.Machine
end

section
/-! SUPPORT. The commands of the submission ring (R332 to R335): O47. -/

namespace Sys2Proof.Machine
open Config Sys2Proof.Spec

/-! ### Entries of the ring -/

/-- The state after the next entry of the ring has been taken. -/
def State.pastEntry (s : State) : State := { s with subHead := s.subHead + 1 }

theorem State.isNext_iff {s : State} {e : SubEntry} : s.isNext e = true ↔ e.seq = s.subHead ∧ s.subHead < s.subTail := by
  unfold State.isNext
  rw [Bool.and_eq_true, beq_iff_eq, decide_eq_true_eq]

theorem SubEntry.ok_of_entry {s : State} {e : SubEntry} {moor arg : Bool} {n : Nat} {len : Nat → Bool} (h : Entry s e moor arg n) (hn : n ≤ 4032)
    (hlen : len n = true) : SubEntry.ok e moor arg len = true := by
  obtain ⟨hpay, hle⟩ := h.len
  have hm : (if moor then decide (e.mooring.toNat < nMoorings) else e.mooring == 0) = true := by
    have := h.mooring
    cases moor with
    | true => exact decide_eq_true this
    | false => exact beq_iff_eq.2 this
  have ha : (arg || e.arg == 0) = true := by
    cases arg with
    | true => rfl
    | false => exact beq_iff_eq.2 (h.arg rfl)
  have ht : e.tail.all (· == 0) = true := List.all_eq_true.2 fun b hb => beq_iff_eq.2 (h.zero.2 b hb)
  unfold SubEntry.ok
  rw [hm, ha, ht, hpay, hle, hlen, h.zero.1, decide_eq_true hn, beq_self_eq_true, beq_self_eq_true]
  rfl

theorem State.took_entry {s : State} {e : SubEntry} {moor arg : Bool} {n : Nat} {len : Nat → Bool} (h : Entry s e moor arg n) (hn : n ≤ 4032)
    (hlen : len n = true) (f : State → State) : s.took e moor arg len f = f s.pastEntry := by
  unfold State.took
  rw [if_pos ⟨h.up, State.isNext_iff.2 h.next⟩]
  exact if_pos (SubEntry.ok_of_entry h hn hlen)

theorem State.command_entry {s : State} {e : SubEntry} {moor arg : Bool} {n : Nat} {len : Nat → Bool} (h : Entry s e moor arg n) (hn : n ≤ 4032)
    (hlen : len n = true) (f : State → State) : s.command e moor arg len f = .next (f s.pastEntry) :=
  congrArg Host.Outcome.next (State.took_entry h hn hlen f)

/-- An entry that is not the next of the ring, or that comes without a Pilot image, is not read (R332, R340). -/
theorem State.took_unread {s : State} {e : SubEntry} (h : ¬(s.boot = .up ∧ e.seq = s.subHead ∧ s.subHead < s.subTail)) (moor arg : Bool)
    (len : Nat → Bool) (f : State → State) : s.took e moor arg len f = s := by
  unfold State.took
  exact if_neg fun ⟨hup, hnext⟩ => h ⟨hup, State.isNext_iff.1 hnext⟩

theorem State.took_malformed {s : State} {e : SubEntry} (hup : s.boot = .up) (hnext : e.seq = s.subHead ∧ s.subHead < s.subTail)
    (h : e.rsv ≠ 0 ∨ e.len.toNat ≠ e.payload.length ∨ ∃ b ∈ e.tail, b ≠ 0) (moor arg : Bool) (len : Nat → Bool) (f : State → State) :
    s.took e moor arg len f = s.pastEntry.refuse e := by
  have hbad : ¬SubEntry.ok e moor arg len = true := by
    unfold SubEntry.ok
    simp only [Bool.and_eq_true, beq_iff_eq, List.all_eq_true, and_assoc]
    rintro ⟨hrsv, htail, hlen, -⟩
    obtain h | h | ⟨b, hb, hne⟩ := h
    · exact h hrsv
    · exact h hlen
    · exact hne (htail b hb)
  unfold State.took
  rw [if_pos ⟨hup, State.isNext_iff.2 hnext⟩]
  exact if_neg hbad

/-- A refused entry changes nothing but the rings. -/
theorem refused_of_command {s : State} {e : SubEntry} {i : Instr} (h : exec i s = .next (s.pastEntry.refuse e)) : Refused s e i := h

/-- A command whose conditions do not hold is refused. -/
theorem refused_of_ifOk {s : State} {e : SubEntry} {i : Instr} {c : Bool} {f : State → State} (h : exec i s = .next (s.pastEntry.ifOk e c f))
    (hc : c = false) : Refused s e i := by
  rw [hc] at h
  exact h

/-- A command whose conditions hold does its work. -/
theorem next_of_ifOk {s : State} {e : SubEntry} {i : Instr} {c : Bool} {f : State → State} (h : exec i s = .next (s.pastEntry.ifOk e c f))
    (hc : c = true) : exec i s = .next (f s.pastEntry) := by
  rw [hc] at h
  exact h

/-- With no request waiting, an entry that is read and decided does what reading it and deciding does. -/
theorem State.took_decideLast {s : State} (ha : s.arrivals = []) (e : SubEntry) (moor arg : Bool) (len : Nat → Bool) (f : State → State) :
    (s.took e moor arg len f).decideLast = s.took e moor arg len fun t => (f t).decideLast := by
  unfold State.took
  dsimp only
  split
  · split
    · rfl
    · exact State.decideLast_none ha
  · exact State.decideLast_none ha

/-- Every command of the ring reads its entry first. -/
theorem exec_took {s : State} {e : SubEntry} {pins : List (List Byte)} {chans : List ChanEntry} {grps : List GrpEntry} {i : Instr} (ha : s.arrivals = [])
    (hi : i ∈ [Instr.hostLaunchRecord e, .resumeParkedTask e, .stepTask e, .discardParkedTask e, .clearErrorLog e, .clearErrorCounters e,
      .loadMooring e pins chans grps, .startSecondaryStream e, .stopSecondaryStream e, .setLooseMode e, .requestForcedPreemption e]) :
    ∃ moor arg len f, exec i s = .next (s.took e moor arg len f) := by
  simp only [List.mem_cons, List.not_mem_nil, or_false] at hi
  obtain rfl | hi := hi
  · exact ⟨_, _, _, _, congrArg Host.Outcome.next (State.took_decideLast ha e true false (fun _ => true) _)⟩
  · rcases hi with rfl | rfl | rfl | rfl | rfl | rfl | rfl | rfl | rfl | rfl
    all_goals exact ⟨_, _, _, _, rfl⟩

theorem entriesAreChecked : Spec.EntriesAreChecked := by
  intro s e pins chans grps i ha hi
  obtain ⟨moor, arg, len, f, hx⟩ := exec_took ha hi
  refine ⟨fun hboot => ?_, fun hnext => ?_, fun hup hseq htail hbad => ?_⟩
  · rw [hx, State.took_unread fun h => hboot h.1]
  · rw [hx, State.took_unread fun h => ?_]
    obtain ⟨-, h1, h2⟩ := h
    omega
  · exact refused_of_command (hx.trans (congrArg Host.Outcome.next (State.took_malformed hup ⟨hseq, htail⟩ hbad moor arg len f)))

/-! ### Records from the host -/

theorem hostRecords : Spec.HostRecords := by
  intro s e n h hn
  have hx : exec (.hostLaunchRecord e) s = .next (s.pastEntry.check (.host e.mooring.toNat e.seq) ⟨e.payload⟩).decideLast :=
    congrArg (fun t : State => Host.Outcome.next t.decideLast) (State.took_entry h hn rfl _)
  obtain ⟨hmem, hcores, hhead⟩ := (State.decides_check s.pastEntry (.host e.mooring.toNat e.seq) ⟨e.payload⟩).trans (State.decides_decideLast _)
  exact ⟨⟨_, hx, hhead, hmem, hcores⟩, recordFates hx ⟨_, rfl⟩⟩

/-! ### Tasks that stand still -/

theorem Mooring.waitsHost_iff {k : Mooring} {nodes : Bool} :
    k.waitsHost nodes = true ↔ (k.st = .parked ∨ nodes = true ∧ k.st = .nodeStopped) ∧ k.resuming = none := by
  unfold Mooring.waitsHost
  simp only [Bool.and_eq_true, Bool.or_eq_true, beq_iff_eq, Option.isNone_iff_eq_none]

theorem Mooring.waitsHost_running {k : Mooring} (h : k.st = .running) (nodes : Bool) : k.waitsHost nodes = false := by
  refine Bool.eq_false_iff.2 fun hw => ?_
  simpa [h] using (Mooring.waitsHost_iff.1 hw).1

theorem Mooring.waitsHost_unparked {k : Mooring} (h : k.st ≠ .parked) : k.waitsHost false = false := by
  refine Bool.eq_false_iff.2 fun hw => ?_
  obtain ⟨hp | ⟨hf, -⟩, -⟩ := Mooring.waitsHost_iff.1 hw
  · exact h hp
  · exact Bool.false_ne_true hf

theorem State.mayResume_of_written {s : State} {m : Nat} (h : (s.moor m).vwrite = none) : s.mayResume m = s.recordsOk m := by
  unfold State.mayResume
  rw [h]
  exact Bool.false_or _

/-- A task that is not parked has no records to check. -/
theorem State.recordsOk_of_not_parked {s : State} {m : Nat} (h : (s.moor m).st ≠ .parked) : s.recordsOk m = true := by
  unfold State.recordsOk
  rw [bne_iff_ne.2 h]
  rfl

/-- A resumption is asked of a task that stands still. -/
def Mooring.askResume (k : Mooring) (seq : Nat) (step : Option Nat) (at_ : Nat) : Mooring := { k with resuming := some ⟨seq, step, at_⟩ }

/-- A task's discard cycle is set. -/
def Mooring.endAt (k : Mooring) (n : Nat) : Mooring := { k with st := .ending n }

theorem parkedTaskCommands : Spec.ParkedTaskCommands := by
  intro s e m hm hres
  subst hm
  have hresume : ∀ h : Entry s e true false 0, exec (.resumeParkedTask e) s = .next (s.pastEntry.ifOk e
      ((s.moor e.mooring.toNat).waitsHost true && s.mayResume e.mooring.toNat)
      fun t => t.updMoor e.mooring.toNat fun k => k.askResume e.seq none (s.now + 1)) :=
    fun h => State.command_entry h (by decide) rfl _
  have hstep : ∀ h : Entry s e true true 0, exec (.stepTask e) s = .next (s.pastEntry.ifOk e
      ((s.moor e.mooring.toNat).waitsHost false && (s.taskCores e.mooring.toNat).contains e.arg.toNat && s.mayResume e.mooring.toNat)
      fun t => t.updMoor e.mooring.toNat fun k => k.askResume e.seq (some e.arg.toNat) (s.now + 1)) :=
    fun h => State.command_entry h (by decide) rfl _
  have hdiscard : ∀ h : Entry s e true false 0, exec (.discardParkedTask e) s = .next (s.pastEntry.ifOk e ((s.moor e.mooring.toNat).waitsHost true)
      fun t => (t.updMoor e.mooring.toNat fun k => k.endAt s.now).done e) :=
    fun h => State.command_entry h (by decide) rfl _
  refine ⟨fun h hv hst => ?_, fun h hv hst hrec => ?_, fun h hst => ⟨?_, ?_⟩, fun h hv hst hrec hc => ?_, fun h hbad => ?_, fun h hst => ?_⟩
  · have hok : ((s.moor e.mooring.toNat).waitsHost true && s.mayResume e.mooring.toNat) = true := by
      rw [State.mayResume_of_written hv, Bool.and_eq_true, Mooring.waitsHost_iff]
      obtain hst | ⟨hst, hrec⟩ := hst
      · exact ⟨⟨.inr ⟨rfl, hst⟩, hres⟩, State.recordsOk_of_not_parked (by rw [hst]; decide)⟩
      · exact ⟨⟨.inl hst, hres⟩, hrec⟩
    refine ⟨_, next_of_ifOk (hresume h) hok, ⟨rfl, rfl, rfl, rfl⟩, ?_, ?_⟩
    · exact congrArg Mooring.resuming (State.moor_updMoor h.mooring s.pastEntry fun k => k.askResume e.seq none (s.now + 1))
    · exact (congrArg Mooring.st (State.moor_updMoor h.mooring s.pastEntry fun k => k.askResume e.seq none (s.now + 1)) :)
  · refine refused_of_ifOk (hresume h) ?_
    rw [State.mayResume_of_written hv, hrec, Bool.and_false]
  · refine refused_of_ifOk (hresume h) ?_
    rw [Mooring.waitsHost_running hst true, Bool.false_and]
  · exact refused_of_ifOk (hdiscard h) (Mooring.waitsHost_running hst true)
  · have hok : ((s.moor e.mooring.toNat).waitsHost false && (s.taskCores e.mooring.toNat).contains e.arg.toNat && s.mayResume e.mooring.toNat) = true := by
      rw [State.mayResume_of_written hv, hrec, Mooring.waitsHost_iff.2 ⟨.inl hst, hres⟩, List.contains_iff_mem.2 hc]
      rfl
    exact ⟨_, next_of_ifOk (hstep h) hok, ⟨rfl, rfl, rfl, rfl⟩, congrArg Mooring.resuming (State.moor_updMoor h.mooring s.pastEntry fun k => k.askResume e.seq (some e.arg.toNat) (s.now + 1))⟩
  · refine refused_of_ifOk (hstep h) ?_
    obtain hc | hst := hbad
    · rw [Bool.eq_false_iff.2 (mt List.contains_iff_mem.1 hc), Bool.and_false, Bool.false_and]
    · rw [Mooring.waitsHost_unparked hst, Bool.false_and, Bool.false_and]
  · have hok : (s.moor e.mooring.toNat).waitsHost true = true := Mooring.waitsHost_iff.2 ⟨hst.imp_right fun h => ⟨rfl, h⟩, hres⟩
    exact ⟨_, next_of_ifOk (hdiscard h) hok, ⟨rfl, rfl⟩, congrArg Mooring.st (State.moor_updMoor h.mooring s.pastEntry fun k => k.endAt s.now)⟩

/-! ### The error log -/

theorem errorLogCommands : Spec.ErrorLogCommands := by
  intro s e htidy
  have hcounters : ∀ h : Entry s e false true 0, exec (.clearErrorCounters e) s = .next (s.pastEntry.ifOk e (e.arg.toNat == 0xFFFF || sourceOk e.arg.toNat)
      fun t => State.done { t with counters := if e.arg.toNat = 0xFFFF then [] else sset (0, 0) t.counters e.arg.toNat (0, 0) } e) :=
    fun h => State.command_entry h (by decide) rfl _
  refine ⟨fun h => ⟨_, State.command_entry h (by decide) rfl _, ⟨rfl, rfl⟩, rfl, rfl, rfl⟩, fun h hall => ?_, fun h hle => ?_, fun h hgt hne => ?_⟩
  · have hok : (e.arg.toNat == 0xFFFF || sourceOk e.arg.toNat) = true := by
      rw [hall]
      rfl
    exact ⟨_, next_of_ifOk (hcounters h) hok, ⟨rfl, rfl⟩, if_pos hall, rfl⟩
  · have hok : (e.arg.toNat == 0xFFFF || sourceOk e.arg.toNat) = true := by
      rw [sourceOk, decide_eq_true hle, Bool.or_true]
    have hcnt : (if e.arg.toNat = 0xFFFF then [] else sset (0, 0) s.counters e.arg.toNat (0, 0)) = sset (0, 0) s.counters e.arg.toNat (0, 0) :=
      if_neg (by omega)
    refine ⟨_, next_of_ifOk (hcounters h) hok, ⟨rfl, rfl⟩, ?_, rfl, fun k hk => ?_⟩
    · exact (congrArg (fun l => sget (0, 0) l e.arg.toNat) hcnt).trans (sget_sset_self htidy _)
    · exact (congrArg (fun l => sget (0, 0) l k) hcnt).trans (sget_sset_other htidy _ hk)
  · refine refused_of_ifOk (hcounters h) ?_
    rw [sourceOk, decide_eq_false (by omega), beq_eq_false_iff_ne.2 hne]
    rfl

/-! ### Secondary streams -/

/-- The secondary of a core starts at its image, within 4,096 cycles, with its arguments in the first eight `M` registers. -/
theorem State.startSecondary_core {s : State} (ht : Tidy Core.init s.cores) (c : Nat) (image : Addr) (args : List Word) :
    ∃ x : SeqState, (s.startSecondary c image args).core c = { s.core c with sec := x } ∧ (∀ d, d ≠ c → (s.startSecondary c image args).core d = s.core d)
      ∧ x.run = .running ∧ x.pc = image ∧ s.now < x.nextAt ∧ x.nextAt ≤ s.now + 4096
      ∧ ∀ i : Fin 32, x.m.getD i Reg.zero = if i.val < 8 then argReg args i.val else Reg.zero := by
  refine ⟨_, (State.core_updCore (s := { s with free := s.free + 1 }) ht c c _).trans (if_pos rfl), fun d hd => ?_, rfl, rfl, ?_, ?_, fun i => ?_⟩
  · exact (State.core_updCore (s := { s with free := s.free + 1 }) ht c d _).trans (if_neg hd)
  · show s.now < s.now + 1 + freeNat s.free % 4096
    omega
  · show s.now + 1 + freeNat s.free % 4096 ≤ s.now + 4096
    omega
  · show (Vector.ofFn fun i : Fin 32 => if i.val < 8 then argReg args i.val else Reg.zero).getD i Reg.zero = _
    simp [Vector.getD]

/-- The eight argument words of a payload. -/
theorem argReg_payload (b : List Byte) {i : Nat} (hi : i < 8) :
    (argReg ((List.range 8).map fun i => BitVec.ofNat 64 (leNat ((b.drop (64 + 8 * i)).take 8))) i).val.toNat = leNat ((b.drop (64 + 8 * i)).take 8) := by
  have hlt : leNat ((b.drop (64 + 8 * i)).take 8) < 2 ^ 64 :=
    (leNat_lt _).trans_le ((Nat.pow_le_pow_right (by decide) (List.length_take_le _ _)).trans (by decide))
  have hget : ((List.range 8).map fun i => BitVec.ofNat 64 (leNat ((b.drop (64 + 8 * i)).take 8))).getD i 0 = BitVec.ofNat 64 (leNat ((b.drop (64 + 8 * i)).take 8)) := by
    simp [List.getD_eq_getElem?_getD, hi]
  show BitVec.toNat (List.getD _ i 0) = _
  rw [hget, BitVec.toNat_ofNat, Nat.mod_eq_of_lt hlt]

/-- A stream ends, and holds for nothing. -/
def SeqState.stopped (x : SeqState) : SeqState := { x with run := .ended, hold := .none }

theorem secondaryStreamCommands : Spec.SecondaryStreamCommands := by
  intro s e c hc num
  subst hc
  have hstart : ∀ h : Entry s e false true 128, exec (.startSecondaryStream e) s = .next (s.pastEntry.ifOk e
      (decide (e.arg.toNat < nCores) && num 8 56 == 0 && decide (num 0 8 < 2 ^ 56) && (s.core e.arg.toNat).sec.run != .running)
      fun t => (t.startSecondary e.arg.toNat (BitVec.ofNat 56 (num 0 8)) ((List.range 8).map fun i => BitVec.ofNat 64 (num (64 + 8 * i) 8))).done e) :=
    fun h => State.command_entry h (by decide) rfl _
  have hstop : ∀ h : Entry s e false true 0, exec (.stopSecondaryStream e) s = .next (s.pastEntry.ifOk e
      (decide (e.arg.toNat < nCores) && (s.core e.arg.toNat).sec.run == .running)
      fun t => { t.updSeq e.arg.toNat .secondary fun x => x.stopped with secStops := t.secStops ++ [(e.arg.toNat, e.seq, s.now)] }) :=
    fun h => State.command_entry h (by decide) rfl _
  refine ⟨fun h hc h8 h0 => ⟨fun hrun => ?_, fun hrun => ?_⟩, fun h hc => ⟨fun hrun => ?_, fun hrun => ?_⟩⟩
  · have hok : (decide (e.arg.toNat < nCores) && num 8 56 == 0 && decide (num 0 8 < 2 ^ 56) && (s.core e.arg.toNat).sec.run != .running) = true := by
      rw [decide_eq_true hc, h8, decide_eq_true h0, bne_iff_ne.2 hrun]
      rfl
    obtain ⟨x, hcore, hother, hxrun, hxpc, hlo, hhi, hxm⟩ := State.startSecondary_core (s := s.pastEntry) h.canon.cores e.arg.toNat (BitVec.ofNat 56 (num 0 8))
      ((List.range 8).map fun i => BitVec.ofNat 64 (num (64 + 8 * i) 8))
    have hsec := congrArg Core.sec hcore
    refine ⟨_, next_of_ifOk (hstart h) hok, ⟨rfl, rfl⟩, (congrArg SeqState.run hsec).trans hxrun, ?_, ?_, ?_, fun i => ?_, (congrArg Core.prim hcore :), rfl, hother⟩
    · refine (congrArg (fun y : SeqState => y.pc.toNat) hsec).trans ?_
      show x.pc.toNat = num 0 8
      rw [hxpc, BitVec.toNat_ofNat, Nat.mod_eq_of_lt h0]
    · exact hlo.trans_eq (congrArg SeqState.nextAt hsec).symm
    · exact (congrArg SeqState.nextAt hsec).trans_le hhi
    · refine (congrArg (fun y : SeqState => (y.m.getD i Reg.zero).val.toNat) hsec).trans ?_
      show (x.m.getD i Reg.zero).val.toNat = _
      rw [hxm i]
      split
      · exact argReg_payload e.payload ‹_›
      · rfl
  · refine refused_of_ifOk (hstart h) ?_
    rw [bne_eq_false_iff_eq.2 hrun, Bool.and_false]
  · have hok : (decide (e.arg.toNat < nCores) && (s.core e.arg.toNat).sec.run == .running) = true := by
      rw [decide_eq_true hc, beq_iff_eq.2 hrun]
      rfl
    have hcore : (s.pastEntry.updSeq e.arg.toNat .secondary fun x => x.stopped).core e.arg.toNat
        = { s.core e.arg.toNat with sec := (s.core e.arg.toNat).sec.stopped } :=
      (State.core_updCore (s := s.pastEntry) h.canon.cores _ _ fun k => { k with sec := (s.core e.arg.toNat).sec.stopped }).trans (if_pos rfl)
    refine ⟨_, next_of_ifOk (hstop h) hok, rfl, rfl, ?_, ?_, ?_, ?_, ?_, rfl⟩
    · exact congrArg (fun k : Core => k.sec.run) hcore
    · exact congrArg (fun k : Core => k.sec.hold) hcore
    · exact (congrArg (fun k : Core => k.sec.queue) hcore :)
    · exact (congrArg Core.prim hcore :)
    · exact List.mem_append_right _ (List.mem_singleton.2 rfl)
  · refine refused_of_ifOk (hstop h) ?_
    rw [beq_eq_false_iff_ne.2 hrun, Bool.and_false]

/-! ### Loose mode and pre-emption -/

/-- The mode of the tasks that start from now on. -/
def Mooring.withLooseNext (k : Mooring) (b : Bool) : Mooring := { k with looseNext := b }

/-- A forced pre-emption is requested. -/
def Mooring.askPreempt (k : Mooring) (seq : Nat) : Mooring := { k with preempt := k.preempt ++ [seq] }

theorem modeAndPreemptionCommands : Spec.ModeAndPreemptionCommands := by
  intro s e m hm
  subst hm
  have hloose : ∀ h : Entry s e true true 0, exec (.setLooseMode e) s = .next (s.pastEntry.ifOk e
      ((s.moor e.mooring.toNat).loaded && decide (e.arg.toNat ≤ 1))
      fun t => (t.updMoor e.mooring.toNat fun k => k.withLooseNext (e.arg == 1)).done e) :=
    fun h => State.command_entry h (by decide) rfl _
  have hpre : ∀ h : Entry s e true false 0, exec (.requestForcedPreemption e) s = .next (s.pastEntry.ifOk e
      ((s.moor e.mooring.toNat).st == .running)
      fun t => t.updMoor e.mooring.toNat fun k => k.askPreempt e.seq) :=
    fun h => State.command_entry h (by decide) rfl _
  refine ⟨fun h hload harg => ?_, fun h hbad => ?_, fun h hst => ?_, fun h hst => ?_⟩
  · have hok : ((s.moor e.mooring.toNat).loaded && decide (e.arg.toNat ≤ 1)) = true := by
      rw [hload, decide_eq_true harg]
      rfl
    exact ⟨_, next_of_ifOk (hloose h) hok, ⟨rfl, rfl⟩, congrArg Mooring.looseNext (State.moor_updMoor h.mooring s.pastEntry fun k => k.withLooseNext (e.arg == 1)),
      (congrArg Mooring.loose (State.moor_updMoor h.mooring s.pastEntry fun k => k.withLooseNext (e.arg == 1)) :)⟩
  · refine refused_of_ifOk (hloose h) ?_
    obtain hl | ha := hbad
    · rw [hl, Bool.false_and]
    · rw [decide_eq_false (by omega), Bool.and_false]
  · exact ⟨_, next_of_ifOk (hpre h) (beq_iff_eq.2 hst), ⟨rfl, rfl, rfl, rfl⟩, congrArg Mooring.preempt (State.moor_updMoor h.mooring s.pastEntry fun k => k.askPreempt e.seq),
      (congrArg Mooring.st (State.moor_updMoor h.mooring s.pastEntry fun k => k.askPreempt e.seq)).trans hst⟩
  · exact refused_of_ifOk (hpre h) (beq_eq_false_iff_ne.2 hst)

/-- Settles O47: an entry is read once it is the next, and each command is its conditions and then its one change. -/
theorem hostCommands : Obligations.HostCommands :=
  ⟨entriesAreChecked, hostRecords, parkedTaskCommands, errorLogCommands, secondaryStreamCommands, modeAndPreemptionCommands⟩

end Sys2Proof.Machine
end

section
/-! SUPPORT. Frames that the Pilot answers, health and attestation (R337, R341, R342): O50. -/

namespace Sys2Proof.Machine
open Config Sys2Proof.Spec

/-! ### Fields of a frame -/

theorem beNum_one (f : List Byte) (n : Nat) : beNum f n 1 = (f.getD n 0).toNat := by
  have hget : f.getD n 0 = (f.drop n).getD 0 0 := by
    rw [List.getD_eq_getElem?_getD, List.getD_eq_getElem?_getD, List.getElem?_drop, Nat.add_zero]
  unfold beNum
  rw [hget]
  cases f.drop n with
  | nil => rfl
  | cons b l => simp

theorem beNum_two (f : List Byte) {n : Nat} (h : n + 1 < f.length) : beNum f n 2 = 256 * (f.getD n 0).toNat + (f.getD (n + 1) 0).toNat := by
  unfold beNum
  rw [List.drop_eq_getElem_cons (show n < f.length by omega), List.drop_eq_getElem_cons h, List.getD_eq_getElem?_getD, List.getD_eq_getElem?_getD,
    List.getElem?_eq_getElem h, List.getElem?_eq_getElem (by omega)]
  show 256 * (256 * 0 + f[n].toNat) + f[n + 1].toNat = _
  rw [Nat.mul_zero, Nat.zero_add]
  rfl

/-- A stretch of a list is what stands between the parts before and after it. -/
theorem take_drop_append {α : Type} {a b : Nat} {A B C : List α} (hA : A.length = a) (hB : B.length = b) : ((A ++ (B ++ C)).drop a).take b = B := by
  subst hA hB
  simp

theorem State.ownIp_iff {s : State} {a : Nat} : s.ownIp a = true ↔ ∃ i, (i, a) ∈ s.ipAddrs := by
  unfold State.ownIp
  simp only [List.any_eq_true, beq_iff_eq, Prod.exists]
  exact ⟨fun ⟨i, _, h, e⟩ => ⟨i, e ▸ h⟩, fun ⟨i, h⟩ => ⟨i, a, h, rfl⟩⟩

/-- A frame for one of the Pilot's addresses has the type and the address that its answer looks for. -/
theorem isIcmp_of_forPilot {s : State} {f : List Byte} {typ n : Nat} (h : ForPilot s f typ n) : (isIcmp f typ && s.ownIp (beNum f n 16)) = true := by
  obtain ⟨h12, h13, h20, h54, htyp⟩ := h.icmp
  obtain ⟨hlen, -⟩ := h.long
  have e12 : beNum f 12 2 = 0x86DD := by
    rw [beNum_two f (by omega), h12, h13]
    rfl
  have e20 : beNum f 20 1 = 58 := by
    rw [beNum_one, h20]
    rfl
  have e54 : beNum f 54 1 = typ := by
    rw [beNum_one, h54, BitVec.toNat_ofNat]
    exact Nat.mod_eq_of_lt htyp
  unfold isIcmp
  rw [State.ownIp_iff.2 h.own, e12, e20, e54, decide_eq_true hlen, beq_self_eq_true, beq_self_eq_true, beq_self_eq_true]
  rfl

theorem length_beBytes (n v : Nat) : (beBytes n v).length = n := (List.length_reverse).trans (length_natBytes n v)

theorem length_ipHead {dmac smac src dst : List Byte} (hd : dmac.length = 6) (hs : smac.length = 6) (hsrc : src.length = 16) (hdst : dst.length = 16)
    (n proto hop : Nat) : (ipHead dmac smac src dst n proto hop).length = 54 := by
  simp only [ipHead, List.length_append, length_beBytes, hd, hs, hsrc, hdst, List.length_cons, List.length_nil]

/-- Where the parts of an ICMPv6 frame stand. -/
theorem icmpFrame_fields {dmac smac src dst : List Byte} (hd : dmac.length = 6) (hs : smac.length = 6) (hsrc : src.length = 16) (hdst : dst.length = 16)
    (typ code hop : Nat) (rest : List Byte) :
    let r := icmpFrame dmac smac src dst typ code hop rest
    r.take 6 = dmac ∧ (r.drop 22).take 16 = src ∧ (r.drop 38).take 16 = dst ∧ r.getD 54 0 = BitVec.ofNat 8 typ ∧ r.drop 58 = rest := by
  have hhead := length_ipHead hd hs hsrc hdst (4 + rest.length) 58 hop
  obtain ⟨c, hr⟩ : ∃ c, icmpFrame dmac smac src dst typ code hop rest
      = ipHead dmac smac src dst (4 + rest.length) 58 hop ++ ([BitVec.ofNat 8 typ, BitVec.ofNat 8 code] ++ beBytes 2 c ++ rest) := ⟨_, rfl⟩
  have hpre : (dmac ++ smac ++ beBytes 2 0x86DD ++ [(0x60 : Byte), 0, 0, 0] ++ beBytes 2 (4 + rest.length) ++ [BitVec.ofNat 8 58, BitVec.ofNat 8 hop]).length = 22 := by
    simp only [List.length_append, length_beBytes, hd, hs, List.length_cons, List.length_nil]
  refine ⟨?_, ?_, ?_, ?_, ?_⟩
  · rw [hr]
    simp only [ipHead, List.append_assoc]
    exact List.take_left' hd
  · rw [hr, ipHead, List.append_assoc, List.append_assoc]
    exact take_drop_append hpre hsrc
  · rw [hr, ipHead, List.append_assoc]
    exact take_drop_append (by rw [List.length_append, hpre, hsrc]) hdst
  · rw [hr, List.getD_append_right _ _ _ _ (by omega), hhead]
    rfl
  · rw [hr, ← List.append_assoc]
    refine List.drop_left' ?_
    rw [List.length_append, List.length_append, hhead, length_beBytes]
    rfl

theorem length_drop_take {f : List Byte} {a n : Nat} (h : a + n ≤ f.length) : ((f.drop a).take n).length = n := by
  rw [List.length_take, List.length_drop]
  omega

/-- A dropped frame is counted at its port. -/
theorem sget_sset_new {α : Type} [DecidableEq α] {d x : α} (hx : x ≠ d) (n : Nat) : ∀ l : List (Nat × α), sget d (sset d l n x) n = x
  | [] => by simp [sset, hx, sget]
  | (k, v) :: l => by
    by_cases h1 : n < k
    · simp [sset, h1, hx, sget]
    · by_cases h2 : n = k
      · simp [sset, h2, hx, sget]
      · simp only [sset, if_neg h1, if_neg h2, sget]
        exact sget_sset_new hx n l

theorem State.dropFrame_counts (s : State) (p : Nat) : (s.dropFrame p).frames = s.frames ∧ sget 0 (s.dropFrame p).drops p = sget 0 s.drops p + 1
    ∧ (s.dropFrame p).mem = s.mem ∧ (s.dropFrame p).moorings = s.moorings :=
  ⟨rfl, sget_sset_new (Nat.succ_ne_zero _) p s.drops, rfl, rfl⟩

theorem framesAreAnswered : Spec.FramesAreAnswered := by
  intro s p f hp
  refine ⟨fun h => ?_, fun h => ?_, fun hup hown => ?_, fun hup => ?_, fun hup => ⟨?_, ?_⟩⟩
  · obtain ⟨hlen, -⟩ := h.long
    have hx : exec (.icmpv6Echo p f) s = .next { s with frames := s.frames ++ [⟨p, icmpFrame ((f.drop 6).take 6) (macBytes p) ((f.drop 38).take 16)
        ((f.drop 22).take 16) 129 0 64 ((f.drop 58).take (beNum f 18 2 - 4))⟩] } :=
      (if_neg (Nat.not_le.2 hp)).trans ((if_neg (not_not.2 h.up)).trans (if_pos (isIcmp_of_forPilot h)))
    obtain ⟨hdst, hsrc, hto, htyp, hrest⟩ := icmpFrame_fields (dmac := (f.drop 6).take 6) (smac := macBytes p) (length_drop_take (by omega))
      (length_natBytes 6 _) (length_drop_take (a := 38) (n := 16) (f := f) (by omega)) (length_drop_take (a := 22) (n := 16) (f := f) (by omega)) 129 0 64
      ((f.drop 58).take (beNum f 18 2 - 4))
    exact ⟨_, _, hx, rfl, hdst, htyp, hsrc, hto, hrest, rfl, rfl, rfl⟩
  · obtain ⟨hlen, hlong⟩ := h.long
    have hx : exec (.icmpv6NeighbourDiscovery p f) s = .next { s with frames := s.frames ++ [⟨p, icmpFrame ((f.drop 6).take 6) (macBytes p)
        ((f.drop 62).take 16) ((f.drop 22).take 16) 136 0 255 ([0x60, 0, 0, 0] ++ (f.drop 62).take 16 ++ [2, 1] ++ macBytes p)⟩] } :=
      (if_neg (Nat.not_le.2 hp)).trans ((if_neg (not_not.2 h.up)).trans (if_pos (isIcmp_of_forPilot h)))
    have htarget : ((f.drop 62).take 16).length = 16 := length_drop_take (by omega)
    obtain ⟨hdst, -, -, htyp, hrest⟩ := icmpFrame_fields (dmac := (f.drop 6).take 6) (smac := macBytes p) (length_drop_take (by omega))
      (length_natBytes 6 _) htarget (length_drop_take (a := 22) (n := 16) (f := f) (by omega)) 136 0 255
      ([0x60, 0, 0, 0] ++ (f.drop 62).take 16 ++ [2, 1] ++ macBytes p)
    refine ⟨_, _, hx, rfl, hdst, htyp, ?_, ?_, rfl, rfl, rfl⟩
    · rw [show 62 = 58 + 4 from rfl, ← List.drop_drop, hrest, List.append_assoc, List.append_assoc]
      exact take_drop_append rfl htarget
    · rw [show 80 = 58 + 22 from rfl, ← List.drop_drop, hrest]
      exact List.drop_left' (by simp only [List.length_append, htarget, List.length_cons, List.length_nil])
  · have hno : ¬(isIcmp f 128 && s.ownIp (beNum f 38 16)) = true := by
      rw [Bool.and_eq_true, State.ownIp_iff]
      exact fun ⟨_, i, hi⟩ => hown i hi
    obtain ⟨hf, hd, -, -⟩ := s.dropFrame_counts p
    exact ⟨_, (if_neg (Nat.not_le.2 hp)).trans ((if_neg (not_not.2 hup)).trans (if_neg hno)), hf, hd⟩
  · obtain ⟨hf, hd, hm, hmo⟩ := s.dropFrame_counts p
    exact ⟨_, (if_neg (Nat.not_le.2 hp)).trans (congrArg Host.Outcome.next (if_pos hup)), hf, hd, hm, hmo⟩
  · exact (if_neg (Nat.not_le.2 hp)).trans (congrArg Host.Outcome.next (if_neg hup))
  · exact (if_neg (Nat.not_le.2 hp)).trans (if_pos hup)

/-! ### Health and attestation -/

/-- The management firmware is loaded. -/
theorem any_management_iff {l : List FwImage} : (l.any fun i => i.kind == .management) = true ↔ ∃ i ∈ l, i.kind = .management := by
  simp only [List.any_eq_true, beq_iff_eq]

theorem healthAndAttestation : Spec.HealthAndAttestation := by
  intro s nonce v
  have hnone : (∀ i ∈ s.images, i.kind ≠ .management) → ¬(s.images.any fun i => i.kind == .management) = true := by
    rw [any_management_iff]
    exact fun h ⟨i, hi, hk⟩ => h i hi hk
  refine ⟨fun hlen hfw => ?_, fun hno => ?_, fun hup hfw => ?_, fun hbad => ?_⟩
  · refine ⟨_, congrArg Host.Outcome.next (if_pos ⟨hlen, any_management_iff.2 hfw⟩), ?_, rfl, rfl, rfl⟩
    show (s.report nonce).take 32 = nonce
    unfold State.report
    simp only [List.append_assoc]
    exact List.take_left' hlen
  · exact congrArg Host.Outcome.next (if_neg fun h => hnone hno h.2)
  · refine ⟨_, congrArg Host.Outcome.next (if_pos ⟨hup, any_management_iff.2 hfw⟩), ?_, rfl, rfl, rfl, rfl⟩
    show (v &&& 0x00FFFFFFFFFFFFFF).toNat = v.toNat % 2 ^ 56
    rw [BitVec.toNat_and]
    exact Nat.and_two_pow_sub_one_eq_mod v.toNat 56
  · refine congrArg Host.Outcome.next (if_neg fun ⟨hup, hany⟩ => ?_)
    exact hbad.elim (fun h => h hup) fun h => hnone h hany

end Sys2Proof.Machine
end

section
/-! SUPPORT. Power-on reset, heat and frame boundaries (R52, R215, R226, R232, R340, R343): O50. -/

namespace Sys2Proof.Machine
open Config Sys2Proof.Spec

/-! ### Power-on reset -/

/-- Reading a sparse map that a function gives its entries. -/
theorem sget_filterMap_range' {α : Type} (d : α) (f : Nat → Option α) (c : Nat) :
    ∀ n a, sget d ((List.range' a n).filterMap fun k => (f k).map (k, ·)) c = if a ≤ c ∧ c < a + n then (f c).getD d else d
  | 0, a => (if_neg fun ⟨_, _⟩ => by omega).symm
  | n + 1, a => by
    have ih := sget_filterMap_range' d f c n (a + 1)
    rw [List.range'_succ, List.filterMap_cons]
    by_cases hlt : c < a
    · cases hf : f a with
      | none =>
        show sget d ((List.range' (a + 1) n).filterMap _) c = _
        rw [ih, if_neg (by omega), if_neg (by omega)]
      | some v =>
        show (if c < a then d else _) = _
        rw [if_pos hlt, if_neg (by omega)]
    · by_cases heq : c = a
      · subst heq
        cases hf : f c with
        | none =>
          show sget d ((List.range' (c + 1) n).filterMap _) c = _
          rw [ih, if_neg (by omega), if_pos (by omega)]
          rfl
        | some v =>
          show (if c < c then d else if c = c then v else _) = _
          rw [if_neg hlt, if_pos rfl, if_pos (by omega)]
          rfl
      · have hrest : sget d ((List.range' (a + 1) n).filterMap fun k => (f k).map (k, ·)) c = if a ≤ c ∧ c < a + (n + 1) then (f c).getD d else d := by
          rw [ih]
          exact if_congr (by omega) rfl rfl
        cases hf : f a with
        | none => exact hrest
        | some v =>
          show (if c < a then d else if c = a then v else _) = _
          rw [if_neg hlt, if_neg heq]
          exact hrest

/-- The parameters that the Pilot gives a channel's checker from its stack's block (R226). -/
def blockParams (v : Vector Nat 15) : Vector Nat 15 :=
  Vector.ofFn fun (i : Fin 15) => if inRange v[i] (paramRanges.getD i.val (1, 0)) then v[i] else defaultParams[i]

/-- A channel's checker is programmed from its stack's block. -/
theorem stackChannels_params (l : List (Nat × Vector Nat 15)) {ch : Nat} (h : ch < nChannels) :
    (sget Channel.init (stackChannels l) ch).params = blockParams (sget defaultParams l (ch / 32)) := by
  have heq : stackChannels l = (List.range' 0 nChannels).filterMap fun ch =>
      (if blockParams (sget defaultParams l (ch / 32)) = defaultParams then none
        else some { Channel.init with params := blockParams (sget defaultParams l (ch / 32)) }).map (ch, ·) := by
    unfold stackChannels
    rw [List.range_eq_range']
    refine congrArg (fun f => List.filterMap f (List.range' 0 nChannels)) (funext fun ch => ?_)
    show (if blockParams (sget defaultParams l (ch / 32)) = defaultParams then none else _) = _
    split <;> rfl
  rw [heq, sget_filterMap_range', if_pos ⟨Nat.zero_le _, by omega⟩]
  split
  · exact Eq.symm ‹_›
  · rfl

theorem State.bootFails_of_one {s : State} {i : FwImage} (hf : s.flash = [i]) (hk : i.kind = .pilot) : s.bootFails = s.fwFails i := by
  have hfilter : [i].filter (fun i => i.kind == .pilot) = [i] := List.filter_cons_of_pos (beq_iff_eq.2 hk)
  unfold State.bootFails
  rw [hf, hfilter]

theorem State.bootFails_of_none {s : State} (h : ∀ i ∈ s.flash, i.kind ≠ .pilot) : s.bootFails = 5 := by
  unfold State.bootFails
  rw [List.filter_eq_nil_iff.2 fun i hi => by rw [beq_iff_eq]; exact h i hi]

/-- An image that fails no check has its digest, its signatures and its version (R340). -/
theorem State.fwFails_eq_zero {s : State} {i : FwImage} (h : s.fwFails i = 0) : i.digest = sha384 i.body ∧ ed25519Ok (fusedKey 0) i.body i.ed25519 = true
    ∧ mlDsaOk (fusedKey 1) i.body i.mldsa = true ∧ sget 0 s.fuses (fwCode i.kind) ≤ i.version := by
  unfold State.fwFails at h
  by_cases hd : (i.digest != sha384 i.body) = true
  · rw [if_pos hd] at h
    exact absurd h (by decide)
  · rw [if_neg hd] at h
    by_cases he : (!(decide (i.ed25519.length = 64) && ed25519Ok (fusedKey 0) i.body i.ed25519)) = true
    · rw [if_pos he] at h
      exact absurd h (by decide)
    · rw [if_neg he] at h
      by_cases hm : (!(decide (i.mldsa.length = 3309) && mlDsaOk (fusedKey 1) i.body i.mldsa)) = true
      · rw [if_pos hm] at h
        exact absurd h (by decide)
      · rw [if_neg hm] at h
        by_cases hv : i.version < sget 0 s.fuses (fwCode i.kind)
        · rw [if_pos hv] at h
          exact absurd h (by decide)
        · rw [Bool.not_eq_true', Bool.not_eq_false, Bool.and_eq_true] at he hm
          exact ⟨by rwa [bne_iff_ne, not_not] at hd, he.2, hm.2, Nat.not_lt.1 hv⟩

theorem State.rebooted_boot (s : State) : s.rebooted.boot = if s.bootFails = 0 then .up else .boot s.bootFails := rfl

theorem State.bootFails_of_up {s : State} (h : s.rebooted.boot = .up) : s.bootFails = 0 := by
  rw [State.rebooted_boot] at h
  by_contra hne
  rw [if_neg hne] at h
  exact BootSt.noConfusion h

theorem powerOnResets : Spec.PowerOnResets := by
  intro s
  refine ⟨s.rebooted, rfl, rfl, rfl, rfl, rfl, fun i => ?_, fun i hf hk h0 => ?_, fun i hf hk h0 => ?_, fun hno => ?_, fun hboot => ?_, fun hboot ch hch i => ?_,
    fun i h => State.fwFails_eq_zero h⟩
  · show i ∈ s.flash.filter (fun i => s.fwFails i == 0) ↔ _
    rw [List.mem_filter, beq_iff_eq]
  · rw [State.rebooted_boot, State.bootFails_of_one hf hk, if_pos h0]
  · rw [State.rebooted_boot, State.bootFails_of_one hf hk, if_neg h0]
  · rw [State.rebooted_boot, State.bootFails_of_none hno]
    exact nofun
  · refine if_neg fun h0 => hboot ?_
    rw [State.rebooted_boot, if_pos h0]
  · have hchan : s.rebooted.channels = stackChannels s.stackPar := if_pos (State.bootFails_of_up hboot)
    have hparams : (s.rebooted.chan ch).params = blockParams (sget defaultParams s.stackPar (ch / 32)) := by
      rw [State.chan, hchan, stackChannels_params s.stackPar hch]
    rw [hparams]
    exact Vector.getElem_ofFn i.isLt

/-! ### Heat -/

theorem State.moor_updMoor_of_ne {m j : Nat} (h : j ≠ m) (s : State) (f : Mooring → Mooring) : (s.updMoor m f).moor j = s.moor j := by
  show (s.moorings.setIfInBounds m (f (s.moor m))).getD j Mooring.init = s.moorings.getD j Mooring.init
  generalize f (s.moor m) = k
  by_cases hj : j < 12
  · simp [Vector.getD, Array.getD, hj, h.symm]
  · simp [Vector.getD, Array.getD, hj]

/-- A fault that no core raises changes no memory, and of the moorings its own only. -/
theorem State.taskFault_keeps (s : State) (m : Nat) (xinfo : Word) : (s.taskFault m xinfo).now = s.now ∧ (s.taskFault m xinfo).mem = s.mem
    ∧ (s.taskFault m xinfo).thermalHold = s.thermalHold ∧ ∀ j, j ≠ m → (s.taskFault m xinfo).moor j = s.moor j := by
  obtain ⟨t, ht⟩ : ∃ t, t = s.faultRecord m (s.moor m).task 0xFFFF 0x20 false xinfo 0 0 := ⟨_, rfl⟩
  obtain ⟨hnow, -, hmo⟩ := State.faultRecord_fields s m (s.moor m).task 0xFFFF 0x20 false xinfo 0 0
  have hkeep : t.mem = s.mem ∧ t.thermalHold = s.thermalHold := by
    rw [ht]
    unfold State.faultRecord
    split <;> exact ⟨rfl, rfl⟩
  unfold State.taskFault
  rw [← ht] at hnow hmo ⊢
  obtain h | h := State.beginDiscard_cases t m 0
  · rw [h]
    exact ⟨hnow, hkeep.1, hkeep.2, fun j _ => State.moor_of_moorings hmo j⟩
  · rw [h]
    exact ⟨hnow, hkeep.1, hkeep.2, fun j hj => (State.moor_updMoor_of_ne hj t _).trans (State.moor_of_moorings hmo j)⟩

theorem State.taskFault_st {s : State} {m : Nat} (hm : m < nMoorings) (xinfo : Word) (h : (s.moor m).st = .running) :
    ((s.taskFault m xinfo).moor m).st = .ending (s.now + 8) := by
  obtain ⟨hnow, -, hmo⟩ := State.faultRecord_fields s m (s.moor m).task 0xFFFF 0x20 false xinfo 0 0
  unfold State.taskFault
  rw [State.beginDiscard_st hm, hnow]
  rw [State.moor_of_moorings hmo, h]
  exact List.mem_cons_self ..

/-- Each mooring of a list faults its task: the discards begin, and no other mooring changes. -/
theorem State.foldl_taskFault : ∀ (l : List Nat) (s : State), l.Nodup →
    ((l.foldl (fun t m => t.taskFault m 0) s).mem = s.mem ∧ (l.foldl (fun t m => t.taskFault m 0) s).thermalHold = s.thermalHold)
      ∧ (∀ m ∈ l, m < nMoorings → (s.moor m).st = .running → ((l.foldl (fun t m => t.taskFault m 0) s).moor m).st = .ending (s.now + 8))
      ∧ ∀ j, j ∉ l → (l.foldl (fun t m => t.taskFault m 0) s).moor j = s.moor j
  | [], _, _ => ⟨⟨rfl, rfl⟩, nofun, fun _ _ => rfl⟩
  | a :: l, s, hnd => by
    obtain ⟨ha, hl⟩ := List.nodup_cons.1 hnd
    obtain ⟨hnow, hmem, hheat, hother⟩ := s.taskFault_keeps a 0
    obtain ⟨⟨imem, iheat⟩, iends, ikeeps⟩ := State.foldl_taskFault l (s.taskFault a 0) hl
    refine ⟨⟨imem.trans hmem, iheat.trans hheat⟩, fun m hm hlt hst => ?_, fun j hj => ?_⟩
    · by_cases hma : m = a
      · subst hma
        exact (congrArg Mooring.st (ikeeps m ha)).trans (State.taskFault_st hlt 0 hst)
      · rw [← hnow]
        exact iends m ((List.mem_cons.1 hm).resolve_left hma) hlt (by rw [hother m hma, hst])
    · obtain ⟨hja, hjl⟩ := not_or.1 (mt List.mem_cons.2 hj)
      exact (ikeeps j hjl).trans (hother j hja)

theorem State.taskRuns_iff {s : State} {m : Nat} : s.taskRuns m = true ↔ (s.moor m).st = .running ∨ (s.moor m).st = .parking := by
  unfold State.taskRuns
  cases (s.moor m).st <;> simp

theorem State.failSlots_slots {s : State} {m : Nat} (hm : m < nMoorings) (n info : Nat) :
    ((s.failSlots m n info).moor m).st = (s.moor m).st ∧ ∀ p ∈ ((s.failSlots m n info).moor m).slots, p.task ≠ n := by
  rw [State.failSlots_moor hm]
  exact ⟨rfl, fun p hp => bne_iff_ne.1 (List.mem_filter.1 hp).2⟩

theorem thermalEvents : Spec.ThermalEvents := by
  intro s hup
  refine ⟨?_, fun m n hm hheat hstart => ?_, rfl⟩
  · obtain ⟨ms, hms⟩ : ∃ ms, ms = (List.range nMoorings).filter s.taskRuns := ⟨_, rfl⟩
    obtain ⟨u, hu⟩ : ∃ u : State, u = { s with thermalHold := true } := ⟨_, rfl⟩
    have hmem : ∀ m, m ∈ ms ↔ m < nMoorings ∧ ((s.moor m).st = .running ∨ (s.moor m).st = .parking) := by
      intro m
      rw [hms, List.mem_filter, List.mem_range, State.taskRuns_iff]
    have hx : exec .thermalLimit s = .next (if ms.isEmpty then u.faultRecord 0 0 0xFFFF 0x20 false 0 0 0 else ms.foldl (fun t m => t.taskFault m 0) u) := by
      rw [hms, hu]
      exact if_neg (not_not.2 hup)
    by_cases hempty : ms.isEmpty = true
    · rw [if_pos hempty] at hx
      have hnil := List.isEmpty_iff.1 hempty
      have hmo := (State.faultRecord_fields u 0 0 0xFFFF 0x20 false 0 0 0).2.2
      refine ⟨_, hx, ?_, ?_, fun m hm hst => ?_, fun m hm _ _ => (State.moor_of_moorings hmo m).trans (by rw [hu]; rfl)⟩
      · unfold State.faultRecord
        rw [hu]
        split <;> rfl
      · unfold State.faultRecord
        rw [hu]
        split <;> rfl
      · exact absurd ((hmem m).2 ⟨hm, .inl hst⟩) (by rw [hnil]; exact List.not_mem_nil)
    · rw [if_neg hempty] at hx
      have hnd : ms.Nodup := hms ▸ List.nodup_range.filter _
      obtain ⟨⟨hm, hh⟩, hends, hkeeps⟩ := State.foldl_taskFault ms u hnd
      rw [hu] at hm hh hends hkeeps hx
      refine ⟨_, hx, hh, hm, fun m hlt hst => hends m ((hmem m).2 ⟨hlt, .inl hst⟩) hlt hst, fun m hlt h1 h2 => hkeeps m fun hin => ?_⟩
      exact ((hmem m).1 hin).2.elim h1 h2
  · have hx : exec (.taskStart m) s = .next (s.failSlots m n 0) := by
      show execTaskStart m s = _
      unfold execTaskStart
      rw [if_pos hm, hstart]
      dsimp only
      rw [if_neg fun ⟨_, _, h, _⟩ => absurd (hheat.symm.trans h) (by decide)]
    exact ⟨_, hx, State.failSlots_slots hm n 0⟩

/-! ### Frame boundaries -/

/-- Every channel of a list takes a new value: the channel c is either listed, and has its new value, or as it was. -/
theorem State.foldl_setChan (g : Channel → Channel) (c : Nat) : ∀ {l : List (Nat × Channel)} {b : Nat} {t : State}, swf Channel.init b l = true →
    Tidy Channel.init t.channels → (l.foldl (fun t e => t.setChan e.1 (g e.2)) t).chan c
      = if c ∈ l.map (·.1) then g (sget Channel.init l c) else t.chan c
  | [], _, _, _, _ => (if_neg List.not_mem_nil).symm
  | (k, v) :: l, b, t, hw, ht => by
    have hkeys := keys_of_swf hw
    simp only [swf, Bool.and_eq_true] at hw
    have ih := State.foldl_setChan g c (t := t.setChan k (g v)) hw.2 (State.tidy_setChan ht k _)
    obtain ⟨hlow, -⟩ := keys_of_swf hw.2
    refine ih.trans ?_
    rw [State.chan_setChan ht]
    by_cases hck : c = k
    · subst hck
      have hnot : c ∉ l.map (·.1) := fun h => absurd (hlow c h) (by omega)
      rw [if_neg hnot, if_pos rfl, List.map_cons, if_pos (List.mem_cons_self ..)]
      simp [sget]
    · have hin : c ∈ ((k, v) :: l).map (·.1) ↔ c ∈ l.map (·.1) := by simp [hck]
      rw [if_neg hck]
      by_cases hc : c ∈ l.map (·.1)
      · have hge := hlow c hc
        rw [if_pos hc, if_pos (hin.2 hc)]
        show _ = g (if c < k then Channel.init else if c = k then v else sget Channel.init l c)
        rw [if_neg (by omega), if_neg hck]
      · rw [if_neg hc, if_neg (mt hin.1 hc)]

/-- A channel after a written map has come into force, if it may (R215). -/
def State.withMap (s : State) (k : Channel) : Channel :=
  match k.newMap with
  | some n => if s.mapFree k.map n then { k with map := n, newMap := none } else k
  | none => k

/-- A channel after its trackers have cleared, every REFW frames (R232). -/
def State.cleared (s : State) (k : Channel) : Channel :=
  if s.now / frameCycles % k.refw = 0 then { k with banks := k.banks.map fun e => (e.1, { e.2 with tracker := [] }) } else k

/-- A channel whose disturb backlog has ended has its map back. -/
def Channel.mapBack (k : Channel) : Channel := if k.backlog && k.banks.all fun e => e.2.dq.isEmpty then { k with backlog := false } else k

theorem State.frameOf_eq (s : State) (k : Channel) : s.frameOf k = (s.cleared (s.withMap k)).mapBack := rfl

theorem Channel.mapBack_fields (k : Channel) : k.mapBack.map = k.map ∧ k.mapBack.newMap = k.newMap ∧ k.mapBack.banks = k.banks := by
  unfold Channel.mapBack
  split <;> exact ⟨rfl, rfl, rfl⟩

theorem State.cleared_fields (s : State) (k : Channel) : (s.cleared k).map = k.map ∧ (s.cleared k).newMap = k.newMap
    ∧ (s.now / 10368 % k.refw = 0 → ∀ e ∈ (s.cleared k).banks, e.2.tracker = []) := by
  unfold State.cleared
  split
  · refine ⟨rfl, rfl, fun _ e he => ?_⟩
    obtain ⟨x, -, rfl⟩ := List.mem_map.1 he
    rfl
  · exact ⟨rfl, rfl, fun h => absurd h ‹_›⟩

theorem State.withMap_some {s : State} {k : Channel} {n : Vector (BitVec 64) 3} (h : k.newMap = some n) :
    s.withMap k = if s.mapFree k.map n then { k with map := n, newMap := none } else k := by
  unfold State.withMap
  rw [h]

theorem State.withMap_none {s : State} {k : Channel} (h : k.newMap = none) : s.withMap k = k := by
  unfold State.withMap
  rw [h]

theorem State.withMap_refw (s : State) (k : Channel) : (s.withMap k).refw = k.refw := by
  unfold State.withMap
  split
  · split <;> rfl
  · rfl

/-- What a frame boundary does to a channel's map, its written map and its trackers (R215, R232). -/
theorem State.frameOf_fields (s : State) (k : Channel) :
    (∀ n, k.newMap = some n → s.mapFree k.map n = true → (s.frameOf k).map = n ∧ (s.frameOf k).newMap = none)
    ∧ (∀ n, k.newMap = some n → s.mapFree k.map n = false → (s.frameOf k).map = k.map ∧ (s.frameOf k).newMap = some n)
    ∧ (k.newMap = none → (s.frameOf k).map = k.map)
    ∧ (s.now / 10368 % k.refw = 0 → ∀ e ∈ (s.frameOf k).banks, e.2.tracker = []) := by
  obtain ⟨hmap, hnew, hbanks⟩ := (s.cleared (s.withMap k)).mapBack_fields
  obtain ⟨cmap, cnew, ctrack⟩ := s.cleared_fields (s.withMap k)
  rw [State.frameOf_eq, hmap, hnew, hbanks, cmap, cnew]
  refine ⟨fun n hn hfree => ?_, fun n hn hfree => ?_, fun hn => ?_, fun hr => ctrack (by rw [State.withMap_refw, hr])⟩
  · rw [State.withMap_some hn, if_pos hfree]
    exact ⟨rfl, rfl⟩
  · rw [State.withMap_some hn, hfree]
    exact ⟨rfl, hn⟩
  · rw [State.withMap_none hn]

/-- The reports of a pass period that cannot be met change nothing that runs. -/
theorem State.patrolShort_fields (s : State) : s.patrolShort.mem = s.mem ∧ s.patrolShort.cores = s.cores ∧ s.patrolShort.moorings = s.moorings
    ∧ s.patrolShort.channels = s.channels := by
  unfold State.patrolShort
  dsimp only
  split
  · refine ⟨foldl_keeps State.mem ?_ _ _, foldl_keeps State.cores ?_ _ _, foldl_keeps State.moorings ?_ _ _, foldl_keeps State.channels ?_ _ _⟩
    all_goals exact fun _ _ => rfl
  · exact ⟨rfl, rfl, rfl, rfl⟩

theorem frameBoundaries : Spec.FrameBoundaries := by
  intro s c hs
  obtain ⟨u, hu⟩ : ∃ u : State, u = s.channels.foldl (fun t e => t.setChan e.1 (s.frameOf e.2)) s := ⟨_, rfl⟩
  have hkeep : u.mem = s.mem ∧ u.cores = s.cores ∧ u.moorings = s.moorings := by
    rw [hu]
    refine ⟨foldl_keeps State.mem ?_ _ _, foldl_keeps State.cores ?_ _ _, foldl_keeps State.moorings ?_ _ _⟩
    all_goals exact fun _ _ => rfl
  obtain ⟨hmem, hcores, hmo, hchannels⟩ := u.patrolShort_fields
  have hchan : u.patrolShort.chan c = if c ∈ s.channels.map (·.1) then s.frameOf (s.chan c) else s.chan c := by
    rw [State.chan, hchannels, hu]
    exact State.foldl_setChan s.frameOf c hs.channels hs.channels
  have hx : exec .frameBoundary s = .next u.patrolShort := by
    rw [hu]
    rfl
  refine ⟨_, hx, hmem.trans hkeep.1, hcores.trans hkeep.2.1, hmo.trans hkeep.2.2, ?_⟩
  rw [hchan]
  split
  · exact s.frameOf_fields (s.chan c)
  · have hinit : s.chan c = Channel.init := sget_of_not_mem ‹_›
    rw [hinit]
    exact ⟨nofun, nofun, fun _ => rfl, fun _ _ => nofun⟩

/-- Settles O50: each event of the network and of the platform is its condition and its one change. -/
theorem networkAndPlatformEvents : Obligations.NetworkAndPlatformEvents :=
  ⟨framesAreAnswered, healthAndAttestation, powerOnResets, thermalEvents, frameBoundaries⟩

end Sys2Proof.Machine
end

section
/-! SUPPORT. What the machine holds right after power-on reset: O58. -/

namespace Sys2Proof.Machine
open Config Sys2Proof.Spec

theorem vector_getD_replicate {α : Type} (n : Nat) (x : α) (i : Nat) : (Vector.replicate n x).getD i x = x := by
  by_cases h : i < n <;> simp [Vector.getD, Array.getD, h]

/-- Every mooring is empty right after reset. -/
theorem State.reset_moor (m : Nat) : State.reset.moor m = Mooring.init := vector_getD_replicate 12 Mooring.init m

/-- Both sequencers of every core are in their first state right after reset. -/
theorem State.reset_seq (c : Nat) : ∀ q, State.reset.seq c q = SeqState.init
  | .primary => rfl
  | .secondary => rfl

/-- The watch registers hold the null item right after reset (R59). -/
theorem SeqState.init_wt : ∀ i : Fin 4, SeqState.init.wt.getD i.val 0 = 0x8000000000000000 := by decide

/-- The default map gives the house 4 windows, the open share 8, and each mooring 3 (R216). -/
theorem defaultMap_codes : ∀ w < 48, mapCode defaultMap w = if w % 12 = 0 then 12 else if 10 ≤ w % 12 then 13 else (9 * (w / 12) + w % 12 - 1) % 12 := by
  decide

/-- Settles O58: right after reset every sparse part of the state is empty, so that each reads as its initial value. -/
theorem resetState : Obligations.ResetState := by
  refine ⟨reset_formed, rfl, rfl, fun c => ⟨rfl, rfl, rfl, rfl, fun j => ⟨rfl, rfl⟩, fun q i => ?_⟩, fun ch m => ?_, fun ch w hw => ?_, fun ch => ?_, fun m => ?_⟩
  · rw [State.reset_seq]
    exact ⟨rfl, rfl, rfl, SeqState.init_wt ⟨i % 4, Nat.mod_lt i (by decide)⟩⟩
  · exact ⟨vector_getD_replicate 12 0 m, vector_getD_replicate 12 0 m⟩
  · exact defaultMap_codes w hw
  · rfl
  · rw [State.reset_moor]
    exact ⟨rfl, rfl⟩

end Sys2Proof.Machine
end

section
/-! SUPPORT. Single loads and stores (R80, R149, R204, R387, R388, R408, R409): what `LD`, `LDS`, `ST` and `STS` bring to perform, from the
effect of one element of a transfer (O9). -/

namespace Sys2Proof.Machine
open Config Sys2Proof.Spec

/-! ### One element of a transfer -/

namespace State.Brings
variable {s t : State} {accs : List Access} {es : List QEntry}

/-- Nothing that a syllable brings changes how its addresses translate. -/
theorem vplace (h : s.Brings t accs es) (va : Nat) (p : Perm) : t.vplace va p = s.vplace va p := by
  obtain ⟨⟨cs, hs, rfl⟩, -⟩ := h
  rfl

theorem planeOff (h : s.Brings t accs es) (off : Nat) : t.planeOff off = s.planeOff off := by
  unfold State.planeOff
  rw [h.cur]

/-- An element that a load reads, after as many others: its access and its result, `lat` cycles after the issue. -/
theorem loadGo (h : s.Brings t accs es) (sp : Space) (off n : Nat) (sx plane : Bool) (d : RRef) (lat : Nat) :
    s.Brings (t.loadGo sp off n sx plane d accs.length lat)
      (accs ++ [loads s sp off n sx plane accs.length (lat - (spaceLd sp + accs.length))])
      (es ++ [Spec.held s sp d (s.now + lat) (s.nextId + accs.length)]) := by
  unfold State.loadGo
  dsimp only
  rw [h.now, h.ctx, h.nextId, h.waitsIn, h.planeOff, h.vplace, reach_eq]
  exact ((h.holdSent sp _ _).addAccess _ _ _ false sp .m _).pushHeld sp d _ _

/-- An element that a store writes, after as many others. -/
theorem storeGo (h : s.Brings t accs es) (sp : Space) (off n : Nat) (plane : Bool) (v : Reg) :
    s.Brings (t.storeGo sp off n plane v accs.length) (accs ++ [stores s sp off n plane v accs.length]) es := by
  unfold State.storeGo
  dsimp only
  rw [h.now, h.ctx, h.nextId, h.waitsIn, h.planeOff, h.vplace, reach_eq]
  exact (h.holdSent sp _ _).addAccess _ _ _ true sp .m _

end State.Brings

/-! ### The forms of `LD`, `LDS`, `ST` and `STS` -/

theorem loads_of_load {i : Instr} {s : State} {addr : List RRef} {d : RRef} {sp : Space} {off n : Nat} {sx plane : Bool}
    (he : exec i s = s.load addr d sp off n sx plane) : Loads i s addr d sp off n sx plane := by
  intro hc hs hl
  have hgo := (s.brings_holding .m Nat.one_pos).loadGo sp off n sx plane d (spaceLd sp + if plane then 1 else 0)
  rw [List.length_nil, Nat.add_zero, Nat.add_zero, Nat.add_sub_cancel_left, loadLat_eq, ← Nat.add_assoc] at hgo
  rw [← loadLat_eq] at hc
  dsimp only [State.load] at he
  refine exec_of_issue he hc ?_ (fun _ => State.loadUses_of_mayLoad hl) ?_
  · exact List.append_eq_nil_iff.2 ⟨State.loadTraps_of_mayLoad hl 0, State.poisonTraps_of_sound hs .m⟩
  · rw [loadLat_eq]
    exact hgo.adds

theorem stores_of_store {i : Instr} {s : State} {addr : List RRef} {data : RRef} {sp : Space} {off n : Nat} {plane : Bool}
    (he : exec i s = s.store addr data sp off n plane) : Stores i s addr data sp off n plane := by
  intro hc hs hm
  refine exec_of_issue he hc ?_ (fun _ => State.storeUses_of_mayStore hm) ?_
  · exact List.append_eq_nil_iff.2 ⟨State.storeTraps_of_mayStore hm 0, State.poisonTraps_of_sound hs .m⟩
  · exact ((s.brings_holding .m Nat.one_pos).storeGo sp off n plane (s.rd data)).adds

theorem loadsSchedule : Spec.LoadsSchedule := by
  refine ⟨fun s d a b sp sz sc sx => ?_, fun s d base sz sp off => ?_, fun s d a b sp sz sc sx => ?_, fun s d base sz sp off => ?_⟩
  · exact loads_of_load rfl
  · rw [← offset_eq]
    exact loads_of_load rfl
  · exact loads_of_load rfl
  · rw [← offset_eq]
    exact loads_of_load rfl

theorem storesSchedule : Spec.StoresSchedule := by
  refine ⟨fun s o a sp sz sc => ?_, fun s d base sz sp off => ?_, fun s o a sp sz sc => ?_, fun s d base sz sp off => ?_⟩
  · exact stores_of_store rfl
  · rw [← offset_eq]
    exact stores_of_store rfl
  · exact stores_of_store rfl
  · rw [← offset_eq]
    exact stores_of_store rfl

/-- Settles O9: each form is the one load, or the one store, of its address. -/
theorem loadsAndStoresSchedule : Obligations.LoadsAndStoresSchedule := ⟨loadsSchedule, storesSchedule⟩

end Sys2Proof.Machine
end

section
/-! SUPPORT. System registers (R74, R83, R382, R413, R414, R447): what `SYSRD` delivers of each, which writes go through and when they take effect,
and which fault (O21). -/

namespace Sys2Proof.Machine
open Config Sys2Proof.Spec

/-! ### Reads -/

/-- A register of the core's mooring reads 0 where no loaded mooring owns the core (log 39). -/
theorem moorOr_eq (s : State) (f : Mooring → Word) : moorOr s f = match (s.moorOf s.ctx.core).map s.moor with
    | some y => f y
    | none => 0 := by
  unfold moorOr
  cases s.moorOf s.ctx.core <;> rfl

theorem State.flagsNow_of_noAccess {s : State} (h : s.accesses = []) (c : Nat) (q : Seq) : s.flagsNow c q = (s.seq c q).flags := by
  unfold State.flagsNow
  rw [h]
  rfl

theorem SeqState.tclk_of_running {x : SeqState} (h : x.frozen = none) (now : Nat) : x.tclk now = now - x.tbase := by
  unfold SeqState.tclk
  rw [h]

/-- The four watch registers stand in a row from 0x18 on. -/
theorem State.sysValue_watch (s : State) (c : Nat) (q : Seq) {k : Nat} (hk : k < 4) : s.sysValue c q (0x18 + k) = (s.seq c q).wt.getD k 0 := by
  unfold State.sysValue
  simp (disch := omega) only [if_neg, if_pos, Nat.add_sub_cancel_left]
  rfl

theorem systemRegisterReads : Spec.SystemRegisterReads := by
  intro s
  have hflags : s.accesses = [] → s.sysValue s.ctx.core s.ctx.q 0x05 = s.cur.flags.setWidth 64 := fun h =>
    congrArg (BitVec.setWidth 64) (State.flagsNow_of_noAccess h _ _)
  have htclk : s.cur.frozen = none → s.sysValue s.ctx.core s.ctx.q 0x01 = BitVec.ofNat 64 (s.now - s.cur.tbase) := fun h =>
    congrArg (BitVec.ofNat 64) (SeqState.tclk_of_running h _)
  have hmoor : ∀ {n : Nat} {f : Mooring → Word}, s.sysValue s.ctx.core s.ctx.q n = (match (s.moorOf s.ctx.core).map s.moor with
      | some y => f y
      | none => 0) → SysReads s n (moorOr s f) := fun h => sysReads_of_value (h.trans (moorOr_eq s _).symm)
  refine ⟨?_, ?_, ?_, ?_, fun h => sysReads_of_value (htclk h), fun h => sysReads_of_value (hflags h), ?_, ?_, ?_, ?_, hmoor rfl, hmoor rfl, hmoor rfl,
    ?_, ?_, ?_, ?_, ?_, fun k hk => sysReads_of_value (State.sysValue_watch _ _ _ hk), ?_, ?_, ?_⟩
  all_goals exact sysReads_of_value rfl

/-! ### Writes -/

/-- An effect of a syllable of slot C waits to land. -/
theorem State.effect_holding (s : State) (lat : Nat) (e : QEff) : (s.holding .c 1).effect lat e =
    (s.holding .c 1).updCur fun x => { x with queue := x.queue ++ [inFlight s lat e] } := by
  unfold State.effect State.push
  rw [State.holding_now]
  rfl

theorem exec_syswr_shape (s : State) (h : HRd) {n : Fin 128} (hn : n.val = 2 ∨ n.val = 3 ∨ n.val = 4) :
    exec (.syswr h n) s = s.setShape [h.ref] n.val (s.rd h.ref).val (s.poisonTraps .c [h.ref]) := if_pos hn

theorem exec_syswr_other (s : State) (h : HRd) {n : Fin 128} (hn : ¬(n.val = 2 ∨ n.val = 3 ∨ n.val = 4)) : exec (.syswr h n) s =
    s.ctl [h.ref] (trapIf (!(sysWritable s.ctx.q n.val) || !(sysValueOk n.val (s.rd h.ref).val)) (.prot .c 0) ++ s.poisonTraps .c [h.ref])
      fun t => t.effect 1 (.sys n.val (s.rd h.ref).val) := if_neg hn

/-- A register that the stream may write takes a value that it may hold in the next cycle. -/
theorem controls_syswr {s : State} {h : HRd} {n : Fin 128} (hn : n.val ∉ [2, 3, 4]) (hw : sysWritable s.ctx.q n.val = true)
    (hv : sysValueOk n.val (s.rd h.ref).val = true) :
    Controls (.syswr h n) s [h.ref] fun x => { x with queue := x.queue ++ [inFlight s 1 (.sys n.val (s.rd h.ref).val)] } := by
  refine controls_of_ctl (exec_syswr_other s h (by simpa using hn)) (fun hs => ?_) (s.effect_holding 1 _)
  rw [hw, hv, State.poisonTraps_of_sound hs]
  rfl

/-- A value that the register may not hold is a protection fault, which comes before poison of its register. -/
theorem exec_syswr_badValue {s : State} {h : HRd} {n : Fin 128} (hc : s.clear .c 1 [h.ref] []) (hn : n.val ∉ [2, 3, 4])
    (hv : sysValueOk n.val (s.rd h.ref).val = false) : exec (.syswr h n) s = .next (s.raise ⟨0x07, some 7, 0, false⟩) := by
  rw [exec_syswr_other s h (by simpa using hn), hv, Bool.not_false, Bool.or_true, trapIf_true]
  refine State.ctl_of_trap hc (lowest_cons_of_le fun u hu => ?_)
  obtain rfl : u = .poison .c := List.eq_of_mem_singleton (mem_of_mem_trapIf hu)
  decide

/-- A value that keeps R74 takes effect five cycles after the issue. -/
theorem controls_setShape {i : Instr} {s : State} {reads : List RRef} {n : Nat} {v : Word} {traps : List Trap}
    (he : exec i s = s.setShape reads n v traps) (ht : s.sound reads → traps = []) (hf : s.kore.fitsAt n v (s.now + 5) = true) :
    Controls i s reads fun x => { x with queue := x.queue ++ [inFlight s 5 (.sys n v)] } := by
  refine controls_of_ctl he (fun hs => ?_) (s.effect_holding 5 _)
  rw [ht hs, hf]
  rfl

/-- The registers of its own that a sequencer may write, any value of them (R83). -/
theorem sysWritable_own {n : Nat} (h : n ∈ [0x05, 0x06, 0x07, 0x08, 0x09, 0x0E, 0x0F, 0x11]) (q : Seq) (v : Word) :
    n ∉ [2, 3, 4] ∧ sysWritable q n = true ∧ sysValueOk n v = true := by
  have hall : ∀ n ∈ [0x05, 0x06, 0x07, 0x08, 0x09, 0x0E, 0x0F, 0x11],
      n ∉ [2, 3, 4] ∧ sysWritable .primary n = true ∧ n ≠ 0x0B ∧ n ≠ 0x0C ∧ n ≠ 0x0D := by decide
  obtain ⟨h1, h2, hb, hc, hd⟩ := hall n h
  refine ⟨h1, ?_, ?_⟩
  · cases q with
    | primary => exact h2
    | secondary =>
      unfold sysWritable at h2 ⊢
      rw [show (Seq.primary == Seq.secondary) = false from rfl, Bool.and_false, Bool.or_false] at h2
      rw [h2, Bool.true_or]
  · unfold sysValueOk
    rw [if_neg hb, if_neg hc, if_neg hd]

/-- The values that `EBBTAB`, `LENS` and `CTXBASE` may hold (R311, R414, R447). -/
theorem sysValueOk_iff {n : Nat} (hn : n = 0x0B ∨ n = 0x0C ∨ n = 0x0D) (v : Word) : sysValueOk n v = true ↔
    n = 0x0B ∧ v.toNat % 128 = 0 ∧ spadBytes ≤ v.toNat ∨ n = 0x0C ∧ v.toNat % 32 = 0 ∧ spadBytes ≤ v.toNat
      ∨ n = 0x0D ∧ v.toNat % 4096 = 0 ∧ v.toNat + 0xAC1F < spadBytes := by
  rcases hn with rfl | rfl | rfl <;> simp [sysValueOk]

/-- `EBBTAB`, `LENS` and `CTXBASE` are for the secondary stream. -/
theorem sysWritable_secondary {n : Nat} (hn : n = 0x0B ∨ n = 0x0C ∨ n = 0x0D) : n ∉ [2, 3, 4] ∧ sysWritable .secondary n = true := by
  rcases hn with rfl | rfl | rfl <;> decide

theorem systemRegisterWrites : Spec.SystemRegisterWrites := by
  refine ⟨fun s h n hn => ?_, fun s h n hq hv => ?_, fun s h n hn hf => ?_, fun s f hf => ?_, fun s rows cols hf => ?_, fun s rows cols hf => ?_,
    fun s h n hq hn hc => ?_, fun s h n hq hn hc => ?_, fun s h n hq hv hc => ?_⟩
  · obtain ⟨hshape, hw, hok⟩ := sysWritable_own hn s.ctx.q (s.rd h.ref).val
    exact controls_syswr hshape hw hok
  · have hreg : n.val = 0x0B ∨ n.val = 0x0C ∨ n.val = 0x0D := hv.imp And.left (Or.imp And.left And.left)
    obtain ⟨hshape, hw⟩ := sysWritable_secondary hreg
    exact controls_syswr hshape (hq ▸ hw) ((sysValueOk_iff hreg _).2 hv)
  · exact controls_setShape (exec_syswr_shape s h (by simpa using hn)) (fun hs => State.poisonTraps_of_sound hs .c) hf
  · exact controls_setShape rfl (fun _ => rfl) hf
  · exact controls_setShape rfl (fun _ => rfl) hf
  · exact controls_setShape rfl (fun _ => rfl) hf
  · have hall : ∀ n ∈ [0x00, 0x01, 0x0A, 0x0B, 0x0C, 0x0D, 0x10, 0x12, 0x13, 0x14, 0x15, 0x16, 0x17, 0x18, 0x19, 0x1A, 0x1B, 0x1C, 0x1D, 0x1E],
        sysWritable .primary n = false := by decide
    exact exec_syswr_readOnly hc (hq ▸ hall _ hn)
  · have hall : ∀ n ∈ [0x00, 0x01, 0x0A, 0x10, 0x12, 0x13, 0x14, 0x15, 0x16, 0x17, 0x18, 0x19, 0x1A, 0x1B, 0x1C, 0x1D, 0x1E],
        sysWritable .secondary n = false := by decide
    exact exec_syswr_readOnly hc (hq ▸ hall _ hn)
  · have hreg : n.val = 0x0B ∨ n.val = 0x0C ∨ n.val = 0x0D := hv.imp And.left (Or.imp And.left And.left)
    refine exec_syswr_badValue hc (sysWritable_secondary hreg).1 (Bool.eq_false_iff.2 fun hok => ?_)
    have := (sysValueOk_iff hreg _).1 hok
    omega

/-- Settles O21: each read is the value that stands in its register; each write is in flight, or the fault of its register or value. -/
theorem systemRegisters : Obligations.SystemRegisters := ⟨systemRegisterReads, systemRegisterWrites⟩

end Sys2Proof.Machine
end

section
/-! SUPPORT. Loads and stores in their perform cycle (R79, R80, R149, R266, R321, R388): the poison marks that a write leaves, what an access keeps
on its way, and the value that a load delivers (O33). -/

namespace Sys2Proof.Machine
open Config Sys2Proof.Spec

/-! ### Poison marks after a write (R321) -/

theorem poisonUnit_le (a : Nat) : poisonUnit a ≤ a := by
  unfold poisonUnit
  split <;> exact Nat.div_mul_le_self _ _

/-- A unit is the unit of its first byte. -/
theorem poisonUnit_poisonUnit (a : Nat) : poisonUnit (poisonUnit a) = poisonUnit a := by
  have hb : hbmBase = 64 * 0x4000000000 := rfl
  unfold poisonUnit
  split <;> split <;> omega

theorem lt_poisonUnit_add_size (a : Nat) : a < poisonUnit a + poisonSize (poisonUnit a) := by
  have hb : hbmBase = 64 * 0x4000000000 := rfl
  unfold poisonSize poisonUnit
  split <;> split <;> omega

section
variable {a0 n : Nat}

theorem poisonGo_cons (p : List (Nat × Bool)) (a : Nat) (b : Bool) (l : List Bool) :
    poisonGo a0 n p a (b :: l) = poisonGo a0 n (poisonGo a0 n p a [b]) (a + 1) l := rfl

/-- One byte marks its unit where it is poisoned, and clears it where the write covers the unit and the byte is its first. -/
theorem sget_poisonGo_one {p : List (Nat × Bool)} (h : Tidy false p) (a : Nat) (b : Bool) (v : Nat) : sget false (poisonGo a0 n p a [b]) v =
    if v = poisonUnit a ∧ (b = true ∨ a = poisonUnit a ∧ unitCovered a0 n (poisonUnit a) = true) then b else sget false p v := by
  have hset : ∀ x : Bool, sget false (sset false p (poisonUnit a) x) v = if v = poisonUnit a then x else sget false p v := fun x => by
    split
    · rename_i hv
      rw [hv, sget_sset_self h]
    · exact sget_sset_other h x ‹_›
  show sget false (if b then sset false p (poisonUnit a) true
    else if a = poisonUnit a ∧ unitCovered a0 n (poisonUnit a) then sset false p (poisonUnit a) false else p) v = _
  cases b with
  | true =>
    rw [if_pos rfl, hset]
    simp only [true_or, and_true]
  | false =>
    rw [if_neg Bool.false_ne_true]
    by_cases hc : a = poisonUnit a ∧ unitCovered a0 n (poisonUnit a) = true
    · rw [if_pos hc, hset]
      simp only [and_iff_left (show false = true ∨ a = poisonUnit a ∧ unitCovered a0 n (poisonUnit a) = true from .inr hc)]
    · rw [if_neg hc, if_neg (by simpa using fun _ => not_and.1 hc)]

/-- The units that no byte of the write lies in keep their marks. -/
theorem sget_poisonGo_other {v : Nat} : ∀ {ps : List Bool} {p : List (Nat × Bool)} {a : Nat}, Tidy false p →
    (∀ x, a ≤ x → x < a + ps.length → v ≠ poisonUnit x) → sget false (poisonGo a0 n p a ps) v = sget false p v
  | [], _, _, _, _ => rfl
  | b :: l, p, a, h, hv => by
    rw [List.length_cons] at hv
    rw [poisonGo_cons, sget_poisonGo_other (tidy_poisonGo a0 n [b] a h) fun x h1 h2 => hv x (by omega) (by omega), sget_poisonGo_one h,
      if_neg fun hc => hv a (Nat.le_refl a) (by omega) hc.1]

/-- A mark stays while the write goes on behind the first byte of its unit. -/
theorem sget_poisonGo_marked {v : Nat} : ∀ {ps : List Bool} {p : List (Nat × Bool)} {a : Nat}, Tidy false p → v < a → sget false p v = true →
    sget false (poisonGo a0 n p a ps) v = true
  | [], _, _, _, _, hm => hm
  | b :: l, p, a, h, hv, hm => by
    rw [poisonGo_cons]
    refine sget_poisonGo_marked (tidy_poisonGo a0 n [b] a h) (by omega) ?_
    rw [sget_poisonGo_one h]
    split
    · rename_i hc
      obtain ⟨hu, hb | ⟨ha, -⟩⟩ := hc
      · exact hb
      · omega
    · exact hm

/-- A poisoned byte poisons its unit. -/
theorem sget_poisonGo_poisoned {x : Nat} : ∀ {ps : List Bool} {p : List (Nat × Bool)} {a : Nat}, Tidy false p → a ≤ x →
    ps.getD (x - a) false = true → sget false (poisonGo a0 n p a ps) (poisonUnit x) = true
  | [], _, _, _, _, hb => nomatch hb
  | b :: l, p, a, h, hx, hb => by
    have ht : Tidy false (poisonGo a0 n p a [b]) := tidy_poisonGo a0 n [b] a h
    rw [poisonGo_cons]
    rcases Nat.eq_or_lt_of_le hx with rfl | hlt
    · rw [Nat.sub_self] at hb
      refine sget_poisonGo_marked ht (Nat.lt_succ_of_le (poisonUnit_le a)) ?_
      rw [sget_poisonGo_one h, if_pos ⟨rfl, .inl hb⟩]
      exact hb
    · refine sget_poisonGo_poisoned ht hlt ?_
      rwa [show x - a = (x - (a + 1)) + 1 by omega, List.getD_cons_succ] at hb

/-- Clean bytes mark nothing. -/
theorem sget_poisonGo_clean {v : Nat} : ∀ {ps : List Bool} {p : List (Nat × Bool)} {a : Nat}, Tidy false p → (∀ b ∈ ps, b = false) →
    sget false p v = false → sget false (poisonGo a0 n p a ps) v = false
  | [], _, _, _, _, hm => hm
  | b :: l, p, a, h, hp, hm => by
    rw [poisonGo_cons]
    refine sget_poisonGo_clean (tidy_poisonGo a0 n [b] a h) (fun x hx => hp x (List.mem_cons_of_mem _ hx)) ?_
    rw [sget_poisonGo_one h, hm, hp b List.mem_cons_self, ite_self]

/-- Clean bytes over a whole unit clear it. -/
theorem sget_poisonGo_covered {v : Nat} (hu : poisonUnit v = v) (hc : unitCovered a0 n v = true) : ∀ {ps : List Bool} {p : List (Nat × Bool)} {a : Nat},
    Tidy false p → (∀ b ∈ ps, b = false) → a ≤ v → v < a + ps.length → sget false (poisonGo a0 n p a ps) v = false
  | [], _, _, _, _, _, hv => by
    rw [List.length_nil] at hv
    omega
  | b :: l, p, a, h, hp, ha, hv => by
    have ht : Tidy false (poisonGo a0 n p a [b]) := tidy_poisonGo a0 n [b] a h
    have hl : ∀ x ∈ l, x = false := fun x hx => hp x (List.mem_cons_of_mem _ hx)
    rw [poisonGo_cons]
    rcases Nat.eq_or_lt_of_le ha with rfl | hlt
    · refine sget_poisonGo_clean ht hl ?_
      rw [sget_poisonGo_one h, hu, if_pos ⟨rfl, .inr ⟨rfl, hc⟩⟩]
      exact hp b List.mem_cons_self
    · rw [List.length_cons] at hv
      exact sget_poisonGo_covered hu hc ht hl hlt (by omega)

end

/-- R321: a poisoned byte poisons its unit; clean bytes over a whole unit clear it; a unit outside the write keeps its mark. -/
theorem poisonWrite_spec {p : List (Nat × Bool)} (h : Tidy false p) (a : Nat) (ps : List Bool) :
    (∀ x, a ≤ x → ps.getD (x - a) false = true → poisonAt (poisonWrite p a ps) x = true)
    ∧ (ps.all (fun b => !b) = true → ∀ x, unitCovered a ps.length (poisonUnit x) = true → poisonAt (poisonWrite p a ps) x = false)
    ∧ ∀ x, unitMeets a ps.length (poisonUnit x) = false → poisonAt (poisonWrite p a ps) x = poisonAt p x := by
  refine ⟨fun x hx hb => sget_poisonGo_poisoned h hx hb, fun hp x hc => ?_, fun x hm => sget_poisonGo_other h fun y h1 h2 he => ?_⟩
  · have hr := hc
    simp only [unitCovered, Bool.and_eq_true, decide_eq_true_eq] at hr
    have hsize := lt_poisonUnit_add_size x
    have hunit := poisonUnit_le x
    refine sget_poisonGo_covered (poisonUnit_poisonUnit x) hc h (fun b hb => ?_) hr.1 ?_
    · simpa using List.all_eq_true.1 hp b hb
    · have : 0 < poisonSize (poisonUnit x) := by
        unfold poisonSize
        split <;> decide
      omega
  · have hsize := lt_poisonUnit_add_size y
    have hunit := poisonUnit_le y
    rw [he] at hm
    simp only [unitMeets, Bool.and_eq_false_iff, decide_eq_false_iff_not] at hm
    omega

/-! ### What an access keeps on its way -/

/-- A state on the way of an access that performs: the accesses, the clock, the moorings, the channels and the registers stand. -/
structure State.Works (s t : State) : Prop where
  accesses : t.accesses = s.accesses
  now : t.now = s.now
  moorings : t.moorings = s.moorings
  channels : t.channels = s.channels
  tidy : Tidy Core.init t.cores
  regs : ∀ d f r, (t.core d).reg f r = (s.core d).reg f r

/-- A sequencer reads nothing of the other one. -/
theorem Core.reg_setSeq_ne (k : Core) {p q : Seq} (h : p ≠ q) (x : SeqState) (r : RRef) : (k.setSeq q x).reg p r = k.reg p r := by
  have hs : (k.setSeq q x).seq p = k.seq p := by
    cases q with
    | primary =>
      cases p with
      | primary => exact absurd rfl h
      | secondary => rfl
    | secondary =>
      cases p with
      | primary => rfl
      | secondary => exact absurd rfl h
  unfold Core.reg
  rw [hs, Core.setSeq_h]

/-- A change of a sequencer that leaves its registers alone leaves those of every core alone. -/
theorem State.reg_updSeq {s : State} (ht : Tidy Core.init s.cores) (c : Nat) (q : Seq) {f : SeqState → SeqState}
    (hf : ∀ x fl n, (f x).reg fl n = x.reg fl n) (d : Nat) (p : Seq) (r : RRef) : ((s.updSeq c q f).core d).reg p r = (s.core d).reg p r := by
  by_cases hd : d = c
  · subst hd
    have hcore : (s.updSeq d q f).core d = (s.core d).setSeq q (f (s.seq d q)) := sget_sset_self ht _
    rw [hcore]
    by_cases hp : p = q
    · subst hp
      exact Core.reg_setSeq _ p (hf _ _ _)
    · exact Core.reg_setSeq_ne _ hp _ r
  · have hcore : (s.updSeq c q f).core d = s.core d := sget_sset_other ht _ hd
    rw [hcore]

namespace State.Works
variable {s t : State} (h : s.Works t)
include h

theorem updSeq (c : Nat) (q : Seq) {f : SeqState → SeqState} (hf : ∀ x fl n, (f x).reg fl n = x.reg fl n) : s.Works (t.updSeq c q f) :=
  ⟨h.accesses, h.now, h.moorings, h.channels, State.tidy_updSeq h.tidy c q f,
    fun d p r => (State.reg_updSeq h.tidy c q hf d p r).trans (h.regs d p r)⟩

theorem putBytes (pa : Nat) (bs : List Byte) (ps : List Bool) : s.Works (t.putBytes pa bs ps) :=
  ⟨h.accesses, h.now, h.moorings, h.channels, h.tidy, h.regs⟩

theorem deliver (a : Access) (f : QEntry → QEntry) : s.Works (t.deliver a f) := by
  unfold State.deliver
  split
  · exact h.updSeq _ _ fun x fl n => by cases fl <;> rfl
  · exact h

theorem flagAccess (a : Access) (fl : Flg) : s.Works (t.flagAccess a fl) := by
  unfold State.flagAccess
  split
  · exact h.updSeq _ _ fun x fl n => by cases fl <;> rfl
  · exact h

end State.Works

theorem State.deliver_fields (s : State) (a : Access) (f : QEntry → QEntry) : (s.deliver a f).mem = s.mem ∧ (s.deliver a f).poison = s.poison := by
  unfold State.deliver
  split <;> exact ⟨rfl, rfl⟩

/-! ### An access that performs is gone, and its entries are complete -/

/-- An access of which no other serves the same result completes the entries that wait for it. -/
theorem State.finish_alone {s t : State} {a : Access} {c : Nat} {q : Seq} (hp : Performs s a c q) (hw : s.Works t) :
    t.finish a = (t.dropAccess a.id).deliver a fun e => { e with held := none } := by
  refine if_neg fun hany => ?_
  obtain ⟨b, hb, hl⟩ := List.any_eq_true.1 hany
  obtain ⟨hmem, hid⟩ := List.mem_filter.1 hb
  simp only [Bool.and_eq_true, beq_iff_eq] at hl
  rw [hp.alone b (hw.accesses ▸ hmem) hl.1 hl.2] at hid
  simp at hid

theorem State.finish_fields {s t : State} {a : Access} {c : Nat} {q : Seq} (hp : Performs s a c q) (hw : s.Works t) :
    (t.finish a).mem = t.mem ∧ (t.finish a).poison = t.poison := by
  rw [State.finish_alone hp hw]
  exact (t.dropAccess a.id).deliver_fields a _

theorem gone_of_works {s t : State} {a : Access} {c : Nat} {q : Seq} (hp : Performs s a c q) (hw : s.Works t) : Gone s (t.finish a) a := by
  have hd : (t.dropAccess a.id).Works (t.dropAccess a.id) := ⟨rfl, rfl, rfl, rfl, hw.tidy, fun _ _ _ => rfl⟩
  have hf := hd.deliver a fun e => { e with held := none }
  rw [State.finish_alone hp hw]
  refine ⟨fun b hb => ?_, fun ha => ?_, hf.now.trans hw.now, hf.moorings.trans hw.moorings, hf.channels.trans hw.channels,
    fun d f r => (hf.regs d f r).trans (hw.regs d f r)⟩
  · rw [hf.accesses] at hb
    exact hw.accesses ▸ (List.mem_filter.1 hb).1
  · rw [hf.accesses] at ha
    simpa using (List.mem_filter.1 ha).2

theorem State.seq_deliver {t : State} (ht : Tidy Core.init t.cores) {a : Access} {c : Nat} {q : Seq} (ho : a.owner = .seq c q) (f : QEntry → QEntry) :
    ((t.deliver a f).seq c q).queue = (t.seq c q).queue.map fun e => if e.held = some a.link then f e else e := by
  unfold State.deliver
  rw [ho]
  exact congrArg SeqState.queue (State.seq_updSeq ht c q _)

/-- A value that an access has put into its entries stands in them when the access has performed. -/
theorem fills_of_put {s t : State} {a : Access} {c : Nat} {q : Seq} (hp : Performs s a c q) (hw : s.Works t) (hs : t.seq c q = s.seq c q) (v : Reg) :
    Fills s ((t.deliver a (QEntry.put v 0)).finish a) a c q v := by
  intro e he hh r w heff
  have hput : e.put v 0 = { e with eff := .reg r v } := by
    unfold QEntry.put
    rw [heff]
    simp
  have hd := hw.deliver a (QEntry.put v 0)
  rw [State.finish_alone hp hd, State.seq_deliver (t := (t.deliver a (QEntry.put v 0)).dropAccess a.id) hd.tidy hp.owner]
  refine List.mem_map.2 ⟨e.put v 0, ?_, ?_⟩
  · show e.put v 0 ∈ ((t.deliver a _).seq c q).queue
    rw [State.seq_deliver hw.tidy hp.owner, hs]
    exact List.mem_map.2 ⟨e, he, if_pos hh⟩
  · rw [hput]
    exact if_pos hh

/-! ### The event -/

/-- A state without errors in waiting stays as it is under an access's check. -/
theorem State.eccAccess_of_clean {s : State} (h : s.errs = []) (a : Access) : s.eccAccess a = s := by
  unfold State.eccAccess State.eccRead
  rw [h]
  exact ite_self s

theorem State.useSec_eq (s : State) (a : Access) : ∃ hs, s.useSec a = { s with holds := hs } := by
  unfold State.useSec
  split
  · exact ⟨_, rfl⟩
  · exact ⟨s.holds, rfl⟩

/-- The event performs the access, with its bank-cycles taken. -/
theorem exec_accessPerform {s : State} {a : Access} {c : Nat} {q : Seq} (hp : Performs s a c q) :
    ∃ hs, exec (.accessPerform a.id) s = .next (State.performOne { s with holds := hs } a) := by
  obtain ⟨hs, hu⟩ := s.useSec_eq a
  refine ⟨hs, ?_⟩
  change execAccessPerform a.id s = _
  unfold execAccessPerform
  rw [hp.found]
  dsimp only
  rw [hp.owner]
  dsimp only
  rw [if_pos hp.now, State.eccAccess_of_clean hp.clean, hu]

theorem works_holds {s : State} (h : s.Canon) (hs : List HoldRec) : s.Works { s with holds := hs } := ⟨rfl, rfl, rfl, rfl, h.cores, fun _ _ _ => rfl⟩

theorem State.accPa_seq {s : State} {a : Access} {c : Nat} {q : Seq} (ho : a.owner = .seq c q) : s.accPa a = s.placePa a.place a.kind.size false := by
  unfold State.accPa
  rw [ho]
  rfl

/-! ### Loads (R80, R388) -/

/-- The value of a load is the number of its bytes, zero- or sign-extended. -/
theorem loadValue_eq {n : Nat} (hn : 0 < n) (sx : Bool) {bs : List Byte} (hl : bs.length = n) :
    loadValue n sx bs = if sx then BitVec.ofInt 64 (signed n (leNat bs)) else BitVec.ofNat 64 (leNat bs) := by
  have hlt : leNat bs < 2 ^ (8 * n) := by
    have := leNat_lt bs
    rwa [hl, show 256 = 2 ^ 8 from rfl, ← Nat.pow_mul] at this
  have hw : (BitVec.ofNat (8 * n) (leNat bs)).toNat = leNat bs := by rw [BitVec.toNat_ofNat, Nat.mod_eq_of_lt hlt]
  have hpow : 2 ^ (8 * n) = 2 ^ (8 * n - 1) * 2 := by rw [← Nat.pow_succ, Nat.succ_eq_add_one, Nat.sub_add_cancel (by omega)]
  cases sx with
  | true =>
    have hs : (BitVec.ofNat (8 * n) (leNat bs)).toInt = signed n (leNat bs) := by
      rw [BitVec.toInt_eq_toNat_cond, hw]
      unfold signed
      have hiff : 2 * leNat bs < 2 ^ (8 * n) ↔ leNat bs < 2 ^ (8 * n - 1) := by omega
      simp only [hiff]
      norm_cast
    exact congrArg (BitVec.ofInt 64) hs
  | false => exact BitVec.eq_of_toNat_eq (by simp [loadValue, Nat.mod_eq_of_lt hlt])

/-- The register that a load of n bytes delivers, with the sounding and the poison of its plane byte where it has one. -/
def State.loadReg (s : State) (pa n : Nat) (sx : Bool) (pb : Option Nat) : Reg :=
  let b := match pb with
    | none => 63
    | some x => (s.byte x).toNat
  ⟨if sx then BitVec.ofInt 64 (signed n (s.num pa n)) else BitVec.ofNat 64 (s.num pa n), BitVec.ofNat 6 b,
    s.anyPoison pa n || (match pb with
      | none => false
      | some x => s.anyPoison x 1 || decide (b / 64 % 2 = 1))⟩

theorem State.word_one (s : State) (x : Nat) : s.word x 1 = ((s.byte x).toNat, s.anyPoison x 1) := rfl

theorem State.performOne_load {s : State} {a : Access} {c : Nat} {q : Seq} {n more : Nat} {sx : Bool} {plane : Option Place} (ho : a.owner = .seq c q)
    (hn : 0 < n) (hk : a.kind = .load n sx plane more) : s.performOne a =
      (s.deliver a (QEntry.put (s.loadReg (s.placePa a.place n false) n sx (plane.map fun p => s.placePa p 1 false)) 0)).finish a := by
  have hval : loadValue n sx (s.bytes (s.placePa a.place n false) n) = _ := loadValue_eq hn sx (Memory.length_read _ _ _)
  have hbit : ∀ b : Nat × Bool, decide (64 ≤ b.1 % 128) = decide (b.1 / 64 % 2 = 1) := fun b => decide_eq_decide.2 (by omega)
  unfold State.performOne
  dsimp only
  rw [State.accPa_seq ho, hk]
  dsimp only [AKind.size]
  rw [hval]
  cases plane with
  | none => rfl
  | some p =>
    dsimp only
    rw [hbit, State.word_one]
    rfl

theorem loadsPerform : Spec.LoadsPerform := by
  intro s a c q n more sx plane hp hn hk pa w pb b
  have hpos : 0 < n := by
    have hall : ∀ n ∈ [1, 2, 4, 8], 0 < n := by decide
    exact hall n hn
  obtain ⟨hs, hx⟩ := exec_accessPerform hp
  have hw := works_holds hp.canon hs
  have hd := hw.deliver a (QEntry.put (s.loadReg pa n sx pb) 0)
  obtain ⟨fmem, fpoi⟩ := State.finish_fields hp hd
  obtain ⟨dmem, dpoi⟩ := State.deliver_fields { s with holds := hs } a (QEntry.put (s.loadReg pa n sx pb) 0)
  exact ⟨_, hx.trans (congrArg _ (State.performOne_load hp.owner hpos hk)), gone_of_works hp hd, fmem.trans dmem, fpoi.trans dpoi,
    fills_of_put hp hw rfl _⟩

/-! ### Stores (R79, R149, R321) -/

/-- A store's own bytes stand in memory: its bank-cycles are taken, and its flags set. -/
def State.stored (s : State) (hs : List HoldRec) (a : Access) (d : List Byte) (ps : List Bool) : State :=
  (State.flagAccess { s with holds := hs } a (State.accessFlags { s with holds := hs } a)).putBytes (s.placePa a.place d.length false) d ps

section
variable (s : State) (hs : List HoldRec) (a : Access) (d : List Byte) (ps : List Bool)

theorem State.stored_fields : (s.stored hs a d ps).mem = s.mem.write (s.placePa a.place d.length false) d
    ∧ (s.stored hs a d ps).poison = poisonWrite s.poison (s.placePa a.place d.length false) ps := by
  unfold State.stored State.flagAccess
  split <;> exact ⟨rfl, rfl⟩

theorem State.works_stored (h : s.Canon) : s.Works (s.stored hs a d ps) := ((works_holds h hs).flagAccess a _).putBytes _ d ps

/-- Holds and flags change no translation. -/
theorem State.sameMap_stored : (s.putBytes (s.placePa a.place d.length false) d ps).SameMap (s.stored hs a d ps) := by
  unfold State.stored State.flagAccess
  split <;> exact ⟨rfl, rfl, fun _ => rfl, fun _ => rfl, fun _ => rfl, fun _ => rfl⟩

end

theorem performOne_store {s : State} {hs : List HoldRec} {a : Access} {c : Nat} {q : Seq} {d : List Byte} {ps : List Bool} (ho : a.owner = .seq c q)
    (hk : a.kind = .store d ps none) : State.performOne { s with holds := hs } a = (s.stored hs a d ps).finish a := by
  unfold State.performOne
  dsimp only
  rw [State.accPa_seq ho, hk]
  rfl

theorem performOne_storePlane {s : State} {hs : List HoldRec} {a : Access} {c : Nat} {q : Seq} {d l : List Byte} {ps : List Bool} {p : Place}
    (ho : a.owner = .seq c q) (hk : a.kind = .store d ps (some (p, l))) : State.performOne { s with holds := hs } a =
      ((s.stored hs a d ps).putBytes ((s.putBytes (s.placePa a.place d.length false) d ps).placePa p l.length false) l (l.map fun _ => false)).finish a := by
  rw [← (s.sameMap_stored hs a d ps).placePa]
  unfold State.performOne
  dsimp only
  rw [State.accPa_seq ho, hk]
  rfl

theorem storesPerform : Spec.StoresPerform := by
  refine ⟨fun s a c q d ps hp hlen hk => ?_, fun s a c q d l ps p hp _ hk => ?_⟩
  · obtain ⟨hs, hx⟩ := exec_accessPerform hp
    have hw := s.works_stored hs a d ps hp.canon
    obtain ⟨smem, spoi⟩ := s.stored_fields hs a d ps
    obtain ⟨fmem, fpoi⟩ := State.finish_fields hp hw
    obtain ⟨pset, pclear, pkeep⟩ := poisonWrite_spec hp.canon.poison (s.placePa a.place d.length false) ps
    rw [hlen] at pclear pkeep
    refine ⟨_, hx.trans (congrArg _ (performOne_store hp.owner hk)), gone_of_works hp hw, writes_of_mem hp.canon.mem (fmem.trans smem), ?_⟩
    rw [fpoi.trans spoi]
    exact ⟨fun x h1 _ => pset x h1, pclear, pkeep⟩
  · obtain ⟨hs, hx⟩ := exec_accessPerform hp
    obtain ⟨smem, -⟩ := s.stored_fields hs a d ps
    have hw := (s.works_stored hs a d ps hp.canon).putBytes ((s.putBytes (s.placePa a.place d.length false) d ps).placePa p l.length false) l
      (l.map fun _ => false)
    refine ⟨_, hx.trans (congrArg _ (performOne_storePlane hp.owner hk)), gone_of_works hp hw, fun x => ?_⟩
    have hwf : (s.stored hs a d ps).mem.wf = true := smem ▸ Memory.wf_write d hp.canon.mem _
    have hold : (s.stored hs a d ps).byte = overlay s.byte (s.placePa a.place d.length false) d := funext (writes_of_mem hp.canon.mem smem)
    have hnew := writes_of_mem hwf (State.finish_fields hp hw).1 x
    rwa [hold] at hnew

/-- Settles O33: a load fills the entries that wait for it, and a store changes its bytes, its plane bytes and their poison marks. -/
theorem loadsAndStoresPerform : Obligations.LoadsAndStoresPerform := ⟨loadsPerform, storesPerform⟩

end Sys2Proof.Machine
end

section
/-! SUPPORT. The words of instructions as lists of fields (R90 to R105, R221, R294): what a list of fields says of a word, and
the fields of each syllable: O56, O57. -/

namespace Sys2Proof

/-! ### Words as lists of fields -/

/-- The number whose `top` bits are the fields of a list, the highest first, each a value with its width. -/
@[simp] def glue : Nat → List (Nat × Nat) → Nat
  | _, [] => 0
  | top, (v, n) :: l => v * 2 ^ (top - n) + glue (top - n) l

/-- The fields take `top` bits in all, and each value fits its width. -/
@[simp] def Fills : Nat → List (Nat × Nat) → Prop
  | top, [] => top = 0
  | top, (v, n) :: l => n ≤ top ∧ v < 2 ^ n ∧ Fills (top - n) l

/-- The low `top` bits of a word read as the fields of a list. -/
@[simp] def Reads (w : Nat) : Nat → List (Nat × Nat) → Prop
  | _, [] => True
  | top, (v, n) :: l => bits w (top - n) n = v ∧ Reads w (top - n) l

theorem glue_lt : ∀ {top : Nat} {l : List (Nat × Nat)}, Fills top l → glue top l < 2 ^ top
  | _, [], _ => Nat.two_pow_pos _
  | top, (v, n) :: l, ⟨hn, hv, hl⟩ => by
    have hg := glue_lt hl
    calc v * 2 ^ (top - n) + glue (top - n) l < (v + 1) * 2 ^ (top - n) := by linarith
      _ ≤ 2 ^ n * 2 ^ (top - n) := Nat.mul_le_mul_right _ hv
      _ = 2 ^ top := by rw [← Nat.pow_add, Nat.add_sub_cancel' hn]

/-- The low bits of a word are its highest field of n bits, and the rest. -/
theorem mod_two_pow_eq {w top n : Nat} (hn : n ≤ top) : w % 2 ^ top = bits w (top - n) n * 2 ^ (top - n) + w % 2 ^ (top - n) := by
  conv_lhs => rw [← Nat.sub_add_cancel hn, Nat.pow_add, Nat.mod_mul]
  rw [bits, Nat.mul_comm, Nat.add_comm]

/-- A word reads as a list of fields exactly when its bits are those of the list's number. -/
theorem reads_iff {w : Nat} : ∀ {top : Nat} {l : List (Nat × Nat)}, Fills top l → (Reads w top l ↔ w % 2 ^ top = glue top l)
  | _, [], h => by cases h; simp [Reads, glue, Nat.mod_one]
  | top, (v, n) :: l, ⟨hn, hv, hl⟩ => by
    have hg := glue_lt hl
    have hm : w % 2 ^ (top - n) < 2 ^ (top - n) := Nat.mod_lt _ (Nat.two_pow_pos _)
    rw [Reads, glue, reads_iff hl, mod_two_pow_eq hn]
    constructor
    · rintro ⟨rfl, h⟩
      rw [h]
    · intro h
      have hq := congrArg (· / 2 ^ (top - n)) h
      have hr := congrArg (· % 2 ^ (top - n)) h
      simp only [Nat.mul_comm _ (2 ^ (top - n)), Nat.mul_add_div (Nat.two_pow_pos _), Nat.mul_add_mod, Nat.div_eq_of_lt hg, Nat.div_eq_of_lt hm,
        Nat.mod_eq_of_lt hg, Nat.mod_eq_of_lt hm, Nat.add_zero] at hq hr
      exact ⟨hq, hr⟩

theorem reads_glue {top : Nat} {l : List (Nat × Nat)} (h : Fills top l) : Reads (glue top l) top l :=
  (reads_iff h).mpr (Nat.mod_eq_of_lt (glue_lt h))

theorem glue_eq_of_reads {w top : Nat} {l : List (Nat × Nat)} (hw : w < 2 ^ top) (h : Fills top l) (hr : Reads w top l) : glue top l = w :=
  ((reads_iff h).mp hr).symm.trans (Nat.mod_eq_of_lt hw)


/-! ### Operand fields -/

/-- The register number of a destination or of a source, and the code of PT. -/
def Dst.num {n : Nat} : Dst n → Nat
  | .own r => r.val
  | .h r => r.val
def Src.num {n : Nat} : Src n → Nat
  | .own r => r.val
  | .h _ r => r.val
def Src.pt {n : Nat} : Src n → Nat
  | .own _ => 0
  | .h p _ => p.code

/-- The operands of a store (R99): d, sb, PT, DH. -/
def SOpnd.num : SOpnd → Nat
  | .m d _ => d.val
  | .h d _ => d.reg.val
def SOpnd.sb : SOpnd → Nat
  | .m _ b => b.num
  | .h _ b => b.val
def SOpnd.pt : SOpnd → Nat
  | .m _ b => b.pt
  | .h d _ => d.port.code
def SOpnd.isH : SOpnd → Bool
  | .m _ _ => false
  | .h _ _ => true

/-- The port and DH of a data register (R99). -/
def SReg.pt : SReg → Nat
  | .m _ => 0
  | .h d => d.port.code
def SReg.isH : SReg → Bool
  | .m _ => false
  | .h _ => true

/-- The register number and the port code of a branch's condition and of a loop's count (R104). -/
def BrCond.num : BrCond → Nat
  | .always => 0
  | .ifH h => h.reg.val
def BrCond.pt : BrCond → Nat
  | .always => 0
  | .ifH h => h.port.code
def LCount.num : LCount → Nat
  | .imm n => n.val
  | .reg h => h.reg.val
def LCount.pt : LCount → Nat
  | .imm _ => 0
  | .reg h => h.port.code

/-! ### The formats of R92, with what stands in their last fields -/

/-- Format X with two operands, with one (R94), and with a second operand in the field sb. -/
@[simp] def formX {n k : Nat} (op : Nat) (d : Dst n) (a : Nat) (b : Src k) (md : List (Nat × Nat)) : List (Nat × Nat) :=
  [(op, 7), (d.num, 5), (a, 5), (b.num, 5), (b.pt, 2), (d.isH.toNat, 1)] ++ md
@[simp] def formU {n : Nat} (op : Nat) (d : Dst n) (a : Nat) (md : List (Nat × Nat)) : List (Nat × Nat) :=
  [(op, 7), (d.num, 5), (a, 5), (0, 7), (d.isH.toNat, 1)] ++ md
@[simp] def formN {n : Nat} (op : Nat) (d : Dst n) (a sb : Nat) (md : List (Nat × Nat)) : List (Nat × Nat) :=
  [(op, 7), (d.num, 5), (a, 5), (sb, 5), (0, 2), (d.isH.toNat, 1)] ++ md
/-- A store of slot M. -/
@[simp] def formS (op : Nat) (o : SOpnd) (a : Nat) (md : List (Nat × Nat)) : List (Nat × Nat) :=
  [(op, 7), (o.num, 5), (a, 5), (o.sb, 5), (o.pt, 2), (o.isH.toNat, 1)] ++ md
/-- Two register numbers and a rest. -/
@[simp] def formI (op d a : Nat) (md : List (Nat × Nat)) : List (Nat × Nat) := [(op, 7), (d, 5), (a, 5)] ++ md
/-- A load or store of slot M with an offset. -/
@[simp] def formMI (op d a : Nat) (sz : Size) (sp : Space) (off : BitVec 11) : List (Nat × Nat) :=
  formI op d a [(sz.code, 2), (sp.code, 2), (off.toNat, 11)]
/-- Slots V and W with two operands, and with an address in H. -/
@[simp] def formV (op d a : Nat) (b : Src 16) (md : List (Nat × Nat)) : List (Nat × Nat) :=
  formI op d a ([(b.num, 5), (b.pt, 2), (0, 1)] ++ md)
@[simp] def formVU (op d a : Nat) (md : List (Nat × Nat)) : List (Nat × Nat) := formI op d a ([(0, 7), (0, 1)] ++ md)
@[simp] def formVM (op d : Nat) (h : HRd) (md : List (Nat × Nat)) : List (Nat × Nat) :=
  formI op d 0 ([(h.reg.val, 5), (h.port.code, 2), (0, 1)] ++ md)
/-- Format E (R102). -/
@[simp] def formE (op : Nat) (h : HRd) (cls inst : Nat) (md : List (Nat × Nat)) : List (Nat × Nat) :=
  [(op, 7), (h.reg.val, 5), (h.port.code, 2), (cls, 3), (inst, 5)] ++ md
/-- Format B (R104): H through a port. -/
@[simp] def formB (op : Nat) (h : HRd) (md : List (Nat × Nat)) : List (Nat × Nat) := [(op, 7), (h.reg.val, 5), (h.port.code, 2)] ++ md
/-- RM and FS of an FP syllable (R93). -/
@[simp] def formFp (rm : RM) (fs : FS) : List (Nat × Nat) := [(rm.code, 2), (fs.code, 2), (0, 3)]

/-- The rest of `FSNDSET`, whose bit 6 names its form (R97). -/
@[simp] def formSnd (op : Nat) (d : Dst 32) (a : Nat) : SndArg → List (Nat × Nat)
  | .imm n => formU op d a [(1, 1), (n, 6)]
  | .reg b => formX op d a b [(0, 1), (0, 6)]
/-- A shift of slot V or W, whose bit 6 names its form (R100): bit 5 of an immediate one, and the last fields of the other. -/
@[simp] def formSh (op d a : Nat) (c : VSh) (ar : Nat) (md : List (Nat × Nat)) : List (Nat × Nat) :=
  match c with
  | .imm n => formVU op d a [(1, 1), (ar, 1), (n, 5)]
  | .op b => formV op d a b md

/-! ### The slot maps -/

/-- The fields of a syllable of slots A and B, with its slot (R97); `none` for every other step. -/
def fieldsAB : Instr → Option (AB × List (Nat × Nat))
  | .add sl d a b => some (sl, formX 0x01 d a b [(0, 7)])
  | .sub sl d a b => some (sl, formX 0x02 d a b [(0, 7)])
  | .addsat sl d a b => some (sl, formX 0x03 d a b [(0, 7)])
  | .mul sl d a b => some (sl, formX 0x04 d a b [(0, 7)])
  | .mulh sl d a b u => some (sl, formX 0x05 d a b [(u.toNat, 1), (0, 6)])
  | .and sl d a b => some (sl, formX 0x06 d a b [(0, 7)])
  | .or sl d a b => some (sl, formX 0x07 d a b [(0, 7)])
  | .xor sl d a b => some (sl, formX 0x08 d a b [(0, 7)])
  | .shl sl d a b => some (sl, formX 0x09 d a b [(0, 7)])
  | .shr sl d a b => some (sl, formX 0x0A d a b [(0, 7)])
  | .sra sl d a b => some (sl, formX 0x0B d a b [(0, 7)])
  | .min sl d a b u => some (sl, formX 0x0C d a b [(u.toNat, 1), (0, 6)])
  | .max sl d a b u => some (sl, formX 0x0D d a b [(u.toNat, 1), (0, 6)])
  | .slt sl d a b u => some (sl, formX 0x0E d a b [(u.toNat, 1), (0, 6)])
  | .seq sl d a b => some (sl, formX 0x0F d a b [(0, 7)])
  | .sel sl d a b => some (sl, formX 0x10 (Dst.own d) a b [(0, 7)])
  | .clz sl d a => some (sl, formU 0x11 d a [(0, 7)])
  | .popc sl d a => some (sl, formU 0x12 d a [(0, 7)])
  | .bfx sl d a pos w => some (sl, formN 0x13 d a (w / 2) [(w % 2, 1), (pos, 6)])
  | .bfi sl d a pos w => some (sl, formN 0x14 (Dst.own d) a (w / 2) [(w % 2, 1), (pos, 6)])
  | .addImm sl d a i => some (sl, formI 0x21 d a [(i.toNat, 15)])
  | .andImm sl d a i => some (sl, formI 0x26 d a [(i.toNat, 15)])
  | .orImm sl d a i => some (sl, formI 0x27 d a [(i.toNat, 15)])
  | .xorImm sl d a i => some (sl, formI 0x28 d a [(i.toNat, 15)])
  | .shlImm sl d a c => some (sl, formI 0x29 d a [(0, 9), (c, 6)])
  | .shrImm sl d a c => some (sl, formI 0x2A d a [(0, 9), (c, 6)])
  | .sraImm sl d a c => some (sl, formI 0x2B d a [(0, 9), (c, 6)])
  | .sltImm sl d a i => some (sl, formI 0x2E d a [(i.toNat, 15)])
  | .movi sl d i => some (sl, [(0x30, 7), (d, 5), (i.toNat, 20)])
  | .movhi sl d i => some (sl, [(0x31, 7), (d, 5), (i.toNat, 20)])
  | .fadd sl d a b rm fs => some (sl, formX 0x40 d a b (formFp rm fs))
  | .fsub sl d a b rm fs => some (sl, formX 0x41 d a b (formFp rm fs))
  | .fmul sl d a b rm fs => some (sl, formX 0x42 d a b (formFp rm fs))
  | .fma sl d a b rm fs => some (sl, formX 0x43 (Dst.own d) a b (formFp rm fs))
  | .fmin sl d a b fs => some (sl, formX 0x44 d a b [(0, 2), (fs.code, 2), (0, 3)])
  | .fmax sl d a b fs => some (sl, formX 0x45 d a b [(0, 2), (fs.code, 2), (0, 3)])
  | .fcmp sl d a b fs c => some (sl, formX 0x46 d a b [(0, 2), (fs.code, 2), (c.code, 3)])
  | .fneg sl d a fs => some (sl, formU 0x47 d a [(0, 2), (fs.code, 2), (0, 3)])
  | .fabs sl d a fs => some (sl, formU 0x48 d a [(0, 2), (fs.code, 2), (0, 3)])
  | .fcvt sl d a rm dt st => some (sl, formN 0x49 d a st.code [(rm.code, 2), (0, 2), (dt.code, 3)])
  | .fclass sl d a fs => some (sl, formU 0x4A d a [(0, 2), (fs.code, 2), (0, 3)])
  | .fsnd sl d a fs => some (sl, formU 0x4B d a [(0, 2), (fs.code, 2), (0, 3)])
  | .fsndset sl d a n => some (sl, formSnd 0x4C d a n)
  | .bnet d a cfg => some (.b, formU 0x60 d a [(0, 4), (cfg, 3)])
  | .bnetld a st cfg => some (.b, formI 0x61 0 a [(0, 9), (st, 3), (cfg, 3)])
  | _ => none

/-- The fields of a syllable of slot M (R99). -/
def fieldsM : Instr → Option (List (Nat × Nat))
  | .atom d a b pool w op => some (formX 0x07 d a b [(0, 1), (pool.toNat, 1), (w.toNat, 1), (op.code, 4)])
  | .ebbadd o a pool => some (formS 0x09 o a [(0, 1), (pool.toNat, 1), (0, 5)])
  | .ebbld d a b sp => some (formX 0x08 d a b [(sp.code, 2), (0, 5)])
  | .gauge o a pool => some [(0x0A, 7), (o.num, 5), (a, 5), (0, 5), (o.pt, 2), (o.isH.toNat, 1), (0, 1), (pool.toNat, 1), (0, 5)]
  | .itset it a b l => some [(0x0D, 7), (0, 2), (it, 3), (a, 5), (b.num, 5), (b.pt, 2), (0, 5), (l, 3)]
  | .ld d a b sp sz sc sx => some (formX 0x01 d a b [(sp.code, 2), (sz.code, 2), (sc.toNat, 1), (sx.toNat, 1), (0, 1)])
  | .lds d a b sp sz sc sx => some (formX 0x03 d a b [(sp.code, 2), (sz.code, 2), (sc.toNat, 1), (sx.toNat, 1), (0, 1)])
  | .ldOffset d a sz sp off => some (formMI 0x21 d a sz sp off)
  | .ldsOffset d a sz sp off => some (formMI 0x23 d a sz sp off)
  | .ldm d a n sp => some (formN 0x05 d a n [(sp.code, 2), (0, 5)])
  | .madd d a b => some (formX 0x0E d a b [(0, 7)])
  | .maddImm d a i => some (formI 0x2E d a [(i.toNat, 15)])
  | .recv a k => some (formI 0x0C 0 a [(0, 8), (k, 7)])
  | .send o a sz => some (formS 0x0B o a [(0, 2), (sz.code, 2), (0, 3)])
  | .st o a sp sz sc => some (formS 0x02 o a [(sp.code, 2), (sz.code, 2), (sc.toNat, 1), (0, 2)])
  | .sts o a sp sz sc => some (formS 0x04 o a [(sp.code, 2), (sz.code, 2), (sc.toNat, 1), (0, 2)])
  | .stOffset d a sz sp off => some (formMI 0x22 d a sz sp off)
  | .stsOffset d a sz sp off => some (formMI 0x24 d a sz sp off)
  | .stm o a n sp => some [(0x06, 7), (o.num, 5), (a, 5), (n, 5), (0, 2), (o.isH.toNat, 1), (sp.code, 2), (0, 3), (o.pt, 2)]
  | _ => none

/-- The fields of a syllable of slots V and W, with its slot (R100). -/
def fieldsVW : Instr → Option (VW × List (Nat × Nat))
  | .vadd sl d a b rm => some (sl, formV 0x01 d a b [(rm.code, 2), (0, 5)])
  | .vsub sl d a b rm => some (sl, formV 0x02 d a b [(rm.code, 2), (0, 5)])
  | .vmul sl d a b rm => some (sl, formV 0x03 d a b [(rm.code, 2), (0, 5)])
  | .vfma sl d a b rm => some (sl, formV 0x04 d a b [(rm.code, 2), (0, 5)])
  | .vmin sl d a b => some (sl, formV 0x05 d a b [(0, 7)])
  | .vmax sl d a b => some (sl, formV 0x06 d a b [(0, 7)])
  | .vabs sl d a => some (sl, formVU 0x07 d a [(0, 7)])
  | .vneg sl d a => some (sl, formVU 0x08 d a [(0, 7)])
  | .vcmp sl d a b c => some (sl, formV 0x09 d a b [(0, 4), (c.code, 3)])
  | .vsel sl d a b => some (sl, formV 0x0A d a b [(0, 7)])
  | .vcvt sl d a rm sat f => some (sl, formVU 0x0B d a [(rm.code, 2), (sat.toNat, 1), (f.code, 4)])
  | .vsat sl d a u g => some (sl, formVU 0x0C d a [(0, 4), (u.toNat, 1), (g, 2)])
  | .viadd sl d a b s => some (sl, formV 0x10 d a b [(0, 2), (s.toNat, 1), (0, 4)])
  | .visub sl d a b s => some (sl, formV 0x11 d a b [(0, 2), (s.toNat, 1), (0, 4)])
  | .vimul sl d a b s => some (sl, formV 0x12 d a b [(0, 2), (s.toNat, 1), (0, 4)])
  | .vimac sl d a b s => some (sl, formV 0x13 d a b [(0, 2), (s.toNat, 1), (0, 4)])
  | .vand sl d a b => some (sl, formV 0x14 d a b [(0, 7)])
  | .vor sl d a b => some (sl, formV 0x15 d a b [(0, 7)])
  | .vxor sl d a b => some (sl, formV 0x16 d a b [(0, 7)])
  | .vshl sl d a c => some (sl, formSh 0x17 d a c 0 [(0, 7)])
  | .vshr sl d a c ar => some (sl, formSh 0x18 d a c ar.toNat [(0, 1), (ar.toNat, 1), (0, 5)])
  | .vsum sl d a x => some (sl, formVU 0x20 d a [(0, 6), (x.toNat, 1)])
  | .vmaxr sl d a x => some (sl, formVU 0x21 d a [(0, 6), (x.toNat, 1)])
  | .vbcast sl d h => some (sl, formVM 0x22 d h [(0, 7)])
  | .vtrn sl d a => some (sl, formVU 0x23 d a [(0, 7)])
  | .vslide sl d a b up k => some (sl, formV 0x24 d a b [(up.toNat, 1), (k, 6)])
  | .vmovi sl d i => some (sl, [(0x25, 7), (d, 5), (i.toNat / 64, 10), (0, 2), (0, 1), (0, 1), (i.toNat % 64, 6)])
  | .vrcp sl d a rm => some (sl, formVU 0x28 d a [(rm.code, 2), (0, 5)])
  | .vrsq sl d a rm => some (sl, formVU 0x29 d a [(rm.code, 2), (0, 5)])
  | .vexp2 sl d a rm => some (sl, formVU 0x2A d a [(rm.code, 2), (0, 5)])
  | .vld sl d h off => some (sl, formVM 0x30 d h [(off.toNat, 7)])
  | .vst sl d h off => some (sl, formVM 0x31 d h [(off.toNat, 7)])
  | .vlds sl d h off => some (sl, formVM 0x32 d h [(off.toNat, 7)])
  | .vsts sl d h off => some (sl, formVM 0x33 d h [(off.toNat, 7)])
  | .vldx sl d h n => some (sl, formVM 0x34 d h [(0, 2), (n, 5)])
  | .vstx sl d h n => some (sl, formVM 0x35 d h [(0, 2), (n, 5)])
  | .vldz sl d h => some (sl, formVM 0x36 d h [(0, 7)])
  | .vstz sl d h c => some (sl, formVM 0x37 d h [(c, 7)])
  | .vsnd sl d a set n => some (sl, formVU 0x38 d a [(set.toNat, 1), (n, 6)])
  | .vzmap sl d a g => some (sl, formI 0x39 d a [(0, 7), (1, 1), (0, 4), (g, 3)])
  | _ => none

/-- The fields of a syllable of slot F (R101). -/
def fieldsF : Instr → Option (List (Nat × Nat))
  | .fdiv d a b rm fs => some (formX 0x01 d a b (formFp rm fs))
  | .fsqrt d a rm fs => some (formU 0x02 d a (formFp rm fs))
  | .frcp d a rm fs => some (formU 0x03 d a (formFp rm fs))
  | .frsq d a rm fs => some (formU 0x04 d a (formFp rm fs))
  | .fexp2 d a rm fs => some (formU 0x05 d a (formFp rm fs))
  | .flog2 d a rm fs => some (formU 0x06 d a (formFp rm fs))
  | .fatan2 d a b rm fs => some (formX 0x07 d a b (formFp rm fs))
  | .fsincos d a rm fs => some (formU 0x08 (Dst.own d) a (formFp rm fs))
  | .fdecay d a b => some (formX 0x09 d a b [(0, 7)])
  | _ => none

/-- The fields of a syllable of slot E (R102). -/
def fieldsE : Instr → Option (List (Nat × Nat))
  | .arrld h => some (formE 0x01 h 0 0 [(0, 10)])
  | .arrscl h => some (formE 0x02 h 0 0 [(0, 10)])
  | .arrpass h m rev dc => some (formE 0x03 h 0 0 [(0, 6), (dc.toNat, 1), (rev.toNat, 1), (m.code, 2)])
  | .arrsweep h r => some (formE 0x04 h 0 0 [(0, 9), (r.toNat, 1)])
  | .arrsave h => some (formE 0x05 h 0 0 [(0, 10)])
  | .arrrest h => some (formE 0x06 h 0 0 [(0, 10)])
  | .arrgang h => some (formE 0x07 h 0 0 [(0, 10)])
  | .cpy h i r => some (formE 0x10 h 1 i [(0, 4), (r, 6)])
  | .cpymc h i r => some (formE 0x11 h 1 i [(0, 4), (r, 6)])
  | .sixrun h r l => some (formE 0x12 h 2 0 [(0, 7), (l.toNat, 1), (r, 2)])
  | .scrub h i => some (formE 0x13 h 1 i [(0, 10)])
  | .coll h i op f => some (formE 0x18 h 3 i [(0, 6), (f.code, 2), (op.code, 2)])
  | .rld h p => some (formE 0x19 h 4 p [(0, 10)])
  | .rst h p => some (formE 0x1A h 4 p [(0, 10)])
  | .nmc h => some (formE 0x20 h 5 0 [(0, 10)])
  | .publish h => some (formE 0x21 h 6 0 [(0, 10)])
  | .chkpt h => some (formE 0x28 h 6 0 [(0, 10)])
  | .stepadv h i => some (formE 0x29 h 6 0 [(0, 2), (i.toNat, 8)])
  | .ebbsweep h r => some (formE 0x2A h 6 0 [(0, 6), (r, 4)])
  | .engq h c i => some (formE 0x30 h c.code i [(0, 10)])
  | _ => none

/-- The fields of a syllable of slot C (R104). -/
def fieldsC : Instr → Option (List (Nat × Nat))
  | .br c off => some [(0x01, 7), (c.num, 5), (c.pt, 2), (off.toNat, 18)]
  | .bsnd h s ge off => some (formB 0x02 h [(s, 6), (ge.toNat, 1), (off.toNat, 11)])
  | .call off => some [(0x03, 7), (0, 7), (off.toNat, 18)]
  | .ret => some [(0x04, 7), (0, 25)]
  | .loop n rev pre e => some [(0x05, 7), (n.num, 5), (n.pt, 2), (rev.toNat, 1), (pre.toNat, 1), (e.toNat, 16)]
  | .xmov df d sf s => some [(0x08, 7), (d, 5), (df.code, 3), (s, 5), (sf.code, 3), (0, 9)]
  | .fmtset f => some [(0x09, 7), (0, 5), (0, 16), (f.code, 4)]
  | .shape file r c => some [(0x0A, 7), (0, 4), ((file == .w).toNat, 1), (0, 9), (r, 5), (c, 6)]
  | .sync m => some [(0x0C, 7), (0, 5), (0, 4), (m.toNat, 16)]
  | .waitg h l => some [(0x0D, 7), (l.toNat / 4096, 5), (l.toNat / 128 % 32, 5), (h.reg, 5), (h.port.code, 2), (0, 1), (l.toNat % 128, 7)]
  | .fence s => some [(0x0E, 7), (0, 22), (s.code, 3)]
  | .tfence => some [(0x0F, 7), (0, 25)]
  | .watch => some [(0x10, 7), (0, 25)]
  | .doneI => some [(0x1F, 7), (0, 25)]
  | .sysrd d n => some [(0x18, 7), (d, 5), (0, 12), (1, 1), (n, 7)]
  | .syswr h n => some [(0x19, 7), (0, 10), (h.reg, 5), (h.port.code, 2), (0, 1), (n, 7)]
  | .trap c => some [(0x1C, 7), (0, 17), (c.toNat, 8)]
  | .brk t => some [(0x1D, 7), (0, 9), (t.toNat, 16)]
  | _ => none

end Sys2Proof
end

section
/-! SUPPORT. The encoder writes the fields of a syllable, and each value fits its field: O56, O57. -/

namespace Sys2Proof

/-! ### The encoder writes the fields -/

@[simp] theorem Dst.own_num {n : Nat} (r : Fin n) : (Dst.own r).num = r.val := rfl
@[simp] theorem Dst.own_isH {n : Nat} (r : Fin n) : (Dst.own r).isH = false := rfl

theorem Dst.enc_eq {n : Nat} (d : Dst n) : d.enc = d.num * 2 ^ 20 + d.isH.toNat * 2 ^ 7 := by
  cases d <;> simp [Dst.enc, Dst.num, Dst.isH]
theorem Src.enc_eq {n : Nat} (b : Src n) : b.enc = b.num * 2 ^ 10 + b.pt * 2 ^ 8 := by
  cases b <;> simp [Src.enc, Src.num, Src.pt]
theorem SOpnd.enc_eq (o : SOpnd) : o.enc = o.num * 2 ^ 20 + o.sb * 2 ^ 10 + o.pt * 2 ^ 8 + o.isH.toNat * 2 ^ 7 := by
  cases o <;> simp [SOpnd.enc, SOpnd.num, SOpnd.sb, SOpnd.pt, SOpnd.isH, Src.enc_eq, Nat.add_assoc]

theorem encodeSyl_eq_glue {i : Instr} {sl : Slot} {w : Nat} {l : List (Nat × Nat)} (he : encodeSyl i = some (sl, w)) (hw : w = glue 32 l) :
    encodeSyl i = some (sl, glue 32 l) := hw ▸ he

theorem encodeSyl_fieldsAB {i : Instr} {sl : AB} {l : List (Nat × Nat)} (h : fieldsAB i = some (sl, l)) :
    encodeSyl i = some (sl.slot, glue 32 l) := by
  cases i <;> cases h
  case fsndset n => cases n <;> exact encodeSyl_eq_glue rfl (by simp [encX, encU, Dst.enc_eq, Src.enc_eq]; omega)
  all_goals exact encodeSyl_eq_glue rfl (by simp [encX, encU, encI, encBF, fpMod, Dst.enc_eq, Src.enc_eq]; omega)

theorem encodeSyl_fieldsM {i : Instr} {l : List (Nat × Nat)} (h : fieldsM i = some l) : encodeSyl i = some (.m, glue 32 l) := by
  cases i <;> cases h
  case gauge o _ _ => cases o <;> exact encodeSyl_eq_glue rfl (by simp [SReg.num, SReg.isH, SReg.pt]; omega)
  case stm o _ _ _ => cases o <;> exact encodeSyl_eq_glue rfl (by simp [SReg.num, SReg.isH, SReg.pt]; omega)
  all_goals exact encodeSyl_eq_glue rfl (by simp [encX, encU, encI, encMI, Dst.enc_eq, Src.enc_eq, SOpnd.enc_eq]; omega)

theorem encodeSyl_fieldsVW {i : Instr} {sl : VW} {l : List (Nat × Nat)} (h : fieldsVW i = some (sl, l)) :
    encodeSyl i = some (sl.slot, glue 32 l) := by
  cases i <;> cases h
  case vshl c => cases c <;> exact encodeSyl_eq_glue rfl (by simp [encV, encI, Src.enc_eq]; omega)
  case vshr c _ => cases c <;> exact encodeSyl_eq_glue rfl (by simp [encV, encI, Src.enc_eq]; omega)
  all_goals exact encodeSyl_eq_glue rfl (by simp [encV, encI, encVM, HRd.encX, Src.enc_eq]; omega)

theorem encodeSyl_fieldsF {i : Instr} {l : List (Nat × Nat)} (h : fieldsF i = some l) : encodeSyl i = some (.f, glue 32 l) := by
  cases i <;> cases h <;> exact encodeSyl_eq_glue rfl (by simp [encX, encU, fpMod, Dst.enc_eq, Src.enc_eq]; omega)

theorem encodeSyl_fieldsE {i : Instr} {l : List (Nat × Nat)} (h : fieldsE i = some l) : encodeSyl i = some (.e, glue 32 l) := by
  cases i <;> cases h <;> exact encodeSyl_eq_glue rfl (by simp [encE, HRd.encB] <;> omega)

theorem encodeSyl_fieldsC {i : Instr} {l : List (Nat × Nat)} (h : fieldsC i = some l) : encodeSyl i = some (.c, glue 32 l) := by
  cases i <;> cases h
  case br c _ => cases c <;> exact encodeSyl_eq_glue rfl (by simp [encC, HRd.encB, BrCond.num, BrCond.pt] <;> omega)
  case loop n _ _ _ => cases n <;> exact encodeSyl_eq_glue rfl (by simp [encC, HRd.encB, LCount.num, LCount.pt]; omega)
  case shape f _ _ => cases f <;> exact encodeSyl_eq_glue rfl (by simp [encC] <;> omega)
  all_goals exact encodeSyl_eq_glue rfl (by simp [encC, HRd.encB, HRd.encX] <;> omega)

/-! ### Each value fits its field -/

@[simp] theorem Port.code_lt (x : Port) : x.code < 2 ^ 2 := by cases x <;> decide
@[simp] theorem Size.code_lt (x : Size) : x.code < 2 ^ 2 := by cases x <;> decide
@[simp] theorem Space.code_lt (x : Space) : x.code < 2 ^ 2 := by cases x <;> decide
@[simp] theorem RM.code_lt (x : RM) : x.code < 2 ^ 2 := by cases x <;> decide
@[simp] theorem FS.code_lt (x : FS) : x.code < 2 ^ 2 := by cases x <;> decide
@[simp] theorem Cond.code_lt (x : Cond) : x.code < 2 ^ 3 := by cases x <;> decide
@[simp] theorem CvtTy.code_lt (x : CvtTy) : x.code < 2 ^ 3 := by cases x <;> decide
@[simp] theorem Form.code_lt (x : Form) : x.code < 2 ^ 4 := by cases x <;> decide
@[simp] theorem AtomOp.code_lt (x : AtomOp) : x.code < 2 ^ 4 := by cases x <;> decide
@[simp] theorem PassMode.code_lt (x : PassMode) : x.code < 2 ^ 2 := by cases x <;> decide
@[simp] theorem CollOp.code_lt (x : CollOp) : x.code < 2 ^ 2 := by cases x <;> decide
@[simp] theorem CollFmt.code_lt (x : CollFmt) : x.code < 2 ^ 2 := by cases x <;> decide
@[simp] theorem EClass.code_lt (x : EClass) : x.code < 2 ^ 3 := by cases x <;> decide
@[simp] theorem FScope.code_lt (x : FScope) : x.code < 2 ^ 3 := by cases x <;> decide
@[simp] theorem File.code_lt (x : File) : x.code < 2 ^ 3 := by cases x <;> decide
@[simp] theorem CvtTy.code_lt_sb (x : CvtTy) : x.code < 2 ^ 5 := x.code_lt.trans (by decide)

@[simp] theorem Dst.num_lt {n : Nat} (d : Dst n) (h : n ≤ 32) : d.num < 2^5 := by
  cases d with
  | own r => exact r.isLt.trans_le h
  | h r => exact r.isLt
@[simp] theorem Src.num_lt {n : Nat} (d : Src n) (h : n ≤ 32) : d.num < 2^5 := by
  cases d with
  | own r => exact r.isLt.trans_le h
  | h _ r => exact r.isLt
@[simp] theorem Src.pt_lt {n : Nat} (d : Src n) : d.pt < 2^2 := by
  cases d with
  | own r => exact Nat.two_pow_pos 2
  | h p _ => exact p.code_lt
@[simp] theorem SOpnd.num_lt (o : SOpnd) : o.num < 2^5 := by cases o <;> exact Fin.isLt _
@[simp] theorem SOpnd.sb_lt (o : SOpnd) : o.sb < 2^5 := by
  cases o with
  | m d b => exact b.num_lt (by decide)
  | h d b => exact b.isLt
@[simp] theorem SOpnd.pt_lt (o : SOpnd) : o.pt < 2^2 := by
  cases o with
  | m d b => exact b.pt_lt
  | h d b => exact d.port.code_lt
@[simp] theorem SReg.num_lt (o : SReg) : o.num < 2^5 := by cases o <;> exact Fin.isLt _
@[simp] theorem SReg.pt_lt (o : SReg) : o.pt < 2^2 := by
  cases o with
  | m d => exact Nat.two_pow_pos 2
  | h d => exact d.port.code_lt


@[simp] theorem BrCond.num_lt (c : BrCond) : c.num < 2 ^ 5 := by
  cases c with
  | always => exact Nat.two_pow_pos 5
  | ifH h => exact h.reg.isLt
@[simp] theorem BrCond.pt_lt (c : BrCond) : c.pt < 2 ^ 2 := by
  cases c with
  | always => exact Nat.two_pow_pos 2
  | ifH h => exact h.port.code_lt
@[simp] theorem LCount.num_lt (c : LCount) : c.num < 2 ^ 5 := by cases c <;> exact Fin.isLt _
@[simp] theorem LCount.pt_lt (c : LCount) : c.pt < 2 ^ 2 := by
  cases c with
  | imm n => exact Nat.two_pow_pos 2
  | reg h => exact h.port.code_lt

@[simp] theorem fin2_lt (a : Fin 2) : a.val < 2 ^ 5 := a.isLt.trans (by decide)
@[simp] theorem fin4_lt (a : Fin 4) : a.val < 2 ^ 2 := a.isLt
@[simp] theorem fin4_lt_inst (a : Fin 4) : a.val < 2 ^ 5 := a.isLt.trans (by decide)
@[simp] theorem fin8_lt (a : Fin 8) : a.val < 2 ^ 3 := a.isLt
@[simp] theorem fin16_lt (a : Fin 16) : a.val < 2 ^ 5 := a.isLt.trans (by decide)
@[simp] theorem fin16_lt_four (a : Fin 16) : a.val < 2 ^ 4 := a.isLt
@[simp] theorem fin32_lt (a : Fin 32) : a.val < 2 ^ 5 := a.isLt
@[simp] theorem fin64_lt (a : Fin 64) : a.val < 2 ^ 6 := a.isLt
@[simp] theorem fin128_lt (a : Fin 128) : a.val < 2 ^ 7 := a.isLt

@[simp] theorem toNat_lt_two_pow (b : Bool) : b.toNat < 2 ^ 1 := b.toNat_lt

theorem fills_fieldsAB {i : Instr} {sl : AB} {l : List (Nat × Nat)} (h : fieldsAB i = some (sl, l)) : Fills 32 l := by
  cases i <;> cases h
  case fsndset n => cases n <;> simp [Bool.toNat_le, -Nat.reducePow] <;> omega
  all_goals simp [BitVec.isLt, Bool.toNat_le, -Nat.reducePow] <;> omega

theorem fills_fieldsM {i : Instr} {l : List (Nat × Nat)} (h : fieldsM i = some l) : Fills 32 l := by
  cases i <;> cases h
  all_goals simp [BitVec.isLt, Bool.toNat_le, -Nat.reducePow] <;> omega

theorem fills_fieldsVW {i : Instr} {sl : VW} {l : List (Nat × Nat)} (h : fieldsVW i = some (sl, l)) : Fills 32 l := by
  cases i <;> cases h
  case vmovi i =>
    refine ⟨by decide, by decide, by decide, fin16_lt _, by decide, Nat.div_lt_of_lt_mul ?_, by decide, by decide, by decide, by decide, by decide,
      by decide, by decide, Nat.mod_lt _ (by decide), rfl⟩
    exact i.isLt
  case vshl c => cases c <;> simp [-Nat.reducePow] <;> omega
  case vshr c _ => cases c <;> simp [Bool.toNat_le, -Nat.reducePow] <;> omega
  all_goals simp [BitVec.isLt, Bool.toNat_le, -Nat.reducePow] <;> omega

theorem fills_fieldsF {i : Instr} {l : List (Nat × Nat)} (h : fieldsF i = some l) : Fills 32 l := by
  cases i <;> cases h
  all_goals simp [Bool.toNat_le, -Nat.reducePow] <;> omega

theorem fills_fieldsE {i : Instr} {l : List (Nat × Nat)} (h : fieldsE i = some l) : Fills 32 l := by
  cases i <;> cases h
  all_goals simp [BitVec.isLt, Bool.toNat_le, -Nat.reducePow] <;> omega

theorem fills_fieldsC {i : Instr} {l : List (Nat × Nat)} (h : fieldsC i = some l) : Fills 32 l := by
  cases i <;> cases h
  case waitg h l =>
    refine ⟨by decide, by decide, by decide, Nat.div_lt_of_lt_mul ?_, by decide, Nat.mod_lt _ (by decide), by decide, h.reg.isLt, by decide,
      h.port.code_lt, by decide, by decide, by decide, Nat.mod_lt _ (by decide), rfl⟩
    exact l.isLt
  all_goals simp [BitVec.isLt, Bool.toNat_le, -Nat.reducePow] <;> omega

end Sys2Proof
end

section
/-! SUPPORT. The decoder reads the fields of a syllable back: O56. -/

namespace Sys2Proof

/-! ### The decoder reads the fields -/

@[simp] theorem RM.ofCode_code (x : RM) : RM.ofCode x.code = x := by cases x <;> rfl
@[simp] theorem FS.ofCode_code (x : FS) : FS.ofCode x.code = x := by cases x <;> rfl
@[simp] theorem Size.ofCode_code (x : Size) : Size.ofCode x.code = x := by cases x <;> rfl
@[simp] theorem Space.ofCode_code (x : Space) : Space.ofCode x.code = x := by cases x <;> rfl
@[simp] theorem Port.ofCode_code (x : Port) : Port.ofCode x.code = x := by cases x <;> rfl
@[simp] theorem Cond.ofCode_code (x : Cond) : Cond.ofCode x.code = some x := by cases x <;> rfl
@[simp] theorem CvtTy.ofCode_code (x : CvtTy) : CvtTy.ofCode x.code = some x := by cases x <;> rfl
@[simp] theorem Form.ofCode_code (x : Form) : Form.ofCode x.code = some x := by cases x <;> rfl
@[simp] theorem AtomOp.ofCode_code (x : AtomOp) : AtomOp.ofCode x.code = some x := by cases x <;> rfl
@[simp] theorem PassMode.ofCode_code (x : PassMode) : PassMode.ofCode x.code = some x := by cases x <;> rfl
@[simp] theorem CollOp.ofCode_code (x : CollOp) : CollOp.ofCode x.code = some x := by cases x <;> rfl
@[simp] theorem CollFmt.ofCode_code (x : CollFmt) : CollFmt.ofCode x.code = some x := by cases x <;> rfl
@[simp] theorem EClass.ofCode_code (x : EClass) : EClass.ofCode x.code = some x := by cases x <;> rfl
@[simp] theorem FScope.ofCode_code (x : FScope) : FScope.ofCode x.code = some x := by cases x <;> rfl
@[simp] theorem File.ofCode_code (x : File) : File.ofCode x.code = some x := by cases x <;> rfl
@[simp] theorem Port.code_ne_zero (x : Port) : x.code ≠ 0 := by cases x <;> decide

theorem toNat_eq_zero {n : Nat} {x : BitVec n} : x.toNat = 0 ↔ x = 0#n :=
  ⟨fun h => BitVec.eq_of_toNat_eq (by simpa using h), by rintro rfl; simp⟩

/-! ### The instructions whose fields have bounds of their own (R97 to R105, R221, R295) -/

@[simp] theorem wf_bfi {sl : AB} {d a : Fin 32} {pos w : Fin 64} :
    (Instr.bfi sl d a pos w).wf = decide (pos.val + w.val + 1 ≤ 64) := rfl
@[simp] theorem wf_bfx {sl : AB} {d : Dst 32} {a : Fin 32} {pos w : Fin 64} :
    (Instr.bfx sl d a pos w).wf = decide (pos.val + w.val + 1 ≤ 64) := rfl
@[simp] theorem wf_bnetld {a : Fin 32} {k c : Fin 8} :
    (Instr.bnetld a k c).wf = decide (k.val < 6) := rfl
@[simp] theorem wf_fcvt {sl : AB} {d : Dst 32} {a : Fin 32} {rm : RM} {x y : CvtTy} :
    (Instr.fcvt sl d a rm x y).wf = (x != y && !(x.isInt && y.isInt)) := rfl
@[simp] theorem wf_atom {d : Dst 32} {a : Fin 32} {b : Src 32} {p w : Bool} {op : AtomOp} :
    (Instr.atom d a b p w op).wf = op.ok w d := rfl
@[simp] theorem wf_itset {it l : Fin 8} {a : Fin 32} {b : Src 32} :
    (Instr.itset it a b l).wf = decide (l.val < 6) := rfl
@[simp] theorem wf_lds {d : Dst 32} {a : Fin 32} {b : Src 32} {sp : Space} {sz : Size} {sc sx : Bool} :
    (Instr.lds d a b sp sz sc sx).wf = sz.wide := rfl
@[simp] theorem wf_ldsOffset {d a : Fin 32} {sz : Size} {sp : Space} {off : BitVec 11} :
    (Instr.ldsOffset d a sz sp off).wf = sz.wide := rfl
@[simp] theorem wf_sts {o : SOpnd} {a : Fin 32} {sp : Space} {sz : Size} {sc : Bool} :
    (Instr.sts o a sp sz sc).wf = sz.wide := rfl
@[simp] theorem wf_stsOffset {d a : Fin 32} {sz : Size} {sp : Space} {off : BitVec 11} :
    (Instr.stsOffset d a sz sp off).wf = sz.wide := rfl
@[simp] theorem wf_ldm {d : Dst 32} {a n : Fin 32} {sp : Space} :
    (Instr.ldm d a n sp).wf = decide (d.num + n.val ≤ 31) := by cases d <;> rfl
@[simp] theorem wf_stm {o : SReg} {a n : Fin 32} {sp : Space} :
    (Instr.stm o a n sp).wf = decide (o.num + n.val ≤ 31) := rfl
@[simp] theorem wf_recv {a : Fin 32} {k : Fin 128} :
    (Instr.recv a k).wf = (k.val != 0) := rfl
@[simp] theorem wf_vsat {sl : VW} {d a : Fin 16} {u : Bool} {r : Fin 4} :
    (Instr.vsat sl d a u r).wf = (r.val != 3) := rfl
@[simp] theorem wf_vsnd {sl : VW} {d a : Fin 16} {set : Bool} {n : Fin 64} :
    (Instr.vsnd sl d a set n).wf = (set || n.val == 0) := rfl
@[simp] theorem wf_vstz {sl : VW} {d : Fin 16} {h : HRd} {cap : Fin 128} :
    (Instr.vstz sl d h cap).wf = (cap.val != 0) := rfl
@[simp] theorem wf_fsincos {d a : Fin 16} {rm : RM} {fs : FS} :
    (Instr.fsincos d a rm fs).wf = (d.val % 2 == 0) := rfl
@[simp] theorem wf_arrpass {h : HRd} {m : PassMode} {rev dc : Bool} :
    (Instr.arrpass h m rev dc).wf = (rev || !dc) := rfl
@[simp] theorem wf_engq {h : HRd} {c : EClass} {i : Fin 32} :
    (Instr.engq h c i).wf = decide (i.val < c.instances) := rfl
@[simp] theorem wf_sixrun {h : HRd} {r : Fin 4} {l : Bool} :
    (Instr.sixrun h r l).wf = (r.val != 3) := rfl
@[simp] theorem wf_stepadv {h : HRd} {i : BitVec 8} :
    (Instr.stepadv h i).wf = (i != 0) := rfl
@[simp] theorem wf_loop {n : LCount} {rev pre : Bool} {e : BitVec 16} :
    (Instr.loop n rev pre e).wf = (e != 0) := rfl
@[simp] theorem wf_sysrd {d : Fin 32} {n : Fin 128} :
    (Instr.sysrd d n).wf = decide (n.val < 0x1F) := rfl
@[simp] theorem wf_syswr {h : HRd} {n : Fin 128} :
    (Instr.syswr h n).wf = decide (n.val < 0x1F) := rfl
@[simp] theorem wf_waitg {h : HRd} {l : BitVec 17} :
    (Instr.waitg h l).wf = (l != 0) := rfl
@[simp] theorem wf_xmov {df sf : File} {d s : Fin 32} :
    (Instr.xmov df d sf s).wf = (df != sf && df.regOk d && sf.regOk s) := rfl
@[simp] theorem wf_nmx {dl : BitVec 10} {len : BitVec 18} {ix : BitVec 6} :
    (Instr.nmx dl len ix).wf = (decide (32 ≤ len.toNat) && decide (len.toNat ≤ 1023)) := rfl
@[simp] theorem wf_timelineLoop {dl : BitVec 10} {n : BitVec 18} :
    (Instr.timelineLoop dl n).wf = (n != 0) := rfl
@[simp] theorem wf_mark {dl c : BitVec 10} {n : BitVec 6} {pool : Bool} {g : BitVec 17} :
    (Instr.mark dl n c pool g).wf = (pool || decide (g.toNat < 0x2000)) := rfl
@[simp] theorem wf_publishn {dl l : BitVec 64} {n : BitVec 16} :
    (Instr.publishn dl n l).wf = (decide (1 ≤ n.toNat) && decide (n.toNat ≤ 32) && l.toNat % 2 == 0) := rfl
@[simp] theorem wf_waitn {dl ga li : BitVec 64} {m : BitVec 8} {g : BitVec 32} :
    (Instr.waitn dl m g ga li).wf = decide (m.toNat ≤ 1) := rfl
@[simp] theorem wf_chkptn {dl d : BitVec 64} {nr : BitVec 8} {r : Vector (BitVec 96) 3} :
    (Instr.chkptn dl nr r d).wf = (decide (1 ≤ nr.toNat) && decide (nr.toNat ≤ 3)) := rfl
@[simp] theorem wf_stepn {dl : BitVec 64} {i : BitVec 8} :
    (Instr.stepn dl i).wf = (i != 0) := rfl

/-- A destination is what its number and DH name; likewise a source and the other operands. -/
@[simp] theorem Dst.of_num {d : Dst 32} {p q} : (if d.isH = true then Dst.h ⟨d.num, p⟩ else Dst.own ⟨d.num, q⟩) = d := by
  cases d <;> rfl
@[simp] theorem Src.of_num {b : Src 32} {p q} : (if b.pt = 0 then Src.own ⟨b.num, p⟩ else Src.h (Port.ofCode b.pt) ⟨b.num, q⟩) = b := by
  cases b <;> simp [Src.pt, Src.num]
@[simp] theorem SOpnd.of_num {o : SOpnd} {p q r t u} : (if o.isH = true then SOpnd.h ⟨Port.ofCode o.pt, ⟨o.num, p⟩⟩ ⟨o.sb, q⟩
      else SOpnd.m ⟨o.num, r⟩ (if o.pt = 0 then Src.own ⟨o.sb, t⟩ else Src.h (Port.ofCode o.pt) ⟨o.sb, u⟩)) = o := by
  cases o with
  | m d b => exact congrArg (SOpnd.m d) Src.of_num
  | h d b => simp [SOpnd.isH, SOpnd.pt, SOpnd.num, SOpnd.sb]
@[simp] theorem SOpnd.port_of_isH (o : SOpnd) : o.isH = false ∨ ¬o.pt = 0 := by cases o <;> simp [SOpnd.isH, SOpnd.pt]
@[simp] theorem SReg.of_num {o : SReg} {p q} :
    (if o.isH = true then SReg.h ⟨Port.ofCode o.pt, ⟨o.num, p⟩⟩ else SReg.m ⟨o.num, q⟩) = o := by
  cases o <;> simp [SReg.isH, SReg.pt, SReg.num]
theorem SReg.isH_eq (o : SReg) : o.isH = (o.pt != 0) := by cases o <;> simp [SReg.isH, SReg.pt]

@[simp] theorem decodeSyl_ab (sl : AB) (w : Nat) : decodeSyl sl.slot w = decodeAB sl w := by cases sl <;> rfl
@[simp] theorem decodeSyl_vw (sl : VW) (w : Nat) : decodeSyl sl.slot w = decodeVW sl w := by cases sl <;> rfl

@[simp] theorem bits_zero {lo n : Nat} : bits 0 lo n = 0 := by simp [bits]
/-- A field within a field, and the low bits of one. -/
theorem bits_bits {w lo m k n : Nat} (h : k + n ≤ m) : bits (bits w lo m) k n = bits w (lo + k) n := by
  obtain ⟨c, rfl⟩ := Nat.exists_eq_add_of_le h
  rw [bits, bits, Nat.add_assoc, Nat.pow_add, Nat.mod_mul_right_div_self, Nat.div_div_eq_div_mul, ← Nat.pow_add,
    Nat.mod_mod_of_dvd _ (Nat.pow_dvd_pow 2 (Nat.le_add_right n c)), bits]
theorem bits_mod {w lo m n : Nat} (h : n ≤ m) : bits w lo m % 2 ^ n = bits w lo n := Nat.mod_mod_of_dvd _ (Nat.pow_dvd_pow 2 h)

/-- A field of five bits that names one of 16 registers (R91): its low four bits, and its fifth. -/
theorem reg16_eq (w lo : Nat) : reg16 w lo = ⟨bits w lo 5 % 16, Nat.mod_lt _ (by decide)⟩ := Fin.ext (bits_mod (by decide)).symm
theorem r16ok_eq (w lo : Nat) : r16ok w lo = decide (bits w lo 5 < 16) := by
  rw [r16ok, bits, Nat.pow_add, ← Nat.div_div_eq_div_mul, bits, Bool.eq_iff_iff, beq_iff_eq, decide_eq_true_iff]
  omega
theorem fin4_eq (w lo : Nat) : fin4 w lo = ⟨bits w lo 5 % 4, Nat.mod_lt _ (by decide)⟩ := Fin.ext (bits_mod (by decide)).symm
theorem fin2_eq (w lo : Nat) : fin2 w lo = ⟨bits w lo 5 % 2, Nat.mod_lt _ (by decide)⟩ := Fin.ext (bits_mod (by decide)).symm
@[simp] theorem Fin.mk_mod_four {a : Fin 4} {p} : (⟨a.val % 4, p⟩ : Fin 4) = a := Fin.ext (Nat.mod_eq_of_lt a.isLt)
@[simp] theorem Fin.mk_mod_two {a : Fin 2} {p} : (⟨a.val % 2, p⟩ : Fin 2) = a := Fin.ext (Nat.mod_eq_of_lt a.isLt)
theorem Fin.val_le_one (a : Fin 2) : a.val ≤ 1 := Nat.le_of_lt_succ a.isLt
@[simp] theorem Fin.mk_mod_sixteen {a : Fin 16} {p} : (⟨a.val % 16, p⟩ : Fin 16) = a := Fin.ext (Nat.mod_eq_of_lt a.isLt)
@[simp] theorem Src.of_num_mod {b : Src 16} {p q} :
    (if b.pt = 0 then Src.own ⟨b.num % 16, p⟩ else Src.h (Port.ofCode b.pt) ⟨b.num, q⟩) = b := by
  cases b <;> simp [Src.pt, Src.num]
@[simp] theorem Src.port_or_lt (b : Src 16) : ¬b.pt = 0 ∨ b.num < 16 := by cases b <;> simp [Src.pt, Src.num]
@[simp] theorem Dst.of_num_mod {d : Dst 16} {p q} : (if d.isH = true then Dst.h ⟨d.num, p⟩ else Dst.own ⟨d.num % 16, q⟩) = d := by
  cases d <;> simp [Dst.isH, Dst.num]
@[simp] theorem Dst.isH_or_lt (d : Dst 16) : d.isH = true ∨ d.num < 16 := by cases d <;> simp [Dst.isH, Dst.num]

@[simp] theorem BrCond.port_or_zero (c : BrCond) : ¬c.pt = 0 ∨ c.num = 0 := by cases c <;> simp [BrCond.pt, BrCond.num]
@[simp] theorem BrCond.of_num {c : BrCond} {p} : (if c.pt = 0 then BrCond.always else BrCond.ifH ⟨Port.ofCode c.pt, ⟨c.num, p⟩⟩) = c := by
  cases c <;> simp [BrCond.pt, BrCond.num]
@[simp] theorem LCount.of_num {n : LCount} {p q} :
    (if n.pt = 0 then LCount.imm ⟨n.num, p⟩ else LCount.reg ⟨Port.ofCode n.pt, ⟨n.num, q⟩⟩) = n := by
  cases n <;> simp [LCount.pt, LCount.num]
@[simp] theorem VW.of_eq_w {f : VW} : (if f = .w then VW.w else VW.v) = f := by cases f <;> rfl

/-- The limit of `WAITG`, in its three places (R104). -/
theorem limit_parts {n : Nat} : 4096 * (n / 4096) + 128 * (n / 128 % 32) + n % 128 = n := by omega
/-- The field of a bit field's width, in its two places (R97). -/
theorem halves {w : Fin 64} : (2 * (w.val / 2) + w.val % 2) % 64 = w.val := by omega

theorem decodeAB_of_reads {i : Instr} {sl : AB} {l : List (Nat × Nat)} {w : Nat} (h : fieldsAB i = some (sl, l)) (hwf : i.wf = true)
    (hr : Reads w 32 l) : decodeAB sl w = some i := by
  cases i <;> cases h
  case fsndset n => cases n <;> simp at hr <;> simp [decodeAB, hr, dst32, src32, reg32, fin64, bit, unary, okIf]
  all_goals
    simp at hr hwf
    simp [decodeAB, hr, hwf, dst32, src32, reg32, fin64, fin8, bit, mod0, unary, okIf, halves]

theorem decodeM_of_reads {i : Instr} {l : List (Nat × Nat)} {w : Nat} (h : fieldsM i = some l) (hwf : i.wf = true)
    (hr : Reads w 32 l) : decodeM w = some i := by
  cases i <;> cases h
  all_goals
    simp at hr hwf
    simp [decodeM, hr, hwf, dst32, src32, reg32, fin128, fin8, bit, mod0, sopnd, sopndOk, okIf, ← SReg.isH_eq]

theorem decodeVW_of_reads {i : Instr} {sl : VW} {l : List (Nat × Nat)} {w : Nat} (h : fieldsVW i = some (sl, l)) (hwf : i.wf = true)
    (hr : Reads w 32 l) : decodeVW sl w = some i := by
  cases i <;> cases h
  case vshl c =>
    cases c with
    | imm n => simp at hr; simp [decodeVW, hr, r16ok_eq, reg16_eq, reg32, bit, unary, okIf]
    | op b =>
      have h6 : bits (bits w 0 7) 6 1 = bits w 6 1 := bits_bits (by decide)
      simp at hr
      simp [decodeVW, hr, ← h6, src16, src16ok, r16ok_eq, reg16_eq, reg32, bit, mod0, okIf]
  case vshr n _ => cases n <;> simp at hr <;> simp [decodeVW, hr, src16, src16ok, r16ok_eq, reg16_eq, reg32, bit, unary, okIf]
  all_goals
    simp at hr hwf
    simp [decodeVW, hr, hwf, src16, src16ok, r16ok_eq, reg16_eq, reg32, fin64, fin8, fin4, fin128, hrdX, bit, mod0, unary, okIf, Nat.div_add_mod]

theorem decodeF_of_reads {i : Instr} {l : List (Nat × Nat)} {w : Nat} (h : fieldsF i = some l) (hwf : i.wf = true)
    (hr : Reads w 32 l) : decodeF w = some i := by
  cases i <;> cases h
  case fdecay d a b =>
    have h3 : bits w 0 7 % 2 ^ 3 = bits w 0 3 := bits_mod (by decide)
    simp at hr
    simp [decodeF, hr, ← h3, dst16, dst16ok, src16, src16ok, r16ok_eq, reg16_eq, reg32, bit, mod0, okIf]
  case fsincos d a rm fs =>
    have h1 : bits w 20 5 % 2 ^ 1 = bits w 20 1 := bits_mod (by decide)
    simp at hr hwf
    simp [decodeF, hr, hwf, ← h1, dst16ok, r16ok_eq, reg16_eq, bit, unary, okIf]
  all_goals
    simp at hr
    simp [decodeF, hr, dst16, dst16ok, src16, src16ok, r16ok_eq, reg16_eq, reg32, bit, unary, okIf]

theorem decodeE_of_reads {i : Instr} {l : List (Nat × Nat)} {w : Nat} (h : fieldsE i = some l) (hwf : i.wf = true)
    (hr : Reads w 32 l) : decodeE w = some i := by
  cases i <;> cases h
  case ebbsweep h r => simp at hr; simp [decodeE, hr, hrdB, reg16, reg32, okIf]
  case coll h k op f => simp at hr; simp [decodeE, hr, hrdB, fin4_eq, reg32, okIf]
  all_goals
    simp at hr hwf
    simp [decodeE, hr, hwf, hrdB, reg16_eq, reg32, fin64, fin4, fin2_eq, bit, okIf, Fin.val_le_one, toNat_eq_zero]

theorem decodeC_of_reads {i : Instr} {l : List (Nat × Nat)} {w : Nat} (h : fieldsC i = some l) (hwf : i.wf = true)
    (hr : Reads w 32 l) : decodeC w = some i := by
  cases i <;> cases h
  all_goals
    simp at hr hwf
    simp [decodeC, hr, hwf, hrdB, hrdX, reg32, fin64, fin128, bit, okIf, limit_parts, toNat_eq_zero]

end Sys2Proof
end

section
/-! SUPPORT. What a syllable that decodes reads as, and that it is well-formed: O57. -/

namespace Sys2Proof

/-! ### What a decoded operand is, field by field -/

theorem bits_lt (w lo n : Nat) : bits w lo n < 2 ^ n := Nat.mod_lt _ (Nat.two_pow_pos n)

@[simp] theorem RM.code_ofCode_bits (w lo : Nat) : (RM.ofCode (bits w lo 2)).code = bits w lo 2 := by
  have h := bits_lt w lo 2
  unfold RM.ofCode
  split_ifs <;> simp only [RM.code] <;> omega
@[simp] theorem FS.code_ofCode_bits (w lo : Nat) : (FS.ofCode (bits w lo 2)).code = bits w lo 2 := by
  have h := bits_lt w lo 2
  unfold FS.ofCode
  split_ifs <;> simp only [FS.code] <;> omega
@[simp] theorem Size.code_ofCode_bits (w lo : Nat) : (Size.ofCode (bits w lo 2)).code = bits w lo 2 := by
  have h := bits_lt w lo 2
  unfold Size.ofCode
  split_ifs <;> simp only [Size.code] <;> omega
@[simp] theorem Space.code_ofCode_bits (w lo : Nat) : (Space.ofCode (bits w lo 2)).code = bits w lo 2 := by
  have h := bits_lt w lo 2
  unfold Space.ofCode
  split_ifs <;> simp only [Space.code] <;> omega
@[simp] theorem Cond.ofCode_eq_some {n : Nat} {x : Cond} : Cond.ofCode n = some x ↔ n = x.code := by
  refine ⟨fun h => ?_, fun h => h ▸ x.ofCode_code⟩
  unfold Cond.ofCode at h
  split at h <;> cases h <;> rfl
@[simp] theorem CvtTy.ofCode_eq_some {n : Nat} {x : CvtTy} : CvtTy.ofCode n = some x ↔ n = x.code := by
  refine ⟨fun h => ?_, fun h => h ▸ x.ofCode_code⟩
  unfold CvtTy.ofCode at h
  split at h <;> cases h <;> rfl
@[simp] theorem Form.ofCode_eq_some {n : Nat} {x : Form} : Form.ofCode n = some x ↔ n = x.code := by
  refine ⟨fun h => ?_, fun h => h ▸ x.ofCode_code⟩
  unfold Form.ofCode at h
  split at h <;> cases h <;> rfl
@[simp] theorem AtomOp.ofCode_eq_some {n : Nat} {x : AtomOp} : AtomOp.ofCode n = some x ↔ n = x.code := by
  refine ⟨fun h => ?_, fun h => h ▸ x.ofCode_code⟩
  unfold AtomOp.ofCode at h
  split at h <;> cases h <;> rfl
@[simp] theorem PassMode.ofCode_eq_some {n : Nat} {x : PassMode} : PassMode.ofCode n = some x ↔ n = x.code := by
  refine ⟨fun h => ?_, fun h => h ▸ x.ofCode_code⟩
  unfold PassMode.ofCode at h
  split at h <;> cases h <;> rfl
@[simp] theorem CollOp.ofCode_eq_some {n : Nat} {x : CollOp} : CollOp.ofCode n = some x ↔ n = x.code := by
  refine ⟨fun h => ?_, fun h => h ▸ x.ofCode_code⟩
  unfold CollOp.ofCode at h
  split at h <;> cases h <;> rfl
@[simp] theorem CollFmt.ofCode_eq_some {n : Nat} {x : CollFmt} : CollFmt.ofCode n = some x ↔ n = x.code := by
  refine ⟨fun h => ?_, fun h => h ▸ x.ofCode_code⟩
  unfold CollFmt.ofCode at h
  split at h <;> cases h <;> rfl
@[simp] theorem EClass.ofCode_eq_some {n : Nat} {x : EClass} : EClass.ofCode n = some x ↔ n = x.code := by
  refine ⟨fun h => ?_, fun h => h ▸ x.ofCode_code⟩
  unfold EClass.ofCode at h
  split at h <;> cases h <;> rfl
@[simp] theorem FScope.ofCode_eq_some {n : Nat} {x : FScope} : FScope.ofCode n = some x ↔ n = x.code := by
  refine ⟨fun h => ?_, fun h => h ▸ x.ofCode_code⟩
  unfold FScope.ofCode at h
  split at h <;> cases h <;> rfl
@[simp] theorem File.ofCode_eq_some {n : Nat} {x : File} : File.ofCode n = some x ↔ n = x.code := by
  refine ⟨fun h => ?_, fun h => h ▸ x.ofCode_code⟩
  unfold File.ofCode at h
  split at h <;> cases h <;> rfl
@[simp] theorem Port.code_ofCode_bits {w lo : Nat} (h : bits w lo 2 ≠ 0) : (Port.ofCode (bits w lo 2)).code = bits w lo 2 := by
  have h := bits_lt w lo 2
  unfold Port.ofCode
  split_ifs <;> simp only [Port.code] <;> omega

@[simp] theorem reg32_val (w lo : Nat) : (reg32 w lo).val = bits w lo 5 := rfl
@[simp] theorem fin64_val (w lo : Nat) : (fin64 w lo).val = bits w lo 6 := rfl
@[simp] theorem fin8_val (w lo : Nat) : (fin8 w lo).val = bits w lo 3 := rfl
@[simp] theorem fin4_val (w lo : Nat) : (fin4 w lo).val = bits w lo 2 := rfl
@[simp] theorem fin128_val (w lo : Nat) : (fin128 w lo).val = bits w lo 7 := rfl
@[simp] theorem toNat_ofNat_bits (w lo n : Nat) : (BitVec.ofNat n (bits w lo n)).toNat = bits w lo n := Nat.mod_eq_of_lt (bits_lt w lo n)
@[simp] theorem bit_toNat (w lo : Nat) : (bit w lo).toNat = bits w lo 1 := by
  have h := bits_lt w lo 1
  unfold bit
  cases e : bits w lo 1 == 1 <;> simp at e ⊢ <;> omega
@[simp] theorem bit_eq_false {w lo : Nat} : bit w lo = false ↔ bits w lo 1 = 0 := by
  rw [← bit_toNat]; cases bit w lo <;> simp
@[simp] theorem bit_eq_true {w lo : Nat} : bit w lo = true ↔ bits w lo 1 = 1 := by
  rw [← bit_toNat]; cases bit w lo <;> simp

@[simp] theorem bits_one_ne_one {w lo : Nat} : ¬bits w lo 1 = 1 ↔ bits w lo 1 = 0 := by have := bits_lt w lo 1; omega
@[simp] theorem bits_one_mod_two {w lo : Nat} : bits w lo 1 % 2 = bits w lo 1 := Nat.mod_eq_of_lt (bits_lt w lo 1)
/-- The two places of a bit field's width (R97). -/
@[simp] theorem width_half {w : Nat} : (2 * bits w 10 5 + bits w 6 1) % 64 / 2 = bits w 10 5 := by
  have := bits_lt w 10 5; have := bits_lt w 6 1; omega

@[simp] theorem dst32_num (w : Nat) : (dst32 w).num = bits w 20 5 := by unfold dst32; split <;> rfl
@[simp] theorem dst32_isH (w : Nat) : (dst32 w).isH = bit w 7 := by unfold dst32; cases bit w 7 <;> rfl
@[simp] theorem src32_num (w : Nat) : (src32 w).num = bits w 10 5 := by unfold src32; split <;> rfl
@[simp] theorem src32_pt (w : Nat) : (src32 w).pt = bits w 8 2 := by
  unfold src32
  split
  next h => exact h.symm
  next h => exact Port.code_ofCode_bits h

theorem okIf_eq_some {c : Bool} {i j : Instr} : okIf c i = some j ↔ c = true ∧ i = j := by
  cases c <;> simp [okIf]
/-- In the shape of `okIf_eq_some`. -/
theorem some_eq_some_iff {i j : Instr} : some i = some j ↔ True ∧ i = j := by simp

theorem wf_of_decodeAB {i : Instr} {sl : AB} {w : Nat} (h : decodeAB sl w = some i) : i.wf = true := by
  unfold decodeAB at h
  dsimp only at h
  repeat' split at h
  all_goals simp only [okIf_eq_some, some_eq_some_iff, reduceCtorEq] at h
  all_goals obtain ⟨hc, rfl⟩ := h
  any_goals rfl
  all_goals simp at hc; simp [hc]

theorem reads_of_decodeAB {i : Instr} {sl : AB} {w : Nat} (h : decodeAB sl w = some i) :
    ∃ l, fieldsAB i = some (sl, l) ∧ Reads w 32 l := by
  unfold decodeAB at h
  dsimp only at h
  repeat' split at h
  all_goals simp only [okIf_eq_some, some_eq_some_iff, reduceCtorEq] at h
  all_goals
    obtain ⟨hc, rfl⟩ := h
    refine ⟨_, rfl, ?_⟩
    simp_all [mod0, unary, -BitVec.toNat_ofNat]

@[simp] theorem SReg.m_num (r : Fin 32) : (SReg.m r).num = r := rfl
@[simp] theorem SReg.h_num (d : HRd) : (SReg.h d).num = d.reg := rfl
@[simp] theorem SReg.m_pt (r : Fin 32) : (SReg.m r).pt = 0 := rfl
@[simp] theorem SReg.h_pt (d : HRd) : (SReg.h d).pt = d.port.code := rfl
@[simp] theorem SReg.m_isH (r : Fin 32) : (SReg.m r).isH = false := rfl
@[simp] theorem SReg.h_isH (d : HRd) : (SReg.h d).isH = true := rfl
@[simp] theorem sopnd_num (w : Nat) : (sopnd w).num = bits w 20 5 := by unfold sopnd; split <;> rfl
@[simp] theorem sopnd_sb (w : Nat) : (sopnd w).sb = bits w 10 5 := by
  unfold sopnd
  split
  · rfl
  · exact src32_num w
@[simp] theorem sopnd_isH (w : Nat) : (sopnd w).isH = bit w 7 := by unfold sopnd; cases bit w 7 <;> rfl
@[simp] theorem sopnd_pt {w : Nat} (h : sopndOk w = true) : (sopnd w).pt = bits w 8 2 := by
  unfold sopndOk at h
  unfold sopnd
  split
  next h7 => exact Port.code_ofCode_bits (by simpa [h7] using h)
  next h7 => exact src32_pt w

@[simp] theorem bit_eq_bne_zero {w lo n : Nat} : bit w lo = (n != 0) ↔ (bits w lo 1 = 1 ↔ n ≠ 0) := by
  rw [Bool.eq_iff_iff, bit_eq_true, bne_iff_ne]

theorem wf_of_decodeM {i : Instr} {w : Nat} (h : decodeM w = some i) : i.wf = true := by
  unfold decodeM at h
  dsimp only at h
  repeat' split at h
  all_goals simp only [okIf_eq_some, some_eq_some_iff, reduceCtorEq] at h
  all_goals obtain ⟨hc, rfl⟩ := h
  any_goals rfl
  all_goals simp_all

theorem reads_of_decodeM {i : Instr} {w : Nat} (h : decodeM w = some i) :
    ∃ l, fieldsM i = some l ∧ Reads w 32 l := by
  unfold decodeM at h
  dsimp only at h
  repeat' split at h
  all_goals simp only [okIf_eq_some, some_eq_some_iff, reduceCtorEq] at h
  all_goals
    obtain ⟨hc, rfl⟩ := h
    refine ⟨_, rfl, ?_⟩
    simp_all [mod0, -BitVec.toNat_ofNat]

@[simp] theorem reg16_val {w lo : Nat} (h : r16ok w lo = true) : (reg16 w lo).val = bits w lo 5 := by
  rw [r16ok_eq, decide_eq_true_iff] at h
  rw [reg16_eq]
  exact Nat.mod_eq_of_lt h
@[simp] theorem src16_num {w : Nat} (h : src16ok w = true) : (src16 w).num = bits w 10 5 := by
  unfold src16ok at h
  unfold src16
  split
  next h0 => exact reg16_val (by simpa [h0] using h)
  next h0 => rfl
@[simp] theorem src16_pt (w : Nat) : (src16 w).pt = bits w 8 2 := by
  unfold src16
  split
  next h => exact h.symm
  next h => exact Port.code_ofCode_bits h
@[simp] theorem dst16_num {w : Nat} (h : dst16ok w = true) : (dst16 w).num = bits w 20 5 := by
  unfold dst16ok at h
  unfold dst16
  split
  next h7 => rfl
  next h7 => exact reg16_val (by simpa [h7] using h)
@[simp] theorem dst16_isH (w : Nat) : (dst16 w).isH = bit w 7 := by unfold dst16; cases bit w 7 <;> rfl
@[simp] theorem hrdX_reg (w : Nat) : (hrdX w).reg = reg32 w 10 := rfl
@[simp] theorem hrdX_port (w : Nat) : (hrdX w).port = Port.ofCode (bits w 8 2) := rfl
@[simp] theorem hrdB_reg (w : Nat) : (hrdB w).reg = reg32 w 20 := rfl
@[simp] theorem hrdB_port (w : Nat) : (hrdB w).port = Port.ofCode (bits w 18 2) := rfl

/-- The two places of the immediate of `VMOVI` (R100). -/
@[simp] theorem vmovi_toNat (w : Nat) :
    (BitVec.ofNat 16 (64 * bits w 10 10 + bits w 0 6)).toNat = 64 * bits w 10 10 + bits w 0 6 := by
  have := bits_lt w 10 10
  have := bits_lt w 0 6
  exact Nat.mod_eq_of_lt (by omega)
@[simp] theorem vmovi_div (w : Nat) : (64 * bits w 10 10 + bits w 0 6) / 64 = bits w 10 10 := by have := bits_lt w 0 6; omega
@[simp] theorem vmovi_mod (w : Nat) : bits w 0 6 % 64 = bits w 0 6 := Nat.mod_eq_of_lt (bits_lt w 0 6)

/-- The three places of the limit of `WAITG` (R104). -/
@[simp] theorem waitg_toNat (w : Nat) :
    (BitVec.ofNat 17 (4096 * bits w 20 5 + 128 * bits w 15 5 + bits w 0 7)).toNat = 4096 * bits w 20 5 + 128 * bits w 15 5 + bits w 0 7 := by
  have := bits_lt w 20 5
  have := bits_lt w 15 5
  have := bits_lt w 0 7
  exact Nat.mod_eq_of_lt (by omega)
@[simp] theorem waitg_high (w : Nat) : (4096 * bits w 20 5 + 128 * bits w 15 5 + bits w 0 7) / 4096 = bits w 20 5 := by
  have := bits_lt w 15 5; have := bits_lt w 0 7; omega
@[simp] theorem waitg_mid (w : Nat) : (4096 * bits w 20 5 + 128 * bits w 15 5 + bits w 0 7) / 128 % 32 = bits w 15 5 := by
  have := bits_lt w 15 5; have := bits_lt w 0 7; omega
@[simp] theorem waitg_low (w : Nat) : (4096 * bits w 20 5 + 128 * bits w 15 5 + bits w 0 7) % 128 = bits w 0 7 := by
  have := bits_lt w 0 7; omega

theorem wf_of_decodeVW {i : Instr} {sl : VW} {w : Nat} (h : decodeVW sl w = some i) : i.wf = true := by
  unfold decodeVW at h
  dsimp only at h
  repeat' split at h
  all_goals simp only [okIf_eq_some, reduceCtorEq] at h
  all_goals obtain ⟨hc, rfl⟩ := h
  any_goals rfl
  all_goals simp_all

theorem reads_of_decodeVW {i : Instr} {sl : VW} {w : Nat} (h : decodeVW sl w = some i) :
    ∃ l, fieldsVW i = some (sl, l) ∧ Reads w 32 l := by
  unfold decodeVW at h
  dsimp only at h
  repeat' split at h
  all_goals simp only [okIf_eq_some, reduceCtorEq] at h
  all_goals
    obtain ⟨hc, rfl⟩ := h
    refine ⟨_, rfl, ?_⟩
    simp_all [mod0, unary, -BitVec.toNat_ofNat]

/-- `FSINCOS`: a destination of the slot's own file, which is even (R370). -/
@[simp] theorem reg16_val_of_dst16ok {w : Nat} (h7 : bits w 7 1 = 0) (h : dst16ok w = true) : (reg16 w 20).val = bits w 20 5 :=
  reg16_val (by simpa [dst16ok, h7] using h)
@[simp] theorem bits_five_mod_two (w lo : Nat) : bits w lo 5 % 2 = bits w lo 1 := bits_mod (n := 1) (by decide)

/-- The number of a unit within its class (R102): a field of five bits that is less than 2 or 4. -/
theorem fin2_val {w lo : Nat} (h : bits w lo 5 ≤ 1) : (fin2 w lo).val = bits w lo 5 := by
  rw [fin2_eq]; exact Nat.mod_eq_of_lt (Nat.lt_succ_of_le h)
theorem fin4_val_of_lt {w lo : Nat} (h : bits w lo 5 < 4) : (fin4 w lo).val = bits w lo 5 := by
  rw [fin4_eq]; exact Nat.mod_eq_of_lt h
@[simp] theorem ofNat_bits_eq_zero {w lo n : Nat} : BitVec.ofNat n (bits w lo n) = 0#n ↔ bits w lo n = 0 := by
  rw [← toNat_eq_zero, toNat_ofNat_bits]
@[simp] theorem waitg_eq_zero {w : Nat} : BitVec.ofNat 17 (4096 * bits w 20 5 + 128 * bits w 15 5 + bits w 0 7) = 0#17 ↔
    4096 * bits w 20 5 + 128 * bits w 15 5 + bits w 0 7 = 0 := by
  rw [← toNat_eq_zero, waitg_toNat]

@[simp] theorem BrCond.always_num : BrCond.always.num = 0 := rfl
@[simp] theorem BrCond.ifH_num (h : HRd) : (BrCond.ifH h).num = h.reg := rfl
@[simp] theorem BrCond.always_pt : BrCond.always.pt = 0 := rfl
@[simp] theorem BrCond.ifH_pt (h : HRd) : (BrCond.ifH h).pt = h.port.code := rfl
@[simp] theorem LCount.imm_num (n : Fin 32) : (LCount.imm n).num = n := rfl
@[simp] theorem LCount.reg_num (h : HRd) : (LCount.reg h).num = h.reg := rfl
@[simp] theorem LCount.imm_pt (n : Fin 32) : (LCount.imm n).pt = 0 := rfl
@[simp] theorem LCount.reg_pt (h : HRd) : (LCount.reg h).pt = h.port.code := rfl
@[simp] theorem VW.v_beq_w : (VW.v == VW.w) = false := rfl

theorem wf_of_decodeF {i : Instr} {w : Nat} (h : decodeF w = some i) : i.wf = true := by
  unfold decodeF at h
  dsimp only at h
  repeat' split at h
  all_goals simp only [okIf_eq_some, reduceCtorEq] at h
  all_goals obtain ⟨hc, rfl⟩ := h
  any_goals rfl
  all_goals simp_all

theorem reads_of_decodeF {i : Instr} {w : Nat} (h : decodeF w = some i) :
    ∃ l, fieldsF i = some l ∧ Reads w 32 l := by
  unfold decodeF at h
  dsimp only at h
  repeat' split at h
  all_goals simp only [okIf_eq_some, reduceCtorEq] at h
  all_goals
    obtain ⟨hc, rfl⟩ := h
    refine ⟨_, rfl, ?_⟩
    simp_all [mod0, unary, -BitVec.toNat_ofNat]

theorem wf_of_decodeE {i : Instr} {w : Nat} (h : decodeE w = some i) : i.wf = true := by
  unfold decodeE at h
  dsimp only at h
  repeat' split at h
  all_goals simp only [okIf_eq_some, reduceCtorEq] at h
  all_goals obtain ⟨hc, rfl⟩ := h
  any_goals rfl
  all_goals simp_all

theorem reads_of_decodeE {i : Instr} {w : Nat} (h : decodeE w = some i) :
    ∃ l, fieldsE i = some l ∧ Reads w 32 l := by
  unfold decodeE at h
  dsimp only at h
  repeat' split at h
  all_goals simp only [okIf_eq_some, reduceCtorEq] at h
  all_goals
    obtain ⟨hc, rfl⟩ := h
    refine ⟨_, rfl, ?_⟩
    simp_all [r16ok_eq, fin2_val, fin4_val_of_lt, -fin4_val, -BitVec.toNat_ofNat]
  -- `SIXRUN` and `EBBSWEEP`, whose fields are no wider than their operands.
  · rfl
  · rfl

theorem wf_of_decodeC {i : Instr} {w : Nat} (h : decodeC w = some i) : i.wf = true := by
  unfold decodeC at h
  dsimp only at h
  repeat' split at h
  all_goals simp only [okIf_eq_some, reduceCtorEq] at h
  all_goals obtain ⟨hc, rfl⟩ := h
  any_goals rfl
  all_goals simp_all

theorem reads_of_decodeC {i : Instr} {w : Nat} (h : decodeC w = some i) :
    ∃ l, fieldsC i = some l ∧ Reads w 32 l := by
  unfold decodeC at h
  dsimp only at h
  repeat' split at h
  all_goals simp only [okIf_eq_some, reduceCtorEq] at h
  all_goals
    obtain ⟨hc, rfl⟩ := h
    refine ⟨_, rfl, ?_⟩
    simp_all [-BitVec.toNat_ofNat]

end Sys2Proof
end

section
/-! SUPPORT. Syllables, timeline words and node records, encoded and decoded (R221 to R224, R294, R295): O55, O56, O57. -/

namespace Sys2Proof

/-! ### Syllables -/

/-- The fields of a syllable, with its slot. -/
def SylFields (i : Instr) (sl : Slot) (l : List (Nat × Nat)) : Prop :=
  (∃ s, fieldsAB i = some (s, l) ∧ sl = s.slot) ∨ (fieldsM i = some l ∧ sl = .m) ∨ (∃ s, fieldsVW i = some (s, l) ∧ sl = s.slot)
  ∨ (fieldsF i = some l ∧ sl = .f) ∨ (fieldsE i = some l ∧ sl = .e) ∨ (fieldsC i = some l ∧ sl = .c)

theorem encodeSyl_of_fields {i : Instr} {sl : Slot} {l : List (Nat × Nat)} (h : SylFields i sl l) : encodeSyl i = some (sl, glue 32 l) := by
  obtain ⟨s, h, rfl⟩ | ⟨h, rfl⟩ | ⟨s, h, rfl⟩ | ⟨h, rfl⟩ | ⟨h, rfl⟩ | ⟨h, rfl⟩ := h
  · exact encodeSyl_fieldsAB h
  · exact encodeSyl_fieldsM h
  · exact encodeSyl_fieldsVW h
  · exact encodeSyl_fieldsF h
  · exact encodeSyl_fieldsE h
  · exact encodeSyl_fieldsC h

theorem SylFields.fills {i : Instr} {sl : Slot} {l : List (Nat × Nat)} (h : SylFields i sl l) : Fills 32 l := by
  obtain ⟨s, h, rfl⟩ | ⟨h, rfl⟩ | ⟨s, h, rfl⟩ | ⟨h, rfl⟩ | ⟨h, rfl⟩ | ⟨h, rfl⟩ := h
  · exact fills_fieldsAB h
  · exact fills_fieldsM h
  · exact fills_fieldsVW h
  · exact fills_fieldsF h
  · exact fills_fieldsE h
  · exact fills_fieldsC h

theorem decodeSyl_of_reads {i : Instr} {sl : Slot} {l : List (Nat × Nat)} {w : Nat} (h : SylFields i sl l) (hwf : i.wf = true)
    (hr : Reads w 32 l) : decodeSyl sl w = some i := by
  obtain ⟨s, h, rfl⟩ | ⟨h, rfl⟩ | ⟨s, h, rfl⟩ | ⟨h, rfl⟩ | ⟨h, rfl⟩ | ⟨h, rfl⟩ := h
  · exact (decodeSyl_ab s w).trans (decodeAB_of_reads h hwf hr)
  · exact decodeM_of_reads h hwf hr
  · exact (decodeSyl_vw s w).trans (decodeVW_of_reads h hwf hr)
  · exact decodeF_of_reads h hwf hr
  · exact decodeE_of_reads h hwf hr
  · exact decodeC_of_reads h hwf hr

theorem wf_of_decodeSyl {i : Instr} {sl : Slot} {w : Nat} (h : decodeSyl sl w = some i) : i.wf = true := by
  cases sl with
  | a => exact wf_of_decodeAB h
  | b => exact wf_of_decodeAB h
  | m => exact wf_of_decodeM h
  | v => exact wf_of_decodeVW h
  | w => exact wf_of_decodeVW h
  | f => exact wf_of_decodeF h
  | e => exact wf_of_decodeE h
  | c => exact wf_of_decodeC h

theorem reads_of_decodeSyl {i : Instr} {sl : Slot} {w : Nat} (h : decodeSyl sl w = some i) : ∃ l, SylFields i sl l ∧ Reads w 32 l := by
  cases sl with
  | a => exact (reads_of_decodeAB h).imp fun _ => And.imp_left fun hf => .inl ⟨_, hf, rfl⟩
  | b => exact (reads_of_decodeAB h).imp fun _ => And.imp_left fun hf => .inl ⟨_, hf, rfl⟩
  | m => exact (reads_of_decodeM h).imp fun _ => And.imp_left fun hf => .inr (.inl ⟨hf, rfl⟩)
  | v => exact (reads_of_decodeVW h).imp fun _ => And.imp_left fun hf => .inr (.inr (.inl ⟨_, hf, rfl⟩))
  | w => exact (reads_of_decodeVW h).imp fun _ => And.imp_left fun hf => .inr (.inr (.inl ⟨_, hf, rfl⟩))
  | f => exact (reads_of_decodeF h).imp fun _ => And.imp_left fun hf => .inr (.inr (.inr (.inl ⟨hf, rfl⟩)))
  | e => exact (reads_of_decodeE h).imp fun _ => And.imp_left fun hf => .inr (.inr (.inr (.inr (.inl ⟨hf, rfl⟩))))
  | c => exact (reads_of_decodeC h).imp fun _ => And.imp_left fun hf => .inr (.inr (.inr (.inr (.inr ⟨hf, rfl⟩))))

theorem encodeSyl_isSome (i : Instr) : (encodeSyl i).isSome = decide (Spec.kindOf i = 1) := by
  cases i with
  | gauge o => cases o <;> rfl
  | stm o => cases o <;> rfl
  | fsndset _ _ _ n => cases n <;> rfl
  | vshl _ _ _ n => cases n <;> rfl
  | vshr _ _ _ n => cases n <;> rfl
  | br c => cases c <;> rfl
  | loop n => cases n <;> rfl
  | shape f => cases f <;> rfl
  | _ => rfl

theorem exists_sylFields {i : Instr} (h : Spec.kindOf i = 1) : ∃ sl l, SylFields i sl l := by
  have hs : ((fieldsAB i).isSome || (fieldsM i).isSome || (fieldsVW i).isSome || (fieldsF i).isSome || (fieldsE i).isSome
      || (fieldsC i).isSome) = true := by
    cases i <;> cases h <;> rfl
  simp only [Bool.or_eq_true, Option.isSome_iff_exists, Prod.exists] at hs
  obtain ((((⟨s, l, h⟩ | ⟨l, h⟩) | ⟨s, l, h⟩) | ⟨l, h⟩) | ⟨l, h⟩) | ⟨l, h⟩ := hs
  · exact ⟨_, l, .inl ⟨s, h, rfl⟩⟩
  · exact ⟨_, l, .inr (.inl ⟨h, rfl⟩)⟩
  · exact ⟨_, l, .inr (.inr (.inl ⟨s, h, rfl⟩))⟩
  · exact ⟨_, l, .inr (.inr (.inr (.inl ⟨h, rfl⟩)))⟩
  · exact ⟨_, l, .inr (.inr (.inr (.inr (.inl ⟨h, rfl⟩))))⟩
  · exact ⟨_, l, .inr (.inr (.inr (.inr (.inr ⟨h, rfl⟩))))⟩

/-- A well-formed syllable is what its encoding decodes to. -/
theorem decodeSyl_encodeSyl {i : Instr} {sl : Slot} {w : Nat} (hwf : i.wf = true) (he : encodeSyl i = some (sl, w)) :
    w < 2 ^ 32 ∧ decodeSyl sl w = some i := by
  have hk : Spec.kindOf i = 1 := of_decide_eq_true ((encodeSyl_isSome i).symm.trans (by rw [he]; rfl))
  obtain ⟨sl', l, hl⟩ := exists_sylFields hk
  obtain ⟨rfl, rfl⟩ := Prod.mk.inj (Option.some.inj (he.symm.trans (encodeSyl_of_fields hl)))
  exact ⟨glue_lt hl.fills, decodeSyl_of_reads hl hwf (reads_glue hl.fills)⟩

/-- A word that decodes is the encoding of what it decodes to. -/
theorem encodeSyl_decodeSyl {i : Instr} {sl : Slot} {w : Nat} (hw : w < 2 ^ 32) (h : decodeSyl sl w = some i) :
    encodeSyl i = some (sl, w) := by
  obtain ⟨l, hl, hr⟩ := reads_of_decodeSyl h
  rw [encodeSyl_of_fields hl, glue_eq_of_reads hw hl.fills hr]

/-! ### Timeline words (R221 to R224) -/

/-- The formats of R221: a command on a bank, on a column, and one with no bank. -/
@[simp] def formBank (op : Nat) (f : TlBank) (md : List (Nat × Nat)) : List (Nat × Nat) :=
  [(op, 6), (f.delay.toNat, 10), (f.pc.toNat, 1), (f.bank.toNat, 4)] ++ md
@[simp] def formCol (op : Nat) (f : TlCol) : List (Nat × Nat) :=
  [(op, 6), (f.delay.toNat, 10), (f.pc.toNat, 1), (f.bank.toNat, 4), (f.row.toNat, 18), (f.col.toNat, 6), (f.land.toNat, 19)]
@[simp] def formTl (op : Nat) (dl : BitVec 10) (md : List (Nat × Nat)) : List (Nat × Nat) := [(op, 6), (dl.toNat, 10)] ++ md

/-- The fields of a timeline word; `none` for every other step. -/
def fieldsTl : Instr → Option (List (Nat × Nat))
  | .act f row => some (formBank 0x01 f [(row.toNat, 18), (0, 25)])
  | .pre f => some (formBank 0x02 f [(0, 43)])
  | .prea dl pc => some (formTl 0x03 dl [(pc.toNat, 1), (0, 47)])
  | .rd f => some (formCol 0x04 f)
  | .rda f => some (formCol 0x05 f)
  | .wr f => some (formCol 0x06 f)
  | .wra f => some (formCol 0x07 f)
  | .crd f => some (formCol 0x08 f)
  | .ref dl pc => some (formTl 0x10 dl [(pc.toNat, 1), (0, 47)])
  | .refsb f => some (formBank 0x11 f [(0, 43)])
  | .rfm f => some (formBank 0x12 f [(0, 43)])
  | .scrb f => some (formBank 0x13 f [(0, 43)])
  | .nmx dl len ix => some (formTl 0x18 dl [(0, 5), (len.toNat, 18), (ix.toNat, 6), (0, 19)])
  | .waitc dl n => some (formTl 0x20 dl [(0, 5), (n.toNat, 18), (0, 25)])
  | .timelineLoop dl n => some (formTl 0x21 dl [(0, 5), (n.toNat, 18), (0, 25)])
  | .endl dl => some (formTl 0x22 dl [(0, 48)])
  | .mark dl n core pool g => some (formTl 0x28 dl [(n.toNat, 6), (core.toNat, 10), (pool.toNat, 1), (0, 10), (g.toNat, 17), (0, 4)])
  | .timelineEnd dl => some (formTl 0x3F dl [(0, 48)])
  | _ => none

theorem encodeTimeline_eq_glue {i : Instr} {w : Nat} {l : List (Nat × Nat)} (he : encodeTimeline i = some w) (hw : w = glue 64 l) :
    encodeTimeline i = some (glue 64 l) := hw ▸ he

theorem encodeTimeline_of_fields {i : Instr} {l : List (Nat × Nat)} (h : fieldsTl i = some l) : encodeTimeline i = some (glue 64 l) := by
  cases i <;> cases h
  all_goals exact encodeTimeline_eq_glue rfl (by simp [TlBank.enc, TlCol.enc, encTl] <;> omega)

theorem fills_fieldsTl {i : Instr} {l : List (Nat × Nat)} (h : fieldsTl i = some l) : Fills 64 l := by
  cases i <;> cases h
  all_goals (simp [BitVec.isLt, Bool.toNat_le, -Nat.reducePow]; omega)

theorem decodeTimeline_of_reads {i : Instr} {l : List (Nat × Nat)} {w : Nat} (h : fieldsTl i = some l) (hwf : i.wf = true)
    (hr : Reads w 64 l) : decodeTimeline w = some i := by
  cases i <;> cases h
  all_goals
    simp at hr hwf
    simp [decodeTimeline, hr, hwf, tlBank, tlCol, bit, okIf, toNat_eq_zero]

theorem wf_of_decodeTimeline {i : Instr} {w : Nat} (h : decodeTimeline w = some i) : i.wf = true := by
  unfold decodeTimeline at h
  dsimp only at h
  repeat' split at h
  all_goals simp only [okIf_eq_some, some_eq_some_iff, reduceCtorEq] at h
  all_goals obtain ⟨hc, rfl⟩ := h
  any_goals rfl
  all_goals simp_all [-BitVec.toNat_ofNat]

theorem reads_of_decodeTimeline {i : Instr} {w : Nat} (h : decodeTimeline w = some i) :
    ∃ l, fieldsTl i = some l ∧ Reads w 64 l := by
  unfold decodeTimeline at h
  dsimp only at h
  repeat' split at h
  all_goals simp only [okIf_eq_some, some_eq_some_iff, reduceCtorEq] at h
  all_goals
    obtain ⟨hc, rfl⟩ := h
    refine ⟨_, rfl, ?_⟩
    simp_all [tlBank, tlCol, -BitVec.toNat_ofNat]

theorem encodeTimeline_isSome (i : Instr) : (encodeTimeline i).isSome = decide (Spec.kindOf i = 2) := by cases i <;> rfl

theorem exists_fieldsTl {i : Instr} (h : Spec.kindOf i = 2) : ∃ l, fieldsTl i = some l := by
  rw [← Option.isSome_iff_exists]
  cases i <;> cases h <;> rfl

/-- A well-formed timeline word is what its encoding decodes to. -/
theorem decodeTimeline_encodeTimeline {i : Instr} {w : Nat} (hwf : i.wf = true) (he : encodeTimeline i = some w) :
    w < 2 ^ 64 ∧ decodeTimeline w = some i := by
  have hk : Spec.kindOf i = 2 := of_decide_eq_true ((encodeTimeline_isSome i).symm.trans (by rw [he]; rfl))
  obtain ⟨l, hl⟩ := exists_fieldsTl hk
  obtain rfl := Option.some.inj (he.symm.trans (encodeTimeline_of_fields hl))
  exact ⟨glue_lt (fills_fieldsTl hl), decodeTimeline_of_reads hl hwf (reads_glue (fills_fieldsTl hl))⟩

/-- A word that decodes is the encoding of what it decodes to. -/
theorem encodeTimeline_decodeTimeline {i : Instr} {w : Nat} (hw : w < 2 ^ 64) (h : decodeTimeline w = some i) : encodeTimeline i = some w := by
  obtain ⟨l, hl, hr⟩ := reads_of_decodeTimeline h
  rw [encodeTimeline_of_fields hl, glue_eq_of_reads hw (fills_fieldsTl hl) hr]

/-! ### Node records (R294, R295) -/

/-- The fields of a node record, the highest first; `none` for every other step. -/
def fieldsNode : Instr → Option (List (Nat × Nat))
  | .launch dl cm lt cy => some [(0, 192), (cy.toNat, 64), (lt.toNat, 64), (cm.toNat, 64), (dl.toNat, 64), (0, 56), (0x01, 8)]
  | .timeline dl ch wd so => some [(so.toNat, 64), (0, 48), (wd.toNat, 16), (ch.toNat, 256), (dl.toNat, 64), (0, 56), (0x02, 8)]
  | .publishn dl n l => some [(0, 256), (l.toNat, 64), (0, 48), (n.toNat, 16), (dl.toNat, 64), (0, 56), (0x03, 8)]
  | .waitn dl m g ga li => some [(0, 192), (li.toNat, 64), (ga.toNat, 64), (g.toNat, 32), (0, 24), (m.toNat, 8), (dl.toNat, 64), (0, 56), (0x04, 8)]
  | .chkptn dl nr r dest =>
    some [(dest.toNat, 64), (r[2].toNat, 96), (r[1].toNat, 96), (r[0].toNat, 96), (0, 24), (nr.toNat, 8), (dl.toNat, 64), (0, 56), (0x05, 8)]
  | .stepn dl i => some [(0, 376), (i.toNat, 8), (dl.toNat, 64), (0, 56), (0x06, 8)]
  | .goto dl t n => some [(0, 320), (n.toNat, 32), (t.toNat, 32), (dl.toNat, 64), (0, 56), (0x07, 8)]
  | .nodeEnd dl => some [(0, 384), (dl.toNat, 64), (0, 56), (0x0F, 8)]
  | _ => none

theorem encodeNode_eq_glue {i : Instr} {w : Nat} {l : List (Nat × Nat)} (he : encodeNode i = some w) (hw : w = glue 512 l) :
    encodeNode i = some (glue 512 l) := hw ▸ he

theorem encodeNode_of_fields {i : Instr} {l : List (Nat × Nat)} (h : fieldsNode i = some l) : encodeNode i = some (glue 512 l) := by
  cases i <;> cases h
  all_goals
    refine encodeNode_eq_glue rfl ?_
    simp only [glue, Nat.reduceSub, Nat.zero_mul, Nat.zero_add, Nat.pow_zero, Nat.mul_one, -Nat.reducePow]
    ac_rfl

theorem fills_fieldsNode {i : Instr} {l : List (Nat × Nat)} (h : fieldsNode i = some l) : Fills 512 l := by
  cases i <;> cases h
  all_goals simp [BitVec.isLt, -Nat.reducePow] <;> decide

@[simp] theorem toArray_three {α : Type} (r : Vector α 3) : #[r[0], r[1], r[2]] = r.toArray := by
  have h : #v[r[0], r[1], r[2]] = r := Vector.ext fun i hi => by interval_cases i <;> rfl
  exact congrArg Vector.toArray h

theorem decodeNode_of_reads {i : Instr} {l : List (Nat × Nat)} {w : Nat} (h : fieldsNode i = some l) (hwf : i.wf = true)
    (hr : Reads w 512 l) : decodeNode w = some i := by
  cases i <;> cases h
  all_goals simp only [Reads, Nat.reduceSub, and_true] at hr
  case publishn =>
    have h1 : bits w 192 8 % 2 = bits w 192 64 % 2 := (bits_mod (n := 1) (by decide)).trans (bits_mod (n := 1) (by decide)).symm
    simp at hwf
    simp [decodeNode, bytesOf, h1, hr, hwf, okIf]
  case waitn | chkptn | stepn =>
    simp at hwf
    simp [decodeNode, bytesOf, hr, hwf, okIf, toNat_eq_zero]
  all_goals simp [decodeNode, bytesOf, hr, okIf]

theorem encodeNode_isSome (i : Instr) : (encodeNode i).isSome = decide (Spec.kindOf i = 3) := by cases i <;> rfl

theorem exists_fieldsNode {i : Instr} (h : Spec.kindOf i = 3) : ∃ l, fieldsNode i = some l := by
  rw [← Option.isSome_iff_exists]
  cases i <;> cases h <;> rfl

/-- A well-formed node record is what its encoding decodes to. -/
theorem decodeNode_encodeNode {i : Instr} {w : Nat} (hwf : i.wf = true) (he : encodeNode i = some w) :
    w < 2 ^ 512 ∧ decodeNode w = some i := by
  have hk : Spec.kindOf i = 3 := of_decide_eq_true ((encodeNode_isSome i).symm.trans (by rw [he]; rfl))
  obtain ⟨l, hl⟩ := exists_fieldsNode hk
  obtain rfl := Option.some.inj (he.symm.trans (encodeNode_of_fields hl))
  exact ⟨glue_lt (fills_fieldsNode hl), decodeNode_of_reads hl hwf (reads_glue (fills_fieldsNode hl))⟩

/-- Settles O56: an instruction's word is the number of its list of fields, and the decoder reads that list back. -/
theorem encodingsRoundTrip : Obligations.EncodingsRoundTrip := fun i hwf =>
  ⟨encodeSyl_isSome i, encodeTimeline_isSome i, encodeNode_isSome i, fun _ _ he => decodeSyl_encodeSyl hwf he,
    fun _ he => decodeTimeline_encodeTimeline hwf he, fun _ he => decodeNode_encodeNode hwf he⟩

/-- Settles O57: a word that decodes reads as the fields of what it decodes to, and a list of fields that fill a word is read by one word only. -/
theorem encodingsAreUnique : Obligations.EncodingsAreUnique :=
  ⟨fun _ _ _ hw h => ⟨wf_of_decodeSyl h, encodeSyl_decodeSyl hw h⟩,
    fun _ _ hw h => ⟨wf_of_decodeTimeline h, encodeTimeline_decodeTimeline hw h⟩⟩

/-- Settles O55: the decoder runs on each word. -/
theorem wordsDecode : Obligations.WordsDecode := by
  unfold Obligations.WordsDecode
  decide

end Sys2Proof
end

section
/-! SUPPORT. Floating-point syllables of slots A and B as they issue (R152, R367, R368, R376 to R378, R380, R383): O5. -/

namespace Sys2Proof.Machine
open Config Spec

/-! ### What a floating-point syllable leaves when it issues -/

theorem lossOf_eq (s : State) (sl : Slot) (srcs : List Nat) (snd : Nat) :
    lossOf s sl srcs snd = (if lossEvent s.cur.sndthr.toNat srcs snd then some (slotIx sl) else none).map fun k => (k, s.ctx.pc) := by
  simp only [lossOf, lossEvent, Bool.and_eq_true, decide_eq_true_eq, Bool.not_eq_true', List.isEmpty_eq_false_iff, List.all_eq_true, and_assoc]
  split <;> rfl

/-- A clear floating-point syllable leaves its result in flight, with its flags and its loss event (R367). -/
theorem State.fpu_of_clear {s : State} {sl : Slot} {reads : List RRef} {d : RRef} {lat : Nat} (hc : s.clear sl 1 reads [⟨d, lat⟩]) (o : FpOut) :
    s.fpu sl reads d lat o = .next (deliversFp s sl reads d lat o.w o.snd o.fl o.srcs) := by
  rw [State.fpu, State.issue_of_clear hc rfl fun _ => rfl, State.result, State.holding_now, State.holding_ctx, deliversFp, lossOf_eq]

theorem soundClamp_eq_under (f : Fmt) (s : Int) (r : Nat) : f.soundClamp s r = under f s r := by
  unfold Fmt.soundClamp under
  cases f.dec r <;> rfl

theorem flip_eq {f : Fmt} {x : Nat} (hp : 0 < f.width) (hx : x < 2 ^ f.width) : f.flip x = (x + 2 ^ (f.width - 1)) % 2 ^ f.width := by
  obtain ⟨k, hk⟩ : ∃ k, f.width = k + 1 := ⟨f.width - 1, by omega⟩
  rw [hk, Nat.pow_succ] at hx
  rw [Fmt.flip, hk, Nat.add_sub_cancel, Nat.pow_succ]
  have hd : x / 2 ^ k < 2 := Nat.div_lt_of_lt_mul hx
  split
  next h =>
    have h1 : 2 ^ k ≤ x := by
      by_contra hlt
      rw [Nat.div_eq_of_lt (Nat.lt_of_not_le hlt)] at h
      cases h
    rw [Nat.mod_eq_sub_mod (by omega), Nat.mod_eq_of_lt (by omega)]
    omega
  next h =>
    have h0 : x < 2 ^ k := by
      by_contra hle
      have := (Nat.one_le_div_iff (Nat.two_pow_pos k)).mpr (Nat.le_of_not_lt hle)
      omega
    exact (Nat.mod_eq_of_lt (by omega)).symm

theorem width_pos (fs : FS) : 0 < fs.fmt.width := by cases fs <;> decide

theorem low_lt (f : Fmt) (r : Reg) : low f r < 2 ^ f.width := Nat.mod_lt _ (Nat.two_pow_pos _)

/-- The state after a syllable that gives a floating-point output. -/
def deliversOut (s : State) (sl : Slot) (reads : List RRef) (d : RRef) (lat : Nat) (o : FpOut) : State :=
  deliversFp s sl reads d lat o.w o.snd o.fl o.srcs

/-- The issue of an instruction of slots A and B with one operand. -/
theorem State.fp1_of_clear {s : State} {sl : AB} {d : Dst 32} {a : Fin 32} {lat : Nat}
    (hc : s.clear sl.slot 1 [own sl.file a] [⟨d.ref sl.file, lat⟩]) (f : Reg → FpOut) :
    s.fp1 sl d a lat f = .next (deliversOut s sl.slot [own sl.file a] (d.ref sl.file) lat (f (s.rd (own sl.file a)))) :=
  State.fpu_of_clear hc _

/-- The issue of one with two operands. -/
theorem State.fp2_of_clear {s : State} {sl : AB} {d : Dst 32} {a : Fin 32} {b : Src 32} {lat : Nat}
    (hc : s.clear sl.slot 1 [own sl.file a, b.ref sl.file] [⟨d.ref sl.file, lat⟩]) (f : Reg → Reg → FpOut) :
    s.fp2 sl d a b lat f = .next (deliversOut s sl.slot [own sl.file a, b.ref sl.file] (d.ref sl.file) lat
      (f (s.rd (own sl.file a)) (s.rd (b.ref sl.file)))) :=
  State.fpu_of_clear hc _

/-! ### Signs, classes, comparisons, selections and soundings -/

theorem fabs_result : FpUnary (fun sl d a fs => .fabs sl d a fs) 2 true (fun f x _ => x % 2 ^ (f.width - 1)) fun f sx r => under f sx r := by
  intro s sl d a fs hc
  refine (State.fp1_of_clear hc (fpSign fs.fmt false)).trans ?_
  simp only [fpSign, Fmt.carry, soundClamp_eq_under]
  rfl

theorem fneg_result :
    FpUnary (fun sl d a fs => .fneg sl d a fs) 2 true (fun f x _ => (x + 2 ^ (f.width - 1)) % 2 ^ f.width) fun f sx r => under f sx r := by
  intro s sl d a fs hc
  refine (State.fp1_of_clear hc (fpSign fs.fmt true)).trans ?_
  simp only [fpSign, Fmt.carry, soundClamp_eq_under, ← flip_eq (width_pos fs) (low_lt _ _)]
  rfl

theorem fclass_result : FpUnary (fun sl d a fs => .fclass sl d a fs) 2 false (fun f x _ => fpClass f x) fun _ _ _ => 63 :=
  fun _ _ _ _ fs hc => State.fp1_of_clear hc fun x => ⟨fpClass fs.fmt (low fs.fmt x), 63, 0, []⟩

theorem fsnd_result : FpUnary (fun sl d a fs => .fsnd sl d a fs) 1 false (fun _ _ sx => sx) fun _ _ _ => 63 :=
  fun _ _ _ _ fs hc => State.fp1_of_clear hc fun x => ⟨snd fs.fmt x, 63, 0, []⟩

/-- `FMIN` and `FMAX` deliver the operand that they select (R380). -/
theorem fpMinmax_eq (f : Fmt) (isMax : Bool) (x y : Reg) :
    fpMinmax f isMax x y = ⟨match (f.minmax isMax (low f x) (low f y)).1 with
        | none => f.qnan
        | some first => low f (if first then x else y),
      match (f.minmax isMax (low f x) (low f y)).1 with
        | none => 0
        | some first => under f (snd f (if first then x else y)) (low f (if first then x else y)),
      (f.minmax isMax (low f x) (low f y)).2, [snd f x, snd f y]⟩ := by
  change (match (f.minmax isMax (low f x) (low f y)).1 with
    | none => (⟨_, _, _, _⟩ : FpOut)
    | some true => ⟨_, _, _, _⟩
    | some false => ⟨_, _, _, _⟩) = _
  cases (f.minmax isMax (low f x) (low f y)).1 with
  | none => rfl
  | some first => cases first <;> simp only [Fmt.carry, soundClamp_eq_under] <;> rfl

theorem floatSelectionResults : FloatSelectionResults := by
  refine ⟨fabs_result, fneg_result, fclass_result, fsnd_result, fun c s sl d a b fs hc => ?_, fun isMax s sl d a b fs hc => ?_,
    fun s sl d a n hc => State.fpu_of_clear hc ⟨(s.rd (own sl.file a)).val.toNat, n.val, 0, []⟩,
    fun s sl d a b hc => State.fpu_of_clear hc ⟨(s.rd (own sl.file a)).val.toNat, (s.rd (b.ref sl.file)).val.toNat % 64, 0, []⟩⟩
  · exact State.fp2_of_clear hc fun x y =>
      ⟨if (fs.fmt.compare c (low fs.fmt x) (low fs.fmt y)).1 then 1 else 0, 63, (fs.fmt.compare c (low fs.fmt x) (low fs.fmt y)).2, []⟩
  · have h := State.fp2_of_clear hc (fpMinmax fs.fmt isMax)
    rw [fpMinmax_eq] at h
    cases isMax <;> exact h

/-! ### Conversions -/

theorem enc_lt (t : IntTy) (x : Int) : t.enc x < 2 ^ t.w := by
  have hp : (0 : Int) < ((2 ^ t.w : Nat) : Int) := by positivity
  have h0 := Int.emod_nonneg x hp.ne'
  have h1 := Int.emod_lt_of_pos x hp
  unfold IntTy.enc
  omega

theorem toInt_lt (f : Fmt) (t : IntTy) (rm : RM) (a : Nat) : (f.toInt t rm a).1 < 2 ^ t.w := by
  unfold Fmt.toInt
  split
  next => exact Nat.two_pow_pos _
  next => exact enc_lt _ _
  next =>
    extract_lets _ _ x
    clear_value x
    split <;> exact enc_lt _ _

theorem dec_of_lt {t : IntTy} {v : Nat} (hv : v < 2 ^ t.w) :
    t.dec v = if t.signed = true ∧ 2 ^ (t.w - 1) ≤ v then (v : Int) - (2 ^ t.w : Nat) else v := by
  simp only [IntTy.dec, Nat.mod_eq_of_lt hv, Bool.and_eq_true, decide_eq_true_eq]

/-- An integer result in a register: one of type INT32 is sign-extended (R378). -/
theorem ofNat_extended (dt : CvtTy) {v : Nat} (hv : v < 2 ^ dt.int.w) :
    BitVec.ofNat 64 (if dt.int.signed && dt.int.w == 32 && v / 2 ^ 31 % 2 == 1 then v + (2 ^ 64 - 2 ^ 32) else v)
      = BitVec.ofInt 64 (dt.int.dec v) := by
  rw [dec_of_lt hv]
  refine BitVec.eq_of_toNat_eq ?_
  simp only [Bool.and_eq_true, beq_iff_eq, BitVec.toNat_ofNat, BitVec.toNat_ofInt]
  cases dt <;> simp [CvtTy.int] at hv ⊢
  case i64 => split <;> omega
  case i32 => split <;> split <;> omega
  all_goals omega

/-- A conversion that is admitted has a floating-point side (R98). -/
theorem fp_of_fcvt_wf {sl : AB} {d : Dst 32} {a : Fin 32} {rm : RM} {dt st : CvtTy} (h : (Instr.fcvt sl d a rm dt st).wf = true) :
    ¬(st.fp = none ∧ dt.fp = none) := by
  have hi : ∀ {t : CvtTy}, t.fp = none → t.isInt = true := fun {t} => by cases t <;> decide
  rintro ⟨hs, hd⟩
  change (_ && !(dt.isInt && st.isInt)) = true at h
  simp [hi hs, hi hd] at h

theorem floatConversionResults : FloatConversionResults := by
  intro s sl d a rm dt st hwf hc
  refine (State.fp1_of_clear hc (fpCvt rm dt st)).trans (congrArg _ ?_)
  cases hs : st.fp with
  | some f =>
    cases hd : dt.fp with
    | some g =>
      simp only [fpCvt, hs, hd, soundClamp_eq_under]
      rfl
    | none =>
      simp only [fpCvt, hs, hd, deliversOut, deliversFp, BitVec.ofNat_toNat, BitVec.setWidth_eq, ofNat_extended dt (toInt_lt _ _ _ _)]
      rfl
  | none =>
    cases hd : dt.fp with
    | some g =>
      simp only [fpCvt, hs, hd, soundClamp_eq_under]
      rfl
    | none => exact absurd ⟨hs, hd⟩ (fp_of_fcvt_wf hwf)

end Sys2Proof.Machine
end

section
/-! SUPPORT. Conversions round once (R109, R115, R117, R118): a magnitude against the natural numbers beside it, and numbers that are a sign, a
magnitude and a power of two: O5. -/

namespace Sys2Proof.Machine
open Config Spec

/-! ### Rounding to an integer (R109, R118) -/

/-- A magnitude y against a natural number q: what `splitAt` answers of its part below the point. -/
inductive Splits (y : ℚ) (q : Nat) : Nat → Prop
  | exact (h : y = q) : Splits y q 0
  | below (hl : q < y) (hr : y < q + 1 / 2) : Splits y q 1
  | half (h : y = q + 1 / 2) : Splits y q 2
  | above (hl : (q : ℚ) + 1 / 2 < y) (hr : y < q + 1) : Splits y q 3

theorem splits_splitAt (m : Nat) (e : Int) : Splits ((m : ℚ) * 2 ^ e) (splitAt m e 0 false).1 (splitAt m e 0 false).2 := by
  unfold splitAt
  split
  next he =>
    obtain ⟨k, rfl⟩ := Int.eq_ofNat_of_zero_le he
    exact .exact (by simp)
  next he =>
    obtain ⟨k, rfl⟩ : ∃ k : Nat, e = -((k + 1 : Nat) : Int) := ⟨(-e - 1).toNat, by omega⟩
    have hk : (0 - -((k + 1 : Nat) : Int)).toNat = k + 1 := by omega
    have hP : (0 : ℚ) < 2 ^ k := by positivity
    have hy : (m : ℚ) * 2 ^ (-((k + 1 : Nat) : Int)) = (m / 2 ^ (k + 1) : Nat) + (m % 2 ^ (k + 1) : Nat) / (2 * 2 ^ k) := by
      have hm : (m : ℚ) = 2 ^ (k + 1) * (m / 2 ^ (k + 1) : Nat) + (m % 2 ^ (k + 1) : Nat) := by exact_mod_cast (Nat.div_add_mod m _).symm
      rw [zpow_neg, zpow_natCast]
      conv_lhs => rw [hm]
      rw [pow_succ]
      field_simp
    have hr : m % 2 ^ (k + 1) < 2 ^ k * 2 := Nat.pow_succ 2 k ▸ Nat.mod_lt m (Nat.two_pow_pos (k + 1))
    rw [hk, hy]
    dsimp only
    rw [Nat.add_sub_cancel]
    generalize m / 2 ^ (k + 1) = q, m % 2 ^ (k + 1) = r at hr
    have hr' : (r : ℚ) < 2 ^ k * 2 := by exact_mod_cast hr
    simp only [Bool.false_eq_true, if_false]
    split_ifs with h0 h1 h2
    · exact .exact (by simp [h0])
    · have hpos : (0 : ℚ) < r := by exact_mod_cast Nat.pos_of_ne_zero h0
      have hlt : (r : ℚ) < 2 ^ k := by exact_mod_cast h1
      refine .below (lt_add_of_pos_right _ (by positivity)) ?_
      rw [add_lt_add_iff_left, div_lt_div_iff₀ (by positivity) (by norm_num)]
      linarith
    · refine .half ?_
      have h2' : (r : ℚ) = 2 ^ k := by exact_mod_cast h2
      rw [h2']
      field_simp
    · have hlt : (2 : ℚ) ^ k < r := by exact_mod_cast Nat.lt_of_le_of_ne (Nat.le_of_not_lt h1) (Ne.symm h2)
      refine .above ?_ ?_
      · rw [add_lt_add_iff_left, div_lt_div_iff₀ (by norm_num) (by positivity)]
        linarith
      · rw [add_lt_add_iff_left, div_lt_one (by positivity)]
        linarith

section
variable {y : ℚ} {q part : Nat}

theorem Splits.le (h : Splits y q part) : (q : ℚ) ≤ y := by cases h <;> linarith
theorem Splits.lt (h : Splits y q part) : y < q + 1 := by cases h <;> linarith
theorem Splits.eq_iff (h : Splits y q part) : y = q ↔ part = 0 := by
  cases h with
  | exact h => simp [h]
  | below hl hr => simp [hl.ne']
  | half h => simp [h]
  | above hl hr => simp; linarith

/-- The magnitude after rounding. -/
def rounded (rm : RM) (neg : Bool) (q part : Nat) : Nat := if roundUp rm neg q part then q + 1 else q

/-- Away from zero: the least natural number from y on. -/
theorem Splits.away (h : Splits y q part) :
    ((if part != 0 then q + 1 else q : Nat) : ℚ) - 1 < y ∧ y ≤ (if part != 0 then q + 1 else q : Nat) := by
  have hl := h.le
  have hr := h.lt
  split
  next hp =>
    push_cast
    have hne : y ≠ q := by simpa [h.eq_iff] using hp
    exact ⟨by linarith [lt_of_le_of_ne hl hne.symm], hr.le⟩
  next hp =>
    have he : y = q := by simpa [h.eq_iff] using hp
    exact ⟨by linarith, he.le⟩

theorem rounded_rne_half (neg : Bool) (q : Nat) : rounded .rne neg q 2 = q + q % 2 := by
  rcases Nat.mod_two_eq_zero_or_one q with h | h <;> simp [rounded, roundUp, h]

/-- To the nearest: within one half, and even at one half. -/
theorem Splits.nearest (h : Splits y q part) (neg : Bool) : |(rounded .rne neg q part : ℚ) - y| ≤ 1 / 2
    ∧ (|(rounded .rne neg q part : ℚ) - y| = 1 / 2 → rounded .rne neg q part % 2 = 0) := by
  cases h with
  | exact h =>
    change |(q : ℚ) - y| ≤ 1 / 2 ∧ (|(q : ℚ) - y| = 1 / 2 → q % 2 = 0)
    norm_num [h]
  | below hl hr =>
    change |(q : ℚ) - y| ≤ 1 / 2 ∧ (|(q : ℚ) - y| = 1 / 2 → q % 2 = 0)
    have : |(q : ℚ) - y| < 1 / 2 := by rw [abs_lt]; constructor <;> linarith
    exact ⟨this.le, fun h => absurd h this.ne⟩
  | half h =>
    rw [rounded_rne_half, h]
    refine ⟨?_, fun _ => by omega⟩
    rcases Nat.mod_two_eq_zero_or_one q with hq | hq <;> rw [hq] <;> norm_num
  | above hl hr =>
    change |((q + 1 : Nat) : ℚ) - y| ≤ 1 / 2 ∧ (|((q + 1 : Nat) : ℚ) - y| = 1 / 2 → (q + 1) % 2 = 0)
    have : |((q + 1 : Nat) : ℚ) - y| < 1 / 2 := by push_cast; rw [abs_lt]; constructor <;> linarith
    exact ⟨this.le, fun h => absurd h this.ne⟩

theorem rounded_zero (rm : RM) (neg : Bool) (q : Nat) : rounded rm neg q 0 = q := by cases rm <;> cases neg <;> rfl

/-- Rounding meets the magnitude only where it had no part below the point. -/
theorem Splits.rounded_eq_iff (h : Splits y q part) (rm : RM) (neg : Bool) : (rounded rm neg q part : ℚ) = y ↔ part = 0 := by
  have hl := h.le
  have hr := h.lt
  constructor
  · intro he
    rw [← h.eq_iff]
    unfold rounded at he
    split at he
    · push_cast at he; linarith
    · exact he.symm
  · rintro rfl
    rw [rounded_zero, h.eq_iff.mpr rfl]

/-- A number of a sign. -/
def signed (neg : Bool) (q : Nat) : Int := if neg then -(q : Int) else q

/-- A magnitude that is split rounds, with its sign, as each mode says. -/
theorem Splits.roundsToInt (h : Splits y q part) (rm : RM) (neg : Bool) :
    RoundsToInt rm (if neg then -y else y) (signed neg (rounded rm neg q part)) := by
  have hq : (0 : ℚ) ≤ q := q.cast_nonneg
  have hl := h.le
  have hr := h.lt
  obtain ⟨ha, hb⟩ := h.away
  cases rm with
  | rne =>
    obtain ⟨h1, h2⟩ := h.nearest neg
    have e : |((signed neg (rounded .rne neg q part) : Int) : ℚ) - (if neg then -y else y)| = |(rounded .rne neg q part : ℚ) - y| := by
      cases neg with
      | false => rfl
      | true =>
        simp only [signed, if_true, Int.cast_neg, Int.cast_natCast]
        rw [← neg_add', abs_neg, ← sub_eq_add_neg]
    refine ⟨e.trans_le h1, fun hh => ?_⟩
    have := h2 (e.symm.trans hh)
    simp only [signed]
    split <;> omega
  | rtz =>
    change |((signed neg q : Int) : ℚ)| ≤ |if neg then -y else y| ∧ |if neg then -y else y| < |((signed neg q : Int) : ℚ)| + 1
      ∧ 0 ≤ ((signed neg q : Int) : ℚ) * (if neg then -y else y)
    have hy : |y| = y := abs_of_nonneg (hq.trans hl)
    have hqy := mul_nonneg hq (hq.trans hl)
    cases neg <;> simpa [signed, hy] using ⟨hl, hr, hqy⟩
  | rdn =>
    refine (Int.floor_eq_iff.mpr ?_).symm
    cases neg with
    | false => exact ⟨hl, hr⟩
    | true =>
      change ((-((if part != 0 then q + 1 else q : Nat) : Int) : Int) : ℚ) ≤ -y
        ∧ -y < ((-((if part != 0 then q + 1 else q : Nat) : Int) : Int) : ℚ) + 1
      rw [Int.cast_neg, Int.cast_natCast]
      constructor <;> linarith
  | rup =>
    refine (Int.ceil_eq_iff.mpr ?_).symm
    cases neg with
    | false => exact ⟨ha, hb⟩
    | true =>
      change ((-(q : Int) : Int) : ℚ) - 1 < -y ∧ -y ≤ ((-(q : Int) : Int) : ℚ)
      rw [Int.cast_neg, Int.cast_natCast]
      constructor <;> linarith
end

theorem dec_of_value {f : Fmt} {a : Nat} {x : ℚ} (h : value f a = some x) :
    ∃ n m e, f.dec a = .fin n m e ∧ x = if n then -((m : ℚ) * 2 ^ e) else (m : ℚ) * 2 ^ e := by
  unfold value at h
  cases hd : f.dec a with
  | nan sig => rw [hd] at h; cases h
  | inf neg => rw [hd] at h; cases h
  | fin n m e =>
    rw [hd] at h
    cases h
    exact ⟨n, m, e, rfl, by cases n <;> simp⟩

/-- A number that is a sign, a magnitude and a power of two rounds as `round` says. -/
theorem roundsTo_dyadic (g : Fmt) (rm : RM) {n : Bool} {m : Nat} {e : Int} {x : ℝ} (z : Bool)
    (hx : x = if n then -((m : ℝ) * 2 ^ e) else (m : ℝ) * 2 ^ e) :
    RoundsTo g rm x z (if m = 0 then (g.signBit z, 0) else g.round rm n m e false) := by
  rcases Nat.eq_zero_or_pos m with hm | hm
  · have h0 : x = 0 := by rw [hx, hm]; simp
    exact ⟨fun _ => if_pos hm, fun h => absurd h0 h⟩
  · have hpos : (0 : ℝ) < (m : ℝ) * 2 ^ e := by positivity
    rw [if_neg hm.ne']
    cases n with
    | false =>
      have hx0 : 0 < x := hpos.trans_eq hx.symm
      exact ⟨fun h0 => absurd h0 hx0.ne', fun _ => ⟨false, m, e, false, ⟨hm, by simp [hx0.le], (abs_of_pos hx0).trans hx⟩, rfl⟩⟩
    | true =>
      have hx0 : x < 0 := hx.trans_lt (neg_neg_of_pos hpos)
      exact ⟨fun h0 => absurd h0 hx0.ne, fun _ =>
        ⟨true, m, e, false, ⟨hm, by simp [hx0], (abs_of_neg hx0).trans (neg_eq_iff_eq_neg.mpr hx)⟩, rfl⟩⟩

theorem cvt_roundsTo (f g : Fmt) (rm : RM) {a : Nat} {x : ℚ} (h : value f a = some x) : RoundsTo g rm (x : ℝ) (f.dec a).sign (f.cvt g rm a) := by
  obtain ⟨n, m, e, hd, rfl⟩ := dec_of_value h
  simp only [Fmt.cvt, hd]
  exact roundsTo_dyadic g rm n (by split <;> push_cast <;> rfl)

theorem ofInt_roundsTo (f : Fmt) (rm : RM) (x : Int) : RoundsTo f rm (x : ℝ) false (f.ofInt rm x) := by
  have hx : (x : ℝ) = if decide (x < 0) then -((x.natAbs : ℝ) * 2 ^ (0 : Int)) else (x.natAbs : ℝ) * 2 ^ (0 : Int) := by
    have ha : ((x.natAbs : Nat) : ℝ) = |(x : ℝ)| := by rw [Nat.cast_natAbs, Int.cast_abs]
    simp only [decide_eq_true_eq, zpow_zero, mul_one, ha]
    split
    next h => rw [abs_of_neg (by exact_mod_cast h), neg_neg]
    next h => rw [abs_of_nonneg (by exact_mod_cast not_lt.mp h)]
  have := roundsTo_dyadic f rm false hx
  simpa only [Fmt.ofInt, Int.natAbs_eq_zero, Fmt.signBit, Bool.false_eq_true, if_false] using this

/-! ### To an integer (R117, R118) -/

theorem sat_of_mem {t : IntTy} {x : Int} (h : ¬(x < t.lo ∨ t.hi < x)) : t.sat x = x := by
  rw [not_or] at h
  rw [IntTy.sat, if_neg h.1, if_neg h.2]
theorem sat_ne_of_not_mem {t : IntTy} {x : Int} (h : x < t.lo ∨ t.hi < x) : x ≠ t.sat x := by
  unfold IntTy.sat
  split <;> [omega; (split <;> omega)]

theorem toInt_fin {f : Fmt} {a : Nat} {n : Bool} {m : Nat} {e : Int} (h : f.dec a = .fin n m e) (t : IntTy) (rm : RM) :
    let s := splitAt m e 0 false
    let q := signed n (rounded rm n s.1 s.2)
    f.toInt t rm a = (t.enc (t.sat q), flagIf (decide (q ≠ t.sat q)) fNV ||| flagIf (s.2 != 0) fNX) := by
  intro s q
  have hq : f.toInt t rm a = if q < t.lo ∨ t.hi < q then (t.enc (t.sat q), fNV ||| flagIf (s.2 != 0) fNX)
      else (t.enc q, flagIf (s.2 != 0) fNX) := by
    rw [Fmt.toInt, h]
    rfl
  rw [hq]
  split
  next hr => rw [decide_eq_true (sat_ne_of_not_mem hr)]; rfl
  next hr => rw [sat_of_mem hr]; simp [flagIf]

theorem signed_eq_iff {n : Bool} {q : Nat} {y : ℚ} : ((signed n q : Int) : ℚ) = (if n then -y else y) ↔ (q : ℚ) = y := by
  cases n <;> simp [signed]

theorem toInt_roundsToInt (f : Fmt) (rm : RM) (t : IntTy) {a : Nat} {x : ℚ} (h : value f a = some x) :
    ∃ q, RoundsToInt rm x q
      ∧ f.toInt t rm a = (t.enc (t.sat q), flagIf (decide (q ≠ t.sat q)) fNV ||| flagIf (decide ((q : ℚ) ≠ x)) fNX) := by
  obtain ⟨n, m, e, hd, rfl⟩ := dec_of_value h
  have hs := splits_splitAt m e
  refine ⟨_, hs.roundsToInt rm n, (toInt_fin hd t rm).trans ?_⟩
  have hx : (splitAt m e 0 false).2 != 0 ↔ ((signed n (rounded rm n (splitAt m e 0 false).1 (splitAt m e 0 false).2) : Int) : ℚ)
      ≠ if n then -((m : ℚ) * 2 ^ e) else (m : ℚ) * 2 ^ e := by
    rw [Ne, signed_eq_iff, hs.rounded_eq_iff, bne_iff_ne]
  rw [← Bool.decide_coe ((splitAt m e 0 false).2 != 0), decide_eq_decide.mpr hx]

theorem conversionsRoundOnce : ConversionsRoundOnce :=
  ⟨fun f _ g _ rm _ _ h => cvt_roundsTo f g rm h, fun f _ rm x => ofInt_roundsTo f rm x, fun f _ rm t _ _ _ h => toInt_roundsToInt f rm t h⟩

/-- Settles O5: each instruction issues with the output that its rule gives, and a conversion is one rounding of a dyadic number. -/
theorem floatSelectionAndConversionResults : Obligations.FloatSelectionAndConversionResults :=
  ⟨floatSelectionResults, floatConversionResults, conversionsRoundOnce⟩

end Sys2Proof.Machine
end

section
/-! SUPPORT. Sum, difference, product and fused product of slots A and B (R109, R111, R142, R367, R369, R370): dyadic numbers as rational
ones, and each operation as one rounding of the exact number: O4. -/

namespace Sys2Proof.Machine
open Config Spec

/-! ### Dyadic numbers -/

/-- The number that a sign, a magnitude and a power of two stand for. -/
def Dy.val (d : Dy) : ℚ := if d.neg then -((d.m : ℚ) * 2 ^ d.e) else (d.m : ℚ) * 2 ^ d.e

/-- The signed mantissa of a dyadic number over a lesser exponent. -/
theorem Dy.val_eq_scaled (d : Dy) {e : Int} (he : e ≤ d.e) :
    d.val = (((if d.neg then -1 else 1) * (d.m * 2 ^ (d.e - e).toNat : Nat) : Int) : ℚ) * 2 ^ e := by
  obtain ⟨k, hk⟩ := Int.le.dest he
  have hp : (2 : ℚ) ^ d.e = 2 ^ k * 2 ^ e := by rw [← hk, add_comm, zpow_add₀ two_ne_zero, zpow_natCast]
  have hk' : (d.e - e).toNat = k := by omega
  rw [Dy.val, hp, hk']
  split <;> push_cast <;> ring

/-- A sign and an absolute value are an integer. -/
theorem signed_natAbs (x : Int) : (if decide (x < 0) = true then -((x.natAbs : ℚ)) else (x.natAbs : ℚ)) = x := by
  rw [Nat.cast_natAbs, Int.cast_abs]
  simp only [decide_eq_true_eq]
  split
  next h => rw [abs_of_neg (by exact_mod_cast h), neg_neg]
  next h => rw [abs_of_nonneg (by exact_mod_cast not_lt.mp h)]

theorem Dy.val_add (a b : Dy) : (a.add b).val = a.val + b.val := by
  have ha : (if a.e ≤ b.e then a.e else b.e) ≤ a.e := by split <;> omega
  have hb : (if a.e ≤ b.e then a.e else b.e) ≤ b.e := by split <;> omega
  rw [Dy.val_eq_scaled a ha, Dy.val_eq_scaled b hb, ← add_mul, ← Int.cast_add, ← signed_natAbs, ite_mul, neg_mul]
  rfl

theorem Dy.val_mul (a b : Dy) : (a.mul b).val = a.val * b.val := by
  have he : (2 : ℚ) ^ (a.e + b.e) = 2 ^ a.e * 2 ^ b.e := zpow_add₀ two_ne_zero _ _
  unfold Dy.mul Dy.val
  cases a.neg <;> cases b.neg <;> simp [he] <;> ring

theorem Dy.val_negate (a : Dy) : a.negate.val = -a.val := by
  unfold Dy.negate Dy.val
  cases a.neg <;> simp

theorem roundDy_roundsTo (f : Fmt) (rm : RM) (d : Dy) (z : Bool) : RoundsTo f rm (d.val : ℝ) z (f.roundDy rm d z) :=
  roundsTo_dyadic f rm z (by rw [Dy.val]; split <;> push_cast <;> rfl)

theorem dy_of_value {f : Fmt} {a : Nat} {x : ℚ} (h : value f a = some x) : ∃ n m e, f.dec a = .fin n m e ∧ x = (Dy.mk n m e).val :=
  dec_of_value h

theorem zeroSign_eq (rm : RM) (a b : Bool) : zeroSign rm a b = if a = b then a else decide (rm = .rdn) := by
  unfold zeroSign
  cases rm <;> rfl

/-! ### Each operation rounds the exact number once (R109, R111) -/

section
variable {f : Fmt} {a b c : Nat} {x y z : ℚ}

theorem add_roundsTo (rm : RM) (ha : value f a = some x) (hb : value f b = some y) :
    RoundsTo f rm ((x + y : ℚ) : ℝ) (if (f.dec a).sign = (f.dec b).sign then (f.dec a).sign else decide (rm = .rdn)) (f.add rm a b) := by
  obtain ⟨na, ma, ea, hda, rfl⟩ := dy_of_value ha
  obtain ⟨nb, mb, eb, hdb, rfl⟩ := dy_of_value hb
  rw [Fmt.add, hda, hdb, ← Dy.val_add]
  exact zeroSign_eq rm na nb ▸ roundDy_roundsTo f rm _ _

theorem sub_roundsTo (rm : RM) (ha : value f a = some x) (hb : value f b = some y) :
    RoundsTo f rm ((x - y : ℚ) : ℝ) (decide (rm = .rdn)) (f.sub rm a b) := by
  obtain ⟨na, ma, ea, hda, rfl⟩ := dy_of_value ha
  obtain ⟨nb, mb, eb, hdb, rfl⟩ := dy_of_value hb
  rw [Fmt.sub, hda, hdb, sub_eq_add_neg, ← Dy.val_negate, ← Dy.val_add, ← beq_eq_decide]
  exact roundDy_roundsTo f rm _ _

theorem mul_roundsTo (rm : RM) (ha : value f a = some x) (hb : value f b = some y) :
    RoundsTo f rm ((x * y : ℚ) : ℝ) ((f.dec a).sign != (f.dec b).sign) (f.mul rm a b) := by
  obtain ⟨na, ma, ea, hda, rfl⟩ := dy_of_value ha
  obtain ⟨nb, mb, eb, hdb, rfl⟩ := dy_of_value hb
  rw [Fmt.mul, hda, hdb, ← Dy.val_mul]
  exact roundDy_roundsTo f rm _ _

theorem fma_roundsTo (rm : RM) (ha : value f a = some x) (hb : value f b = some y) (hc : value f c = some z) :
    RoundsTo f rm ((x * y + z : ℚ) : ℝ) (if ((f.dec a).sign != (f.dec b).sign) = (f.dec c).sign then (f.dec c).sign else decide (rm = .rdn))
      (f.fma rm a b c) := by
  obtain ⟨na, ma, ea, hda, rfl⟩ := dy_of_value ha
  obtain ⟨nb, mb, eb, hdb, rfl⟩ := dy_of_value hb
  obtain ⟨nc, mc, ec, hdc, rfl⟩ := dy_of_value hc
  have hz : zeroSign rm (na != nb) nc = if (na != nb) = nc then nc else decide (rm = .rdn) :=
    (zeroSign_eq rm _ _).trans (ite_congr rfl id fun _ => rfl)
  rw [Fmt.fma, hda, hdb, hdc, ← Dy.val_mul, ← Dy.val_add]
  exact hz ▸ roundDy_roundsTo f rm _ _

end

theorem arithmeticRoundsOnce : ArithmeticRoundsOnce := fun _ _ rm _ _ _ _ _ _ ha hb hc =>
  ⟨add_roundsTo rm ha hb, sub_roundsTo rm ha hb, mul_roundsTo rm ha hb, fma_roundsTo rm ha hb hc⟩

/-! ### What the instructions deliver (R367, R369, R370) -/

theorem floatArithmetic : FloatArithmetic :=
  ⟨fun rm _ _ _ _ _ fs hc => State.fp2_of_clear hc (fpAdd fs.fmt rm), fun rm _ _ _ _ _ fs hc => State.fp2_of_clear hc (fpSub fs.fmt rm),
    fun rm _ _ _ _ _ fs hc => State.fp2_of_clear hc (fpMul fs.fmt rm), fun _ _ _ _ _ _ _ hc => State.fpu_of_clear hc _⟩

/-- Settles O4: each instruction issues with the output that its rule gives, and each operation rounds one dyadic number. -/
theorem floatArithmeticResults : Obligations.FloatArithmeticResults := ⟨floatArithmetic, arithmeticRoundsOnce⟩

end Sys2Proof.Machine
end

section
/-! SUPPORT. The functions of slot F (R109 to R111, R142, R143, R367, R371 to R375): quotients and square roots as one rounding, and what each
function delivers: O6. -/

namespace Sys2Proof.Machine
open Config Spec

/-! ### Bits of a natural number -/

theorem lt_two_pow_bitLen (m : Nat) : m < 2 ^ bitLen m := by
  unfold bitLen
  split
  next h => rw [h]; exact Nat.one_pos
  next => exact Nat.lt_log2_self

theorem two_pow_le_of_bitLen {m : Nat} (hm : m ≠ 0) : 2 ^ (bitLen m - 1) ≤ m := by
  rw [bitLen, if_neg hm]
  exact Nat.log2_self_le hm

/-! ### Square roots of natural numbers -/

/-- The bisection keeps the root between the bits found and one unit of the next bit more. -/
theorem isqrtGo_eq {n : Nat} : ∀ {k r : Nat}, r * r ≤ n → n < (r + 2 ^ k) * (r + 2 ^ k) → isqrtGo n k r = Nat.sqrt n
  | 0, _, hl, hr => Nat.eq_sqrt.mpr ⟨hl, hr⟩
  | k + 1, r, hl, hr => by
    have hp : r + 2 ^ (k + 1) = r + 2 ^ k + 2 ^ k := by rw [pow_succ]; omega
    rw [isqrtGo]
    split
    next h => exact isqrtGo_eq h (hp ▸ hr)
    next h => exact isqrtGo_eq hl (not_le.mp h)

theorem isqrt_eq (n : Nat) : isqrt n = Nat.sqrt n := by
  refine isqrtGo_eq (Nat.zero_le n) ?_
  calc n < 2 ^ bitLen n := lt_two_pow_bitLen n
    _ ≤ 2 ^ (bitLen n / 2 + 1 + (bitLen n / 2 + 1)) := Nat.pow_le_pow_right two_pos (by omega)
    _ = (0 + 2 ^ (bitLen n / 2 + 1)) * (0 + 2 ^ (bitLen n / 2 + 1)) := by rw [zero_add, pow_add]

/-! ### Numbers whose first bits are known (R109) -/

/-- A magnitude y between q and q + 1, whose sticky bit tells whether it is q, is exact over an exponent. -/
theorem isExact_of_floor {f : Fmt} {neg : Bool} {q : Nat} {e : Int} {st : Bool} {x y : ℝ} (hq : 2 ^ (f.p + 1) ≤ q) (hs : x < 0 ↔ neg = true)
    (hx : |x| = y * 2 ^ e) (hl : (q : ℝ) ≤ y) (hr : y < q + 1) (hst : st = true ↔ y ≠ q) : IsExact f neg q e st x := by
  have hp : (0 : ℝ) < 2 ^ e := by positivity
  refine ⟨(Nat.two_pow_pos _).trans_le hq, hs, ?_⟩
  split
  next h =>
    have hne : (q : ℝ) < y := lt_of_le_of_ne hl (Ne.symm (hst.mp h))
    rw [hx]
    exact ⟨mul_lt_mul_of_pos_right hne hp, mul_lt_mul_of_pos_right hr hp, hq⟩
  next h =>
    have he : y = q := by_contra fun hne => h (hst.mpr hne)
    rw [hx, he]

/-! ### Quotients (R371) -/

theorem div_two_pow_le {ma mb k : Nat} (ha : ma ≠ 0) (hb : mb ≠ 0) : 2 ^ k ≤ ma * 2 ^ (k + bitLen mb) / mb := by
  rw [Nat.le_div_iff_mul_le (Nat.pos_of_ne_zero hb), pow_add]
  calc 2 ^ k * mb ≤ 2 ^ k * 2 ^ bitLen mb := Nat.mul_le_mul_left _ (lt_two_pow_bitLen mb).le
    _ ≤ ma * (2 ^ k * 2 ^ bitLen mb) := Nat.le_mul_of_pos_left _ (Nat.pos_of_ne_zero ha)

/-- A quotient of natural numbers against its integral part. -/
theorem cast_div_floor {n d : Nat} (hd : 0 < d) :
    ((n / d : Nat) : ℝ) ≤ (n : ℝ) / d ∧ (n : ℝ) / d < (n / d : Nat) + 1 ∧ ((n % d != 0) = true ↔ (n : ℝ) / d ≠ (n / d : Nat)) := by
  have hd0 : (0 : ℝ) < d := by exact_mod_cast hd
  have hy : (n : ℝ) / d = (n / d : Nat) + (n % d : Nat) / d := by
    have hdiv : (n : ℝ) = d * (n / d : Nat) + (n % d : Nat) := by exact_mod_cast (Nat.div_add_mod n d).symm
    conv_lhs => rw [hdiv]
    field_simp
  have hmod : ((n % d : Nat) : ℝ) < d := by exact_mod_cast Nat.mod_lt n hd
  rw [hy, add_lt_add_iff_left, div_lt_one hd0, bne_iff_ne, Ne, Ne, add_eq_left, div_eq_zero_iff, or_iff_left hd0.ne']
  exact ⟨le_add_of_nonneg_right (div_nonneg (Nat.cast_nonneg _) hd0.le), hmod, not_congr Nat.cast_eq_zero.symm⟩

theorem Dy.abs_val (d : Dy) : |d.val| = (d.m : ℚ) * 2 ^ d.e := by
  have h : (0 : ℚ) ≤ d.m * 2 ^ d.e := by positivity
  unfold Dy.val
  split <;> simp [abs_of_nonneg h]

theorem Dy.val_neg_iff {d : Dy} (hm : d.m ≠ 0) : d.val < 0 ↔ d.neg = true := by
  have h : (0 : ℚ) < d.m * 2 ^ d.e := by
    have := Nat.pos_of_ne_zero hm
    positivity
  unfold Dy.val
  cases d.neg <;> simp [h, h.le]

theorem Dy.val_eq_zero_iff {d : Dy} : d.val = 0 ↔ d.m = 0 := by
  rw [← abs_eq_zero, Dy.abs_val, mul_eq_zero, or_iff_left (by positivity), Nat.cast_eq_zero]

/-- The sign of a quotient of numbers that are not zero. -/
theorem div_neg_iff_bne {x y : ℚ} {a b : Bool} (hx0 : x ≠ 0) (hy0 : y ≠ 0) (hx : x < 0 ↔ a = true) (hy : y < 0 ↔ b = true) :
    x / y < 0 ↔ (a != b) = true := by
  rw [div_neg_iff, hx, hy, ← not_le, ← not_le, ← not_lt, ← not_lt]
  have hx1 : x ≤ 0 ↔ a = true := by rw [← hx, le_iff_lt_or_eq, or_iff_left hx0]
  have hy1 : y ≤ 0 ↔ b = true := by rw [← hy, le_iff_lt_or_eq, or_iff_left hy0]
  cases a <;> cases b <;> simp_all

theorem isExact_divBits {f : Fmt} {a b : Dy} (ha : a.m ≠ 0) (hb : b.m ≠ 0) :
    let q := divBits a.m a.e b.m b.e (f.p + 3)
    IsExact f (a.neg != b.neg) q.1 q.2.1 q.2.2 ((a.val / b.val : ℚ) : ℝ) := by
  obtain ⟨hl, hr, hst⟩ := cast_div_floor (n := a.m * 2 ^ (f.p + 3 + bitLen b.m)) (Nat.pos_of_ne_zero hb)
  have hsign : a.val / b.val < 0 ↔ (a.neg != b.neg) = true :=
    div_neg_iff_bne (Dy.val_eq_zero_iff.not.mpr ha) (Dy.val_eq_zero_iff.not.mpr hb) (Dy.val_neg_iff ha) (Dy.val_neg_iff hb)
  refine isExact_of_floor ((Nat.pow_le_pow_right two_pos (by omega)).trans (div_two_pow_le (k := f.p + 3) ha hb))
    (by rw [← hsign]; exact_mod_cast Iff.rfl) ?_ hl hr hst
  have habs : |((a.val / b.val : ℚ) : ℝ)| = (a.m * 2 ^ a.e) / (b.m * 2 ^ b.e) := by
    rw [← Rat.cast_abs, abs_div, Dy.abs_val, Dy.abs_val]
    push_cast
    rfl
  change _ = _ * 2 ^ (a.e - b.e - (f.p + 3 + bitLen b.m : Nat))
  rw [habs, zpow_sub₀ two_ne_zero, zpow_sub₀ two_ne_zero, zpow_natCast]
  push_cast
  field_simp

/-! ### Square roots (R371) -/

/-- The square root of a natural number against its integral part. -/
theorem cast_sqrt_floor (n : Nat) :
    ((isqrt n : Nat) : ℝ) ≤ Real.sqrt n ∧ Real.sqrt n < (isqrt n : Nat) + 1 ∧ ((isqrt n * isqrt n != n) = true ↔ Real.sqrt n ≠ (isqrt n : Nat)) := by
  rw [isqrt_eq]
  refine ⟨Real.nat_sqrt_le_real_sqrt, Real.real_sqrt_lt_nat_sqrt_succ, ?_⟩
  rw [bne_iff_ne, Ne, Ne, Real.sqrt_eq_iff_mul_self_eq (Nat.cast_nonneg _) (Nat.cast_nonneg _), eq_comm]
  exact not_congr (by exact_mod_cast Iff.rfl)

/-- The root is taken of a number whose rest of the exponent is even. -/
theorem sqrtBits_eq (m : Nat) (e : Int) (k : Nat) : ∃ (sh : Nat) (h : Int), 2 * k ≤ sh ∧ e - sh = 2 * h
    ∧ sqrtBits m e k = (isqrt (m * 2 ^ sh), h, isqrt (m * 2 ^ sh) * isqrt (m * 2 ^ sh) != m * 2 ^ sh) := by
  by_cases hp : (e - (2 * k : Nat)) % 2 = 0
  · refine ⟨2 * k, (e - (2 * k : Nat)) / 2, le_refl _, by omega, ?_⟩
    simp only [sqrtBits, if_pos hp]
  · refine ⟨2 * k + 1, (e - (2 * k + 1 : Nat)) / 2, Nat.le_succ _, by omega, ?_⟩
    simp only [sqrtBits, if_neg hp]

theorem isExact_sqrtBits {f : Fmt} {m : Nat} {e : Int} (hm : m ≠ 0) :
    let q := sqrtBits m e (f.p + 3)
    IsExact f false q.1 q.2.1 q.2.2 (Real.sqrt ((m : ℝ) * 2 ^ e)) := by
  obtain ⟨sh, h, hsh, he, heq⟩ := sqrtBits_eq m e (f.p + 3)
  obtain ⟨hl, hr, hst⟩ := cast_sqrt_floor (m * 2 ^ sh)
  rw [heq]
  refine isExact_of_floor ?_ (iff_of_false (Real.sqrt_nonneg _).not_gt Bool.false_ne_true) ?_ hl hr hst
  · rw [isqrt_eq, Nat.le_sqrt, ← pow_add]
    calc 2 ^ (f.p + 1 + (f.p + 1)) ≤ 2 ^ sh := Nat.pow_le_pow_right two_pos (by omega)
      _ ≤ m * 2 ^ sh := Nat.le_mul_of_pos_left _ (Nat.pos_of_ne_zero hm)
  · have hx : (m : ℝ) * 2 ^ e = (m * 2 ^ sh : Nat) * (2 ^ h * 2 ^ h) := by
      rw [← zpow_add₀ two_ne_zero, show h + h = e - sh by omega, zpow_sub₀ two_ne_zero, zpow_natCast]
      push_cast
      field_simp
    have h2 : (0 : ℝ) ≤ 2 ^ h := by positivity
    rw [abs_of_nonneg (Real.sqrt_nonneg _), hx, Real.sqrt_mul (Nat.cast_nonneg _), Real.sqrt_mul_self h2]

/-! ### Quotient and root round once -/

section
variable {f : Fmt} {a b : Nat} {x y : ℚ}

/-- A number whose first bits are known rounds as `round` says. -/
theorem roundsTo_of_isExact {rm : RM} {neg z st : Bool} {m : Nat} {e : Int} {x : ℝ} (h : IsExact f neg m e st x) (hx : x ≠ 0) :
    RoundsTo f rm x z (f.round rm neg m e st) :=
  ⟨fun h0 => absurd h0 hx, fun _ => ⟨neg, m, e, st, h, rfl⟩⟩

theorem roundsTo_zero (rm : RM) (z : Bool) : RoundsTo f rm 0 z (f.signBit z, 0) := ⟨fun _ => rfl, fun h => absurd rfl h⟩

theorem div_roundsTo (rm : RM) (ha : value f a = some x) (hb : value f b = some y) (hy : y ≠ 0) :
    RoundsTo f rm ((x / y : ℚ) : ℝ) ((f.dec a).sign != (f.dec b).sign) (f.div rm a b) := by
  obtain ⟨na, ma, ea, hda, rfl⟩ := dy_of_value ha
  obtain ⟨nb, mb, eb, hdb, rfl⟩ := dy_of_value hb
  have hmb : mb ≠ 0 := Dy.val_eq_zero_iff.not.mp hy
  simp only [Fmt.div, hda, hdb, if_neg hmb]
  split
  next hma =>
    rw [(Dy.val_eq_zero_iff (d := ⟨na, ma, ea⟩)).mpr hma, zero_div, Rat.cast_zero]
    exact roundsTo_zero rm _
  next hma =>
    refine roundsTo_of_isExact (isExact_divBits (a := ⟨na, ma, ea⟩) (b := ⟨nb, mb, eb⟩) hma hmb) ?_
    exact_mod_cast div_ne_zero (Dy.val_eq_zero_iff.not.mpr hma) hy

theorem div_zero_eq (rm : RM) (ha : value f a = some x) (hb : value f b = some 0) :
    f.div rm a b = if x = 0 then (f.qnan, fNV) else (f.inf ((f.dec a).sign != (f.dec b).sign), fDZ) := by
  obtain ⟨na, ma, ea, hda, rfl⟩ := dy_of_value ha
  obtain ⟨nb, mb, eb, hdb, hy⟩ := dy_of_value hb
  have hmb : mb = 0 := Dy.val_eq_zero_iff.mp hy.symm
  simp only [Fmt.div, hda, hdb, if_pos hmb, Dy.val_eq_zero_iff]
  rfl

theorem sqrt_roundsTo (rm : RM) (ha : value f a = some x) (hx : 0 ≤ x) : RoundsTo f rm (Real.sqrt (x : ℝ)) (f.dec a).sign (f.sqrt rm a) := by
  obtain ⟨n, m, e, hd, rfl⟩ := dy_of_value ha
  rw [Fmt.sqrt, hd]
  dsimp only
  split
  next hm =>
    rw [(Dy.val_eq_zero_iff (d := ⟨n, m, e⟩)).mpr hm, Rat.cast_zero, Real.sqrt_zero]
    exact roundsTo_zero rm n
  next hm =>
    have hn : ¬n = true := (Dy.val_neg_iff (d := ⟨n, m, e⟩) hm).not.mp (not_lt.mpr hx)
    have hv : (((Dy.mk n m e).val : ℚ) : ℝ) = (m : ℝ) * 2 ^ e := by
      rw [Dy.val, if_neg hn]
      push_cast
      rfl
    rw [if_neg hn, hv]
    have h0 : (0 : ℝ) < m * 2 ^ e := by
      have := Nat.pos_of_ne_zero hm
      positivity
    exact roundsTo_of_isExact (isExact_sqrtBits hm) (Real.sqrt_pos.mpr h0).ne'

theorem sqrt_of_neg (rm : RM) (ha : value f a = some x) (hx : x < 0) : f.sqrt rm a = (f.qnan, fNV) := by
  obtain ⟨n, m, e, hd, rfl⟩ := dy_of_value ha
  have hm : m ≠ 0 := Dy.val_eq_zero_iff.not.mp hx.ne
  have hn : n = true := (Dy.val_neg_iff (d := ⟨n, m, e⟩) hm).mp hx
  rw [Fmt.sqrt, hd]
  dsimp only
  rw [if_neg hm, if_pos hn]

end

theorem quotientsRoundOnce : QuotientsRoundOnce := by
  intro f _ rm a b x y ha hb neg
  refine ⟨div_roundsTo rm ha hb, ?_, ?_, sqrt_roundsTo rm ha, sqrt_of_neg rm ha⟩
  · rintro rfl hx
    rw [div_zero_eq rm ha hb, if_neg hx]
  · rintro rfl hx
    rw [div_zero_eq rm ha hb, if_pos hx]

/-! ### What the functions deliver -/

theorem fpBits_eq_low (f : Fmt) (r : Reg) : r.fpBits f = low f r := rfl
theorem fpSnd_eq_snd (f : Fmt) (r : Reg) : r.fpSnd f = snd f r := rfl

/-- The issue of an instruction of slot F with one operand. -/
theorem State.ff1_of_clear {s : State} {d : Dst 16} {a : Fin 16} {lat : Nat} (hc : s.clear .f 1 [own .f a] [⟨d.ref .f, lat⟩]) (f : Reg → FpOut) :
    s.ff1 d a lat f = .next (deliversOut s .f [own .f a] (d.ref .f) lat (f (s.rd (own .f a)))) :=
  State.fpu_of_clear hc _

/-- The issue of one with two operands. -/
theorem State.ff2_of_clear {s : State} {d : Dst 16} {a : Fin 16} {b : Src 16} {lat : Nat}
    (hc : s.clear .f 1 [own .f a, b.ref .f] [⟨d.ref .f, lat⟩]) (f : Reg → Reg → FpOut) :
    s.ff2 d a b lat f = .next (deliversOut s .f [own .f a, b.ref .f] (d.ref .f) lat (f (s.rd (own .f a)) (s.rd (b.ref .f)))) :=
  State.fpu_of_clear hc _

/-- A one-operand function delivers its result with the sounding S(a) + k, under the result (R143). -/
theorem fpUnary_eq (f : Fmt) (op : Nat → Nat × Flg) (k : Int) (x : Reg) : fpUnary f op k x = ⟨(op (low f x)).1,
    under f (snd f x + (if k = 1 ∧ (f.dec (low f x)).isZero then 0 else k)) (op (low f x)).1, (op (low f x)).2, [snd f x]⟩ := by
  simp only [fpUnary, soundClamp_eq_under]
  rfl

/-- An instruction that issues a one-operand function of slot F is one of `FpFunction`. -/
theorem fpFunction_of_ff1 {i : Dst 16 → Fin 16 → RM → FS → Instr} {lat : Nat} {k : Int} {f : Fmt → RM → Nat → Nat × Flg}
    (h : ∀ d a rm fs s, exec (i d a rm fs) s = s.ff1 d a lat (fpUnary fs.fmt (f fs.fmt rm) k)) : FpFunction i lat k f := by
  intro s d a rm fs hc
  rw [h, State.ff1_of_clear hc, deliversOut, fpUnary_eq]

theorem fatan2_result (s : State) (d : Dst 16) (a : Fin 16) (b : Src 16) (rm : RM) (fs : FS)
    (hc : s.clear .f 1 [own .f a, b.ref .f] [⟨d.ref .f, 16⟩]) :
    let f := fs.fmt
    let y := s.rd (own .f a)
    let x := s.rd (b.ref .f)
    let r := f.atan2 rm (low f y) (low f x)
    exec (.fatan2 d a b rm fs) s = .next (deliversFp s .f [own .f a, b.ref .f] (d.ref .f) 16 r.1
      (if (f.dec (low f y)).isZero ∧ (f.dec (low f x)).isZero then under f 0 r.1
        else under f ((min (snd f y) (snd f x) : Nat) - 1) r.1) r.2 [snd f y, snd f x]) := by
  refine (State.ff2_of_clear hc (fpAtan2 fs.fmt rm)).trans (congrArg _ ?_)
  simp only [deliversOut, fpAtan2, soundClamp_eq_under, fpBits_eq_low, fpSnd_eq_snd, Bool.and_eq_true]
  split <;> rfl

/-- An issue that leaves two results in flight. -/
theorem fsincos_result (s : State) (d a : Fin 16) (rm : RM) (fs : FS)
    (hc : s.clear .f 1 [own .f a] [⟨⟨.f, d.val⟩, 8⟩, ⟨⟨.f, d.val + 1⟩, 8⟩]) :
    let f := fs.fmt
    let x := s.rd (own .f a)
    let r := f.sincos rm (low f x)
    let sn := under f ((snd f x : Int) - 1) r.1.1
    let cs := under f ((snd f x : Int) - 1) r.2.1
    exec (.fsincos d a rm fs) s = .next
      (((s.holding .f 1).push ⟨s.now + 8, .reg ⟨.f, d.val⟩ ⟨BitVec.ofNat 64 r.1.1, BitVec.ofNat 6 sn, x.poi⟩, r.1.2 ||| r.2.2,
          lossOf s .f [snd f x] sn, none, false, 0, none, s.now⟩).push
        ⟨s.now + 8, .reg ⟨.f, d.val + 1⟩ ⟨BitVec.ofNat 64 r.2.1, BitVec.ofNat 6 cs, x.poi⟩, r.1.2 ||| r.2.2,
          if (lossOf s .f [snd f x] sn).isSome then none else lossOf s .f [snd f x] cs, none, false, 0, none, s.now⟩) := by
  intro f x r sn cs
  change execFsincos d a rm fs s = _
  unfold execFsincos
  dsimp only
  rw [State.issue_of_clear hc rfl fun _ => rfl]
  simp only [State.result, State.holding_now, State.holding_ctx, State.push_now, State.push_ctx, lossOf_eq, soundClamp_eq_under,
    fpBits_eq_low, fpSnd_eq_snd]
  cases lossEvent s.cur.sndthr.toNat [snd f x] sn <;> cases lossEvent s.cur.sndthr.toNat [snd f x] cs <;> rfl

theorem floatFunctions : FloatFunctions :=
  ⟨fpFunction_of_ff1 fun _ _ _ _ _ => rfl, fpFunction_of_ff1 fun _ _ _ _ _ => rfl, fpFunction_of_ff1 fun _ _ _ _ _ => rfl,
    fpFunction_of_ff1 fun _ _ _ _ _ => rfl, fpFunction_of_ff1 fun _ _ _ _ _ => rfl,
    fun _ _ _ _ rm fs hc => State.ff2_of_clear hc (fpDiv fs.fmt rm), fatan2_result, fun _ _ _ _ hc => State.ff2_of_clear hc fpDecay,
    fun s d a rm fs _ hc => fsincos_result s d a rm fs hc⟩

/-- Settles O6: each function issues with the output that its rule gives; quotient and root round the first bits of the exact number once. -/
theorem floatFunctionResults : Obligations.FloatFunctionResults := ⟨floatFunctions, quotientsRoundOnce⟩

end Sys2Proof.Machine
end

section
/-! SUPPORT. The encodings of a format in the order of their magnitudes, and the number that each stands for (R107): O7, O8, O14. -/

namespace Sys2Proof.Machine
open Config Spec

/-! ### The formats -/

/-- What holds of the four formats (R107). -/
structure Fmt.Ok (f : Fmt) : Prop where
  two_le : 2 ≤ f.p
  bias : f.eMax = 2 * f.bias + 1
  pos : 1 ≤ f.bias

theorem fmt_ok {f : Fmt} (h : f ∈ formats) : f.Ok := by
  simp only [formats, List.mem_cons, List.not_mem_nil, or_false] at h
  rcases h with rfl | rfl | rfl | rfl <;> exact ⟨by decide, by decide, by decide⟩

/-- The exponent of the last bit of a subnormal number. -/
def Fmt.ub (f : Fmt) : Int := f.emin - f.p + 1

/-- The encodings without their sign below this number are the finite ones. -/
def Fmt.finLim (f : Fmt) : Nat := f.eMax * 2 ^ (f.p - 1)

/-- The magnitude of encoding k. -/
def Fmt.mag (f : Fmt) (k : Nat) : ℚ :=
  ((k - (k / 2 ^ (f.p - 1) - 1) * 2 ^ (f.p - 1) : Nat) : ℚ) * 2 ^ (f.ub + (k / 2 ^ (f.p - 1) - 1 : Nat))

section
variable {f : Fmt}

/-- q units of binade t are the magnitude of one encoding, also where they fill the binade. -/
theorem mag_eq (hf : f.Ok) {t q : Nat} (hq : q ≤ 2 ^ f.p) (ht : t = 0 ∨ 2 ^ (f.p - 1) ≤ q) :
    f.mag (t * 2 ^ (f.p - 1) + q) = (q : ℚ) * 2 ^ (f.ub + t) := by
  have hp : 2 ^ f.p = 2 ^ (f.p - 1) * 2 := by rw [← pow_succ, Nat.sub_add_cancel (by have := hf.two_le; omega)]
  have hP : 0 < 2 ^ (f.p - 1) := Nat.two_pow_pos _
  unfold Fmt.mag
  rw [Nat.add_comm, Nat.add_mul_div_right _ _ hP]
  generalize 2 ^ (f.p - 1) = P at *
  rw [hp] at hq
  rcases Nat.lt_or_ge q P with h | h
  · obtain rfl : t = 0 := ht.resolve_right (by omega)
    simp [Nat.div_eq_of_lt h]
  rcases Nat.lt_or_ge q (P * 2) with h2 | h2
  · have hd : q / P = 1 := Nat.div_eq_of_lt_le (by omega) (by omega)
    have ht' : 1 + t - 1 = t := by omega
    rw [hd, ht', Nat.add_sub_cancel]
  · obtain rfl : q = P * 2 := by omega
    have ht' : 2 + t - 1 = t + 1 := by omega
    have hs : P * 2 + t * P - (t + 1) * P = P := by
      rw [Nat.add_mul]; omega
    rw [Nat.mul_div_cancel_left _ hP, ht', hs]
    push_cast
    rw [← add_assoc, zpow_add_one₀ two_ne_zero]
    ring

/-- Every encoding is some units of a binade that it does not fill. -/
theorem exists_units (f : Fmt) (k : Nat) : ∃ t q, k = t * 2 ^ (f.p - 1) + q ∧ q < 2 * 2 ^ (f.p - 1) ∧ (t = 0 ∨ 2 ^ (f.p - 1) ≤ q) := by
  have hP : 0 < 2 ^ (f.p - 1) := Nat.two_pow_pos _
  have hd := Nat.div_add_mod k (2 ^ (f.p - 1))
  have hm := Nat.mod_lt k hP
  rcases Nat.eq_zero_or_pos (k / 2 ^ (f.p - 1)) with h | h
  · exact ⟨0, k, by omega, by rw [h] at hd; omega, .inl rfl⟩
  · obtain ⟨t, ht⟩ := Nat.exists_eq_add_of_le' h
    rw [ht, Nat.mul_add, Nat.mul_one, Nat.mul_comm] at hd
    exact ⟨t, 2 ^ (f.p - 1) + k % 2 ^ (f.p - 1), by omega, by omega, .inr (by omega)⟩

theorem mag_lt_succ (hf : f.Ok) (k : Nat) : f.mag k < f.mag (k + 1) := by
  have hp : 2 ^ f.p = 2 * 2 ^ (f.p - 1) := by rw [mul_comm, ← pow_succ, Nat.sub_add_cancel (by have := hf.two_le; omega)]
  obtain ⟨t, q, rfl, hq, ht⟩ := exists_units f k
  rw [Nat.add_assoc, mag_eq hf (by omega) ht, mag_eq hf (q := q + 1) (by omega) (ht.imp_right (by omega))]
  have : (0 : ℚ) < 2 ^ (f.ub + t) := by positivity
  push_cast
  nlinarith

theorem mag_strictMono (hf : f.Ok) : StrictMono f.mag := strictMono_nat_of_lt_succ (mag_lt_succ hf)

theorem mag_zero (f : Fmt) : f.mag 0 = 0 := by simp [Fmt.mag]

theorem mag_nonneg (f : Fmt) (k : Nat) : 0 ≤ f.mag k := by unfold Fmt.mag; positivity

/-! ### What an encoding decodes to (R107) -/

/-- The sign bit of an encoding. -/
def Fmt.neg (f : Fmt) (w : Nat) : Bool := w / 2 ^ (f.width - 1) % 2 == 1

theorem width_eq (hf : f.Ok) : f.width - 1 = f.p - 1 + f.eb := by
  have := hf.two_le
  unfold Fmt.width
  omega

theorem exponent_eq (hf : f.Ok) (w : Nat) : w / 2 ^ (f.p - 1) % 2 ^ f.eb = f.abs w / 2 ^ (f.p - 1) := by
  rw [Fmt.abs, width_eq hf, pow_add, Nat.mod_mul_right_div_self]

theorem fraction_eq (hf : f.Ok) (w : Nat) : w % 2 ^ (f.p - 1) = f.abs w % 2 ^ (f.p - 1) := by
  rw [Fmt.abs, width_eq hf, pow_add, Nat.mod_mul_right_mod]

theorem abs_lt (f : Fmt) (w : Nat) : f.abs w < 2 ^ (f.width - 1) := Nat.mod_lt _ (Nat.two_pow_pos _)

theorem exponent_le (hf : f.Ok) (w : Nat) : f.abs w / 2 ^ (f.p - 1) ≤ f.eMax := by
  rw [← exponent_eq hf]
  exact Nat.le_pred_of_lt (Nat.mod_lt _ (Nat.two_pow_pos _))

theorem lt_finLim_iff {k : Nat} : k < f.finLim ↔ k / 2 ^ (f.p - 1) < f.eMax := (Nat.div_lt_iff_lt_mul (Nat.two_pow_pos _)).symm

theorem dec_of_lt_finLim (hf : f.Ok) {w : Nat} (h : f.abs w < f.finLim) : ∃ m e, f.dec w = .fin (f.neg w) m e ∧ (m : ℚ) * 2 ^ e = f.mag (f.abs w) := by
  have hex := lt_finLim_iff.mp h
  unfold Fmt.dec
  rw [exponent_eq hf, fraction_eq hf, if_neg hex.ne]
  unfold Fmt.mag Fmt.ub Fmt.emin
  have hd := Nat.div_add_mod (f.abs w) (2 ^ (f.p - 1))
  have hp := hf.two_le
  generalize f.abs w / 2 ^ (f.p - 1) = ex at *
  generalize 2 ^ (f.p - 1) = P at *
  rcases Nat.eq_zero_or_pos ex with rfl | h0
  · rw [if_pos rfl]
    refine ⟨_, _, rfl, ?_⟩
    rw [show f.abs w - (0 - 1) * P = f.abs w % P by omega]
    congr 2
    omega
  · rw [if_neg h0.ne']
    obtain ⟨t, rfl⟩ := Nat.exists_eq_add_of_le' h0
    refine ⟨_, _, rfl, ?_⟩
    rw [show f.abs w - (t + 1 - 1) * P = P + f.abs w % P by rw [Nat.mul_add, Nat.mul_comm] at hd; simp only [Nat.add_sub_cancel]; omega]
    congr 2
    omega

theorem dec_of_eq_finLim (hf : f.Ok) {w : Nat} (h : f.abs w = f.finLim) : f.dec w = .inf (f.neg w) := by
  have hP : 0 < 2 ^ (f.p - 1) := Nat.two_pow_pos _
  unfold Fmt.dec
  rw [exponent_eq hf, fraction_eq hf, h, Fmt.finLim, Nat.mul_div_cancel _ hP, Nat.mul_mod_left, if_pos rfl, if_pos rfl]
  rfl

theorem dec_of_finLim_lt (hf : f.Ok) {w : Nat} (h : f.finLim < f.abs w) : ∃ sg, f.dec w = .nan sg := by
  have hex : f.abs w / 2 ^ (f.p - 1) = f.eMax := le_antisymm (exponent_le hf w) (not_lt.mp fun hlt => absurd (lt_finLim_iff.mpr hlt) h.not_gt)
  have hd := Nat.div_add_mod (f.abs w) (2 ^ (f.p - 1))
  have hfr : f.abs w % 2 ^ (f.p - 1) ≠ 0 := fun h0 => by
    rw [hex, h0, Nat.add_zero, Nat.mul_comm] at hd
    exact h.ne hd
  unfold Fmt.dec
  rw [exponent_eq hf, fraction_eq hf, if_pos hex, if_neg hfr]
  exact ⟨_, rfl⟩

/-- A number of a sign. -/
def signedQ (neg : Bool) (x : ℚ) : ℚ := if neg then -x else x

/-- The value of a finite encoding, and none of another. -/
theorem value_eq (hf : f.Ok) (w : Nat) : value f w = if f.abs w < f.finLim then some (signedQ (f.neg w) (f.mag (f.abs w))) else none := by
  unfold value
  split_ifs with h
  · obtain ⟨m, e, hd, hm⟩ := dec_of_lt_finLim hf h
    rw [hd, ← hm, signedQ]
    cases f.neg w <;> simp
  · rcases Nat.eq_or_lt_of_le (not_lt.mp h) with he | hl
    · rw [dec_of_eq_finLim hf he.symm]
    · obtain ⟨sg, hd⟩ := dec_of_finLim_lt hf hl
      rw [hd]

theorem value_eq_some (hf : f.Ok) {w : Nat} {u : ℚ} (h : value f w = some u) : f.abs w < f.finLim ∧ u = signedQ (f.neg w) (f.mag (f.abs w)) := by
  rw [value_eq hf] at h
  split at h
  next hl => exact ⟨hl, (Option.some.inj h).symm⟩
  next => cases h

/-- An encoding is a sign bit and a rest. -/
theorem encoding_parts (hf : f.Ok) (neg : Bool) {k : Nat} (hk : k < 2 ^ (f.width - 1)) :
    f.neg (f.signBit neg + k) = neg ∧ f.abs (f.signBit neg + k) = k ∧ f.signBit neg + k < 2 ^ f.width := by
  have hp := hf.two_le
  have hw : 2 ^ f.width = 2 ^ (f.width - 1) * 2 := by rw [← pow_succ, Nat.sub_add_cancel (by unfold Fmt.width; omega)]
  unfold Fmt.neg Fmt.abs Fmt.signBit
  rw [hw]
  generalize 2 ^ (f.width - 1) = S at *
  have hS : 0 < S := by omega
  cases neg
  · simp [Nat.div_eq_of_lt hk, Nat.mod_eq_of_lt hk]
    omega
  · simp [Nat.add_div_left _ hS, Nat.div_eq_of_lt hk, Nat.mod_eq_of_lt hk]
    omega

theorem finLim_lt (hf : f.Ok) : f.finLim < 2 ^ (f.width - 1) := by
  rw [width_eq hf, pow_add, Nat.mul_comm, Fmt.finLim]
  exact Nat.mul_lt_mul_of_pos_right (Nat.sub_lt (Nat.two_pow_pos _) Nat.one_pos) (Nat.two_pow_pos _)

theorem value_encoding (hf : f.Ok) (neg : Bool) {k : Nat} (hk : k < f.finLim) : value f (f.signBit neg + k) = some (signedQ neg (f.mag k)) := by
  obtain ⟨hn, ha, -⟩ := encoding_parts hf neg (hk.trans (finLim_lt hf))
  rw [value_eq hf, hn, ha, if_pos hk]

theorem value_inf (hf : f.Ok) (neg : Bool) : value f (f.inf neg) = none := by
  obtain ⟨hn, ha, -⟩ := encoding_parts hf neg (finLim_lt hf)
  rw [value_eq hf, Fmt.inf, ← Fmt.finLim, ha, if_neg (lt_irrefl _)]

end

end Sys2Proof.Machine
end

section
/-! SUPPORT. One rounding (R109): where a number lies between two encodings, and which of them it becomes: O7, O14, O35. -/

namespace Sys2Proof.Machine
open Config Spec

/-! ### The part of a magnitude that rounding discards -/

/-- A magnitude y against a natural number q below it: what `splitAt` answers of the part above q. -/
structure Parts (y : ℝ) (q part : Nat) : Prop where
  le : (q : ℝ) ≤ y
  lt : y < q + 1
  zero : part = 0 ↔ y = q
  low : part < 2 ↔ y < q + 1 / 2
  high : 2 < part ↔ q + 1 / 2 < y
  part_le : part ≤ 3

/-- The same of the part above q over a unit of 2N. -/
theorem parts_of_scaled {y w N : ℝ} {q part : Nat} (hN : 0 < N) (hy : y = q + w / (2 * N)) (h0 : 0 ≤ w) (h1 : w < 2 * N) (hz : part = 0 ↔ w = 0)
    (hl : part < 2 ↔ w < N) (hh : 2 < part ↔ N < w) (h3 : part ≤ 3) : Parts y q part := by
  have h2 : 0 < 2 * N := by linarith
  subst hy
  refine ⟨le_add_of_nonneg_right (div_nonneg h0 h2.le), ?_, ?_, ?_, ?_, h3⟩
  · rwa [add_lt_add_iff_left, div_lt_one h2]
  · rw [hz, add_eq_left, div_eq_zero_iff, or_iff_left h2.ne']
  · rw [hl, add_lt_add_iff_left, div_lt_div_iff₀ h2 two_pos]
    constructor <;> intro h <;> linarith
  · rw [hh, add_lt_add_iff_left, div_lt_div_iff₀ two_pos h2]
    constructor <;> intro h <;> linarith

/-- `z` is m, or, with a sticky bit, lies strictly between m and m + 1. -/
def Sticky (m : Nat) (st : Bool) (z : ℝ) : Prop := if st then (m : ℝ) < z ∧ z < m + 1 else z = m

/-- How r units and a part d of one compare with one half, which is N of them. -/
theorem part_spec {r N : Nat} {d : ℝ} {st : Bool} (hN : 0 < N) (h0 : 0 ≤ d) (h1 : d < 1) (hst : d = 0 ↔ st = false) :
    let part := if r = 0 then (if st then 1 else 0) else if r < N then 1 else if r = N then (if st then 3 else 2) else 3
    (part = 0 ↔ (r : ℝ) + d = 0) ∧ (part < 2 ↔ (r : ℝ) + d < N) ∧ (2 < part ↔ (N : ℝ) < r + d)
      ∧ part ≤ 3 := by
  have hN1 : (1 : ℝ) ≤ N := by exact_mod_cast hN
  have hst1 : 0 < d ↔ st = true := by rw [lt_iff_le_and_ne, ne_comm, Ne, hst, Bool.not_eq_false, and_iff_right h0]
  rcases lt_trichotomy r N with hr | rfl | hr
  · rcases Nat.eq_zero_or_pos r with rfl | hp
    · have hd : d < N := h1.trans_le hN1
      cases st <;> simp [hst, hd, hd.le]
    · have hr' : (r : ℝ) + 1 ≤ N := by exact_mod_cast hr
      have hp' : (0 : ℝ) < r := by exact_mod_cast hp
      have hne : (r : ℝ) + d ≠ 0 := by linarith
      have hlt : (r : ℝ) + d < N := by linarith
      simp [hp.ne', hr, hne, hlt, hlt.le]
  · have hne : (r : ℝ) + d ≠ 0 := by linarith
    cases st <;> simp [hN.ne', hne, hst1, h0]
  · have hr' : (N : ℝ) < r := by exact_mod_cast hr
    have hne : (r : ℝ) + d ≠ 0 := by linarith
    have hlt : (N : ℝ) < r + d := by linarith
    simp [(hN.trans hr).ne', hr.not_gt, hr.ne', hne, hlt, hlt.le]

theorem Sticky.sub {m : Nat} {st : Bool} {z : ℝ} (h : Sticky m st z) : 0 ≤ z - m ∧ z - m < 1 ∧ (z - m = 0 ↔ st = false) := by
  cases st with
  | false =>
    have hz : z = m := h
    simp [hz]
  | true =>
    obtain ⟨hl, hr⟩ : (m : ℝ) < z ∧ z < m + 1 := h
    exact ⟨by linarith, by linarith, iff_of_false (by linarith) (by decide)⟩

theorem parts_splitAt {m : Nat} {e u : Int} {st : Bool} {z : ℝ} (hz : Sticky m st z) (hu : st = true → e < u) :
    Parts (z * 2 ^ (e - u)) (splitAt m e u st).1 (splitAt m e u st).2 := by
  unfold splitAt
  split
  next he =>
    obtain rfl : st = false := Bool.eq_false_iff.mpr fun h => (hu h).not_ge he
    obtain ⟨k, hk⟩ := Int.eq_ofNat_of_zero_le (sub_nonneg.mpr he)
    have hy : z * 2 ^ (e - u) = (m * 2 ^ (e - u).toNat : Nat) := by
      rw [show z = m from hz, hk]
      push_cast
      simp
    rw [hy]
    exact ⟨le_refl _, lt_add_one _, by simp, by simp, by simp, by simp⟩
  next he =>
    obtain ⟨k, hk⟩ : ∃ k : Nat, u - e = (k + 1 : Nat) := ⟨(u - e - 1).toNat, by omega⟩
    have hk' : (u - e).toNat = k + 1 := by omega
    have hr : m % 2 ^ (k + 1) < 2 * 2 ^ k := by rw [mul_comm, ← Nat.pow_succ]; exact Nat.mod_lt m (Nat.two_pow_pos (k + 1))
    have hy : z * 2 ^ (e - u) = (m / 2 ^ (k + 1) : Nat) + ((m % 2 ^ (k + 1) : Nat) + (z - m)) / (2 * (2 ^ k : Nat)) := by
      have hm : (m : ℝ) = 2 ^ (k + 1) * (m / 2 ^ (k + 1) : Nat) + (m % 2 ^ (k + 1) : Nat) := by exact_mod_cast (Nat.div_add_mod m _).symm
      rw [show e - u = -((k + 1 : Nat) : Int) by omega, zpow_neg, zpow_natCast]
      generalize ((m / 2 ^ (k + 1) : Nat) : ℝ) = Q, ((m % 2 ^ (k + 1) : Nat) : ℝ) = R at *
      rw [hm, pow_succ]
      push_cast
      field_simp
      ring
    rw [hk', hy]
    dsimp only
    rw [Nat.add_sub_cancel]
    obtain ⟨hd0, hd1, hds⟩ := hz.sub
    have hr0 : (0 : ℝ) ≤ (m % 2 ^ (k + 1) : Nat) := Nat.cast_nonneg _
    have hr1 : ((m % 2 ^ (k + 1) : Nat) : ℝ) + 1 ≤ 2 * (2 ^ k : Nat) := by exact_mod_cast hr
    obtain ⟨p0, p1, p2, p3⟩ := part_spec (r := m % 2 ^ (k + 1)) (Nat.two_pow_pos k) hd0 hd1 hds
    exact parts_of_scaled (by positivity) rfl (by linarith) (by linarith) p0 p1 p2 p3


/-! ### The two encodings beside a magnitude -/

/-- A magnitude X lies from encoding k on and below the next; `part` tells where. -/
structure Bracket (f : Fmt) (X : ℝ) (k part : Nat) : Prop where
  le : f.mag k ≤ X
  lt : X < f.mag (k + 1)
  zero : part = 0 ↔ X = f.mag k
  low : part < 2 ↔ X - f.mag k < f.mag (k + 1) - X
  high : 2 < part ↔ f.mag (k + 1) - X < X - f.mag k
  part_le : part ≤ 3

section
variable {f : Fmt}

theorem two_pow_p (hf : f.Ok) : 2 ^ f.p = 2 * 2 ^ (f.p - 1) := by
  rw [mul_comm, ← pow_succ, Nat.sub_add_cancel (by have := hf.two_le; omega)]

theorem bracket_of_parts (hf : f.Ok) {y : ℝ} {q part t : Nat} (h : Parts y q part) (hq : q < 2 ^ f.p) (ht : t = 0 ∨ 2 ^ (f.p - 1) ≤ q) :
    Bracket f (y * 2 ^ (f.ub + t)) (t * 2 ^ (f.p - 1) + q) part := by
  have hp : (0 : ℝ) < 2 ^ (f.ub + t) := by positivity
  have hk : ((f.mag (t * 2 ^ (f.p - 1) + q) : ℚ) : ℝ) = q * 2 ^ (f.ub + t) := by rw [mag_eq hf hq.le ht]; push_cast; rfl
  have hk1 : ((f.mag (t * 2 ^ (f.p - 1) + q + 1) : ℚ) : ℝ) = (q + 1) * 2 ^ (f.ub + t) := by
    rw [Nat.add_assoc, mag_eq hf (q := q + 1) hq (ht.imp_right (by omega))]; push_cast; rfl
  refine ⟨?_, ?_, ?_, ?_, ?_, h.part_le⟩
  · rw [hk]
    exact mul_le_mul_of_nonneg_right h.le hp.le
  · rw [hk1]
    exact mul_lt_mul_of_pos_right h.lt hp
  · rw [h.zero, hk, mul_left_inj' hp.ne']
  · rw [h.low, hk, hk1, ← sub_mul, ← sub_mul, mul_lt_mul_iff_left₀ hp]
    constructor <;> intro <;> linarith
  · rw [h.high, hk, hk1, ← sub_mul, ← sub_mul, mul_lt_mul_iff_left₀ hp]
    constructor <;> intro <;> linarith

theorem pack_eq (hf : f.Ok) (neg : Bool) {q t : Nat} (ht : t = 0 ∨ 2 ^ (f.p - 1) ≤ q) :
    f.pack neg q (f.ub + t) = f.signBit neg + (t * 2 ^ (f.p - 1) + q) := by
  have hP : 0 < 2 ^ (f.p - 1) := Nat.two_pow_pos _
  have hp := hf.two_le
  have hu : f.ub + t + f.bias + f.p - 1 = (t + 1 : Nat) := by unfold Fmt.ub Fmt.emin; omega
  have hu1 : f.ub + t + 1 + f.bias + f.p - 1 = (t + 2 : Nat) := by unfold Fmt.ub Fmt.emin; omega
  unfold Fmt.pack
  split
  next h0 =>
    obtain rfl : t = 0 := ht.resolve_right (by omega)
    omega
  next h0 =>
    split
    next hlt =>
      obtain rfl : t = 0 := ht.resolve_right (by omega)
      omega
    next hge =>
      rw [two_pow_p hf]
      generalize 2 ^ (f.p - 1) = P at *
      dsimp only
      split
      next he => rw [hu1, Int.toNat_natCast, he, Nat.add_mul]; omega
      next he => rw [hu, Int.toNat_natCast, Nat.add_mul]; omega

/-- The last bit of an encoding is that of its units. -/
theorem roundUp_units (hf : f.Ok) (rm : RM) (neg : Bool) (t q part : Nat) :
    roundUp rm neg (t * 2 ^ (f.p - 1) + q) part = roundUp rm neg q part := by
  obtain ⟨k, hk⟩ : ∃ k, f.p - 1 = k + 1 := ⟨f.p - 2, by have := hf.two_le; omega⟩
  have : (t * 2 ^ (f.p - 1) + q) % 2 = q % 2 := by rw [hk, pow_succ, ← mul_assoc, Nat.mul_add_mod']
  simp only [roundUp, this]

theorem rounded_units (hf : f.Ok) (rm : RM) (neg : Bool) (t q part : Nat) :
    rounded rm neg (t * 2 ^ (f.p - 1) + q) part = t * 2 ^ (f.p - 1) + rounded rm neg q part := by
  unfold rounded
  rw [roundUp_units hf]
  split <;> rfl

/-- The greatest finite magnitude. -/
theorem mag_max (hf : f.Ok) : f.mag (f.finLim - 1) = (2 ^ f.p - 1) * 2 ^ ((f.bias : Int) - f.p + 1) := by
  have hP : 0 < 2 ^ (f.p - 1) := Nat.two_pow_pos _
  have h2 := two_pow_p hf
  have hk : f.finLim - 1 = (2 * f.bias - 1) * 2 ^ (f.p - 1) + (2 ^ f.p - 1) := by
    obtain ⟨b, hb⟩ := Nat.exists_eq_add_of_le hf.pos
    rw [Fmt.finLim, hf.bias, h2, hb, show 2 * (1 + b) + 1 = 2 * (1 + b) - 1 + 2 by omega, Nat.add_mul]
    omega
  have hu : f.ub + (2 * f.bias - 1 : Nat) = (f.bias : Int) - f.p + 1 := by
    have := hf.pos
    unfold Fmt.ub Fmt.emin
    omega
  rw [hk, mag_eq hf (Nat.sub_le _ _) (.inr (by omega)), hu, Nat.cast_sub (Nat.one_le_two_pow)]
  push_cast
  rfl

/-- A number given by its first bits, over the exponent of its last known bit. -/
theorem scaled_of_isExact {neg st : Bool} {m : Nat} {e : Int} {x : ℝ} (h : IsExact f neg m e st x) :
    ∃ z, Sticky m st z ∧ |x| = z * 2 ^ e ∧ (2 : ℝ) ^ (bitLen m - 1) ≤ z ∧ z < 2 ^ bitLen m ∧ (st = true → f.p + 2 ≤ bitLen m) := by
  obtain ⟨hm, -, hx⟩ := h
  have hp : (0 : ℝ) < 2 ^ e := by positivity
  have hlo : (2 : ℝ) ^ (bitLen m - 1) ≤ m := by exact_mod_cast two_pow_le_of_bitLen hm.ne'
  have hhi : (m : ℝ) + 1 ≤ 2 ^ bitLen m := by exact_mod_cast lt_two_pow_bitLen m
  have hm0 := mul_le_mul_of_nonneg_right hlo hp.le
  refine ⟨|x| / 2 ^ e, ?_, (div_mul_cancel₀ _ hp.ne').symm, ?_⟩
  · unfold Sticky
    cases st with
    | true => exact ⟨(lt_div_iff₀ hp).mpr hx.1, (div_lt_iff₀ hp).mpr hx.2.1⟩
    | false => exact (div_eq_iff hp.ne').mpr hx
  rw [le_div_iff₀ hp, div_lt_iff₀ hp]
  cases st with
  | true =>
    obtain ⟨hl, hr, hbits⟩ := hx
    exact ⟨hm0.trans hl.le, hr.trans_le (mul_le_mul_of_nonneg_right hhi hp.le),
      fun _ => (Nat.pow_lt_pow_iff_right (by decide)).mp (hbits.trans_lt (lt_two_pow_bitLen m))⟩
  | false =>
    have hx' : |x| = m * 2 ^ e := hx
    exact ⟨hm0.trans_eq hx'.symm, hx'.trans_lt (mul_lt_mul_of_pos_right (by linarith) hp), fun h => absurd h Bool.false_ne_true⟩

/-- What a number beyond the greatest finite one becomes. -/
def Fmt.beyond (f : Fmt) (rm : RM) (neg : Bool) : Nat :=
  match rm with
  | .rne => f.inf neg
  | .rtz => f.maxFin neg
  | .rup => if neg then f.maxFin neg else f.inf neg
  | .rdn => if neg then f.inf neg else f.maxFin neg

/-- A magnitude over a unit of 2^u, where its binade has exponent E. -/
theorem unit_bounds {z : ℝ} {L : Nat} {e u : Int} (hL : 1 ≤ L) (hlo : (2 : ℝ) ^ (L - 1) ≤ z) (hhi : z < 2 ^ L) :
    (2 : ℝ) ^ (e + L - 1 - u) ≤ z * 2 ^ (e - u) ∧ z * 2 ^ (e - u) < 2 ^ (e + L - u) := by
  have hp : (0 : ℝ) < 2 ^ (e - u) := by positivity
  have h1 : (2 : ℝ) ^ (e + L - 1 - u) = 2 ^ (L - 1) * 2 ^ (e - u) := by
    rw [← zpow_natCast, ← zpow_add₀ two_ne_zero]
    congr 1
    omega
  have h2 : (2 : ℝ) ^ (e + L - u) = 2 ^ L * 2 ^ (e - u) := by
    rw [← zpow_natCast, ← zpow_add₀ two_ne_zero]
    congr 1
    omega
  rw [h1, h2]
  exact ⟨mul_le_mul_of_nonneg_right hlo hp.le, mul_lt_mul_of_pos_right hhi hp⟩

theorem rounded_le (rm : RM) (neg : Bool) (q part : Nat) : rounded rm neg q part ≤ q + 1 := by
  unfold rounded
  split <;> omega

theorem le_rounded (rm : RM) (neg : Bool) (q part : Nat) : q ≤ rounded rm neg q part := by
  unfold rounded
  split <;> omega

/-- A number whose rounding leaves the range, with an exponent E without bound, is beyond the greatest finite one. -/
theorem mag_max_lt (hf : f.Ok) {rm : RM} {neg : Bool} {y : ℝ} {q part : Nat} {E : Int} (h : Parts y q part) (hlo : (2 : ℝ) ^ (f.p - 1) ≤ y)
    (hhi : y < 2 ^ f.p) (hE : (f.bias : Int) < if rounded rm neg q part = 2 ^ f.p then E + 1 else E) :
    f.mag (f.finLim - 1) < y * 2 ^ (E - f.p + 1) := by
  have hm : ((f.mag (f.finLim - 1) : ℚ) : ℝ) = (2 ^ f.p - 1) * 2 ^ ((f.bias : Int) - f.p + 1) := by rw [mag_max hf]; push_cast; rfl
  have hU : (0 : ℝ) < 2 ^ ((f.bias : Int) - f.p + 1) := by positivity
  rw [hm]
  rcases lt_or_ge (f.bias : Int) E with hlt | hge
  · have h2 : (2 : ℝ) ^ f.p = 2 * 2 ^ (f.p - 1) := by exact_mod_cast two_pow_p hf
    calc (2 ^ f.p - 1) * (2 : ℝ) ^ ((f.bias : Int) - f.p + 1) < 2 ^ f.p * 2 ^ ((f.bias : Int) - f.p + 1) :=
          mul_lt_mul_of_pos_right (by linarith) hU
      _ = 2 ^ (f.p - 1) * 2 ^ ((f.bias : Int) - f.p + 1 + 1) := by
          rw [h2, zpow_add_one₀ two_ne_zero ((f.bias : Int) - f.p + 1)]
          ring
      _ ≤ y * 2 ^ (E - f.p + 1) := mul_le_mul hlo (zpow_le_zpow_right₀ one_le_two (by omega)) (by positivity) (by linarith [h.le, q.cast_nonneg (α := ℝ)])
  · have hr : rounded rm neg q part = 2 ^ f.p := by
      by_contra hne
      rw [if_neg hne] at hE
      omega
    rw [if_pos hr] at hE
    obtain rfl : E = f.bias := by omega
    have hq : q < 2 ^ f.p := by exact_mod_cast h.le.trans_lt hhi
    have hp0 : part ≠ 0 := by
      rintro rfl
      rw [rounded_zero] at hr
      exact hq.ne hr
    have hqy : (q : ℝ) < y := lt_of_le_of_ne h.le fun he => hp0 (h.zero.mpr he.symm)
    have hq1 : (2 : ℝ) ^ f.p ≤ q + 1 := by exact_mod_cast hr.symm.trans_le (rounded_le rm neg q part)
    exact mul_lt_mul_of_pos_right (by linarith) hU

/-- Units of the subnormal numbers lie below the first normal one. -/
theorem units_of_subnormal (hf : f.Ok) (rm : RM) (neg : Bool) {y : ℝ} {q part : Nat} (h : Parts y q part) (hhi : y < 2 ^ (f.p - 1)) :
    q < 2 ^ f.p ∧ 0 * 2 ^ (f.p - 1) + rounded rm neg q part < f.finLim := by
  have hq : q < 2 ^ (f.p - 1) := by exact_mod_cast h.le.trans_lt hhi
  have hP : 2 ^ (f.p - 1) * 2 ≤ f.finLim := by
    rw [Fmt.finLim, mul_comm, hf.bias]
    exact Nat.mul_le_mul_right _ (by have := hf.pos; omega)
  have hr := rounded_le rm neg q part
  rw [two_pow_p hf]
  omega

/-- Units of a binade within the range fill it at most. -/
theorem units_of_normal (hf : f.Ok) {rm : RM} {neg : Bool} {y : ℝ} {q part t : Nat} {E : Int} (h : Parts y q part) (hlo : (2 : ℝ) ^ (f.p - 1) ≤ y)
    (hhi : y < 2 ^ f.p) (ht : f.ub + t = E - f.p + 1) (hE : ¬(f.bias : Int) < if rounded rm neg q part = 2 ^ f.p then E + 1 else E) :
    q < 2 ^ f.p ∧ (t = 0 ∨ 2 ^ (f.p - 1) ≤ q) ∧ t * 2 ^ (f.p - 1) + rounded rm neg q part < f.finLim := by
  have hq : q < 2 ^ f.p := by exact_mod_cast h.le.trans_lt hhi
  have hq' : 2 ^ (f.p - 1) < q + 1 := by exact_mod_cast hlo.trans_lt h.lt
  have hr := rounded_le rm neg q part
  have hP := two_pow_p hf
  have hu : f.ub = 2 - f.bias - f.p := by unfold Fmt.ub Fmt.emin; omega
  refine ⟨hq, .inr (by omega), ?_⟩
  rw [Fmt.finLim, hf.bias]
  split at hE
  next he =>
    have ht' : t + 2 ≤ 2 * f.bias := by omega
    have := Nat.mul_le_mul_right (2 ^ (f.p - 1)) ht'
    rw [he, hP]
    rw [Nat.add_mul] at this
    rw [Nat.add_mul]
    have := Nat.two_pow_pos (f.p - 1)
    omega
  next he =>
    have ht' : t + 1 ≤ 2 * f.bias := by omega
    have := Nat.mul_le_mul_right (2 ^ (f.p - 1)) ht'
    rw [Nat.add_mul] at this
    rw [Nat.add_mul]
    omega

/-- The two outcomes of a rounding: beyond the finite numbers, or one of the two encodings beside the number. -/
theorem round_cases (hf : f.Ok) {neg st : Bool} {m : Nat} {e : Int} {x : ℝ} (h : IsExact f neg m e st x) (rm : RM) :
    (f.mag (f.finLim - 1) < |x| ∧ f.round rm neg m e st = (f.beyond rm neg, fOF ||| fNX))
    ∨ ∃ k part, Bracket f |x| k part ∧ rounded rm neg k part < f.finLim
      ∧ ∃ b, f.round rm neg m e st = (f.signBit neg + rounded rm neg k part, flagIf (part != 0) fNX ||| flagIf ((part != 0) && b) fUF) := by
  obtain ⟨z, hz, hx, hlo, hhi, hbits⟩ := scaled_of_isExact h
  have hL : 1 ≤ bitLen m := by
    rw [bitLen, if_neg h.1.ne']
    omega
  have hp := hf.two_le
  set E : Int := e + bitLen m - 1 with hE
  have hround : f.round rm neg m e st =
      let su := splitAt m e (E - f.p + 1) st
      let u := if E - f.p + 1 < f.ub then f.ub else E - f.p + 1
      let sb := splitAt m e u st
      if (f.bias : Int) < (if rounded rm neg su.1 su.2 = 2 ^ f.p then E + 1 else E) then (f.beyond rm neg, fOF ||| fNX)
      else (f.pack neg (rounded rm neg sb.1 sb.2) u, flagIf (sb.2 != 0) fNX
        ||| flagIf ((sb.2 != 0) && decide ((if rounded rm neg su.1 su.2 = 2 ^ f.p then E + 1 else E) < f.emin)) fUF) := rfl
  have hparts : ∀ u, E - f.p + 1 ≤ u → Parts (z * 2 ^ (e - u)) (splitAt m e u st).1 (splitAt m e u st).2 := fun u hu =>
    parts_splitAt hz fun hst => by have := hbits hst; omega
  have hxu : ∀ u, |x| = z * 2 ^ (e - u) * 2 ^ u := fun u => by rw [hx, mul_assoc, ← zpow_add₀ two_ne_zero, Int.sub_add_cancel]
  obtain ⟨hlo', hhi'⟩ := unit_bounds (e := e) (u := E - f.p + 1) hL hlo hhi
  rw [show e + bitLen m - 1 - (E - f.p + 1) = (f.p - 1 : Nat) by omega, zpow_natCast] at hlo'
  rw [show e + bitLen m - (E - f.p + 1) = (f.p : Nat) by omega, zpow_natCast] at hhi'
  have hsu := hparts _ le_rfl
  rw [hround]
  dsimp only
  by_cases hov : (f.bias : Int) < if rounded rm neg (splitAt m e (E - f.p + 1) st).1 (splitAt m e (E - f.p + 1) st).2 = 2 ^ f.p then E + 1 else E
  · rw [if_pos hov, hxu (E - f.p + 1)]
    exact .inl ⟨mag_max_lt hf hsu hlo' hhi' hov, rfl⟩
  rw [if_neg hov]
  right
  obtain ⟨t, ht, hq, hb, hfin⟩ : ∃ t : Nat, (if E - f.p + 1 < f.ub then f.ub else E - f.p + 1) = f.ub + t
      ∧ (splitAt m e (f.ub + t) st).1 < 2 ^ f.p ∧ (t = 0 ∨ 2 ^ (f.p - 1) ≤ (splitAt m e (f.ub + t) st).1)
      ∧ t * 2 ^ (f.p - 1) + rounded rm neg (splitAt m e (f.ub + t) st).1 (splitAt m e (f.ub + t) st).2 < f.finLim := by
    rcases lt_or_ge (E - f.p + 1) f.ub with hs | hs
    · have hy := (unit_bounds (e := e) (u := f.ub) hL hlo hhi).2.trans_le (zpow_le_zpow_right₀ one_le_two (show e + bitLen m - f.ub ≤ (f.p - 1 : Nat) by omega))
      obtain ⟨hq, hfin⟩ := units_of_subnormal hf rm neg (hparts f.ub hs.le) hy
      refine ⟨0, by simp [hs], ?_⟩
      rw [Nat.cast_zero, add_zero]
      exact ⟨hq, .inl rfl, hfin⟩
    · obtain ⟨t, ht⟩ := Int.le.dest hs
      refine ⟨t, by simp [hs.not_gt, ht], ?_⟩
      rw [ht]
      exact units_of_normal hf hsu hlo' hhi' ht hov
  rw [ht]
  have hk := hparts (f.ub + t) (by split at ht <;> omega)
  have hpack : f.pack neg (rounded rm neg (splitAt m e (f.ub + t) st).1 (splitAt m e (f.ub + t) st).2) (f.ub + t)
      = f.signBit neg + rounded rm neg (t * 2 ^ (f.p - 1) + (splitAt m e (f.ub + t) st).1) (splitAt m e (f.ub + t) st).2 := by
    rw [pack_eq hf neg (hb.imp_right fun h => h.trans (le_rounded ..)), rounded_units hf]
  rw [hpack]
  exact ⟨_, _, hxu (f.ub + t) ▸ bracket_of_parts hf hk hq hb, rounded_units hf rm neg t _ _ ▸ hfin, _, rfl⟩

/-! ### The nearest encoding (R109) -/

/-- Every other encoding lies no nearer than the two beside the number. -/
theorem Bracket.beside (hf : f.Ok) {X : ℝ} {k part : Nat} (h : Bracket f X k part) (w : Nat) :
    (w ≤ k → X - f.mag k ≤ |(f.mag w : ℝ) - X| ∧ (w ≠ k → X - f.mag k < |(f.mag w : ℝ) - X|))
    ∧ (k < w → f.mag (k + 1) - X ≤ |(f.mag w : ℝ) - X| ∧ (w ≠ k + 1 → f.mag (k + 1) - X < |(f.mag w : ℝ) - X|)) := by
  have hmono : ∀ {a b : Nat}, a < b → (f.mag a : ℝ) < f.mag b := fun hab => by exact_mod_cast mag_strictMono hf hab
  have hmono' : ∀ {a b : Nat}, a ≤ b → (f.mag a : ℝ) ≤ f.mag b := fun hab => by exact_mod_cast (mag_strictMono hf).monotone hab
  have hl := h.le
  have hr := h.lt
  refine ⟨fun hw => ?_, fun hw => ?_⟩
  · rw [abs_sub_comm, abs_of_nonneg (sub_nonneg.mpr ((hmono' hw).trans hl))]
    exact ⟨sub_le_sub_left (hmono' hw) X, fun hne => sub_lt_sub_left (hmono (lt_of_le_of_ne hw hne)) X⟩
  · rw [abs_of_nonneg (sub_nonneg.mpr (hr.le.trans (hmono' hw)))]
    exact ⟨sub_le_sub_right (hmono' hw) X, fun hne => sub_lt_sub_right (hmono (lt_of_le_of_ne hw (Ne.symm hne))) X⟩

/-- The encoding that rounding to nearest takes: none lies nearer, and of two as near it is the even one. -/
theorem Bracket.nearest (hf : f.Ok) {X : ℝ} {k part : Nat} (h : Bracket f X k part) (neg : Bool) (w : Nat) :
    |(f.mag (rounded .rne neg k part) : ℝ) - X| ≤ |(f.mag w : ℝ) - X|
      ∧ (|(f.mag (rounded .rne neg k part) : ℝ) - X| = |(f.mag w : ℝ) - X| → w ≠ rounded .rne neg k part → rounded .rne neg k part % 2 = 0) := by
  have hk : |(f.mag k : ℝ) - X| = X - f.mag k := by rw [abs_sub_comm, abs_of_nonneg (sub_nonneg.mpr h.le)]
  have hk1 : |(f.mag (k + 1) : ℝ) - X| = f.mag (k + 1) - X := abs_of_nonneg (sub_nonneg.mpr h.lt.le)
  obtain ⟨hbelow, habove⟩ := h.beside hf w
  have hpart := h.part_le
  have hlow := h.low
  have hhigh := h.high
  have hr : rounded .rne neg k part = k ∧ (part < 2 ∨ part = 2 ∧ k % 2 = 0) ∨ rounded .rne neg k part = k + 1 ∧ (part = 3 ∨ part = 2 ∧ k % 2 = 1) := by
    unfold rounded roundUp
    rcases Nat.mod_two_eq_zero_or_one k with h2 | h2 <;> interval_cases part <;> simp [h2]
  rcases hr with ⟨hr, hp⟩ | ⟨hr, hp⟩
  · rw [hr, hk]
    have hhalf : X - f.mag k ≤ f.mag (k + 1) - X := not_lt.mp (hhigh.not.mp (by omega))
    rcases le_or_gt w k with hw | hw
    · exact ⟨(hbelow hw).1, fun he hne => absurd he ((hbelow hw).2 hne).ne⟩
    · refine ⟨hhalf.trans (habove hw).1, fun he _ => ?_⟩
      rcases hp with hp | hp
      · exact absurd he ((hlow.mp hp).trans_le (habove hw).1).ne
      · exact hp.2
  · rw [hr, hk1]
    have hhalf : f.mag (k + 1) - X ≤ X - f.mag k := not_lt.mp (hlow.not.mp (by omega))
    rcases le_or_gt w k with hw | hw
    · refine ⟨hhalf.trans (hbelow hw).1, fun he _ => ?_⟩
      rcases hp with hp | hp
      · exact absurd he ((hhigh.mp (by omega)).trans_le (hbelow hw).1).ne
      · omega
    · exact ⟨(habove hw).1, fun he hne => absurd he ((habove hw).2 hne).ne⟩

end

end Sys2Proof.Machine
end

section
/-! SUPPORT. Rounding takes the nearest number of the format, or the nearest on the side that its mode names (R109): O7. -/

namespace Sys2Proof.Machine
open Config Spec

section
variable {f : Fmt}

/-! ### Signs -/

theorem abs_signedQ (neg : Bool) (y : ℚ) : |signedQ neg y| = |y| := by
  unfold signedQ
  split <;> simp

/-- A number that is not zero has the sign and the magnitude that its first bits give. -/
theorem signed_of_isExact {neg st : Bool} {m : Nat} {e : Int} {x : ℝ} (h : IsExact f neg m e st x) :
    x = (if neg then -|x| else |x|) ∧ 0 < |x| := by
  obtain ⟨z, hz, hx, hlo, -, -⟩ := scaled_of_isExact h
  have hz0 : 0 < z := lt_of_lt_of_le (by positivity) hlo
  refine ⟨?_, hx ▸ by positivity⟩
  split
  next hn => rw [abs_of_neg (h.2.1.mpr hn), neg_neg]
  next hn => rw [abs_of_nonneg (not_lt.mp (h.2.1.not.mpr hn))]

/-- The distance of two numbers of one sign is that of their magnitudes. -/
theorem abs_signedQ_sub {neg : Bool} {y : ℚ} {x X : ℝ} (hx : x = if neg then -X else X) : |((signedQ neg y : ℚ) : ℝ) - x| = |(y : ℝ) - X| := by
  rw [hx]
  cases neg with
  | false => rfl
  | true => rw [signedQ, if_pos rfl, if_pos rfl, Rat.cast_neg, ← neg_sub', abs_neg]

/-- Two numbers of one magnitude that are not equal lie at different distances from a third that is not zero. -/
theorem abs_sub_lt_of_ne {u v x : ℝ} (hx : x ≠ 0) (huv : |u| = |v|) (hne : u ≠ v) : |v - x| ≠ |u - x| := by
  rcases abs_eq_abs.mp huv with rfl | rfl
  · exact absurd rfl hne
  · intro h
    have hsq := (sq_eq_sq_iff_abs_eq_abs _ _).mpr h
    have hz : v * x = 0 := by linarith
    rcases mul_eq_zero.mp hz with rfl | rfl
    · exact hne neg_zero
    · exact hx rfl

theorem signBit_add_mod_two (hf : f.Ok) (neg : Bool) (k : Nat) : (f.signBit neg + k) % 2 = k % 2 := by
  obtain ⟨n, hn⟩ : ∃ n, f.width - 1 = n + 1 := ⟨f.width - 2, by have := hf.two_le; unfold Fmt.width; omega⟩
  unfold Fmt.signBit
  rw [hn, pow_succ]
  split <;> omega

/-! ### To the nearest -/

theorem nx_iff (part : Nat) (b : Bool) : (flagIf (part != 0) fNX ||| flagIf ((part != 0) && b) fUF) &&& fNX = 0 ↔ part = 0 := by
  rw [← Decidable.not_iff_not, ← Ne, ← Ne, ← bne_iff_ne (a := part)]
  cases part != 0 <;> cases b <;> decide

/-- A rounding is exact where nothing was discarded. -/
theorem Bracket.eq_iff {X : ℝ} {k part : Nat} (h : Bracket f X k part) (rm : RM) (neg : Bool) : (f.mag (rounded rm neg k part) : ℝ) = X ↔ part = 0 := by
  constructor
  · intro he
    rw [h.zero]
    unfold rounded at he
    split at he
    · exact absurd he h.lt.ne'
    · exact he.symm
  · rintro rfl
    rw [rounded_zero, h.zero.mp rfl]

theorem roundsToNearest : RoundsToNearest := by
  intro f hfm neg m e st x h r
  have hf := fmt_ok hfm
  obtain ⟨hx, hx0⟩ := signed_of_isExact h
  rcases round_cases hf h .rne with ⟨-, hr⟩ | ⟨k, part, hb, hfin, b, hr⟩
  · have hr : r = (f.inf neg, fOF ||| fNX) := hr
    rw [hr]
    refine ⟨fun h0 => absurd h0 (show ¬(fOF ||| fNX) &&& fOF = 0 by decide), iff_of_false (show ¬(fOF ||| fNX) &&& fNX = 0 by decide) ?_⟩
    rintro ⟨v, hv, -⟩
    rw [value_inf hf] at hv
    cases hv
  · have hr : r = (f.signBit neg + rounded .rne neg k part, flagIf (part != 0) fNX ||| flagIf ((part != 0) && b) fUF) := hr
    have hv := value_encoding hf neg hfin
    rw [hr]
    refine ⟨fun _ => ⟨_, hv, (encoding_parts hf neg (hfin.trans (finLim_lt hf))).2.2, fun w _ u hu => ?_⟩, ?_⟩
    · obtain ⟨-, rfl⟩ := value_eq_some hf hu
      obtain ⟨hle, heven⟩ := hb.nearest hf neg (f.abs w)
      have hsub : |(f.mag (f.abs w) : ℝ) - (|x|)| ≤ |((signedQ (f.neg w) (f.mag (f.abs w)) : ℚ) : ℝ) - x| := by
        have := abs_abs_sub_abs_le ((signedQ (f.neg w) (f.mag (f.abs w)) : ℚ) : ℝ) x
        rwa [← Rat.cast_abs, abs_signedQ, abs_of_nonneg (mag_nonneg f _)] at this
      rw [abs_signedQ_sub hx, signBit_add_mod_two hf]
      refine ⟨hle.trans hsub, fun he hne => heven (le_antisymm hle (hsub.trans_eq he.symm)) fun hw => ?_⟩
      refine abs_sub_lt_of_ne (u := ((signedQ (f.neg w) (f.mag (f.abs w)) : ℚ) : ℝ)) (abs_pos.mp hx0) ?_ (by exact_mod_cast hne)
        ((abs_signedQ_sub hx).trans he)
      rw [← Rat.cast_abs, ← Rat.cast_abs, abs_signedQ, abs_signedQ, hw]
    · rw [nx_iff, ← hb.eq_iff .rne neg, hv]
      rw [← sub_eq_zero, ← abs_eq_zero, ← abs_signedQ_sub hx, abs_eq_zero, sub_eq_zero]
      exact ⟨fun he => ⟨_, rfl, he⟩, by rintro ⟨v, hv, he⟩; cases hv; exact he⟩

/-! ### The directed modes -/

/-- A rounding toward zero: the greatest finite magnitude that is not above the number's. -/
theorem round_inward (hf : f.Ok) {neg st : Bool} {m : Nat} {e : Int} {x : ℝ} (h : IsExact f neg m e st x) {rm : RM}
    (hm : rm = .rtz ∨ rm = .rdn ∧ neg = false ∨ rm = .rup ∧ neg = true) :
    ∃ k < f.finLim, (f.round rm neg m e st).1 = f.signBit neg + k ∧ (f.mag k : ℝ) ≤ |x| ∧ ∀ w < f.finLim, (f.mag w : ℝ) ≤ |x| → w ≤ k := by
  have hdown : ∀ q part, rounded rm neg q part = q := by
    rcases hm with rfl | ⟨rfl, rfl⟩ | ⟨rfl, rfl⟩ <;> exact fun _ _ => rfl
  have hlim : 0 < f.finLim := Nat.mul_pos (by rw [hf.bias]; omega) (Nat.two_pow_pos _)
  rcases round_cases hf h rm with ⟨hlt, hr⟩ | ⟨k, part, hb, hfin, b, hr⟩
  · refine ⟨f.finLim - 1, by omega, ?_, hlt.le, fun w hw _ => by omega⟩
    have hmax : f.beyond rm neg = f.maxFin neg := by rcases hm with rfl | ⟨rfl, rfl⟩ | ⟨rfl, rfl⟩ <;> rfl
    rw [hr, hmax]
    exact Nat.add_sub_assoc hlim _
  · rw [hdown] at hfin hr
    refine ⟨k, hfin, by rw [hr], hb.le, fun w _ hw => ?_⟩
    have hlt : f.mag w < f.mag (k + 1) := by exact_mod_cast hw.trans_lt hb.lt
    exact Nat.lt_succ_iff.mp ((mag_strictMono hf).lt_iff_lt.mp hlt)

/-- A rounding away from zero: infinity, or the least finite magnitude that is not below the number's. -/
theorem round_outward (hf : f.Ok) {neg st : Bool} {m : Nat} {e : Int} {x : ℝ} (h : IsExact f neg m e st x) {rm : RM}
    (hm : rm = .rdn ∧ neg = true ∨ rm = .rup ∧ neg = false) :
    (f.round rm neg m e st).1 = f.inf neg
    ∨ ∃ k < f.finLim, (f.round rm neg m e st).1 = f.signBit neg + k ∧ |x| ≤ (f.mag k : ℝ) ∧ ∀ w, |x| ≤ (f.mag w : ℝ) → k ≤ w := by
  rcases round_cases hf h rm with ⟨-, hr⟩ | ⟨k, part, hb, hfin, b, hr⟩
  · left
    rw [hr]
    rcases hm with ⟨rfl, rfl⟩ | ⟨rfl, rfl⟩ <;> rfl
  · refine .inr ⟨_, hfin, by rw [hr], ?_⟩
    have hup : rounded rm neg k part = if part != 0 then k + 1 else k := by rcases hm with ⟨rfl, rfl⟩ | ⟨rfl, rfl⟩ <;> rfl
    rw [hup]
    split
    next hp =>
      refine ⟨hb.lt.le, fun w hw => ?_⟩
      have hne : |x| ≠ f.mag k := hb.zero.not.mp (bne_iff_ne.mp hp)
      have hlt : f.mag k < f.mag w := by exact_mod_cast (lt_of_le_of_ne hb.le hne.symm).trans_le hw
      exact (mag_strictMono hf).lt_iff_lt.mp hlt
    next hp =>
      have he : |x| = f.mag k := hb.zero.mp (by simpa using hp)
      refine ⟨he.le, fun w hw => ?_⟩
      rw [he] at hw
      exact (mag_strictMono hf).le_iff_le.mp (by exact_mod_cast hw)

section
variable {x X : ℝ} {neg : Bool} {k : Nat}

/-- The greatest magnitude not above that of a number, with the sign of the number, is the nearest one on the side of zero. -/
theorem inward_spec (hf : f.Ok) (hx : x = if neg then -X else X) (hmax : ∀ w < f.finLim, (f.mag w : ℝ) ≤ X → w ≤ k) {w : Nat} {u : ℚ}
    (hu : value f w = some u) :
    (neg = false → (u : ℝ) ≤ x → u ≤ signedQ neg (f.mag k)) ∧ (neg = true → x ≤ (u : ℝ) → signedQ neg (f.mag k) ≤ u) := by
  obtain ⟨hw, rfl⟩ := value_eq_some hf hu
  have hk := mag_nonneg f k
  have hw0 := mag_nonneg f (f.abs w)
  have hmono : (f.mag (f.abs w) : ℝ) ≤ X → f.mag (f.abs w) ≤ f.mag k := fun h => (mag_strictMono hf).monotone (hmax _ hw h)
  clear hu
  rw [hx]
  constructor
  · rintro rfl hux
    cases hn : f.neg w <;> rw [hn] at hux
    case true => exact (neg_nonpos.mpr hw0).trans hk
    case false => exact hmono hux
  · rintro rfl hux
    cases hn : f.neg w <;> rw [hn] at hux
    case true =>
      have hux' : -X ≤ ((-f.mag (f.abs w) : ℚ) : ℝ) := hux
      rw [Rat.cast_neg, neg_le_neg_iff] at hux'
      exact neg_le_neg (hmono hux')
    case false => exact (neg_nonpos.mpr hk).trans hw0

/-- The least magnitude not below that of a number, with the sign of the number, is the nearest one on the other side. -/
theorem outward_spec (hf : f.Ok) (hx : x = if neg then -X else X) (hX : 0 < X) (hmin : ∀ w, X ≤ (f.mag w : ℝ) → k ≤ w) {w : Nat} {u : ℚ}
    (hu : value f w = some u) :
    (neg = true → (u : ℝ) ≤ x → u ≤ signedQ neg (f.mag k)) ∧ (neg = false → x ≤ (u : ℝ) → signedQ neg (f.mag k) ≤ u) := by
  obtain ⟨-, rfl⟩ := value_eq_some hf hu
  have hw0 : (0 : ℝ) ≤ f.mag (f.abs w) := by exact_mod_cast mag_nonneg f (f.abs w)
  have hmono : X ≤ (f.mag (f.abs w) : ℝ) → f.mag k ≤ f.mag (f.abs w) := fun h => (mag_strictMono hf).monotone (hmin _ h)
  clear hu
  rw [hx]
  constructor
  · rintro rfl hux
    cases hn : f.neg w <;> rw [hn] at hux
    case true =>
      have hux' : ((-f.mag (f.abs w) : ℚ) : ℝ) ≤ -X := hux
      rw [Rat.cast_neg, neg_le_neg_iff] at hux'
      exact neg_le_neg (hmono hux')
    case false => exact absurd (hw0.trans hux) (not_le.mpr (neg_neg_of_pos hX))
  · rintro rfl hux
    cases hn : f.neg w <;> rw [hn] at hux
    case true =>
      have hux' : X ≤ ((-f.mag (f.abs w) : ℚ) : ℝ) := hux
      rw [Rat.cast_neg] at hux'
      exact absurd hux' (by linarith)
    case false => exact hmono hux

end

theorem cast_signedQ_true (y : ℚ) : ((signedQ true y : ℚ) : ℝ) = -(y : ℝ) := Rat.cast_neg y

/-- A finite number that rounding toward zero gives. -/
theorem value_inward (hf : f.Ok) {neg st : Bool} {m : Nat} {e : Int} {x : ℝ} (h : IsExact f neg m e st x) {rm : RM}
    (hm : rm = .rtz ∨ rm = .rdn ∧ neg = false ∨ rm = .rup ∧ neg = true) {v : ℚ} (hv : value f (f.round rm neg m e st).1 = some v) :
    ∃ k, v = signedQ neg (f.mag k) ∧ (f.mag k : ℝ) ≤ |x| ∧ ∀ w < f.finLim, (f.mag w : ℝ) ≤ |x| → w ≤ k := by
  obtain ⟨k, hk, hr, hle, hmax⟩ := round_inward hf h hm
  rw [hr, value_encoding hf neg hk] at hv
  exact ⟨k, (Option.some.inj hv).symm, hle, hmax⟩

/-- A finite number that rounding away from zero gives. -/
theorem value_outward (hf : f.Ok) {neg st : Bool} {m : Nat} {e : Int} {x : ℝ} (h : IsExact f neg m e st x) {rm : RM}
    (hm : rm = .rdn ∧ neg = true ∨ rm = .rup ∧ neg = false) {v : ℚ} (hv : value f (f.round rm neg m e st).1 = some v) :
    ∃ k, v = signedQ neg (f.mag k) ∧ |x| ≤ (f.mag k : ℝ) ∧ ∀ w, |x| ≤ (f.mag w : ℝ) → k ≤ w := by
  rcases round_outward hf h hm with hr | ⟨k, hk, hr, hle, hmin⟩
  · rw [hr, value_inf hf] at hv
    cases hv
  · rw [hr, value_encoding hf neg hk] at hv
    exact ⟨k, (Option.some.inj hv).symm, hle, hmin⟩

theorem rdn_spec (hf : f.Ok) {neg st : Bool} {m : Nat} {e : Int} {x : ℝ} (h : IsExact f neg m e st x) {v : ℚ}
    (hv : value f (f.round .rdn neg m e st).1 = some v) : (v : ℝ) ≤ x ∧ ∀ w u, value f w = some u → (u : ℝ) ≤ x → u ≤ v := by
  obtain ⟨hx, hx0⟩ := signed_of_isExact h
  cases neg with
  | false =>
    obtain ⟨k, rfl, hle, hmax⟩ := value_inward hf h (.inr (.inl ⟨rfl, rfl⟩)) hv
    exact ⟨hle.trans_eq hx.symm, fun w u hu => (inward_spec hf hx hmax hu).1 rfl⟩
  | true =>
    obtain ⟨k, rfl, hle, hmin⟩ := value_outward hf h (.inl ⟨rfl, rfl⟩) hv
    exact ⟨(cast_signedQ_true _).trans_le ((neg_le_neg hle).trans_eq hx.symm), fun w u hu => (outward_spec hf hx hx0 hmin hu).1 rfl⟩

theorem rup_spec (hf : f.Ok) {neg st : Bool} {m : Nat} {e : Int} {x : ℝ} (h : IsExact f neg m e st x) {v : ℚ}
    (hv : value f (f.round .rup neg m e st).1 = some v) : x ≤ (v : ℝ) ∧ ∀ w u, value f w = some u → x ≤ (u : ℝ) → v ≤ u := by
  obtain ⟨hx, hx0⟩ := signed_of_isExact h
  cases neg with
  | false =>
    obtain ⟨k, rfl, hle, hmin⟩ := value_outward hf h (.inr ⟨rfl, rfl⟩) hv
    exact ⟨hx.trans_le hle, fun w u hu => (outward_spec hf hx hx0 hmin hu).2 rfl⟩
  | true =>
    obtain ⟨k, rfl, hle, hmax⟩ := value_inward hf h (.inr (.inr ⟨rfl, rfl⟩)) hv
    exact ⟨hx.trans_le ((neg_le_neg hle).trans_eq (cast_signedQ_true _).symm), fun w u hu => (inward_spec hf hx hmax hu).2 rfl⟩

theorem rtz_spec (hf : f.Ok) {neg st : Bool} {m : Nat} {e : Int} {x : ℝ} (h : IsExact f neg m e st x) {v : ℚ}
    (hv : value f (f.round .rtz neg m e st).1 = some v) :
    |(v : ℝ)| ≤ |x| ∧ ∀ w u, value f w = some u → |(u : ℝ)| ≤ |x| → |u| ≤ |v| := by
  have habs : ∀ n k, |signedQ n (f.mag k)| = f.mag k := fun n k => by rw [abs_signedQ, abs_of_nonneg (mag_nonneg f k)]
  obtain ⟨k, rfl, hle, hmax⟩ := value_inward hf h (.inl rfl) hv
  rw [← Rat.cast_abs, habs]
  refine ⟨hle, fun w u hu hux => ?_⟩
  obtain ⟨hw, rfl⟩ := value_eq_some hf hu
  rw [← Rat.cast_abs, habs] at hux
  rw [habs]
  exact (mag_strictMono hf).monotone (hmax _ hw hux)

end

theorem roundsDirected : RoundsDirected := by
  intro f hfm neg m e st x h
  have hf := fmt_ok hfm
  refine ⟨fun v hv => ?_, fun v hv => ?_, fun v hv => ?_⟩
  · exact (rdn_spec hf h hv).imp_right fun hall w _ => hall w
  · exact (rup_spec hf h hv).imp_right fun hall w _ => hall w
  · exact (rtz_spec hf h hv).imp_right fun hall w _ => hall w

/-- Settles O7: rounding takes one of the two encodings beside the number, the nearer one or that on the side of its mode. -/
theorem roundingIsCorrect : Obligations.RoundingIsCorrect := ⟨roundsToNearest, roundsDirected⟩

end Sys2Proof.Machine
end

section
/-! SUPPORT. The order of encodings is that of the numbers (R113, R114): O8. -/

namespace Sys2Proof.Machine
open Config Spec

section
variable {f : Fmt}

/-- An encoding without its sign, with the sign as that of an integer. -/
def Fmt.rank (f : Fmt) (w : Nat) : Int := if f.neg w then -(f.abs w : Int) else f.abs w

/-- The number of a rank. -/
def Fmt.ofRank (f : Fmt) (i : Int) : ℚ := if i < 0 then -f.mag (-i).toNat else f.mag i.toNat

theorem ofRank_strictMono (hf : f.Ok) : StrictMono f.ofRank := by
  refine strictMono_int_of_lt_succ fun i => ?_
  have hmono := mag_strictMono hf
  unfold Fmt.ofRank
  rcases lt_trichotomy i (-1) with h | rfl | h
  · rw [if_pos (by omega), if_pos (by omega)]
    exact neg_lt_neg (hmono (by omega))
  · have h1 : f.mag 0 < f.mag 1 := hmono Nat.one_pos
    rw [mag_zero] at h1
    simpa [mag_zero] using h1
  · rw [if_neg (by omega), if_neg (by omega)]
    exact hmono (by omega)

theorem ofRank_rank (f : Fmt) (w : Nat) : f.ofRank (f.rank w) = signedQ (f.neg w) (f.mag (f.abs w)) := by
  unfold Fmt.ofRank Fmt.rank signedQ
  cases f.neg w with
  | false => simp
  | true =>
    rcases Nat.eq_zero_or_pos (f.abs w) with h | h
    · simp [h, mag_zero]
    · simp [h]

theorem value_eq_ofRank (hf : f.Ok) {w : Nat} {x : ℚ} (h : value f w = some x) : x = f.ofRank (f.rank w) := by
  rw [ofRank_rank]
  exact (value_eq_some hf h).2

theorem isNan_of_isSig : ∀ {x : Fp}, x.isSig = true → x.isNan = true
  | .nan _, _ => rfl

theorem isNan_of_value {w : Nat} {x : ℚ} (h : value f w = some x) : (f.dec w).isNan = false := by
  obtain ⟨n, m, e, hd, -⟩ := dec_of_value h
  rw [hd]
  rfl

theorem isSig_of_isNan {x : Fp} (h : x.isNan = false) : x.isSig = false := by
  by_contra hs
  rw [isNan_of_isSig (by simpa using hs)] at h
  cases h

theorem key_eq (f : Fmt) (w : Nat) : f.key w = if f.neg w then f.rank w - 1 else f.rank w := by
  unfold Fmt.key Fmt.rank Fmt.neg
  simp only [beq_iff_eq]
  split <;> rfl

/-- Only the zeros have magnitude zero. -/
theorem abs_of_isZero (hf : f.Ok) {w : Nat} (h : (f.dec w).isZero = true) : f.abs w = 0 := by
  rcases lt_trichotomy (f.abs w) f.finLim with hk | hk | hk
  · obtain ⟨m, e, hd, hm⟩ := dec_of_lt_finLim hf hk
    rw [hd] at h
    obtain rfl : m = 0 := by
      cases m with
      | zero => rfl
      | succ m => cases h
    rw [Nat.cast_zero, zero_mul, ← mag_zero f] at hm
    exact (mag_strictMono hf).injective hm.symm
  · rw [dec_of_eq_finLim hf hk] at h
    cases h
  · obtain ⟨sg, hd⟩ := dec_of_finLim_lt hf hk
    rw [hd] at h
    cases h

/-- A comparison compares ranks (R114). -/
theorem rank_of_key (hf : f.Ok) (w : Nat) : (if (f.dec w).isZero then 0 else if f.key w < 0 then f.key w + 1 else f.key w) = f.rank w := by
  rw [key_eq]
  have hr : f.rank w = if f.neg w then -(f.abs w : Int) else f.abs w := rfl
  split
  next h =>
    rw [hr, abs_of_isZero hf h]
    split <;> rfl
  next h =>
    cases hn : f.neg w with
    | false =>
      rw [hn, if_neg Bool.false_ne_true] at hr
      rw [if_neg Bool.false_ne_true, if_neg (by omega)]
    | true =>
      rw [hn, if_pos rfl] at hr
      rw [if_pos rfl, if_pos (by omega), Int.sub_add_cancel]

theorem compare_eq (hf : f.Ok) (c : Cond) (a b : Nat) : f.compare c a b =
    let un := (f.dec a).isNan || (f.dec b).isNan
    let sig := flagIf ((f.dec a).isSig || (f.dec b).isSig) fNV
    match c with
    | .eq => (!un && decide (f.rank a = f.rank b), sig)
    | .lt => (!un && decide (f.rank a < f.rank b), flagIf un fNV)
    | .le => (!un && decide (f.rank a ≤ f.rank b), flagIf un fNV)
    | .un => (un, sig)
    | .ne => (un || decide (f.rank a ≠ f.rank b), sig) := by
  unfold Fmt.compare
  dsimp only
  rw [rank_of_key hf, rank_of_key hf]
  cases c <;> simp [beq_eq_decide, bne]

theorem key_lt_of_rank_lt {a b : Nat} (h : f.rank a < f.rank b) : f.key a < f.key b := by
  rw [key_eq, key_eq]
  have ha : f.rank a = if f.neg a then -(f.abs a : Int) else f.abs a := rfl
  have hb : f.rank b = if f.neg b then -(f.abs b : Int) else f.abs b := rfl
  cases hna : f.neg a <;> cases hnb : f.neg b <;> simp [hna, hnb] at ha hb ⊢ <;> omega

end

/-- Minimum and maximum of numbers whose order is known. -/
theorem minmax_of_key_lt (f : Fmt) {a b : Nat} (ha : (f.dec a).isNan = false) (hb : (f.dec b).isNan = false) (isMax : Bool) :
    (f.key a < f.key b → f.minmax isMax a b = (some !isMax, 0)) ∧ (f.key b < f.key a → f.minmax isMax a b = (some isMax, 0)) := by
  have hm : f.minmax isMax a b = (some (if isMax then decide (f.key b ≤ f.key a) else decide (f.key a ≤ f.key b)), 0) := by
    simp [Fmt.minmax, ha, hb, isSig_of_isNan ha, isSig_of_isNan hb]
  rw [hm]
  cases isMax <;> simp <;> omega

/-- Settles O8: the keys and the ranks of encodings are in the order of the numbers. -/
theorem comparesNumbers : Obligations.ComparesNumbers := by
  intro f hfm a _ b _
  have hf := fmt_ok hfm
  refine ⟨fun x y hx hy => ?_, fun h => ?_, fun h => ?_, fun ha hs hb m => ?_, fun hb hs ha m => ?_⟩
  · have hna := isNan_of_value hx
    have hnb := isNan_of_value hy
    obtain rfl := value_eq_ofRank hf hx
    obtain rfl := value_eq_ofRank hf hy
    have hmono := ofRank_strictMono hf
    simp only [compare_eq hf, hna, hnb, isSig_of_isNan hna, isSig_of_isNan hnb, hmono.injective.eq_iff, hmono.lt_iff_lt, hmono.le_iff_le, ne_eq,
      Bool.or_false, Bool.not_false, Bool.true_and, Bool.false_or]
    have hmin := fun isMax => minmax_of_key_lt f hna hnb isMax
    exact ⟨rfl, rfl, rfl, rfl, rfl, fun h => ⟨(hmin false).1 (key_lt_of_rank_lt h), (hmin true).1 (key_lt_of_rank_lt h)⟩,
      fun h => ⟨(hmin false).2 (key_lt_of_rank_lt h), (hmin true).2 (key_lt_of_rank_lt h)⟩⟩
  · have hun : ((f.dec a).isNan || (f.dec b).isNan) = true := (Bool.or_eq_true _ _).mpr h
    simp only [compare_eq hf, hun, Bool.not_true, Bool.false_and, Bool.true_or]
    exact ⟨trivial, rfl, rfl, trivial, trivial⟩
  · have hsig : ((f.dec a).isSig || (f.dec b).isSig) = true := (Bool.or_eq_true _ _).mpr h
    have hun : ((f.dec a).isNan || (f.dec b).isNan) = true := (Bool.or_eq_true _ _).mpr (h.imp isNan_of_isSig isNan_of_isSig)
    refine ⟨fun c => ?_, fun m => if_pos hsig⟩
    rw [compare_eq hf, hsig, hun]
    cases c <;> rfl
  · simp [Fmt.minmax, ha, hs, hb, isSig_of_isNan hb]
  · simp [Fmt.minmax, ha, hs, hb, isSig_of_isNan ha]

end Sys2Proof.Machine
end

section
/-! SUPPORT. Syllables of slots V and W on tiles as they issue (R80, R135, R152, R417), and their arithmetic (R117, R136, R139, R420, R421, R426, R427,
R435, R437): O12. -/

namespace Sys2Proof.Machine
open Config Spec

/-! ### What a tile syllable leaves when it issues -/

theorem ceilDiv_32 (n : Nat) : ceilDiv n 32 = (n + 31) / 32 := rfl
theorem latInt_eq (n : Nat) : latInt n = intLat n := by unfold latInt intLat; rw [ceilDiv_32]; omega
theorem latFp_eq (n : Nat) : latFp n = fpLat n := by unfold latFp fpLat; rw [ceilDiv_32]; omega
theorem latFun_eq (n : Nat) : latFun n = funLat n := by unfold latFun funLat; rw [ceilDiv_32]; omega
theorem latRed_eq (n : Nat) : latRed n = redLat n := by unfold latRed redLat; rw [ceilDiv_32]; omega

/-- A clear tile syllable under a format that it admits leaves its elements in flight (R417). -/
theorem vop_of_clear {s : State} {f : VW} {reads : List RRef} {d : Fin 16} {lat : Nat}
    (hc : s.clear f.slot (hold s f) reads [⟨vreg f d, lat⟩]) (eb : Nat) (es : List EOut) :
    s.vop f true reads d lat eb es = .next (deliversTile s f d lat eb es) := by
  rw [State.vop, State.issue_of_clear hc rfl fun _ => rfl, State.vland, State.holding_now, State.holding_ctx, deliversTile]
  rfl

/-- A syllable that issues as one of the V and W map gives the elements of its list. -/
theorem tile_of_vop {i : Instr} {s : State} {f : VW} {ok : Prop} {okb : Bool} {reads : List RRef} {d : Fin 16} {lat lat' eb : Nat} {g : Nat → EOut}
    {es : List EOut} (hi : exec i s = s.vop f okb reads d lat' eb es) (hlat : lat' = lat) (hok : ok → okb = true)
    (hes : ok → es = (List.range (count s f)).map g) : Tile i s f ok reads d lat eb g := by
  intro h hc
  subst hlat
  rw [hi, hok h, hes h]
  exact vop_of_clear hc eb _

/-! ### Elements -/

theorem tile_eq_map (s : State) (f : VW) (r : Fin 16) : s.tile f r.val = (List.range (count s f)).map (elem s f r) := rfl

theorem opnd_eq_map (s : State) (f : VW) (b : Src 16) : s.opnd f b = (List.range (count s f)).map (opnd s f b) := by
  cases b with
  | own r => rfl
  | h p r =>
    change List.replicate (count s f) (opnd s f (.h p r) 0) = (List.range (count s f)).map (Function.const _ (opnd s f (.h p r) 0))
    rw [List.map_const, List.length_range]

/-- An element fits its bytes. -/
theorem elem_lt (s : State) (f : VW) (r : Fin 16) (k : Nat) : (elem s f r k).val.toNat < 2 ^ (8 * formBytes s.kore.form) := by
  unfold elem VReg.elem
  split
  next => exact Nat.two_pow_pos _
  next =>
    rw [BitVec.toNat_setWidth]
    exact (Nat.mod_le _ _).trans_lt (BitVec.isLt _)

theorem zipWith_map_map {α β γ δ : Type} (g : β → γ → δ) (a : α → β) (b : α → γ) (l : List α) :
    List.zipWith g (l.map a) (l.map b) = l.map fun x => g (a x) (b x) := by
  rw [List.zipWith_map, List.zipWith_self]

theorem zipWith3_map {α β γ δ ε : Type} (g : β → γ → δ → ε) (a : α → β) (b : α → γ) (c : α → δ) :
    ∀ l : List α, zipWith3 g (l.map a) (l.map b) (l.map c) = l.map fun x => g (a x) (b x) (c x)
  | [] => rfl
  | _ :: l => congrArg (_ :: ·) (zipWith3_map g a b c l)

theorem eout_fp_eq (s : State) (o : FpOut) (poi : Bool) : EOut.fp s.cur.sndthr.toNat o poi = float s o.w o.snd o.fl o.srcs poi := by
  rw [EOut.fp, float, lossOf_eq]
  cases lossEvent s.cur.sndthr.toNat o.srcs o.snd <;> rfl

/-- An element without a floating-point source is no loss event. -/
theorem eout_raw_eq (s : State) (w : Nat) (poi : Bool) : EOut.fp s.cur.sndthr.toNat ⟨w, 63, 0, []⟩ poi = raw w poi := by
  simp [EOut.fp, raw, lossEvent]

theorem vfmt_of_fp {s : State} {fm : Fmt} (h : s.kore.form.fp = some fm) : s.vfmt = fm := by rw [State.vfmt, h]; rfl

theorem isFp_of_fp {form : Form} {fm : Fmt} (h : form.fp = some fm) : form.isFp = true := by rw [Form.isFp, h]; rfl

/-! ### Floating point (R420, R426) -/

/-- A binary floating-point instruction on tiles. -/
theorem tileFp2_of_vfp2 {i : VW → Fin 16 → Fin 16 → Src 16 → Instr} {op : Fmt → Reg → Reg → FpOut} {v : Fmt → Nat → Nat → Nat × Flg}
    {so : Fmt → SOp → SOp → Nat → Nat} (hi : ∀ f d a b s, exec (i f d a b) s = s.vfp2 f d a b op)
    (hop : ∀ fm x y, op fm x y = ⟨(v fm (low fm x) (low fm y)).1,
      so fm (fm.sop (low fm x) (snd fm x)) (fm.sop (low fm y) (snd fm y)) (v fm (low fm x) (low fm y)).1, (v fm (low fm x) (low fm y)).2,
      [snd fm x, snd fm y]⟩) : TileFp2 i v so := fun s f d a b fm =>
  tile_of_vop (hi f d a b s) (latFp_eq _) isFp_of_fp fun hf => by
    rw [vfmt_of_fp hf, tile_eq_map, opnd_eq_map, zipWith_map_map]
    simp only [eout_fp_eq, hop]

/-- A one-operand floating-point function on tiles. -/
theorem tileFun_of_vfun {i : VW → Fin 16 → Fin 16 → RM → Instr} {v : Fmt → RM → Nat → Nat × Flg}
    (hi : ∀ f d a rm s, exec (i f d a rm) s = s.vfun f d a fun fm => fpUnary fm (v fm rm) (-1)) : TileFun i v := fun s f d a rm fm =>
  tile_of_vop (hi f d a rm s) (latFun_eq _) isFp_of_fp fun hf => by
    rw [vfmt_of_fp hf, tile_eq_map, List.map_map]
    simp only [Function.comp_def, eout_fp_eq, fpUnary_eq]
    rfl

theorem vfma_result (s : State) (f : VW) (d a : Fin 16) (b : Src 16) (rm : RM) (fm : Fmt) :
    Tile (.vfma f d a b rm) s f (s.kore.form.fp = some fm) [vreg f a, b.ref f.file, vreg f d] d (fpLat (count s f)) s.kore.eb fun k =>
      let x := elem s f a k
      let y := opnd s f b k
      let z := elem s f d k
      let r := fm.fma rm (low fm x) (low fm y) (low fm z)
      float s r.1 (fm.soundFma (low fm x) (low fm y) (low fm z) (snd fm x) (snd fm y) (snd fm z) r.1) r.2
        [snd fm x, snd fm y, snd fm z] (x.poi || y.poi || z.poi) :=
  tile_of_vop rfl (latFp_eq _) isFp_of_fp fun hf => by
    rw [vfmt_of_fp hf, tile_eq_map, tile_eq_map, opnd_eq_map, zipWith3_map]
    simp only [eout_fp_eq]
    rfl

theorem tileFloatResults : TileFloatResults :=
  ⟨fun rm => tileFp2_of_vfp2 (op := fun f => fpAdd f rm) (fun _ _ _ _ _ => rfl) fun _ _ _ => rfl,
    fun rm => tileFp2_of_vfp2 (op := fun f => fpSub f rm) (fun _ _ _ _ _ => rfl) fun _ _ _ => rfl,
    fun rm => tileFp2_of_vfp2 (op := fun f => fpMul f rm) (fun _ _ _ _ _ => rfl) fun _ _ _ => rfl,
    vfma_result, tileFun_of_vfun fun _ _ _ _ _ => rfl, tileFun_of_vfun fun _ _ _ _ _ => rfl, tileFun_of_vfun fun _ _ _ _ _ => rfl⟩

/-! ### Integers and raw bits (R117, R136, R139, R421, R427, R435, R437) -/

/-- A binary instruction on raw bits. -/
theorem tileRaw2_of_vraw2 {i : VW → Fin 16 → Fin 16 → Src 16 → Instr} {ok : Form → Bool} {op : Form → Nat → Nat → Nat} {v : Form → Nat → Nat → Nat}
    (hi : ∀ f d a b s, exec (i f d a b) s = s.vraw2 f (ok s.kore.form) d a b (op s.kore.form))
    (hop : ∀ form x y, x < 2 ^ (8 * formBytes form) → op form x y = v form x y) : TileRaw2 i ok v := fun s f d a b =>
  tile_of_vop (hi f d a b s) (latInt_eq _) id fun _ => by
    rw [tile_eq_map, opnd_eq_map, zipWith_map_map]
    simp only [hop s.kore.form _ _ (elem_lt s f a _)]
    rfl

theorem signed_int (form : Form) : form.int.signed = true := by cases form <;> rfl

/-- Clamping to a range, as a maximum and a minimum. -/
theorem clamp_eq {lo hi : Int} (h : lo ≤ hi) (x : Int) : (if x < lo then lo else if hi < x then hi else x) = max lo (min x hi) := by
  split <;> [omega; (split <;> omega)]

theorem sat_signed {t : IntTy} (h : t.signed = true) (x : Int) : t.sat x = max (-(2 ^ (t.w - 1))) (min x (2 ^ (t.w - 1) - 1)) := by
  have hp : (0 : Int) < 2 ^ (t.w - 1) := by positivity
  simp only [IntTy.sat, IntTy.lo, IntTy.hi, h, if_true, Nat.cast_pow, Nat.cast_ofNat]
  exact clamp_eq (by omega) x

theorem wrapOrSat_eq {t : IntTy} (h : t.signed = true) (sat : Bool) (x : Int) : t.enc (if sat then t.sat x else x) = wrapOrSat t sat x := by
  rw [wrapOrSat, sat_signed h]

/-- A binary instruction on signed integers, wrapped or saturated. -/
theorem tileRaw2_of_vint2 {i : VW → Fin 16 → Fin 16 → Src 16 → Instr} {sat : Bool} {op : Int → Int → Int}
    (hi : ∀ f d a b s, exec (i f d a b) s = s.vint2 f d a b sat op) :
    TileRaw2 i (fun fm => fm.fp.isNone) fun fm x y => wrapOrSat fm.int sat (op (fm.int.dec x) (fm.int.dec y)) := by
  refine tileRaw2_of_vraw2 (op := fun fm x y => fm.int.enc (if sat then fm.int.sat (op (fm.int.dec x) (fm.int.dec y)) else
    op (fm.int.dec x) (fm.int.dec y))) (fun f d a b s => ?_) fun form x y _ => wrapOrSat_eq (signed_int form) sat _
  rw [hi, State.vint2, Form.isFp, Option.not_isSome]

theorem vimac_result (s : State) (f : VW) (d a : Fin 16) (b : Src 16) (sat : Bool) :
    Tile (.vimac f d a b sat) s f (s.kore.form = .int16 ∧ count s f * 4 ≤ 2048) [vreg f a, b.ref f.file, vreg f d] d (intLat (count s f)) 4 fun k =>
      let z := (s.kore.vreg f d.val).elem 4 k
      raw (wrapOrSat ⟨32, true⟩ sat ((⟨32, true⟩ : IntTy).dec z.val.toNat
          + (⟨16, true⟩ : IntTy).dec (elem s f a k).val.toNat * (⟨16, true⟩ : IntTy).dec (opnd s f b k).val.toNat))
        ((elem s f a k).poi || (opnd s f b k).poi || z.poi) :=
  tile_of_vop rfl (latInt_eq _) (fun h => by simp only [Bool.and_eq_true, beq_iff_eq, decide_eq_true_eq]; exact h) fun _ => by
    rw [VReg.list, tile_eq_map, opnd_eq_map]
    refine (zipWith3_map _ _ _ _ _).trans ?_
    simp only [wrapOrSat_eq (t := ⟨32, true⟩) rfl]
    rfl

theorem shlElem_eq (w x c : Nat) : shlElem w x c = x * 2 ^ c % 2 ^ w := by
  unfold shlElem
  split
  next h => rw [← Nat.sub_add_cancel h, pow_add, ← mul_assoc, Nat.mul_mod_left]
  next => rfl

theorem shrElem_eq {w x : Nat} (hx : x < 2 ^ w) (c : Nat) : shrElem w false x c = x / 2 ^ c := by
  unfold shrElem
  rw [if_neg Bool.false_ne_true]
  split
  next h => exact (Nat.div_eq_of_lt (hx.trans_le (Nat.pow_le_pow_right two_pos h))).symm
  next => rfl

theorem shrElem_arith (w x c : Nat) : shrElem w true x c = (⟨w, true⟩ : IntTy).enc ((⟨w, true⟩ : IntTy).dec x / 2 ^ c) := by
  rw [shrElem, if_pos rfl]
  push_cast
  rfl

/-- A one-operand instruction that gives each element raw bits. -/
theorem tile_of_map_raw {i : Instr} {s : State} {f : VW} {ok : Prop} {okb : Bool} {d a : Fin 16} {v v' : Reg → Nat}
    (hi : exec i s = s.vop f okb [vref f a.val] d (latInt (s.kore.elems f)) s.kore.eb ((s.tile f a.val).map fun x => EOut.raw (v x) x.poi))
    (hok : ok → okb = true) (hv : ∀ k, v (elem s f a k) = v' (elem s f a k)) :
    Tile i s f ok [vreg f a] d (intLat (count s f)) s.kore.eb fun k => raw (v' (elem s f a k)) (elem s f a k).poi :=
  tile_of_vop hi (latInt_eq _) hok fun _ => by
    rw [tile_eq_map, List.map_map]
    simp only [Function.comp_def, hv]
    rfl

theorem vsat_result (s : State) (f : VW) (d a : Fin 16) (u : Bool) (range : Fin 4) :
    Tile (.vsat f d a u range) s f (s.kore.form.fp = none) [vreg f a] d (intLat (count s f)) s.kore.eb fun k =>
      let t := s.kore.form.int
      let w := 8 * 2 ^ range.val
      let lo : Int := if u then 0 else -(2 ^ (w - 1))
      let hi : Int := if u then 2 ^ w - 1 else 2 ^ (w - 1) - 1
      raw (t.enc (max lo (min (t.dec (elem s f a k).val.toNat) hi))) (elem s f a k).poi := by
  refine tile_of_map_raw (v' := fun x => s.kore.form.int.enc (max (if u then 0 else -(2 ^ (8 * 2 ^ range.val - 1)))
    (min (s.kore.form.int.dec x.val.toNat) (if u then 2 ^ (8 * 2 ^ range.val) - 1 else 2 ^ (8 * 2 ^ range.val - 1) - 1)))) rfl
    (fun h => by rw [Form.isFp, h]; rfl) fun k => congrArg s.kore.form.int.enc ?_
  have h1 : (0 : Int) < 2 ^ (8 * 2 ^ range.val) := by positivity
  have h2 : (0 : Int) < 2 ^ (8 * 2 ^ range.val - 1) := by positivity
  cases u with
  | false => exact clamp_eq (by dsimp only [satRange]; rw [if_neg Bool.false_ne_true]; dsimp only; omega) _
  | true => exact clamp_eq (by dsimp only [satRange]; rw [if_pos rfl]; dsimp only; omega) _

theorem tileIntegerResults : TileIntegerResults := by
  refine ⟨fun sat => tileRaw2_of_vint2 fun _ _ _ _ _ => rfl, fun sat => tileRaw2_of_vint2 fun _ _ _ _ _ => rfl,
    fun sat => tileRaw2_of_vint2 fun _ _ _ _ _ => rfl, vimac_result,
    tileRaw2_of_vraw2 (op := fun _ x y => x &&& y) (fun _ _ _ _ _ => rfl) fun _ _ _ _ => rfl,
    tileRaw2_of_vraw2 (op := fun _ x y => x ||| y) (fun _ _ _ _ _ => rfl) fun _ _ _ _ => rfl,
    tileRaw2_of_vraw2 (op := fun _ x y => x ^^^ y) (fun _ _ _ _ _ => rfl) fun _ _ _ _ => rfl,
    tileRaw2_of_vraw2 (op := fun fm x y => shlElem (8 * formBytes fm) x (y % 32)) (fun _ _ _ _ _ => rfl) fun _ _ _ _ => shlElem_eq _ _ _,
    tileRaw2_of_vraw2 (op := fun fm x y => shrElem (8 * formBytes fm) false x (y % 32)) (fun _ _ _ _ _ => rfl) fun _ _ _ hx => shrElem_eq hx _,
    tileRaw2_of_vraw2 (op := fun fm x y => shrElem (8 * formBytes fm) true x (y % 32)) (fun _ _ _ _ _ => rfl) fun _ _ _ _ => shrElem_arith _ _ _,
    fun s f d a n => tile_of_map_raw (v' := fun x => x.val.toNat * 2 ^ n.val % 2 ^ (8 * s.kore.eb)) rfl (fun _ => rfl) fun k => shlElem_eq _ _ _,
    fun s f d a n ar => ?_, fun s f d a u range _ => vsat_result s f d a u range⟩
  refine tile_of_map_raw (v' := fun x => let t : IntTy := ⟨8 * s.kore.eb, true⟩
    if ar then t.enc (t.dec x.val.toNat / 2 ^ n.val) else x.val.toNat / 2 ^ n.val) rfl (fun _ => rfl) fun k => ?_
  cases ar with
  | false => exact shrElem_eq (elem_lt s f a k) _
  | true => exact shrElem_arith _ _ _

/-- Settles O12: each syllable issues as one of the V and W map, and its elements are those of its rule. -/
theorem tileArithmeticResults : Obligations.TileArithmeticResults := ⟨tileFloatResults, tileIntegerResults⟩

end Sys2Proof.Machine
end

section
/-! SUPPORT. Signs, comparisons, selections, movement and soundings of tiles (R113, R114, R137, R138, R157, R281, R419, R422, R423, R432, R434, R436,
R438 to R440): O13. -/

namespace Sys2Proof.Machine
open Config Spec

/-! ### Signs, comparisons and selections -/

theorem width_pos_of_fp {form : Form} {fm : Fmt} (h : form.fp = some fm) : 0 < fm.width := by
  cases form <;> cases h <;> decide

theorem abs_eq_ite (v : Int) : (if v < 0 then -v else v) = |v| := by
  split
  next h => exact (abs_of_neg h).symm
  next h => exact (abs_of_nonneg (not_lt.mp h)).symm

theorem vsign_result (s : State) (f : VW) (d a : Fin 16) (neg : Bool) :
    Tile (if neg then .vneg f d a else .vabs f d a) s f True [vreg f a] d (intLat (count s f)) s.kore.eb fun k =>
      let x := elem s f a k
      match s.kore.form.fp with
      | some fm =>
        let w := if neg then (low fm x + 2 ^ (fm.width - 1)) % 2 ^ fm.width else low fm x % 2 ^ (fm.width - 1)
        float s w (under fm (snd fm x) w) 0 [snd fm x] x.poi
      | none =>
        let v := s.kore.form.int.dec x.val.toNat
        raw (s.kore.form.int.enc (if neg then -v else |v|)) x.poi := by
  have hi : exec (if neg then .vneg f d a else .vabs f d a) s = s.vsign f d a neg := by cases neg <;> rfl
  refine tile_of_vop hi (latInt_eq _) (fun _ => rfl) fun _ => ?_
  rw [tile_eq_map, List.map_map]
  refine List.map_congr_left fun k _ => ?_
  dsimp only [Function.comp_apply]
  cases hf : s.kore.form.fp with
  | some fm =>
    dsimp only
    rw [eout_fp_eq]
    simp only [fpSign, Fmt.carry, soundClamp_eq_under, fpBits_eq_low, fpSnd_eq_snd, flip_eq (width_pos_of_fp hf) (low_lt _ _)]
    rfl
  | none =>
    dsimp only
    rw [abs_eq_ite]
    rfl

theorem vcmp_result (s : State) (f : VW) (d a : Fin 16) (b : Src 16) (c : Cond) :
    Tile (.vcmp f d a b c) s f True [vreg f a, b.ref f.file] d (fpLat (count s f)) s.kore.eb fun k =>
      let x := elem s f a k
      let y := opnd s f b k
      let all := 2 ^ (8 * s.kore.eb) - 1
      let poi := x.poi || y.poi
      match s.kore.form.fp with
      | some fm =>
        let r := fm.compare c (low fm x) (low fm y)
        ⟨⟨BitVec.ofNat 64 (if r.1 then all else 0), 63, poi⟩, r.2, false⟩
      | none =>
        let u := s.kore.form.int.dec x.val.toNat
        let v := s.kore.form.int.dec y.val.toNat
        raw (if (match c with
          | .eq => decide (u = v)
          | .lt => decide (u < v)
          | .le => decide (u ≤ v)
          | .un => false
          | .ne => decide (u ≠ v)) then all else 0) poi := by
  refine tile_of_vop rfl (latFp_eq _) (fun _ => rfl) fun _ => ?_
  rw [tile_eq_map, opnd_eq_map, zipWith_map_map]
  refine List.map_congr_left fun k _ => ?_
  dsimp only
  cases hf : s.kore.form.fp with
  | some fm => rfl
  | none =>
    simp only [intCmp, Reg.sint, raw, beq_eq_decide, bne, decide_not]
    cases c <;> rfl

theorem vminmax_result (s : State) (f : VW) (d a : Fin 16) (b : Src 16) (isMax : Bool) :
    Tile (if isMax then .vmax f d a b else .vmin f d a b) s f True [vreg f a, b.ref f.file] d (fpLat (count s f)) s.kore.eb fun k =>
      let x := elem s f a k
      let y := opnd s f b k
      let poi := x.poi || y.poi
      match s.kore.form.fp with
      | some fm =>
        (match fm.minmax isMax (low fm x) (low fm y) with
        | (none, fl) => float s fm.qnan 0 fl [snd fm x, snd fm y] poi
        | (some true, fl) => float s (low fm x) (under fm (snd fm x) (low fm x)) fl [snd fm x, snd fm y] poi
        | (some false, fl) => float s (low fm y) (under fm (snd fm y) (low fm y)) fl [snd fm x, snd fm y] poi)
      | none =>
        let u := s.kore.form.int.dec x.val.toNat
        let v := s.kore.form.int.dec y.val.toNat
        raw (if (if isMax then v ≤ u else u ≤ v) then x else y).val.toNat poi := by
  have hi : exec (if isMax then .vmax f d a b else .vmin f d a b) s = s.vminmax f d a b isMax := by cases isMax <;> rfl
  refine tile_of_vop hi (latFp_eq _) (fun _ => rfl) fun _ => ?_
  rw [tile_eq_map, opnd_eq_map, zipWith_map_map]
  refine List.map_congr_left fun k _ => ?_
  dsimp only
  cases hf : s.kore.form.fp with
  | some fm =>
    rw [eout_fp_eq]
    simp only [State.pick, hf, fpMinmax_eq]
    rcases fm.minmax isMax (low fm (elem s f a k)) (low fm (opnd s f b k)) with ⟨_ | _ | _, fl⟩ <;> rfl
  | none =>
    simp only [State.pick, hf, eout_raw_eq]
    cases isMax <;> simp only [if_true, Bool.false_eq_true, if_false, decide_eq_true_eq] <;> rfl

theorem vsel_result (s : State) (f : VW) (d a : Fin 16) (b : Src 16) :
    Tile (.vsel f d a b) s f True [vreg f a, b.ref f.file, vreg f d] d (intLat (count s f)) s.kore.eb fun k =>
      let z := elem s f d k
      let c := if z.val = 0 then opnd s f b k else elem s f a k
      moved ⟨c.val, c.snd, c.poi || z.poi⟩ :=
  tile_of_vop rfl (latInt_eq _) (fun _ => rfl) fun _ => by
    rw [tile_eq_map, tile_eq_map, opnd_eq_map]
    exact zipWith3_map _ _ _ _ _

theorem tileSelectionResults : TileSelectionResults := ⟨vsign_result, vcmp_result, vminmax_result, vsel_result⟩

/-! ### Constants, movement and soundings -/

/-- An element of a tile, and of an operand, by its index. -/
theorem tile_getD (s : State) (f : VW) (r : Fin 16) {i : Nat} (h : i < count s f) : (s.tile f r.val).getD i Reg.zero = elem s f r i := by
  rw [tile_eq_map, List.getD_eq_getElem _ _ (by simpa using h), List.getElem_map, List.getElem_range]

theorem opnd_getD (s : State) (f : VW) (b : Src 16) (i : Nat) : (s.opnd f b).getD i Reg.zero = if i < count s f then opnd s f b i else Reg.zero := by
  rw [opnd_eq_map]
  split
  next h => rw [List.getD_eq_getElem _ _ (by simpa using h), List.getElem_map, List.getElem_range]
  next h => rw [List.getD_eq_default _ _ (by simpa using h)]

/-- A list of one element in every place. -/
theorem replicate_eq_map {α : Type} (n : Nat) (x : α) : List.replicate n x = (List.range n).map fun _ => x := by
  rw [List.map_const', List.length_range]

/-- The element of `VMOVI` (R138, R434). -/
theorem moviElem_eq (form : Form) (i : BitVec 16) : moviElem form i = match form with
    | .int8 => i.toNat % 2 ^ 8
    | .int16 | .fp16 | .bf16 => i.toNat
    | .int32 => (BitVec.ofInt 32 i.toInt).toNat
    | _ => (fmt16.cvt fmt32 .rne i.toNat).1 := by
  have h := i.isLt
  cases form <;> simp only [moviElem, Form.int, IntTy.enc, BitVec.toInt_eq_toNat_cond, BitVec.toNat_ofInt]
  case int8 => split <;> omega
  case int16 => split <;> omega

theorem vmovi_result (s : State) (f : VW) (d : Fin 16) (i : BitVec 16) : Tile (.vmovi f d i) s f True [] d (intLat (count s f)) s.kore.eb fun _ =>
    raw (match s.kore.form with
      | .int8 => i.toNat % 2 ^ 8
      | .int16 | .fp16 | .bf16 => i.toNat
      | .int32 => (BitVec.ofInt 32 i.toInt).toNat
      | _ => (fmt16.cvt fmt32 .rne i.toNat).1) false :=
  tile_of_vop rfl (latInt_eq _) (fun _ => rfl) fun _ => by
    rw [moviElem_eq, replicate_eq_map]
    rfl

theorem vbcast_result (s : State) (f : VW) (d : Fin 16) (h : HRd) :
    Tile (.vbcast f d h) s f True [⟨.h, h.reg.val⟩] d (intLat (count s f)) s.kore.eb fun k => moved (opnd s f (.h h.port h.reg) k) :=
  tile_of_vop rfl (latInt_eq _) (fun _ => rfl) fun _ => by
    rw [replicate_eq_map]
    rfl

theorem vslide_result (s : State) (f : VW) (d a : Fin 16) (b : Src 16) (up : Bool) (K : Fin 64) :
    Tile (.vslide f d a b up K) s f True [vreg f a, b.ref f.file] d (intLat (count s f)) s.kore.eb fun i =>
      let n := count s f
      moved (if up then
          (if K.val ≤ i then elem s f a (i - K.val) else if K.val ≤ n + i then opnd s f b (n + i - K.val) else Reg.zero)
        else if i + K.val < n then elem s f a (i + K.val) else if i + K.val < 2 * n then opnd s f b (i + K.val - n) else Reg.zero) := by
  refine tile_of_vop rfl (latInt_eq _) (fun _ => rfl) fun _ => List.map_congr_left fun i hi => congrArg EOut.plain ?_
  have hi : i < count s f := List.mem_range.mp hi
  change slideElem _ _ (count s f) _ _ _ = _
  unfold slideElem
  simp only [opnd_getD]
  cases up with
  | true =>
    simp only [if_true]
    split
    next => exact tile_getD s f a (by omega)
    next => rw [if_pos (show count s f + i - K.val < count s f by omega)]
  | false =>
    simp only [Bool.false_eq_true, if_false]
    split
    next h => exact tile_getD s f a h
    next h => exact ite_congr (propext (by omega)) (fun _ => rfl) fun _ => rfl

theorem vtrn_result (s : State) (f : VW) (d a : Fin 16) : Tile (.vtrn f d a) s f True [vreg f a] d (intLat (count s f)) s.kore.eb fun i =>
    moved (elem s f a (i % s.kore.rows f * s.kore.cols f + i / s.kore.rows f)) := by
  refine tile_of_vop rfl (latInt_eq _) (fun _ => rfl) fun _ => List.map_congr_left fun i hi => congrArg EOut.plain (tile_getD s f a ?_)
  have hi : i < s.kore.rows f * s.kore.cols f := List.mem_range.mp hi
  have hR : 0 < s.kore.rows f := Nat.pos_of_mul_pos_right (Nat.zero_lt_of_lt hi)
  have hq : i / s.kore.rows f < s.kore.cols f := Nat.div_lt_of_lt_mul hi
  have hr := Nat.mod_lt i hR
  calc i % s.kore.rows f * s.kore.cols f + i / s.kore.rows f < (i % s.kore.rows f + 1) * s.kore.cols f := by rw [Nat.add_mul, Nat.one_mul]; omega
    _ ≤ s.kore.rows f * s.kore.cols f := Nat.mul_le_mul_right _ hr

theorem vsnd_set_result (s : State) (f : VW) (d a : Fin 16) (fm : Fmt) (n : Fin 64) :
    Tile (.vsnd f d a true n) s f (s.kore.form.fp = some fm) [vreg f a] d (intLat (count s f)) s.kore.eb fun k =>
      moved ⟨(elem s f a k).val, BitVec.ofNat 6 n.val, (elem s f a k).poi⟩ :=
  tile_of_vop rfl (latInt_eq _) isFp_of_fp fun _ => by
    rw [tile_eq_map, List.map_map]
    rfl

theorem vsnd_result (s : State) (f : VW) (d a : Fin 16) (fm : Fmt) :
    Tile (.vsnd f d a false 0) s f (s.kore.form.fp = some fm) [vreg f a] d (intLat (count s f)) s.kore.eb fun k =>
      raw (fm.ofInt .rne (snd fm (elem s f a k))).1 (elem s f a k).poi :=
  tile_of_vop rfl (latInt_eq _) isFp_of_fp fun hf => by
    rw [vfmt_of_fp hf, tile_eq_map, List.map_map]
    rfl

theorem vzmap_result (s : State) (f : VW) (d : Fin 32) (a : Fin 16) (g : Fin 8) (hc : s.clear f.slot 1 [vreg f a] [⟨⟨.h, d.val⟩, 2⟩]) :
    exec (.vzmap f d a g) s = .next ((s.holding f.slot 1).push ⟨s.now + 2, .reg ⟨.h, d.val⟩
      ⟨(s.kore.vreg f a.val).zf.extractLsb' (64 * g.val) 64, 63, false⟩, 0, none, none, false, 0, none, s.now⟩) := by
  change execVzmap f d a g s = _
  unfold execVzmap
  dsimp only
  rw [State.issue_of_clear hc rfl fun _ => rfl, State.result, State.holding_now]
  rfl

theorem tileMovementResults : TileMovementResults :=
  ⟨vmovi_result, vbcast_result, vslide_result, vtrn_result, vsnd_set_result, vsnd_result, vzmap_result⟩

/-- Settles O13: each syllable issues as one of the V and W map, and its elements are those of its rule. -/
theorem tileSelectionAndMovementResults : Obligations.TileSelectionAndMovementResults := ⟨tileSelectionResults, tileMovementResults⟩

end Sys2Proof.Machine
end

section
/-! SUPPORT. Reductions of tiles along an axis (R112, R113, R140, R433), and `VCVT` as it issues (R424, R425): O14. -/

namespace Sys2Proof.Machine
open Config Spec

/-! ### Lines of a tile -/

/-- The elements of row i / C, from its first one on. -/
theorem drop_take_tile (s : State) (f : VW) (a : Fin 16) {i : Nat} (hi : i < s.kore.rows f * s.kore.cols f) (hc : i % s.kore.cols f = 0) :
    ((s.tile f a.val).drop i).take (s.kore.cols f) = (List.range (s.kore.cols f)).map fun c => elem s f a (i + c) := by
  have hd := Nat.div_add_mod i (s.kore.cols f)
  have hlt : i / s.kore.cols f < s.kore.rows f := Nat.div_lt_of_lt_mul (Nat.mul_comm _ _ ▸ hi)
  have hend : i + s.kore.cols f ≤ s.kore.rows f * s.kore.cols f := by
    calc i + s.kore.cols f = (i / s.kore.cols f + 1) * s.kore.cols f := by rw [Nat.add_mul, Nat.mul_comm]; omega
      _ ≤ _ := Nat.mul_le_mul_right _ hlt
  have hn : count s f = s.kore.rows f * s.kore.cols f := rfl
  rw [tile_eq_map]
  refine List.ext_getElem (by simp [hn]; omega) fun j h1 h2 => ?_
  simp

/-- A column of a tile. -/
theorem column_tile (s : State) (f : VW) (a : Fin 16) {i : Nat} (hi : i < s.kore.cols f) :
    (List.range (s.kore.rows f)).map (fun r => (s.tile f a.val).getD (r * s.kore.cols f + i) Reg.zero)
      = (List.range (s.kore.rows f)).map fun r => elem s f a (r * s.kore.cols f + i) := by
  refine List.map_congr_left fun r hr => tile_getD s f a ?_
  calc r * s.kore.cols f + i < (r + 1) * s.kore.cols f := by rw [Nat.add_mul, Nat.one_mul]; omega
    _ ≤ s.kore.rows f * s.kore.cols f := Nat.mul_le_mul_right _ (List.mem_range.mp hr)

/-- A reduction gives each line's result as its first element, and +0 elsewhere. -/
theorem tile_of_reduce {i : Instr} {s : State} {f : VW} {d a : Fin 16} {cols : Bool} {line : List Reg → FpOut}
    (hexec : exec i s = s.reduce f d a cols line) : Tile i s f True [vreg f a] d (redLat (count s f)) s.kore.eb fun i =>
      let R := s.kore.rows f
      let C := s.kore.cols f
      let l := if cols then (List.range R).map fun r => elem s f a (r * C + i) else (List.range C).map fun c => elem s f a (i + c)
      if (if cols then i < C else i % C = 0) then float s (line l).w (line l).snd (line l).fl (line l).srcs (l.any (·.poi))
      else moved ⟨0, 63, false⟩ := by
  refine tile_of_vop hexec (latRed_eq _) (fun _ => rfl) fun _ => List.map_congr_left fun i hi => ?_
  have hi : i < s.kore.rows f * s.kore.cols f := List.mem_range.mp hi
  cases cols with
  | true =>
    by_cases h : i < s.kore.cols f
    · simp only [if_true, if_pos h, column_tile s f a h, eout_fp_eq]
    · simp only [if_true, if_neg h]
      rfl
  | false =>
    by_cases h : i % s.kore.cols f = 0
    · simp only [if_neg Bool.false_ne_true, if_pos h, drop_take_tile s f a hi h, eout_fp_eq]
    · simp only [if_neg Bool.false_ne_true, if_neg h]
      rfl

theorem reduce_result (s : State) (f : VW) (d a : Fin 16) (cols isMax : Bool) :
    Tile (if isMax then .vmaxr f d a cols else .vsum f d a cols) s f True [vreg f a] d (redLat (count s f)) s.kore.eb fun i =>
      let R := s.kore.rows f
      let C := s.kore.cols f
      let line := if cols then (List.range R).map fun r => elem s f a (r * C + i) else (List.range C).map fun c => elem s f a (i + c)
      if (if cols then i < C else i % C = 0) then
        let o := if isMax then s.maxLine line else sumLine s.kore.form line
        float s o.w o.snd o.fl o.srcs (line.any (·.poi))
      else moved ⟨0, 63, false⟩ := by
  cases isMax with
  | true => exact tile_of_reduce (line := s.maxLine) rfl
  | false => exact tile_of_reduce (line := sumLine s.kore.form) rfl

/-! ### Conversions (R424, R425) -/

theorem length_quantBlock {x : Sx} {es : List Reg} (h : es.length ≤ 32) : (quantBlock x es).length = es.length := by
  unfold quantBlock Sx.decodeBlock
  simpa using h

/-- Quantising keeps the number of elements. -/
theorem length_quantAll (x : Sx) : ∀ (k : Nat) (es : List Reg), es.length ≤ 32 * k → (quantAll x k es).length = es.length
  | 0, es, h => (Nat.le_zero.mp h).symm
  | k + 1, es, h => by
    rw [quantAll, List.length_append, length_quantBlock (List.length_take_le _ _), length_quantAll x k _ (by rw [List.length_drop]; omega),
      ← List.length_append, List.take_append_drop]

theorem zipWith_map_range {α β γ : Type} (g : α → β → γ) {os : List α} {n : Nat} (h : os.length = n) (x : Nat → β) (z : α) :
    List.zipWith g os ((List.range n).map x) = (List.range n).map fun k => g (os.getD k z) (x k) := by
  refine List.ext_getElem (by simp [h]) fun i h1 h2 => ?_
  have hi : i < os.length := by simp at h2; omega
  rw [List.getElem_zipWith, List.getElem_map, List.getElem_map, List.getElem_range, List.getD_eq_getElem _ _ hi]

/-- What `VCVT` makes of the elements x. -/
def converted (src dst : Form) (rm : RM) (sat : Bool) (n : Nat) (x : Nat → Reg) : List FpOut :=
  match (if src.fp = some fmt32 then sxOf dst else none) with
  | some q => quantAll q ((n + 31) / 32) ((List.range n).map x)
  | none => (List.range n).map fun k => cvtElem src dst rm sat (x k)

theorem length_converted (src dst : Form) (rm : RM) (sat : Bool) (n : Nat) (x : Nat → Reg) : (converted src dst rm sat n x).length = n := by
  unfold converted
  split
  next => rw [length_quantAll _ _ _ (by simp; omega), List.length_map, List.length_range]
  next => rw [List.length_map, List.length_range]

theorem exec_vcvt (s : State) (f : VW) (d a : Fin 16) (rm : RM) (sat : Bool) (src : Form) :
    let x (k : Nat) : Reg := (s.kore.vreg f a.val).elem (formBytes src) k
    exec (.vcvt f d a rm sat src) s = s.vop f (cvtOk src s.kore.form rm sat (count s f)) [vreg f a] d (latFp (count s f)) s.kore.eb
      (List.zipWith (fun o x => EOut.fp s.cur.sndthr.toNat o x.poi) (converted src s.kore.form rm sat (count s f) x)
        ((List.range (count s f)).map x)) := by
  intro x
  change execVcvt f d a rm sat src s = _
  unfold execVcvt converted
  have hm : ((List.range (count s f)).map fun k => cvtElem src s.kore.form rm sat (x k))
      = ((List.range (count s f)).map x).map (cvtElem src s.kore.form rm sat) := by rw [List.map_map]; rfl
  rw [hm]
  cases hf : src.fp with
  | none => rfl
  | some g =>
    simp only [Option.some.injEq]
    rfl

theorem vcvt_result (s : State) (f : VW) (d a : Fin 16) (rm : RM) (sat : Bool) (src : Form) :
    let dst := s.kore.form
    let n := count s f
    let x (k : Nat) : Reg := (s.kore.vreg f a.val).elem (formBytes src) k
    let quant : List FpOut := match (if src.fp = some fmt32 then sxOf dst else none) with
      | some q => quantAll q ((n + 31) / 32) ((List.range n).map x)
      | none => (List.range n).map fun k => cvtElem src dst rm sat (x k)
    Tile (.vcvt f d a rm sat src) s f (cvtOk src dst rm sat n = true) [vreg f a] d (fpLat n) s.kore.eb fun k =>
      let o := quant.getD k ⟨0, 0, 0, []⟩
      float s o.w o.snd o.fl o.srcs (x k).poi := by
  intro dst n x quant
  refine tile_of_vop (exec_vcvt s f d a rm sat src) (latFp_eq _) id fun _ => ?_
  rw [zipWith_map_range _ (length_converted ..) _ ⟨0, 0, 0, []⟩]
  simp only [eout_fp_eq]
  rfl

theorem tileReductions : TileReductions := ⟨reduce_result, vcvt_result⟩

/-! ### Sums of lines -/

theorem foldl_add32_w (up : Reg → FV) : ∀ (l : List Reg) (z : FV),
    (l.foldl (fun a y => add32 a (up y)) z).w = l.foldl (fun a y => (fmt32.add .rne a (up y).w).1) z.w
  | [], _ => rfl
  | y :: l, z => foldl_add32_w up l (add32 z (up y))

theorem foldl_add_eq_sum {α : Type} (g : α → Int) : ∀ (l : List α) (n : Int), l.foldl (fun n y => n + g y) n = n + (l.map g).sum
  | [], n => (Int.add_zero n).symm
  | y :: l, n => by rw [List.foldl_cons, foldl_add_eq_sum g l, List.map_cons, List.sum_cons, Int.add_assoc]

theorem sumLine_fp {form : Form} {f : Fmt} (h : form.fp = some f) (x : Reg) (l : List Reg) :
    let wide (y : Reg) : Nat := if f = fmt32 then low f y else (f.cvt fmt32 .rne (low f y)).1
    (sumLine form (x :: l)).w = (fmt32.cvt f .rne (l.foldl (fun a y => (fmt32.add .rne a (wide y)).1) (wide x))).1 := by
  unfold sumLine
  simp only [h]
  rw [foldl_add32_w]
  rfl

theorem sumLine_int {form : Form} (h : form.fp = none) {l : List Reg} (hl : l ≠ []) :
    (sumLine form l).w = form.int.enc ((l.map fun y => form.int.dec y.val.toNat).sum) := by
  cases l with
  | nil => exact absurd rfl hl
  | cons x l =>
    unfold sumLine
    simp only [h]
    rw [foldl_add_eq_sum]
    rfl

/-! ### Maxima of lines -/

/-- The result of a maximum is that of one of the registers, whose number none exceeds. -/
def Top (val : Reg → Nat) (ord : Nat → Int) (w : Nat) (seen : List Reg) : Prop :=
  ∃ z ∈ seen, w = val z ∧ ∀ y ∈ seen, ord (val y) ≤ ord w

/-- The greater of two numbers. -/
def Greater (ord : Nat → Int) (v w r : Nat) : Prop := r = v ∧ ord w ≤ ord v ∨ r = w ∧ ord v ≤ ord w

section
variable {val : Reg → Nat} {ord : Nat → Int}

theorem Top.snoc {v w : Nat} {seen : List Reg} {y : Reg} (h : Top val ord v seen) (hg : Greater ord v (val y) w) : Top val ord w (seen ++ [y]) := by
  obtain ⟨z, hz, rfl, hmax⟩ := h
  rcases hg with ⟨rfl, hle⟩ | ⟨rfl, hle⟩
  · refine ⟨z, by simp [hz], rfl, fun x hx => ?_⟩
    rcases List.mem_append.mp hx with hx | hx
    · exact hmax x hx
    · rwa [List.mem_singleton.mp hx]
  · refine ⟨y, by simp, rfl, fun x hx => ?_⟩
    rcases List.mem_append.mp hx with hx | hx
    · exact (hmax x hx).trans hle
    · rw [List.mem_singleton.mp hx]

theorem top_foldl {step : FpOut → Reg → FpOut} {good : Reg → Prop}
    (hstep : ∀ a x y, good x → good y → a.w = val x → Greater ord a.w (val y) (step a y).w) :
    ∀ (l seen : List Reg) (a : FpOut), (∀ x ∈ seen, good x) →
    (∀ x ∈ l, good x) → Top val ord a.w seen → Top val ord (l.foldl step a).w (seen ++ l)
  | [], seen, a, _, _, h => by rwa [List.append_nil]
  | y :: l, seen, a, hs, hl, h => by
    obtain ⟨z, hz, hw, -⟩ := id h
    obtain ⟨hy, hl⟩ := List.forall_mem_cons.mp hl
    have hs' : ∀ x ∈ seen ++ [y], good x := fun x hx => (List.mem_append.mp hx).elim (hs x) fun hx => List.mem_singleton.mp hx ▸ hy
    have := top_foldl hstep l (seen ++ [y]) (step a y) hs' hl (h.snoc (hstep a z y (hs z hz) hy hw))
    rwa [List.append_assoc] at this

end

/-- The maximum of a line before its second element. -/
def maxStart (s : State) (x : Reg) : FpOut :=
  match s.kore.form.fp with
  | some g => ⟨x.fpBits g, g.carry (x.fpBits g) (x.fpSnd g), 0, [x.fpSnd g]⟩
  | none => ⟨x.val.toNat, 63, 0, []⟩

/-- One more element of a line. -/
def maxStep (s : State) (a : FpOut) (y : Reg) : FpOut :=
  let r := s.pick true ⟨BitVec.ofNat 64 a.w, BitVec.ofNat 6 a.snd, false⟩ y
  ⟨r.w, r.snd, a.fl ||| r.fl, if s.kore.form.isFp then a.srcs ++ [y.fpSnd s.vfmt] else []⟩

theorem maxLine_cons_cons (s : State) (x y : Reg) (l : List Reg) : s.maxLine (x :: y :: l) = (y :: l).foldl (maxStep s) (maxStart s x) := rfl

/-- The maximum of a line, from what it is for one element and what each step takes. -/
theorem top_maxLine {s : State} {val : Reg → Nat} {ord : Nat → Int} {good : Reg → Prop} (hone : ∀ x, good x → (s.maxLine [x]).w = val x)
    (hstart : ∀ x, (maxStart s x).w = val x)
    (hstep : ∀ a x y, good x → good y → a.w = val x → Greater ord a.w (val y) (maxStep s a y).w) {l : List Reg} (hl : l ≠ [])
    (hg : ∀ x ∈ l, good x) : Top val ord (s.maxLine l).w l := by
  match l, hl with
  | [x], _ => exact ⟨x, by simp, hone x (hg x (by simp)), fun y hy => by rw [List.mem_singleton.mp hy, hone x (hg x (by simp))]⟩
  | x :: y :: l, _ =>
    obtain ⟨hx, hl⟩ := List.forall_mem_cons.mp hg
    rw [maxLine_cons_cons]
    exact top_foldl hstep (y :: l) [x] _ (fun z hz => List.mem_singleton.mp hz ▸ hx) hl
      ⟨x, by simp, hstart x, fun z hz => by rw [List.mem_singleton.mp hz, hstart]⟩

theorem fp_mem_formats {form : Form} {f : Fmt} (h : form.fp = some f) : f ∈ formats := by
  cases form <;> cases h <;> decide

theorem low_of_low {form : Form} {f : Fmt} (h : form.fp = some f) (x : Reg) (k : Nat) :
    low f ⟨BitVec.ofNat 64 (low f x), BitVec.ofNat 6 k, false⟩ = low f x := by
  have hw : f.width ≤ 64 := by cases form <;> cases h <;> decide
  have hlt : low f x < 2 ^ 64 := (low_lt f x).trans_le (Nat.pow_le_pow_right (by decide) hw)
  rw [low, BitVec.toNat_ofNat, Nat.mod_eq_of_lt hlt, Nat.mod_eq_of_lt (low_lt f x)]

/-- Of two numbers the maximum is the greater one (R113). -/
theorem greater_minmax (f : Fmt) {a b : Nat} (ha : (f.dec a).isNan = false) (hb : (f.dec b).isNan = false) :
    ∃ first, (f.minmax true a b).1 = some first ∧ Greater f.rank a b (if first then a else b) := by
  have hm : f.minmax true a b = (some (decide (f.key b ≤ f.key a)), 0) := by simp [Fmt.minmax, ha, hb, isSig_of_isNan ha, isSig_of_isNan hb]
  refine ⟨_, by rw [hm], ?_⟩
  by_cases h : f.key b ≤ f.key a
  · rw [if_pos (by simpa using h)]
    exact .inl ⟨rfl, not_lt.mp fun hlt => (key_lt_of_rank_lt hlt).not_ge h⟩
  · rw [if_neg (by simpa using h)]
    exact .inr ⟨rfl, not_lt.mp fun hlt => h (key_lt_of_rank_lt hlt).le⟩

theorem maxStep_fp {s : State} {f : Fmt} (h : s.kore.form.fp = some f) {a : FpOut} {x y : Reg} (hx : (f.dec (low f x)).isNan = false)
    (hy : (f.dec (low f y)).isNan = false) (ha : a.w = low f x) : Greater f.rank a.w (low f y) (maxStep s a y).w := by
  obtain ⟨first, hfirst, hg⟩ := greater_minmax f hx hy
  have hw : (maxStep s a y).w = if first then low f x else low f y := by
    unfold maxStep State.pick
    simp only [h, ha, fpMinmax_eq, low_of_low h, hfirst]
    cases first with
    | true => exact low_of_low h x _
    | false => rfl
  rw [hw, ha]
  exact hg

theorem maxStep_int {s : State} (h : s.kore.form.fp = none) {a : FpOut} {x y : Reg} (ha : a.w = x.val.toNat) :
    Greater s.kore.form.int.dec a.w y.val.toNat (maxStep s a y).w := by
  have hx : (BitVec.ofNat 64 a.w).toNat = a.w := by rw [BitVec.toNat_ofNat, ha, Nat.mod_eq_of_lt x.val.isLt]
  unfold maxStep State.pick Reg.sint
  simp only [h, hx, if_true, decide_eq_true_eq]
  split
  next hle => exact .inl ⟨hx, hle⟩
  next hle => exact .inr ⟨rfl, (not_le.mp hle).le⟩

theorem maxLine_single_fp {s : State} {f : Fmt} (h : s.kore.form.fp = some f) (x : Reg) : s.maxLine [x] = f.maxOne x := by
  unfold State.maxLine
  rw [h]

theorem maxOne_w (f : Fmt) (x : Reg) : (f.maxOne x).w = if (f.dec (low f x)).isNan then f.qnan else low f x := by
  rw [Fmt.maxOne, fpBits_eq_low]
  cases f.dec (low f x) <;> rfl

theorem linesReduce : LinesReduce := by
  refine ⟨fun _ _ x l h => sumLine_fp h x l, fun _ _ h hl => sumLine_int h hl, fun s f l h hl hn => ?_, fun s f x h hn => ?_, fun s l h hl => ?_⟩
  · obtain ⟨z, hz, hw, hmax⟩ := top_maxLine (ord := f.rank) (good := fun y => (f.dec (low f y)).isNan = false)
      (fun x hx => by rw [maxLine_single_fp h, maxOne_w, hx]; rfl) (fun x => by rw [maxStart, h]; rfl) (fun a x y => maxStep_fp h) hl hn
    refine ⟨z, hz, hw, fun y hy => ?_⟩
    rw [compare_eq (fmt_ok (fp_mem_formats h)), hn y hy, hn z hz]
    simpa [hw] using hmax y hy
  · rw [maxLine_single_fp h, maxOne_w, if_pos hn]
  · obtain ⟨z, hz, hw, hmax⟩ := top_maxLine (s := s) (val := fun y => y.val.toNat) (ord := s.kore.form.int.dec) (good := fun _ => True)
      (fun x _ => by unfold State.maxLine; rw [h]) (fun x => by rw [maxStart, h]) (fun a x y _ _ => maxStep_int h) hl (fun _ _ => trivial)
    exact ⟨z, hz, hw, fun y hy => (hmax y hy).trans_eq (congrArg _ hw)⟩

end Sys2Proof.Machine
end

section
/-! SUPPORT. Blocks of split exponents as they are made from FP32 values and read back (R124, R125): O14. -/

namespace Sys2Proof.Machine
open Config Spec

/-! ### Numbers that a format holds exactly -/

section
variable {f : Fmt}

/-- A number of at most p bits above the last place of the format is that of an encoding, if not perhaps of a finite one. -/
theorem exists_mag (hf : f.Ok) : ∀ (t q : Nat), q ≤ 2 ^ f.p → ∃ k, f.mag k = q * 2 ^ (f.ub + t)
  | 0, q, hq => ⟨0 * 2 ^ (f.p - 1) + q, mag_eq hf hq (.inl rfl)⟩
  | t + 1, q, hq => by
    rcases le_or_gt (2 ^ (f.p - 1)) q with h | h
    · exact ⟨_, mag_eq hf hq (.inr h)⟩
    · obtain ⟨k, hk⟩ := exists_mag hf t (2 * q) (by rw [two_pow_p hf]; omega)
      refine ⟨k, hk.trans ?_⟩
      rw [Nat.cast_add_one, ← add_assoc, zpow_add_one₀ two_ne_zero]
      push_cast
      ring

/-- A number that a format holds does not change as it rounds. -/
theorem round_of_mag (hf : f.Ok) {q k : Nat} {E : Int} (hq : 0 < q) (hk : f.mag k = q * 2 ^ E) (hfin : k < f.finLim) (rm : RM) (neg : Bool) :
    (f.round rm neg q E false).1 = f.signBit neg + k := by
  have hX : (0 : ℝ) < q * 2 ^ E := by positivity
  have hmag : (f.mag k : ℝ) = q * 2 ^ E := by rw [hk]; push_cast; rfl
  have habs : |if neg then -((q : ℝ) * 2 ^ E) else q * 2 ^ E| = f.mag k := by
    rw [hmag]
    split
    · rw [abs_neg, abs_of_pos hX]
    · exact abs_of_pos hX
  have hex : IsExact f neg q E false (if neg then -((q : ℝ) * 2 ^ E) else q * 2 ^ E) := by
    refine ⟨hq, ?_, by rw [habs, hmag]; rfl⟩
    cases neg
    · simpa using hX.le
    · simpa using hX
  have hmono := mag_strictMono hf
  rcases round_cases hf hex rm with ⟨hlt, -⟩ | ⟨k', part, hb, -, b, hr⟩ <;> rw [habs] at *
  · have : f.finLim - 1 < k := hmono.lt_iff_lt.mp (by exact_mod_cast hlt)
    omega
  · have h1 : k' ≤ k := hmono.le_iff_le.mp (by exact_mod_cast hb.le)
    have h2 : k < k' + 1 := hmono.lt_iff_lt.mp (by exact_mod_cast hb.lt)
    obtain rfl : k' = k := by omega
    rw [hr, hb.zero.mpr rfl, rounded_zero]

end

theorem ok32 : fmt32.Ok := fmt_ok (by decide)

/-- A product of at most 14 bits and the step of an exponent byte, in FP32. -/
theorem value_round_step {m e q : Nat} (hm : m ≤ 14) (h1 : 1 ≤ e) (h254 : e ≤ 254) (hq0 : 0 < q) (hq : q < 2 ^ m) (neg : Bool) :
    value fmt32 (fmt32.round .rne neg q (e - 127 - m + 1) false).1 = some (signedQ neg (q * 2 ^ ((e : Int) - 127 - m + 1))) := by
  have hpow : 2 ^ m ≤ 2 ^ 14 := Nat.pow_le_pow_right (by decide) hm
  obtain ⟨k, hk⟩ := exists_mag ok32 ((e : Int) - 127 - m + 1 + 149).toNat q (hq.le.trans (hpow.trans (by decide)))
  have hexp : fmt32.ub + (((e : Int) - 127 - m + 1 + 149).toNat : Nat) = (e : Int) - 127 - m + 1 := by
    have : fmt32.ub = -149 := by decide
    omega
  rw [hexp] at hk
  have hfin : k < fmt32.finLim := by
    have hmax : fmt32.mag k ≤ fmt32.mag (fmt32.finLim - 1) :=
      calc fmt32.mag k = q * 2 ^ ((e : Int) - 127 - m + 1) := hk
        _ ≤ (2 ^ m - 1) * 2 ^ ((128 : Int) - m) := by
          have : (q : ℚ) + 1 ≤ 2 ^ m := by exact_mod_cast hq
          exact mul_le_mul (by linarith) (zpow_le_zpow_right₀ one_le_two (by omega)) (by positivity) (by linarith [q.cast_nonneg (α := ℚ)])
        _ = 2 ^ (128 : Int) - 2 ^ ((128 : Int) - m) := by
          rw [sub_mul, one_mul, ← zpow_natCast, ← zpow_add₀ two_ne_zero, add_sub_cancel]
        _ ≤ 2 ^ (128 : Int) - 2 ^ (104 : Int) := sub_le_sub_left (zpow_le_zpow_right₀ one_le_two (by omega)) _
        _ = fmt32.mag (fmt32.finLim - 1) := by
          rw [mag_max ok32]
          norm_num [fmt32, Fmt.bias]
    have := (mag_strictMono ok32).le_iff_le.mp hmax
    have : 0 < fmt32.finLim := by decide
    omega
  rw [round_of_mag ok32 hq0 hk hfin, value_encoding ok32 neg hfin, hk]

/-! ### The code of one element -/

theorem nearestEven_unique {x : ℚ} {q q' : Nat} (h : NearestEven x q) (h' : NearestEven x q') : q = q' := by
  obtain ⟨hd, he⟩ := h
  obtain ⟨hd', he'⟩ := h'
  rw [abs_le] at hd hd'
  have h1 : (q : ℚ) ≤ q' + 1 := by linarith
  have h2 : (q' : ℚ) ≤ q + 1 := by linarith
  have h1 : q ≤ q' + 1 := by exact_mod_cast h1
  have h2 : q' ≤ q + 1 := by exact_mod_cast h2
  by_contra hne
  obtain rfl | rfl : q = q' + 1 ∨ q' = q + 1 := by omega
  · push_cast at *
    have e1 : |(q' : ℚ) + 1 - x| = 1 / 2 := by rw [abs_of_nonneg] <;> linarith
    have e2 : |(q' : ℚ) - x| = 1 / 2 := by rw [abs_of_nonpos] <;> linarith
    have := he e1
    have := he' e2
    omega
  · push_cast at *
    have e1 : |(q : ℚ) + 1 - x| = 1 / 2 := by rw [abs_of_nonneg] <;> linarith
    have e2 : |(q : ℚ) - x| = 1 / 2 := by rw [abs_of_nonpos] <;> linarith
    have := he' e1
    have := he e2
    omega

theorem splitAt_sub (m : Nat) (e u : Int) (st : Bool) : splitAt m e u st = splitAt m (e - u) 0 st := by
  unfold splitAt
  simp only [sub_nonneg, sub_zero, zero_sub, neg_sub]

/-- A step of R125 finds the nearest multiple of 2^k. -/
theorem quantStep_nearest {w : Nat} {z : ℚ} (h : value fmt32 w = some z) (k : Int) : NearestEven (|z| / 2 ^ k) (quantStep w k).1 := by
  obtain ⟨n, m, e, hd, hz⟩ := dec_of_value h
  have hX : (0 : ℚ) ≤ m * 2 ^ e := by positivity
  have habs : |z| / 2 ^ k = m * 2 ^ (e - k) := by
    rw [hz, zpow_sub₀ two_ne_zero, ← mul_div_assoc]
    congr 1
    split
    · rw [abs_neg, abs_of_nonneg hX]
    · exact abs_of_nonneg hX
  unfold quantStep
  rw [hd, habs]
  dsimp only
  rw [splitAt_sub]
  exact (splits_splitAt m (e - k)).nearest false

/-- A code of R123: sign, choice of the exponent and magnitude. -/
def sxCode (m : Nat) (neg second : Bool) (q : Nat) : Nat := (if neg then 2 ^ (m + 1) else 0) + (if second then 2 ^ m else 0) + q

theorem sxCode_lt {m q : Nat} (neg second : Bool) (hq : q < 2 ^ m) : sxCode m neg second q < 2 ^ (m + 2) := by
  unfold sxCode
  rw [pow_succ, pow_succ]
  cases neg <;> cases second <;> simp only [Bool.false_eq_true, if_true, if_false] <;> omega

theorem sxCode_fields {m q : Nat} (neg second : Bool) (hq : q < 2 ^ m) : sxCode m neg second q % 2 ^ m = q
    ∧ sxCode m neg second q / 2 ^ m % 2 = (if second then 1 else 0) ∧ (sxCode m neg second q / 2 ^ (m + 1) % 2 == 1) = neg := by
  have hP := Nat.two_pow_pos m
  have hcode : sxCode m neg second q = 2 ^ m * ((if neg then 2 else 0) + (if second then 1 else 0)) + q := by
    unfold sxCode
    cases neg <;> cases second <;> simp only [pow_succ, if_true, if_false, Bool.false_eq_true] <;> omega
  have hdiv : sxCode m neg second q / 2 ^ m = (if neg then 2 else 0) + (if second then 1 else 0) := by
    rw [hcode, Nat.mul_add_div hP, Nat.div_eq_of_lt hq, Nat.add_zero]
  rw [pow_succ, ← Nat.div_div_eq_div_mul, hdiv, hcode, Nat.mul_add_mod, Nat.mod_eq_of_lt hq]
  cases neg <;> cases second <;> exact ⟨rfl, rfl, rfl⟩

/-- The magnitude a that R125 gives to u: the nearest multiple of the first step that has m bits, else of the second step; one beyond both
saturates. -/
def NearestStep (m : Nat) (lo hi u a : ℚ) : Prop :=
  (∃ q < 2 ^ m, NearestEven (u / lo) q ∧ a = q * lo)
  ∨ ((∀ q < 2 ^ m, ¬NearestEven (u / lo) q)
    ∧ ((∃ q < 2 ^ m, NearestEven (u / hi) q ∧ a = q * hi) ∨ ((∀ q < 2 ^ m, ¬NearestEven (u / hi) q) ∧ a = (2 ^ m - 1) * hi)))

theorem not_nearestEven_of_le {x : ℚ} {q n : Nat} (h : NearestEven x q) (hq : n ≤ q) : ∀ q' < n, ¬NearestEven x q' :=
  fun _ hlt h' => absurd (nearestEven_unique h h') (by omega)

/-- The step that an exponent byte gives (R124). -/
def sxStep (m e : Nat) : ℚ := 2 ^ ((e : Int) - 127 - m + 1)

/-- The code of an element holds the magnitude that R125 names, and the sign of the element unless it is 0. -/
theorem quantElem_spec (x : Sx) (e0 e1 : Nat) {w : Nat} {z : ℚ} (h : value fmt32 w = some z) : ∃ neg second q, q < 2 ^ x.m
    ∧ (x.quantElem e0 e1 w).1 = sxCode x.m neg second q ∧ (q ≠ 0 → neg = fmt32.neg w)
    ∧ NearestStep x.m (sxStep x.m e0) (sxStep x.m e1) |z| (q * sxStep x.m (if second then e1 else e0)) := by
  have hlo := quantStep_nearest h ((e0 : Int) - 127 - x.m + 1)
  have hhi := quantStep_nearest h ((e1 : Int) - 127 - x.m + 1)
  have hP := Nat.two_pow_pos x.m
  have hneg : (if w / 2 ^ 31 % 2 = 1 then 2 ^ (x.m + 1) else 0) = if fmt32.neg w then 2 ^ (x.m + 1) else 0 := by
    simp only [Fmt.neg, beq_iff_eq]
    rfl
  unfold Sx.quantElem
  rw [hneg]
  dsimp only
  set ql := (quantStep w ((e0 : Int) - 127 - x.m + 1)).1
  set qh := (quantStep w ((e1 : Int) - 127 - x.m + 1)).1
  by_cases hl : ql < 2 ^ x.m
  · have hstep : NearestStep x.m (sxStep x.m e0) (sxStep x.m e1) |z| (ql * sxStep x.m e0) := .inl ⟨ql, hl, hlo, rfl⟩
    rw [if_pos hl]
    by_cases h0 : ql = 0
    · exact ⟨false, false, ql, hl, by simp [h0, sxCode], fun hne => absurd h0 hne, hstep⟩
    · exact ⟨fmt32.neg w, false, ql, hl, by simp [h0, sxCode], fun _ => rfl, hstep⟩
  · have hnone := not_nearestEven_of_le hlo (not_lt.mp hl)
    rw [if_neg hl]
    by_cases hh : 2 ^ x.m ≤ qh
    · have hstep : NearestStep x.m (sxStep x.m e0) (sxStep x.m e1) |z| ((2 ^ x.m - 1 : Nat) * sxStep x.m e1) :=
        .inr ⟨hnone, .inr ⟨not_nearestEven_of_le hhi hh, by rw [Nat.cast_sub hP]; push_cast; rfl⟩⟩
      rw [if_pos hh]
      exact ⟨fmt32.neg w, true, 2 ^ x.m - 1, by omega, rfl, fun _ => rfl, hstep⟩
    · have hstep : NearestStep x.m (sxStep x.m e0) (sxStep x.m e1) |z| (qh * sxStep x.m e1) :=
        .inr ⟨hnone, .inl ⟨qh, not_le.mp hh, hhi, rfl⟩⟩
      rw [if_neg hh]
      by_cases h0 : qh = 0
      · exact ⟨false, false, 0, hP, by simp [h0, sxCode], fun hne => absurd rfl hne, by simpa [h0] using hstep⟩
      · exact ⟨fmt32.neg w, true, qh, not_le.mp hh, by simp [h0, sxCode], fun _ => rfl, hstep⟩

/-! ### Reading a block back -/

/-- The codes of a block, lowest first. -/
def packed (w : Nat) (l : List Nat) : Nat := l.foldr (fun c a => c + 2 ^ w * a) 0

theorem packed_digit (w : Nat) : ∀ (l : List Nat) (i : Nat), (∀ c ∈ l, c < 2 ^ w) → packed w l / 2 ^ (i * w) % 2 ^ w = l.getD i 0
  | [], i, _ => by simp [packed]
  | c :: l, 0, h => by
    change (c + 2 ^ w * packed w l) / 2 ^ (0 * w) % 2 ^ w = c
    rw [Nat.zero_mul, pow_zero, Nat.div_one, Nat.add_mul_mod_self_left, Nat.mod_eq_of_lt (h c (by simp))]
  | c :: l, i + 1, h => by
    change (c + 2 ^ w * packed w l) / 2 ^ ((i + 1) * w) % 2 ^ w = l.getD i 0
    have hdiv : (c + 2 ^ w * packed w l) / 2 ^ w = packed w l := by
      rw [Nat.add_mul_div_left _ _ (Nat.two_pow_pos w), Nat.div_eq_of_lt (h c (by simp)), Nat.zero_add]
    rw [Nat.add_mul, Nat.one_mul, Nat.add_comm (i * w), pow_add, ← Nat.div_div_eq_div_mul, hdiv, packed_digit w l i fun c hc => h c (by simp [hc])]

theorem packed_lt (w : Nat) : ∀ l : List Nat, (∀ c ∈ l, c < 2 ^ w) → packed w l < 2 ^ (l.length * w)
  | [], _ => by simp [packed]
  | c :: l, h => by
    have hc := h c (by simp)
    have hl := packed_lt w l fun c hc => h c (by simp [hc])
    change c + 2 ^ w * packed w l < 2 ^ ((l.length + 1) * w)
    rw [Nat.add_mul, Nat.one_mul, Nat.add_comm (l.length * w), pow_add]
    calc c + 2 ^ w * packed w l < 2 ^ w * (packed w l + 1) := by rw [Nat.mul_add]; omega
      _ ≤ _ := Nat.mul_le_mul_left _ hl

/-- The number that a code stands for (R124). -/
theorem value_decode {x : Sx} (hm : x.m ≤ 14) {e0 e1 area i q : Nat} {neg second : Bool} (h0 : 1 ≤ e0 ∧ e0 ≤ 254)
    (h1 : 1 ≤ e1 ∧ e1 ≤ 254) (hq : q < 2 ^ x.m) (hc : area / 2 ^ (i * x.w) % 2 ^ x.w = sxCode x.m neg second q) :
    value fmt32 (x.decode e0 e1 area i) = some (signedQ neg (q * sxStep x.m (if second then e1 else e0))) := by
  obtain ⟨hfq, hfs, hfn⟩ := sxCode_fields neg second hq
  unfold Sx.decode
  rw [if_neg (by omega), if_neg (by omega), hc]
  dsimp only
  rw [hfq, hfs, hfn]
  have he : 1 ≤ (if second then e1 else e0) ∧ (if second then e1 else e0) ≤ 254 := by split <;> assumption
  have hsel : (if (if second = true then 1 else 0) = 1 then e1 else e0) = if second then e1 else e0 := by cases second <;> rfl
  rw [hsel]
  split
  next hz =>
    have := value_encoding ok32 neg (k := 0) (by decide)
    rw [Nat.add_zero, mag_zero] at this
    rw [this, hz, Nat.cast_zero, zero_mul]
  next hz => exact value_round_step hm he.1 he.2 (Nat.pos_of_ne_zero hz) hq neg

/-! ### The exponents of a block -/

/-- Flushed values are zeros or normal (R125). -/
theorem abs_flush32 {y : Nat} (h : fmt32.abs (flush32 y).1 ≠ 0) : 2 ^ 23 ≤ fmt32.abs (flush32 y).1 := by
  have habs : ∀ w, fmt32.abs w = w % 2 ^ 31 := fun _ => rfl
  rw [habs] at h ⊢
  unfold flush32 at h ⊢
  by_cases hc : y / 2 ^ 23 % 256 = 0 ∧ y % 2 ^ 23 ≠ 0
  · rw [if_pos hc] at h
    dsimp only at h
    omega
  · rw [if_neg hc] at h ⊢
    dsimp only at h ⊢
    omega

theorem foldl_max_spec {α : Type} (g : α → Nat) : ∀ (l : List α) (a : Nat), let r := l.foldl (fun a x => Nat.max a (g x)) a
    a ≤ r ∧ (∀ x ∈ l, g x ≤ r) ∧ (r = a ∨ ∃ x ∈ l, r = g x)
  | [], a => ⟨le_rfl, by simp, .inl rfl⟩
  | x :: l, a => by
    obtain ⟨h1, h2, h3⟩ := foldl_max_spec g l (Nat.max a (g x))
    obtain ⟨ha, hx⟩ := max_le_iff.mp h1
    refine ⟨ha, List.forall_mem_cons.mpr ⟨hx, h2⟩, ?_⟩
    rcases h3 with h3 | ⟨y, hy, h3⟩
    · rcases max_choice a (g x) with h | h
      · exact .inl (h3.trans h)
      · exact .inr ⟨x, by simp, h3.trans h⟩
    · exact .inr ⟨y, by simp [hy], h3⟩

/-- The greatest of the magnitudes of a list of encodings. -/
def maxAbs (ws : List Nat) : Nat := ws.foldl (fun a w => Nat.max a (fmt32.abs w)) 0

theorem abs_value {w : Nat} {z : ℚ} (h : value fmt32 w = some z) : |z| = fmt32.mag (fmt32.abs w) := by
  rw [(value_eq_some ok32 h).2, abs_signedQ, abs_of_nonneg (mag_nonneg _ _)]

/-- The magnitude of the greatest is the greatest magnitude. -/
theorem mag_maxAbs {ws : List Nat} {zs : List ℚ} {top : ℚ} (hv : ws.map (value fmt32) = zs.map some) (hin : ∃ z ∈ zs, top = |z|)
    (hmax : ∀ z ∈ zs, |z| ≤ top) : fmt32.mag (maxAbs ws) = top := by
  obtain ⟨-, hle, hex⟩ := foldl_max_spec fmt32.abs ws 0
  obtain ⟨z, hz, rfl⟩ := hin
  refine le_antisymm ?_ ?_
  · rcases hex with h | ⟨w, hw, h⟩
    · rw [maxAbs, h, mag_zero]
      exact abs_nonneg z
    · have hmem : value fmt32 w ∈ zs.map some := hv ▸ List.mem_map_of_mem hw
      obtain ⟨z', hz', h'⟩ := List.mem_map.mp hmem
      rw [maxAbs, h, ← abs_value h'.symm]
      exact hmax z' hz'
  · have hmem : some z ∈ ws.map (value fmt32) := hv ▸ List.mem_map_of_mem hz
    obtain ⟨w, hw, h⟩ := List.mem_map.mp hmem
    rw [abs_value h]
    exact (mag_strictMono ok32).monotone (hle w hw)

/-- The exponent of a normal magnitude, and what bounds it. -/
theorem expo_spec {k : Nat} (hlo : 2 ^ 23 ≤ k) (hhi : k < fmt32.finLim) : let E := (fmt32.dec k).expo
    (2 : ℚ) ^ E ≤ fmt32.mag k ∧ fmt32.mag k < (2 : ℚ) ^ (E + 1) ∧ -126 ≤ E ∧ E ≤ 127 := by
  have hk : fmt32.abs k = k := Nat.mod_eq_of_lt (hhi.trans (by decide))
  obtain ⟨m, e, hd, hm⟩ := dec_of_lt_finLim ok32 (hk.symm ▸ hhi)
  rw [hk] at hm
  have hmono := mag_strictMono ok32
  have hmin : (2 : ℚ) ^ (-126 : Int) ≤ fmt32.mag k := by
    have := mag_eq ok32 (t := 0) (q := 2 ^ 23) (by decide) (.inl rfl)
    calc (2 : ℚ) ^ (-126 : Int) = fmt32.mag (2 ^ 23) := by
          rw [Nat.zero_mul, Nat.zero_add] at this
          rw [this, show fmt32.ub + (0 : Nat) = -149 by decide]
          norm_num
      _ ≤ _ := hmono.monotone hlo
  have hmax : fmt32.mag k < (2 : ℚ) ^ (128 : Int) :=
    calc fmt32.mag k ≤ fmt32.mag (fmt32.finLim - 1) := hmono.monotone (by omega)
      _ < _ := by
        rw [mag_max ok32]
        norm_num [fmt32, Fmt.bias]
  have hm0 : m ≠ 0 := by
    rintro rfl
    rw [Nat.cast_zero, zero_mul] at hm
    linarith [zpow_pos (two_pos (α := ℚ)) (-126)]
  have hbits : 1 ≤ bitLen m := by
    rw [bitLen, if_neg hm0]
    omega
  have h1 : (2 : ℚ) ^ (bitLen m - 1 : Nat) ≤ m := by exact_mod_cast two_pow_le_of_bitLen hm0
  have h2 : (m : ℚ) < 2 ^ bitLen m := by exact_mod_cast lt_two_pow_bitLen m
  have hpos : (0 : ℚ) < 2 ^ e := by positivity
  rw [hd]
  change (2 : ℚ) ^ (e + bitLen m - 1) ≤ _ ∧ _ < (2 : ℚ) ^ (e + bitLen m - 1 + 1) ∧ -126 ≤ e + bitLen m - 1 ∧ e + bitLen m - 1 ≤ 127
  have hL : (2 : ℚ) ^ (e + bitLen m - 1) ≤ fmt32.mag k := by
    rw [show e + bitLen m - 1 = ((bitLen m - 1 : Nat) : Int) + e by omega, zpow_add₀ two_ne_zero, zpow_natCast, ← hm]
    exact mul_le_mul_of_nonneg_right h1 hpos.le
  have hU : fmt32.mag k < (2 : ℚ) ^ (e + bitLen m - 1 + 1) := by
    rw [sub_add_cancel, add_comm, zpow_add₀ two_ne_zero, zpow_natCast, ← hm]
    exact mul_lt_mul_of_pos_right h2 hpos
  have hElo := (zpow_lt_zpow_iff_right₀ one_lt_two).mp (hmin.trans_lt hU)
  have hEhi := (zpow_lt_zpow_iff_right₀ one_lt_two).mp (hL.trans_lt hmax)
  exact ⟨hL, hU, by omega, by omega⟩

/-! ### A block of finite values -/

/-- The values of a block, subnormal ones flushed to zero. -/
def flushed (ys : List Nat) : List Nat := ys.map fun y => (flush32 y).1

/-- The exponent byte of the greatest magnitude. -/
def topByte (ys : List Nat) : Nat := clampE ((fmt32.dec (maxAbs (flushed ys))).expo + 127)

/-- The exponent byte m lower. -/
def lowByte (x : Sx) (ys : List Nat) : Nat := clampE ((fmt32.dec (maxAbs (flushed ys))).expo - x.m + 127)

/-- The codes of a block. -/
def sxCodes (x : Sx) (ys : List Nat) : List Nat := (flushed ys).map fun w => (x.quantElem (lowByte x ys) (topByte ys) w).1

theorem quantise_eq (x : Sx) {ys : List Nat} (hfin : ∀ w ∈ flushed ys, (fmt32.dec w).isFin = true) (hmax : maxAbs (flushed ys) ≠ 0) :
    (x.quantise ys).1 = BitVec.ofNat 8 (lowByte x ys) :: BitVec.ofNat 8 (topByte ys) :: natBytes (x.bytes - 2) (packed x.w (sxCodes x ys)) := by
  have hbad : (flushed ys).any (fun w => !((fmt32.dec w).isFin)) = false := by
    rw [List.any_eq_false]
    exact fun w hw => by simp [hfin w hw]
  have hfl : (ys.map flush32).map (·.1) = flushed ys := List.map_map
  unfold maxAbs at hmax
  unfold Sx.quantise
  dsimp only
  rw [hfl, hbad, if_neg Bool.false_ne_true, if_neg hmax]
  unfold sxCodes packed
  rw [List.foldr_map, List.foldr_map]
  rfl

section
variable {ys : List Nat} {zs : List ℚ} {top : ℚ}

theorem isFin_of_values (hv : (flushed ys).map (value fmt32) = zs.map some) : ∀ w ∈ flushed ys, (fmt32.dec w).isFin = true := by
  intro w hw
  have hmem : value fmt32 w ∈ zs.map some := hv ▸ List.mem_map_of_mem hw
  obtain ⟨z, -, hz⟩ := List.mem_map.mp hmem
  obtain ⟨n, m, e, hd, -⟩ := dec_of_value hz.symm
  rw [hd]
  rfl

/-- The greatest magnitude of a block with a non-zero number is normal. -/
theorem maxAbs_bounds (hv : (flushed ys).map (value fmt32) = zs.map some) (hne : maxAbs (flushed ys) ≠ 0) :
    2 ^ 23 ≤ maxAbs (flushed ys) ∧ maxAbs (flushed ys) < fmt32.finLim := by
  obtain ⟨-, -, hex⟩ := foldl_max_spec fmt32.abs (flushed ys) 0
  obtain ⟨w, hw, h⟩ := hex.resolve_left hne
  have hmem : value fmt32 w ∈ zs.map some := hv ▸ List.mem_map_of_mem hw
  obtain ⟨z, -, hz⟩ := List.mem_map.mp hmem
  obtain ⟨y, -, rfl⟩ := List.mem_map.mp hw
  change maxAbs (flushed ys) = _ at h
  rw [h] at hne ⊢
  exact ⟨abs_flush32 hne, (value_eq_some ok32 hz.symm).1⟩

/-- The exponent bytes of a block whose greatest magnitude is `top`. -/
theorem bytes_spec (x : Sx) (hv : (flushed ys).map (value fmt32) = zs.map some) (hin : ∃ z ∈ zs, top = |z|) (hmax : ∀ z ∈ zs, |z| ≤ top)
    (hpos : 0 < top) : maxAbs (flushed ys) ≠ 0 ∧ (2 : ℚ) ^ ((topByte ys : Int) - 127) ≤ top ∧ top < (2 : ℚ) ^ ((topByte ys : Int) - 126)
      ∧ lowByte x ys = max 1 (topByte ys - x.m) ∧ 1 ≤ topByte ys ∧ topByte ys ≤ 254 := by
  have hmag := mag_maxAbs hv hin hmax
  have hne : maxAbs (flushed ys) ≠ 0 := by
    intro h
    rw [h, mag_zero] at hmag
    exact hpos.ne hmag
  obtain ⟨hlo, hhi⟩ := maxAbs_bounds hv hne
  obtain ⟨h1, h2, h3, h4⟩ := expo_spec hlo hhi
  rw [hmag] at h1 h2
  unfold topByte lowByte
  generalize (fmt32.dec (maxAbs (flushed ys))).expo = E at *
  have htop : (clampE (E + 127) : Int) = E + 127 := by
    unfold clampE
    split_ifs <;> omega
  refine ⟨hne, ?_, ?_, ?_, by omega, by omega⟩
  · rwa [htop, add_sub_cancel_right]
  · rw [htop, add_sub_assoc]
    exact h2
  · have : clampE (E - x.m + 127) = max 1 ((E + 127).toNat - x.m) := by
      unfold clampE
      split_ifs <;> omega
    omega

/-- Element i of a quantised block. -/
theorem element_spec {x : Sx} (hw : x.w = x.m + 2) (hm : x.m ≤ 14) (hn : x.bytes - 2 = 4 * x.w) (hlen : ys.length = 32)
    (hv : (flushed ys).map (value fmt32) = zs.map some) {e0 e1 : Nat} (h0 : 1 ≤ e0 ∧ e0 ≤ 254) (h1 : 1 ≤ e1 ∧ e1 ≤ 254) {codes : List Nat}
    (hcodes : codes = (flushed ys).map fun w => (x.quantElem e0 e1 w).1) {i : Nat} (hi : i < 32) :
    ∃ v, value fmt32 (x.decode e0 e1 (leNat (natBytes (x.bytes - 2) (packed x.w codes))) i) = some v ∧ 0 ≤ v * zs.getD i 0
      ∧ NearestStep x.m (sxStep x.m e0) (sxStep x.m e1) |zs.getD i 0| |v| := by
  have hfl : (flushed ys).length = 32 := by rw [flushed, List.length_map, hlen]
  have hzl : zs.length = 32 := by
    have := congrArg List.length hv
    rw [List.length_map, List.length_map] at this
    omega
  have hval : ∀ w ∈ flushed ys, ∃ z, value fmt32 w = some z := fun w hw => by
    have hmem : value fmt32 w ∈ zs.map some := hv ▸ List.mem_map_of_mem hw
    obtain ⟨z, -, hz⟩ := List.mem_map.mp hmem
    exact ⟨z, hz.symm⟩
  have hlt : ∀ c ∈ codes, c < 2 ^ x.w := by
    intro c hc
    rw [hcodes] at hc
    obtain ⟨w, hmem, rfl⟩ := List.mem_map.mp hc
    obtain ⟨z, hz⟩ := hval w hmem
    obtain ⟨neg, second, q, hq, hcode, -⟩ := quantElem_spec x e0 e1 hz
    rw [hcode, hw]
    exact sxCode_lt neg second hq
  have hcl : codes.length = 32 := by rw [hcodes, List.length_map, hfl]
  have harea : leNat (natBytes (x.bytes - 2) (packed x.w codes)) = packed x.w codes := by
    have := packed_lt x.w codes hlt
    rw [hcl] at this
    rw [leNat_natBytes, Nat.mod_eq_of_lt]
    rw [hn, show (256 : Nat) = 2 ^ 8 from rfl, ← pow_mul]
    exact this.trans_eq (by ring)
  have hzi : value fmt32 ((flushed ys)[i]'(by omega)) = some (zs.getD i 0) := by
    have := List.getElem_of_eq hv (i := i) (by rw [List.length_map]; omega)
    rw [List.getElem_map, List.getElem_map] at this
    rw [this, List.getD_eq_getElem]
  obtain ⟨neg, second, q, hq, hcode, hneg, hstep⟩ := quantElem_spec x e0 e1 hzi
  have hdigit : leNat (natBytes (x.bytes - 2) (packed x.w codes)) / 2 ^ (i * x.w) % 2 ^ x.w = sxCode x.m neg second q := by
    rw [harea, packed_digit x.w codes i hlt, List.getD_eq_getElem _ _ (by omega), ← hcode]
    simp only [hcodes, List.getElem_map]
  have hs : 0 ≤ (q : ℚ) * sxStep x.m (if second then e1 else e0) := mul_nonneg q.cast_nonneg (zpow_nonneg two_pos.le _)
  refine ⟨_, value_decode hm h0 h1 hq hdigit, ?_, ?_⟩
  · by_cases hq0 : q = 0
    · rw [hq0, Nat.cast_zero, zero_mul, signedQ]
      simp
    · rw [(value_eq_some ok32 hzi).2, hneg hq0]
      have := mul_nonneg hs (mag_nonneg fmt32 (fmt32.abs (flushed ys)[i]))
      unfold signedQ
      split
      · rwa [neg_mul_neg]
      · exact this
  · rw [abs_signedQ, abs_of_nonneg hs]
    exact hstep

end

theorem quantises_block {x : Sx} (hw : x.w = x.m + 2) (hm : x.m ≤ 14) (hn : x.bytes - 2 = 4 * x.w) {ys : List Nat} {zs : List ℚ} {top : ℚ}
    (hlen : ys.length = 32) (hv : (flushed ys).map (value fmt32) = zs.map some) (hin : ∃ z ∈ zs, top = |z|) (hmax : ∀ z ∈ zs, |z| ≤ top)
    (hpos : 0 < top) : let b := (x.quantise ys).1
    let e0 := (b.getD 0 0).toNat
    let e1 := (b.getD 1 0).toNat
    (2 : ℚ) ^ ((e1 : Int) - 127) ≤ top ∧ top < (2 : ℚ) ^ ((e1 : Int) - 126) ∧ e0 = max 1 (e1 - x.m)
    ∧ ∀ i < 32, ∃ v, value fmt32 ((x.decodeBlock b).1.getD i 0) = some v ∧ 0 ≤ v * zs.getD i 0
      ∧ NearestStep x.m (sxStep x.m e0) (sxStep x.m e1) |zs.getD i 0| |v| := by
  obtain ⟨hne, h1, h2, h3, h4, h5⟩ := bytes_spec x hv hin hmax hpos
  have hl : 1 ≤ lowByte x ys ∧ lowByte x ys ≤ 254 := by omega
  have hb0 : (BitVec.ofNat 8 (lowByte x ys)).toNat = lowByte x ys := by
    rw [BitVec.toNat_ofNat, Nat.mod_eq_of_lt (by omega)]
  have hb1 : (BitVec.ofNat 8 (topByte ys)).toNat = topByte ys := by
    rw [BitVec.toNat_ofNat, Nat.mod_eq_of_lt (by omega)]
  rw [quantise_eq x (isFin_of_values hv) hne]
  unfold Sx.decodeBlock
  simp only [List.getD_cons_zero, List.getD_cons_succ, List.drop_succ_cons, List.drop_zero, hb0, hb1]
  refine ⟨h1, h2, h3, fun i hi => ?_⟩
  rw [List.getD_eq_getElem _ _ (by simpa using hi), List.getElem_map, List.getElem_range]
  exact element_spec hw hm hn hlen hv hl ⟨h4, h5⟩ rfl hi

/-! ### Blocks of 32 -/

theorem quantAll_one (x : Sx) (es : List Reg) : quantAll x 1 es = quantBlock x (es.take 32) := List.append_nil _

theorem quantBlock_w (x : Sx) (es : List Reg) : (quantBlock x es).map (·.w) =
    (x.decodeBlock (x.quantise (es.map (·.val.toNat) ++ List.replicate (32 - es.length) 0)).1).1.take es.length := by
  unfold quantBlock
  rw [List.map_zipWith]
  generalize (x.decodeBlock _).1 = ws
  induction es generalizing ws with
  | nil => rfl
  | cons e es ih =>
    cases ws with
    | nil => rfl
    | cons w ws => exact congrArg (w :: ·) (ih ws)

theorem quantisesToNearest : QuantisesToNearest := by
  refine ⟨fun x hx ys zs top hlen _ hv hin hmax hpos => ?_, fun x n es => ⟨?_, fun h => ?_⟩⟩
  · have hv : (flushed ys).map (value fmt32) = zs.map some := List.map_map.trans hv
    obtain ⟨hw, hm, hn⟩ : x.w = x.m + 2 ∧ x.m ≤ 14 ∧ x.bytes - 2 = 4 * x.w := by
      simp only [List.mem_cons, List.not_mem_nil, or_false] at hx
      rcases hx with rfl | rfl | rfl <;> decide
    exact quantises_block hw hm hn hlen hv hin hmax hpos
  · rw [quantAll_one, List.take_take]
    rfl
  · rw [quantAll_one, List.take_of_length_le h, quantBlock_w]

/-- Settles O14: reductions and conversions are element lists of one issue, maxima and sums are folds of a line, and a block's codes are read back
as what its elements were quantised to. -/
theorem tileReductionsAndConversions : Obligations.TileReductionsAndConversions := ⟨tileReductions, linesReduce, quantisesToNearest⟩

end Sys2Proof.Machine
end

section
/-! SUPPORT. Ebb reads and merge-adds in their perform cycles (R131 to R133, R199, R364): O35. -/

namespace Sys2Proof.Machine
open Config Spec

/-! ### Sums are encodings -/

section
variable {f : Fmt}

theorem signBit_lt (hf : f.Ok) (neg : Bool) : f.signBit neg < 2 ^ f.width := (encoding_parts hf neg (Nat.two_pow_pos _)).2.2

theorem qnan_lt (hf : f.Ok) : f.qnan < 2 ^ f.width := by
  have hp := hf.two_le
  have h1 : 2 ^ (f.p - 2) < 2 ^ (f.p - 1) := Nat.pow_lt_pow_right (by decide) (by omega)
  have h2 : f.eMax + 1 = 2 ^ f.eb := Nat.sub_add_cancel Nat.one_le_two_pow
  calc f.qnan < (f.eMax + 1) * 2 ^ (f.p - 1) := by unfold Fmt.qnan; rw [Nat.add_mul]; omega
    _ = 2 ^ (f.width - 1) := by rw [h2, width_eq hf, pow_add, Nat.mul_comm]
    _ ≤ _ := Nat.pow_le_pow_right (by decide) (Nat.sub_le _ _)

theorem inf_lt (hf : f.Ok) (neg : Bool) : f.inf neg < 2 ^ f.width := (encoding_parts hf neg (finLim_lt hf)).2.2

theorem beyond_lt (hf : f.Ok) (rm : RM) (neg : Bool) : f.beyond rm neg < 2 ^ f.width := by
  have h := inf_lt hf neg
  have hmax : f.maxFin neg < 2 ^ f.width := (Nat.sub_le (f.inf neg) 1).trans_lt h
  unfold Fmt.beyond
  cases rm with
  | rne => exact h
  | rtz => exact hmax
  | rup => dsimp only; split <;> assumption
  | rdn => dsimp only; split <;> assumption

theorem roundDy_lt (hf : f.Ok) (rm : RM) (d : Dy) (z : Bool) : (f.roundDy rm d z).1 < 2 ^ f.width := by
  unfold Fmt.roundDy
  split
  next => exact signBit_lt hf z
  next hm =>
    have hex : IsExact f d.neg d.m d.e false (d.val : ℝ) := by
      have habs : |(d.val : ℝ)| = (d.m : ℝ) * 2 ^ d.e := by rw [← Rat.cast_abs, d.abs_val]; push_cast; rfl
      exact ⟨Nat.pos_of_ne_zero hm, by exact_mod_cast Dy.val_neg_iff hm, habs⟩
    rcases round_cases hf hex rm with ⟨-, hr⟩ | ⟨k, part, -, hlt, b, hr⟩
    · rw [hr]
      exact beyond_lt hf rm _
    · rw [hr]
      exact (encoding_parts hf _ (hlt.trans (finLim_lt hf))).2.2

theorem add_lt (hf : f.Ok) (rm : RM) (a b : Nat) : (f.add rm a b).1 < 2 ^ f.width := by
  unfold Fmt.add
  split
  next => exact qnan_lt hf
  next => exact qnan_lt hf
  next => split <;> [exact inf_lt hf _; exact qnan_lt hf]
  next => exact inf_lt hf _
  next => exact inf_lt hf _
  next => exact roundDy_lt hf rm _ _

end

/-! ### Words (R131, R132) -/

/-- The fields of a merged word: the factor stands, the stamp is that of the merge. -/
theorem ebbMergeAdd_fields (w x g : Nat) (fact : Nat → Nat) : let v := (ebbMergeAdd w x g fact).1
    v / 2 ^ 60 = 0 ∧ v / 2 ^ 56 % 16 = w / 2 ^ 56 % 16 ∧ v / 2 ^ 32 % 2 ^ 24 = g % 2 ^ 24
      ∧ v % 2 ^ 32 = (fmt32.add .rne (ebbRead w g fact).w x).1 := by
  have hs : (fmt32.add .rne (ebbRead w g fact).w x).1 < 2 ^ 32 := add_lt ok32 .rne _ _
  unfold ebbMergeAdd
  dsimp only
  omega

/-- A word of the current stamp has not decayed. -/
theorem ebbRead_now {w g : Nat} {f : Nat → Nat} (hw : w / 2 ^ 60 = 0) (hg : w / 2 ^ 32 % 2 ^ 24 = g)
    (hf : factorOk (w / 2 ^ 56 % 16) (f (w / 2 ^ 56 % 16)) = true) :
    (ebbRead w g f).w = (mul32 ⟨w % 2 ^ 32, 24, 0⟩ ⟨0x3F800000, 24, 0⟩).w := by
  have hd : ebbDist g (w / 2 ^ 32 % 2 ^ 24) = 0 := by
    unfold ebbDist
    omega
  unfold ebbRead
  rw [if_neg (not_not.mpr hw), hd]
  dsimp only
  rw [hf]
  rfl

/-! ### `EBBLD` (R131, R364) -/

/-- A value and flags that an access has put into its entries stand in them when the access has performed. -/
theorem mem_queue_of_put {s t : State} {a : Access} {c : Nat} {q : Seq} (hp : Performs s a c q) (hw : s.Works t) (hs : t.seq c q = s.seq c q)
    (v : Reg) (fl : Flg) : ∀ e ∈ (s.seq c q).queue, e.held = some a.link → ∀ d w, e.eff = .reg d w →
      { e with eff := .reg d v, held := none, flags := e.flags ||| fl } ∈ (((t.deliver a (QEntry.put v fl)).finish a).seq c q).queue := by
  intro e he hh r w heff
  have hput : e.put v fl = { e with eff := .reg r v, flags := e.flags ||| fl } := by
    unfold QEntry.put
    rw [heff]
  have hd := hw.deliver a (QEntry.put v fl)
  rw [State.finish_alone hp hd, State.seq_deliver (t := (t.deliver a (QEntry.put v fl)).dropAccess a.id) hd.tidy hp.owner]
  refine List.mem_map.2 ⟨e.put v fl, ?_, ?_⟩
  · show e.put v fl ∈ ((t.deliver a _).seq c q).queue
    rw [State.seq_deliver hw.tidy hp.owner, hs]
    exact List.mem_map.2 ⟨e, he, if_pos hh⟩
  · rw [hput]
    exact if_pos hh

theorem performOne_ebbld {s : State} {a : Access} {c : Nat} {q : Seq} (ho : a.owner = .seq c q) (hk : a.kind = .ebbld) :
    let pa := s.placePa a.place 8 false
    let r := ebbRead (s.num pa 8) (s.gstepOf a.place.moor) (s.factAt a.place.moor a.place.va)
    s.performOne a = (s.deliver a (QEntry.put ⟨BitVec.ofNat 64 r.w, BitVec.ofNat 6 r.s, s.anyPoison pa 8⟩ r.fl)).finish a := by
  unfold State.performOne
  dsimp only
  rw [State.accPa_seq ho, hk]
  rfl

theorem ebbld_performs {s : State} {a : Access} {c : Nat} {q : Seq} (hp : Performs s a c q) (hk : a.kind = .ebbld) :
    let pa := s.placePa a.place 8 false
    let r := ebbRead (s.num pa 8) (s.gstepOf a.place.moor) (s.factAt a.place.moor a.place.va)
    ∃ t, exec (.accessPerform a.id) s = .next t ∧ Gone s t a ∧ t.mem = s.mem
      ∧ ∀ e ∈ (s.seq c q).queue, e.held = some a.link → ∀ d w, e.eff = .reg d w →
        { e with eff := .reg d ⟨BitVec.ofNat 64 r.w, BitVec.ofNat 6 r.s, s.anyPoison pa 8⟩, held := none, flags := e.flags ||| r.fl }
          ∈ (t.seq c q).queue := by
  intro pa r
  obtain ⟨hs, hx⟩ := exec_accessPerform hp
  have hw := works_holds hp.canon hs
  have hd := hw.deliver a (QEntry.put ⟨BitVec.ofNat 64 r.w, BitVec.ofNat 6 r.s, s.anyPoison pa 8⟩ r.fl)
  exact ⟨_, hx.trans (congrArg _ (performOne_ebbld hp.owner hk)), gone_of_works hp hd,
    (State.finish_fields hp hd).1.trans (State.deliver_fields ..).1, mem_queue_of_put hp hw rfl _ _⟩

/-! ### Merge-adds (R132, R199) -/

theorem performOne_ebbRead {s : State} {a : Access} {c : Nat} {q : Seq} (ho : a.owner = .seq c q) {x : Reg} {ret : Bool}
    (hk : a.kind = .ebbRead x ret) :
    let pa := s.placePa a.place 8 false
    ∃ hs, s.performOne a = State.dropAccess { s with
      accesses := s.accesses ++ [{ a with
        id := s.nextId, t := s.now + 24, kind := .ebbWrite x (BitVec.ofNat 64 (s.num pa 8)) (s.anyPoison pa 8) ret, wait := false }]
      nextId := s.nextId + 1, holds := hs } a.id := by
  unfold State.performOne
  dsimp only
  rw [State.accPa_seq ho, hk]
  exact ⟨_, rfl⟩

theorem ebbRead_performs {s : State} {a : Access} {c : Nat} {x : Reg} {ret : Bool} (hp : Performs s a c .primary) (hk : a.kind = .ebbRead x ret)
    (hwait : a.wait = false) (hid : a.id < s.nextId) :
    let pa := s.placePa a.place 8 false
    ∃ t, exec (.accessPerform a.id) s = .next t ∧ t.mem = s.mem ∧ t.cores = s.cores ∧ a ∉ t.accesses
      ∧ { a with id := s.nextId, t := s.now + 24, kind := .ebbWrite x (BitVec.ofNat 64 (s.num pa 8)) (s.anyPoison pa 8) ret } ∈ t.accesses := by
  intro pa
  have hnew : ∀ id t k, ({ a with id := id, t := t, kind := k, wait := false } : Access) = { a with id := id, t := t, kind := k } := fun _ _ _ => by
    rw [← hwait]
  obtain ⟨hs, hx⟩ := exec_accessPerform hp
  obtain ⟨hs', hone⟩ := performOne_ebbRead (s := { s with holds := hs }) hp.owner hk
  refine ⟨_, hx.trans (congrArg _ hone), rfl, rfl, fun ha => ?_, ?_⟩
  · simpa using (List.mem_filter.mp ha).2
  · refine List.mem_filter.mpr ⟨List.mem_append.mpr (.inr (List.mem_singleton.mpr (hnew ..).symm)), ?_⟩
    simpa using hid.ne'

theorem performOne_ebbWrite {s : State} {a : Access} {c : Nat} (ho : a.owner = .seq c .primary) {x : Reg} {old : BitVec 64} {p : Bool}
    (hk : a.kind = .ebbWrite x old p false) :
    let r := ebbMergeAdd old.toNat (x.val.toNat % 2 ^ 32) (s.gstepOf a.place.moor) (s.factAt a.place.moor a.place.va)
    ∃ fl ps, s.performOne a = ((s.flagAccess a fl).putBytes (s.placePa a.place 8 false) (natBytes 8 r.1) ps).finish a := by
  unfold State.performOne
  dsimp only
  rw [State.accPa_seq ho, hk, ho]
  exact ⟨_, _, rfl⟩

theorem ebbWrite_performs {s : State} {a : Access} {c : Nat} {x : Reg} {old : BitVec 64} {p : Bool} (hp : Performs s a c .primary)
    (hk : a.kind = .ebbWrite x old p false) :
    let pa := s.placePa a.place 8 false
    let r := ebbMergeAdd old.toNat (x.val.toNat % 2 ^ 32) (s.gstepOf a.place.moor) (s.factAt a.place.moor a.place.va)
    ∃ t, exec (.accessPerform a.id) s = .next t ∧ Gone s t a ∧ Writes s t pa (natBytes 8 r.1) := by
  intro pa r
  obtain ⟨hs, hx⟩ := exec_accessPerform hp
  obtain ⟨fl, ps, hone⟩ := performOne_ebbWrite (s := { s with holds := hs }) hp.owner hk
  have hf := (works_holds hp.canon hs).flagAccess a fl
  have hw := hf.putBytes pa (natBytes 8 r.1) ps
  have hmem : ((State.flagAccess { s with holds := hs } a fl).putBytes pa (natBytes 8 r.1) ps).mem = s.mem.write pa (natBytes 8 r.1) := by
    unfold State.flagAccess
    split <;> rfl
  exact ⟨_, hx.trans (congrArg _ hone), gone_of_works hp hw, writes_of_mem hp.canon.mem ((State.finish_fields hp hw).1.trans hmem)⟩

theorem gstepOf_mod (s : State) (m : Option Nat) : s.gstepOf m % 2 ^ 24 = s.gstepOf m := by
  cases m with
  | none => rfl
  | some k => exact Nat.mod_mod _ _

/-- Settles O35: each access performs as the branch of its kind, and the merged word's fields lie apart. -/
theorem ebbAccessesPerform : Obligations.EbbAccessesPerform := by
  refine ⟨fun s a c q hp hk => ebbld_performs hp hk, fun s a c x ret hp hk => ebbRead_performs hp hk, fun s a c x old p hp hk => ?_,
    fun w g f hw hg _ hf => ebbRead_now hw hg hf⟩
  obtain ⟨t, hx, hgone, hwrites⟩ := ebbWrite_performs hp hk
  have hv := ebbMergeAdd_fields old.toNat (x.val.toNat % 2 ^ 32) (s.gstepOf a.place.moor) (s.factAt a.place.moor a.place.va)
  rw [gstepOf_mod] at hv
  exact ⟨t, _, hx, hgone, hwrites, hv⟩

end Sys2Proof.Machine
end

section
/-! SUPPORT. Drains of checkpoints as they copy pages and end (R304, R305): O41. -/

namespace Sys2Proof.Machine
open Config Spec

/-! ### Parts of a sparse map -/

section
variable {α : Type} [DecidableEq α] {d : α}

/-- The part of a map whose keys a predicate admits. -/
theorem sget_filter_key (p : Nat → Bool) (n : Nat) : ∀ {l : List (Nat × α)} {b : Nat}, swf d b l = true →
    sget d (l.filter fun c => p c.1) n = if p n then sget d l n else d
  | [], _, _ => by simp [sget]
  | (k, v) :: l, b, h => by
    simp only [swf, Bool.and_eq_true, decide_eq_true_eq] at h
    have ih := sget_filter_key p n h.2
    rw [List.filter_cons]
    by_cases hk : p k = true
    · simp only [hk, if_true, sget, ih]
      rcases lt_trichotomy n k with hn | rfl | hn
      · simp [hn]
      · simp [hk]
      · simp [hn.not_gt, hn.ne']
    · simp only [if_neg hk, sget, ih]
      rcases lt_trichotomy n k with hn | rfl | hn
      · simp [hn, sget_of_lt h.2 (by omega : n < k + 1)]
      · simp [hk]
      · simp [hn.not_gt, hn.ne']

/-- A map after the entries of another one, from key `src` on, are written from key `dst` on. -/
theorem sget_foldl_moved (src dst y : Nat) : ∀ {l : List (Nat × α)} {b : Nat} {m : List (Nat × α)},
    (∀ c ∈ l, src ≤ c.1) → swf d b l = true → Tidy d m →
    sget d (l.foldl (fun m c => sset d m (dst + (c.1 - src)) c.2) m) y =
      if dst ≤ y ∧ sget d l (src + (y - dst)) ≠ d then sget d l (src + (y - dst)) else sget d m y
  | [], _, _, _, _, _ => by simp [sget]
  | (k, v) :: l, b, m, hb, h, hm => by
    simp only [swf, Bool.and_eq_true, decide_eq_true_eq] at h
    obtain ⟨⟨hk, hv⟩, hl⟩ := h
    have hsrc : src ≤ k := hb (k, v) List.mem_cons_self
    rw [List.foldl_cons, sget_foldl_moved src dst y (fun c hc => hb c (List.mem_cons_of_mem _ hc)) hl (tidy_sset hm _ _), sget]
    by_cases hy : y = dst + (k - src)
    · have hx : src + (y - dst) = k := by omega
      rw [hx, sget_of_lt hl (Nat.lt_succ_self k), hy, sget_sset_self hm, if_neg (by simp), if_neg (lt_irrefl k), if_pos rfl,
        if_pos ⟨Nat.le_add_right _ _, hv⟩]
    · rw [sget_sset_other hm _ hy]
      by_cases hd : dst ≤ y
      · have hx : src + (y - dst) ≠ k := by omega
        rw [if_neg hx]
        rcases lt_or_gt_of_ne hx with hlt | hgt
        · rw [if_pos hlt, sget_of_lt hl (by omega)]
        · rw [if_neg hgt.not_gt]
      · rw [if_neg fun h => hd h.1, if_neg fun h => hd h.1]

end

/-! ### Pieces of 64 KiB -/

/-- A piece is copied byte by byte. -/
theorem copyPiece_byte {s : State} (h : s.mem.wf = true) (src dst y : Nat) :
    (s.copyPiece src dst).byte y = if dst ≤ y ∧ y < dst + pieceSize then s.byte (src + (y - dst)) else s.byte y := by
  have hsrc := sget_filter_key (fun a => decide (src ≤ a) && decide (a < src + pieceSize)) (src + (y - dst)) h
  have hdst := sget_filter_key (fun a => !(decide (dst ≤ a) && decide (a < dst + pieceSize))) y h
  have hmove := sget_foldl_moved src dst y (l := s.mem.filter fun c => decide (src ≤ c.1) && decide (c.1 < src + pieceSize))
    (fun c hc => by have := (List.mem_filter.mp hc).2; simp at this; exact this.1) (swf_filter _ h)
    (swf_filter (fun c => !(decide (dst ≤ c.1) && decide (c.1 < dst + pieceSize))) h)
  refine hmove.trans ?_
  rw [hsrc, hdst]
  change _ = if dst ≤ y ∧ y < dst + pieceSize then sget Memory.unlisted s.mem (src + (y - dst)) else sget Memory.unlisted s.mem y
  by_cases hd : dst ≤ y
  · by_cases hy : y < dst + pieceSize
    · have hx : src + (y - dst) < src + pieceSize := by omega
      by_cases h0 : sget Memory.unlisted s.mem (src + (y - dst)) = Memory.unlisted <;> simp [hd, hy, hx, h0]
    · have hx : ¬src + (y - dst) < src + pieceSize := by omega
      simp [hd, hy, hx]
  · simp [hd]

theorem copyPiece_wf {s : State} (h : s.mem.wf = true) (src dst : Nat) : (s.copyPiece src dst).mem.wf = true :=
  tidy_foldl (fun c : Nat × Byte => dst + (c.1 - src)) (fun c => c.2) _ (swf_filter _ h)

/-- Pieces that are copied in turn, when none is copied over one still to come and no two to one place. -/
theorem copyPieces {src dst : Nat → Nat} : ∀ {l : List Nat} {s : State}, s.mem.wf = true → l.Nodup →
    (∀ i ∈ l, src i % pieceSize = 0 ∧ dst i % pieceSize = 0) →
    (∀ i ∈ l, ∀ k ∈ l, src i ≠ dst k ∧ (i ≠ k → dst i ≠ dst k)) →
    let t := l.foldl (fun t i => t.copyPiece (src i) (dst i)) s
    t.moorings = s.moorings ∧ (∀ i ∈ l, ∀ x < pieceSize, t.byte (dst i + x) = s.byte (src i + x))
      ∧ ∀ y, (∀ i ∈ l, dst i ≠ y / pieceSize * pieceSize) → t.byte y = s.byte y
  | [], _, _, _, _, _ => ⟨rfl, by simp, fun _ _ => rfl⟩
  | a :: l, s, h, hn, hal, hne => by
    obtain ⟨hna, hn⟩ := List.nodup_cons.mp hn
    have hblock : ∀ b x, b % pieceSize = 0 → x < pieceSize → (b + x) / pieceSize * pieceSize = b := fun b x hb hx => by
      unfold pieceSize at *
      omega
    have hkeep : ∀ y, dst a ≠ y / pieceSize * pieceSize → (s.copyPiece (src a) (dst a)).byte y = s.byte y := fun y hy => by
      have := (hal a (by simp)).2
      rw [copyPiece_byte h, if_neg]
      unfold pieceSize at *
      omega
    obtain ⟨hm, hcopy, hrest⟩ := copyPieces (src := src) (dst := dst) (copyPiece_wf h (src a) (dst a)) hn (fun i hi => hal i (by simp [hi]))
      fun i hi k hk => hne i (by simp [hi]) k (by simp [hk])
    refine ⟨hm, fun i hi x hx => ?_, fun y hy => ?_⟩
    · rcases List.mem_cons.mp hi with rfl | hi
      · have hother : ∀ k ∈ l, dst k ≠ (dst i + x) / pieceSize * pieceSize := fun k hk => by
          rw [hblock _ x (hal i (by simp)).2 hx]
          exact ((hne i (by simp) k (by simp [hk])).2 fun he => hna (he ▸ hk)).symm
        refine (hrest _ hother).trans ?_
        rw [copyPiece_byte h, if_pos ⟨by omega, by omega⟩, Nat.add_sub_cancel_left]
      · refine (hcopy i hi x hx).trans (hkeep _ ?_)
        rw [hblock _ x (hal i (by simp [hi])).1 hx]
        exact (hne i (by simp [hi]) a (by simp)).1.symm
    · exact (hrest y fun i hi => hy i (by simp [hi])).trans (hkeep y (hy a (by simp)))

/-- The pieces of the next page, copied. -/
def drainedPage (s : State) (d : Drain) : State :=
  (List.range 32).foldl (fun t i => t.copyPiece (d.pieces.getD (32 * d.nextPage + i) 0) (d.dest.getD (32 * d.nextPage + i) 0)) s

theorem exec_chkptDrainPage {s : State} {m : Nat} {d : Drain} (hm : m < nMoorings) (hd : (s.moor m).drain = some d) (hlt : d.nextPage < d.pages)
    (hnow : s.now + 1 = (d.f0 + 8 * (d.nextPage + 1)) * frameCycles) :
    exec (.chkptDrainPage m) s = .next ((drainedPage s d).updMoor m fun x => { x with drain := some { d with nextPage := d.nextPage + 1 } }) := by
  have hat : d.pageAt d.nextPage = s.now := by
    unfold Drain.pageAt
    omega
  have hk : pageSize / pieceSize = 32 := by decide
  change execChkptDrainPage m s = _
  unfold execChkptDrainPage drainedPage
  rw [if_pos hm, hd]
  dsimp only
  rw [if_pos ⟨hlt, hat⟩, hk]

/-- The pieces of page n lie apart: none is copied over another, and no two to one place. -/
def Apart (d : Drain) (n : Nat) : Prop :=
  ∀ i < 32, ∀ k < 32, d.pieces.getD (32 * n + i) 0 % 65536 = 0 ∧ d.dest.getD (32 * n + i) 0 % 65536 = 0
    ∧ d.pieces.getD (32 * n + i) 0 ≠ d.dest.getD (32 * n + k) 0 ∧ (i ≠ k → d.dest.getD (32 * n + i) 0 ≠ d.dest.getD (32 * n + k) 0)

theorem drainedPage_byte {s : State} (h : s.mem.wf = true) {d : Drain} (hp : Apart d d.nextPage) :
    (∀ i < 32, ∀ x < 65536, (drainedPage s d).byte (d.dest.getD (32 * d.nextPage + i) 0 + x) = s.byte (d.pieces.getD (32 * d.nextPage + i) 0 + x))
    ∧ ∀ x, (∀ i < 32, d.dest.getD (32 * d.nextPage + i) 0 ≠ x / 65536 * 65536) → (drainedPage s d).byte x = s.byte x := by
  have hal : ∀ i ∈ List.range 32, d.pieces.getD (32 * d.nextPage + i) 0 % pieceSize = 0 ∧ d.dest.getD (32 * d.nextPage + i) 0 % pieceSize = 0 :=
    fun i hi => by
      obtain ⟨h1, h2, -⟩ := hp i (List.mem_range.mp hi) i (List.mem_range.mp hi)
      exact ⟨h1, h2⟩
  obtain ⟨-, hcopy, hrest⟩ := copyPieces (src := fun i => d.pieces.getD (32 * d.nextPage + i) 0)
    (dst := fun i => d.dest.getD (32 * d.nextPage + i) 0)
    h List.nodup_range hal fun i hi k hk => (hp i (List.mem_range.mp hi) k (List.mem_range.mp hk)).2.2
  exact ⟨fun i hi => hcopy i (List.mem_range.mpr hi), fun x hx => hrest x fun i hi => hx i (List.mem_range.mp hi)⟩

theorem byte_updMoor (s : State) (m : Nat) (f : Mooring → Mooring) : (s.updMoor m f).byte = s.byte := rfl

theorem exec_chkptDrainEnd {s : State} {m : Nat} {d : Drain} (hm : m < nMoorings) (hd : (s.moor m).drain = some d) (hn : d.nextPage = d.pages) :
    exec (.chkptDrainEnd m) s =
      .next (((s.putClean d.head (natBytes 3 d.gstep)).putClean (d.head + 4) (natBytes 4 d.pages)).updMoor m fun x => { x with drain := none }) := by
  change execChkptDrainEnd m s = _
  unfold execChkptDrainEnd
  rw [if_pos hm, hd]
  dsimp only
  rw [if_pos hn]

theorem drain_end {s : State} {m : Nat} {d : Drain} (hs : s.Canon) (hm : m < nMoorings) (hd : (s.moor m).drain = some d) (hn : d.nextPage = d.pages) :
    ∃ t, exec (.chkptDrainEnd m) s = .next t ∧ (t.moor m).drain = none
      ∧ ∀ x, t.byte x = overlay (overlay s.byte d.head (natBytes 3 d.gstep)) (d.head + 4) (natBytes 4 d.pages) x := by
  have h1 : (s.putClean d.head (natBytes 3 d.gstep)).byte = overlay s.byte d.head (natBytes 3 d.gstep) := funext (writes_of_mem hs.mem rfl)
  have h2 : Writes (s.putClean d.head (natBytes 3 d.gstep)) ((s.putClean d.head (natBytes 3 d.gstep)).putClean (d.head + 4) (natBytes 4 d.pages))
    (d.head + 4) (natBytes 4 d.pages) := writes_of_mem (Memory.wf_write _ hs.mem _) rfl
  refine ⟨_, exec_chkptDrainEnd hm hd hn, by rw [State.moor_updMoor hm], fun x => ?_⟩
  rw [← h1]
  exact h2 x

theorem drainsCopy : DrainsCopy := by
  refine ⟨fun s m n d hs hm hd hn hlt hnow hp => ?_, fun s m d hs hm hd hn => drain_end hs hm hd hn⟩
  subst hn
  obtain ⟨hcopy, hrest⟩ := drainedPage_byte hs.mem (d := d) hp
  refine ⟨_, exec_chkptDrainPage hm hd hlt hnow, by rw [State.moor_updMoor hm], ?_⟩
  rw [byte_updMoor]
  exact ⟨hcopy, hrest⟩

end Sys2Proof.Machine
end

section
/-! SUPPORT. Near-memory blocks of FP32 elements as they perform (R238 to R240): O41. -/

namespace Sys2Proof.Machine
open Config Spec

/-- A command after an update of the commands of its number. -/
theorem cmd_updCmd {s : State} {id : Nat} {c : Cmd} (h : s.cmd id = some c) {f : Cmd → Cmd} (hf : ∀ d, (f d).id = d.id) :
    (s.updCmd id f).cmd id = some (f c) := by
  have hid : c.id = id := by simpa using List.find?_some h
  have hp : ((fun d : Cmd => d.id == id) ∘ fun d : Cmd => if d.id = id then f d else d) = fun d => d.id == id := by
    funext d
    by_cases hd : d.id = id <;> simp [hd, hf]
  change (s.cmds.map fun d => if d.id = id then f d else d).find? (fun d => d.id == id) = _
  rw [List.find?_map, hp]
  change (s.cmd id).map _ = _
  rw [h, Option.map_some, if_pos hid]

theorem cmd_tally {s : State} {c : Cmd} (h : s.cmd c.id = some c) (n : Nat) (fl : Flg) :
    (s.tally c.id n fl).cmd c.id = some { c with doneBytes := c.doneBytes + n, fl := c.fl ||| (fl.setWidth 6).setWidth 8 } :=
  cmd_updCmd h fun _ => rfl

theorem cmd_endCmd {s : State} {id : Nat} {c : Cmd} (h : s.cmd id = some c) (st : CmdSt) :
    (s.endCmd id st).cmd id = some { c with st := st, ended := true } := cmd_updCmd h fun _ => rfl

/-! ### The elements (R239) -/

/-- The new value of an element of a FILL or a SCALE of form 0. -/
def nmValue (b : NmB) (w : Nat) : Nat := if b.op = 3 then (fmt32.cvt fmt32 .rne b.alpha).1 else (mulTo fmt32 b.alpha w).1

theorem nmElem_eq (s : State) {b : NmB} (hform : b.form = 0) (hop : b.op ∈ [2, 3]) (p : Place) (w x : Nat) :
    (s.nmElem b p w x).1 = nmValue b w := by
  have hout : b.out = fmt32 := if_neg (by omega)
  have hup : b.up w = (w, 0) := if_neg (by omega)
  unfold State.nmElem nmValue
  rw [hout, hup]
  simp only [List.mem_cons, List.not_mem_nil, or_false] at hop
  rcases hop with hop | hop <;> simp [hop]

theorem badBursts_of_clean {s : State} (he : s.errs = []) (hp : s.poison = []) (pa n : Nat) : s.badBursts pa n = [] := by
  unfold State.badBursts
  rw [he, hp]
  simp [poisonAt, sget]

/-- The bytes of a block's elements after it. -/
def nmBytes (s : State) (b : NmB) (pa : Nat) : List Byte := (List.range b.count).flatMap fun i => natBytes 4 (nmValue b (s.num (pa + 4 * i) 4))

/-- A FILL or a SCALE of form 0 on clean bursts without a gauge writes its elements and ends its command. -/
theorem nmPerform_eq {s : State} {c : Cmd} {ch pa q : Nat} (hwork : c.work = [ch, pa, q]) (hform : c.nm.form = 0) (hop : c.nm.op ∈ [2, 3])
    (hg : c.nm.gauge = 0xFFFFFFFF) (hfrozen : s.frozenIn pa (4 * c.nm.count) = false) (he : s.errs = []) (hp : s.poison = []) :
    ∃ ps n fl, s.nmPerform c = ((s.putBytes pa (nmBytes s c.nm pa) ps).tally c.id n fl).endCmd c.id .done := by
  have hsize : c.nm.size = 4 := if_pos hform
  have hsrc : c.nm.hasSrc = false := by
    simp only [List.mem_cons, List.not_mem_nil, or_false] at hop
    exact decide_eq_false (by omega)
  have hbytes : c.nm.bytes = 4 * c.nm.count := by rw [NmB.bytes, hsize, Nat.mul_comm]
  have hpa : c.work.getD 1 0 = pa := by rw [hwork]; rfl
  have hraise : ∀ (t : State) (n k : Nat), t.raiseLate c c.nm.gauge n k = t := fun t n k => if_pos hg
  unfold State.nmPerform
  dsimp only
  rw [hpa, hbytes, if_neg (by rw [hfrozen]; exact Bool.false_ne_true), badBursts_of_clean he hp, hsrc, ite_self, if_neg Bool.false_ne_true]
  simp only [List.append_nil, List.eraseDups_nil, List.foldl_nil, List.isEmpty_nil, if_true, hraise, hsize, List.flatMap_map, nmElem_eq s hform hop]
  exact ⟨_, _, _, rfl⟩

theorem exec_nmBlockPerform {s : State} {c : Cmd} {ch : Nat} {b : NmBlk} (hc : s.cmd c.id = some c) (hlive : c.ended = false)
    (hb : b ∈ (s.chan ch).nmq) (hid : b.cmd = c.id) (hrun : b.runAt = some s.now) :
    exec (.nmBlockPerform ch c.id) s = .next ((s.updChan ch fun k => { k with nmq := k.nmq.filter fun x => x.cmd != c.id }).nmPerform c) := by
  have hany : ((s.chan ch).nmq.any fun x => x.cmd == c.id && x.runAt == some s.now) = true := List.any_eq_true.mpr ⟨b, hb, by simp [hid, hrun]⟩
  change execNmBlockPerform ch c.id s = _
  unfold execNmBlockPerform
  rw [hc]
  dsimp only
  rw [if_pos hany, hlive]
  rfl

theorem blocksPerform : BlocksPerform := by
  intro s c m ch pa q b hw hwork hb hid hrun hform hop hg hfrozen he hp
  let u := s.updChan ch fun k => { k with nmq := k.nmq.filter fun x => x.cmd != c.id }
  obtain ⟨ps, n, fl, hperf⟩ := nmPerform_eq (s := u) hwork hform hop hg hfrozen he hp
  refine ⟨_, _, (exec_nmBlockPerform hw.found hw.live hb hid hrun).trans (congrArg _ hperf),
    cmd_endCmd (cmd_tally (s := u.putBytes pa (nmBytes u c.nm pa) ps) hw.found n fl) .done, rfl, rfl, fun x hx => ?_, ?_⟩
  · have hq : (u.chan ch).nmq = (s.chan ch).nmq.filter fun x => x.cmd != c.id :=
      congrArg Channel.nmq ((State.chan_setChan hw.canon.channels ch ch _).trans (if_pos rfl))
    have : x ∈ (u.chan ch).nmq := hx
    rw [hq] at this
    simpa using (List.mem_filter.mp this).2
  · exact writes_of_mem hw.canon.mem rfl

end Sys2Proof.Machine
end

section
/-! SUPPORT. Granules and ends of an `EBBSWEEP` (R132, R303): O41. -/

namespace Sys2Proof.Machine
open Config Spec

/-! ### Places of a task without lenses -/

section
variable {s t : State}

theorem lenses_of_zero {m : Nat} (h : (s.moor m).lens = 0) : s.lenses m = [] := if_pos h

/-- A change of memory moves no place of a task without lenses, whose pinned mappings memory does not hold. -/
theorem engPlace_congr (hm : t.moorings = s.moorings) {c : Cmd} {m : Nat} (hw : Works s c m) (hl : (s.moor m).lens = 0) (va : Nat) (p : Perm) :
    t.engPlace c va p = s.engPlace c va p := by
  have hmoor := State.moor_of_moorings hm
  have hlt : (t.moor m).lens = 0 := by rw [hmoor, hl]
  have hvia : c.via = .pins m := by rw [Cmd.via, hw.stream, hw.mooring]
  have hplain : ∀ a, t.plainTr (.pins m) c.core a p = s.plainTr (.pins m) c.core a p := fun a => by
    simp only [State.plainTr, State.pageTr, hmoor]
  have hown : t.moorOf c.core = some m := (State.moorOf_congr (s := s) (t := t) (fun d => by rw [hmoor]; exact ⟨rfl, rfl⟩) c.core).trans hw.owner
  unfold State.engPlace State.placeAt
  rw [hown, hw.owner, hvia]
  simp only [State.resolve, lenses_of_zero hlt, lenses_of_zero hl, hplain]

theorem placePa_engPlace (hm : t.moorings = s.moorings) {c : Cmd} {m : Nat} (hw : Works s c m) (hl : (s.moor m).lens = 0) (va n : Nat) (p : Perm)
    (dark : Bool) : t.placePa (s.engPlace c va p) n dark = s.placePa (s.engPlace c va p) n dark := by
  have hlt : (t.moor m).lens = 0 := by rw [State.moor_of_moorings hm, hl]
  unfold State.engPlace State.placeAt
  rw [hw.owner]
  simp only [State.placePa, lenses_of_zero hlt, lenses_of_zero hl]

theorem mergeAt_congr (hm : t.moorings = s.moorings) (p : Place) (w x : Nat) : t.mergeAt p w x = s.mergeAt p w x := by
  have hmoor := State.moor_of_moorings hm
  have hg : t.gstepOf p.moor = s.gstepOf p.moor := by simp only [State.gstepOf, hmoor]
  have hf : t.factAt p.moor p.va = s.factAt p.moor p.va := by
    funext fi
    simp only [State.factAt, State.regionOf, hmoor]
  unfold State.mergeAt
  rw [hg, hf]

end

/-! ### Words and granules -/

/-- The bytes of a word after a merge-add of +0. -/
def sweptWord (s : State) (c : Cmd) (va : Nat) : List Byte :=
  natBytes 8 (s.mergeAt (s.engPlace c va .w) (s.num (s.placePa (s.engPlace c va .w) 8 false) 8) 0).1

theorem sweepWord_mem (s : State) (c : Cmd) (va : Nat) :
    (s.sweepWord c va).mem = s.mem.write (s.placePa (s.engPlace c va .w) 8 false) (sweptWord s c va) := rfl

/-- The words of a granule, merged in turn. -/
def sweptGranule (s : State) (c : Cmd) (w : Nat × Nat) : State := (List.range w.2).foldl (fun t i => t.sweepWord c (w.1 + 8 * i)) s

/-- What merging words leaves alone. -/
theorem foldl_sweepWord_fields (c : Cmd) (va : Nat → Nat) : ∀ (l : List Nat) (s : State), let t := l.foldl (fun t i => t.sweepWord c (va i)) s
    t.moorings = s.moorings ∧ t.accesses = s.accesses ∧ t.nextId = s.nextId ∧ t.now = s.now
  | [], _ => ⟨rfl, rfl, rfl, rfl⟩
  | i :: l, s => foldl_sweepWord_fields c va l (s.sweepWord c (va i))

theorem writes_sweptGranule_one {s : State} (h : s.mem.wf = true) (c : Cmd) {w : Nat × Nat} (hw : w.2 = 1) :
    Writes s (sweptGranule s c w) (s.placePa (s.engPlace c (w.1 + 8 * 0) .w) 8 false) (sweptWord s c (w.1 + 8 * 0)) := by
  have hone : sweptGranule s c w = s.sweepWord c (w.1 + 8 * 0) := by
    unfold sweptGranule
    rw [hw]
    rfl
  rw [hone]
  exact writes_of_mem h (sweepWord_mem s c _)

/-- A number is that of before where a write does not reach. -/
theorem num_of_writes {s t : State} {a b n : Nat} {bs : List Byte} (h : Writes s t a bs) (hd : b + n ≤ a ∨ a + bs.length ≤ b) :
    t.num b n = s.num b n := by
  refine congrArg leNat (Memory.read_congr fun x h1 h2 => (h x).trans (if_neg ?_))
  omega

theorem sweptGranule_two {s : State} {c : Cmd} {m : Nat} (hc : Works s c m) (hl : (s.moor m).lens = 0) {w : Nat × Nat} (hw : w.2 = 2) :
    let pa (i : Nat) := s.placePa (s.engPlace c (w.1 + 8 * i) .w) 8 false
    (pa 0 + 8 ≤ pa 1 ∨ pa 1 + 8 ≤ pa 0) → ∀ a, (sweptGranule s c w).byte a
      = overlay (overlay s.byte (pa 0) (sweptWord s c (w.1 + 8 * 0))) (pa 1) (sweptWord s c (w.1 + 8 * 1)) a := by
  intro pa hd a
  let u := s.sweepWord c (w.1 + 8 * 0)
  have htwo : sweptGranule s c w = u.sweepWord c (w.1 + 8 * 1) := by
    unfold sweptGranule
    rw [hw]
    rfl
  have hu : Writes s u (pa 0) (sweptWord s c (w.1 + 8 * 0)) := writes_of_mem hc.canon.mem (sweepWord_mem s c (w.1 + 8 * 0))
  have hplace : u.engPlace c (w.1 + 8 * 1) .w = s.engPlace c (w.1 + 8 * 1) .w := engPlace_congr (s := s) (t := u) rfl hc hl (w.1 + 8 * 1) .w
  have hpa : u.placePa (u.engPlace c (w.1 + 8 * 1) .w) 8 false = pa 1 := by
    rw [hplace]
    exact placePa_engPlace (s := s) (t := u) rfl hc hl (w.1 + 8 * 1) 8 .w false
  have hlen : (sweptWord s c (w.1 + 8 * 0)).length = 8 := length_natBytes 8 _
  have hword : sweptWord u c (w.1 + 8 * 1) = sweptWord s c (w.1 + 8 * 1) := by
    unfold sweptWord
    rw [hpa, num_of_writes hu (by rw [hlen]; omega), hplace, mergeAt_congr (s := s) (t := u) rfl]
  have hwf : u.mem.wf = true := Memory.wf_write _ hc.canon.mem _
  have h2 := writes_of_mem hwf (sweepWord_mem u c (w.1 + 8 * 1)) a
  rw [hpa, hword, show u.byte = _ from funext hu] at h2
  rw [htwo]
  exact h2

/-- The granule of a sweep in its cycle. -/
theorem exec_ebbSweepGranule {s : State} {c : Cmd} {m : Nat} {r : Region} {h : HRd} {n : Fin 16} {j g : Nat} {ts : List Nat} (hc : Works s c m)
    (hi : c.instr = .ebbsweep h n) (hop : c.opc = 0x2A) (hst : c.st = .running) (hr : (s.moor m).regions[n.val]? = some r)
    (hwork : c.work = j :: g :: ts) (hnow : ts[j]? = some s.now) : ∃ f : Cmd → Cmd, exec (.ebbSweepGranule c.id) s =
      .next (if j + 1 = r.granules then ((sweptGranule s c (r.wordsIn j)).updCmd c.id f).addStep c.id s.now stepTail
        else (sweptGranule s c (r.wordsIn j)).updCmd c.id f) := by
  have hdue : s.sweepDue c = true := by
    have hhead : (c.work.drop (2 + c.work.headD 0)).head? = some s.now := by
      rw [hwork, Nat.add_comm]
      change (ts.drop j).head? = _
      rw [List.head?_drop, hnow]
    unfold State.sweepDue
    rw [hhead, hop, hst]
    simp
  have hreg : (s.moor m).regions.getD c.region Region.off = r := by
    rw [Cmd.region, hi, List.getD_eq_getElem?_getD, hr]
    rfl
  change ∃ f : Cmd → Cmd, execEbbSweepGranule c.id s = _
  unfold execEbbSweepGranule
  rw [hc.found]
  dsimp only
  rw [if_pos hdue, hc.mooring]
  dsimp only
  rw [hreg, hwork]
  exact ⟨_, rfl⟩

theorem granule_performs {s : State} {c : Cmd} {m : Nat} {r : Region} {h : HRd} {n : Fin 16} {j g : Nat} {ts : List Nat} (hc : Works s c m)
    (hi : c.instr = .ebbsweep h n) (hop : c.opc = 0x2A) (hst : c.st = .running) (hr : (s.moor m).regions[n.val]? = some r)
    (hwork : c.work = j :: g :: ts) (hnow : ts[j]? = some s.now) : ∃ t, exec (.ebbSweepGranule c.id) s = .next t
      ∧ (t.moor m).regions = (s.moor m).regions ∧ t.byte = (sweptGranule s c (r.wordsIn j)).byte
      ∧ (j + 1 = r.granules → ⟨s.nextId, s.now, .cmd c.id, .phys 0, .eng stepTail 0, false, false, .own, 6, s.now, c.id⟩ ∈ t.accesses) := by
  obtain ⟨f, hx⟩ := exec_ebbSweepGranule hc hi hop hst hr hwork hnow
  obtain ⟨hmoor, hacc, hid, hn⟩ := foldl_sweepWord_fields c (fun i => (r.wordsIn j).1 + 8 * i) (List.range (r.wordsIn j).2) s
  have hregions : ∀ u : State, u.moorings = s.moorings → (u.moor m).regions = (s.moor m).regions := fun u hu => by rw [State.moor_of_moorings hu]
  refine ⟨_, hx, ?_, ?_, fun hj => ?_⟩
  · split
    · exact hregions _ hmoor
    · exact hregions _ hmoor
  · split <;> rfl
  · rw [if_pos hj]
    refine List.mem_append.mpr (.inr (List.mem_singleton.mpr ?_))
    change _ = (⟨(sweptGranule s c (r.wordsIn j)).nextId, s.now, .cmd c.id, .phys 0, .eng stepTail 0, false, false, .own, 6,
      (sweptGranule s c (r.wordsIn j)).now, c.id⟩ : Access)
    unfold sweptGranule
    rw [hid, hn]

/-! ### The end of a sweep (R303) -/

theorem tableWrite_moorings (s : State) (m pa : Nat) (bs : List Byte) :
    (s.tableWrite m pa bs).moorings = s.moorings ∧ (s.tableWrite m pa bs).cmds = s.cmds := by
  unfold State.tableWrite
  split
  · exact ⟨rfl, rfl⟩
  · split <;> exact ⟨rfl, rfl⟩

theorem writeRegion_moorings (s : State) (m i : Nat) : (s.writeRegion m i).moorings = s.moorings ∧ (s.writeRegion m i).cmds = s.cmds := by
  unfold State.writeRegion
  split
  · exact tableWrite_moorings ..
  · exact ⟨rfl, rfl⟩

theorem byte_tableWrite {s : State} (h : s.mem.wf = true) (m pa b : Nat) (bs : List Byte) (hb : ¬(pa ≤ b ∧ b < pa + bs.length)) :
    (s.tableWrite m pa bs).byte b = s.byte b := by
  unfold State.tableWrite
  split
  · rfl
  · split
    · rfl
    · exact (writes_of_mem (t := s.putClean pa bs) h rfl b).trans (if_neg hb)

/-- An entry goes back to bytes 12 to 15 of its place in the table. -/
theorem byte_writeRegion {s : State} (h : s.mem.wf = true) (m i b : Nat) (hb : ∀ q, s.regionPa m i 0 = some q → ¬(q + 12 ≤ b ∧ b < q + 16)) :
    (s.writeRegion m i).byte b = s.byte b := by
  unfold State.writeRegion
  split
  next r pa hr hpa =>
    have hout := hb pa hpa
    refine byte_tableWrite h m (pa + 12) b _ ?_
    rw [List.length_cons, length_natBytes]
    omega
  next => rfl

theorem exec_sweepTail {s : State} {c : Cmd} {m : Nat} (hc : Works s c m) (hcls : c.cls = .pkg) {a : Access} (hfound : s.findAccess a.id = some a)
    (ho : a.owner = .cmd c.id) (ht : a.t = s.now) (hwait : a.wait = false) (hk : a.kind = .eng stepTail 0) :
    exec (.accessPerform a.id) s = .next ((s.dropAccess a.id).sweepTail c) := by
  have hblock : a.isBlock = false := by
    unfold Access.isBlock
    rw [hk]
    exact Bool.and_false _
  have hecc : s.eccAccess a = s := by
    refine if_neg ?_
    rw [hk]
    simp [AKind.looks]
  have hwaits : s.engWaits a c = false := by
    unfold State.engWaits State.looseCmd
    rw [hblock, hc.mooring]
    dsimp only
    rw [hc.normal]
    rfl
  change execAccessPerform a.id s = _
  unfold execAccessPerform
  rw [hfound]
  dsimp only
  rw [ho]
  dsimp only
  rw [hc.found]
  dsimp only
  rw [if_pos ⟨ht, hwait⟩, hecc]
  unfold State.engPerform
  rw [hwaits, hblock, if_neg Bool.false_ne_true, hc.live, hk]
  dsimp only
  rw [Bool.false_and, if_neg Bool.false_ne_true, if_neg Bool.false_ne_true]
  unfold State.classStep
  rw [if_neg fun h => absurd h.1 (by decide), hcls]
  rfl

/-- The last step of a sweep: LAST and SW of its region, the end of its command, and nothing else in memory. -/
theorem sweepTail_spec {s : State} {c : Cmd} {m : Nat} {r : Region} {h : HRd} {n : Fin 16} {j g : Nat} {ts : List Nat} (hm : m < nMoorings)
    (hmem : s.mem.wf = true) (hfound : s.cmd c.id = some c) (hmooring : c.mooring = some m) (hi : c.instr = .ebbsweep h n)
    (hr : (s.moor m).regions[n.val]? = some r) (hwork : c.work = j :: g :: ts) :
    let t := s.sweepTail c
    t.cmd c.id = some { c with st := .done, ended := true } ∧ (t.moor m).regions[n.val]? = some { r with last := g, sw := false }
      ∧ ∀ b, (∀ q, s.regionPa m n.val 0 = some q → ¬(q + 12 ≤ b ∧ b < q + 16)) → t.byte b = s.byte b := by
  intro t
  let u := s.updMoor m fun k => { k with regions := k.regions.modify n.val fun x => { x with last := g, sw := false } }
  have ht : t = (u.writeRegion m n.val).endCmd c.id .done := by
    change s.sweepTail c = _
    unfold State.sweepTail Cmd.region
    rw [hmooring, hi, hwork]
    rfl
  obtain ⟨hmoor, hcmds⟩ := writeRegion_moorings u m n.val
  have hcmd : (u.writeRegion m n.val).cmd c.id = some c := by
    unfold State.cmd
    rw [hcmds]
    exact hfound
  have hpa : u.regionPa m n.val 0 = s.regionPa m n.val 0 := by
    have hu : (u.moor m).pins = (s.moor m).pins ∧ (u.moor m).ebbtab = (s.moor m).ebbtab := by rw [State.moor_updMoor hm]; exact ⟨rfl, rfl⟩
    unfold State.regionPa
    rw [State.moorPa_congr hu.1, hu.2]
  rw [ht]
  refine ⟨cmd_endCmd hcmd .done, ?_, fun b hb => ?_⟩
  · change ((u.writeRegion m n.val).moor m).regions[n.val]? = _
    rw [State.moor_of_moorings hmoor, State.moor_updMoor hm]
    dsimp only
    rw [List.getElem?_modify_eq, hr]
    rfl
  · exact byte_writeRegion (s := u) hmem m n.val b (by rwa [hpa])

theorem sweepsMergeGranules : SweepsMergeGranules := by
  refine ⟨fun s c m r h n j g ts hc _ hi hop hst hr hwork hnow => ?_,
    fun s c m r h n j g ts a hc hm hi hcls _ hr hwork hfound ho ht hwait _ hk => ?_⟩
  · obtain ⟨t, hx, hregions, hbyte, hlast⟩ := granule_performs hc hi hop hst hr hwork hnow
    refine ⟨t, hx, hregions, fun hone a => ?_, fun htwo hl hd a => ?_, hlast⟩
    · rw [hbyte]
      exact writes_sweptGranule_one hc.canon.mem c hone a
    · rw [hbyte]
      exact sweptGranule_two hc hl htwo hd a
  · obtain ⟨hcmd, hregion, hbyte⟩ := sweepTail_spec (s := s.dropAccess a.id) hm hc.canon.mem hc.found hc.mooring hi hr hwork
    exact ⟨_, _, _, exec_sweepTail hc hcls hfound ho ht hwait hk, hcmd, rfl, rfl, hregion, rfl, rfl, hbyte⟩

/-- Settles O41: sweeps, near-memory blocks and drains each act through one equation of their event. -/
theorem memoryUnitsRun : Obligations.MemoryUnitsRun := ⟨sweepsMergeGranules, blocksPerform, drainsCopy⟩

end Sys2Proof.Machine
end
